-- ==== Sys2Proof/Word.lean ====
section
/-! DEFINITION. Sys2Proof/Word.lean: the word types of the TLN-E24. -/

namespace Sys2Proof

/-- A byte of memory. -/
abbrev Byte := BitVec 8

/-- A scalar or special register, 64 bits (R86). -/
abbrev Word := BitVec 64

/-- A vector register, 512 bytes (R88): byte k stands in bits 8k to 8k+7. -/
abbrev VReg := BitVec 4096

/-- A mask register, 512 bits (R89). -/
abbrev MReg := BitVec 512

/-- A table from numbers to values, held as a list of pairs. -/
abbrev Table (α : Type) := List (Nat × α)

end Sys2Proof
end

