-- ==== Sys2Proof/Syntax.lean ====
section
/-! DEFINITION. Sys2Proof/Syntax.lean: the instructions of the Iluton set, with the fields of their one 96-bit word
(R51), and the events of the device, one constructor for each row of the opcode table. -/

namespace Sys2Proof

/-- The fields of an instruction word below GRP and OP (R51), each under the name of R51's table. Which of them an
instruction uses, and which values it accepts, is the business of WellFormed.lean (R52, R62). -/
structure Fields where
  /-- GN [85]: guard negate. -/
  gn : Bool := false
  /-- GP [84:81]: guard predicate. -/
  gp : BitVec 4 := 15
  /-- D [80:73]: destination operand. -/
  d : BitVec 8 := 0
  /-- A [72:65]: first source operand. -/
  a : BitVec 8 := 0
  /-- B [64:57]: second source operand. -/
  b : BitVec 8 := 0
  /-- MSK.E [56]: mask enable. -/
  mskE : Bool := false
  /-- MSK.M [55:53]: mask register. -/
  mskM : BitVec 3 := 0
  /-- W [52:49]: type code (R22). -/
  w : BitVec 4 := 0
  /-- STALL [48:45]: stall count. -/
  stall : BitVec 4 := 0
  /-- HINT.Y [44]: yield. -/
  hintY : Bool := false
  /-- HINT.L [43]: last use of the B tile. -/
  hintL : Bool := false
  /-- HINT.C [42:41]: cache class. -/
  hintC : BitVec 2 := 0
  /-- F [40:33]: function modifiers. -/
  f : BitVec 8 := 0
  /-- I [32]: IMM replaces B. -/
  i : Bool := false
  /-- IMM [31:0]: immediate. -/
  imm : BitVec 32 := 0
  deriving DecidableEq, Repr

/-- A dependency entry of a causal stamp: an agent and the low 16 bits of its count (R389). -/
structure Dep where
  agent : Nat
  count : BitVec 16
  deriving DecidableEq, Repr

/-- A causal packet as it arrives (R389, R390): its stamp, its class (R388: 0 requests, 1 responses, 2 probes and
notices, 3 data), its own dependencies, and the ASN it carries an access for, if any (R396). -/
structure Packet where
  src : Nat
  cls : Nat
  seq : BitVec 16
  rsn : BitVec 4
  ackv : BitVec 16
  deps : List Dep
  asn : Option (BitVec 16)
  deriving DecidableEq, Repr

/-- A horizon beat (R393): its source, the source's S, LAST of the receiver for the four classes, and ACKV. -/
structure Beat where
  src : Nat
  s : BitVec 32
  last : List (BitVec 32)
  ackv : BitVec 16
  deriving DecidableEq, Repr

/-- One member's share of a collective, as its package sends it (R345, R346): the GID, the rank, the parameters its COLL
gave, and its contribution. -/
structure CollShare where
  gid : Nat
  rank : Nat
  op : Nat
  w : Nat
  quant : Bool
  count : Nat
  data : List Byte
  reachable : Bool
  deriving DecidableEq, Repr

/-- Where an uncorrectable or a corrected error strikes (R111, R229, R230, R232): a line, a compression block of 8 lines,
line k of a core's instruction cache, a word of lane memory, a line of a register store. -/
inductive ErrorSite where
  | line (line : Nat)
  | block (block : Nat)
  | icLine (core : Nat) (k : Nat)
  | l1Line (core : Nat) (line : Nat)
  | coordLine (core : Nat) (line : Nat)
  | l2Line (die : Nat) (line : Nat)
  | laneWord (core : Nat) (word : Nat)
  | regStore (h : Nat) (line : Nat)
  | correctedCore (core : Nat)
  | correctedL2 (die : Nat)
  | correctedHbm (hub : Nat)
  | correctedHub (hub : Nat)
  deriving DecidableEq, Repr

/-- How a predecessor of a task ended (R309). -/
inductive PredEnd where
  | retired | cancelled | failed
  deriving DecidableEq, Repr

/-- What a host access names: an offset of the HDM window through a port, or a physical address of host memory, which a die
may hold (R358, R426); or an offset of the CXL.io memory BAR of a port, which is that of its hub's configuration block (R424;
DESIGN CHOICE, log 45). -/
inductive HostAddr where
  | window (port : Nat) (off : Nat)
  | memory (pa : Nat)
  | bar (port : Nat) (off : Nat)
  deriving DecidableEq, Repr

/-- The message types the device answers over MCTP (R430), and a message for the supervisor (R427). -/
inductive MgmtMessage where
  | control | spdmMeasurements | vendorReport | forSupervisor
  deriving DecidableEq, Repr

/-- A firmware image that a boot ROM verifies (R431): the SHA-256 hash of its key, its version, and whether its ECDSA signature
verifies under that key. -/
structure Firmware where
  keyHash : BitVec 256
  version : Nat
  signed : Bool
  deriving DecidableEq, Repr

/-- The two images that a boot ROM loads: that of Stobry and the hub firmware (R431). -/
structure BootImages where
  stobry : Firmware
  hubFirmware : Firmware
  deriving DecidableEq, Repr

/-- The range of an MTLBINV (R355). -/
inductive InvScope where
  | page (asn : BitVec 16) (base : Nat) (size : Nat) (purge : Bool)
  | asn (asn : BitVec 16) (purge : Bool)
  | all (purge : Bool)
  deriving DecidableEq, Repr

/-- One constructor for each row of the opcode table: 226 instruction forms, which carry the fields of their word, and
80 events of the device, which carry what the outside or the order of the agents decides about them. -/
inductive Instr where
  /-- ADD (R113). Scalar integer add of sa and sb or an immediate, wrapping to the width of W. -/
  | add (o : Fields)
  /-- SUB (R113). Scalar integer subtract, wrapping to the width of W. -/
  | sub (o : Fields)
  /-- MUL (R113). Scalar integer multiply giving the low n bits of the product. -/
  | mul (o : Fields)
  /-- MULH (R113). Scalar integer multiply giving the upper n bits of the 2n-bit product. -/
  | mulh (o : Fields)
  /-- DIV (R114). Scalar integer divide truncating toward zero; never traps and has defined results for divide by zero and overflow. -/
  | div (o : Fields)
  /-- REM (R114). Scalar integer remainder with the defined exceptional cases of DIV. -/
  | rem (o : Fields)
  /-- AND (R113). Scalar bitwise AND. -/
  | and (o : Fields)
  /-- OR (R113). Scalar bitwise OR. -/
  | or (o : Fields)
  /-- XOR (R113). Scalar bitwise XOR. -/
  | xor (o : Fields)
  /-- ANDN (R113). Scalar AND of sa with the complement of the second source. -/
  | andn (o : Fields)
  /-- SHL (R113). Scalar shift left by the second source modulo n. -/
  | shl (o : Fields)
  /-- SHR (R113). Scalar logical shift right. -/
  | shr (o : Fields)
  /-- SRA (R113). Scalar arithmetic shift right. -/
  | sra (o : Fields)
  /-- ROTR (R113). Scalar rotate right within n bits. -/
  | rotr (o : Fields)
  /-- MIN (R113). Scalar minimum, signed or unsigned by W. -/
  | min (o : Fields)
  /-- MAX (R113). Scalar maximum, signed or unsigned by W. -/
  | max (o : Fields)
  /-- CLZ (R113). Count leading zero bits of sa. -/
  | clz (o : Fields)
  /-- CTZ (R113). Count trailing zero bits of sa. -/
  | ctz (o : Fields)
  /-- POPC (R113). Count one bits of sa. -/
  | popc (o : Fields)
  /-- BREV (R113). Reverse the bit order of sa within n bits. -/
  | brev (o : Fields)
  /-- EXT (R113). Sign- or zero-extend the low n bits of sa. -/
  | ext (o : Fields)
  /-- BFX (R115). Extract a bit field of sa, sign- or zero-extended. -/
  | bfx (o : Fields)
  /-- BFI (R115). Insert the low bits of sa into a field of sd. -/
  | bfi (o : Fields)
  /-- MOV (R115). Copy sa, or a sign-extended immediate, into sd. -/
  | mov (o : Fields)
  /-- LIH (R115). Place the immediate in bits 63:32 above the low 32 bits of sa. -/
  | lih (o : Fields)
  /-- SEL (R115). Select sa or the second source by a predicate. -/
  | sel (o : Fields)
  /-- CMP (R115). Integer compare writing a predicate. -/
  | cmp (o : Fields)
  /-- FADD (R116). Scalar floating add with one rounding, flags ORed at the end of its latency. -/
  | fadd (o : Fields)
  /-- FSUB (R116). Scalar floating subtract. -/
  | fsub (o : Fields)
  /-- FMUL (R116). Scalar floating multiply. -/
  | fmul (o : Fields)
  /-- FFMA (R116). Scalar fused multiply-add into sd with one rounding. -/
  | ffma (o : Fields)
  /-- FDIV (R116). Scalar floating divide, correctly rounded, variable latency. -/
  | fdiv (o : Fields)
  /-- FSQRT (R116). Scalar floating square root, correctly rounded. -/
  | fsqrt (o : Fields)
  /-- FMIN (R117). Scalar floating minimum with NaN and signed-zero rules. -/
  | fmin (o : Fields)
  /-- FMAX (R117). Scalar floating maximum with NaN and signed-zero rules. -/
  | fmax (o : Fields)
  /-- FCMP (R118). Floating compare writing a predicate. -/
  | fcmp (o : Fields)
  /-- FCVT (R119). Scalar conversion between any two non-MXI8 types. -/
  | fcvt (o : Fields)
  /-- PLOG (R120). Predicate logic by a four-bit truth table. -/
  | plog (o : Fields)
  /-- PMOV (R121). Copy one predicate to another. -/
  | pmov (o : Fields)
  /-- PMOV_SCALAR (R121). Set a predicate from whether a scalar is non-zero. -/
  | pmovScalar (o : Fields)
  /-- PMOV_ALL (R121). Load p0 to p14 from the low bits of a scalar. -/
  | pmovAll (o : Fields)
  /-- BRA (R122). PC-relative branch. -/
  | bra (o : Fields)
  /-- JMP (R122). Jump to a register plus offset. -/
  | jmp (o : Fields)
  /-- CALL (R122). PC-relative call writing the return address to s62. -/
  | call (o : Fields)
  /-- CALL_REG (R122). Register-indirect call writing the return address to s62. -/
  | callReg (o : Fields)
  /-- RET (R122). Return to the address in sa, s62 by default. -/
  | ret (o : Fields)
  /-- LOOP (R122). Decrement a counter and branch while it is non-zero. -/
  | loop (o : Fields)
  /-- SETVL (R130). Set VL and VTYPE at issue, push a queue entry that installs them, and close the strip. -/
  | setvl (o : Fields)
  /-- TRAP (R125). Enter the supervisor with cause SOFTWARE and the immediate in TINFO. -/
  | trap (o : Fields)
  /-- ERET (R126). Return from a trap to TPC at the saved privilege, restoring IE and clearing MFRZ. -/
  | eret (o : Fields)
  /-- MFS (R127). Read a special register into a scalar. -/
  | mfs (o : Fields)
  /-- MTS (R128). Write a special register field by field. -/
  | mts (o : Fields)
  /-- END (R323). Close the strip with a queued marker and request the next strip, or enter the ending state. -/
  | endI (o : Fields)
  /-- YIELD (R324). Give up issue turns until every other ready hart of the core has issued. -/
  | yield (o : Fields)
  /-- YIELD_REL (R324). Release the hart slot after pre-emption, leaving the parked block in the image. -/
  | yieldRel (o : Fields)
  /-- NOP (R123). No operation beyond stall and yield hints. -/
  | nop (o : Fields)
  /-- TFENCE (R298). Wait for the queue and scalar floating flags, then trap ARITH if an enabled flag is set. -/
  | tfence (o : Fields)
  /-- VADD (R140). Vector integer add. -/
  | vadd (o : Fields)
  /-- VSUB (R140). Vector integer subtract. -/
  | vsub (o : Fields)
  /-- VMUL (R140). Vector integer multiply, low bits. -/
  | vmul (o : Fields)
  /-- VMULH (R140). Vector integer multiply, high bits. -/
  | vmulh (o : Fields)
  /-- VMADD (R140). Vector integer multiply-add into vd. -/
  | vmadd (o : Fields)
  /-- VDIV (R140). Vector integer divide with the cases of R114. -/
  | vdiv (o : Fields)
  /-- VREM (R140). Vector integer remainder. -/
  | vrem (o : Fields)
  /-- VAND (R140). Vector bitwise AND. -/
  | vand (o : Fields)
  /-- VOR (R140). Vector bitwise OR. -/
  | vor (o : Fields)
  /-- VXOR (R140). Vector bitwise XOR. -/
  | vxor (o : Fields)
  /-- VSHL (R140). Vector shift left. -/
  | vshl (o : Fields)
  /-- VSHR (R140). Vector logical shift right. -/
  | vshr (o : Fields)
  /-- VSRA (R140). Vector arithmetic shift right. -/
  | vsra (o : Fields)
  /-- VMIN (R140). Vector integer minimum. -/
  | vmin (o : Fields)
  /-- VMAX (R140). Vector integer maximum. -/
  | vmax (o : Fields)
  /-- VABSD (R140). Vector absolute difference. -/
  | vabsd (o : Fields)
  /-- VSADD (R140). Vector saturating add setting SAT on clamp. -/
  | vsadd (o : Fields)
  /-- VSSUB (R140). Vector saturating subtract. -/
  | vssub (o : Fields)
  /-- VCMP (R141). Vector integer compare writing a mask. -/
  | vcmp (o : Fields)
  /-- VSEL (R141). Select elements of va or the second source by a mask. -/
  | vsel (o : Fields)
  /-- VWADD (R142). Widening vector add. -/
  | vwadd (o : Fields)
  /-- VWMUL (R142). Widening vector multiply. -/
  | vwmul (o : Fields)
  /-- VNSHR (R143). Narrowing shift right with optional saturation. -/
  | vnshr (o : Fields)
  /-- VID (R144). Write each active element's index. -/
  | vid (o : Fields)
  /-- VIOTA (R144). Write the count of set mask bits below each element. -/
  | viota (o : Fields)
  /-- VFADD (R145). Vector floating add. -/
  | vfadd (o : Fields)
  /-- VFSUB (R145). Vector floating subtract. -/
  | vfsub (o : Fields)
  /-- VFMUL (R145). Vector floating multiply. -/
  | vfmul (o : Fields)
  /-- VFMA (R145). Vector fused multiply-add into vd. -/
  | vfma (o : Fields)
  /-- VFNMA (R145). Vector negated fused multiply-add. -/
  | vfnma (o : Fields)
  /-- VFDIV (R145). Vector floating divide. -/
  | vfdiv (o : Fields)
  /-- VFSQRT (R145). Vector floating square root. -/
  | vfsqrt (o : Fields)
  /-- VFEXP (R145). Vector correctly rounded exponential. -/
  | vfexp (o : Fields)
  /-- VFMIN (R146). Vector floating minimum. -/
  | vfmin (o : Fields)
  /-- VFMAX (R146). Vector floating maximum. -/
  | vfmax (o : Fields)
  /-- VFCMP (R146). Vector floating compare writing a mask. -/
  | vfcmp (o : Fields)
  /-- VFCLASS (R146). Classify each floating element into a one-hot integer. -/
  | vfclass (o : Fields)
  /-- VFCVT (R147). Vector type conversion. -/
  | vfcvt (o : Fields)
  /-- VFSCALE (R145). Multiply each element by a power of two. -/
  | vfscale (o : Fields)
  /-- VFSGN (R146). Replace sign bits by copy, negation or XOR of another sign. -/
  | vfsgn (o : Fields)
  /-- VFQNT (R148). Quantise FP32 elements into scaled blocks with computed or given scales. -/
  | vfqnt (o : Fields)
  /-- VFDQNT (R149). Expand scaled codes to FP32, raising RESERVED_CODE precisely. -/
  | vfdqnt (o : Fields)
  /-- VFAMAX (R146). Elementwise maximum of finite magnitudes. -/
  | vfamax (o : Fields)
  /-- VSLIDEUP (R157). Slide elements up by an offset. -/
  | vslideup (o : Fields)
  /-- VSLIDEDN (R157). Slide elements down by an offset. -/
  | vslidedn (o : Fields)
  /-- VSLIDEIN_UP (R158). Shift up by one and insert a scalar at element 0. -/
  | vslideinUp (o : Fields)
  /-- VSLIDEIN_DN (R158). Shift down by one and insert a scalar at element VL-1. -/
  | vslideinDn (o : Fields)
  /-- VPERM (R157). Permute elements by a vector of indices. -/
  | vperm (o : Fields)
  /-- VXCH (R157). Exchange elements at distance 2^k. -/
  | vxch (o : Fields)
  /-- VCOMPRESS (R159). Pack selected elements to the front. -/
  | vcompress (o : Fields)
  /-- VEXPAND (R159). Spread packed elements to selected positions. -/
  | vexpand (o : Fields)
  /-- VBCAST (R157). Broadcast one element of va. -/
  | vbcast (o : Fields)
  /-- VMVSX (R160). Move a scalar into element 0. -/
  | vmvsx (o : Fields)
  /-- VMVXS (R160). Join reading one vector element into a scalar. -/
  | vmvxs (o : Fields)
  /-- VRED (R162). Integer reduction into element 0 of vd. -/
  | vred (o : Fields)
  /-- VRED_X (R161). Integer reduction joined into a scalar. -/
  | vredX (o : Fields)
  /-- VFREDO (R163). Ordered floating sum reduction. -/
  | vfredo (o : Fields)
  /-- VFREDT (R163). Fixed-tree floating sum reduction. -/
  | vfredt (o : Fields)
  /-- VFREDMX (R164). Exact floating max, min or abs-max reduction. -/
  | vfredmx (o : Fields)
  /-- MLOG (R165). Mask logic by truth table. -/
  | mlog (o : Fields)
  /-- MPOPC (R166). Join counting active set mask bits. -/
  | mpopc (o : Fields)
  /-- MFIRST (R166). Join finding the first active set mask bit. -/
  | mfirst (o : Fields)
  /-- MSET (R167). Clear, set, or set bits before or through the first set bit of a mask. -/
  | mset (o : Fields)
  /-- VSORTK (R169). Stable sort of key-index pairs within groups of G. -/
  | vsortk (o : Fields)
  /-- VMERGEK (R170). Keep the best k entries of each group by a merge tree. -/
  | vmergek (o : Fields)
  /-- VSEGRED (R173). Reduce each VSEG segment into one element. -/
  | vsegred (o : Fields)
  /-- VSEGNORM (R174). Normalise each segment's members to their share of the sum. -/
  | vsegnorm (o : Fields)
  /-- VSEGSCAN (R173). Inclusive or exclusive scan within segments. -/
  | vsegscan (o : Fields)
  /-- VSETSEG (R171). Load VSEG offsets and count. -/
  | vsetseg (o : Fields)
  /-- VGETSEG (R171). Store VSEG into a vector register. -/
  | vgetseg (o : Fields)
  /-- FBUILD (R179). Build a fibre from a coordinate-value vector pair, checking ascent. -/
  | fbuild (o : Fields)
  /-- FSPLIT (R180). Write a fibre into a vector pair. -/
  | fsplit (o : Fields)
  /-- FISECT (R183). Intersect two fibres into an output pair. -/
  | fisect (o : Fields)
  /-- FUNION (R183). Union two fibres, combining matches. -/
  | funion (o : Fields)
  /-- FMERGE (R183). Merge two fibres into an aligned output pair. -/
  | fmerge (o : Fields)
  /-- FCOMPACT (R184). Drop positions of a pair with a zero value. -/
  | fcompact (o : Fields)
  /-- FEXPAND (R181). Scatter a fibre into a dense vector. -/
  | fexpand (o : Fields)
  /-- FGATHER (R182). Gather dense values at a fibre's coordinates. -/
  | fgather (o : Fields)
  /-- FMUL_FIBRE (R185). Multiply two fibres position by position. -/
  | fmulFibre (o : Fields)
  /-- FDOT (R183). Join computing the sparse dot product of two fibres. -/
  | fdot (o : Fields)
  /-- FSCALE (R185). Multiply each fibre value by a scalar. -/
  | fscale (o : Fields)
  /-- FOCC (R185). Join reading a fibre's occupancy. -/
  | focc (o : Fields)
  /-- FSHIFT (R185). Shift fibre coordinates, dropping those out of range. -/
  | fshift (o : Fields)
  /-- FSORT (R186). Build a fibre from an unsorted pair, combining repeats. -/
  | fsort (o : Fields)
  /-- FRED (R185). Join reducing a fibre's values. -/
  | fred (o : Fields)
  /-- FCLEAR (R185). Set a fibre's occupancy to zero. -/
  | fclear (o : Fields)
  /-- FCLEAR_PAIR (R185). Set the occupancy of a fibre pair to zero. -/
  | fclearPair (o : Fields)
  /-- MMA (R198). Matrix multiply-accumulate into C or the partial buffer, optionally promoting. -/
  | mma (o : Fields)
  /-- MMAS (R200). Matrix multiply-accumulate with 2:4 sparse A. -/
  | mmas (o : Fields)
  /-- MMAG (R201). Matrix multiply-accumulate with B rows gathered from lane memory. -/
  | mmag (o : Fields)
  /-- MPROM (R202). Promote the partial buffer into C with scales and clear it. -/
  | mprom (o : Fields)
  /-- MZERO (R203). Clear the partial buffer. -/
  | mzero (o : Fields)
  /-- MZERO_C (R203). Clear the partial buffer and the C group. -/
  | mzeroC (o : Fields)
  /-- MDRAIN (R204). Copy 32 partial-buffer entries into a vector register. -/
  | mdrain (o : Fields)
  /-- MFILL (R204). Load 32 partial-buffer entries from a vector register. -/
  | mfill (o : Fields)
  /-- MSTAT (R205). Join reading matrix engine status. -/
  | mstat (o : Fields)
  /-- LD (R239). Scalar load. -/
  | ld (o : Fields)
  /-- ST (R239). Scalar store. -/
  | st (o : Fields)
  /-- VLD (R240). Unit-stride vector load. -/
  | vld (o : Fields)
  /-- VST (R240). Unit-stride vector store. -/
  | vst (o : Fields)
  /-- VLDS (R240). Strided vector load. -/
  | vlds (o : Fields)
  /-- VSTS (R240). Strided vector store. -/
  | vsts (o : Fields)
  /-- VLDX (R240). Indexed vector load. -/
  | vldx (o : Fields)
  /-- VSTX (R240). Indexed vector store. -/
  | vstx (o : Fields)
  /-- VLDF (R242). Load codes and scales from a formatted page. -/
  | vldf (o : Fields)
  /-- VSTF (R243). Quantise FP32 and store codes and scales to a formatted page. -/
  | vstf (o : Fields)
  /-- VLDP (R244). Load from peer lane memory on the die. -/
  | vldp (o : Fields)
  /-- VSTP (R244). Store to peer lane memory on the die. -/
  | vstp (o : Fields)
  /-- PREF (R250). Prefetch a line, optionally with ownership; never faults. -/
  | pref (o : Fields)
  /-- CBINV_WB (R251). Write back dirty copies of a line at a scope. -/
  | cbinvWb (o : Fields)
  /-- CBINV_WBI (R251). Write back and drop every copy of a line at a scope. -/
  | cbinvWbi (o : Fields)
  /-- CBINV_DISC (R251). Drop every copy of a line without write-back. -/
  | cbinvDisc (o : Fields)
  /-- FENCE (R252). Hold until earlier accesses are performed at the scope. -/
  | fence (o : Fields)
  /-- FENCE_I (R252). Fence at core scope and invalidate the instruction cache. -/
  | fenceI (o : Fields)
  /-- AMO (R246). Scalar atomic read-modify-write at the home. -/
  | amo (o : Fields)
  /-- CAS (R246). Scalar compare-and-swap at the home. -/
  | cas (o : Fields)
  /-- VAMO (R247). Vector element atomics in ascending order. -/
  | vamo (o : Fields)
  /-- VLDC (R253). Load from a coordinate volume, background for absent tiles. -/
  | vldc (o : Fields)
  /-- VSTC (R253). Store to a coordinate volume, allocating absent tiles. -/
  | vstc (o : Fields)
  /-- VAMOC (R253). Atomics on coordinate-volume elements. -/
  | vamoc (o : Fields)
  /-- FLD (R255). Load a fibre from memory, checking ascent. -/
  | fld (o : Fields)
  /-- FST (R255). Store a fibre to memory. -/
  | fst (o : Fields)
  /-- FWALK (R256). Read one segment of a compressed level into a fibre. -/
  | fwalk (o : Fields)
  /-- VQSYNC (R300). Wait until the live vector queue is empty. -/
  | vqsync (o : Fields)
  /-- VQREPLAY (R301). Reinstate a parked block of queue entries and clear VFRZ. -/
  | vqreplay (o : Fields)
  /-- QBIND (R334). Bind a stream register from a descriptor. -/
  | qbind (o : Fields)
  /-- QRD (R336). Read VL elements from a stream into a vector. -/
  | qrd (o : Fields)
  /-- FLDQ (R337). Deliver one segment of a fibre-level stream into a fibre. -/
  | fldq (o : Fields)
  /-- QREL (R338). Release a stream register. -/
  | qrel (o : Fields)
  /-- ACOPY (R341). Issue a copy-engine copy, returning promise and ticket. -/
  | acopy (o : Fields)
  /-- ACOPY2 (R342). Issue a copy-engine patch gather. -/
  | acopy2 (o : Fields)
  /-- WAITT (R344). Wait for a ticket, raising its fault record or PROMISE_MISSED. -/
  | waitt (o : Fields)
  /-- COLL_ARSUM (R346). Issue an all-reduce sum collective. -/
  | collArsum (o : Fields)
  /-- COLL_ARMAX (R346). Issue an all-reduce max collective. -/
  | collArmax (o : Fields)
  /-- COLL_AG (R346). Issue an all-gather collective. -/
  | collAg (o : Fields)
  /-- COLL_RSSUM (R346). Issue a reduce-scatter sum collective. -/
  | collRssum (o : Fields)
  /-- COLL_RSMAX (R346). Issue a reduce-scatter max collective. -/
  | collRsmax (o : Fields)
  /-- TOKSEND (R348). Place token rows at slot addresses and increment count words. -/
  | toksend (o : Fields)
  /-- TASKPUB (R325). Publish a TCB after earlier accesses are performed. -/
  | taskpub (o : Fields)
  /-- TASKCAN (R327). Cancel a waiting or ready task, reporting the outcome. -/
  | taskcan (o : Fields)
  /-- ARRIVE (R328). Arrive on a quad or die barrier after earlier accesses are performed. -/
  | arrive (o : Fields)
  /-- WAITB (R328). Wait until a barrier's phase passes a generation. -/
  | waitb (o : Fields)
  /-- SLEEP (R329). Wait for the wake flag or a timeout. -/
  | sleep (o : Fields)
  /-- WAKE (R329). Set the wake flag of a hart of the same task. -/
  | wake (o : Fields)
  /-- CLBINV (R372). Broadcast a drop of CLB entries for a volume root. -/
  | clbinv (o : Fields)
  /-- CLBINV_ALL (R372). Broadcast a drop of every CLB entry of the ASN. -/
  | clbinvAll (o : Fields)
  /-- VIEWREG (R382). Register a view, install watches and create blocks. -/
  | viewreg (o : Fields)
  /-- VIEWDEL (R383). Delete a view registration. -/
  | viewdel (o : Fields)
  /-- VIEWSYNC (R384). Wait until a view block is fresh and covers a tag. -/
  | viewsync (o : Fields)
  /-- VIEWSYNC_TW (R384). Wait until a SHARD tag word covers a tag. -/
  | viewsyncTw (o : Fields)
  /-- VIEWSTAT (R385). Read a view block's state by view address. -/
  | viewstat (o : Fields)
  /-- VIEWSTAT_D (R385). Read a view block's state by descriptor and block index. -/
  | viewstatD (o : Fields)
  /-- MTLBINV_PAGE (R355). Drop translations of one page, optionally purging cached lines. -/
  | mtlbinvPage (o : Fields)
  /-- MTLBINV_ASN (R355). Drop every translation of an ASN, optionally purging. -/
  | mtlbinvAsn (o : Fields)
  /-- MTLBINV_ALL (R355). Drop every translation, optionally purging. -/
  | mtlbinvAll (o : Fields)
  /-- PMIG (R361). Start a page migration on the hub's migration copy engine. -/
  | pmig (o : Fields)
  /-- BIASSET_HOST (R360). Flip a granule to host bias. -/
  | biassetHost (o : Fields)
  /-- BIASSET_DEV (R360). Flip a granule to device bias. -/
  | biassetDev (o : Fields)
  /-- FRECINV (R363). Discard retained snapshots of one format record. -/
  | frecinv (o : Fields)
  /-- FRECINV_ALL (R363). Discard snapshots of all format records of an ASN and its FRBASE. -/
  | frecinvAll (o : Fields)
  /-- RDCYC (R403). Read the cycle counter. -/
  | rdcyc (o : Fields)
  /-- RDSEQ (R404). Read an engine's sequence counter. -/
  | rdseq (o : Fields)
  /-- WAITSEQ (R404). Wait until a ticket is complete, as an acquire. -/
  | waitseq (o : Fields)
  /-- RDCLK (R405). Read an item of an agent's causal state. -/
  | rdclk (o : Fields)
  /-- CRESYNC (R406). Run the package causal resync and return the new RSN. -/
  | cresync (o : Fields)
  /-- EVSEL (R407). Configure an event counter's code, enable and clear. -/
  | evsel (o : Fields)
  /-- EVRD (R407). Read an event counter. -/
  | evrd (o : Fields)
  /-- OUTCNT (R403). Read the hart's posted-store count. -/
  | outcnt (o : Fields)
  /-- BUDRD (R403). Read the core's budget counter. -/
  | budrd (o : Fields)
  /-- PACKAGE_RESET (R432). Package reset runs boot, verification, self-test, clearing and bring-up in order. -/
  | packageReset (selfTestFail : BitVec 24) (linkFail : Bool) (images : BootImages)
  /-- CYCLE_TICK (R386). CYC rises by one each cycle. -/
  | cycleTick
  /-- SCALAR_WRITE_LAND (R65). A fixed-latency result lands in its register at issue plus its latency, ORing flags for floating instructions. -/
  | scalarWriteLand (h : Nat)
  /-- JOIN_RELEASE (R155). A hart held at a join resumes once VCP passes the producer. -/
  | joinRelease (h : Nat)
  /-- QUEUE_PUSH_RESUME (R287). A push held for room or privilege proceeds when the queue allows it. -/
  | queuePushResume (h : Nat)
  /-- QUEUE_ENTRY_START (R287). The vector unit takes the oldest ready entry across harts under the fairness cap. -/
  | queueEntryStart (core : Nat) (steps : Nat)
  /-- QUEUE_ENTRY_COMPLETE (R99). A queue entry completes, advancing VCP, ORing flags and clearing VSTART. -/
  | queueEntryComplete (h : Nat)
  /-- VECTOR_FAULT (R290). A queued entry faults; older entries finish and the queue is parked. -/
  | vectorFault (h : Nat)
  /-- QUEUE_FAULT (R295). An entry pushed while frozen faults; the hart stops and its task fails. -/
  | queueFault (h : Nat)
  /-- INTERRUPT (R303). A pending interrupt is taken at a boundary, parking the queue and entering the handler. -/
  | interrupt (h : Nat)
  /-- PREEMPT (R304). A pre-emption request is taken, parking the queue, draining P and trimming streams. -/
  | preempt (h : Nat) (requester : Nat)
  /-- REGSTORE_FILL (R110). A register access to an absent image line fetches or initialises it, pinning it. -/
  | regstoreFill (h : Nat) (line : Nat)
  /-- BUDGET_CHARGE (R211). An MMA-class instruction starts once the budget counter holds its charge. -/
  | budgetCharge (h : Nat)
  /-- BUDGET_REFILL (R400). Every 64 cycles the budget level rises by RATE. -/
  | budgetRefill
  /-- GOVERNOR_UPDATE (R400). Every 27,000 cycles the governor sets RATE per die from measured power. -/
  | governorUpdate (die : Nat) (rate : BitVec 12)
  /-- STREAM_PREFETCH (R335). The stream engine fetches elements ahead of POS. -/
  | streamPrefetch (h : Nat) (q : Nat) (n : Nat)
  /-- REQUEST_HEADER_REFUSED (R224). An L2 slice refuses a header and the memory pipe reissues it. -/
  | requestHeaderRefused (h : Nat)
  /-- L2_FILL (R224). A fill lands in an L2 slice and waiters are served in arrival order. -/
  | l2Fill (die : Nat) (line : Nat)
  /-- DIR_READ (R356). A die read reaches the home and the directory moves state. -/
  | dirRead (line : Nat) (die : Nat)
  /-- DIR_OWNERSHIP (R356). A die ownership request reaches the home, probing other copies. -/
  | dirOwnership (line : Nat) (die : Nat)
  /-- WRITEBACK_REQUEST (R357). A die evicts an EM line to its victim buffer and requests write-back. -/
  | writebackRequest (line : Nat) (die : Nat)
  /-- WRITEBACK_GRANT (R357). The grant arrives; the die sends the data phase or drops the entry. -/
  | writebackGrant (line : Nat) (die : Nat)
  /-- SYNONYM_SWITCH (R223). A miss under a new tag recalls the frame's lines and records the new tag. -/
  | synonymSwitch (frame : Nat) (asn : BitVec 16) (granule : Nat)
  /-- ENGINE_LINE_FINISH (R356). An engine finishes writing a line, releasing it and serving held requests. -/
  | engineLineFinish (agent : Nat) (eng : Nat)
  /-- COPY_OP_COMPLETE (R343). A copy engine operation completes or stops at a fault, advancing the sequence counter. -/
  | copyOpComplete (agent : Nat) (eng : Nat)
  /-- COLL_COMPLETE (R346). A collective completes, or fails on a mismatch or lost member. -/
  | collComplete (agent : Nat) (peers : List CollShare)
  /-- TOKSEND_ROW_PLACE (R348). A token row is placed at its destination and its count word incremented. -/
  | toksendRowPlace (k : Nat)
  /-- POSTED_STORE_ACK (R399). A peer acknowledges a posted store, decrementing OUTCNT. -/
  | postedStoreAck (h : Nat)
  /-- DOMAIN_TIMEOUT (R245). A domain-peer reply or acknowledgement fails to arrive within 2^24 cycles. -/
  | domainTimeout (h : Nat)
  /-- PROMISE_MISSED (R344). CYC reaches a WAITT's promise before the ticket completes. -/
  | promiseMissed (h : Nat)
  /-- VIEWSYNC_TIMEOUT (R384). A VIEWSYNC timeout passes and VIEW_STALE is raised. -/
  | viewsyncTimeout (h : Nat)
  /-- SLEEP_TIMEOUT (R329). A SLEEP timeout expires and the hart returns. -/
  | sleepTimeout (h : Nat)
  /-- MIGRATION (R362). The migration engine marks, recalls, holds, copies and remaps a page, then writes status. -/
  | migration (hub : Nat)
  /-- MIGRATION_COMPLETE (R362). Migration ends, held accesses replay and the ticket completes. -/
  | migrationComplete (hub : Nat)
  /-- HOLD_QUEUE_RETRY (R362). A requester finding the hold queue full retries with backoff. -/
  | holdQueueRetry (hub : Nat)
  /-- BIAS_FLIP_STEP (R360). A bias flip completes its recalls or back-invalidations at the home. -/
  | biasFlipStep (granule : Nat)
  /-- HOST_CXL_MEM_READ (R358). A host CXL.mem read reaches the home and is served under the bridge rules. -/
  | hostCxlMemRead (a : HostAddr) (own : Bool)
  /-- HOST_CXL_MEM_WRITE (R358). A host CXL.mem write invalidates die copies and is merged at the home. -/
  | hostCxlMemWrite (a : HostAddr) (data : List Byte)
  /-- DOORBELL_WRITE (R427). A host write ORs bits into DOORBELL, raising interrupt source 1. -/
  | doorbellWrite (hub : Nat) (mask : BitVec 16)
  /-- PUBLISH_WRITE (R326). A write to PUBLISH starts a host publication, setting RESULT to 7. -/
  | publishWrite (value : Word)
  /-- HOST_PUBLICATION (R326). The dispatcher checks the ASN and TCB, publishes, and reports in PUBSTAT. -/
  | hostPublication
  /-- FENCEREQ_WRITE (R20). A supervisor write to FENCEREQ fences a C-die or is refused. -/
  | fencereqWrite (value : Word)
  /-- DIE_LEVEL_ERROR (R20). An uncorrectable error in unconsumable die state fences the die. -/
  | dieLevelError (die : Nat)
  /-- HUB_LOSS (R21). Loss of a hub, router or hub link stops all harts and sets FATAL. -/
  | hubLoss
  /-- UNCONTAINED_ASN_FAULT (R320). An uncontained error of an ASN stops its harts, abandons its engine operations and fails its tasks. -/
  | uncontainedAsnFault (hub : Nat) (asn : BitVec 16)
  /-- UNCORRECTABLE_ERROR (R230). An uncorrectable memory or SRAM error or CRC mismatch poisons the line or word. -/
  | uncorrectableError (e : ErrorSite)
  /-- PACKET_ARRIVAL (R391). A causal packet arrives, updates horizons, and is delivered or quarantined. -/
  | packetArrival (dst : Nat) (p : Packet)
  /-- QUARANTINE_DELIVERY (R391). A quarantined packet's conditions hold and it is delivered in number order. -/
  | quarantineDelivery (dst : Nat)
  /-- HORIZON_BEAT (R393). A horizon beat arrives and raises horizons once its last packets have arrived. -/
  | horizonBeat (dst : Nat) (b : Beat)
  /-- IDLE_BEAT (R393). An agent sends a beat to a destination it has not sent to for 4,096 cycles. -/
  | idleBeat (src : Nat) (dst : Nat)
  /-- WINDOW_STALL (R392). A sender reaches the acknowledgement window and stalls, requesting a horizon. -/
  | windowStall (agent : Nat)
  /-- RESYNC_DRAIN_TIMEOUT (R397). A resync drain unfinished after 2^24 cycles is an uncontained error. -/
  | resyncDrainTimeout
  /-- WATCH_BEAT (R417). The master home answers with a watch beat once the frontier is delivered. -/
  | watchBeat (viewHome : Nat) (masterHome : Nat)
  /-- STALE_NOTICE (R377). A stale notice reaches a view block's home, bumping VER and queuing a derivation. -/
  | staleNotice (reg : Nat) (block : Nat)
  /-- DERIVATION_START (R378). The curator starts a queued derivation, locking master lines. -/
  | derivationStart (hub : Nat)
  /-- DERIVATION_PUBLISH (R377). A derivation succeeds or fails and publishes the block state and tag. -/
  | derivationPublish (hub : Nat)
  /-- VIEW_READ (R379). A view read arrives at the view home and is served, held or faulted by policy. -/
  | viewRead (h : Nat)
  /-- POOL_PUSH (R368). A push of a block to a pool, waiting while frozen. -/
  | poolPush (asn : BitVec 16) (pool : Word) (block : Word)
  /-- CLB_DROP_ACK (R372). A core drops matching CLB entries and acknowledges a CLBINV. -/
  | clbDropAck (core : Nat) (asn : BitVec 16) (root : Option Word)
  /-- PREDECESSOR_EVENT (R309). A predecessor's retirement, cancellation or failure reaches a successor's TCB home. -/
  | predecessorEvent (asn : BitVec 16) (tcb : Word) (ending : PredEnd)
  /-- DISPATCH_CLAIM (R312). The dispatcher claims a ready task when a hart slot is free. -/
  | dispatchClaim
  /-- READY_LIST_AGING (R311). A waiting task moves up a ready-list level after 2^20 cycles. -/
  | readyListAging (k : Nat)
  /-- LEVEL0_PREEMPT (R313). A level-0 task unbound for 2^16 cycles causes a pre-emption request. -/
  | level0Preempt
  /-- TASK_RETIREMENT (R319). Retirement waits for acknowledgements, writes state and completion word, and updates successors. -/
  | taskRetirement (k : Nat)
  /-- TASK_FAILURE (R309). A task ends FAILED, stopping its harts and propagating. -/
  | taskFailure (k : Nat) (status : Nat)
  /-- WAIT_UNBIND (R318). A hart waiting over 65,536 cycles is unbound. -/
  | waitUnbind (h : Nat)
  /-- WAIT_REBIND (R318). A satisfied wait binds the hart again on its die. -/
  | waitRebind (h : Nat)
  /-- IRQSET_WRITE (R427). A write of 1 to IRQSET bit 4 sets NOTICE, raising source 4. -/
  | irqsetWrite (hub : Nat)
  /-- MEMRDY_WRITE (R432). Stobry writes MEMRDY, enabling CXL.mem on the port. -/
  | memrdyWrite (hub : Nat)
  /-- CONFIG_REG_WRITE (R424). A write to a configuration register without its own row, including W1C clears and refused writes. -/
  | configRegWrite (hub : Nat) (off : Nat) (n : Nat) (value : Word)
  /-- MANAGEMENT_MESSAGE (R430). An MCTP, SPDM or vendor message arrives and is answered, setting MGMT for the supervisor. -/
  | managementMessage (m : MgmtMessage)
  /-- DEBUG_UNLOCK (R431). A signed host token over SPDM unlocks debug and changes the measurement. -/
  | debugUnlock (signed : Bool)
  /-- RILROV_PORT_FAILURE (R428). A Rilrov port fails, leaving its rail without service. -/
  | rilrovPortFailure (rail : Nat)
  /-- LOSS_OF_FLOW (R433). A rack report of coolant flow loss is treated as 105 degrees until it clears. -/
  | lossOfFlow (on : Bool)
  /-- JUNCTION_TEMPERATURE (R433). Die junction crosses 95, 105 or 115 degrees, throttling, stopping MMA work or going fatal. -/
  | junctionTemperature (die : Nat) (celsius : Nat)
  /-- MEM_ENABLE_CONTROL_WRITE (R425). The host sets or clears the memory-enable control of a port's CXL device DVSEC, which enables CXL.mem with MEMRDY and locks or unlocks HDMBASE and HDMSIZE. -/
  | memEnableControlWrite (port : Nat) (on : Bool)
  /-- RILROV_INGRESS (R230). A packet from another package of the domain arrives over Rilrov: a peer's access to local memory, a reply to a domain-peer load, a TOKSEND row or a collective contribution. -/
  | rilrovIngress (pa : Nat) (data : List Byte)
  /-- ETHERNET_INGRESS (R230). A frame arrives from beyond the domain on an Ultra Ethernet port and is written into global memory with a fresh check value. -/
  | ethernetIngress (pa : Nat) (data : List Byte)
  /-- HOST_CXL_RESPONSE (R358). The host's response arrives at a bridge hub: a BISnp answer with its write-back, or CXL.cache data or ownership for a device request to a host-biased granule or host memory. -/
  | hostCxlResponse (half : Nat) (data : List Byte)
  /-- MTLBINV_ACKNOWLEDGE (R355). A hub translator or die finishes dropping entries and, with purge, sweeping its caches, and acknowledges the MTLBINV, which completes when all have acknowledged. -/
  | mtlbinvAcknowledge (agent : Nat) (scope : InvScope)
  deriving DecidableEq, Repr

end Sys2Proof
end

