-- ==== Sys2Proof/Machine/Legal.lean ====
section
/-! DEFINITION. Sys2Proof/Machine/Legal.lean: which fields each instruction uses and which values it accepts, and the
checks of R62 in their order. -/

namespace Sys2Proof

/-- The class of an operand field (R52). A range is a small constant or a scalar number with limits of its own. -/
inductive Opnd where
  | unused | scalar | vector | pred | mask | fibre | stream
  | range (lo hi : Nat)
  deriving DecidableEq, Repr

/-- Whether an instruction takes a mask (R56). -/
inductive MskUse where
  | none | allowed | required
  deriving DecidableEq, Repr

/-- What I = 1 means (R58): not allowed, a value of type W, or a plain 32-bit value. -/
inductive ImmUse where
  | none | typed | plain
  deriving DecidableEq, Repr

/-- Check 13 of R62 where it needs the word alone: met, or broken with the VALUE the home chapter states, if any. -/
inductive Combo where
  | ok
  | bad (value : Option (BitVec 8))
  deriving DecidableEq, Repr

/-- What R62 checks of one instruction word. For W, F and IMM, `none` means that the field is unused and must be 0
(R52, R57), `some b` that b says whether its value is legal. IMM is judged here where I = 0; ImmUse judges it where
I = 1. -/
structure Shape where
  d : Opnd := .unused
  a : Opnd := .unused
  b : Opnd := .unused
  msk : MskUse := .none
  w : Option Bool := none
  lastb : Bool := false
  cache : Bool := false
  f : Option Bool := none
  iUse : ImmUse := .none
  imm : Option Bool := none
  combo : Combo := .ok
  /-- Every field that breaks the instruction's table reports FIELD 9 (R381). -/
  nine : Bool := false

/-- A failed check of R62: FIELD, and VALUE where the manual states one. -/
structure Illegal where
  field : Nat
  value : Option (BitVec 8)
  deriving DecidableEq, Repr

/-- The legal values of an operand field (R52). -/
def Opnd.ok : Opnd → BitVec 8 → Bool
  | .unused, v => v == 0
  | .scalar, v => decide (v.toNat < 64)
  | .vector, v => decide (v.toNat < 64) || (decide (128 ≤ v.toNat) && decide (v.toNat < 192))
  | .pred, v => decide (v.toNat < 16)
  | .mask, v => decide (v.toNat < 8)
  | .fibre, v => decide (v.toNat < 16)
  | .stream, v => decide (v.toNat < 8)
  | .range lo hi, v => decide (lo ≤ v.toNat) && decide (v.toNat ≤ hi)

def wN (o : Fields) : Nat := o.w.toNat
def fN (o : Fields) : Nat := o.f.toNat

/-- W is one of the codes listed (R57). -/
def wIn (o : Fields) (l : List Nat) : Bool := l.contains (wN o)

/-- W is an integer type (R112). -/
def wInt (o : Fields) : Bool := decide (wN o ≤ 7)

/-- W is one of the IEEE types (R116, R145). -/
def wFloat (o : Fields) : Bool := decide (10 ≤ wN o) && decide (wN o ≤ 13)

/-- W is a fibre type (R176). -/
def wFibre (o : Fields) : Bool := wIn o [0, 1, 2, 4, 5, 6, 8, 9, 10, 11, 12]

/-- W is accepted by the arithmetic fibre members (R176). -/
def wFibreArith (o : Fields) : Bool := wIn o [0, 1, 2, 4, 5, 6, 10, 11, 12]

/-- W of FUNION and FSORT: every fibre type with .FIRST, the arithmetic ones otherwise (R176). -/
def wCombine (o : Fields) : Bool := if fN o / 16 % 4 < 2 then wFibreArith o else wFibre o

/-- W of an atomic (R235). -/
def wAtomic (o : Fields) : Bool := wIn o [2, 3, 6, 7, 12, 13]

/-- F has no bit set outside those named (R59). -/
def fOnly (o : Fields) (bits : Nat) : Bool := (o.f &&& ~~~(BitVec.ofNat 8 bits)) == 0

/-- F holds a rounding mode in [2:0] and nothing outside the bits named (R31, R59). -/
def fRound (o : Fields) (bits : Nat) : Bool := fOnly o bits && decide (fN o % 8 ≤ 5)

/-- F holds a scope in [2:0] and nothing outside the bits named (R14, R59). -/
def fScope (o : Fields) (bits : Nat) : Bool := fOnly o bits && decide (fN o % 8 ≤ 6)

/-- F[2:0] is the scope die or package (R251, R372). -/
def scopeDiePkg (o : Fields) : Bool := decide (fN o % 8 = 3) || decide (fN o % 8 = 4)

/-- F of FCVT and VFCVT (R119, R147): a source type, and a mode, which is 0 between integers. -/
def fConvert (o : Fields) : Bool :=
  decide (fN o / 16 ≤ 13) && (if wN o ≤ 7 ∧ fN o / 16 ≤ 7 then decide (fN o % 8 = 0) else decide (fN o % 8 ≤ 5))

/-- F of VSEGRED and VSEGSCAN (R152): an op in [5:4], and a mode and SAT for floating types only. -/
def fSegment (o : Fields) (bits : Nat) : Bool :=
  fOnly o bits && decide (fN o / 16 % 4 ≤ 2) &&
    (if wN o ≤ 7 then decide (fN o % 16 = 0) else decide (fN o % 8 ≤ 5))

/-- F of the fibre members that round (R176, R177). -/
def fFibreOp (o : Fields) (bits : Nat) : Bool := fSegment o bits

/-- F of MMA, MMAS and MMAG (R196). -/
def fMatrix (o : Fields) : Bool :=
  fOnly o 0x18 && (!o.f.getLsbD 3 || wIn o [0, 4]) && (!o.f.getLsbD 4 || wIn o [8, 9])

/-- Bits lo to hi - 1 of IMM are 0. -/
def bitsZero (o : Fields) (lo hi : Nat) : Bool := decide (o.imm.toNat / 2 ^ lo % 2 ^ (hi - lo) = 0)

/-- The eight bits of IMM from `lo` name a register, 0 to 63 (R196). -/
def immReg (o : Fields) (lo : Nat) : Bool := decide (o.imm.toNat / 2 ^ lo % 256 < 64)

/-- The scale operands of MMA, MMAS and MMAG: register numbers where the form has them, 0 otherwise (R196). -/
def immScales (o : Fields) : Bool :=
  if wN o = 14 ∨ o.f.getLsbD 4 then immReg o 0 && immReg o 8 else bitsZero o 0 16

/-- IMM of an atomic: an op of 0 to 7 and an ordering (R235). -/
def immAtomic (o : Fields) : Bool := bitsZero o 6 32 && decide (o.imm.toNat % 16 ≤ 7)

/-- IMM of ACOPY and ACOPY2: bit 2 names the engine of bits [1:0], which are not read where it is 0 (R330; log 18). -/
def immEngine (o : Fields) : Bool := bitsZero o 3 32

/-- IMM of TOKSEND: the bytes of a row (R331). -/
def immRow (o : Fields) : Bool :=
  decide (o.imm.toNat % 16 = 0) && decide (16 ≤ o.imm.toNat) && decide (o.imm.toNat ≤ 4096)

/-- The field of BFX and BFI lies within 64 bits (R115). -/
def bitField (o : Fields) : Combo :=
  if o.imm.toNat % 64 + (o.imm.toNat / 64 % 64 + 1) ≤ 64 then .ok else .bad none

/-- The W code an atomic op accepts (R235). -/
def atomicType (o : Fields) : Combo :=
  let op := o.imm.toNat % 16
  if op = 0 ∨ (op ≤ 6 ∧ wN o ≤ 7) ∨ (op = 7 ∧ 8 ≤ wN o) then .ok else .bad (some (o.w.setWidth 8))

/-- A requirement on a register number, which is the VALUE of check 13. -/
def regCombo (good : Bool) (f : BitVec 8) : Combo := if good then .ok else .bad (some f)

/-- Two requirements in order. -/
def Combo.and : Combo → Combo → Combo
  | .ok, c => c
  | .bad v, _ => .bad v

/-- A scalar pair s(n), s(n+1): n even, 2 to 62 (R331). -/
def pairRegs (f : BitVec 8) : Combo := regCombo (decide (f.toNat % 2 = 0) && decide (2 ≤ f.toNat) && decide (f.toNat ≤ 62)) f

/-- k scalars from A on, within s1 to s63 (R331). -/
def spanRegs (f : BitVec 8) (k : Nat) : Combo := regCombo (decide (1 ≤ f.toNat) && decide (f.toNat + k ≤ 64)) f

/-- Promise and ticket in D, and the k operands from A on (R331). -/
def engineRegs (o : Fields) (k : Nat) : Combo := (pairRegs o.d).and (spanRegs o.a k)

/-- An even fibre operand (R178). -/
def evenFibre (f : BitVec 8) : Combo := regCombo (decide (f.toNat % 2 = 0)) f

/-- A source fibre is none of the n destination fibres from D on (R178). -/
def apartFrom (o : Fields) (n : Nat) (f : BitVec 8) : Combo := regCombo (decide (f.toNat < o.d.toNat) || decide (o.d.toNat + n ≤ f.toNat)) f

/-- FISECT and FMERGE: D even, and neither of its pair a source (R178). -/
def pairApart (o : Fields) : Combo := (evenFibre o.d).and ((apartFrom o 2 o.a).and (apartFrom o 2 o.b))

/-- FCOMPACT: both pairs even and apart (R178). -/
def pairsApart (o : Fields) : Combo := (evenFibre o.d).and ((evenFibre o.a).and (apartFrom o 2 o.a))

/-- The four operand registers of PMIG lie within s1 to s63 (R361). -/
def pmigRegs (o : Fields) : Combo := if 1 ≤ o.a.toNat ∧ o.a.toNat ≤ 60 then .ok else .bad none

/-- The index of a special register (R127). -/
def msrIndex (o : Fields) : Nat := o.imm.toNat % 4096

/-- The index is in the table of R93. -/
def msrKnown (o : Fields) : Bool :=
  let n := msrIndex o
  decide (n ≤ 0x007) || (decide (0x010 ≤ n) && decide (n ≤ 0x014)) || (decide (0x020 ≤ n) && decide (n ≤ 0x02B)) ||
    decide (n = 0x030) || decide (n = 0x031) || (decide (0x040 ≤ n) && decide (n ≤ 0x050)) || decide (n = 0x060)

/-- MTS writes the register (R93). -/
def msrWritable (o : Fields) : Bool :=
  [0x002, 0x003, 0x004, 0x021, 0x026, 0x027, 0x028, 0x029, 0x02A, 0x02B, 0x030].contains (msrIndex o)

/-- The register is of class S (R93). -/
def msrSupervisor (o : Fields) : Bool :=
  let n := msrIndex o
  (decide (0x020 ≤ n) && decide (n ≤ 0x02B)) || decide (n = 0x030) || decide (n = 0x031) ||
    (decide (0x040 ≤ n) && decide (n ≤ 0x050))

/-- The register is of class Q (R93). -/
def msrQueue (o : Fields) : Bool := decide (msrIndex o ≤ 0x007) || decide (msrIndex o = 0x030)

/-- A scalar integer instruction with two sources (R113). -/
def int2 (o : Fields) : Shape := { d := .scalar, a := .scalar, b := .scalar, w := wInt o, iUse := .typed }

/-- A scalar integer instruction with one source (R113). -/
def int1 (o : Fields) : Shape := { d := .scalar, a := .scalar, w := wInt o }

/-- A scalar floating instruction with two sources (R116). -/
def float2 (o : Fields) : Shape :=
  { d := .scalar, a := .scalar, b := .scalar, w := wFloat o, f := fRound o 0x0F, iUse := .typed }

/-- A vector instruction with two sources, the second a vector, a broadcast scalar (F[7]) or an immediate (R135). -/
def vec2 (o : Fields) (w f : Bool) : Shape :=
  { d := .vector, a := .vector, b := if o.f.getLsbD 7 then .scalar else .vector, msk := .allowed, w := w,
    f := f && !(o.f.getLsbD 7 && o.i), iUse := .typed }

/-- The fields an instruction uses and accepts, each in the terms of R62 (R113 to R402 by family); an event has no word.
DESIGN CHOICE (log 49): FGATHER takes I = 0 alone, as R177 gives it, although R58 names its base where I = 1 is legal. -/
def shape : Instr → Shape
  | .add o => int2 o
  | .sub o => int2 o
  | .mul o => int2 o
  | .mulh o => int2 o
  | .div o => int2 o
  | .rem o => int2 o
  | .and o => int2 o
  | .or o => int2 o
  | .xor o => int2 o
  | .andn o => int2 o
  | .shl o => int2 o
  | .shr o => int2 o
  | .sra o => int2 o
  | .rotr o => int2 o
  | .min o => int2 o
  | .max o => int2 o
  | .clz o => int1 o
  | .ctz o => int1 o
  | .popc o => int1 o
  | .brev o => int1 o
  | .ext o => int1 o
  | .bfx o => { d := .scalar, a := .scalar, w := wIn o [3, 7], imm := bitsZero o 12 32, combo := bitField o }
  | .bfi o => { d := .scalar, a := .scalar, imm := bitsZero o 12 32, combo := bitField o }
  | .mov o => { d := .scalar, a := if o.i then .unused else .scalar, iUse := .plain }
  | .lih _ => { d := .scalar, a := .scalar, imm := true }
  | .sel o => { d := .scalar, a := .scalar, b := .scalar, f := fOnly o 0x1F, iUse := .plain }
  | .cmp o => { d := .pred, a := .scalar, b := .scalar, w := wInt o, f := decide (fN o ≤ 5), iUse := .typed }
  | .fadd o => float2 o
  | .fsub o => float2 o
  | .fmul o => float2 o
  | .ffma o => float2 o
  | .fdiv o => float2 o
  | .fsqrt o => { d := .scalar, a := .scalar, w := wFloat o, f := fRound o 0x0F }
  | .fmin o => { d := .scalar, a := .scalar, b := .scalar, w := wFloat o, iUse := .typed }
  | .fmax o => { d := .scalar, a := .scalar, b := .scalar, w := wFloat o, iUse := .typed }
  | .fcmp o => { d := .pred, a := .scalar, b := .scalar, w := wFloat o, f := decide (fN o ≤ 7), iUse := .typed }
  | .fcvt o => { d := .scalar, a := .scalar, w := decide (wN o ≤ 13), f := fConvert o }
  | .plog o => { d := .pred, a := .pred, b := .pred, f := fOnly o 0x0F }
  | .pmov o => { d := .pred, a := .pred, f := decide (fN o = 0) }
  | .pmovScalar o => { d := .pred, a := .scalar, f := decide (fN o = 1) }
  | .pmovAll o => { a := .scalar, f := decide (fN o = 2) }
  | .bra _ => { imm := true }
  | .jmp _ => { a := .scalar, imm := true }
  | .call o => { f := decide (fN o = 0), imm := true }
  | .callReg o => { a := .scalar, f := decide (fN o = 1), imm := true }
  | .ret _ => { a := .scalar }
  | .loop _ => { d := .scalar, imm := true }
  | .setvl o => { d := .scalar, a := if o.i then .unused else .scalar, w := decide (wN o ≤ 14), f := fOnly o 0x03, iUse := .plain }
  | .trap _ => { imm := true }
  | .eret _ => {}
  | .mfs o => { d := .scalar, imm := bitsZero o 12 32 && msrKnown o }
  | .mts o => { a := .scalar, imm := bitsZero o 12 32 && msrKnown o && msrWritable o }
  | .endI _ => {}
  | .yield o => { f := decide (fN o = 0) }
  | .yieldRel o => { f := decide (fN o = 1) }
  | .nop _ => {}
  | .tfence _ => {}
  | .vadd o => vec2 o (wInt o) (fOnly o 0x80)
  | .vsub o => vec2 o (wInt o) (fOnly o 0x80)
  | .vmul o => vec2 o (wInt o) (fOnly o 0x80)
  | .vmulh o => vec2 o (wInt o) (fOnly o 0x80)
  | .vmadd o => vec2 o (wInt o) (fOnly o 0x80)
  | .vdiv o => vec2 o (wInt o) (fOnly o 0x80)
  | .vrem o => vec2 o (wInt o) (fOnly o 0x80)
  | .vand o => vec2 o (wInt o) (fOnly o 0x80)
  | .vor o => vec2 o (wInt o) (fOnly o 0x80)
  | .vxor o => vec2 o (wInt o) (fOnly o 0x80)
  | .vshl o => vec2 o (wInt o) (fOnly o 0x80)
  | .vshr o => vec2 o (wInt o) (fOnly o 0x80)
  | .vsra o => vec2 o (wInt o) (fOnly o 0x80)
  | .vmin o => vec2 o (wInt o) (fOnly o 0x80)
  | .vmax o => vec2 o (wInt o) (fOnly o 0x80)
  | .vabsd o => vec2 o (wInt o) (fOnly o 0x80)
  | .vsadd o => vec2 o (wInt o) (fOnly o 0x80)
  | .vssub o => vec2 o (wInt o) (fOnly o 0x80)
  | .vcmp o => { vec2 o (wInt o) (fOnly o 0x8F && decide (fN o % 16 ≤ 5)) with d := .mask }
  | .vsel o => { vec2 o (decide (wN o ≤ 14)) (fOnly o 0x80) with msk := .required }
  | .vwadd o => vec2 o (wIn o [0, 1, 2, 4, 5, 6]) (fOnly o 0x80)
  | .vwmul o => vec2 o (wIn o [0, 1, 2, 4, 5, 6]) (fOnly o 0x80)
  | .vnshr o => vec2 o (wIn o [0, 1, 2, 4, 5, 6]) (fOnly o 0x88)
  | .vid o => { d := .vector, msk := .allowed, w := wInt o }
  | .viota o => { d := .vector, a := .mask, msk := .allowed, w := wInt o }
  | .vfadd o => vec2 o (wFloat o) (fRound o 0x8F)
  | .vfsub o => vec2 o (wFloat o) (fRound o 0x8F)
  | .vfmul o => vec2 o (wFloat o) (fRound o 0x8F)
  | .vfma o => vec2 o (wFloat o) (fRound o 0x8F)
  | .vfnma o => vec2 o (wFloat o) (fRound o 0x8F)
  | .vfdiv o => vec2 o (wFloat o) (fRound o 0x8F)
  | .vfsqrt o => { d := .vector, a := .vector, msk := .allowed, w := wFloat o, f := fRound o 0x0F }
  | .vfexp o => { d := .vector, a := .vector, msk := .allowed, w := wFloat o, f := fRound o 0x0F }
  | .vfmin o => vec2 o (wFloat o) (fOnly o 0x80)
  | .vfmax o => vec2 o (wFloat o) (fOnly o 0x80)
  | .vfcmp o => { vec2 o (wFloat o) (fOnly o 0x87) with d := .mask }
  | .vfclass o => { d := .vector, a := .vector, msk := .allowed, w := wFloat o }
  | .vfcvt o => { d := .vector, a := .vector, msk := .allowed, w := decide (wN o ≤ 13), f := fConvert o }
  | .vfscale o => { vec2 o (wFloat o) (fRound o 0x8F) with iUse := .plain }
  | .vfsgn o => vec2 o (wFloat o) (fOnly o 0x83 && decide (fN o % 4 ≠ 3))
  | .vfqnt o => { d := .vector, a := .vector, b := .vector, msk := .allowed, w := wIn o [8, 9, 14], f := decide (fN o = 0xC0) || decide (fN o = 0xC1) && decide (wN o ≠ 14) }
  | .vfdqnt o => { d := .vector, a := .vector, b := .vector, msk := .allowed, w := wIn o [8, 9, 14], f := decide (fN o = 0xC0) }
  | .vfamax o => vec2 o (wFloat o) (fOnly o 0x80)
  | .vslideup o => { d := .vector, a := .vector, b := .scalar, msk := .allowed, w := decide (wN o ≤ 14), iUse := .plain }
  | .vslidedn o => { d := .vector, a := .vector, b := .scalar, msk := .allowed, w := decide (wN o ≤ 14), iUse := .plain }
  | .vslideinUp o => { d := .vector, a := .vector, b := .scalar, msk := .allowed, w := decide (wN o ≤ 14), f := decide (fN o = 0), iUse := .typed }
  | .vslideinDn o => { d := .vector, a := .vector, b := .scalar, msk := .allowed, w := decide (wN o ≤ 14), f := decide (fN o = 1), iUse := .typed }
  | .vperm o => { d := .vector, a := .vector, b := .vector, msk := .allowed, w := decide (wN o ≤ 14) }
  | .vxch o => { d := .vector, a := .vector, b := .range 0 8, msk := .allowed, w := decide (wN o ≤ 14) }
  | .vcompress o => { d := .vector, a := .vector, msk := .required, w := decide (wN o ≤ 14) }
  | .vexpand o => { d := .vector, a := .vector, msk := .required, w := decide (wN o ≤ 14) }
  | .vbcast o => { d := .vector, a := .vector, b := .scalar, msk := .allowed, w := decide (wN o ≤ 14), iUse := .plain }
  | .vmvsx o => { d := .vector, a := .scalar, w := decide (wN o ≤ 14) }
  | .vmvxs o => { d := .scalar, a := .vector, b := .scalar, w := decide (wN o ≤ 14), iUse := .plain }
  | .vred o => vec2 o (wInt o) (fOnly o 0x87 && decide (fN o % 8 ≤ 5))
  | .vredX o => { d := .scalar, a := .vector, b := .scalar, msk := .allowed, w := wInt o, f := fOnly o 0x0F && decide (fN o % 8 ≤ 5), iUse := .typed }
  | .vfredo o => vec2 o (wFloat o) (fRound o 0x8F)
  | .vfredt o => vec2 o (wFloat o) (fRound o 0x8F)
  | .vfredmx o => vec2 o (wFloat o) (fOnly o 0x83 && decide (fN o % 4 ≤ 2))
  | .mlog o => { d := .mask, a := .mask, b := .mask, f := fOnly o 0x0F }
  | .mpopc _ => { d := .scalar, a := .mask, msk := .allowed }
  | .mfirst _ => { d := .scalar, a := .mask, msk := .allowed }
  | .mset o => { d := .mask, a := if fN o % 4 ≥ 2 then .mask else .unused, f := fOnly o 0x03 }
  | .vsortk o => { d := .vector, a := .vector, msk := .allowed, w := wIn o [2, 6, 12], f := decide (fN o ≤ 8) }
  | .vmergek o => { d := .vector, a := .vector, msk := .allowed, w := wIn o [2, 6, 12], f := decide (1 ≤ fN o % 16) && decide (fN o % 16 ≤ 10) && decide (fN o / 16 < fN o % 16) }
  | .vsegred o => { d := .vector, a := .vector, msk := .allowed, w := wInt o || wFloat o, f := fSegment o 0x3F }
  | .vsegnorm o => { d := .vector, a := .vector, msk := .allowed, w := wIn o [12], f := fRound o 0x0F }
  | .vsegscan o => { d := .vector, a := .vector, msk := .allowed, w := wInt o || wFloat o, f := fSegment o 0x7F }
  | .vsetseg _ => { a := .vector, b := .scalar, iUse := .plain }
  | .vgetseg _ => { d := .vector }
  | .fbuild o => { d := .fibre, a := .vector, msk := .allowed, w := wFibre o }
  | .fsplit o => { d := .vector, a := .fibre, msk := .allowed, w := wFibre o }
  | .fisect o => { d := .fibre, a := .fibre, b := .fibre, w := wFibre o, combo := pairApart o }
  | .funion o => { d := .fibre, a := .fibre, b := .fibre, w := wCombine o, f := fFibreOp o 0x3F, combo := (apartFrom o 1 o.a).and (apartFrom o 1 o.b) }
  | .fmerge o => { d := .fibre, a := .fibre, b := .fibre, w := wFibre o, combo := pairApart o }
  | .fcompact o => { d := .fibre, a := .fibre, msk := .allowed, w := wFibre o, combo := pairsApart o }
  | .fexpand o => { d := .vector, a := .fibre, b := .scalar, msk := .allowed, w := wFibre o, f := fOnly o 0x10, iUse := .plain }
  | .fgather o => { d := .fibre, a := .fibre, b := .vector, w := wFibre o, imm := true }
  | .fmulFibre o => { d := .fibre, a := .fibre, b := .fibre, w := wFibreArith o, f := fFibreOp o 0x0F }
  | .fdot o => { d := .scalar, a := .fibre, b := .fibre, w := wFibreArith o, f := fFibreOp o 0x0F }
  | .fscale o => { d := .fibre, a := .fibre, b := .scalar, w := wFibreArith o, f := fFibreOp o 0x0F, iUse := .typed }
  | .focc _ => { d := .scalar, a := .fibre }
  | .fshift _ => { d := .fibre, a := .fibre, b := .scalar, iUse := .plain }
  | .fsort o => { d := .fibre, a := .vector, msk := .allowed, w := wCombine o, f := fFibreOp o 0x3F }
  | .fred o => { d := .scalar, a := .fibre, w := wFibreArith o, f := fFibreOp o 0x3F }
  | .fclear o => { d := .fibre, f := decide (fN o = 0) }
  | .fclearPair o => { d := .fibre, f := decide (fN o = 1), combo := evenFibre o.d }
  | .mma o => { d := .vector, a := .vector, b := .vector, w := wIn o [0, 4, 8, 9, 10, 11, 14], lastb := true, f := fMatrix o, imm := immScales o && bitsZero o 16 32 }
  | .mmas o => { d := .vector, a := .vector, b := .vector, w := wIn o [0, 4, 8, 9], lastb := true, f := fMatrix o, imm := immScales o && immReg o 16 && bitsZero o 24 32 }
  | .mmag o => { d := .vector, a := .vector, b := .vector, w := wIn o [0, 4, 8, 9, 10, 11, 14], lastb := true, f := fMatrix o, imm := immScales o && immReg o 16 && bitsZero o 24 32 }
  | .mprom o => { d := .vector, imm := immReg o 0 && immReg o 8 && bitsZero o 16 32 }
  | .mzero o => { f := decide (fN o = 0) }
  | .mzeroC o => { d := .vector, f := decide (fN o = 1) }
  | .mdrain o => { d := .vector, imm := bitsZero o 4 32 }
  | .mfill o => { a := .vector, imm := bitsZero o 4 32 }
  | .mstat _ => { d := .scalar }
  | .ld o => { d := .scalar, a := .scalar, w := decide (wN o ≤ 13), cache := true, f := fOnly o 0x40, imm := true }
  | .st o => { d := .scalar, a := .scalar, w := decide (wN o ≤ 13), cache := true, f := fOnly o 0x40, imm := true }
  | .vld o => { d := .vector, a := .scalar, msk := .allowed, w := decide (wN o ≤ 14), cache := true, f := fOnly o 0x40, imm := true }
  | .vst o => { d := .vector, a := .scalar, msk := .allowed, w := decide (wN o ≤ 14), cache := true, f := fOnly o 0x40, imm := true }
  | .vlds o => { d := .vector, a := .scalar, b := .scalar, msk := .allowed, w := decide (wN o ≤ 14), cache := true, f := fOnly o 0x40, imm := true }
  | .vsts o => { d := .vector, a := .scalar, b := .scalar, msk := .allowed, w := decide (wN o ≤ 14), cache := true, f := fOnly o 0x40, imm := true }
  | .vldx o => { d := .vector, a := .scalar, b := .vector, msk := .allowed, w := decide (wN o ≤ 14), cache := true, f := fOnly o 0x50, imm := true }
  | .vstx o => { d := .vector, a := .scalar, b := .vector, msk := .allowed, w := decide (wN o ≤ 14), cache := true, f := fOnly o 0x50, imm := true }
  | .vldf o => { d := .vector, a := .scalar, b := .vector, msk := .allowed, w := wIn o [8, 9, 14], cache := true, imm := true }
  | .vstf o => { d := .vector, a := .scalar, b := if fN o % 2 = 1 then .vector else .unused, w := wIn o [8, 9, 14], cache := true, f := fOnly o 0x01 && !(decide (fN o % 2 = 1) && decide (wN o = 14)), imm := true }
  | .vldp o => { d := .vector, a := .vector, msk := .allowed, w := wIn o [2, 3, 6, 7, 12, 13], cache := true }
  | .vstp o => { d := .vector, a := .vector, msk := .allowed, w := wIn o [2, 3, 6, 7, 12, 13], cache := true }
  | .pref o => { a := .scalar, cache := true, f := fOnly o 0x20, imm := true }
  | .cbinvWb o => { a := .scalar, cache := true, f := fOnly o 0x37 && scopeDiePkg o && decide (fN o / 16 % 4 = 0), imm := true }
  | .cbinvWbi o => { a := .scalar, cache := true, f := fOnly o 0x37 && scopeDiePkg o && decide (fN o / 16 % 4 = 1), imm := true }
  | .cbinvDisc o => { a := .scalar, cache := true, f := fOnly o 0x37 && scopeDiePkg o && decide (fN o / 16 % 4 = 2), imm := true }
  | .fence o => { cache := true, f := decide (fN o ≤ 6) }
  | .fenceI o => { cache := true, f := decide (fN o = 8) }
  | .amo o => { d := .scalar, a := .scalar, b := .scalar, w := wAtomic o, cache := true, f := fScope o 0x47, imm := immAtomic o, combo := atomicType o }
  | .cas o => { d := .scalar, a := .scalar, b := .scalar, w := wAtomic o, cache := true, f := fScope o 0x47, imm := bitsZero o 0 4 && bitsZero o 6 32 }
  | .vamo o => { d := .vector, a := .scalar, b := .vector, msk := .allowed, w := wAtomic o, cache := true, f := fScope o 0x77 && (!o.f.getLsbD 5 || o.f.getLsbD 6 && decide (o.a = 0)), imm := immAtomic o, combo := atomicType o }
  | .vldc o => { d := .vector, a := .scalar, b := .vector, msk := .allowed, w := decide (wN o ≤ 13), cache := true, f := fOnly o 0x30 }
  | .vstc o => { d := .vector, a := .scalar, b := .vector, msk := .allowed, w := decide (wN o ≤ 13), cache := true, f := fOnly o 0x30 }
  | .vamoc o => { d := .vector, a := .scalar, b := .vector, msk := .allowed, w := wAtomic o, cache := true, f := fScope o 0x37, imm := immAtomic o, combo := atomicType o }
  | .fld o => { d := .fibre, a := .scalar, b := .scalar, cache := true, f := fOnly o 0x40, imm := true }
  | .fst o => { d := .fibre, a := .scalar, cache := true, f := fOnly o 0x40, imm := true }
  | .fwalk o => { d := .fibre, a := .range 1 61, b := .scalar, w := wFibre o, cache := true }
  | .vqsync _ => {}
  | .vqreplay _ => { a := .scalar }
  | .qbind _ => { d := .stream, a := .scalar, cache := true, imm := true }
  | .qrd o => { d := .vector, a := .stream, msk := .allowed, w := decide (wN o ≤ 14) }
  | .fldq _ => { d := .fibre, a := .stream }
  | .qrel _ => { a := .stream }
  | .acopy o => { d := .scalar, a := .scalar, cache := true, f := fOnly o 0x03, imm := immEngine o, combo := engineRegs o 3 }
  | .acopy2 o => { d := .scalar, a := .scalar, cache := true, f := fOnly o 0x01, imm := immEngine o, combo := engineRegs o 4 }
  | .waitt o => { a := .scalar, combo := pairRegs o.a }
  /- ops 5 to 7 stand here too: R330 has them fail the check of F. DESIGN CHOICE (log 52): no W but 15 fails before it -/
  | .collArsum o => { d := .scalar, a := .scalar, w := wIn o [2, 12, 13] || (decide (5 ≤ fN o % 8) && decide (wN o ≠ 15)), f := fOnly o 0x0F && decide (fN o % 8 = 0) && (!o.f.getLsbD 3 || decide (wN o = 12)), combo := engineRegs o 4 }
  | .collArmax o => { d := .scalar, a := .scalar, w := wIn o [2, 12, 13], f := fOnly o 0x0F && decide (fN o % 8 = 1) && !o.f.getLsbD 3, combo := engineRegs o 4 }
  | .collAg o => { d := .scalar, a := .scalar, w := decide (wN o ≤ 14), f := fOnly o 0x0F && decide (fN o % 8 = 2) && !o.f.getLsbD 3, combo := engineRegs o 4 }
  | .collRssum o => { d := .scalar, a := .scalar, w := wIn o [2, 12, 13], f := fOnly o 0x0F && decide (fN o % 8 = 3) && (!o.f.getLsbD 3 || decide (wN o = 12)), combo := engineRegs o 4 }
  | .collRsmax o => { d := .scalar, a := .scalar, w := wIn o [2, 12, 13], f := fOnly o 0x0F && decide (fN o % 8 = 4) && !o.f.getLsbD 3, combo := engineRegs o 4 }
  | .toksend o => { d := .vector, a := .vector, msk := .allowed, w := wIn o [7], imm := immRow o }
  | .taskpub _ => { a := .scalar }
  | .taskcan _ => { d := .scalar, a := .scalar }
  | .arrive o => { a := .scalar, f := decide (fN o = 2) || decide (fN o = 3), imm := bitsZero o 4 32 && (decide (fN o ≠ 2) || decide (o.imm.toNat ≤ 7)) }
  | .waitb o => { a := .scalar, f := decide (fN o = 2) || decide (fN o = 3), imm := bitsZero o 4 32 && (decide (fN o ≠ 2) || decide (o.imm.toNat ≤ 7)) }
  | .sleep _ => { a := .scalar }
  | .wake _ => { a := .scalar }
  | .clbinv o => { a := .scalar, f := fOnly o 0x17 && scopeDiePkg o }
  | .clbinvAll o => { f := fOnly o 0x17 && scopeDiePkg o }
  | .viewreg _ => { a := .scalar, nine := true }
  | .viewdel _ => { a := .scalar, nine := true }
  | .viewsync o => { a := .scalar, b := .scalar, f := decide (fN o = 0), nine := true }
  | .viewsyncTw o => { a := .scalar, b := .scalar, f := decide (fN o = 1), nine := true }
  | .viewstat o => { d := .scalar, a := .scalar, f := decide (fN o = 0), nine := true }
  | .viewstatD o => { d := .scalar, a := .scalar, b := .scalar, f := decide (fN o = 1), nine := true }
  | .mtlbinvPage o => { a := .scalar, b := .scalar, f := fOnly o 0x1F && decide (fN o % 4 = 0) }
  | .mtlbinvAsn o => { b := .scalar, f := fOnly o 0x13 }
  | .mtlbinvAll o => { f := fOnly o 0x13 }
  | .pmig o => { d := .scalar, a := .scalar, combo := pmigRegs o }
  | .biassetHost o => { d := .scalar, a := .scalar, f := decide (fN o = 1) }
  | .biassetDev o => { d := .scalar, a := .scalar, f := decide (fN o = 0) }
  | .frecinv o => { a := .scalar, f := decide (fN o = 0), imm := bitsZero o 7 32 }
  | .frecinvAll o => { a := .scalar, f := decide (fN o = 1) }
  | .rdcyc _ => { d := .scalar }
  | .rdseq _ => { d := .scalar, a := .scalar }
  | .waitseq _ => { a := .scalar }
  | .rdclk o => { d := .scalar, a := .scalar, imm := decide (o.imm.toNat ≤ 6) }
  | .cresync _ => { d := .scalar }
  | .evsel _ => { a := .scalar, b := .scalar }
  | .evrd _ => { d := .scalar, a := .scalar }
  | .outcnt _ => { d := .scalar }
  | .budrd _ => { d := .scalar }
  | .packageReset _ _ _ => {}
  | .cycleTick => {}
  | .scalarWriteLand _ => {}
  | .joinRelease _ => {}
  | .queuePushResume _ => {}
  | .queueEntryStart _ _ => {}
  | .queueEntryComplete _ => {}
  | .vectorFault _ => {}
  | .queueFault _ => {}
  | .interrupt _ => {}
  | .preempt _ _ => {}
  | .regstoreFill _ _ => {}
  | .budgetCharge _ => {}
  | .budgetRefill => {}
  | .governorUpdate _ _ => {}
  | .streamPrefetch _ _ _ => {}
  | .requestHeaderRefused _ => {}
  | .l2Fill _ _ => {}
  | .dirRead _ _ => {}
  | .dirOwnership _ _ => {}
  | .writebackRequest _ _ => {}
  | .writebackGrant _ _ => {}
  | .synonymSwitch _ _ _ => {}
  | .engineLineFinish _ _ => {}
  | .copyOpComplete _ _ => {}
  | .collComplete _ _ => {}
  | .toksendRowPlace _ => {}
  | .postedStoreAck _ => {}
  | .domainTimeout _ => {}
  | .promiseMissed _ => {}
  | .viewsyncTimeout _ => {}
  | .sleepTimeout _ => {}
  | .migration _ => {}
  | .migrationComplete _ => {}
  | .holdQueueRetry _ => {}
  | .biasFlipStep _ => {}
  | .hostCxlMemRead _ _ => {}
  | .hostCxlMemWrite _ _ => {}
  | .doorbellWrite _ _ => {}
  | .publishWrite _ => {}
  | .hostPublication => {}
  | .fencereqWrite _ => {}
  | .dieLevelError _ => {}
  | .hubLoss => {}
  | .uncontainedAsnFault _ _ => {}
  | .uncorrectableError _ => {}
  | .packetArrival _ _ => {}
  | .quarantineDelivery _ => {}
  | .horizonBeat _ _ => {}
  | .idleBeat _ _ => {}
  | .windowStall _ => {}
  | .resyncDrainTimeout => {}
  | .watchBeat _ _ => {}
  | .staleNotice _ _ => {}
  | .derivationStart _ => {}
  | .derivationPublish _ => {}
  | .viewRead _ => {}
  | .poolPush _ _ _ => {}
  | .clbDropAck _ _ _ => {}
  | .predecessorEvent _ _ _ => {}
  | .dispatchClaim => {}
  | .readyListAging _ => {}
  | .level0Preempt => {}
  | .taskRetirement _ => {}
  | .taskFailure _ _ => {}
  | .waitUnbind _ => {}
  | .waitRebind _ => {}
  | .irqsetWrite _ => {}
  | .memrdyWrite _ => {}
  | .configRegWrite _ _ _ _ => {}
  | .managementMessage _ => {}
  | .debugUnlock _ => {}
  | .rilrovPortFailure _ => {}
  | .lossOfFlow _ => {}
  | .junctionTemperature _ _ => {}
  | .memEnableControlWrite _ _ => {}
  | .rilrovIngress _ _ => {}
  | .ethernetIngress _ _ => {}
  | .hostCxlResponse _ _ => {}
  | .mtlbinvAcknowledge _ _ => {}

/-- B counts as unused where IMM replaces it (R62, check 6). -/
def Shape.bOk (sh : Shape) (o : Fields) : Bool := if o.i then o.b == 0 else sh.b.ok o.b

/-- Check 7 (R56). -/
def Shape.mskOk (sh : Shape) (o : Fields) : Bool :=
  match sh.msk with
  | .none => !o.mskE && o.mskM == 0
  | .allowed => o.mskE || o.mskM == 0
  | .required => o.mskE

/-- Check 8 (R57). -/
def Shape.wOk (sh : Shape) (o : Fields) : Bool := sh.w.getD (o.w == 0)

/-- Check 9 (R61). -/
def Shape.hintOk (sh : Shape) (o : Fields) : Bool := (sh.lastb || !o.hintL) && (sh.cache || o.hintC == 0)

/-- Check 10 (R59). -/
def Shape.fOk (sh : Shape) (o : Fields) : Bool := sh.f.getD (o.f == 0)

/-- Check 11 (R58). -/
def Shape.iOk (sh : Shape) (o : Fields) : Bool :=
  match sh.iUse with
  | .none => !o.i
  | .typed => !(o.i && o.w == 14)
  | .plain => true

/-- The bits of IMM that a value of type W leaves unused are 0 (R58). -/
def immTypedOk (o : Fields) : Bool :=
  if o.w == 10 || o.w == 11 then bitsZero o 16 32 else if o.w == 8 || o.w == 9 then bitsZero o 8 32 else true

/-- Check 12 (R58). -/
def Shape.immOk (sh : Shape) (o : Fields) : Bool :=
  match o.i, sh.iUse with
  | true, .typed => immTypedOk o
  | true, .plain => true
  | _, _ => sh.imm.getD (o.imm == 0)

/-- The FIELD that a failed check of R62 reports: its number, or the one that R381 gives. -/
def Shape.number (sh : Shape) (n : Nat) : Nat := if sh.nine then 9 else n

/-- The first failure of checks 3 to 13 of R62 on a word of this shape, with what TINFO holds of it. -/
def Shape.fail (sh : Shape) (o : Fields) : Option Illegal :=
  if o.gn && o.gp == 15 then some ⟨2, some 31⟩
  else if !sh.d.ok o.d then some ⟨sh.number 3, some o.d⟩
  else if !sh.a.ok o.a then some ⟨sh.number 4, some o.a⟩
  else if !sh.bOk o then some ⟨sh.number 5, some o.b⟩
  else if !sh.mskOk o then some ⟨sh.number 6, some (BitVec.ofNat 8 (o.mskE.toNat * 8 + o.mskM.toNat))⟩
  else if !sh.wOk o then some ⟨sh.number 7, some (o.w.setWidth 8)⟩
  else if !sh.hintOk o then some ⟨sh.number 8, some (BitVec.ofNat 8 (o.hintY.toNat * 8 + o.hintL.toNat * 4 + o.hintC.toNat))⟩
  else if !sh.fOk o then some ⟨9, some o.f⟩
  else if !sh.iOk o then some ⟨sh.number 10, some (BitVec.ofNat 8 o.i.toNat)⟩
  else if !sh.immOk o then some ⟨sh.number 11, some (o.imm.setWidth 8)⟩
  else match sh.combo with
    | .ok => none
    | .bad v => some ⟨12, v⟩

end Sys2Proof
end

