-- ==== Sys2Proof/Machine/OpMap.lean ====
section
/-! DEFINITION. Sys2Proof/Machine/OpMap.lean: the opcode map (R73), from GRP, OP and fields to the instruction and back. -/

namespace Sys2Proof

/-- The forms of PMOV, told apart by F (R73). -/
def formPmov (o : Fields) : Instr :=
  if o.f.toNat % 4 = 1 then .pmovScalar o
  else if o.f.toNat % 4 = 2 then .pmovAll o
  else .pmov o

/-- The forms of CALL, told apart by F (R73). -/
def formCall (o : Fields) : Instr :=
  if o.f.toNat % 2 = 1 then .callReg o
  else .call o

/-- The forms of YIELD, told apart by F (R73). -/
def formYield (o : Fields) : Instr :=
  if o.f.toNat % 2 = 1 then .yieldRel o
  else .yield o

/-- The forms of VSLIDEIN, told apart by F (R73). -/
def formVslidein (o : Fields) : Instr :=
  if o.f.toNat % 2 = 1 then .vslideinDn o
  else .vslideinUp o

/-- The forms of VRED, told apart by F (R73). -/
def formVred (o : Fields) : Instr :=
  if o.f.toNat / 8 % 2 = 1 then .vredX o
  else .vred o

/-- The forms of FCLEAR, told apart by F (R73). -/
def formFclear (o : Fields) : Instr :=
  if o.f.toNat % 2 = 1 then .fclearPair o
  else .fclear o

/-- The forms of MZERO, told apart by F (R73). -/
def formMzero (o : Fields) : Instr :=
  if o.f.toNat % 2 = 1 then .mzeroC o
  else .mzero o

/-- The forms of CBINV, told apart by F (R73). -/
def formCbinv (o : Fields) : Instr :=
  if o.f.toNat / 16 % 4 = 1 then .cbinvWbi o
  else if o.f.toNat / 16 % 4 = 2 then .cbinvDisc o
  else .cbinvWb o

/-- The forms of FENCE, told apart by F (R73). -/
def formFence (o : Fields) : Instr :=
  if o.f.toNat / 8 % 2 = 1 then .fenceI o
  else .fence o

/-- The forms of COLL, told apart by F (R73); ops 5 to 7 name none and fail the check of F, whatever W they have (R330). -/
def formColl (o : Fields) : Instr :=
  if o.f.toNat % 8 = 1 then .collArmax o
  else if o.f.toNat % 8 = 2 then .collAg o
  else if o.f.toNat % 8 = 3 then .collRssum o
  else if o.f.toNat % 8 = 4 then .collRsmax o
  else .collArsum o

/-- The forms of CLBINV, told apart by F (R73). -/
def formClbinv (o : Fields) : Instr :=
  if o.f.toNat / 16 % 2 = 1 then .clbinvAll o
  else .clbinv o

/-- The forms of VIEWSYNC, told apart by F (R73). -/
def formViewsync (o : Fields) : Instr :=
  if o.f.toNat % 2 = 1 then .viewsyncTw o
  else .viewsync o

/-- The forms of VIEWSTAT, told apart by F (R73). -/
def formViewstat (o : Fields) : Instr :=
  if o.f.toNat % 2 = 1 then .viewstatD o
  else .viewstat o

/-- The forms of MTLBINV, told apart by F (R73). -/
def formMtlbinv (o : Fields) : Instr :=
  if o.f.toNat % 4 = 1 then .mtlbinvAsn o
  else if o.f.toNat % 4 = 2 then .mtlbinvAll o
  else .mtlbinvPage o

/-- The forms of BIASSET, told apart by F (R73). -/
def formBiasset (o : Fields) : Instr :=
  if o.f.toNat % 2 = 1 then .biassetHost o
  else .biassetDev o

/-- The forms of FRECINV, told apart by F (R73). -/
def formFrecinv (o : Fields) : Instr :=
  if o.f.toNat % 2 = 1 then .frecinvAll o
  else .frecinv o

/-- Group 0x0, scalar integer, by OP (R73). -/
def opGroupInt : List (Fields → Instr) :=
  [.add, .sub, .mul, .mulh, .div, .rem, .and, .or, .xor, .andn, .shl, .shr, .sra, .rotr, .min, .max, .clz, .ctz,
   .popc, .brev, .ext, .bfx, .bfi, .mov, .lih, .sel, .cmp]

/-- Group 0x1, scalar floating point and predicates, by OP (R73). -/
def opGroupFloat : List (Fields → Instr) :=
  [.fadd, .fsub, .fmul, .ffma, .fdiv, .fsqrt, .fmin, .fmax, .fcmp, .fcvt, .plog, formPmov]

/-- Group 0x2, control, by OP (R73). -/
def opGroupControl : List (Fields → Instr) :=
  [.bra, .jmp, formCall, .ret, .loop, .setvl, .trap, .eret, .mfs, .mts, .endI, formYield, .nop, .tfence]

/-- Group 0x3, vector integer, by OP (R73). -/
def opGroupVecInt : List (Fields → Instr) :=
  [.vadd, .vsub, .vmul, .vmulh, .vmadd, .vdiv, .vrem, .vand, .vor, .vxor, .vshl, .vshr, .vsra, .vmin, .vmax,
   .vabsd, .vsadd, .vssub, .vcmp, .vsel, .vwadd, .vwmul, .vnshr, .vid, .viota]

/-- Group 0x4, vector floating point, by OP (R73). -/
def opGroupVecFloat : List (Fields → Instr) :=
  [.vfadd, .vfsub, .vfmul, .vfma, .vfnma, .vfdiv, .vfsqrt, .vfexp, .vfmin, .vfmax, .vfcmp, .vfclass, .vfcvt,
   .vfscale, .vfsgn, .vfqnt, .vfdqnt, .vfamax]

/-- Group 0x5, permutation, masks, reductions, sorting and segments, by OP (R73). -/
def opGroupPermute : List (Fields → Instr) :=
  [.vslideup, .vslidedn, formVslidein, .vperm, .vxch, .vcompress, .vexpand, .vbcast, .vmvsx, .vmvxs, formVred,
   .vfredo, .vfredt, .vfredmx, .mlog, .mpopc, .mfirst, .mset, .vsortk, .vmergek, .vsegred, .vsegnorm, .vsegscan,
   .vsetseg, .vgetseg]

/-- Group 0x6, fibre, by OP (R73). -/
def opGroupFibre : List (Fields → Instr) :=
  [.fbuild, .fsplit, .fisect, .funion, .fmerge, .fcompact, .fexpand, .fgather, .fmulFibre, .fdot, .fscale,
   .focc, .fshift, .fsort, .fred, formFclear]

/-- Group 0x7, matrix, by OP (R73). -/
def opGroupMatrix : List (Fields → Instr) :=
  [.mma, .mmas, .mmag, .mprom, formMzero, .mdrain, .mfill, .mstat]

/-- Group 0x8, memory, by OP (R73). -/
def opGroupMemory : List (Fields → Instr) :=
  [.ld, .st, .vld, .vst, .vlds, .vsts, .vldx, .vstx, .vldf, .vstf, .vldp, .vstp, .pref, formCbinv, formFence]

/-- Group 0x9, atomics, coordinates and fibre memory, by OP (R73). -/
def opGroupAtomic : List (Fields → Instr) :=
  [.amo, .cas, .vamo, .vldc, .vstc, .vamoc, .fld, .fst, .fwalk]

/-- Group 0xA, queue, streams, engines, tasks and synchronisation, by OP (R73). -/
def opGroupQueue : List (Fields → Instr) :=
  [.vqsync, .vqreplay, .qbind, .qrd, .fldq, .qrel, .acopy, .acopy2, .waitt, formColl, .toksend, .taskpub,
   .taskcan, .arrive, .waitb, .sleep, .wake]

/-- Group 0xB, tile trees, views, translation and bias, by OP (R73). -/
def opGroupTable : List (Fields → Instr) :=
  [formClbinv, .viewreg, .viewdel, formViewsync, formViewstat, formMtlbinv, .pmig, formBiasset, formFrecinv]

/-- Group 0xC, counters, by OP (R73). -/
def opGroupCounter : List (Fields → Instr) :=
  [.rdcyc, .rdseq, .waitseq, .rdclk, .cresync, .evsel, .evrd, .outcnt, .budrd]

/-- The assigned groups, by GRP (R73). -/
def opGroups : List (List (Fields → Instr)) :=
  [opGroupInt, opGroupFloat, opGroupControl, opGroupVecInt, opGroupVecFloat, opGroupPermute,
   opGroupFibre, opGroupMatrix, opGroupMemory, opGroupAtomic, opGroupQueue, opGroupTable, opGroupCounter]

/-- The instruction that GRP and OP name, with its fields; none where OP is not assigned in GRP or GRP is not (R64). -/
def mkInstr (grp op : Nat) (o : Fields) : Option Instr :=
  match opGroups[grp]? with
  | some ops => (ops[op]?).map (fun f => f o)
  | none => none

/-- GRP, OP and the fields of an instruction; none for an event, which has no word. -/
def Instr.parts : Instr → Option (Nat × Nat × Fields)
  | .add o => some (0, 0, o)
  | .sub o => some (0, 1, o)
  | .mul o => some (0, 2, o)
  | .mulh o => some (0, 3, o)
  | .div o => some (0, 4, o)
  | .rem o => some (0, 5, o)
  | .and o => some (0, 6, o)
  | .or o => some (0, 7, o)
  | .xor o => some (0, 8, o)
  | .andn o => some (0, 9, o)
  | .shl o => some (0, 10, o)
  | .shr o => some (0, 11, o)
  | .sra o => some (0, 12, o)
  | .rotr o => some (0, 13, o)
  | .min o => some (0, 14, o)
  | .max o => some (0, 15, o)
  | .clz o => some (0, 16, o)
  | .ctz o => some (0, 17, o)
  | .popc o => some (0, 18, o)
  | .brev o => some (0, 19, o)
  | .ext o => some (0, 20, o)
  | .bfx o => some (0, 21, o)
  | .bfi o => some (0, 22, o)
  | .mov o => some (0, 23, o)
  | .lih o => some (0, 24, o)
  | .sel o => some (0, 25, o)
  | .cmp o => some (0, 26, o)
  | .fadd o => some (1, 0, o)
  | .fsub o => some (1, 1, o)
  | .fmul o => some (1, 2, o)
  | .ffma o => some (1, 3, o)
  | .fdiv o => some (1, 4, o)
  | .fsqrt o => some (1, 5, o)
  | .fmin o => some (1, 6, o)
  | .fmax o => some (1, 7, o)
  | .fcmp o => some (1, 8, o)
  | .fcvt o => some (1, 9, o)
  | .plog o => some (1, 10, o)
  | .pmov o => some (1, 11, o)
  | .pmovScalar o => some (1, 11, o)
  | .pmovAll o => some (1, 11, o)
  | .bra o => some (2, 0, o)
  | .jmp o => some (2, 1, o)
  | .call o => some (2, 2, o)
  | .callReg o => some (2, 2, o)
  | .ret o => some (2, 3, o)
  | .loop o => some (2, 4, o)
  | .setvl o => some (2, 5, o)
  | .trap o => some (2, 6, o)
  | .eret o => some (2, 7, o)
  | .mfs o => some (2, 8, o)
  | .mts o => some (2, 9, o)
  | .endI o => some (2, 10, o)
  | .yield o => some (2, 11, o)
  | .yieldRel o => some (2, 11, o)
  | .nop o => some (2, 12, o)
  | .tfence o => some (2, 13, o)
  | .vadd o => some (3, 0, o)
  | .vsub o => some (3, 1, o)
  | .vmul o => some (3, 2, o)
  | .vmulh o => some (3, 3, o)
  | .vmadd o => some (3, 4, o)
  | .vdiv o => some (3, 5, o)
  | .vrem o => some (3, 6, o)
  | .vand o => some (3, 7, o)
  | .vor o => some (3, 8, o)
  | .vxor o => some (3, 9, o)
  | .vshl o => some (3, 10, o)
  | .vshr o => some (3, 11, o)
  | .vsra o => some (3, 12, o)
  | .vmin o => some (3, 13, o)
  | .vmax o => some (3, 14, o)
  | .vabsd o => some (3, 15, o)
  | .vsadd o => some (3, 16, o)
  | .vssub o => some (3, 17, o)
  | .vcmp o => some (3, 18, o)
  | .vsel o => some (3, 19, o)
  | .vwadd o => some (3, 20, o)
  | .vwmul o => some (3, 21, o)
  | .vnshr o => some (3, 22, o)
  | .vid o => some (3, 23, o)
  | .viota o => some (3, 24, o)
  | .vfadd o => some (4, 0, o)
  | .vfsub o => some (4, 1, o)
  | .vfmul o => some (4, 2, o)
  | .vfma o => some (4, 3, o)
  | .vfnma o => some (4, 4, o)
  | .vfdiv o => some (4, 5, o)
  | .vfsqrt o => some (4, 6, o)
  | .vfexp o => some (4, 7, o)
  | .vfmin o => some (4, 8, o)
  | .vfmax o => some (4, 9, o)
  | .vfcmp o => some (4, 10, o)
  | .vfclass o => some (4, 11, o)
  | .vfcvt o => some (4, 12, o)
  | .vfscale o => some (4, 13, o)
  | .vfsgn o => some (4, 14, o)
  | .vfqnt o => some (4, 15, o)
  | .vfdqnt o => some (4, 16, o)
  | .vfamax o => some (4, 17, o)
  | .vslideup o => some (5, 0, o)
  | .vslidedn o => some (5, 1, o)
  | .vslideinUp o => some (5, 2, o)
  | .vslideinDn o => some (5, 2, o)
  | .vperm o => some (5, 3, o)
  | .vxch o => some (5, 4, o)
  | .vcompress o => some (5, 5, o)
  | .vexpand o => some (5, 6, o)
  | .vbcast o => some (5, 7, o)
  | .vmvsx o => some (5, 8, o)
  | .vmvxs o => some (5, 9, o)
  | .vred o => some (5, 10, o)
  | .vredX o => some (5, 10, o)
  | .vfredo o => some (5, 11, o)
  | .vfredt o => some (5, 12, o)
  | .vfredmx o => some (5, 13, o)
  | .mlog o => some (5, 14, o)
  | .mpopc o => some (5, 15, o)
  | .mfirst o => some (5, 16, o)
  | .mset o => some (5, 17, o)
  | .vsortk o => some (5, 18, o)
  | .vmergek o => some (5, 19, o)
  | .vsegred o => some (5, 20, o)
  | .vsegnorm o => some (5, 21, o)
  | .vsegscan o => some (5, 22, o)
  | .vsetseg o => some (5, 23, o)
  | .vgetseg o => some (5, 24, o)
  | .fbuild o => some (6, 0, o)
  | .fsplit o => some (6, 1, o)
  | .fisect o => some (6, 2, o)
  | .funion o => some (6, 3, o)
  | .fmerge o => some (6, 4, o)
  | .fcompact o => some (6, 5, o)
  | .fexpand o => some (6, 6, o)
  | .fgather o => some (6, 7, o)
  | .fmulFibre o => some (6, 8, o)
  | .fdot o => some (6, 9, o)
  | .fscale o => some (6, 10, o)
  | .focc o => some (6, 11, o)
  | .fshift o => some (6, 12, o)
  | .fsort o => some (6, 13, o)
  | .fred o => some (6, 14, o)
  | .fclear o => some (6, 15, o)
  | .fclearPair o => some (6, 15, o)
  | .mma o => some (7, 0, o)
  | .mmas o => some (7, 1, o)
  | .mmag o => some (7, 2, o)
  | .mprom o => some (7, 3, o)
  | .mzero o => some (7, 4, o)
  | .mzeroC o => some (7, 4, o)
  | .mdrain o => some (7, 5, o)
  | .mfill o => some (7, 6, o)
  | .mstat o => some (7, 7, o)
  | .ld o => some (8, 0, o)
  | .st o => some (8, 1, o)
  | .vld o => some (8, 2, o)
  | .vst o => some (8, 3, o)
  | .vlds o => some (8, 4, o)
  | .vsts o => some (8, 5, o)
  | .vldx o => some (8, 6, o)
  | .vstx o => some (8, 7, o)
  | .vldf o => some (8, 8, o)
  | .vstf o => some (8, 9, o)
  | .vldp o => some (8, 10, o)
  | .vstp o => some (8, 11, o)
  | .pref o => some (8, 12, o)
  | .cbinvWb o => some (8, 13, o)
  | .cbinvWbi o => some (8, 13, o)
  | .cbinvDisc o => some (8, 13, o)
  | .fence o => some (8, 14, o)
  | .fenceI o => some (8, 14, o)
  | .amo o => some (9, 0, o)
  | .cas o => some (9, 1, o)
  | .vamo o => some (9, 2, o)
  | .vldc o => some (9, 3, o)
  | .vstc o => some (9, 4, o)
  | .vamoc o => some (9, 5, o)
  | .fld o => some (9, 6, o)
  | .fst o => some (9, 7, o)
  | .fwalk o => some (9, 8, o)
  | .vqsync o => some (10, 0, o)
  | .vqreplay o => some (10, 1, o)
  | .qbind o => some (10, 2, o)
  | .qrd o => some (10, 3, o)
  | .fldq o => some (10, 4, o)
  | .qrel o => some (10, 5, o)
  | .acopy o => some (10, 6, o)
  | .acopy2 o => some (10, 7, o)
  | .waitt o => some (10, 8, o)
  | .collArsum o => some (10, 9, o)
  | .collArmax o => some (10, 9, o)
  | .collAg o => some (10, 9, o)
  | .collRssum o => some (10, 9, o)
  | .collRsmax o => some (10, 9, o)
  | .toksend o => some (10, 10, o)
  | .taskpub o => some (10, 11, o)
  | .taskcan o => some (10, 12, o)
  | .arrive o => some (10, 13, o)
  | .waitb o => some (10, 14, o)
  | .sleep o => some (10, 15, o)
  | .wake o => some (10, 16, o)
  | .clbinv o => some (11, 0, o)
  | .clbinvAll o => some (11, 0, o)
  | .viewreg o => some (11, 1, o)
  | .viewdel o => some (11, 2, o)
  | .viewsync o => some (11, 3, o)
  | .viewsyncTw o => some (11, 3, o)
  | .viewstat o => some (11, 4, o)
  | .viewstatD o => some (11, 4, o)
  | .mtlbinvPage o => some (11, 5, o)
  | .mtlbinvAsn o => some (11, 5, o)
  | .mtlbinvAll o => some (11, 5, o)
  | .pmig o => some (11, 6, o)
  | .biassetHost o => some (11, 7, o)
  | .biassetDev o => some (11, 7, o)
  | .frecinv o => some (11, 8, o)
  | .frecinvAll o => some (11, 8, o)
  | .rdcyc o => some (12, 0, o)
  | .rdseq o => some (12, 1, o)
  | .waitseq o => some (12, 2, o)
  | .rdclk o => some (12, 3, o)
  | .cresync o => some (12, 4, o)
  | .evsel o => some (12, 5, o)
  | .evrd o => some (12, 6, o)
  | .outcnt o => some (12, 7, o)
  | .budrd o => some (12, 8, o)
  | .packageReset _ _ _ => none
  | .cycleTick => none
  | .scalarWriteLand _ => none
  | .joinRelease _ => none
  | .queuePushResume _ => none
  | .queueEntryStart _ _ => none
  | .queueEntryComplete _ => none
  | .vectorFault _ => none
  | .queueFault _ => none
  | .interrupt _ => none
  | .preempt _ _ => none
  | .regstoreFill _ _ => none
  | .budgetCharge _ => none
  | .budgetRefill => none
  | .governorUpdate _ _ => none
  | .streamPrefetch _ _ _ => none
  | .requestHeaderRefused _ => none
  | .l2Fill _ _ => none
  | .dirRead _ _ => none
  | .dirOwnership _ _ => none
  | .writebackRequest _ _ => none
  | .writebackGrant _ _ => none
  | .synonymSwitch _ _ _ => none
  | .engineLineFinish _ _ => none
  | .copyOpComplete _ _ => none
  | .collComplete _ _ => none
  | .toksendRowPlace _ => none
  | .postedStoreAck _ => none
  | .domainTimeout _ => none
  | .promiseMissed _ => none
  | .viewsyncTimeout _ => none
  | .sleepTimeout _ => none
  | .migration _ => none
  | .migrationComplete _ => none
  | .holdQueueRetry _ => none
  | .biasFlipStep _ => none
  | .hostCxlMemRead _ _ => none
  | .hostCxlMemWrite _ _ => none
  | .doorbellWrite _ _ => none
  | .publishWrite _ => none
  | .hostPublication => none
  | .fencereqWrite _ => none
  | .dieLevelError _ => none
  | .hubLoss => none
  | .uncontainedAsnFault _ _ => none
  | .uncorrectableError _ => none
  | .packetArrival _ _ => none
  | .quarantineDelivery _ => none
  | .horizonBeat _ _ => none
  | .idleBeat _ _ => none
  | .windowStall _ => none
  | .resyncDrainTimeout => none
  | .watchBeat _ _ => none
  | .staleNotice _ _ => none
  | .derivationStart _ => none
  | .derivationPublish _ => none
  | .viewRead _ => none
  | .poolPush _ _ _ => none
  | .clbDropAck _ _ _ => none
  | .predecessorEvent _ _ _ => none
  | .dispatchClaim => none
  | .readyListAging _ => none
  | .level0Preempt => none
  | .taskRetirement _ => none
  | .taskFailure _ _ => none
  | .waitUnbind _ => none
  | .waitRebind _ => none
  | .irqsetWrite _ => none
  | .memrdyWrite _ => none
  | .configRegWrite _ _ _ _ => none
  | .managementMessage _ => none
  | .debugUnlock _ => none
  | .rilrovPortFailure _ => none
  | .lossOfFlow _ => none
  | .junctionTemperature _ _ => none
  | .memEnableControlWrite _ _ => none
  | .rilrovIngress _ _ => none
  | .ethernetIngress _ _ => none
  | .hostCxlResponse _ _ => none
  | .mtlbinvAcknowledge _ _ => none

/-- The instruction is supervisor-only by its encoding (R63): the reads and writes of class S registers (R93) among
them. EVRD of a hub counter is decided when it runs (R407). -/
def supervisorOnly : Instr → Bool
  | .add _ => false
  | .sub _ => false
  | .mul _ => false
  | .mulh _ => false
  | .div _ => false
  | .rem _ => false
  | .and _ => false
  | .or _ => false
  | .xor _ => false
  | .andn _ => false
  | .shl _ => false
  | .shr _ => false
  | .sra _ => false
  | .rotr _ => false
  | .min _ => false
  | .max _ => false
  | .clz _ => false
  | .ctz _ => false
  | .popc _ => false
  | .brev _ => false
  | .ext _ => false
  | .bfx _ => false
  | .bfi _ => false
  | .mov _ => false
  | .lih _ => false
  | .sel _ => false
  | .cmp _ => false
  | .fadd _ => false
  | .fsub _ => false
  | .fmul _ => false
  | .ffma _ => false
  | .fdiv _ => false
  | .fsqrt _ => false
  | .fmin _ => false
  | .fmax _ => false
  | .fcmp _ => false
  | .fcvt _ => false
  | .plog _ => false
  | .pmov _ => false
  | .pmovScalar _ => false
  | .pmovAll _ => false
  | .bra _ => false
  | .jmp _ => false
  | .call _ => false
  | .callReg _ => false
  | .ret _ => false
  | .loop _ => false
  | .setvl _ => false
  | .trap _ => false
  | .eret _ => true
  | .mfs o => msrSupervisor o
  | .mts o => msrSupervisor o
  | .endI _ => false
  | .yield _ => false
  | .yieldRel _ => true
  | .nop _ => false
  | .tfence _ => false
  | .vadd _ => false
  | .vsub _ => false
  | .vmul _ => false
  | .vmulh _ => false
  | .vmadd _ => false
  | .vdiv _ => false
  | .vrem _ => false
  | .vand _ => false
  | .vor _ => false
  | .vxor _ => false
  | .vshl _ => false
  | .vshr _ => false
  | .vsra _ => false
  | .vmin _ => false
  | .vmax _ => false
  | .vabsd _ => false
  | .vsadd _ => false
  | .vssub _ => false
  | .vcmp _ => false
  | .vsel _ => false
  | .vwadd _ => false
  | .vwmul _ => false
  | .vnshr _ => false
  | .vid _ => false
  | .viota _ => false
  | .vfadd _ => false
  | .vfsub _ => false
  | .vfmul _ => false
  | .vfma _ => false
  | .vfnma _ => false
  | .vfdiv _ => false
  | .vfsqrt _ => false
  | .vfexp _ => false
  | .vfmin _ => false
  | .vfmax _ => false
  | .vfcmp _ => false
  | .vfclass _ => false
  | .vfcvt _ => false
  | .vfscale _ => false
  | .vfsgn _ => false
  | .vfqnt _ => false
  | .vfdqnt _ => false
  | .vfamax _ => false
  | .vslideup _ => false
  | .vslidedn _ => false
  | .vslideinUp _ => false
  | .vslideinDn _ => false
  | .vperm _ => false
  | .vxch _ => false
  | .vcompress _ => false
  | .vexpand _ => false
  | .vbcast _ => false
  | .vmvsx _ => false
  | .vmvxs _ => false
  | .vred _ => false
  | .vredX _ => false
  | .vfredo _ => false
  | .vfredt _ => false
  | .vfredmx _ => false
  | .mlog _ => false
  | .mpopc _ => false
  | .mfirst _ => false
  | .mset _ => false
  | .vsortk _ => false
  | .vmergek _ => false
  | .vsegred _ => false
  | .vsegnorm _ => false
  | .vsegscan _ => false
  | .vsetseg _ => false
  | .vgetseg _ => false
  | .fbuild _ => false
  | .fsplit _ => false
  | .fisect _ => false
  | .funion _ => false
  | .fmerge _ => false
  | .fcompact _ => false
  | .fexpand _ => false
  | .fgather _ => false
  | .fmulFibre _ => false
  | .fdot _ => false
  | .fscale _ => false
  | .focc _ => false
  | .fshift _ => false
  | .fsort _ => false
  | .fred _ => false
  | .fclear _ => false
  | .fclearPair _ => false
  | .mma _ => false
  | .mmas _ => false
  | .mmag _ => false
  | .mprom _ => false
  | .mzero _ => false
  | .mzeroC _ => false
  | .mdrain _ => false
  | .mfill _ => false
  | .mstat _ => false
  | .ld _ => false
  | .st _ => false
  | .vld _ => false
  | .vst _ => false
  | .vlds _ => false
  | .vsts _ => false
  | .vldx _ => false
  | .vstx _ => false
  | .vldf _ => false
  | .vstf _ => false
  | .vldp _ => false
  | .vstp _ => false
  | .pref _ => false
  | .cbinvWb _ => false
  | .cbinvWbi _ => false
  | .cbinvDisc _ => true
  | .fence _ => false
  | .fenceI _ => false
  | .amo _ => false
  | .cas _ => false
  | .vamo _ => false
  | .vldc _ => false
  | .vstc _ => false
  | .vamoc _ => false
  | .fld _ => false
  | .fst _ => false
  | .fwalk _ => false
  | .vqsync _ => false
  | .vqreplay _ => true
  | .qbind _ => false
  | .qrd _ => false
  | .fldq _ => false
  | .qrel _ => false
  | .acopy _ => false
  | .acopy2 _ => false
  | .waitt _ => false
  | .collArsum _ => false
  | .collArmax _ => false
  | .collAg _ => false
  | .collRssum _ => false
  | .collRsmax _ => false
  | .toksend _ => false
  | .taskpub _ => false
  | .taskcan _ => false
  | .arrive _ => false
  | .waitb _ => false
  | .sleep _ => false
  | .wake _ => false
  | .clbinv _ => false
  | .clbinvAll _ => false
  | .viewreg _ => false
  | .viewdel _ => false
  | .viewsync _ => false
  | .viewsyncTw _ => false
  | .viewstat _ => false
  | .viewstatD _ => false
  | .mtlbinvPage _ => true
  | .mtlbinvAsn _ => true
  | .mtlbinvAll _ => true
  | .pmig _ => true
  | .biassetHost _ => true
  | .biassetDev _ => true
  | .frecinv _ => true
  | .frecinvAll _ => true
  | .rdcyc _ => false
  | .rdseq _ => false
  | .waitseq _ => false
  | .rdclk _ => false
  | .cresync _ => true
  | .evsel _ => true
  | .evrd _ => false
  | .outcnt _ => false
  | .budrd _ => false
  | .packageReset _ _ _ => false
  | .cycleTick => false
  | .scalarWriteLand _ => false
  | .joinRelease _ => false
  | .queuePushResume _ => false
  | .queueEntryStart _ _ => false
  | .queueEntryComplete _ => false
  | .vectorFault _ => false
  | .queueFault _ => false
  | .interrupt _ => false
  | .preempt _ _ => false
  | .regstoreFill _ _ => false
  | .budgetCharge _ => false
  | .budgetRefill => false
  | .governorUpdate _ _ => false
  | .streamPrefetch _ _ _ => false
  | .requestHeaderRefused _ => false
  | .l2Fill _ _ => false
  | .dirRead _ _ => false
  | .dirOwnership _ _ => false
  | .writebackRequest _ _ => false
  | .writebackGrant _ _ => false
  | .synonymSwitch _ _ _ => false
  | .engineLineFinish _ _ => false
  | .copyOpComplete _ _ => false
  | .collComplete _ _ => false
  | .toksendRowPlace _ => false
  | .postedStoreAck _ => false
  | .domainTimeout _ => false
  | .promiseMissed _ => false
  | .viewsyncTimeout _ => false
  | .sleepTimeout _ => false
  | .migration _ => false
  | .migrationComplete _ => false
  | .holdQueueRetry _ => false
  | .biasFlipStep _ => false
  | .hostCxlMemRead _ _ => false
  | .hostCxlMemWrite _ _ => false
  | .doorbellWrite _ _ => false
  | .publishWrite _ => false
  | .hostPublication => false
  | .fencereqWrite _ => false
  | .dieLevelError _ => false
  | .hubLoss => false
  | .uncontainedAsnFault _ _ => false
  | .uncorrectableError _ => false
  | .packetArrival _ _ => false
  | .quarantineDelivery _ => false
  | .horizonBeat _ _ => false
  | .idleBeat _ _ => false
  | .windowStall _ => false
  | .resyncDrainTimeout => false
  | .watchBeat _ _ => false
  | .staleNotice _ _ => false
  | .derivationStart _ => false
  | .derivationPublish _ => false
  | .viewRead _ => false
  | .poolPush _ _ _ => false
  | .clbDropAck _ _ _ => false
  | .predecessorEvent _ _ _ => false
  | .dispatchClaim => false
  | .readyListAging _ => false
  | .level0Preempt => false
  | .taskRetirement _ => false
  | .taskFailure _ _ => false
  | .waitUnbind _ => false
  | .waitRebind _ => false
  | .irqsetWrite _ => false
  | .memrdyWrite _ => false
  | .configRegWrite _ _ _ _ => false
  | .managementMessage _ => false
  | .debugUnlock _ => false
  | .rilrovPortFailure _ => false
  | .lossOfFlow _ => false
  | .junctionTemperature _ _ => false
  | .memEnableControlWrite _ _ => false
  | .rilrovIngress _ _ => false
  | .ethernetIngress _ _ => false
  | .hostCxlResponse _ _ => false
  | .mtlbinvAcknowledge _ _ => false

end Sys2Proof
end

