-- ==== Sys2Proof/WellFormed.lean ====
section
/-! DEFINITION. Sys2Proof/WellFormed.lean: the instructions that a word of the set can hold (R62, R64). -/

namespace Sys2Proof

/-- An instruction of the map with legal fields: it passes checks 3 to 13 of R62, and its F bits are those of the form
its constructor names. An event is not an instruction of the set. -/
def Instr.wf (i : Instr) : Bool :=
  match i.parts with
  | some (g, op, o) => (shape i).fail o == none && mkInstr g op o == some i
  | none => false

/-- The well-formed instructions. -/
abbrev WellFormed (i : Instr) : Prop := i.wf = true

end Sys2Proof
end

