-- ==== Sys2Proof/Decode.lean ====
section
/-! DEFINITION. Sys2Proof/Decode.lean: the decoder of the 96-bit word, and the encoder (R51, R62, R64). -/

namespace Sys2Proof

/-- The fields of a word below GRP and OP (R51). -/
def fieldsOf (x : BitVec 96) : Fields :=
  { gn := x.getLsbD 85, gp := x.extractLsb' 81 4, d := x.extractLsb' 73 8, a := x.extractLsb' 65 8,
    b := x.extractLsb' 57 8, mskE := x.getLsbD 56, mskM := x.extractLsb' 53 3, w := x.extractLsb' 49 4,
    stall := x.extractLsb' 45 4, hintY := x.getLsbD 44, hintL := x.getLsbD 43, hintC := x.extractLsb' 41 2,
    f := x.extractLsb' 33 8, i := x.getLsbD 32, imm := x.extractLsb' 0 32 }

/-- GRP [95:92] (R51). -/
def grpOf (x : BitVec 96) : Nat := (x.extractLsb' 92 4).toNat

/-- OP [91:86] (R51). -/
def opOf (x : BitVec 96) : Nat := (x.extractLsb' 86 6).toNat

/-- The instruction a word holds, or the first check of R62 it fails. -/
def decode (x : BitVec 96) : Except Illegal Instr :=
  if opGroups.length ≤ grpOf x then .error ⟨0, some (BitVec.ofNat 8 (grpOf x))⟩
  else match mkInstr (grpOf x) (opOf x) (fieldsOf x) with
    | none => .error ⟨1, some (BitVec.ofNat 8 (opOf x))⟩
    | some i => match (shape i).fail (fieldsOf x) with
      | some e => .error e
      | none => .ok i

/-- The word of GRP, OP and fields (R51). -/
def packWord (g op : Nat) (o : Fields) : BitVec 96 :=
  BitVec.ofNat 4 g ++ BitVec.ofNat 6 op ++ BitVec.ofBool o.gn ++ o.gp ++ o.d ++ o.a ++ o.b ++ BitVec.ofBool o.mskE ++
    o.mskM ++ o.w ++ o.stall ++ BitVec.ofBool o.hintY ++ BitVec.ofBool o.hintL ++ o.hintC ++ o.f ++ BitVec.ofBool o.i ++
    o.imm

/-- The word of an instruction; none for an event. -/
def encode (i : Instr) : Option (BitVec 96) := i.parts.map fun p => packWord p.1 p.2.1 p.2.2

/-- The instruction that the decoder reads from the bits of a row of the opcode table: words 0 to 2 from the least
significant bit up (R51), bits above `nbits` being 0. -/
def decodeTableWord (nbits w : Nat) : Option Instr := (decode (BitVec.ofNat 96 (w % 2 ^ nbits))).toOption

end Sys2Proof
end

