-- ==== Sys2Proof/Config.lean ====
section
/-! DEFINITION. Sys2Proof/Config.lean: what the manual leaves to an implementation or leaves open, as constants of the
machine. An opaque constant has no body: a claim that holds of it holds whatever its value is. -/

namespace Sys2Proof.Config

/-- The free values of the machine (log 5): each open value takes the next number of State's counter `fresh`. -/
opaque freeValue : Nat → BitVec 64

/-- The fuses of a device (R431): the hash of the key that its firmware is verified against, the anti-rollback counter, and its
identity key. -/
structure Fuses where
  keyHash : BitVec 256
  counter : Nat
  identity : BitVec 256
  deriving DecidableEq, Repr, Inhabited

/-- The fuses as the device left the factory: no value is stated (log 5). -/
opaque fuses : Fuses

/-- What the device measures of its boot ROM, its hub firmware, Stobry and its fuses, SHA-256 digests, and the signature of its
identity key, a P-256 key, over them (R431). -/
structure Measurements where
  changes : Nat
  bootRom : BitVec 256
  hubFirmware : BitVec 256
  stobry : BitVec 256
  fuses : BitVec 256
  signature : BitVec 512
  deriving DecidableEq, Repr

/-- The digests after so many changes of what the device reports, that of the fuse state, and the signature of an identity key
over them (R431): free values (log 5). -/
opaque measuredPart : Nat → Nat → BitVec 256
opaque fuseDigest : Nat → Fuses → BitVec 256
opaque identitySignature : BitVec 256 → Nat → BitVec 512

/-- The measurements that a device with these fuses reports once they have changed n times; an unlock of debug changes them
(R431). -/
def measured (f : Fuses) (n : Nat) : Measurements :=
  { changes := n, bootRom := measuredPart n 0, hubFirmware := measuredPart n 1, stobry := measuredPart n 2
    fuses := fuseDigest n f, signature := identitySignature f.identity n }

/-- The set of an L2 slice that a line of a VA falls in, under an ASN (R224). The manual gives the slice and the number of
sets, and no index: a free function (log 49). -/
opaque l2Set : Nat → BitVec 16 → BitVec 11

/-- The set of a coordinate look-aside buffer in which the entry of an ASN, a root and a tile competes: a hash that the
manual does not state (R370), a free function (log 14). -/
opaque clbSet : BitVec 16 → BitVec 64 → Nat → Nat

/-- The strapped package id that PKGID resets to (R100, R424): DESIGN CHOICE 0 (log 12), unsafe. -/
def pkgStrap : BitVec 10 := 0

/-- The physical address of Stobry's context image at reset (R103, R107): DESIGN CHOICE (log 2), unsafe. -/
def stobryImage : Nat := 0x1F0000000

/-- The number of bytes of a context image (R107). -/
def imageBytes : Nat := 77824

/-- The number of cores of a C-die (R9). -/
def coresPerDie : Nat := 32

/-- The number of C-dies (R7). -/
def dieCount : Nat := 24

/-- The number of hubs (R8). -/
def hubCount : Nat := 8

end Sys2Proof.Config
end

