-- ==== Sys2Proof/Machine/Bits.lean ====
section
/-! DEFINITION. Sys2Proof/Machine/Bits.lean: bit fields, sign extension, byte order, and elements of wide registers. -/

namespace Sys2Proof.Machine

/-- The width in bits of type code w (R22). -/
def typeBits (w : Nat) : Nat :=
  match w with
  | 0 | 4 | 8 | 9 | 14 => 8
  | 1 | 5 | 10 | 11 => 16
  | 2 | 6 | 12 => 32
  | _ => 64

/-- The width in bytes of type code w. -/
def typeBytes (w : Nat) : Nat := typeBits w / 8

/-- The code of a width: 0, 1, 2, 3 for 8, 16, 32, 64 bits (R95). -/
def widthCode (bits : Nat) : Nat := if bits ≤ 8 then 0 else if bits ≤ 16 then 1 else if bits ≤ 32 then 2 else 3

/-- A signed type (R22). -/
def typeSigned (w : Nat) : Bool := decide (w ≤ 3)

/-- The low n bits of x read as two's complement. -/
def signedVal (n x : Nat) : Int :=
  if x % 2 ^ n < 2 ^ (n - 1) then (x % 2 ^ n : Nat) else (x % 2 ^ n : Nat) - (2 ^ n : Nat)

/-- The low bits of x read as an integer of type w: val of R112. -/
def intVal (w x : Nat) : Int :=
  if typeSigned w then signedVal (typeBits w) x else ((x % 2 ^ typeBits w : Nat) : Int)

/-- y modulo 2^n. -/
def wrapNat (n : Nat) (y : Int) : Nat := (y % (2 ^ n : Nat)).toNat

/-- y reduced to type w and extended to 64 bits: ext of R112. -/
def extWord (w : Nat) (y : Int) : Word := BitVec.ofInt 64 (intVal w (wrapNat (typeBits w) y))

/-- A code of type w extended to 64 bits as a join delivers it: integers of I types signed, all others with zeros
(R155). -/
def extCode (w x : Nat) : Word :=
  if typeSigned w then BitVec.ofInt 64 (signedVal (typeBits w) x) else BitVec.ofNat 64 (x % 2 ^ typeBits w)

/-- The least and the greatest value of integer type w (R23). -/
def intMin (w : Nat) : Int := if typeSigned w then -(2 ^ (typeBits w - 1) : Nat) else 0
def intMax (w : Nat) : Int :=
  if typeSigned w then (2 ^ (typeBits w - 1) : Nat) - 1 else (2 ^ typeBits w : Nat) - 1

/-- The quotient of DIV and VDIV (R113, R114). -/
def intDiv (w : Nat) (a b : Int) : Int := if b = 0 then (if typeSigned w then -1 else intMax w) else a.tdiv b

/-- The remainder of REM and VREM (R113, R114). -/
def intRem (a b : Int) : Int := if b = 0 then a else a.tmod b

/-- The low n bits of x rotated right by k < n. -/
def rotateRight (n x k : Nat) : Nat := x % 2 ^ n / 2 ^ k + x % 2 ^ k * 2 ^ (n - k)

/-- The number of leading zero bits of the n-bit x. -/
def leadingZeros : Nat → Nat → Nat
  | 0, _ => 0
  | n + 1, x => if x / 2 ^ n % 2 = 1 then 0 else leadingZeros n x + 1

/-- The number of trailing zero bits of the n-bit x. -/
def trailingZeros : Nat → Nat → Nat
  | 0, _ => 0
  | n + 1, x => if x % 2 = 1 then 0 else trailingZeros n (x / 2) + 1

/-- The number of one bits among the low n bits of x. -/
def countOnes : Nat → Nat → Nat
  | 0, _ => 0
  | n + 1, x => x % 2 + countOnes n (x / 2)

/-- The low n bits of x in reverse order. -/
def reverseBits : Nat → Nat → Nat
  | 0, _ => 0
  | n + 1, x => x % 2 * 2 ^ n + reverseBits n (x / 2)

/-- The integer column of R60. -/
def intCond (cc : Nat) (a b : Int) : Bool :=
  match cc with
  | 0 => decide (a = b)
  | 1 => decide (a ≠ b)
  | 2 => decide (a < b)
  | 3 => decide (a ≤ b)
  | 4 => decide (b < a)
  | _ => decide (b ≤ a)

/-- Bits lo to lo + n - 1 of x. -/
def bitsOf (x lo n : Nat) : Nat := x / 2 ^ lo % 2 ^ n

/-- Bit k of x. -/
def bitOf (x k : Nat) : Bool := x / 2 ^ k % 2 == 1

/-- The value of a list of bytes, the first the least significant. -/
def leNat : List Byte → Nat
  | [] => 0
  | b :: bs => b.toNat + 256 * leNat bs

/-- The n low bytes of x, the least significant first. -/
def leBytes : Nat → Nat → List Byte
  | 0, _ => []
  | n + 1, x => BitVec.ofNat 8 x :: leBytes n (x / 256)

/-- Element i, of n bits, of a wide value. -/
def elem (n x i : Nat) : Nat := x / 2 ^ (n * i) % 2 ^ n

/-- The wide value whose element i, of n bits, is the i-th of the list. -/
def packElems (n : Nat) : List Nat → Nat
  | [] => 0
  | x :: xs => x % 2 ^ n + 2 ^ n * packElems n xs

/-- The wide value x with element i, of n bits, replaced. -/
def setElem (n x i y : Nat) : Nat :=
  x % 2 ^ (n * i) + 2 ^ (n * i) * (y % 2 ^ n + 2 ^ n * (x / 2 ^ (n * i) / 2 ^ n))

/-- The value of a table at a key; the default where no pair names it. -/
def tget {α : Type} (t : Table α) (k : Nat) (d : α) : α :=
  match t with
  | [] => d
  | (j, x) :: r => if j = k then x else tget r k d

/-- The value of a table at a key, if any. -/
def tfind {α : Type} (t : Table α) (k : Nat) : Option α :=
  match t with
  | [] => none
  | (j, x) :: r => if j = k then some x else tfind r k

/-- The table with a key set, at its place if it is listed and at the end otherwise. -/
def tset {α : Type} (t : Table α) (k : Nat) (x : α) : Table α :=
  match t with
  | [] => [(k, x)]
  | (j, y) :: r => if j = k then (k, x) :: r else (j, y) :: tset r k x

/-- The table with a key removed. -/
def tdel {α : Type} (t : Table α) (k : Nat) : Table α := t.filter fun p => p.1 ≠ k

/-- The list with its i-th item changed. -/
def modAt {α : Type} : List α → Nat → (α → α) → List α
  | [], _, _ => []
  | x :: r, 0, f => f x :: r
  | x :: r, n + 1, f => x :: modAt r n f

/-- The least i below n that satisfies p. -/
def findBelow (n : Nat) (p : Nat → Bool) : Option Nat := (List.range n).find? p

/-- The integer square root, by b binary digits. -/
def isqrt (b n : Nat) : Nat :=
  match b with
  | 0 => 0
  | k + 1 =>
    let r := isqrt k (n / 4) * 2
    if (r + 1) * (r + 1) ≤ n then r + 1 else r

end Sys2Proof.Machine
end

