-- ==== Sys2Proof/Machine/Flags.lean ====
section
/-! DEFINITION. Sys2Proof/Machine/Flags.lean: the number formats, exact arithmetic with one rounding, conversions, and
the sticky flags each computation raises (R22 to R39, R43). -/

namespace Sys2Proof.Machine

/-- The flags of R34 by their bits of FCSR (R98), counted from bit 8. -/
def flagNV : BitVec 8 := 0x01
def flagDZ : BitVec 8 := 0x02
def flagOF : BitVec 8 := 0x04
def flagUF : BitVec 8 := 0x08
def flagNX : BitVec 8 := 0x10
def flagSAT : BitVec 8 := 0x20
def flagZS : BitVec 8 := 0x40
def flagVS : BitVec 8 := 0x80

/-- f when b, no flag otherwise. -/
def flagIf (b : Bool) (f : BitVec 8) : BitVec 8 := if b then f else 0

/-- A floating format (R24, R26, R27): mantissa bits, exponent bits, bias, and whether it has infinities. -/
structure Fmt where
  k : Nat
  e : Nat
  bias : Nat
  ieee : Bool
  deriving DecidableEq, Repr

def fmtE4M3 : Fmt := ⟨3, 4, 7, false⟩
def fmtE5M2 : Fmt := ⟨2, 5, 15, true⟩
def fmtBF16 : Fmt := ⟨7, 8, 127, true⟩
def fmtF16 : Fmt := ⟨10, 5, 15, true⟩
def fmtF32 : Fmt := ⟨23, 8, 127, true⟩
def fmtF64 : Fmt := ⟨52, 11, 1023, true⟩

/-- The format of a floating type code (R22). -/
def fmtOf (w : Nat) : Fmt :=
  match w with
  | 8 => fmtE4M3
  | 9 => fmtE5M2
  | 10 => fmtBF16
  | 11 => fmtF16
  | 12 => fmtF32
  | _ => fmtF64

/-- A code and the flags that its computation raised. -/
structure FRes where
  code : Nat
  flags : BitVec 8 := 0
  deriving DecidableEq, Repr

/-- The value of a code: a NaN, an infinity, or (-1)^neg * num * 2^exp. -/
inductive FVal where
  | nan (signalling : Bool)
  | inf (neg : Bool)
  | fin (neg : Bool) (num : Nat) (exp : Int)
  deriving DecidableEq, Repr

def Fmt.signBit (fm : Fmt) : Nat := 2 ^ (fm.k + fm.e)

/-- The exponent of the spacing of subnormals. -/
def Fmt.qmin (fm : Fmt) : Int := 1 - (fm.bias : Int) - fm.k

/-- The code of the largest finite value. -/
def Fmt.maxCode (fm : Fmt) : Nat := if fm.ieee then (2 ^ fm.e - 1) * 2 ^ fm.k - 1 else 0x7E

def Fmt.infCode (fm : Fmt) : Nat := (2 ^ fm.e - 1) * 2 ^ fm.k

/-- The positive default NaN (R24, R26, R27). -/
def Fmt.nanCode (fm : Fmt) : Nat := if fm.ieee then fm.infCode + 2 ^ (fm.k - 1) else 0x7F

def Fmt.withSign (fm : Fmt) (neg : Bool) (mag : Nat) : Nat := if neg then fm.signBit + mag else mag

/-- The magnitude bits of a code. -/
def Fmt.mag (fm : Fmt) (x : Nat) : Nat := x % fm.signBit

def Fmt.isNeg (fm : Fmt) (x : Nat) : Bool := bitOf x (fm.k + fm.e)

def Fmt.isNaN (fm : Fmt) (x : Nat) : Bool :=
  if fm.ieee then decide (fm.infCode < fm.mag x) else decide (fm.mag x = 0x7F)

/-- A signalling NaN: its topmost mantissa bit is 0; E4M3 has none (R24, R26). -/
def Fmt.isSNaN (fm : Fmt) (x : Nat) : Bool := fm.isNaN x && fm.ieee && !bitOf x (fm.k - 1)

def Fmt.isInf (fm : Fmt) (x : Nat) : Bool := fm.ieee && decide (fm.mag x = fm.infCode)

def Fmt.isZero (fm : Fmt) (x : Nat) : Bool := decide (fm.mag x = 0)

/-- The value of a code (R24, R26, R27). -/
def Fmt.val (fm : Fmt) (x : Nat) : FVal :=
  if fm.isNaN x then .nan (fm.isSNaN x)
  else if fm.isInf x then .inf (fm.isNeg x)
  else
    let ex := fm.mag x / 2 ^ fm.k
    let mf := fm.mag x % 2 ^ fm.k
    if ex = 0 then .fin (fm.isNeg x) mf fm.qmin
    else .fin (fm.isNeg x) (2 ^ fm.k + mf) (fm.qmin + (ex : Int) - 1)

/-- x * 2^e for e ≥ 0, x otherwise. -/
def scaleUp (x : Nat) (e : Int) : Nat := x * 2 ^ e.toNat

/-- The exponent of the leading bit of num / den, both positive. -/
def ratLog (num den : Nat) : Int :=
  let l : Int := (Nat.log2 num : Int) - Nat.log2 den
  if scaleUp den l ≤ scaleUp num (-l) then l else l - 1

/-- Whether mode m rounds up a magnitude of sign neg, quotient q, and remainder r of the divisor d (R31). -/
def roundsUp (m : Nat) (neg : Bool) (q r d : Nat) : Bool :=
  match m with
  | 0 => decide (d < 2 * r) || (decide (d = 2 * r) && decide (q % 2 = 1))
  | 1 => false
  | 2 => neg && decide (r ≠ 0)
  | 3 => !neg && decide (r ≠ 0)
  | _ => decide (d ≤ 2 * r)

/-- num / den * 2^exp rounded to a multiple of 2^q: the multiple, and whether it is inexact. -/
def roundTo (m : Nat) (neg : Bool) (num den : Nat) (exp q : Int) : Nat × Bool :=
  let n := scaleUp num (exp - q)
  let d := scaleUp den (q - exp)
  (if roundsUp m neg (n / d) (n % d) d then n / d + 1 else n / d, decide (n % d ≠ 0))

/-- The magnitude code of num / den * 2^exp in the format, and whether it is inexact: rnd of R32, with an exponent that
may run past the largest. -/
def Fmt.round (fm : Fmt) (m : Nat) (neg : Bool) (num den : Nat) (exp : Int) : Nat × Bool :=
  let q := max (ratLog num den + exp - fm.k) fm.qmin
  let r := roundTo m neg num den exp q
  (r.1 + (q - fm.qmin).toNat * 2 ^ fm.k, r.2)

/-- A non-zero value is tiny after rounding (R34): rounded at the format's precision with an unbounded exponent (R32), it
stands below the smallest normal magnitude. A value whose delivered result is zero is tiny (R414, log 13). -/
def Fmt.tiny (fm : Fmt) (m : Nat) (neg : Bool) (num den : Nat) (exp : Int) : Bool :=
  let l := ratLog num den + exp
  let least : Int := fm.qmin + fm.k
  decide (l < least) && !(decide (l + 1 = least) && decide ((roundTo m neg num den exp (l - fm.k)).1 = 2 ^ (fm.k + 1)))

/-- The magnitude that an overflow delivers without saturation (R33). -/
def Fmt.overflowMag (fm : Fmt) (m : Nat) (neg : Bool) : Nat :=
  if m == 0 || m == 4 || (m == 3 && !neg) || (m == 2 && neg) then (if fm.ieee then fm.infCode else 0x7F)
  else fm.maxCode

/-- sat_T(rnd(x, T, m)) of the non-zero exact value (-1)^neg * num / den * 2^exp, with the flags of R34. -/
def Fmt.deliver (fm : Fmt) (m : Nat) (sat neg : Bool) (num den : Nat) (exp : Int) : FRes :=
  let r := fm.round m neg num den exp
  if fm.maxCode < r.1 then
    if sat then ⟨fm.withSign neg fm.maxCode, flagOF ||| flagNX ||| flagSAT⟩
    else ⟨fm.withSign neg (fm.overflowMag m neg), flagOF ||| flagNX⟩
  else
    ⟨fm.withSign neg r.1, flagIf r.2 flagNX ||| flagIf (r.2 && fm.tiny m neg num den exp) flagUF⟩

/-- An infinity delivered to the format (R33). -/
def Fmt.deliverInf (fm : Fmt) (m : Nat) (sat neg : Bool) : FRes :=
  if sat then ⟨fm.withSign neg fm.maxCode, flagSAT⟩
  else if fm.ieee then ⟨fm.withSign neg fm.infCode, 0⟩
  else ⟨fm.withSign neg (fm.overflowMag m neg), 0⟩

/-- The default NaN, with NV when `nv` (R35). -/
def Fmt.deliverNaN (fm : Fmt) (nv : Bool) : FRes := ⟨fm.nanCode, flagIf nv flagNV⟩

/-- A zero of sign neg. -/
def Fmt.zero (fm : Fmt) (neg : Bool) : FRes := ⟨fm.withSign neg 0, 0⟩

/-- (-1)^neg * num as an integer. -/
def signedNat (neg : Bool) (num : Nat) : Int := if neg then -(num : Int) else num

/-- The sum of two finite values that are not both zero, rounded once; an exact zero has the sign of R25. -/
def Fmt.addFin (fm : Fmt) (m : Nat) (sat : Bool) (n1 : Bool) (x1 : Nat) (e1 : Int) (n2 : Bool) (x2 : Nat) (e2 : Int) :
    FRes :=
  let e := min e1 e2
  let v := signedNat n1 (scaleUp x1 (e1 - e)) + signedNat n2 (scaleUp x2 (e2 - e))
  if v = 0 then fm.zero (m == 2) else fm.deliver m sat (decide (v < 0)) v.natAbs 1 e

/-- The sum of two values of which neither is a NaN. -/
def Fmt.addVal (fm : Fmt) (m : Nat) (sat : Bool) : FVal → FVal → FRes
  | .inf n1, .inf n2 => if n1 == n2 then fm.deliverInf m sat n1 else fm.deliverNaN true
  | .inf n1, _ => fm.deliverInf m sat n1
  | _, .inf n2 => fm.deliverInf m sat n2
  | .fin n1 x1 e1, .fin n2 x2 e2 =>
    if x1 = 0 ∧ x2 = 0 ∧ n1 = n2 then fm.zero n1 else fm.addFin m sat n1 x1 e1 n2 x2 e2
  | .nan _, _ => fm.deliverNaN false
  | _, .nan _ => fm.deliverNaN false

/-- a + b (R116, R145). -/
def Fmt.add (fm : Fmt) (m : Nat) (sat : Bool) (a b : Nat) : FRes :=
  if fm.isNaN a || fm.isNaN b then fm.deliverNaN (fm.isSNaN a || fm.isSNaN b)
  else fm.addVal m sat (fm.val a) (fm.val b)

/-- The code with its sign inverted. -/
def Fmt.negate (fm : Fmt) (x : Nat) : Nat := fm.withSign (!fm.isNeg x) (fm.mag x)

/-- a - b: the sum with b negated; a NaN is a NaN of either sign. -/
def Fmt.sub (fm : Fmt) (m : Nat) (sat : Bool) (a b : Nat) : FRes := fm.add m sat a (fm.negate b)

/-- 0 × ∞ in either order. -/
def Fmt.zeroTimesInf (fm : Fmt) (a b : Nat) : Bool := (fm.isZero a && fm.isInf b) || (fm.isInf a && fm.isZero b)

/-- The exact product of two codes, neither a NaN, and not 0 × ∞. -/
def Fmt.mulVal (fm : Fmt) (a b : Nat) : FVal :=
  match fm.val a, fm.val b with
  | .fin n1 x1 e1, .fin n2 x2 e2 => .fin (n1 != n2) (x1 * x2) (e1 + e2)
  | _, _ => .inf (fm.isNeg a != fm.isNeg b)

/-- A value that is not a NaN, rounded into the format. -/
def Fmt.ofVal (fm : Fmt) (m : Nat) (sat : Bool) : FVal → FRes
  | .nan s => fm.deliverNaN s
  | .inf n => fm.deliverInf m sat n
  | .fin n x e => if x = 0 then fm.zero n else fm.deliver m sat n x 1 e

/-- a × b. -/
def Fmt.mul (fm : Fmt) (m : Nat) (sat : Bool) (a b : Nat) : FRes :=
  if fm.isNaN a || fm.isNaN b then fm.deliverNaN (fm.isSNaN a || fm.isSNaN b)
  else if fm.zeroTimesInf a b then fm.deliverNaN true
  else fm.ofVal m sat (fm.mulVal a b)

def FVal.negIf (n : Bool) : FVal → FVal
  | .nan s => .nan s
  | .inf x => .inf (x != n)
  | .fin x a e => .fin (x != n) a e

/-- a × b + c with one rounding, the product negated when `neg` (R43, R145). -/
def Fmt.fma (fm : Fmt) (m : Nat) (sat neg : Bool) (a b c : Nat) : FRes :=
  if fm.zeroTimesInf a b then fm.deliverNaN true
  else if fm.isNaN a || fm.isNaN b || fm.isNaN c then fm.deliverNaN (fm.isSNaN a || fm.isSNaN b || fm.isSNaN c)
  else fm.addVal m sat ((fm.mulVal a b).negIf neg) (fm.val c)

/-- a ÷ b. -/
def Fmt.div (fm : Fmt) (m : Nat) (sat : Bool) (a b : Nat) : FRes :=
  if fm.isNaN a || fm.isNaN b then fm.deliverNaN (fm.isSNaN a || fm.isSNaN b)
  else match fm.val a, fm.val b with
    | .inf n1, .fin n2 _ _ => fm.deliverInf m sat (n1 != n2)
    | .fin n1 _ _, .inf n2 => fm.zero (n1 != n2)
    | .fin n1 x1 e1, .fin n2 x2 e2 =>
      if x2 = 0 then
        if x1 = 0 then fm.deliverNaN true
        else
          let r := fm.deliverInf m sat (n1 != n2)
          ⟨r.code, r.flags ||| flagDZ⟩
      else if x1 = 0 then fm.zero (n1 != n2)
      else fm.deliver m sat (n1 != n2) x1 x2 (e1 - e2)
    | _, _ => fm.deliverNaN true

/-- √a. The root is taken to 70 bits or more, and one further bit marks an inexact root. -/
def Fmt.sqrt (fm : Fmt) (m : Nat) (sat : Bool) (a : Nat) : FRes :=
  match fm.val a with
  | .nan s => fm.deliverNaN s
  | .inf n => if n then fm.deliverNaN true else fm.deliverInf m sat false
  | .fin n x e =>
    if x = 0 then fm.zero n
    else if n then fm.deliverNaN true
    else
      let x' := if e % 2 = 0 then x else 2 * x
      let e' := if e % 2 = 0 then e else e - 1
      let y := x' * 2 ^ 140
      let r := isqrt 110 y
      let t := if r * r = y then 2 * r else 2 * r + 1
      fm.deliver m sat false t 1 (e' / 2 - 71)

/-- floor(ln 2 * 2^400). -/
def ln2Fixed : Nat :=
  0xb17217f7d1cf79abc9e3b39803f2f6af40f343267298b62d8a0d175b8baafa2be7b876206debac98559552fb4afa1b10ed2e

/-- The sum of the Taylor terms of e^r * 2^400 for r = x / 2^400, from term k on with value t, n terms. -/
def expTerms : Nat → Nat → Nat → Nat → Nat
  | 0, _, _, _ => 0
  | n + 1, k, t, x => t + expTerms n (k + 1) (t * x / 2 ^ 400 / (k + 1)) x

/-- e^a (R145). For finite a ≠ 0 the value is irrational, so it is taken to over 300 bits and marked inexact; for
|a| < 2^-80 it is 1 and a little more or less; beyond 2^12 it lies outside every format. -/
def Fmt.exp (fm : Fmt) (m : Nat) (sat : Bool) (a : Nat) : FRes :=
  match fm.val a with
  | .nan s => fm.deliverNaN s
  | .inf n => if n then fm.zero false else fm.deliverInf m sat false
  | .fin n x e =>
    if x = 0 then ⟨fm.bias * 2 ^ fm.k, 0⟩
    else
      let l : Int := (Nat.log2 x : Int) + e
      if l < -80 then fm.deliver m sat false (if n then 2 ^ 200 - 1 else 2 ^ 200 + 1) 1 (-200)
      else if l ≥ 12 then fm.deliver m sat false 3 1 (if n then -8000 else 8000)
      else
        let v : Int := signedNat n (scaleUp x (e + 400) / 2 ^ (-(e + 400)).toNat)
        let k : Int := v / (ln2Fixed : Int)
        let r : Nat := (v - k * ln2Fixed).toNat
        fm.deliver m sat false (2 * expTerms 120 0 (2 ^ 400) r + 1) 1 (k - 401)

/-- a × 2^k (R145). -/
def Fmt.scale (fm : Fmt) (m : Nat) (sat : Bool) (a : Nat) (k : Int) : FRes :=
  match fm.val a with
  | .nan s => fm.deliverNaN s
  | .inf n => fm.deliverInf m sat n
  | .fin n x e => if x = 0 then fm.zero n else fm.deliver m sat n x 1 (e + max (-9000) (min 9000 k))

/-- A key that orders the numbers of the format, infinities among them; both zeros have key 0. -/
def Fmt.key (fm : Fmt) (x : Nat) : Int := signedNat (fm.isNeg x) (fm.mag x)

/-- A key under which -0 stands below +0 (R117). -/
def Fmt.keyZ (fm : Fmt) (x : Nat) : Int := 2 * fm.key x - (if fm.isNeg x then 1 else 0)

/-- FMIN and FMAX (R117). -/
def Fmt.minMax (fm : Fmt) (isMax : Bool) (a b : Nat) : FRes :=
  let f := flagIf (fm.isSNaN a || fm.isSNaN b) flagNV
  if fm.isNaN a && fm.isNaN b then ⟨fm.nanCode, f⟩
  else if fm.isNaN a then ⟨b, f⟩
  else if fm.isNaN b then ⟨a, f⟩
  else if (if isMax then fm.keyZ a < fm.keyZ b else fm.keyZ b < fm.keyZ a) then ⟨b, f⟩ else ⟨a, f⟩

/-- The floating column of R60: the condition and whether NV is set. -/
def Fmt.cond (fm : Fmt) (cc : Nat) (a b : Nat) : Bool × BitVec 8 :=
  let un := fm.isNaN a || fm.isNaN b
  let sig := fm.isSNaN a || fm.isSNaN b
  let nv := flagIf (if 2 ≤ cc ∧ cc ≤ 5 then un else sig) flagNV
  let r := match cc with
    | 0 => !un && decide (fm.key a = fm.key b)
    | 1 => un || decide (fm.key a ≠ fm.key b)
    | 2 => !un && decide (fm.key a < fm.key b)
    | 3 => !un && decide (fm.key a ≤ fm.key b)
    | 4 => !un && decide (fm.key b < fm.key a)
    | 5 => !un && decide (fm.key b ≤ fm.key a)
    | 6 => un
    | _ => !un
  (r, nv)

/-- fin(x) of R146: the magnitude of a finite code, +0 of any other. -/
def Fmt.finMag (fm : Fmt) (x : Nat) : Nat := if fm.isNaN x || fm.isInf x then 0 else fm.mag x

/-- The class of a code (R146): the number of the one bit set. -/
def Fmt.classBit (fm : Fmt) (x : Nat) : Nat :=
  if fm.isSNaN x then 8
  else if fm.isNaN x then 9
  else if fm.isInf x then (if fm.isNeg x then 0 else 7)
  else if fm.isZero x then (if fm.isNeg x then 3 else 4)
  else if fm.mag x < 2 ^ fm.k then (if fm.isNeg x then 2 else 5)
  else (if fm.isNeg x then 1 else 6)

/-- A NaN carried into another format (R36). -/
def convertNaN (src dst : Fmt) (x : Nat) : Nat :=
  let mant := src.mag x % 2 ^ src.k
  if !dst.ieee then dst.withSign (src.isNeg x) 0x7F
  else if src.k < dst.k then
    dst.withSign (src.isNeg x)
      (dst.infCode + (if src.ieee then mant * 2 ^ (dst.k - src.k) else 2 ^ (dst.k - 1)))
  else if mant % 2 ^ (src.k - dst.k) = 0 then dst.withSign (src.isNeg x) (dst.infCode + mant / 2 ^ (src.k - dst.k))
  else dst.withSign (src.isNeg x) dst.nanCode

/-- A conversion between two floating formats (R36, R37). -/
def convertFF (src dst : Fmt) (m : Nat) (sat : Bool) (x : Nat) : FRes :=
  if src = dst then ⟨x, 0⟩
  else if src.isNaN x then ⟨convertNaN src dst x, 0⟩
  else dst.ofVal m sat (src.val x)

/-- num / den * 2^exp rounded to an integer, with whether it is inexact. -/
def roundInt (m : Nat) (neg : Bool) (num den : Nat) (exp : Int) : Nat × Bool :=
  roundTo m neg num den exp 0

/-- The integer (-1)^neg * num / den * 2^exp rounded and clamped to lo .. hi, as an n-bit pattern (R38). -/
def deliverInt (n : Nat) (lo hi : Int) (m : Nat) (neg : Bool) (num den : Nat) (exp : Int) : FRes :=
  let r := roundInt m neg num den exp
  let v := signedNat neg r.1
  if v < lo then ⟨wrapNat n lo, flagOF ||| flagNX ||| flagSAT⟩
  else if hi < v then ⟨wrapNat n hi, flagOF ||| flagNX ||| flagSAT⟩
  else ⟨wrapNat n v, flagIf r.2 flagNX⟩

/-- A conversion to integer type w (R38). -/
def convertFI (src : Fmt) (w m : Nat) (x : Nat) : FRes :=
  match src.val x with
  | .nan _ => ⟨0, flagNV⟩
  | .inf n => ⟨wrapNat (typeBits w) (if n then intMin w else intMax w), flagSAT⟩
  | .fin n a e => deliverInt (typeBits w) (intMin w) (intMax w) m n a 1 e

/-- A conversion from an exact integer (R39). -/
def convertIF (dst : Fmt) (m : Nat) (sat : Bool) (v : Int) : FRes :=
  if v = 0 then dst.zero false else dst.deliver m sat (decide (v < 0)) v.natAbs 1 0

/-- y clamped to lo .. hi, and SAT if the clamp binds. -/
def clampInt (lo hi y : Int) : Int × BitVec 8 :=
  if y < lo then (lo, flagSAT) else if hi < y then (hi, flagSAT) else (y, 0)

/-- The conversion of a code of type src to type dst (R119): the target code and the flags. -/
def convertType (src dst m : Nat) (sat : Bool) (x : Nat) : FRes :=
  if src ≤ 7 then
    if dst ≤ 7 then
      let r := clampInt (intMin dst) (intMax dst) (intVal src x)
      ⟨wrapNat (typeBits dst) r.1, r.2⟩
    else convertIF (fmtOf dst) m sat (intVal src x)
  else if dst ≤ 7 then convertFI (fmtOf src) dst m (x % 2 ^ typeBits src)
  else convertFF (fmtOf src) (fmtOf dst) m sat (x % 2 ^ typeBits src)

/-- rne_fp32 of a non-zero exact value (R32). -/
def rneF32 (neg : Bool) (num den : Nat) (exp : Int) : FRes := fmtF32.deliver 0 false neg num den exp

/-- The quotient of a finite code of format `src` and a positive finite FP32 scale, rounded into `dst` with saturation:
step 3 of R41. -/
def quantFloat (src dst : Fmt) (x s : Nat) : FRes :=
  match src.val x, fmtF32.val s with
  | .fin n a e, .fin _ b f => if a = 0 then dst.zero n else dst.deliver 0 true n a b (e - f)
  | _, _ => dst.zero false

/-- Step 2 of R41: the scale of a block whose largest finite magnitude is the FP32 code amax. -/
def quantScale (dst : Fmt) (amax : Nat) : Nat :=
  match fmtF32.val amax, dst.val dst.maxCode with
  | .fin _ a e, .fin _ b f =>
    if a = 0 then 0x3F800000
    else
      let r := (rneF32 false a b (e - f)).code
      if r = 0 then 1 else r
  | _, _ => 0x3F800000

/-- One FP32 element quantised to E4M3 or E5M2 under scale s: steps 3 and 4 of R41. -/
def quantElem (dst : Fmt) (s x : Nat) : FRes :=
  if fmtF32.isNaN x then
    ⟨convertNaN fmtF32 dst x, 0⟩
  else if fmtF32.isInf x then ⟨dst.withSign (fmtF32.isNeg x) dst.maxCode, flagSAT⟩
  else quantFloat fmtF32 dst x s

/-- The least e with amax ≤ 127 * 2^(e - 133), clamped to 0 .. 254: the scale of an MXI8 block (R42). -/
def mxScale (amax : Nat) : Nat :=
  match fmtF32.val amax with
  | .fin _ a e =>
    if a = 0 then 127
    else
      let l := ratLog a 127 + e
      let exact := decide (scaleUp a (e - l) = 127 * 2 ^ (l - e).toNat)
      let c := if exact then l else l + 1
      (max 0 (min 254 (c + 133))).toNat
  | _ => 127

/-- One FP32 element quantised to an MXI8 code under scale e (R42). -/
def mxElem (e x : Nat) : FRes :=
  match fmtF32.val x with
  | .nan _ => ⟨0, flagNV⟩
  | .inf n => ⟨wrapNat 8 (if n then -127 else 127), flagSAT⟩
  | .fin n a f => deliverInt 8 (-127) 127 0 n a 1 (f - ((e : Int) - 133))

end Sys2Proof.Machine
end

