-- ==== Sys2Proof/Machine/State.lean ====
section
/-! DEFINITION. Sys2Proof/Machine/State.lean: the state of the package as plain data, and its value right after package
reset (R4, R432). -/

namespace Sys2Proof.Machine

/-- Why the machine stops. -/
inductive Fault where
  /-- Raised by a load or store whose translation names an address of space 3 outside the eight configuration blocks
  (R217, R424): the manual gives no device there. Safe: the machine stops where a device might go on. -/
  | mmioUnspecified
  deriving DecidableEq, Repr

/-- Why an instruction has no meaning here. -/
inductive Refusal where
  /-- Raised by an arm of Dispatch.lean that has no meaning yet, with the row's mnemonic. Safe. -/
  | notModelled (mnemonic : String)
  deriving DecidableEq, Repr

/-- FCSR (R98): the dynamic rounding mode, the sticky flags (bit 0 NV up to bit 7 VS) and their trap enables. -/
structure Fcsr where
  rm : BitVec 3 := 0
  flags : BitVec 8 := 0
  en : BitVec 8 := 0
  deriving DecidableEq, Repr

/-- VPROG (R97): the progress of a data-dependent instruction. -/
structure Vprog where
  cnt : BitVec 9 := 0
  posb : BitVec 20 := 0
  posa : BitVec 20 := 0
  tag : BitVec 6 := 0
  full : Bool := false
  v : Bool := false
  deriving DecidableEq, Repr

/-- TSTATUS (R102). -/
structure Tstatus where
  pp : Bool := false
  ie : Bool := false
  pie : Bool := false
  csb : Bool := false
  vfrz : Bool := false
  mfrz : Bool := false
  deriving DecidableEq, Repr

/-- VTYPE (R95): the codes of SEW and LMUL. -/
structure Vtype where
  sew : BitVec 2 := 0
  lmul : BitVec 2 := 0
  deriving DecidableEq, Repr

/-- A fibre register (R90, R107): its occupancy, and pair k in bits 64k to 64k+63, the coordinate below the value. -/
structure Fibre where
  occ : Nat := 0
  pairs : BitVec 16384 := 0
  deriving DecidableEq, Repr

/-- A prefetched stream element (R335): its value, whether it is the old block of a stale view, and the privilege it was
fetched at. -/
structure Fetched where
  value : Word
  vs : Bool
  sup : Bool
  deriving DecidableEq, Repr

/-- A stream register (R332). `fetched` holds prefetched elements by position, and those of a fibre level by 3k for P[k],
3k + 1 for X[k] and 3k + 2 for V[k] (R335); it is no part of the image. -/
structure Stream where
  kind : BitVec 3 := 0
  w : BitVec 4 := 0
  link : BitVec 3 := 0
  capt : Bool := false
  cls : BitVec 2 := 0
  base : Word := 0
  stride : Word := 0
  vbase : Word := 0
  count : Word := 0
  pos : Word := 0
  sub : Word := 0
  fetched : Table Fetched := []
  deriving DecidableEq, Repr

/-- A faulting granule recorded by fault batching (R104). -/
structure FaultPage where
  cause : BitVec 8
  st : Bool
  gran : BitVec 36
  deriving DecidableEq, Repr

/-- What a trap reports besides its program counter (R101, R297). -/
structure Trap where
  cause : BitVec 8
  tinfo : Word := 0
  taddr : Word := 0
  taddr2 : Word := 0
  deriving DecidableEq, Repr

/-- How far the vector unit is with a queue entry (R287, R291). -/
inductive Stage where
  /-- Not started. -/
  | waiting
  /-- Started and not finished: it stands at a step boundary. -/
  | started
  /-- Started, and held outside the core at one of its accesses (R291, R304). -/
  | outside
  /-- Faulted while it completed under a pre-emption request, which parks it with no vector fault raised (R304). -/
  | parking
  /-- Performed, with the flags it will OR into FCSR and the scalar its join will deliver. -/
  | performed (flags : BitVec 8) (result : Option (Nat × Word))
  /-- Failed, with the trap, the faulting granules of the entry, and the flags of the part performed. -/
  | faulted (t : Trap) (pages : List FaultPage)
  deriving DecidableEq, Repr

/-- An entry of the vector queue (R99, R108, R287): the instruction, its captured scalars, its resolved register
numbers, the VL, VTYPE and rounding mode it runs under, and its marks. `depth` counts the scalar-raised traps whose
handlers were running at its push (R294), `frz` marks one pushed while the vector unit was frozen (R295), `acc` is FDOT's
partial sum and `prog` the progress of an entry in progress (R188), `seg` the ends of the segment that an FWALK in progress has
read (R256), `order` the model's push order across harts (R287). -/
structure QEntry where
  instr : Instr
  caps : List Word := []
  vd : Nat := 0
  va : Nat := 0
  vb : Nat := 0
  vl : Nat := 0
  vt : Vtype := {}
  rm : BitVec 3 := 0
  size : Nat := 1
  part : Bool := false
  prv : Bool := false
  depth : Nat := 0
  frz : Bool := false
  acc : Word := 0
  prog : Vprog := {}
  seg : Option (Nat × Nat) := none
  order : Nat := 0
  stage : Stage := .waiting
  deriving DecidableEq, Repr

/-- A slot of the saved queue (R108, R291): the first position of an entry, or a continuation of the preceding one. -/
inductive SavedSlot where
  | head (e : QEntry)
  | cont
  deriving DecidableEq, Repr

/-- An outstanding fixed-latency result (R65, R66): the register class and number, the value, the flags, and the
distance still to go. `flt` marks a scalar floating instruction's result (R94), `landed` a result whose latency has passed
although the distance has not. -/
structure PendWrite where
  pred : Bool
  reg : Nat
  value : Word
  flags : BitVec 8 := 0
  left : Nat
  flt : Bool := false
  landed : Bool := false
  deriving DecidableEq, Repr

/-- A vector fault held until the handler of a scalar-raised trap touches the queue (R294). -/
structure HeldTrap where
  pos : BitVec 16
  nq : Nat
  trap : Trap
  pages : List FaultPage
  deriving DecidableEq, Repr

/-- What the home of a view block has served a held read (R379, R383): P, and the bytes of the block by the PA of each
row. -/
structure Served where
  bad : Bool
  rows : List (Nat × List Byte)
  deriving DecidableEq, Repr

/-- A read of a view block held at its view home (R379): the registration, the block, VER at its arrival, and what a
publication, or the removal of the view, has served it. -/
structure HeldRead where
  reg : Nat
  block : Nat
  ver : BitVec 16
  got : Option Served := none
  deriving DecidableEq, Repr

/-- A hart (R86, R107): a program counter, a vector queue and a context image. -/
structure Hart where
  pc : BitVec 48 := 0
  s : Vector (BitVec 64) 64 := Vector.replicate 64 0
  p : BitVec 16 := 0x8000
  v : Vector VReg 64 := Vector.replicate 64 0
  m : Vector MReg 8 := (Vector.replicate 8 0).setIfInBounds 0 (BitVec.allOnes 512)
  fib : Vector Fibre 16 := Vector.replicate 16 {}
  q : Vector Stream 8 := Vector.replicate 8 {}
  vsegCount : Nat := 0
  vsegOff : BitVec 1024 := 0
  fmask : MReg := 0
  vl : Nat := 0
  vtype : Vtype := {}
  /-- VL and VTYPE in force at push (R131). -/
  vlPush : Nat := 0
  vtPush : Vtype := {}
  vstart : BitVec 12 := 0
  vprog : Vprog := {}
  fcsr : Fcsr := {}
  vcp : BitVec 16 := 0
  vqtail : BitVec 16 := 0
  taskid : BitVec 32 := 0
  stripbase : Word := 0
  striplen : BitVec 32 := 0
  tcause : BitVec 8 := 0
  tpc : BitVec 48 := 0
  tvqpPos : BitVec 16 := 0
  tvqpV : Bool := false
  taddr : Word := 0
  taddr2 : Word := 0
  tinfo : Word := 0
  tvec : BitVec 48 := 0
  tstatus : Tstatus := {}
  tscr : Vector Word 4 := Vector.replicate 4 0
  asn : BitVec 16 := 0
  imgbase : Nat := 0
  /-- FBN (R104), and the entries that stand in FB0 to FB15, as many as may be valid. -/
  fbn : Nat := 0
  fb : List FaultPage := []
  /-- P, entry n in bits 80n to 80n+79 (R193). -/
  pbuf : BitVec 40960 := 0
  /-- The special states of P, entry n in bits 2n and 2n+1 (R107). -/
  pspec : BitVec 1024 := 0
  /-- Current privilege: true is supervisor (R107 hart word [0]). -/
  sup : Bool := false
  waiting : Bool := false
  bound : Bool := false
  ending : Bool := false
  wake : Bool := false
  /-- The hart has stopped for good: its task ended, or it was stopped by R295, R320 or a fence. -/
  stopped : Bool := false
  die : Nat := 0
  core : Nat := 0
  slot : Nat := 0
  queue : List QEntry := []
  saved : Table SavedSlot := []
  /-- The number of entries at the queue's head that VQREPLAY reinstated and ERET has not released (R301). -/
  replayed : Nat := 0
  /-- Between VQREPLAY and ERET (R301). -/
  replaying : Bool := false
  /-- The traps whose handlers have not returned, the last first: true for a scalar-raised one (R289, R294). -/
  traps : List Bool := []
  heldTrap : Option HeldTrap := none
  pend : List PendWrite := []
  /-- Model's own: the number of trap entries so far. -/
  entries : Nat := 0
  /-- Held at issue, at a queue wait or at a home: the instruction runs again at the hart's next turn. -/
  held : Bool := false
  /-- Held at a full queue or at a queue of the other privilege (R287). -/
  heldPush : Bool := false
  /-- CYC when the present timed wait began (R329, R384), the abandoned wait of R318 among them. -/
  waitFrom : Option Word := none
  /-- The registration of the block that a VIEWSYNC of the view form has been held on (R383, R384). -/
  syncOn : Option Nat := none
  /-- The quad of the barrier that a WAITB.QUAD in progress waits on (R318, R328). -/
  waitQuad : Option Nat := none
  /-- Reads of view blocks that a load in progress has made at their homes (R276, R379). -/
  heldReads : List HeldRead := []
  /-- A pre-emption request and its requester (R304). -/
  preempt : Option Nat := none
  /-- PREEMPT has been taken, and its handler has neither released the slot nor returned (R304, R313). -/
  preempted : Bool := false
  /-- YIELD: the harts of its core that were ready and are to issue before it takes a turn (R324). -/
  yieldTo : List Nat := []
  /-- Its last instruction had HINT.Y, and no hart of its core has issued since (R61). -/
  gaveUp : Bool := false
  outcnt : Nat := 0
  lost : Bool := false
  /-- Position of the hart's task in the task list, and its farm-relative ordinal (R315). -/
  task : Option Nat := none
  ordinal : Nat := 0
  /-- The cycle of its present binding (R313). -/
  boundAt : Word := 0
  /-- The cycle at which it left its slot, while its register-store lines are evictable (R110). -/
  leftAt : Option Word := none
  /-- The hart's outstanding strips not yet done, oldest first (R316). -/
  strips : List (Nat × Nat) := []
  /-- Budget units charged to the last MMA-class instruction (R205). -/
  lastbu : Nat := 0
  /-- Poisoned bytes of register-store lines, as a mask of 128 bits a line (R111). -/
  rsPoison : Table Nat := []
  deriving DecidableEq, Repr

/-- An event counter (R401). -/
structure EvCounter where
  count : Word := 0
  code : BitVec 8 := 0
  en : Bool := false
  /-- Events that the model does not count may have occurred since the count was set (log 46). -/
  vague : Bool := false
  deriving DecidableEq, Repr

/-- An entry of a coordinate look-aside buffer (R370). -/
structure ClbEntry where
  asn : BitVec 16
  root : Word
  t : Nat
  tile : Word
  deriving DecidableEq, Repr

/-- A line of an instruction cache (R72, R222): its tag, with what the leaf granted it (R353), its bytes and its poison
(R230). -/
structure ICLine where
  asn : BitVec 16
  glob : Bool
  line : Nat
  grant : BitVec 4
  data : List Byte
  poison : Bool := false
  deriving DecidableEq, Repr

/-- The state of a line of a context image in a register store (R110). -/
inductive LineSt where
  | pinned | evictable | absent
  deriving DecidableEq, Repr

/-- What a register store notes of a line of a context image (R110): it is absent, its contents standing in the image; or
`clean` is what the image held when the line came from it, and the line is modified where its registers differ from that. -/
structure StoreLine where
  hart : Nat
  line : Nat
  absent : Bool
  clean : Option Nat
  deriving DecidableEq, Repr

/-- What the matrix engine last read (R195, R211): the hart, the A register, the B tile, and the group the latched tile
was read from, if it may still be reused. -/
structure MatLast where
  hart : Nat
  a : VReg
  b : BitVec 32768
  latch : Option Nat
  deriving DecidableEq, Repr

/-- A core (R12). -/
structure Core where
  level : Nat := 65535
  clb : List ClbEntry := []
  counters : Vector EvCounter 8 := Vector.replicate 8 {}
  icache : List ICLine := []
  /-- The lines in the L1 and in the coordinate cache, each with whether its copy there is poisoned; one that its die does not
  hold is gone (R12, R222, R230). -/
  l1 : Table Bool := []
  coords : Table Bool := []
  store : List StoreLine := []
  mat : Option MatLast := none
  vuLast : Option Nat := none
  vuRun : Nat := 0
  /-- Harts held for budget (R211). -/
  budgetWait : List Nat := []
  /-- The hart of the core that issued last (R318). -/
  lastIssue : Nat := 0
  deriving DecidableEq, Repr

/-- A barrier (R328). -/
structure Barrier where
  phase : BitVec 16 := 0
  count : Nat := 0
  expect : Nat := 0
  deriving DecidableEq, Repr

/-- A leaf held by a hub translator (R352): its ASN, or the global mark; its VA and page size in bits; the PTE and
where it stands. -/
structure TlbEntry where
  asn : BitVec 16
  glob : Bool
  vbase : Nat
  sizeBits : Nat
  pte : Word
  ptePa : Nat
  deriving DecidableEq, Repr

/-- A derivation in progress at a curator (R378). -/
structure Deriv where
  reg : Nat
  block : Nat
  tagr : BitVec 16
  /-- The bytes of the master elements of the block as read under the lock, by element in row-major order. -/
  data : List Nat
  /-- 0, or the cause that the reading met. -/
  cause : BitVec 8
  deriving DecidableEq, Repr

/-- A hub: its configuration block (R424), its translator (R350, R352), its task-id counter (R308), its curator's queue
(R378) and its event counters (R401). -/
structure Hub where
  atbase : Word := 0
  hdmbase : Word := 0
  hdmsize : Word := 0
  doorbell : BitVec 16 := 0
  irqtgt : BitVec 13 := 0
  irqen : Bool := false
  uetbase : Word := 0
  pkgid : BitVec 10 := Config.pkgStrap
  fenced : BitVec 24 := 0
  fatal : Bool := false
  cfgerr : Bool := false
  taskvec : BitVec 48 := 0
  /-- The value of a write to PUBLISH in progress (R326). -/
  pubReq : Option Word := none
  pubResult : BitVec 3 := 0
  pubTid : BitVec 32 := 0
  mgmt : Bool := false
  notice : Bool := false
  errstat : BitVec 5 := 0
  memrdy : Bool := false
  /-- The host's memory-enable control of the port's CXL device DVSEC (R425), on hubs 0 and 4. -/
  memEnable : Bool := false
  counters : Vector EvCounter 16 := Vector.replicate 16 {}
  tidCtr : BitVec 29 := 0
  tlb : List TlbEntry := []
  /-- ASN-table entries held as snapshots, by ASN (R350). -/
  asnSnaps : Table (BitVec 256) := []
  derivQ : List (Nat × Nat) := []
  /-- Blocks of a new view, or to be derived again, for which the queue has no slot yet (log 39). -/
  derivWait : List (Nat × Nat) := []
  deriv : Option Deriv := none
  /-- Per master home, the last frontier confirmed by a watch beat (R417). -/
  confirmed : Table (Table (BitVec 32)) := []
  deriving DecidableEq, Repr

/-- A packet that waits in a quarantine (R391, R394), its counts rebuilt; `res` marks one in its source's reserved
entry. -/
structure Waiter where
  src : Nat
  cls : Nat
  num : BitVec 32
  deps : Table (BitVec 32)
  asn : Option (BitVec 16)
  res : Bool := false
  /-- The requester of a view read that its master homes have not confirmed, and the registration and block it reads (R417). -/
  reader : Option Nat := none
  view : Nat × Nat := (0, 0)
  deriving DecidableEq, Repr

/-- A packet that its source has yet to send (R392): source, destination, class and ASN. -/
structure Unsent where
  src : Nat
  dst : Nat
  cls : Nat
  asn : Option (BitVec 16)
  deriving DecidableEq, Repr

/-- What an agent that a fence has removed still shows besides its counts (R405): RSN, whether a resync ran, REMOVED, and the
touch tables of the package, as they stood at the fence. -/
structure AtFence where
  rsn : BitVec 4
  resync : Bool
  removed : BitVec 32
  touch : Table (BitVec 24)
  overflow : BitVec 24
  deriving DecidableEq, Repr

/-- The causal state of an agent (R388). LAST and HOR are indexed by 4 * agent + class, SENTF by 32 * destination +
agent; an index with no entry holds 0. -/
structure Clock where
  s : BitVec 32 := 0
  last : Table (BitVec 32) := []
  hor : Table (BitVec 32) := []
  d : Table (BitVec 32) := []
  f : Table (BitVec 32) := []
  sentf : Table (BitVec 32) := []
  ack : Table (BitVec 32) := []
  quar : List Waiter := []
  /-- Horizon requests outstanding, by source (R393). -/
  hreq : List Nat := []
  /-- Per class of the four, beats not yet applied: source, S and LAST (R393). -/
  beats : List Beat := []
  /-- S of the last beat received, by source (R11, R393). -/
  beatS : Table (BitVec 32) := []
  /-- The cycle of the last packet sent, by destination (R393). -/
  sentAt : Table Word := []
  /-- The touch table (R396): the C-dies heard from, by ASN. -/
  touch : Table (BitVec 24) := []
  overflow : BitVec 24 := 0
  /-- The agent is removed: the rest of its state as it stood at the fence (R405). -/
  gone : Option AtFence := none
  deriving DecidableEq, Repr

/-- A directory state (R356). -/
inductive DirSt where
  /-- Not tracked. -/
  | i
  /-- Shared by the dies of the vector. -/
  | s (v : BitVec 24)
  /-- Held by one die, clean or dirty. -/
  | em (d : Nat)
  /-- Held by the host: halves shared, halves modified, and the dies that share. -/
  | h (hs hm : BitVec 2) (v : BitVec 24)
  /-- Being written by an engine: agent and engine number. -/
  | g (agent eng : Nat)
  deriving DecidableEq, Repr

/-- The tag record of a physical frame (R223, R353). -/
structure TagRec where
  asn : BitVec 16
  glob : Bool
  granule : Nat
  deriving DecidableEq, Repr

/-- An entry of a victim buffer (R357): its die, its line, and whether a probe has taken its data; `place` is its request's place
while the request waits at the home (R356). -/
structure Victim where
  die : Nat
  line : Nat
  noData : Bool
  place : Option Nat := none
  deriving DecidableEq, Repr

/-- What the home holds of a line that a die has dirtied (R251, R356): its bytes and its poison. -/
structure DirtyLine where
  data : List Byte
  poison : Bool
  deriving DecidableEq, Repr

/-- A fill an L2 slice waits for, with the number of waiting requests (R224). -/
structure PendFill where
  die : Nat
  line : Nat
  waiters : Nat
  deriving DecidableEq, Repr

/-- How far a migration has come (R362): accepted; its page held, and being copied; aborted, with the outcome, the cause and the
PA of the failing line; or begun and abandoned under R320, with MIG still to be cleared. -/
inductive MigSt where
  | queued | copying
  | failing (outcome : Nat) (cause : BitVec 8) (line : Nat)
  | abandoned
  deriving DecidableEq, Repr

/-- A migration (R361, R362): the page's VA, ASN and size in bits, its frame, where its PTE stands, the new PA, the VA and the ASN
of the status record, and how far it has come. -/
structure Mig where
  va : Nat
  asn : BitVec 16
  bits : Nat
  frame : Nat
  ptePa : Nat
  newPa : Nat
  status : Nat
  hasn : BitVec 16
  st : MigSt := .queued
  deriving DecidableEq, Repr

/-- An operation accepted by an engine (R339 to R346, R361). -/
inductive EngOp where
  /-- ACOPY: ASN, privilege, core of the lane memory, DLM, SLM, destination, source, count. -/
  | copy (asn : BitVec 16) (sup : Bool) (core : Nat) (dlm slm : Bool) (dst src count : Nat)
  /-- ACOPY2: as ACOPY, with the origin list, stride, row bytes, rows and patches. -/
  | gather (asn : BitVec 16) (sup : Bool) (core : Nat) (dlm : Bool) (dst list : Nat) (stride : Int) (rb rows np : Nat)
  /-- COLL: ASN, privilege, GID, op, W, Q, destination, source, count, members N, own rank. -/
  | coll (asn : BitVec 16) (sup : Bool) (gid op w : Nat) (quant : Bool) (dst src count n rank : Nat)
  /-- PMIG. -/
  | mig (m : Mig)
  /-- A migration that has ended, but for its status record: the record's VA and ASN, and its two words (R362 step 7). -/
  | record (status : Nat) (hasn : BitVec 16) (w0 w1 : Nat)
  /-- An operation abandoned under R320, which completes in its turn. -/
  | abandoned
  deriving DecidableEq, Repr

/-- A fault recorded against a ticket (R343). -/
structure EngRecord where
  seq : Word
  raised : Bool := false
  cause : BitVec 8
  addr : Word
  tinfo : Word
  deriving DecidableEq, Repr

/-- A copy, collective or migration engine (R339, R398). -/
structure Engine where
  seq : Word := 0
  promise : Word := 0
  ops : List EngOp := []
  /-- Destination lines of the first operation already written (R274). -/
  pos : Nat := 0
  /-- The destination lines that operations took over at their acceptance, by ticket sequence (R274). -/
  took : Table (List Nat) := []
  recs : List EngRecord := []
  deriving DecidableEq, Repr

/-- The state of a task in the TCB (R305, R309), as the device follows it: `failing` is RUNNING with its harts being
stopped, to end FAILED with a status. -/
inductive TaskSt where
  | waiting | ready | running
  | failing (status : Nat)
  deriving DecidableEq, Repr

/-- The TCB's STATE is RUNNING. -/
def TaskSt.started : TaskSt → Bool
  | .running => true
  | .failing _ => true
  | _ => false

/-- What the device has still to do at the end of a task, in order: its completion word, under an ASN, from a hub; or what
one of its successors is told (R307, R309, R321). -/
inductive DevOp where
  | word (asn : BitVec 16) (va data : Word) (hub : Nat)
  | pred (asn : BitVec 16) (succ : Word) (ending : PredEnd) (hub : Nat)
  | tcb (task st status : Nat) (ending : PredEnd)
  deriving DecidableEq, Repr

/-- A published task (R305, R309, R314 to R316). `rank` is its place in the order in which tasks became READY (R311). -/
structure Task where
  tcb : Word
  /-- The physical address of the TCB, where its home updates it. -/
  pa : Nat
  asn : BitVec 16
  tid : BitVec 32
  st : TaskSt
  level : Nat
  readyAt : Word
  rank : Nat
  aged : Nat
  entry : BitVec 48
  lo : Nat
  hi : Nat
  strip : Nat
  harts : Nat
  idem : Bool
  farm : Bool
  dies : BitVec 24
  args : Word
  cursor : Nat
  /-- Strips to be handed out again ahead of the cursor (R317). -/
  reissue : List (Nat × Nat)
  /-- Strips handed out and not done: die, base and end (R316). -/
  out : List (Nat × Nat × Nat)
  master : Option Nat
  shadow : Option Nat
  nextOrd : Nat
  ended : Bool
  /-- A posted store of the task was lost (R319). -/
  lostPost : Bool
  deriving DecidableEq, Repr

/-- A view registration (R374, R382). -/
structure ViewReg where
  asn : BitVec 16
  desc : Word
  rel : Nat
  fmt : Nat
  policy : Nat
  l2es : Nat
  rows : Nat
  cols : Nat
  mbase : Nat
  mstride : Nat
  vbase : Nat
  vstride : Nat
  tbase : Nat
  /-- The scale array of the view's format record: DBASE, SBASE, SSTRIDE, LOG2ROW (R227). -/
  dbase : Nat
  sbase : Nat
  sstride : Nat
  log2row : Nat
  /-- The physical frames of the master's and the view's granules, by granule of the VA (R376). -/
  frames : Table Nat
  deriving DecidableEq, Repr

/-- The state of a view block (R377): 0 FRESH, 1 STALE, 2 DERIVING are its names. -/
inductive BlockSt where
  | fresh | stale | deriving_
  deriving DecidableEq, Repr

/-- What the home of a view block holds (R377). -/
structure ViewBlock where
  ver : BitVec 16 := 1
  tag : BitVec 16 := 0
  st : BlockSt := .stale
  redo : Bool := false
  p : Bool := false
  sat : Bool := false
  nv : Bool := false
  cause : BitVec 8 := 0
  published : Bool := false
  deriving DecidableEq, Repr

/-- A posted store in flight (R245): its hart and its address. -/
structure Posted where
  hart : Nat
  pa : Nat
  deriving DecidableEq, Repr

/-- Where a token row or its count word goes (R348, R429): a physical address, or an address at a remote fabric
endpoint, FEP, in its window. -/
inductive RowDest where
  | pa (a : Nat)
  | endpoint (fep : BitVec 32) (addr : Word)
  deriving DecidableEq, Repr

/-- A token row that TOKSEND has sent and that is not placed yet (R348): its bytes, where each piece of it goes, as an
offset in the row, a length and a destination, and where its count word is. -/
structure TokRow where
  hart : Nat
  die : Nat
  data : List Byte
  slot : List (Nat × Nat × RowDest)
  word : RowDest
  /-- Its place at the homes where it waits. -/
  place : Nat := 0
  deriving DecidableEq, Repr

/-- What leaves through an Ultra Ethernet port for a remote endpoint (R348, R349, R429): bytes for an address, or none where
the word there is incremented. -/
structure UeWrite where
  fep : BitVec 32
  addr : Word
  data : Option (List Byte)
  deriving DecidableEq, Repr

/-- A bias flip (R360): the granule's frame number, its direction, the hart whose BIASSET it is, the halves that the host
has not yet given back, and whether its last step is done. -/
structure Flip where
  granule : Nat
  toHost : Bool
  hart : Nat
  left : List Nat := []
  done : Bool := false
  deriving DecidableEq, Repr

/-- An answer to a host read (R426): its address and the bytes, poison, or an unsupported request. -/
structure HostAnswer where
  addr : HostAddr
  data : List Byte
  poison : Bool
  unsupported : Bool
  deriving DecidableEq, Repr

/-- A host access that waits at a home (R282, R356, R360, R362). -/
inductive HostReq where
  | read (a : HostAddr) (own : Bool)
  | write (a : HostAddr) (data : List Byte)
  deriving DecidableEq, Repr

/-- What a vendor message reports (R430): FENCED, FATAL, the temperatures, the rail power and the hubs' event counters. -/
structure VendorReport where
  fenced : BitVec 24
  fatal : Bool
  temps : Table Nat
  railPower : Word
  counters : List EvCounter
  deriving DecidableEq, Repr

/-- What the device sends over MCTP (R430, R431): a control answer; its signed measurements, with whether debug is
unlocked; a vendor report. -/
inductive MgmtReply where
  | control
  | measurements (m : Config.Measurements) (debugOpen : Bool)
  | vendor (r : VendorReport)
  deriving DecidableEq, Repr

/-- A die's request for a line that waits at the home, a read or one for ownership, with its place there (R356). -/
structure LineReq where
  line : Nat
  die : Nat
  own : Bool
  place : Nat
  deriving DecidableEq, Repr

/-- Bytes of a context image that a register store writes, or WAKE, and that wait at their home (R110, R329, R359): the hart of the
image, the die that sends them, where they go, the bytes, none where the flag of the hart word there is set, and their poison. -/
structure ImgWrite where
  place : Nat
  hart : Nat
  die : Nat
  pa : Nat
  data : Option (List Byte)
  poison : Bool
  deriving DecidableEq, Repr

/-- Bytes from beyond the package that wait at their home (R230, R245, R356): their place, the PA and the bytes. -/
structure Arrival where
  place : Nat
  pa : Nat
  data : List Byte
  deriving DecidableEq, Repr

/-- A retained snapshot of a control block (R275): ASN, VA of its line, its physical line, and its 128 bytes. -/
structure BlockSnap where
  asn : BitVec 16
  va : Nat
  line : Nat
  data : List Byte
  deriving DecidableEq, Repr

/-- A retained snapshot of a format record (R227, R275). -/
structure FrecSnap where
  asn : BitVec 16
  n : Nat
  data : List Byte
  deriving DecidableEq, Repr

/-- One move of the package: an event, or an issue turn of a hart. -/
inductive Turn where
  | event (e : Instr)
  | issue (h : Nat)
  deriving DecidableEq, Repr

/-- The whole package. -/
structure State where
  cyc : Word := 0
  harts : List Hart := []
  /-- Global memory by physical address (R217) below 2^56, and lane memory of core c of die d from
  2^56 + (32 d + c) * 2^20 (R215); what no cell lists reads as 0. -/
  mem : List Host.Cell := []
  /-- Poisoned lines, by address over 128 (R230). -/
  poison : List Nat := []
  /-- Poisoned lane-memory words, by address over 8 (R230). -/
  lanePoison : List Nat := []
  hubs : Vector Hub 8 := Vector.replicate 8 {}
  cores : Table Core := []
  clocks : Table Clock := []
  rsn : BitVec 4 := 0
  removed : BitVec 32 := 0
  resync : Bool := false
  /-- The cycle at which the resync that runs began (R397). -/
  resyncAt : Word := 0
  /-- The C-dies fenced since the resync that runs began (R397). -/
  lateFence : BitVec 24 := 0
  /-- Packets in flight that a resync waits for (R397): destination and packet. -/
  flight : List (Nat × Packet) := []
  /-- Packets that their sources hold back while their windows are shut (R392). -/
  unsent : List Unsent := []
  quadBar : Table Barrier := []
  dieBar : Table Barrier := []
  dir : Table DirSt := []
  /-- The lines held dirty on a die (R222, R356): what their homes hold of them. `mem` and `poison` have the die's value. -/
  dirty : Table DirtyLine := []
  /-- Accesses that wait at a home, by line or page and by requester, in the order of their arrival (R282, R356, R362). -/
  holds : List (Nat × Nat) := []
  tags : Table TagRec := []
  /-- What the tags of the lines on a die permit: W, S, X and VC in bits 0 to 3, by 32 * line + die (R353). -/
  grants : Table (BitVec 4) := []
  /-- The clean lines whose copies in a die's L2 are poisoned, by 32 * line + die (R230). -/
  badCopies : List Nat := []
  /-- The clean lines, poisoned at their homes, whose copies in a die's L2 are not, by 32 * line + die (R230). -/
  goodCopies : List Nat := []
  victims : List Victim := []
  fills : List PendFill := []
  engines : Table Engine := []
  tasks : List Task := []
  /-- Accesses of ended tasks held at a page or line, each with its place there and with those behind it (R220, R321, R362). -/
  devHeld : List (Nat × List DevOp) := []
  regs : Table ViewReg := []
  nextReg : Nat := 0
  blocks : Table ViewBlock := []
  blockSnaps : List BlockSnap := []
  frecSnaps : List FrecSnap := []
  posted : List Posted := []
  rows : List TokRow := []
  /-- What token rows have sent to remote endpoints, in order (R349, R429). -/
  ueOut : List UeWrite := []
  /-- Failed rails, and packages that do not answer (R428, R245). -/
  deadRails : List Nat := []
  /-- Host-biased granules, by frame address over 4096 (R359). -/
  hostBias : List Nat := []
  /-- The 64-byte halves of host-biased granules and of host memory that the host has given to the device (R358, R359). -/
  hostGot : List Nat := []
  flips : List Flip := []
  /-- Units of RATE per die (R400). -/
  rate : Table Nat := []
  /-- Junction class of each die in degrees, where reported (R433). -/
  temps : Table Nat := []
  flowLost : Bool := false
  debugOpen : Bool := false
  /-- How often the reported measurement has changed (R431). -/
  measurement : Nat := 0
  /-- The fuses, which no reset changes (R431). -/
  fuses : Config.Fuses := Config.fuses
  /-- FAULT_N is driven low (R430). -/
  faultLow : Bool := false
  mgmtOut : List MgmtReply := []
  hostOut : List HostAnswer := []
  /-- Host accesses that wait at their homes, in the order of their arrival, each with its place there (R282). -/
  hostHeld : List (Nat × HostReq) := []
  /-- The directory requests of dies that wait at homes (R356). -/
  lineReqs : List LineReq := []
  /-- Writes of context images that wait at their homes (R110, R359). -/
  imgOut : List ImgWrite := []
  /-- Bytes from beyond the package that wait at their homes (R356). -/
  arrivals : List Arrival := []
  /-- A user hart has been bound since reset (R425). -/
  userBound : Bool := false
  /-- Model's own: the order of moves, the hart whose issue turn it is, how many entries a scalar unit leaves in its
  queue when it goes on, the free-value counter, the push order, and the places given out at homes. -/
  sched : List Turn := []
  cur : Nat := 0
  lead : Nat := 0
  fresh : Nat := 0
  order : Nat := 0
  places : Nat := 0
  deriving DecidableEq, Repr

/-- Stobry's hart at reset (R432 step 5): slot 0 of core 0 of the lowest die in service, at supervisor privilege, with
TVEC = 0 and IE = 0. Its other registers are zero, as those of a hart bound for the first time (R85, R109). DESIGN
CHOICE (log 2): pc 0, ASN 0 and the place of its image. -/
def Hart.stobry : Hart := { sup := true, bound := true, imgbase := Config.stobryImage }

/-- The package right after reset (R432), with no die failing self-test. -/
def State.reset : State := { harts := [Hart.stobry] }

end Sys2Proof.Machine
end

