-- ==== Sys2Proof/Machine/Memory.lean ====
section
/-! DEFINITION. Sys2Proof/Machine/Memory.lean: memory as a canonical list of cells, its reads and writes, lane memory and
poison (R214 to R217, R230, R231). -/

namespace Sys2Proof.Machine

/-- The byte at an address; what no cell lists reads as 0 (R432, log 1). -/
def memGet : List Host.Cell → Nat → Byte
  | [], _ => 0
  | (b, x) :: r, a => if b = a then x else memGet r a

/-- Memory with one byte written. The cells stay in rising order, and none holds 0. -/
def memSet : List Host.Cell → Nat → Byte → List Host.Cell
  | [], a, v => if v = 0 then [] else [(a, v)]
  | (b, x) :: r, a, v =>
    if b < a then (b, x) :: memSet r a v
    else if b = a then (if v = 0 then r else (a, v) :: r)
    else if v = 0 then (b, x) :: r else (a, v) :: (b, x) :: r

/-- The canonical form: addresses strictly rising from `lo` on, and no cell holds what an unlisted address reads as. -/
def Memory.wfFrom : Nat → List Host.Cell → Bool
  | _, [] => true
  | lo, (a, x) :: r => decide (lo ≤ a) && decide (x ≠ 0) && Memory.wfFrom (a + 1) r

/-- The canonical form of memory. -/
def Memory.wf (m : List Host.Cell) : Bool := Memory.wfFrom 0 m

/-- The n bytes from an address on. -/
def memBytes (m : List Host.Cell) (a : Nat) : Nat → List Byte
  | 0 => []
  | n + 1 => memGet m a :: memBytes m (a + 1) n

/-- The n bytes from an address on as a number, the byte at the lowest address the least significant. -/
def memNat (m : List Host.Cell) (a n : Nat) : Nat := leNat (memBytes m a n)

/-- Memory with consecutive bytes written from an address on. -/
def memPut (m : List Host.Cell) (a : Nat) : List Byte → List Host.Cell
  | [] => m
  | b :: bs => memPut (memSet m a b) (a + 1) bs

/-- The address in the cell list of a byte of the lane memory of a core (R215): `core` is 32 * die + core. -/
def laneBase (core : Nat) : Nat := 2 ^ 56 + core * 2 ^ 20

/-- The bytes of lane memory. -/
def laneSize : Nat := 0x100000

/-- The line of a physical address (R218: 128 bytes). -/
def lineOf (pa : Nat) : Nat := pa / 128

def State.peek (s : State) (pa n : Nat) : Nat := memNat s.mem pa n

/-- The state with bytes written, whatever poison they stand in. -/
def State.poke (s : State) (pa : Nat) (bs : List Byte) : State := { s with mem := memPut s.mem pa bs }

def State.pokeNat (s : State) (pa n v : Nat) : State := s.poke pa (leBytes n v)

/-- Some byte of pa .. pa + n - 1 lies in a poisoned line. -/
def State.poisoned (s : State) (pa n : Nat) : Bool :=
  s.poison.any fun l => decide (lineOf pa ≤ l) && decide (l ≤ lineOf (pa + n - 1)) && decide (0 < n)

/-- The state with a line's poison set or cleared. -/
def State.setPoison (s : State) (line : Nat) (p : Bool) : State :=
  if p then (if s.poison.contains line then s else { s with poison := line :: s.poison })
  else { s with poison := s.poison.filter (· ≠ line) }

/-- The lines that pa .. pa + n - 1 covers whole. -/
def coveredLines (pa n : Nat) : List Nat :=
  let first := (pa + 127) / 128
  let last := (pa + n) / 128
  (List.range (last - first)).map (first + ·)

/-- The bytes lo .. lo + n - 1 all lie in spans of a list, each an address and a length. -/
def spansCover (l : List (Nat × Nat)) (lo n : Nat) : Bool :=
  (List.range n).all fun k => l.any fun p => decide (p.1 ≤ lo + k) && decide (lo + k < p.1 + p.2)

/-- A store of global memory: the bytes are written, and the poison of each line they cover whole is cleared (R231). -/
def State.write (s : State) (pa : Nat) (bs : List Byte) : State :=
  let t := s.poke pa bs
  { t with poison := t.poison.filter fun l => !(coveredLines pa bs.length).contains l }

/-- Some byte of off .. off + n - 1 of a lane memory lies in a poisoned 8-byte word (R231). -/
def State.lanePoisoned (s : State) (core off n : Nat) : Bool :=
  let a := laneBase core + off
  s.lanePoison.any fun w => decide (a / 8 ≤ w) && decide (w ≤ (a + n - 1) / 8) && decide (0 < n)

/-- A store of lane memory: it clears the poison of each 8-byte word it covers whole (R231). -/
def State.laneWrite (s : State) (core off : Nat) (bs : List Byte) : State :=
  let a := laneBase core + off
  let t := s.poke a bs
  { t with lanePoison := t.lanePoison.filter fun w => !(decide (a ≤ 8 * w) && decide (8 * w + 8 ≤ a + bs.length)) }

def State.lanePeek (s : State) (core off n : Nat) : Nat := memNat s.mem (laneBase core + off) n

end Sys2Proof.Machine
end

