-- ==== Sys2Proof/Machine/Translate.lean ====
section
/-! DEFINITION. Sys2Proof/Machine/Translate.lean: the ASN table, the page tables, the hub translator and the checks of an
access against its PTE (R218 to R221, R350 to R352). -/

namespace Sys2Proof.Machine

/-- The causes of R297. -/
def causeILLEGAL : BitVec 8 := 0x01
def causePRIV : BitVec 8 := 0x02
def causeFETCH_FAULT : BitVec 8 := 0x03
def causeMISALIGN : BitVec 8 := 0x04
def causeLOAD_PAGE : BitVec 8 := 0x08
def causeSTORE_PAGE : BitVec 8 := 0x09
def causePROTECT : BitVec 8 := 0x0A
def causeFORMAT_REC : BitVec 8 := 0x0B
def causeRESERVED_CODE : BitVec 8 := 0x0C
def causeALLOC_FAIL : BitVec 8 := 0x10
def causeVOLUME_RANGE : BitVec 8 := 0x11
def causeVIEW_STALE : BitVec 8 := 0x12
def causeVIEW_POISON : BitVec 8 := 0x13
def causeATOMIC_ROUTE : BitVec 8 := 0x15
def causeDATA_POISON : BitVec 8 := 0x16
def causeARITH : BitVec 8 := 0x18
def causeSTALL_CHECK : BitVec 8 := 0x19
def causePROMISE_MISSED : BitVec 8 := 0x1A
def causeFIBRE_ORDER : BitVec 8 := 0x1B
def causeFIBRE_FULL : BitVec 8 := 0x1C
def causeDIE_LOST : BitVec 8 := 0x20
def causeREMOTE_LOST : BitVec 8 := 0x21
def causeSOFTWARE : BitVec 8 := 0x28
def causeINTERRUPT : BitVec 8 := 0x30
def causePREEMPT : BitVec 8 := 0x31

/-- The fields of a PTE (R219). -/
def pteV (e : Word) : Bool := e.getLsbD 0
def pteW (e : Word) : Bool := e.getLsbD 1
def pteX (e : Word) : Bool := e.getLsbD 2
def pteS (e : Word) : Bool := e.getLsbD 3
def pteG (e : Word) : Bool := e.getLsbD 4
def pteMIG (e : Word) : Bool := e.getLsbD 5
def pteVC (e : Word) : Bool := e.getLsbD 6
def pteNC (e : Word) : Bool := e.getLsbD 7
def pteFMT (e : Word) : Nat := bitsOf e.toNat 8 3
def pteD (e : Word) : Bool := e.getLsbD 11
def ptePFN (e : Word) : Nat := bitsOf e.toNat 12 44
def pteFREC (e : Word) : Nat := bitsOf e.toNat 56 7
def pteA (e : Word) : Bool := e.getLsbD 63

/-- The kind of an access: an atomic counts as a store (R220). -/
inductive Access where
  | load | store | fetch
  deriving DecidableEq, Repr

/-- The space of a physical address (R217). -/
def spaceOf (pa : Nat) : Nat := pa / 2 ^ 54 % 4

/-- hub(A) of R221. -/
def hubOf (a : Nat) : Nat :=
  Nat.xor (Nat.xor (bitsOf a 12 3) (bitsOf a 21 3)) (Nat.xor (bitsOf a 30 3) (bitsOf a 39 3))

/-- hub(PA) of a space-0 address: the colour of its offset PA[40:0] (R221). -/
def hubOfPa (pa : Nat) : Nat := hubOf (pa % 2 ^ 41)

/-- A space-0 address names local HBM: PA[53:41] = 0 (R217). -/
def inLocalHbm (pa : Nat) : Bool := decide (pa < 2 ^ 41)

/-- A page frame lies beyond its space (R217, R220). -/
def beyondSpace (pa : Nat) : Bool :=
  match spaceOf pa with
  | 0 => decide (bitsOf pa 41 13 ≠ 0)
  | 2 => decide (2 ^ 41 ≤ bitsOf pa 0 44)
  | _ => false

def State.hub (s : State) (n : Nat) : Hub := s.hubs[n]?.getD {}
def State.setHub (s : State) (n : Nat) (u : Hub) : State := { s with hubs := s.hubs.setIfInBounds n u }

/-- What a table read gives: the entry, the poison of its line, or a hold at the home of its line. -/
inductive EntryRead where
  | value (x : Nat)
  | poison
  | held (line : Nat)
  deriving DecidableEq, Repr

/-- The state of a line in its home's directory (R356). -/
def State.dirOf (s : State) (line : Nat) : DirSt := tget s.dir line .i

/-- A line whose home serves nobody yet: an engine writes it, or the host has a half modified (R356, R358). -/
def DirSt.busy : DirSt → Bool
  | .h _ hm _ => decide (hm ≠ 0)
  | .g _ _ => true
  | _ => false

/-- A granule under a bias flip toward the device, whose device accesses are held (R360). -/
def State.flipHolds (s : State) (pa : Nat) : Bool :=
  s.flips.any fun f => decide (f.granule = pa / 4096) && !f.toHost && !f.done

/-- Some of the 64-byte halves `need` of a line of host memory or of a host-biased granule that no die holds are still with
the host (R358, R359). -/
def State.atHost (s : State) (line : Nat) (need : List Nat) : Bool :=
  (decide (spaceOf (128 * line) = 1) || s.hostBias.contains (line / 32)) && s.dirOf line == .i &&
    need.any fun k => !s.hostGot.contains k

/-- The halves of a line. -/
def lineHalves (line : Nat) : List Nat := [2 * line, 2 * line + 1]

/-- The halves of a line that pa .. pa + n - 1 touches. -/
def halvesOf (line pa n : Nat) : List Nat := (lineHalves line).filter fun k => decide (pa < 64 * k + 64) && decide (64 * k < pa + n)

/-- A device access to n bytes at a PA within one line cannot be served at the home yet: an engine writes the line, the
host holds what it needs, or its granule is in a flip (R356, R358 to R360). -/
def State.homeWaits (s : State) (pa n : Nat) : Bool :=
  (s.dirOf (lineOf pa)).busy || s.flipHolds pa || s.atHost (lineOf pa) (halvesOf (lineOf pa) pa n)

/-! The queues at homes and hubs, which State.holds keeps by line or page: who waits where, in the order of arrival (R282,
R356, R362). A hart is named by its number, an engine by `engPlace`, the dispatcher, the host's publication, the translator of a hub
and its curator by a number each, and any other access that waits by a place of its own. A line's key is its number. -/

def engPlace (agent eng : Nat) : Nat := 2 ^ 32 + 8 * agent + eng
def dispPlace : Nat := 2 ^ 34 + 1
def pubPlace : Nat := 2 ^ 34 + 2
def walkPlace (hub : Nat) : Nat := 2 ^ 34 + 16 + hub
def curPlace (hub : Nat) : Nat := 2 ^ 34 + 32 + hub
def reqPlace (n : Nat) : Nat := 2 ^ 35 + n

/-- The place of an access that has just arrived, a number that no access before it has had. -/
def State.newPlace (s : State) : Nat := reqPlace s.places

/-- A VA whose table entries are not read yet queues by itself, at its hub (R221). -/
def walkKey (asn : BitVec 16) (va : Nat) : Nat := 2 ^ 60 + 2 ^ 36 * asn.toNat + va / 4096

/-- The key under which a hub queues the accesses to a page of 2^n bytes, by its frame, whatever their ASNs (R362). -/
def frameKey (frame n hub : Nat) : Nat := 2 ^ 60 + 2 ^ 56 + 2 ^ 49 * n + 8 * (frame / 4096) + hub

/-- The key of a VA in a page: that of its hub (R221). -/
def pageKey (frame n va : Nat) : Nat := frameKey frame n (hubOf va)

/-- What the key of a page names: its frame, its size in bits, and the hub. -/
def keyPage (key : Nat) : Option (Nat × Nat × Nat) :=
  if 2 ^ 60 + 2 ^ 56 ≤ key ∧ key < 2 ^ 61 then some (4096 * (key % 2 ^ 49 / 8), key / 2 ^ 49 % 2 ^ 7, key % 8) else none

/-- The ASN and the granule's VA that the key of a walk names. -/
def keyWalk (key : Nat) : Option (BitVec 16 × Nat) :=
  if 2 ^ 60 ≤ key ∧ key < 2 ^ 60 + 2 ^ 56 then some (BitVec.ofNat 16 (key / 2 ^ 36), 4096 * (key % 2 ^ 36)) else none

/-- The hub at which a key's accesses wait, where it is not a line's. -/
def keyHub (key : Nat) : Option Nat :=
  match keyPage key with
  | some (_, _, h) => some h
  | none => (keyWalk key).map fun p => hubOf p.2

/-- A page's key holds the accesses to a PA (R362). -/
def keyHolds (key pa : Nat) : Bool :=
  match keyPage key with
  | some (frame, n, h) => decide (frame ≤ pa) && decide (pa < frame + 2 ^ n) && decide (hubOfPa pa = h)
  | none => false

/-- The migrations that have been accepted and have not ended (R361, R362). -/
def State.migs (s : State) : List Mig :=
  (List.range 8).flatMap fun h => (tget s.engines (8 * (24 + h) + 5) {}).ops.filterMap fun op => match op with
    | .mig m => some m
    | _ => none

/-- The migration has begun: every access to its page is held (R362 step 3). -/
def Mig.begun (m : Mig) : Bool := m.st != .queued

/-- The frame of a migration's page holds a PA. -/
def Mig.covers (m : Mig) (pa : Nat) : Bool := decide (m.frame ≤ pa) && decide (pa < m.frame + 2 ^ m.bits)

/-- The key under which an access to a PA is held while its page migrates (R362 step 3). -/
def State.migHolds (s : State) (pa : Nat) : Option Nat :=
  if s.engines.isEmpty then none
  else (s.migs.find? fun m => m.begun && m.covers pa).map fun m => frameKey m.frame m.bits (hubOfPa pa)

/-- A requester that took a place for a key still has an access that may wait there; the translator of a hub has its own places
apart. -/
def State.requests (s : State) (r key : Nat) : Bool :=
  if r < 2 ^ 32 then
    let x : Hart := s.harts[r]?.getD {}
    x.bound && (x.held || !x.queue.isEmpty)
  else if r < 2 ^ 33 then !(tget s.engines (r - 2 ^ 32) {}).ops.isEmpty
  else if r = dispPlace then s.tasks.any fun t => !t.ended && t.st == .ready && (decide (lineOf t.pa = key) || keyHolds key t.pa ||
    (keyWalk key).any fun p => p.1 == t.asn && decide (p.2 = t.tcb.toNat / 4096 * 4096))
  else if r = pubPlace then (s.hub 0).pubReq.isSome
  else if r < reqPlace 0 then
    let u := s.hub (r - curPlace 0)
    u.deriv.isSome || !u.derivQ.isEmpty
  else true

/-- A requester that took a place for a key still waits: a hub's translator does for the walks that some requester waits for
there. -/
def State.stillWaits (s : State) (r key : Nat) : Bool :=
  if walkPlace 0 ≤ r ∧ r < curPlace 0 then
    s.holds.any fun p => (keyWalk p.1).any (fun q => decide (walkPlace (hubOf q.2) = r)) && s.requests p.2 p.1
  else s.requests r key

/-- Another requester's access to a line or page came before this one's and still waits there. -/
def State.waitsTurn (s : State) (r key : Nat) : Bool :=
  (s.holds.takeWhile (· != (key, r))).any fun p => p.1 == key && p.2 != r && s.stillWaits p.2 key

/-- A table entry read by a requester, a hub's translator or another, as an ordinary load at its home (R352, R356). -/
def State.readEntry (s : State) (r pa n : Nat) : EntryRead :=
  if s.homeWaits pa n || s.waitsTurn r (lineOf pa) then .held (lineOf pa)
  else if s.poisoned pa n then .poison else .value (s.peek pa n)

/-- Where the entry of an ASN lies under a hub's ATBASE (R350). -/
def asnEntryPa (u : Hub) (asn : BitVec 16) : Nat := u.atbase.toNat / 4096 * 4096 % 2 ^ 41 + 32 * asn.toNat

/-- The ASN entry a hub translates with: its snapshot, or the entry read from memory (R350). -/
def State.asnEntry (s : State) (hub : Nat) (asn : BitVec 16) : EntryRead :=
  match tfind (s.hub hub).asnSnaps asn.toNat with
  | some x => .value x.toNat
  | none => s.readEntry (walkPlace hub) (asnEntryPa (s.hub hub) asn) 32

/-- The entry may translate: V = 1, its reserved bits are 0, and its ROOT lies in local HBM (R350). -/
def asnUsable (x : Nat) : Bool :=
  bitOf x 0 && decide (bitsOf x 2 10 = 0) && decide (bitsOf x 56 20 = 0) && decide (bitsOf x 120 136 = 0) &&
    inLocalHbm (bitsOf x 12 44 * 4096)

/-- The PA of the format-record table of an entry (R350). -/
def asnFrBase (x : Nat) : Nat := bitsOf x 76 44 * 4096

/-- The state with the hub's snapshot of an ASN entry kept (R350). -/
def State.keepAsn (s : State) (hub : Nat) (asn : BitVec 16) (x : Nat) : State :=
  let u := s.hub hub
  if (tfind u.asnSnaps asn.toNat).isSome then s
  else s.setHub hub { u with asnSnaps := u.asnSnaps ++ [(asn.toNat, BitVec.ofNat 256 x)] }

/-- How a walk ends (R351, R352); `held` names the line of the table entry that waits. -/
inductive Walk where
  | leaf (pte : Word) (sizeBits : Nat) (ptePa : Nat)
  | invalid
  | poison
  | held (line : Nat)
  deriving DecidableEq, Repr

/-- A pointer entry: every bit but V, FMT and PFN is 0, and PFN lies in local HBM (R351). -/
def pointerOk (e : Word) : Bool :=
  decide (bitsOf e.toNat 1 7 = 0) && !pteD e && decide (bitsOf e.toNat 56 8 = 0) && inLocalHbm (ptePFN e * 4096)

/-- The walk from a table at a level down (R351). -/
def State.walkFrom (s : State) (va : Nat) : Nat → Nat → Walk
  | 0, base =>
    let pa := base + 8 * bitsOf va 12 9
    match s.readEntry (walkPlace (hubOf va)) pa 8 with
    | .poison => .poison
    | .held l => .held l
    | .value x => if pteV (BitVec.ofNat 64 x) then .leaf (BitVec.ofNat 64 x) 12 pa else .invalid
  | level + 1, base =>
    let pa := base + 8 * bitsOf va (12 + 9 * (level + 1)) 9
    match s.readEntry (walkPlace (hubOf va)) pa 8 with
    | .poison => .poison
    | .held l => .held l
    | .value x =>
      let e := BitVec.ofNat 64 x
      if !pteV e then .invalid
      else if pteFMT e = 7 then (if pointerOk e then s.walkFrom va level (ptePFN e * 4096) else .invalid)
      else if pteFMT e = 6 then
        if level = 0 ∧ pointerOk e then
          let pa' := ptePFN e * 4096 + 8 * bitsOf va 16 5
          match s.readEntry (walkPlace (hubOf va)) pa' 8 with
          | .poison => .poison
          | .held l => .held l
          | .value y => if pteV (BitVec.ofNat 64 y) then .leaf (BitVec.ofNat 64 y) 16 pa' else .invalid
        else .invalid
      else if level = 2 then .invalid
      else .leaf e (12 + 9 * (level + 1)) pa

/-- The leaf a hub translator holds for a VA, if any (R352). -/
def Hub.tlbFind (u : Hub) (asn : BitVec 16) (va : Nat) : Option TlbEntry :=
  u.tlb.find? fun t => (t.glob || t.asn == asn) && decide (t.vbase = va / 2 ^ t.sizeBits * 2 ^ t.sizeBits)

/-- How a translation ends. A fault carries its cause, and the PROTECT reason of TINFO[7:4] or, for FORMAT_REC, the page's
FREC; `held` is a page under migration, or a table line that its home does not serve yet (R220, R352). -/
inductive Trans where
  | ok (s : State) (pa : Nat) (pte : Word)
  | fault (cause : BitVec 8) (reason : Nat)
  | poison
  | held (key : Nat)
  deriving DecidableEq, Repr

/-- The checks of R220 after the walk, in their order. -/
def checkLeaf (sup : Bool) (acc : Access) (va : Nat) (pte : Word) (sizeBits : Nat) : Option (BitVec 8 × Nat) :=
  let frame := ptePFN pte * 4096
  let page := if acc = .store then causeSTORE_PAGE else causeLOAD_PAGE
  if frame % 2 ^ sizeBits ≠ 0 ∨ beyondSpace frame then some (page, 0)
  else if pteS pte && !sup then some (causePROTECT, 2)
  else if decide (acc = .store) && pteVC pte then some (causePROTECT, 3)
  else if decide (acc = .store) && !pteW pte then some (causePROTECT, 1)
  else if spaceOf frame = 0 ∧ hubOf va ≠ hubOfPa (frame + va % 2 ^ sizeBits) then some (causePROTECT, 4)
  else if 5 ≤ pteFMT pte then some (causeFORMAT_REC, pteFREC pte)
  else none

/-- The leaf of a VA under its ASN entry: from the translator, or by a walk. An entry that may not translate gives no
access a leaf, not even a global one (R350). -/
def State.findLeaf (s : State) (asn : BitVec 16) (va : Nat) : Walk :=
  let hub := hubOf va
  match s.asnEntry hub asn with
  | .poison => .poison
  | .held l => .held l
  | .value x =>
    if !asnUsable x then .invalid
    else match (s.hub hub).tlbFind asn va with
      | some t => .leaf t.pte t.sizeBits t.ptePa
      | none => s.walkFrom va 3 (bitsOf x 12 44 * 4096)

/-- The table entries that a walk reads from a table at a level down, as far as it goes (R351). -/
def State.walkReads (s : State) (va : Nat) : Nat → Nat → List Nat
  | 0, base => [base + 8 * bitsOf va 12 9]
  | level + 1, base =>
    let pa := base + 8 * bitsOf va (12 + 9 * (level + 1)) 9
    let e := BitVec.ofNat 64 (s.peek pa 8)
    pa :: (if !pteV e || !pointerOk e then []
      else if pteFMT e = 7 then s.walkReads va level (ptePFN e * 4096)
      else if pteFMT e = 6 ∧ level = 0 then [ptePFN e * 4096 + 8 * bitsOf va 16 5] else [])

/-- The table entries that the hub of a VA reads in memory to translate it: that of the ASN, unless it has its snapshot, and
those of a walk, where its translator holds no leaf (R350 to R352). -/
def State.tableReads (s : State) (asn : BitVec 16) (va : Nat) : List Nat :=
  let u := s.hub (hubOf va)
  (if (tfind u.asnSnaps asn.toNat).isSome then [] else [asnEntryPa u asn]) ++
    match s.asnEntry (hubOf va) asn with
    | .value x => if asnUsable x && (u.tlbFind asn va).isNone then s.walkReads va 3 (bitsOf x 12 44 * 4096) else []
    | _ => []

/-- The snapshot of the ASN entry is kept by the hub that used it (R350). -/
def State.noteAsn (s : State) (asn : BitVec 16) (va : Nat) : State :=
  match s.asnEntry (hubOf va) asn with
  | .value x => s.keepAsn (hubOf va) asn x
  | _ => s

/-- A die holds a copy of the line. -/
def DirSt.heldByDie : DirSt → Bool
  | .s _ => true
  | .em _ => true
  | .h _ _ v => decide (v ≠ 0)
  | _ => false

/-- The 32 lines of a granule's frame. -/
def frameLines (frame : Nat) : List Nat := (List.range 32).map (32 * frame + ·)

/-- A tag record is freed when no die holds a line of its frame (R353). -/
def State.freeTag (s : State) (frame : Nat) : State :=
  if (frameLines frame).any fun l => (s.dirOf l).heldByDie then s else { s with tags := tdel s.tags frame }

/-- A line in a state of the directory. What its home holds of it beside a die's dirty copy stays while one die or another holds the
line alone; and the tag record goes with the last line of its frame that a die holds (R353, R356). -/
def State.setDir (s : State) (line : Nat) (x : DirSt) : State :=
  let t : State := { s with
    dir := match x with
      | .i => tdel s.dir line
      | y => tset s.dir line y
    dirty := match s.dirOf line, x with
      | .em _, .em _ => s.dirty
      | y, z => if y = z then s.dirty else tdel s.dirty line }
  if (s.dirOf line).heldByDie && !x.heldByDie then t.freeTag (line / 32) else t

end Sys2Proof.Machine
end

