-- ==== Sys2Proof/Machine/Ops.lean ====
section
/-! DEFINITION. Sys2Proof/Machine/Ops.lean: the named operations on a hart's registers and on the harts of the package,
outstanding scalar writes, and taking and leaving an exception (R65 to R68, R86 to R105, R124, R126). -/

namespace Sys2Proof.Machine

/-- Scalar register n; s0 reads 0 (R87). -/
def Hart.reg (x : Hart) (n : Nat) : Word := if n = 0 then 0 else x.s[n]?.getD 0

/-- Scalar register n written; a write to s0 is discarded (R87). -/
def Hart.setReg (x : Hart) (n : Nat) (v : Word) : Hart := if n = 0 then x else { x with s := x.s.setIfInBounds n v }

/-- Predicate n; p15 reads 1 (R87). -/
def Hart.pred (x : Hart) (n : Nat) : Bool := decide (n = 15) || x.p.getLsbD n

/-- Predicate n written; a write to p15 is discarded (R87). -/
def Hart.setPred (x : Hart) (n : Nat) (b : Bool) : Hart :=
  if n = 15 then x
  else { x with p := (x.p &&& ~~~((1 : BitVec 16) <<< n)) ||| (if b then (1 : BitVec 16) <<< n else 0) }

def Hart.vreg (x : Hart) (n : Nat) : VReg := x.v[n]?.getD 0
def Hart.setVreg (x : Hart) (n : Nat) (y : VReg) : Hart := { x with v := x.v.setIfInBounds n y }
def Hart.mreg (x : Hart) (n : Nat) : MReg := x.m[n]?.getD 0
def Hart.setMreg (x : Hart) (n : Nat) (y : MReg) : Hart := { x with m := x.m.setIfInBounds n y }
def Hart.fibreReg (x : Hart) (n : Nat) : Fibre := x.fib[n]?.getD {}
def Hart.setFibre (x : Hart) (n : Nat) (y : Fibre) : Hart := { x with fib := x.fib.setIfInBounds n y }
def Hart.stream (x : Hart) (n : Nat) : Stream := x.q[n]?.getD {}
def Hart.setStream (x : Hart) (n : Nat) (y : Stream) : Hart := { x with q := x.q.setIfInBounds n y }

/-- Flags ORed into FCSR (R98). -/
def Hart.orFlags (x : Hart) (f : BitVec 8) : Hart := { x with fcsr := { x.fcsr with flags := x.fcsr.flags ||| f } }

/-- An outstanding write lands: its register, unless it has landed early, and its flags (R65, R66). -/
def Hart.landOne (x : Hart) (w : PendWrite) : Hart :=
  if w.landed then x
  else (if w.pred then x.setPred w.reg (w.value.getLsbD 0) else x.setReg w.reg w.value).orFlags w.flags

/-- A distance of d passes: every write whose latency it covers lands, in program order (R65). -/
def Hart.pass (x : Hart) (d : Nat) : Hart :=
  (x.pend.filter fun w => decide (w.left ≤ d)).foldl Hart.landOne
    { x with pend := (x.pend.filter fun w => decide (d < w.left)).map fun w => { w with left := w.left - d } }

/-- Every outstanding write lands (R68). -/
def Hart.landAll (x : Hart) : Hart := x.pend.foldl Hart.landOne { x with pend := [] }

/-- The outstanding write of a register, the latest in program order. -/
def Hart.pendOf (x : Hart) (pred : Bool) (n : Nat) : Option PendWrite :=
  (x.pend.filter fun w => w.pred == pred && decide (w.reg = n)).getLast?

/-- A register whose outstanding write has not reached its latency in distance (R67). -/
def Hart.tooEarly (x : Hart) (pred : Bool) (n : Nat) : Bool :=
  (if pred then decide (n ≠ 15) else decide (n ≠ 0)) && (x.pendOf pred n).isSome

/-- The value a register will hold once its outstanding write has landed (R53). -/
def Hart.regSettled (x : Hart) (n : Nat) : Word :=
  if n = 0 then 0 else match x.pendOf false n with
    | some w => w.value
    | none => x.reg n

/-- An earlier write to the same register that would land after the new one is discarded; its flags stay (R68). -/
def discardLater (pred : Bool) (n left : Nat) (w : PendWrite) : PendWrite :=
  if w.pred == pred && decide (w.reg = n) && decide (left < w.left) then { w with pred := false, reg := 0 } else w

/-- A result of latency L is issued (R66). -/
def Hart.issueWrite (x : Hart) (pred : Bool) (n : Nat) (v : Word) (f : BitVec 8) (L : Nat) (flt : Bool := false) : Hart :=
  { x with pend := x.pend.map (discardLater pred n L) ++
      [{ pred := pred, reg := n, value := v, flags := f, left := L, flt := flt }] }

/-- Every outstanding scalar floating instruction has written its result and flags, and with it every write due no later
(R94, R298). DESIGN CHOICE (log 49): a reader at too short a distance then sees the new value, the register's value as it
stands (R67). -/
def Hart.landFloats (x : Hart) : Hart :=
  let n := ((x.pend.filter PendWrite.flt).map PendWrite.left).foldl max 0
  let due (w : PendWrite) : Bool := decide (w.left ≤ n)
  (x.pend.filter due).foldl Hart.landOne
    { x with pend := x.pend.map fun w => if due w then { w with landed := true, flags := 0 } else w }

/-- A scalar result of latency L. -/
def Hart.scalarResult (x : Hart) (n : Nat) (v : Word) (f : BitVec 8) (L : Nat) (flt : Bool := false) : Hart :=
  x.issueWrite false n v f L flt

/-- A predicate result of latency L. -/
def Hart.predResult (x : Hart) (n : Nat) (b : Bool) (f : BitVec 8) (L : Nat) (flt : Bool := false) : Hart :=
  x.issueWrite true n (if b then 1 else 0) f L flt

/-- A variable-latency scalar result, seen by every later reader (R66, R68). -/
def Hart.varResult (x : Hart) (n : Nat) (v : Word) : Hart :=
  ({ x with pend := x.pend.map (discardLater false n 0) }).setReg n v

/-- HARTID (R100). -/
def Hart.hartid (x : Hart) : Word := BitVec.ofNat 64 (x.slot + 8 * x.core + 256 * x.die)

/-- The agent number of the hart's die (R8). -/
def Hart.agent (x : Hart) : Nat := x.die

/-- The number of the hart's core among the 768 of the package. -/
def Hart.coreNo (x : Hart) : Nat := 32 * x.die + x.core

def State.hart (s : State) (h : Nat) : Hart := s.harts[h]?.getD {}
def State.setHart (s : State) (h : Nat) (x : Hart) : State := { s with harts := s.harts.set h x }
def State.modHart (s : State) (h : Nat) (f : Hart → Hart) : State := s.setHart h (f (s.hart h))

/-- A hart in the ending state, outside the handler of a freezing trap, issues nothing (R323). -/
def Hart.idle (x : Hart) : Bool := x.ending && !x.tstatus.vfrz && !x.replaying

/-- A hart that may take an issue turn (R318). -/
def Hart.ready (x : Hart) : Bool := x.bound && !x.stopped && !x.waiting && !x.idle

/-- The other ready harts of a hart's core. -/
def State.othersReady (s : State) (h : Nat) : List Nat :=
  (List.range s.harts.length).filter fun k =>
    k != h && (s.hart k).ready && (s.hart k).coreNo == (s.hart h).coreNo

def State.core (s : State) (c : Nat) : Core := tget s.cores c {}
def State.setCore (s : State) (c : Nat) (x : Core) : State := { s with cores := tset s.cores c x }
def State.modCore (s : State) (c : Nat) (f : Core → Core) : State := s.setCore c (f (s.core c))
def State.modHub (s : State) (n : Nat) (f : Hub → Hub) : State := s.setHub n (f (s.hub n))

/-- The next free value (log 5). -/
def State.takeFree (s : State) : Word × State := (Config.freeValue s.fresh, { s with fresh := s.fresh + 1 })

/-- A core event counter adds n for an event code, where a counter selects it (R401). -/
def EvCounter.bump (code n : Nat) (e : EvCounter) : EvCounter :=
  if e.en && decide (e.code.toNat = code) then { e with count := e.count + BitVec.ofNat 64 n } else e

/-- The counters of core c add n for an event code (R401). -/
def State.countCore (s : State) (c code n : Nat) : State :=
  { s with cores := match tfind s.cores c with
    | none => s.cores
    | some x => tset s.cores c { x with counters := x.counters.map (EvCounter.bump code n) } }

/-- The counters of a hub add n for an event code (R401). -/
def State.countHub (s : State) (hub code n : Nat) : State :=
  s.modHub hub fun u => { u with counters := u.counters.map (EvCounter.bump code n) }

/-- The next instruction in order: the PC holds 48 bits (R51, R71). DESIGN CHOICE (log 51): behind an instruction at 2^48 - 12 it
is 0. -/
def nextPc (pc : BitVec 48) : BitVec 48 := pc + 12

/-- The first of some lines that holds poison, as the physical address of DATA_POISON (R111). -/
def Hart.poisonedLine (x : Hart) (l : List Nat) : Option Trap :=
  if x.rsPoison.isEmpty then none
  else (l.find? fun k => decide (tget x.rsPoison k 0 ≠ 0)).map fun k => ⟨causeDATA_POISON, 0, BitVec.ofNat 64 (x.imgbase + 128 * k), 0⟩

/-- Poisoned bytes of a hart's image lines without the bytes off .. off + n - 1 of the image, written in full (R111). -/
def cleanMask (m : Table Nat) (off n : Nat) : Table Nat :=
  let clean (line v k : Nat) : Nat := if off ≤ 128 * line + k ∧ 128 * line + k < off + n then v - v / 2 ^ k % 2 * 2 ^ k else v
  (m.map fun p => (p.1, (List.range 128).foldl (clean p.1) p.2)).filter fun p => decide (p.2 ≠ 0)

/-- The bytes off .. off + n - 1 of the image written in full: their poison is cleared (R111). -/
def Hart.cleanBytes (x : Hart) (off n : Nat) : Hart := { x with rsPoison := cleanMask x.rsPoison off n }

/-- What trap entry leaves poisoned of a hart's image lines: it writes the PC, the trap registers, FBN and FB0 to FB15 in
full (R107, R111, R124). -/
def trapClean (m : Table Nat) : Table Nat :=
  [(0x208, 8), (0x268, 48), (0x2C0, 8), (0x300, 128)].foldl (fun (m : Table Nat) p => cleanMask m p.1 p.2) m

/-- Trap entry (R124): outstanding writes land, the trap registers are written together, the status and the privilege
change, and the PC goes to TVEC. `pos` and `vec` are TVQP; `pages` are the pages of fault batching (R104). -/
def Hart.trapEntry (x : Hart) (t : Trap) (tpc : BitVec 48) (pos : BitVec 16) (vec : Bool) (pages : List FaultPage) :
    Hart :=
  let y := x.landAll
  { y with
    tcause := t.cause, tpc := tpc &&& 0xFFFFFFFFFFFC, tinfo := t.tinfo, taddr := t.taddr, taddr2 := t.taddr2
    tvqpPos := pos, tvqpV := vec, fbn := pages.length, fb := pages
    rsPoison := trapClean y.rsPoison
    tstatus := { y.tstatus with pp := y.sup, pie := y.tstatus.ie, ie := false, mfrz := true }
    sup := true, pc := y.tvec, held := false, heldPush := false, waiting := false, waitFrom := none, waitQuad := none
    heldReads := [], entries := y.entries + 1 }

/-- Entry for a trap that the scalar unit raises: the entries in the queue go on (R289, R294). -/
def Hart.scalarTrap (x : Hart) (t : Trap) (tpc : BitVec 48) : Hart :=
  { x.trapEntry t tpc 0 false [] with traps := true :: x.traps }

/-- Entry for a freezing trap: a vector fault, INTERRUPT or PREEMPT (R289). -/
def Hart.freezingTrap (x : Hart) (t : Trap) (tpc : BitVec 48) (pos : BitVec 16) (vec : Bool) (pages : List FaultPage) : Hart :=
  { x.trapEntry t tpc pos vec pages with traps := false :: x.traps }

/-- The scalar-raised traps whose handlers have not returned (R294). -/
def Hart.depth (x : Hart) : Nat := x.traps.countP id

/-- The return from an exception (R126), after the checks on VFRZ: TPC, the saved privilege and IE come back, and the
matrix engine is freed. The reinstated entries may start (R301). DESIGN CHOICE (log 50): a result that has landed here counts
for no distance any more (R67). -/
def Hart.eret (x : Hart) : Hart :=
  let y := x.landAll
  { y with
    pc := y.tpc, sup := y.tstatus.pp, traps := y.traps.tail, replaying := false, replayed := 0, preempted := false
    tstatus := { y.tstatus with ie := y.tstatus.pie, mfrz := false } }

/-- ILLEGAL with the contents of R62; an open VALUE is a free value. -/
def State.illegal (s : State) (field : Nat) (value : Option (BitVec 8)) (ind : Bool) : Trap × State :=
  match value with
  | some v => (⟨causeILLEGAL, BitVec.ofNat 64 (field + (if ind then 16 else 0) + 256 * v.toNat), 0, 0⟩, s)
  | none =>
    (⟨causeILLEGAL, BitVec.ofNat 64 (field + (if ind then 16 else 0)) + (s.takeFree.1 &&& 0xFF) * 256, 0, 0⟩, s.takeFree.2)

/-- ILLEGAL of check 13 (R62). -/
def trapIllegal (value : Nat) (ind : Bool) : Trap :=
  ⟨causeILLEGAL, BitVec.ofNat 64 (12 + (if ind then 16 else 0) + 256 * (value % 256)), 0, 0⟩

/-- What the effect of an instruction gives: the next state; a trap of the scalar unit at the instruction or at the next
one, in a state that holds nothing of the effect; a hold, after which the instruction runs again; or a stop of the
model. -/
inductive Res where
  | ok (s : State)
  | trap (s : State) (t : Trap)
  | trapNext (s : State) (t : Trap)
  | hold (s : State)
  | stop (f : Fault)
  deriving DecidableEq, Repr

def Res.bind (r : Res) (f : State → Res) : Res :=
  match r with
  | .ok s => f s
  | .trap s t => .trap s t
  | .trapNext s t => .trapNext s t
  | .hold s => .hold s
  | .stop e => .stop e

end Sys2Proof.Machine
end

