-- ==== Sys2Proof/Machine/Operands.lean ====
section
/-! DEFINITION. Sys2Proof/Machine/Operands.lean: the operand forms of scalar, vector, mask and pair operands, and the
checks of a push (R53, R58, R88, R89, R133 to R135, R153). -/

namespace Sys2Proof.Machine

/-- IMM taken as a value of type w, as 64 bits (R58). -/
def immValue (w : Nat) (imm : BitVec 32) : Word :=
  if w ≤ 3 then imm.signExtend 64
  else if w = 13 then BitVec.ofNat 64 (convertFF fmtF32 fmtF64 0 false imm.toNat).code
  else if w = 10 ∨ w = 11 then (imm.setWidth 16).setWidth 64
  else if w = 8 ∨ w = 9 then (imm.setWidth 8).setWidth 64
  else imm.setWidth 64

/-- The second source of a scalar instruction: a register, or IMM of type w (R112, R116). -/
def srcB (o : Fields) (x : Hart) : Word := if o.i then immValue o.w.toNat o.imm else x.reg o.b.toNat

/-- The second source where IMM is a plain value, sign-extended (R115). -/
def srcBSigned (o : Fields) (x : Hart) : Word := if o.i then o.imm.signExtend 64 else x.reg o.b.toNat

/-- The second source where IMM is a plain value, zero-extended. -/
def srcBZero (o : Fields) (x : Hart) : Word := if o.i then o.imm.setWidth 64 else x.reg o.b.toNat

/-- The rounding mode of an instruction: DYN takes FCSR.RM (R31). -/
def roundMode (o : Fields) (rm : BitVec 3) : Nat := if fN o % 8 = 5 then rm.toNat else fN o % 8

/-- SAT (R33). -/
def satBit (o : Fields) : Bool := o.f.getLsbD 3

/-- The address base + sext(IMM), modulo 2^64 (R237). -/
def addrOf (base : Word) (o : Fields) : Word := base + o.imm.signExtend 64

/-- SEW in bits and LMUL in registers (R95). -/
def Vtype.bits (t : Vtype) : Nat := 8 * 2 ^ t.sew.toNat
def Vtype.regs (t : Vtype) : Nat := 2 ^ t.lmul.toNat

/-- VLMAX (R130). -/
def Vtype.vlmax (t : Vtype) : Nat := t.regs * 512 / (t.bits / 8)

/-- The number of registers of a mask group (R89). -/
def Vtype.maskRegs (t : Vtype) : Nat := max 1 (t.vlmax / 512)

/-- Element i, of n bits, of the group at v(k) (R88). -/
def Hart.velem (x : Hart) (k n i : Nat) : Nat := elem n (x.vreg (k + n * i / 4096)).toNat (i % (4096 / n))

/-- Bit i of the mask group at k (R89). -/
def Hart.maskBit (x : Hart) (k i : Nat) : Bool := (x.mreg (k + i / 512)).getLsbD (i % 512)

/-- The wide value whose elements 0 to vl - 1, of n bits, are what f gives, and old where it gives none. -/
def updateElems (n vl old : Nat) (f : Nat → Option Nat) : Nat :=
  packElems n ((List.range vl).map fun i => (f i).getD (elem n old i)) + 2 ^ (n * vl) * (old / 2 ^ (n * vl))

/-- Elements 0 to vl - 1, of n bits, of the group at v(k) written where f gives a value (R88). -/
def Hart.setElems (x : Hart) (k n vl : Nat) (f : Nat → Option Nat) : Hart :=
  (List.range ((n * vl + 4095) / 4096)).foldl (fun y j =>
    let per := 4096 / n
    y.setVreg (k + j) (BitVec.ofNat 4096
      (updateElems n (min per (vl - per * j)) (x.vreg (k + j)).toNat fun i => f (per * j + i)))) x

/-- Bits 0 to vl - 1 of the mask group at k written from f (R89, R141). -/
def Hart.setMaskBits (x : Hart) (k vl : Nat) (f : Nat → Bool) : Hart :=
  (List.range ((vl + 511) / 512)).foldl (fun y j =>
    y.setMreg (k + j) (BitVec.ofNat 512
      (updateElems 1 (min 512 (vl - 512 * j)) (x.mreg (k + j)).toNat fun i =>
        some (if f (512 * j + i) then 1 else 0)))) x

/-- active(i) of R133 for an entry, against the mask as it stood. -/
def activeAt (e : QEntry) (o : Fields) (x : Hart) (i : Nat) : Bool :=
  decide (x.vstart.toNat ≤ i) && decide (i < e.vl) && (!o.mskE || x.maskBit o.mskM.toNat i)

/-- Element i is enabled by the mask, VSTART apart. -/
def enabledAt (e : QEntry) (o : Fields) (x : Hart) (i : Nat) : Bool :=
  decide (i < e.vl) && (!o.mskE || x.maskBit o.mskM.toNat i)

/-- The k-th captured scalar of an entry. -/
def QEntry.cap (e : QEntry) (k : Nat) : Word := e.caps[k]?.getD 0

/-- srcb(i) of R135 as an n-bit pattern: IMM of type w, a captured scalar, or an element of the group at B. -/
def srcbAt (e : QEntry) (o : Fields) (x : Hart) (w n i : Nat) : Nat :=
  if o.i then (immValue w o.imm).toNat % 2 ^ n
  else if o.f.getLsbD 7 then (e.cap 0).toNat % 2 ^ n
  else x.velem e.vb n i

/-- A broken check 13 of a push: VALUE, if the manual states one, and IND (R53, R62). -/
structure PushIll where
  value : Option Nat
  ind : Bool := false
  deriving DecidableEq, Repr

/-- The register number of a vector operand: direct, or the low six bits of a scalar once it has its value (R53). -/
def resolveVec (x : Hart) (f : BitVec 8) : Nat :=
  if 128 ≤ f.toNat then (x.regSettled (f.toNat - 128)).toNat % 64 else f.toNat

/-- A vector operand whose number is not a multiple of its group size g, or whose group passes v63 (R53, R134). -/
def alignIll (x : Hart) (f : BitVec 8) (g : Nat) : Option PushIll :=
  let n := resolveVec x f
  if n % g ≠ 0 ∨ 64 < n + g then some ⟨some n, decide (128 ≤ f.toNat)⟩ else none

/-- A mask operand whose number is not a multiple of g (R89). -/
def maskIll (k g : Nat) : Option PushIll := if k % g ≠ 0 then some ⟨some k, false⟩ else none

/-- A check with a VALUE of its own. -/
def valueIll (bad : Bool) (v : Nat) : Option PushIll := if bad then some ⟨some v, false⟩ else none

/-- A check of a vector operand whose VALUE is its register number; IND where the operand is indirect (R62, R134). -/
def regIll (x : Hart) (f : BitVec 8) (bad : Bool) : Option PushIll :=
  if bad then some ⟨some (resolveVec x f), decide (128 ≤ f.toNat)⟩ else none

/-- Two groups share a register. -/
def overlaps (a g b k : Nat) : Bool := decide (0 < g) && decide (0 < k) && decide (a < b + k) && decide (b < a + g)

/-- The first broken check. -/
def firstIll : List (Option PushIll) → Option PushIll
  | [] => none
  | some e :: _ => some e
  | none :: r => firstIll r

/-- W's width equals SEW (R134). -/
def widthIll (o : Fields) (t : Vtype) : Option PushIll :=
  valueIll (decide (typeBits o.w.toNat ≠ t.bits)) t.sew.toNat

/-- The enabling mask's group (R89). -/
def mskIll (o : Fields) (t : Vtype) : Option PushIll := if o.mskE then maskIll o.mskM.toNat t.maskRegs else none

end Sys2Proof.Machine
end

