-- ==== Sys2Proof/Machine/Causal.lean ====
section
/-! DEFINITION. Sys2Proof/Machine/Causal.lean: the causal clocks of the agents: sending, arrival, delivery, horizon beats
and resync (R388 to R397), and the event counters of an agent (R401). -/

namespace Sys2Proof.Machine

/-- x precedes y in serial order (R388). -/
def serialLt (x y : BitVec 32) : Bool := decide (1 ≤ (y - x).toNat) && decide ((y - x).toNat < 2 ^ 31)

def serialMax (x y : BitVec 32) : BitVec 32 := if serialLt x y then y else x
def serialMin (x y : BitVec 32) : BitVec 32 := if serialLt y x then y else x

/-- The 32-bit count whose low 16 bits are given, within 2^15 of a reference (R391). -/
def rebuild (ref : BitVec 32) (low : BitVec 16) : BitVec 32 :=
  ref + (low - ref.setWidth 16).signExtend 32

/-- min over c of HOR[j][c] (R389). -/
def Clock.horMin (k : Clock) (j : Nat) : BitVec 32 :=
  (List.range 4).foldl (fun m c => serialMin m (tget k.hor (4 * j + c) 0)) (tget k.hor (4 * j) 0)

/-- D[j] as high as the packets that have arrived allow (R391). -/
def Clock.raiseD (k : Clock) (j : Nat) : Clock :=
  let low := (k.quar.filter fun w => w.src = j).foldl (fun m w => serialMin m (w.num - 1)) (k.horMin j)
  { k with d := tset k.d j (serialMax (tget k.d j 0) low) }

/-- A die's accesses for an ASN noted in the touch table of 256 entries, or in the overflow mask (R396). -/
def Clock.note (k : Clock) (src : Nat) (asn : Option (BitVec 16)) : Clock :=
  match asn with
  | none => k
  | some a =>
    if 24 ≤ src then k
    else match tfind k.touch a.toNat with
      | some m => { k with touch := tset k.touch a.toNat (m ||| ((1 : BitVec 24) <<< src)) }
      | none => if k.touch.length < 256 then { k with touch := tset k.touch a.toNat ((1 : BitVec 24) <<< src) }
        else { k with overflow := k.overflow ||| ((1 : BitVec 24) <<< src) }

/-- The counts of a delivery (R391, R396). -/
def Clock.deliver (k : Clock) (w : Waiter) : Clock :=
  let f := w.deps.foldl (fun f p => tset f p.1 (serialMax (tget f p.1 0) p.2)) k.f
  ({ k with f := tset f w.src (serialMax (tget f w.src 0) w.num) }.note w.src w.asn).raiseD w.src

/-- The conditions of delivery (R391): each dependency, the implicit one included, is on a removed agent, or is covered by
the horizon with every arrived packet up to it delivered; and a view read is confirmed (R417). -/
def Clock.ready (k : Clock) (removed : BitVec 32) (w : Waiter) : Bool :=
  w.reader.isNone && ((w.src, w.num - 1) :: w.deps).all fun p =>
    removed.getLsbD p.1 ||
      (!serialLt (k.horMin p.1) p.2 &&
        !(k.quar.any fun q => q.src == p.1 && !serialLt p.2 q.num && !(q.src == w.src && q.num == w.num)))

/-- A horizon raised for all four classes to a beat's S (R393). -/
def Clock.raiseHor (k : Clock) (j c : Nat) (s : BitVec 32) : Clock :=
  { k with hor := tset k.hor (4 * j + c) (serialMax (tget k.hor (4 * j + c) 0) s) }

/-- The effect of a beat: each class whose last packet has arrived; the rest waits (R393). -/
def Clock.beat (k : Clock) (b : Beat) : Clock :=
  let done c := !serialLt (tget k.hor (4 * b.src + c) 0) (b.last[c]?.getD 0)
  let k1 := (List.range 4).foldl (fun k c => if done c then k.raiseHor b.src c b.s else k) k
  let k2 := { k1 with
    ack := tset k1.ack b.src (serialMax (tget k1.ack b.src 0) (rebuild (tget k1.ack b.src 0) b.ackv))
    beatS := tset k1.beatS b.src (serialMax (tget k1.beatS b.src 0) b.s)
    hreq := k1.hreq.filter (· ≠ b.src)
    beats := if (List.range 4).all done then k1.beats else k1.beats ++ [b] }
  k2.raiseD b.src

/-- Beats kept for their last packets are applied again (R393); they answer no later request. -/
def Clock.retryBeats (k : Clock) : Clock := { k.beats.foldl Clock.beat { k with beats := [] } with hreq := k.hreq }

/-- A beat may arrive: the horizon channel keeps the order in which its source sends (R11). -/
def Clock.beatInOrder (k : Clock) (b : Beat) : Bool := !serialLt b.s (tget k.beatS b.src 0)

/-- The arrival of a packet at its receiver (R391, R393): it stands undelivered, with the horizon of its class and its
acknowledgement; then come the beats that waited for it. -/
def Clock.arrive (k : Clock) (w : Waiter) (ackv : BitVec 16) : Clock :=
  { k with
    hor := tset k.hor (4 * w.src + w.cls) w.num
    ack := tset k.ack w.src (serialMax (tget k.ack w.src 0) (rebuild (tget k.ack w.src 0) ackv))
    quar := k.quar ++ [w] }.retryBeats

/-- The counts of sending on class c to agent d at cycle `now` (R390), with the packet's number and dependencies. -/
def Clock.send (k : Clock) (a d c : Nat) (now : Word) : Clock × BitVec 32 × Table (BitVec 32) :=
  let n := k.s + 1
  let deps := (List.range 32).filterMap fun j =>
    if j ≠ a ∧ tget k.f j 0 ≠ tget k.sentf (32 * d + j) 0 then some (j, tget k.f j 0) else none
  ({ k with
    s := n, last := tset k.last (4 * d + c) n, f := tset k.f a n, sentAt := tset k.sentAt d now
    sentf := deps.foldl (fun t p => tset t (32 * d + p.1) p.2) k.sentf }, n, deps)

def State.clock (s : State) (a : Nat) : Clock := tget s.clocks a {}
def State.setClock (s : State) (a : Nat) (k : Clock) : State := { s with clocks := tset s.clocks a k }

/-- The beat that agent j sends to agent d (R393). -/
def State.beatOf (s : State) (j d : Nat) : Beat :=
  ⟨j, (s.clock j).s, (List.range 4).map fun c => tget (s.clock j).last (4 * d + c) 0, ((s.clock j).horMin d).setWidth 16⟩

/-- An event counted at an agent: a core counter of a C-die's cores, or a counter of a hub (R401). -/
def State.countAgent (s : State) (a dieCode hubCode : Nat) : State :=
  if 24 ≤ a then s.countHub (a - 24) hubCode 1
  else { s with cores := s.cores.map fun p =>
    if p.1 / 32 = a then (p.1, { p.2 with counters := p.2.counters.map (EvCounter.bump dieCode 1) }) else p }

/-- A beat from j reaches d; a fenced agent takes none (R405). -/
def State.beatNow (s : State) (j d : Nat) : State :=
  if s.removed.getLsbD d then s else s.setClock d ((s.clock d).beat (s.beatOf j d))

/-- An error of a hub (R424 ERRSTAT, R427). -/
def State.hubError (s : State) (hub bit : Nat) : State :=
  s.modHub hub fun u => { u with errstat := u.errstat ||| ((1 : BitVec 5) <<< bit) }

/-- The packet of a message, its counts rebuilt at the receiver (R391). -/
def Clock.unpack (k : Clock) (p : Packet) : Waiter :=
  { src := p.src, cls := p.cls, num := rebuild (k.horMin p.src) p.seq
    deps := p.deps.map fun e => (e.agent, rebuild (tget k.d e.agent 0) e.count), asn := p.asn }

/-- The entry that a quarantine has for a packet of a source (R394): one of 992 shared, or the source's own; none if both
are taken. -/
def Clock.room (k : Clock) (w : Waiter) : Option Waiter :=
  if (k.quar.filter fun v => !v.res).length < 992 then some w
  else if k.quar.any fun v => v.res && v.src == w.src then none
  else some { w with res := true }

/-- The horizon requests of a packet that enters the quarantine, to sources in service, at most one outstanding for a
source (R393). -/
def State.askHorizons (s : State) (dst : Nat) (w : Waiter) : State :=
  let k := s.clock dst
  let late := (((w.src, w.num - 1) :: w.deps).filter fun p => serialLt (k.horMin p.1) p.2).map Prod.fst
  (late.dedup.filter fun j => !k.hreq.contains j && !s.removed.getLsbD j).foldl (fun s j =>
    (s.setClock dst { s.clock dst with hreq := (s.clock dst).hreq ++ [j] }).countAgent dst 0x25 0x52) s

/-- The hub that reports an error found at an agent: the hub itself, or the one a die is attached to (R9). -/
def hubOfAgent (a : Nat) : Nat := if 24 ≤ a then a - 24 else a / 3

/-- An arriving packet is dropped for its RSN: it is counted, and the hub has an error (R397). -/
def State.dropStale (s : State) (dst : Nat) : State := (s.countAgent dst 0x27 0x53).hubError (hubOfAgent dst) 0

/-- A packet may arrive: those of one source, destination and class arrive in the order they were sent (R11). -/
def State.inOrder (s : State) (dst : Nat) (p : Packet) : Bool :=
  let k := s.clock dst
  let n := (k.unpack p).num
  serialLt (tget k.hor (4 * p.src + p.cls) 0) n && !(s.flight.any fun q =>
    decide (q.1 = dst) && decide (q.2.src = p.src) && decide (q.2.cls = p.cls) && q.2.rsn == p.rsn &&
      serialLt (k.unpack q.2).num n)

/-- A packet reaches agent dst (R391, R394, R396, R397). One that finds no entry stays in flight. -/
def State.receive (s : State) (dst : Nat) (p : Packet) : State :=
  let s1 : State := { s with flight := s.flight.erase (dst, p) }
  if s.removed.getLsbD p.src || s.removed.getLsbD dst then s1
  else if p.rsn ≠ s.rsn then s1.dropStale dst
  else if !s.inOrder dst p then s
  else
    let k := s.clock dst
    let w := k.unpack p
    let k1 := k.arrive w p.ackv
    let rest := k1.quar.erase w
    if k1.ready s.removed w then s1.setClock dst (({ k1 with quar := rest } : Clock).deliver w)
    else match k.room w with
      | none => s.countAgent dst 0x24 0xFF
      | some v => ((s1.setClock dst { k1 with quar := rest ++ [v] }).countAgent dst 0x23 0x51).askHorizons dst w

/-- The packet that a quarantine delivers next: one whose conditions hold and that is the lowest of its source (R391). -/
def Clock.nextOut (k : Clock) (removed : BitVec 32) : Option Waiter :=
  k.quar.find? fun w => k.ready removed w && !(k.quar.any fun v => v.src == w.src && serialLt v.num w.num)

/-- A quarantine delivers what it may, at most n packets (R391). -/
def State.deliverOut (s : State) (dst : Nat) : Nat → State
  | 0 => s
  | n + 1 =>
    let k := s.clock dst
    match k.nextOut s.removed with
    | none => s
    | some w => (s.setClock dst (({ k with quar := k.quar.erase w } : Clock).deliver w)).deliverOut dst n

/-- The source of an outstanding horizon request answers it (R393). -/
def State.answerBeat (s : State) (j d : Nat) : State := (s.countAgent j 0x26 0xFF).beatNow j d

/-- Every packet in flight to agent d arrives, each in its turn; the sources it asks for horizons answer; and what then
may be delivered is (R11, R391, R393). -/
def State.bring (s : State) (d : Nat) : State :=
  let s1 := (s.flight.filter fun q => decide (q.1 = d)).foldl (fun t q => t.receive d q.2) s
  let s2 := (s1.clock d).hreq.foldl (fun t j => t.answerBeat j d) s1
  s2.deliverOut d (s2.clock d).quar.length

/-- The sender may send: S + 1 stays within the window over the agents in service (R392). -/
def State.windowOpen (s : State) (a : Nat) : Bool :=
  let k := s.clock a
  (List.range 32).all fun d => s.removed.getLsbD d || decide (d = a) || decide ((k.s + 1 - tget k.ack d 0).toNat < 2 ^ 15)

/-- The agent in service whose acknowledgement to a is the lowest, the lowest number on ties. -/
def State.lowestAck (s : State) (a : Nat) : Option Nat :=
  let k := s.clock a
  let behind (d : Nat) : Nat := (k.s - tget k.ack d 0).toNat
  ((List.range 32).filter fun d => d != a && !s.removed.getLsbD d).foldl (fun b d => match b with
    | none => some d
    | some e => if behind e < behind d then some d else some e) none

/-- A cycle of a window stall (R392): it is counted, and the agent with the lowest acknowledgement is asked for a beat and
answers. The beat of R393 for an idle destination tells that agent first how far a's packets have come. -/
def State.stallCycle (s : State) (a : Nat) : State :=
  match s.lowestAck a with
  | none => s
  | some d => ((((s.countAgent a 0x22 0x50).bring d).answerBeat a d).countAgent a 0x25 0x52).answerBeat d a

/-- A window stall until the window is open (R392). -/
def State.reopen (s : State) (a : Nat) : State :=
  (List.range 32).foldl (fun s _ => if s.windowOpen a then s else s.stallCycle a) s

/-- The fabric's part of a state, the clocks, the packets in flight and the event counts, as in t. -/
def State.withFabric (s t : State) : State :=
  { s with clocks := t.clocks, cores := t.cores, hubs := t.hubs, flight := t.flight, unsent := t.unsent }

/-- The packet of a number and dependencies, as it travels (R389, R390). -/
def State.stamp (s : State) (a d c : Nat) (n : BitVec 32) (deps : Table (BitVec 32)) (asn : Option (BitVec 16)) : Packet :=
  { src := a, cls := c, seq := n.setWidth 16, rsn := s.rsn, ackv := ((s.clock a).horMin d).setWidth 16
    deps := deps.map fun p => ⟨p.1, p.2.setWidth 16⟩, asn := asn }

/-- A packet leaves agent a for agent d on class c (R390). -/
def State.emit (s : State) (a d c : Nat) (asn : Option (BitVec 16)) : State :=
  let (k, n, deps) := (s.clock a).send a d c s.cyc
  { s.setClock a k with flight := s.flight ++ [(d, s.stamp a d c n deps asn)] }

/-- A packet sent from agent a to agent d on class c, after a stall where the window is closed; the source holds one that a
closed window still keeps back, and those behind it (R390, R392). -/
def State.sendPacket (s : State) (a d c : Nat) (asn : Option (BitVec 16)) : State :=
  let s0 := if s.windowOpen a then s else s.reopen a
  if !s0.windowOpen a || s0.unsent.any (fun p => p.src == a) then { s0 with unsent := s0.unsent ++ [⟨a, d, c, asn⟩] }
  else s0.emit a d c asn

/-- The first packet held back whose source may send it now is sent (R392, R397). -/
def State.sendUnsent (s : State) : Option State :=
  if s.resync then none
  else (s.unsent.find? fun p => s.windowOpen p.src).map fun p =>
    (({ s with unsent := s.unsent.erase p } : State).emit p.src p.dst p.cls p.asn).bring p.dst

/-- A requester's read of a view block, from an agent, waits in the quarantine of view home v, where it has an entry (R394, R417). Its
packet takes its number when it is delivered: log 9. -/
def State.holdReader (s : State) (r v agent : Nat) (view : Nat × Nat) : State :=
  let k := s.clock (24 + v)
  let w : Waiter := { src := agent, cls := 0, num := (s.clock agent).s + 1, deps := [], asn := none, reader := some r, view := view }
  if agent = 24 + v ∨ k.quar.any fun q => q.reader == some r then s
  else match k.room w with
    | none => s.countAgent (24 + v) 0x24 0xFF
    | some q => (s.setClock (24 + v) { k with quar := k.quar ++ [q] }).countAgent (24 + v) 0x23 0x51

/-- The view reads of a requester leave the quarantines (R417). -/
def State.unread (s : State) (r : Nat) : State :=
  let mine (k : Clock) : Bool := k.quar.any fun q => q.reader == some r
  (s.clocks.filter fun p => mine p.2).foldl (fun t p =>
    let k := t.clock p.1
    (t.setClock p.1 { k with quar := k.quar.filter fun q => q.reader != some r }).deliverOut p.1 k.quar.length) s

/-- Agent d asks source j for a horizon, one request at a time (R393). -/
def State.askHorizon (s : State) (d j : Nat) : State :=
  let k := s.clock d
  if k.hreq.contains j || s.removed.getLsbD j then s
  else (s.setClock d { k with hreq := k.hreq ++ [j] }).countAgent d 0x25 0x52

/-- The clocks and counts of a packet that travels from agent a to agent d on class c and is delivered behind those sent
before it, with the horizon beats that its dependencies need (R390, R391, R393). -/
def State.carry (s : State) (a d c : Nat) (asn : Option (BitVec 16)) : State := (s.sendPacket a d c asn).bring d

/-- A packet of an access travels from agent a to another agent d on class c. Log 9: the time in between is no part of the model. -/
def State.transmit (s : State) (a d c : Nat) (asn : Option (BitVec 16)) : State :=
  if a = d then s else s.withFabric (s.carry a d c asn)

/-- A request from one agent to another and its reply (R271, R391). -/
def State.exchange (s : State) (a d : Nat) (asn : Option (BitVec 16)) : State :=
  (s.transmit a d 0 asn).transmit d a 3 none

/-- Probes from a hub to the dies of a mask, and their answers (R271). -/
def State.probeDies (s : State) (hub : Nat) (v : BitVec 24) : State :=
  if v = 0 then s
  else (List.range 24).foldl (fun s d =>
    if v.getLsbD d && !s.removed.getLsbD d then (s.transmit (24 + hub) d 2 none).transmit d (24 + hub) 1 none else s) s

/-- A causal broadcast from an agent to every other agent in service, on what each of them then does, and their
acknowledgements (R271, R280, R355). -/
def State.broadcast (s : State) (a : Nat) (f : State → State) : State :=
  let others := (List.range 32).filter fun d => d != a && !s.removed.getLsbD d
  others.foldl (fun s d => s.transmit d a 1 none) (f (others.foldl (fun s d => s.transmit a d 2 none) s))

/-- The fenced C-dies for which an ASN is tainted (R396). -/
def State.taint (s : State) (asn : BitVec 16) : BitVec 24 :=
  let seen := s.clocks.foldl (fun m p => m ||| tget p.2.touch asn.toNat 0 ||| p.2.overflow) (0 : BitVec 24)
  seen &&& s.removed.setWidth 24

/-- The lowest die of a mask. -/
def lowestDie (m : BitVec 24) : Option Nat := findBelow 24 fun d => m.getLsbD d

/-- DIE_LOST for an access (R297, R396). -/
def trapDieLost (die : Nat) (store : Bool) (a : Word) : Trap :=
  ⟨causeDIE_LOST, BitVec.ofNat 64 ((if store then 2 else 0) + 256 * die), a, 0⟩

/-- A causal state that a resync zeroes (R397 step 3). A fenced agent's counts stay as they stood at the fence (R405), and
the taint of the dies fenced during the resync stays. -/
def Clock.resynced (k : Clock) (gone : Bool) (late : BitVec 24) : Clock :=
  let base : Clock := if gone then k else {}
  { base with
    touch := (k.touch.map fun p => (p.1, p.2 &&& late)).filter fun p => p.2 ≠ 0
    overflow := k.overflow &&& late }

/-- The resync of the package: every count, beat and touch table is zeroed and RSN rises (R397 steps 3 to 5). -/
def State.resyncDone (s : State) : State :=
  let s1 := { s with
    clocks := s.clocks.map fun p => (p.1, p.2.resynced (s.removed.getLsbD p.1) s.lateFence)
    rsn := s.rsn + 1, resync := false, lateFence := 0 }
  (List.range 8).foldl (fun s h => s.countHub h 0x54 1) s1

/-- Nothing is in flight between agents in service, and each of their quarantines is empty (R397 step 2). -/
def State.drained (s : State) : Bool :=
  (s.flight.all fun p => s.removed.getLsbD p.1) && s.clocks.all fun p => s.removed.getLsbD p.1 || p.2.quar.isEmpty

end Sys2Proof.Machine
end

