-- ==== Sys2Proof/Machine/Directory.lean ====
section
/-! DEFINITION. Sys2Proof/Machine/Directory.lean: the directory, tag records and the host's halves of a line (R223, R353,
R356 to R359), and the geometry of views over physical lines (R374 to R377). -/

namespace Sys2Proof.Machine

def dieBit (d : Nat) : BitVec 24 := (1 : BitVec 24) <<< d

/-- A sharer vector as a state. -/
def sharers (v : BitVec 24) : DirSt := if v = 0 then .i else .s v

/-- The state of a line after every die copy is recalled (R223, R356). -/
def DirSt.recall : DirSt → DirSt
  | .h hs hm _ => .h hs hm 0
  | .g a e => .g a e
  | _ => .i

/-- The dies that hold a copy of the line. -/
def DirSt.holders : DirSt → BitVec 24
  | .s v => v
  | .em d => dieBit d
  | .h _ _ v => v
  | _ => 0

/-- The CXL bridge hub of a translating hub (R217): port 0 is on hub 0, port 1 on hub 4. -/
def bridgeOf (hub : Nat) : Nat := if hub < 4 then 0 else 4

/-- The hub that keeps the directory state of a line, reached from a translating hub: its home in local HBM, the bridge hub
for host memory (R217, R221, R358), the port of the translating hub for a peer. -/
def homeHub (hub line : Nat) : Nat :=
  match spaceOf (128 * line) with
  | 0 => hubOfPa (128 * line)
  | 1 => bridgeOf hub
  | _ => hub

/-- The dies that a home probes where a line goes from one state to another: those that lose their copy, and an owner that
keeps the line shared (R356). -/
def probedDies (x y : DirSt) : BitVec 24 :=
  match x, y with
  | .em d, .em e => if d = e then 0 else dieBit d
  | .em d, _ => dieBit d
  | x, .em e => x.holders &&& ~~~(dieBit e)
  | x, y => x.holders &&& ~~~y.holders

/-- The event codes of a hub that count what its cache and the compression of HBM make of its accesses (R229, R401), which the
model does not count (log 46). -/
def openCodes : List (BitVec 8) := [0x40, 0x41, 0x42, 0x43]

/-- An access at a home: the counters of such events may have counted (R401, log 46). -/
def State.hbmUse (s : State) (hub : Nat) : State :=
  if (s.hub hub).counters.any fun e => e.en && openCodes.contains e.code then
    s.modHub hub fun u => { u with counters := u.counters.map fun e => if e.en && openCodes.contains e.code then { e with vague := true } else e }
  else s

/-- A line moves to a state with the probes that this takes (R271, R356). -/
def State.moveDir (s : State) (hub line : Nat) (y : DirSt) : State :=
  ((s.hbmUse hub).probeDies hub (probedDies (s.dirOf line) y)).setDir line y

/-- The hub that keeps the directory state of a line: for host memory the bridge hub of the translating hub whose tag the
line's frame has (R217, R223). -/
def State.lineHub (s : State) (line : Nat) : Nat :=
  homeHub (match tfind s.tags (line / 32) with
    | some t => hubOf (4096 * t.granule)
    | none => 0) line

def State.recallLine (s : State) (line : Nat) : State := s.moveDir (s.lineHub line) line (s.dirOf line).recall

/-- The state of a line after a synonym switch, a purge, a flip or a migration recalls all its copies (R356): untracked,
unless an engine writes the line, or the host has a modified half still to write back. -/
def DirSt.recallAll : DirSt → DirSt
  | .h hs hm _ => if hm = 0 then .i else .h hs hm 0
  | .g a e => .g a e
  | _ => .i

/-- Every line that p selects recalled. -/
def State.recallWhere (s : State) (p : Nat → Bool) : State :=
  (s.dir.filter fun q => p q.1).foldl (fun t q => t.moveDir (s.lineHub q.1) q.1 q.2.recallAll) s

/-- A die's read at the home (R356, R358); none where the line must wait. A watched line is never held in EM (R376), and
no die is given a line of a peer alone, since its stores go to the peer (R245). -/
def readState (die : Nat) (watched : Bool) : DirSt → Option DirSt
  | .i => some (if watched then .s (dieBit die) else .em die)
  | .s v => some (.s (v ||| dieBit die))
  | .em d => some (if d = die then .em d else .s (dieBit d ||| dieBit die))
  | .h hs hm v => if hm = 0 then some (.h hs hm (v ||| dieBit die)) else none
  | .g _ _ => none

/-- A die's ownership request at the home (R356, R358); none where the line must wait. A write to a watched line is
performed at the home, and no die keeps the line. -/
def ownState (die : Nat) (watched : Bool) : DirSt → Option DirSt
  | .h _ hm _ => if hm = 0 then some (if watched then .i else .em die) else none
  | .g _ _ => none
  | _ => some (if watched then .i else .em die)

/-- An access performed at the home with no copy kept on a die: an atomic, or an access to an NC page (R217, R222). -/
def homeState : DirSt → Option DirSt
  | .h _ hm _ => if hm = 0 then some .i else none
  | .g _ _ => none
  | _ => some .i

/-- A read served at the home that leaves its die no copy (R61, R379): an owner's copy is read there, and kept shared. -/
def passState : DirSt → Option DirSt
  | .h hs hm v => if hm = 0 then some (.h hs hm v) else none
  | .g _ _ => none
  | .em d => some (.s (dieBit d))
  | d => some d

/-- A die holds the line with the rights an access needs: a hit (R353). -/
def hitState (die : Nat) (own : Bool) : DirSt → Bool
  | .s v => !own && v.getLsbD die
  | .em d => decide (d = die)
  | .h _ hm v => !own && decide (hm = 0) && v.getLsbD die
  | _ => false

/-- A tag record serves an access under an ASN, or a global one, at a granule (R222, R223). -/
def TagRec.serves (t : TagRec) (asn : BitVec 16) (glob : Bool) (granule : Nat) : Bool :=
  decide (t.granule = granule) && t.glob == glob && (glob || t.asn == asn)

/-- A miss under a tag is a synonym switch: dies hold lines of the frame under another tag (R223, R353). -/
def State.switches (s : State) (frame : Nat) (asn : BitVec 16) (glob : Bool) (granule : Nat) : Bool :=
  match tfind s.tags frame with
  | none => false
  | some t => !t.serves asn glob granule && (frameLines frame).any fun l => (s.dirOf l).heldByDie

/-- The tag of an access to a frame, recorded by a hub: a synonym switch recalls the frame's lines first (R223). A record of
a frame of which no die holds a line is free (R353). -/
def State.retag (s : State) (frame : Nat) (asn : BitVec 16) (glob : Bool) (granule : Nat) : State :=
  let put (t : State) : State := { t with tags := tset t.tags frame ⟨asn, glob, granule⟩ }
  match tfind s.tags frame with
  | none => put s
  | some t =>
    if t.serves asn glob granule then s
    else if s.switches frame asn glob granule then
      (put (s.recallWhere fun l => decide (l / 32 = frame))).countHub (homeHub (hubOf (4096 * granule)) (32 * frame)) 0x47 1
    else put s

/-- A line of the frame that a synonym switch has to wait for: an engine writes it, or the host has a half modified
(R356). -/
def State.switchWaits (s : State) (frame : Nat) : Option Nat := (frameLines frame).find? fun l => (s.dirOf l).busy

/-- Rows r of an array of rows, of rowBytes bytes at base + r * stride, that touch lo .. lo + n - 1. -/
def rowsTouching (base stride rowBytes rows lo n : Nat) : List Nat :=
  if lo + n ≤ base ∨ stride = 0 then []
  else
    let first := if lo < base + rowBytes then 0 else (lo - base - rowBytes) / stride + 1
    let last := min ((lo + n - 1 - base) / stride) (rows - 1)
    (List.range (last + 1 - first)).map (first + ·)

/-- The bytes of a master element, and of a view element (R374, R375). -/
def ViewReg.es (r : ViewReg) : Nat := 2 ^ r.l2es
def ViewReg.ves (r : ViewReg) : Nat := if r.rel = 0 then 1 else r.es

/-- The height and width of a block (R375). -/
def ViewReg.bh (r : ViewReg) : Nat := if r.rel = 1 ∨ (r.rel = 0 ∧ r.fmt = 2) then 128 else 1
def ViewReg.bw (r : ViewReg) : Nat := if r.rel = 0 ∧ r.fmt = 4 then 32 else 128

/-- Blocks in a row of the grid, and in all. -/
def ViewReg.across (r : ViewReg) : Nat := r.cols / r.bw
def ViewReg.count (r : ViewReg) : Nat := r.rows / r.bh * r.across

/-- The first row and column of a block. -/
def ViewReg.row0 (r : ViewReg) (b : Nat) : Nat := b / r.across * r.bh
def ViewReg.col0 (r : ViewReg) (b : Nat) : Nat := b % r.across * r.bw

/-- The VA of view element (row, col) and of master element (row, col). -/
def ViewReg.viewVa (r : ViewReg) (row col : Nat) : Nat := r.vbase + row * r.vstride + col * r.ves
def ViewReg.masterVa (r : ViewReg) (row col : Nat) : Nat := r.mbase + row * r.mstride + col * r.es

/-- The index of a block's scale in the scale array (R227). -/
def scaleIndex (fmt log2row e : Nat) : Nat :=
  match fmt with
  | 4 => e / 32
  | 2 => e / 2 ^ log2row / 128 * 2 ^ (log2row - 7) + e % 2 ^ log2row / 128
  | _ => e / 128

def ViewReg.scaleBytes (r : ViewReg) : Nat := if r.fmt = 4 then 1 else 4

/-- The VA of a block's scale. -/
def ViewReg.scaleVa (r : ViewReg) (b : Nat) : Nat :=
  r.sbase + r.sstride * scaleIndex r.fmt r.log2row (r.viewVa (r.row0 b) (r.col0 b) - r.dbase)

/-- The home of a block: the hub of the VA of its element (0, 0), in the master package for SHARD (R375, R380). -/
def ViewReg.home (r : ViewReg) (b : Nat) : Nat :=
  hubOf (if r.rel = 2 then r.masterVa (r.row0 b) (r.col0 b) else r.viewVa (r.row0 b) (r.col0 b))

/-- The PA of a VA of the registration, by the frames it was registered with (R376). -/
def ViewReg.pa (r : ViewReg) (va : Nat) : Option Nat := (tfind r.frames (va / 4096)).map fun f => 4096 * f + va % 4096

/-- The VAs of the registration that stand at a PA. -/
def ViewReg.vasOf (r : ViewReg) (pa : Nat) : List Nat :=
  r.frames.filterMap fun p => if p.2 = pa / 4096 then some (4096 * p.1 + pa % 4096) else none

/-- The spans of VA, base and length, of a block's view elements, with its scale for FORMAT. -/
def ViewReg.viewSpans (r : ViewReg) (b : Nat) : List (Nat × Nat) :=
  (List.range r.bh).map (fun k => (r.viewVa (r.row0 b + k) (r.col0 b), r.bw * r.ves)) ++
    (if r.rel = 0 then [(r.scaleVa b, r.scaleBytes)] else [])

/-- The lines of a span. -/
def spanLines (a n : Nat) : List Nat := if n = 0 then [] else (List.range ((a + n + 127) / 128 - a / 128)).map (a / 128 + ·)

/-- The physical lines of a block's view elements and scale. -/
def ViewReg.viewLines (r : ViewReg) (b : Nat) : List Nat :=
  ((r.viewSpans b).flatMap fun p => (spanLines p.1 p.2).filterMap fun l => (r.pa (128 * l)).map lineOf).dedup

/-- The blocks with a master element in va .. va + n - 1. -/
def ViewReg.masterBlocks (r : ViewReg) (va n : Nat) : List Nat :=
  ((rowsTouching r.mbase r.mstride (r.cols * r.es) r.rows va n).flatMap fun row =>
    let a := r.masterVa row 0
    let c0 := (va - a) / r.es
    let c1 := min ((va + n - 1 - a) / r.es) (r.cols - 1)
    (List.range (c1 / r.bw + 1 - c0 / r.bw)).map fun k => row / r.bh * r.across + c0 / r.bw + k).dedup

/-- The block whose view elements or scale hold the byte at a VA. -/
def ViewReg.viewBlockAt (r : ViewReg) (va : Nat) : Option Nat :=
  match rowsTouching r.vbase r.vstride (r.cols * r.ves) r.rows va 1 with
  | row :: _ => some (row / r.bh * r.across + (va - r.viewVa row 0) / r.ves / r.bw)
  | [] =>
    if r.rel = 0 ∧ r.sbase ≤ va ∧ (va - r.sbase) % r.sstride < r.scaleBytes then
      (List.range r.count).find? fun b =>
        decide (scaleIndex r.fmt r.log2row (r.viewVa (r.row0 b) (r.col0 b) - r.dbase) = (va - r.sbase) / r.sstride)
    else none

/-- The registered view block that holds the byte at a PA of space 0 (R379); SHARD views lie elsewhere. -/
def State.viewBlockOf (s : State) (pa : Nat) : Option (Nat × Nat) :=
  s.regs.findSome? fun p =>
    if p.2.rel = 2 then none else (p.2.vasOf pa).findSome? fun va => (p.2.viewBlockAt va).map fun b => (p.1, b)

/-- The registered block that holds the byte at a PA, one of a SHARD view too, for VIEWSTAT (R380, R385). -/
def State.statBlockOf (s : State) (pa : Nat) : Option (Nat × Nat) :=
  s.regs.findSome? fun p => (p.2.vasOf pa).findSome? fun va => (p.2.viewBlockAt va).map fun b => (p.1, b)

/-- The blocks that a write to a line tells of (R276), as registration and block. -/
def State.watchers (s : State) (line : Nat) : List (Nat × Nat) :=
  s.regs.flatMap fun p => (p.2.vasOf (128 * line)).flatMap fun va => (p.2.masterBlocks va 128).map fun b => (p.1, b)

/-- A watch stands on the granule of a line (R376). -/
def State.watched (s : State) (line : Nat) : Bool :=
  s.regs.any fun p => (p.2.vasOf (line / 32 * 4096)).any fun va =>
    !(rowsTouching p.2.mbase p.2.mstride (p.2.cols * p.2.es) p.2.rows va 4096).isEmpty

/-- The key of a block in State.blocks. -/
def blockKey (reg b : Nat) : Nat := reg * 2 ^ 20 + b

def State.block (s : State) (reg b : Nat) : ViewBlock := tget s.blocks (blockKey reg b) {}
def State.setBlock (s : State) (reg b : Nat) (x : ViewBlock) : State :=
  { s with blocks := tset s.blocks (blockKey reg b) x }

/-- covers(t, v) (R377). -/
def covers (t v : BitVec 16) : Bool := decide ((t - v).toNat < 2 ^ 15)

/-- The derivations that a hub holds queued (R378). -/
def derivSlots : Nat := 4096

/-- A block queued for derivation: in the queue, or behind it where no slot is free. DESIGN CHOICE (log 39). -/
def Hub.queueDeriv (u : Hub) (p : Nat × Nat) : Hub :=
  if u.derivQ.length < derivSlots then { u with derivQ := u.derivQ ++ [p] } else { u with derivWait := u.derivWait ++ [p] }

/-- Slots of the queue that are free go to the blocks behind it. -/
def Hub.fillDerivs (u : Hub) : Hub :=
  let n := derivSlots - u.derivQ.length
  { u with derivQ := u.derivQ ++ u.derivWait.take n, derivWait := u.derivWait.drop n }

/-- A stale notice can be taken: VER - TAG stays below 2^14, and the curator has a slot where one is needed (R377,
R378). -/
def State.canNotice (s : State) (reg b : Nat) : Bool :=
  match tfind s.regs reg with
  | none => true
  | some r =>
    let x := s.block reg b
    decide ((x.ver + 1 - x.tag).toNat < 2 ^ 14) &&
      (decide (x.st ≠ .fresh) || decide ((s.hub (r.home b)).derivQ.length < derivSlots))

/-- A stale notice reaches a block's home (R377). -/
def State.notice (s : State) (reg b : Nat) : State :=
  match tfind s.regs reg with
  | none => s
  | some r =>
    let x := s.block reg b
    let s0 := s.countHub (r.home b) 0x49 1
    match x.st with
    | .fresh =>
      let s1 := s0.setBlock reg b { x with ver := x.ver + 1, st := .stale }
      let s2 := s1.modHub (r.home b) fun u => u.queueDeriv (reg, b)
      if r.rel = 2 then s2 else (r.viewLines b).foldl State.recallLine s2
    | .stale => s0.setBlock reg b { x with ver := x.ver + 1 }
    | .deriving_ => s0.setBlock reg b { x with ver := x.ver + 1, redo := true }

/-- Each of the stale notices of a list can be taken behind those before it. -/
def State.canNotices (s : State) : List (Nat × Nat) → Bool
  | [] => true
  | p :: l => s.canNotice p.1 p.2 && (s.notice p.1 p.2).canNotices l

/-- Every block that a write to lines pa .. pa + n - 1 tells of can take its notices, and the home may send them (R276,
R377, R378, R397). -/
def State.canWriteMaster (s : State) (pa n : Nat) : Bool :=
  s.regs.isEmpty || spaceOf pa != 0 ||
    match (spanLines pa n).flatMap s.watchers with
    | [] => true
    | l => !s.resync && s.canNotices l

/-- Writes of spans, a PA and a length each, one behind the other, can all send their notices (R377, R378). -/
def State.canWriteAll (s : State) (l : List (Nat × Nat)) : Bool :=
  s.regs.isEmpty ||
    match (l.filter fun p => decide (spaceOf p.1 = 0)).flatMap fun p => (spanLines p.1 p.2).flatMap s.watchers with
    | [] => true
    | m => !s.resync && s.canNotices m

def State.canWriteTwo (s : State) (a b : Nat) : Bool := s.canWriteAll [(a, 8), (b, 8)]

/-- A stale notice sent from the home of a written line to a block's home: a causal packet (R276). -/
def State.sendNotice (s : State) (line reg b : Nat) : State :=
  let m := hubOfPa (128 * line)
  let v := match tfind s.regs reg with
    | some r => r.home b
    | none => m
  (if m = v then s else s.transmit (24 + m) (24 + v) 2 none).notice reg b

/-- A write at the home of its lines: the bytes, and a stale notice to every block with an element in a line (R276). -/
def State.homeWrite (s : State) (pa : Nat) (bs : List Byte) : State :=
  let lines := spanLines pa bs.length
  let w := (s.hbmUse (hubOfPa pa)).write pa bs
  let t : State := { w with dirty := lines.foldl tdel w.dirty }
  if s.regs.isEmpty || spaceOf pa ≠ 0 then t
  else lines.foldl (fun t l => (s.watchers l).foldl (fun t p => t.sendNotice l p.1 p.2) t) t

/-- A store by a die: in a line that it holds alone it makes its copy dirty, and the home keeps what it holds (R222,
R356). -/
def State.dieWrite (s : State) (die pa : Nat) (bs : List Byte) : State :=
  let note (t : Table DirtyLine) (l : Nat) : Table DirtyLine :=
    if s.dirOf l = .em die ∧ (tfind t l).isNone then t ++ [(l, ⟨memBytes s.mem (128 * l) 128, s.poisoned (128 * l) 128⟩)] else t
  { s.homeWrite pa bs with dirty := (spanLines pa bs.length).foldl note s.dirty }

/-- The lines of an L1, and of a coordinate cache, of 128 KiB (R12). -/
def cacheRoom : Nat := 1024

/-- A line in the cache of a core that its cache class names, the L1 or the coordinate cache (R61); the first one in leaves a
full one (log 6). -/
def Core.holdLine (c : Core) (cls line : Nat) (bad : Bool) : Core :=
  let put (l : Table Bool) : Table Bool :=
    if (tfind l line).isSome then l else l.drop (l.length + 1 - cacheRoom) ++ [(line, bad)]
  match cls with
  | 0 => { c with l1 := put c.l1 }
  | 2 => { c with coords := put c.coords }
  | _ => c

/-- A core's caches without a line (R222). -/
def Core.loseLine (c : Core) (line : Nat) : Core := { c with l1 := tdel c.l1 line, coords := tdel c.coords line }

/-- A core's copies of some lines, written whole, are no longer poisoned (R231). -/
def Core.cleanCopies (c : Core) (p : Nat → Bool) : Core :=
  let clear (m : Table Bool) : Table Bool := m.map fun e => if p e.1 then (e.1, false) else e
  { c with l1 := clear c.l1, coords := clear c.coords }

/-- The place of a die's line among the tags of lines. -/
def grantKey (die line : Nat) : Nat := 32 * line + die

/-- A die's L2 has a poisoned copy of a line that it holds: of a line poisoned at its home, or dirty and poisoned, unless it
was filled before the error; of another, where the error was in the copy (R230). -/
def State.l2Bad (s : State) (die line : Nat) : Bool :=
  if s.poisoned (128 * line) 1 then !s.goodCopies.contains (grantKey die line) else s.badCopies.contains (grantKey die line)

/-- A die's L2 copy of a line has the poison of the line itself. -/
def State.plainCopy (s : State) (die line : Nat) : State :=
  { s with
    badCopies := s.badCopies.filter (· ≠ grantKey die line)
    goodCopies := s.goodCopies.filter (· ≠ grantKey die line) }

/-- Of a line that another die holds alone, whether that die's copy is poisoned: what it forwards to a die that takes the line from
it (R230, R356). -/
def State.forwards (s : State) (die line : Nat) : Option Bool :=
  match s.dirOf line with
  | .em d => if d = die then none else some (s.l2Bad d line)
  | _ => none

/-- A die's new L2 copy of a line has the poison of the line itself, or, where it alone holds the line, that of the copy which was
forwarded to it (R230, R356). -/
def State.newCopy (s : State) (die line : Nat) (fwd : Option Bool) : State :=
  let t := s.plainCopy die line
  match fwd with
  | none => t
  | some bad =>
    if t.dirOf line ≠ .em die ∨ bad = t.poisoned (128 * line) 1 then t
    else if bad then { t with badCopies := t.badCopies ++ [grantKey die line] }
    else { t with goodCopies := t.goodCopies ++ [grantKey die line] }

/-- A line that an access of a core has left on its die, in the cache of its class; a miss brought it anew, and no cache of
the die had it before (R61, R222). -/
def State.fillCopy (s : State) (core cls : Nat) (miss : Bool) (fwd : Option Bool) (line : Nat) : State :=
  let die := core / 32
  if !hitState die false (s.dirOf line) then s
  else
    let s1 : State := if miss then { s.newCopy die line fwd with
        cores := s.cores.map fun p => if p.1 / 32 = die then (p.1, p.2.loseLine line) else p }
      else s
    if cls = 0 ∨ cls = 2 then s1.modCore core fun c => c.holdLine cls line (s1.l2Bad die line) else s1

/-- An access of a core to a line that its L1, or its coordinate cache, does not have, counted (R401). -/
def State.countMiss (s : State) (core cls line : Nat) (there : Bool) : State :=
  let has (m : Table Bool) : Bool := there && (tfind m line).isSome
  if cls = 0 ∧ !has (s.core core).l1 then s.countCore core 0x0A 1
  else if cls = 2 ∧ !has (s.core core).coords then s.countCore core 0x0B 1 else s

/-- What an access of a core reads of a line is poisoned: the copy in the cache of its class, or the L2's; or, where its die
holds none, the line (R230). -/
def State.readBad (s : State) (core cls line : Nat) : Bool :=
  if hitState (core / 32) false (s.dirOf line) then
    match tfind (if cls = 2 then (s.core core).coords else (s.core core).l1) line with
    | some b => b
    | none => s.l2Bad (core / 32) line
  else s.poisoned (128 * line) 1

/-- A store has gone through a core's caches to the L2 (R222, R231): the other cores of the die lose their copies; one that
writes a whole line clears its poison, and one that writes a part of a poisoned copy leaves the line poisoned. -/
def State.wroteCopy (s : State) (core pa n : Nat) : State :=
  let die := core / 32
  (spanLines pa n).foldl (fun (t : State) l =>
    if !hitState die true (t.dirOf l) then t
    else
      let whole := decide (pa ≤ 128 * l) && decide (128 * l + 128 ≤ pa + n)
      let u : State := { t.plainCopy die l with
        cores := t.cores.map fun p => if p.1 = core then (p.1, if whole then p.2.cleanCopies (· = l) else p.2)
          else if p.1 / 32 = die then (p.1, p.2.loseLine l) else p }
      u.setPoison l (t.l2Bad die l && !whole)) s

/-- The home value of a line comes back: the dirty copy is dropped without a write-back (R251). -/
def State.discardLine (s : State) (line : Nat) : State :=
  match tfind s.dirty line with
  | none => s
  | some d => { (s.poke (128 * line) d.data).setPoison line d.poison with dirty := tdel s.dirty line }

/-- What the host has given of a line is used by one access (R358, R359). -/
def State.useGot (s : State) (line : Nat) : State :=
  if s.hostGot.isEmpty then s else { s with hostGot := s.hostGot.filter fun k => k / 2 ≠ line }

/-- How an access finds its line: done, held at the home of a line, or refused because its ASN is tainted (R396). -/
inductive Touch where
  | ok (s : State)
  | held (line : Nat)
  | lost (die : Nat)
  deriving DecidableEq, Repr

/-- What an access does to the directory: a die takes a copy, or the line alone; or the access is performed at the home; or
at the host, for an NC page of host memory (R217); or it reads at the home and passes, or writes there and passes. -/
inductive Want where
  | read | own | home | host | pass | put
  deriving DecidableEq, Repr

/-- The access leaves the die a copy. -/
def Want.keeps : Want → Bool
  | .read => true
  | .own => true
  | _ => false

/-- The access where no cache of its die allocates on a miss (R61, class 3). -/
def Want.noAlloc : Want → Want
  | .read => .pass
  | .own => .put
  | w => w

/-- The access is a miss, which a tag of another access to the frame makes a synonym switch (R223). -/
def Want.isMiss : Want → Bool
  | .home => false
  | .host => false
  | _ => true

def Want.next (w : Want) (die : Nat) (watched : Bool) (d : DirSt) : Option DirSt :=
  match w with
  | .read => readState die watched d
  | .own => ownState die watched d
  | .home => homeState d
  | .host => homeState d
  | .pass => passState d
  | .put => homeState d

/-- The request of an access that leaves its die: to the translating hub, and on to the bridge hub for host memory (R217,
R271). -/
def State.request (s : State) (die hub line : Nat) (asn : BitVec 16) : State :=
  let t := s.transmit die (24 + hub) 0 (some asn)
  if spaceOf (128 * line) = 1 ∧ bridgeOf hub ≠ hub then t.transmit (24 + hub) (24 + bridgeOf hub) 0 none else t

/-- The reply to such a request (R271). -/
def State.reply (s : State) (die hub line : Nat) : State :=
  let t := if spaceOf (128 * line) = 1 ∧ bridgeOf hub ≠ hub then s.transmit (24 + bridgeOf hub) (24 + hub) 3 none else s
  t.transmit (24 + hub) die 3 none

/-- A request that leaves a die and its reply, with nothing done for it at the home. -/
def State.travel (s : State) (die hub line : Nat) (asn : BitVec 16) : State := (s.request die hub line asn).reply die hub line

/-- What a leaf grants to a line of a die, as the line's tag holds it: W, S, X and VC (R353). -/
def lineGrant (pte : Word) : BitVec 4 :=
  (if pte.getLsbD 1 then 1 else 0) ||| (if pte.getLsbD 3 then 2 else 0) ||| (if pte.getLsbD 2 then 4 else 0) |||
    (if pte.getLsbD 6 then 8 else 0)

/-- The tag permits the access (R353). -/
def grantPermits (g : BitVec 4) (sup : Bool) (acc : Access) : Bool :=
  (sup || !g.getLsbD 1) && match acc with
    | .load => true
    | .store => g.getLsbD 0 && !g.getLsbD 3
    | .fetch => g.getLsbD 2

/-- A die holds a line, with the rights that an access needs, under the tag of the access (R222, R223). -/
def State.holdsUnder (s : State) (die : Nat) (asn : BitVec 16) (glob : Bool) (granule : Nat) (own : Bool) (line : Nat) : Bool :=
  hitState die own (s.dirOf line) && (tget s.tags (line / 32) ⟨asn, glob, granule⟩).serves asn glob granule

/-- The privilege and the kind of an access, which a line's tag permits or not (R353). -/
structure Ask where
  sup : Bool
  acc : Access
  deriving DecidableEq, Repr

/-- The tag of a die's line permits an access (R353). -/
def State.tagAllows (s : State) (die line : Nat) (q : Ask) : Bool :=
  match tfind s.grants (grantKey die line) with
  | some g => grantPermits g q.sup q.acc
  | none => false

/-- The directory's part in an access from a die to a line, of which it needs some halves. A hit that the line's tag permits
stays on the die. A miss, and a hit that it refuses, goes to the hub: it waits during a resync, in a flip, where the host must
first give the halves, and for a synonym switch that must wait (R223, R353, R356, R358 to R360, R396, R406). -/
def State.touchLine (s : State) (die : Nat) (asn : BitVec 16) (glob : Bool) (granule line : Nat) (w : Want) (q : Ask)
    (grant : BitVec 4) (need : List Nat) : Touch :=
  if w.keeps && s.holdsUnder die asn glob granule (w == .own) line && s.tagAllows die line q then .ok s
  else match lowestDie (s.taint asn) with
    | some d => .lost d
    | none =>
      if s.resync || s.flipHolds (128 * line) || (w != .host && s.atHost line need) then .held line
      else
        let hub := hubOf (granule * 4096)
        let frame := line / 32
        let switch := w.isMiss && s.switches frame asn glob granule
        match if switch then s.switchWaits frame else none with
        | some l => .held l
        | none =>
          let s1 := (if w.isMiss then s.countAgent die 0x20 0xFF else s).request die hub line asn
          let s2 := if switch || w.keeps then s1.retag frame asn glob granule else s1
          match w.next die (s.watched line || decide (spaceOf (128 * line) = 2)) (s2.dirOf line) with
          | none => .held line
          | some d =>
            let s3 := ((s2.moveDir (homeHub hub line) line d).useGot line).reply die hub line
            .ok ((if w.keeps then { s3 with grants := tset s3.grants (grantKey die line) grant } else s3).freeTag frame)

/-- The granule of the VA at which an access to va, at pa, finds a line. -/
def granuleAt (va pa line : Nat) : Nat := (va + (128 * line - pa)) / 4096

/-- The lines an access touches, in ascending order; `grant` is what its leaf gives a line that its die keeps. -/
def State.touchLines (s : State) (die : Nat) (asn : BitVec 16) (glob : Bool) (va pa n : Nat) (w : Want) (q : Ask)
    (grant : BitVec 4) : Touch :=
  (spanLines pa n).foldl (fun r l =>
    match r with
    | .ok t => t.touchLine die asn glob (granuleAt va pa l) l w q grant (if w.keeps then lineHalves l else halvesOf l pa n)
    | x => x) (.ok s)

/-- A line that a die holds under the tag of an access to a VA, with what its tag permits (R222, R353). -/
def State.tagHit (s : State) (die : Nat) (asn : BitVec 16) (own : Bool) (va : Nat) : Option (Nat × BitVec 4 × Bool) :=
  s.tags.findSome? fun p =>
    let line := 32 * p.1 + va % 4096 / 128
    if p.2.serves asn p.2.glob (va / 4096) && hitState die own (s.dirOf line) then
      (tfind s.grants (grantKey die line)).map fun g => (4096 * p.1 + va % 4096, g, p.2.glob)
    else none

/-- A leaf as the tag of a line that it filled has it: W, S, X and VC, and the global mark (R222, R353). -/
def tagLeaf (g : BitVec 4) (glob : Bool) : Word :=
  1 ||| (if g.getLsbD 0 then 2 else 0) ||| (if g.getLsbD 2 then 4 else 0) ||| (if g.getLsbD 1 then 8 else 0) |||
    (if glob then 0x10 else 0) ||| (if g.getLsbD 3 then 0x40 else 0)

end Sys2Proof.Machine
end

