-- ==== Sys2Proof/Machine/Page.lean ====
section
/-! DEFINITION. Sys2Proof/Machine/Page.lean: the translation of an access by its hub, with the A and D bits and what the hub
keeps (R219, R220, R350 to R352). -/

namespace Sys2Proof.Machine

/-- The key under which a hub queues the accesses to the page of a VA (R282, R362). -/
def State.pageKeyOf (s : State) (asn : BitVec 16) (va : Nat) : Nat :=
  match s.findLeaf asn va with
  | .leaf pte n _ => pageKey (ptePFN pte * 4096) n va
  | _ => walkKey asn va

/-- The line at which the translation of a VA waits: that of a table entry (R352, R356). -/
def State.walkWaits (s : State) (asn : BitVec 16) (va : Nat) : Option Nat :=
  match s.findLeaf asn va with
  | .held l => some l
  | .leaf _ _ pa => if s.homeWaits pa 8 || s.waitsTurn (walkPlace (hubOf va)) (lineOf pa) then some (lineOf pa) else none
  | _ => none

/-- The key of a read of a view block that waits in the quarantine of its home (R417), and what it names: the hub, the
registration and the block. -/
def readKey (hub : Nat) (view : Nat × Nat) : Nat := 2 ^ 62 + 8 * blockKey view.1 view.2 + hub
def keyRead (key : Nat) : Option (Nat × Nat × Nat) :=
  if key < 2 ^ 62 then none else some (key % 8, (key - 2 ^ 62) / 8 / 2 ^ 20, (key - 2 ^ 62) / 8 % 2 ^ 20)

/-- The hub of a CXL port (R424). -/
def hubOfPort (port : Nat) : Nat := if port = 0 then 0 else 4

/-- The address that a host access names. -/
def HostReq.at_ : HostReq → HostAddr
  | .read a _ => a
  | .write a _ => a

/-- The agent of a requester: the die of a hart, an engine's own, the hub of a host access's port, the die of a request for a
line. -/
def State.agentOf (s : State) (r : Nat) : Nat :=
  if r < 2 ^ 32 then (s.harts[r]?.getD {}).die
  else if r < 2 ^ 33 then (r - 2 ^ 32) / 8
  else match s.hostHeld.find? fun p => p.1 == r, s.lineReqs.find? fun q => q.place == r with
    | some (_, q), _ => (match q.at_ with
      | .window port _ => 24 + hubOfPort port
      | .bar port _ => 24 + hubOfPort port
      | .memory _ => 24)
    | none, some q => q.die
    | none, none => 24

/-- A requester takes its place in the queue of a line or page, where it has none: in that of a page in the stead of one for a walk
at its hub; and for a walk its hub's translator takes one at the line that the walk waits for. A view read of an agent takes an entry
of a quarantine. -/
def State.queueAs (s : State) (r agent key : Nat) : State :=
  match keyRead key with
  | some (hub, view) => s.holdReader r hub agent view
  | none =>
    let add (l : List (Nat × Nat)) (p : Nat × Nat) : List (Nat × Nat) := if l.contains p then l else l ++ [p]
    let rest := match keyPage key with
      | some (_, _, h) => s.holds.filter fun p => !(p.2 == r && (keyWalk p.1).any fun q => decide (hubOf q.2 = h))
      | none => s.holds
    let l := add rest (key, r)
    { s with holds := match (keyWalk key).bind fun p => (s.walkWaits p.1 p.2).map fun k => (k, walkPlace (hubOf p.2)) with
      | some p => add l p
      | none => l }

def State.queueUp (s : State) (r key : Nat) : State := s.queueAs r (s.agentOf r) key

/-- An access that has just arrived takes the next place number, and waits under a key (R282). -/
def State.queueNew (s : State) (agent key : Nat) : State := { s.queueAs s.newPlace agent key with places := s.places + 1 }

/-- A waiting access that has come to wait elsewhere takes its place there too; none where it stands there already. -/
def State.requeue (s : State) (r key : Nat) : Option State :=
  let t := s.queueUp r key
  if t.holds = s.holds ∧ t.clocks = s.clocks then none else some t

/-- An access with a place of its own waits nowhere any more. -/
def State.endPlace (s : State) (r : Nat) : State := { s with holds := s.holds.filter fun p => p.2 != r }.unread r

/-- A requester's accesses have left the queues of some lines or pages. -/
def State.leaveHolds (s : State) (r : Nat) (keys : List Nat) : State :=
  if s.holds.isEmpty then s else { s with holds := s.holds.filter fun p => !(p.2 == r && keys.contains p.1) }

/-- The queue of a page in which another requester's access comes before this one's (R282, R362). One that has its place in the
queue of the page waits for no walk. -/
def State.pageTurn (s : State) (r : Nat) (asn : BitVec 16) (va : Nat) : Option Nat :=
  if s.holds.isEmpty then none
  else
    let k := s.pageKeyOf asn va
    (if s.holds.contains (k, r) then [k] else [k, walkKey asn va]).find? (s.waitsTurn r)

/-- A requester waits for the page of a VA no more. -/
def State.leavePage (s : State) (r : Nat) (asn : BitVec 16) (va : Nat) : State :=
  if s.holds.isEmpty then s else s.leaveHolds r [s.pageKeyOf asn va, walkKey asn va]

/-- The leaves that a hub translator holds (R352). -/
def tlbRoom : Nat := 65536

/-- The bits of a PTE that an access sets: A, and D for a store (R219). -/
def pteMarks (acc : Access) : Word := 0x8000000000000000 ||| (if acc = .store then 0x800 else 0)

/-- The OR of A and D at the PTE's home cannot be performed yet, for the hub of a VA (R352, R356, R397). -/
def State.marksWait (s : State) (acc : Access) (va : Nat) (pte : Word) (ptePa : Nat) : Bool :=
  pte &&& pteMarks acc != pteMarks acc && (s.resync || s.homeWaits ptePa 8 || !s.canWriteMaster ptePa 8 ||
    s.waitsTurn (walkPlace (hubOf va)) (lineOf ptePa))

/-- A hub's access to lines at their homes: a packet to each home that is another hub, and its reply (R271). -/
def State.askHomes (s : State) (hub : Nat) (homes : List Nat) : State :=
  ((homes.filter (· ≠ hub)).dedup).foldl (fun t k => t.exchange (24 + hub) (24 + k) none) s

/-- The homes of the table entries that a hub reads for a VA. -/
def State.tableHomes (s : State) (asn : BitVec 16) (va : Nat) : List Nat := (s.tableReads asn va).map hubOfPa

/-- What a hub does to find the leaf of a VA: its reads of table entries at their homes, which it waits for no more; the count
of the walk, where its translator holds no leaf; and the snapshot of the ASN entry that it keeps (R271, R350, R352, R401). -/
def State.noteWalk (s : State) (asn : BitVec 16) (va : Nat) : State :=
  let hub := hubOf va
  let homes := s.tableHomes asn va
  let t := (homes.foldl State.hbmUse (s.askHomes hub homes)).leaveHolds (walkPlace hub) ((s.tableReads asn va).map lineOf)
  (if ((s.hub hub).tlbFind asn va).isSome then t else t.countHub hub 0x48 1).noteAsn asn va

/-- A hub's read of the ASN entry of a VA alone, which it keeps (R271, R350, R401). -/
def State.noteEntry (s : State) (asn : BitVec 16) (va : Nat) : State :=
  let hub := hubOf va
  let pa := asnEntryPa (s.hub hub) asn
  if (tfind (s.hub hub).asnSnaps asn.toNat).isSome then s
  else (((s.askHomes hub [hubOfPa pa]).hbmUse (hubOfPa pa)).leaveHolds (walkPlace hub) [lineOf pa]).noteAsn asn va

/-- A and D set by an atomic OR at the PTE's home where the held leaf lacks them, and the leaf kept (R219, R352). -/
def State.noteLeaf (s : State) (asn : BitVec 16) (acc : Access) (va : Nat) (pte : Word) (sizeBits ptePa : Nat) : State :=
  let want := pteMarks acc
  let s1 := if pte &&& want = want then s
    else ((((s.askHomes (hubOf va) [hubOfPa ptePa]).recallLine (lineOf ptePa)).useGot (lineOf ptePa)).leaveHolds
      (walkPlace (hubOf va)) [lineOf ptePa]).homeWrite ptePa (leBytes 8 (BitVec.ofNat 64 (s.peek ptePa 8) ||| want).toNat)
  let u := s1.hub (hubOf va)
  let e : TlbEntry := ⟨asn, pteG pte, va / 2 ^ sizeBits * 2 ^ sizeBits, sizeBits, pte ||| want, ptePa⟩
  let rest := u.tlb.filter fun t =>
    !(t.asn == e.asn && t.glob == e.glob && decide (t.vbase = e.vbase) && decide (t.sizeBits = e.sizeBits))
  s1.setHub (hubOf va) { u with tlb := rest.drop (rest.length + 1 - tlbRoom) ++ [e] }

/-- An access to a VA of 48 bits by its hub translator (R220, R350 to R352). A resync holds one whose tables stand with other
hubs (R397). -/
def State.translate (s : State) (asn : BitVec 16) (sup : Bool) (acc : Access) (va : Nat) : Trans :=
  if s.resync && (s.tableHomes asn va).any (· ≠ hubOf va) then .held (walkKey asn va)
  else match s.findLeaf asn va with
  | .poison => .poison
  | .held _ => .held (walkKey asn va)
  | .invalid => .fault (if acc = .store then causeSTORE_PAGE else causeLOAD_PAGE) 0
  | .leaf pte sizeBits ptePa =>
    if pteMIG pte then
      (if ptePFN pte * 4096 % 2 ^ sizeBits ≠ 0 ∨ beyondSpace (ptePFN pte * 4096) then
        .fault (if acc = .store then causeSTORE_PAGE else causeLOAD_PAGE) 0
       else .held (pageKey (ptePFN pte * 4096) sizeBits va))
    else match checkLeaf sup acc va pte sizeBits with
      | some (c, r) => .fault c r
      | none =>
        if s.marksWait acc va pte ptePa then .held (walkKey asn va)
        else .ok ((s.noteWalk asn va).noteLeaf asn acc va pte sizeBits ptePa)
          (ptePFN pte * 4096 + va % 2 ^ sizeBits) pte

/-- Who met a fault: its ASN, and for a hart its die and where its image lies. -/
structure FaultBy where
  asn : BitVec 16
  die : Option Nat := none
  image : Nat := 0
  deriving DecidableEq, Repr

/-- The causes that an access meets behind its translation, or in a table (R220, R257, R352). -/
def lateCauses : List (BitVec 8) :=
  [causeDATA_POISON, causeVIEW_STALE, causeVIEW_POISON, causeATOMIC_ROUTE, causeREMOTE_LOST, causeDIE_LOST]

/-- A trap names the address of an access that a hub translated: not one in lane memory, one of a register store, or one that
its die served by a line's tag. -/
def State.translated (s : State) (w : FaultBy) (t : Trap) : Bool :=
  let a := t.taddr.toNat
  let reason := bitsOf t.tinfo.toNat 4 4
  let lane := t.tinfo.getLsbD 0 && t.cause != causeFORMAT_REC
  decide (a < 2 ^ 48) && !lane &&
    (t.cause == causeFORMAT_REC || t.cause == causeLOAD_PAGE || t.cause == causeSTORE_PAGE ||
      (t.cause == causePROTECT && decide (1 ≤ reason) && decide (reason ≤ 4)) ||
      (lateCauses.contains t.cause && !(decide (w.image ≤ a) && decide (a < w.image + Config.imageBytes) && t.cause == causeDATA_POISON) &&
        (w.die.bind fun d => s.tagHit d w.asn false a).isNone))

/-- An access that faults keeps the snapshot of the ASN entry that it used, as one that passes does (R350), and its walk counts:
at its trap, for the address that TADDR or, for a fetch, TADDR2 names, and for the granules of fault batching. -/
def State.noteFault (s : State) (w : FaultBy) (t : Trap) (pages : List FaultPage) : State :=
  let note (u : State) (a : Nat) : State := if a < 2 ^ 48 then u.noteWalk w.asn a else u
  let s1 := if s.translated w t then note s t.taddr.toNat else if t.cause = causeFETCH_FAULT then note s t.taddr2.toNat else s
  pages.foldl (fun u p => note u (4096 * p.gran.toNat)) s1

/-- Hart h as one that meets a fault. -/
def State.faulter (s : State) (h : Nat) : FaultBy :=
  let x := s.harts[h]?.getD {}
  { asn := x.asn, die := some x.die, image := x.imgbase }

/-- A probe of R296: the checks of R220 alone, with nothing recorded and no hold. -/
def State.probe (s : State) (asn : BitVec 16) (sup : Bool) (acc : Access) (va : Nat) : Option (BitVec 8 × Nat) :=
  match s.findLeaf asn va with
  | .poison => none
  | .held _ => none
  | .invalid => some (if acc = .store then causeSTORE_PAGE else causeLOAD_PAGE, 0)
  | .leaf pte sizeBits _ => checkLeaf sup acc va pte sizeBits

/-- Some line of an access made at the home cannot be served yet (R356, R358 to R360). -/
def State.spanWaits (s : State) (pa n : Nat) : Bool :=
  (spanLines pa n).any fun l => (s.dirOf l).busy || s.flipHolds (128 * l) || s.atHost l (halvesOf l pa n)

/-- The lines of an access made at the home without a die: every die copy is recalled, and what the host gave is used. -/
def State.takeHome (s : State) (pa n : Nat) : State :=
  (spanLines pa n).foldl (fun t l => (t.recallLine l).useGot l) s

/-- A place at homes is given up. -/
def State.leaveAll (s : State) (r : Nat) : State :=
  if s.holds.isEmpty then s else { s with holds := s.holds.filter fun p => p.2 != r }

/-- An access to a PA waits nowhere any more (R356, R362). -/
def State.leavePa (s : State) (r pa : Nat) : State :=
  if s.holds.isEmpty then s
  else { s with holds := s.holds.filter fun p => !(p.2 == r && (decide (p.1 = lineOf pa) || keyHolds p.1 pa)) }

/-- The key under which an access that names n bytes of a line by their PA has to wait: for a migration, or behind the accesses that
wait for its page; for its line, which an engine writes or the host has, in a flip, or in its turn; or for the end of a resync (R282,
R356 to R362, R397). A store waits for its notices too (R377). -/
def State.paWaits (s : State) (r pa n : Nat) (store : Bool) : Option Nat :=
  match s.migHolds pa with
  | some k => some k
  | none => match s.holds.find? fun p => (keyHolds p.1 pa || (p.2 == r && (keyPage p.1).isSome)) && s.waitsTurn r p.1 with
    | some p => some p.1
    | none => if s.resync || s.homeWaits pa n || (store && !s.canWriteMaster pa n) || s.waitsTurn r (lineOf pa) then some (lineOf pa)
      else none

/-- Package id of a PA of space 2 (R217), and the rail its port leads to: port P mod 8 of the translating hub (R428). -/
def peerOf (pa : Nat) : Nat := bitsOf pa 44 10
def railOf (hub pa : Nat) : Nat := 8 * hub + peerOf pa % 8

/-- A package of the domain can be reached from a hub (R428). -/
def State.reachable (s : State) (va pa : Nat) : Bool := !s.deadRails.contains (railOf (hubOf va) pa)

end Sys2Proof.Machine
end

