-- ==== Sys2Proof/Machine/Image.lean ====
section
/-! DEFINITION. Sys2Proof/Machine/Image.lean: context images: their layout, their writing and reading, and the register stores that
hold their lines (R86, R107, R108, R110, R111). -/

namespace Sys2Proof.Machine

/-- The saved form of a queue entry's first position, and of a continuation (R108), from its instruction word;
FDOT's partial sum stands in the captured scalar's place (R188). -/
def QEntry.saved (e : QEntry) (k : Nat) (word : Nat) : Nat :=
  let mark := (if k = 0 then 0 else 2 ^ 18) + (if e.part then 2 ^ 19 else 0) + (if e.prv then 2 ^ 20 else 0)
  let scalar := match e.instr with
    | .fdot _ => e.acc
    | _ => e.cap k
  word % 2 ^ 96 + 2 ^ 96 * scalar.toNat + 2 ^ 160 * (e.vd % 64 + 64 * (e.va % 64) + 4096 * (e.vb % 64) + mark)

/-- A binding in the layout of R332. -/
def Stream.image (q : Stream) : Nat :=
  packElems 64 [q.kind.toNat + 16 * q.w.toNat + 256 * q.link.toNat + (if q.capt then 2048 else 0) + 4096 * q.cls.toNat,
    q.base.toNat, q.stride.toNat, q.vbase.toNat, q.count.toNat, q.pos.toNat, q.sub.toNat, 0]

/-- FCSR, VPROG, TSTATUS, VTYPE and TVQP as the words that MFS reads (R95 to R102). -/
def Fcsr.word (f : Fcsr) : Nat := f.rm.toNat + 256 * f.flags.toNat + 65536 * f.en.toNat
def Vprog.word (p : Vprog) : Nat :=
  p.cnt.toNat + 2 ^ 16 * p.posb.toNat + 2 ^ 36 * p.posa.toNat + 2 ^ 56 * p.tag.toNat + 2 ^ 62 * p.full.toNat +
    2 ^ 63 * p.v.toNat
def Tstatus.word (t : Tstatus) : Nat :=
  t.pp.toNat + 2 * t.ie.toNat + 4 * t.pie.toNat + 8 * t.csb.toNat + 16 * t.vfrz.toNat + 32 * t.mfrz.toNat
def Vtype.word (t : Vtype) : Nat := t.sew.toNat + 16 * t.lmul.toNat
def Hart.tvqp (x : Hart) : Nat := x.tvqpPos.toNat + 65536 * x.tvqpV.toNat
def FaultPage.word (p : FaultPage) : Nat := p.cause.toNat + 256 * p.st.toNat + 4096 * p.gran.toNat

/-- The hart word of the image (R107). -/
def Hart.word (x : Hart) : Nat :=
  x.sup.toNat + 2 * x.waiting.toNat + 4 * x.bound.toNat + 8 * x.ending.toNat + 16 * x.wake.toNat

/-- The positions of a list of entries written to the saved slots from a position on (R108, R291). -/
def saveSlots : List QEntry → Nat → Table SavedSlot → Table SavedSlot
  | [], _, t => t
  | e :: r, p, t =>
    let t1 := tset t (p % 64) (.head { e with stage := .waiting, seg := none })
    let t2 := (List.range (e.size - 1)).foldl (fun t k => tset t ((p + k + 1) % 64) .cont) t1
    saveSlots r (p + e.size) t2

/-- The occupied slots of the saved queue: the parked block while VFRZ is set, and the live entries otherwise (R99, R108,
R291). -/
def Hart.slots (x : Hart) : Table SavedSlot :=
  if x.tstatus.vfrz then x.saved else saveSlots x.queue x.vcp.toNat []

/-- What slot k of the saved queue holds (R108). -/
def Hart.slotImage (x : Hart) (word : Instr → Nat) (k : Nat) : Nat :=
  ((List.range 4).findSome? fun j => match tfind x.slots ((k + 64 - j) % 64) with
    | some (.head e) => if j < e.size then some (e.saved j (word e.instr)) else none
    | _ => none).getD 0

/-- The fields of the image: offset, bytes and value (R107). -/
def Hart.fields (x : Hart) (word : Instr → Nat) : List (Nat × Nat × Nat) :=
  let slot (k : Nat) : Nat × Nat × Nat := (0x400 + 24 * k, 24, x.slotImage word k)
  [(0, 512, packElems 64 (x.s.toList.map BitVec.toNat)), (0x200, 8, x.p.toNat), (0x208, 8, x.pc.toNat), (0x210, 8, x.word),
    (0x220, 8, x.vl), (0x228, 8, x.vtype.word), (0x230, 8, x.vstart.toNat), (0x238, 8, x.fcsr.word),
    (0x240, 8, x.vcp.toNat), (0x248, 8, x.vqtail.toNat), (0x250, 8, x.taskid.toNat), (0x258, 8, x.stripbase.toNat),
    (0x260, 8, x.striplen.toNat), (0x268, 8, x.tcause.toNat), (0x270, 8, x.tpc.toNat), (0x278, 8, x.tvqp),
    (0x280, 8, x.taddr.toNat), (0x288, 8, x.taddr2.toNat), (0x290, 8, x.tinfo.toNat), (0x298, 8, x.tstatus.word),
    (0x2A0, 32, packElems 64 (x.tscr.toList.map BitVec.toNat)), (0x2C0, 8, x.fbn), (0x2C8, 8, x.asn.toNat),
    (0x2D0, 8, x.tvec.toNat), (0x300, 128, packElems 64 ((x.fb.take x.fbn).map FaultPage.word)), (0xA00, 64, x.fmask.toNat),
    (0xC00, 512, packElems 512 (x.m.toList.map BitVec.toNat)), (0xE00, 128, x.vsegOff.toNat), (0xE80, 8, x.vsegCount),
    (0xE88, 8, x.vprog.word), (0xE90, 32, packElems 16 (x.fib.toList.map Fibre.occ)),
    (0x1000, 512, packElems 512 (x.q.toList.map Stream.image)), (0x1200, 5120, x.pbuf.toNat), (0x2600, 128, x.pspec.toNat)]
  ++ (List.range 64).map slot
  ++ (List.range 64).map (fun n => (0x3000 + 512 * n, 512, (x.vreg n).toNat))
  ++ (List.range 16).map fun n => (0xB000 + 2048 * n, 2048, (x.fibreReg n).pairs.toNat)

/-- The word an instruction was fetched as (R108). -/
def instrWord (i : Instr) : Nat :=
  match i.parts with
  | none => 0
  | some (g, op, o) =>
    g * 2 ^ 92 + op * 2 ^ 86 + o.gn.toNat * 2 ^ 85 + o.gp.toNat * 2 ^ 81 + o.d.toNat * 2 ^ 73 + o.a.toNat * 2 ^ 65 +
      o.b.toNat * 2 ^ 57 + o.mskE.toNat * 2 ^ 56 + o.mskM.toNat * 2 ^ 53 + o.w.toNat * 2 ^ 49 + o.stall.toNat * 2 ^ 45 +
      o.hintY.toNat * 2 ^ 44 + o.hintL.toNat * 2 ^ 43 + o.hintC.toNat * 2 ^ 41 + o.f.toNat * 2 ^ 33 + o.i.toNat * 2 ^ 32 +
      o.imm.toNat

/-- Line k of an image, from its fields; the ranges that no field covers are reserved and 0 (R107). -/
def imageLine (fs : List (Nat × Nat × Nat)) (k : Nat) : Nat :=
  fs.foldl (fun v f =>
    if f.1 + f.2.1 ≤ 128 * k ∨ 128 * k + 128 ≤ f.1 then v
    else v + (if 128 * k ≤ f.1 then f.2.2 * 2 ^ (8 * (f.1 - 128 * k)) else f.2.2 / 2 ^ (8 * (128 * k - f.1))) % 2 ^ 1024) 0

/-- The lines of an image (R107). -/
def imageLines : Nat := 608

/-- What the register store of the hart's core notes of a line of its image; a line it notes nothing of has been there
since the hart was first bound, and is modified (R109, R110). -/
def State.storeLine (s : State) (h k : Nat) : Option StoreLine :=
  (s.core (s.hart h).coreNo).store.find? fun l => l.hart == h && l.line == k

/-- The register store of the hart's core holds lines of its image: it is bound there, or has left its slot and its lines are
evictable (R110). -/
def Hart.resident (x : Hart) : Bool := x.bound || x.leftAt.isSome

/-- The state of a line of a hart's image (R110). -/
def State.lineState (s : State) (h k : Nat) : LineSt :=
  if !(s.hart h).resident || (s.storeLine h k).any StoreLine.absent then .absent
  else if (s.hart h).bound then .pinned else .evictable

/-- A line of the image is present and modified (R110). -/
def StoreLine.dirty (l : Option StoreLine) (v : Nat) : Bool :=
  match l with
  | some l => !l.absent && l.clean != some v
  | none => true

/-- The bytes of an image write: a line's, or the byte of the hart word with its wake flag set (R107, R329). -/
def State.imgBytes (s : State) (w : ImgWrite) : List Byte := w.data.getD [BitVec.ofNat 8 (Nat.lor (s.peek w.pa 1) 0x10)]

/-- Bytes of an image go from a die to their home and are written there (R110, R271). -/
def State.imgSend (s : State) (w : ImgWrite) : State :=
  let hub := 24 + hubOfPa w.pa
  let bs := s.imgBytes w
  let t := ((((s.leavePa w.place w.pa).transmit w.die hub 3 none).transmit hub w.die 1 none).takeHome w.pa bs.length).homeWrite w.pa bs
  if w.poison then t.setPoison (lineOf w.pa) true else t

/-- The key under which an image write waits at its home (R356 to R362). -/
def State.imgWaits (s : State) (w : ImgWrite) : Option Nat := s.paWaits w.place w.pa (s.imgBytes w).length true

/-- Bytes of the image of hart h written from a die: at once, or when their home can serve them, behind those of the same line. -/
def State.imgWrite (s : State) (h die pa : Nat) (data : Option (List Byte)) (poison : Bool) : State :=
  let w : ImgWrite := ⟨s.newPlace, h, die, pa, data, poison⟩
  match (if s.imgOut.any fun q => lineOf q.pa == lineOf pa then some (lineOf pa) else s.imgWaits w) with
  | some k => { s.queueNew die k with imgOut := s.imgOut ++ [w] }
  | none => s.imgSend w

/-- The first image write that can be served now; or one that has come to wait elsewhere. -/
def State.imgMove (s : State) : Option State :=
  match s.imgOut.find? fun w => (s.imgWaits w).isNone with
  | some w => some (({ s with imgOut := s.imgOut.erase w } : State).imgSend w |>.leaveAll w.place)
  | none => s.imgOut.findSome? fun w => (s.imgWaits w).bind (s.requeue w.place)

/-- Line k written back to the image, with its poison (R110, R111). -/
def State.writeLine (s : State) (h k v : Nat) : State :=
  let x := s.hart h
  s.imgWrite h x.die (x.imgbase + 128 * k) (some (leBytes 128 v)) (decide (tget x.rsPoison k 0 ≠ 0))

/-- The modified lines of a hart's image written back (R110). -/
def State.saveImage (s : State) (h : Nat) (word : Instr → Nat) : State :=
  let fs := (s.hart h).fields word
  (List.range imageLines).foldl (fun t k =>
    let v := imageLine fs k
    if StoreLine.dirty (s.storeLine h k) v then t.writeLine h k v else t) s

/-- A slot of the saved queue as its image has it (R108): a slot outside the parked block is ignored, and a word that is no
instruction is no entry. -/
def Hart.restoreSlot (x : Hart) (k v : Nat) : Hart :=
  let cap : Word := BitVec.ofNat 64 (v / 2 ^ 96)
  let mark := v / 2 ^ 160
  if !x.tstatus.vfrz || (tfind x.saved k).isNone then x
  else if bitOf mark 18 then
    match (List.range 3).find? fun j => match tfind x.saved ((k + 63 - j) % 64) with
        | some (.head _) => true
        | _ => false with
    | none => x
    | some j => match tfind x.saved ((k + 63 - j) % 64) with
      | some (.head e) =>
        let caps := (e.caps ++ List.replicate (j + 2 - e.caps.length) 0).set (j + 1) cap
        { x with saved := tset (tset x.saved ((k + 63 - j) % 64) (.head { e with caps := caps, size := max e.size (j + 2) })) k .cont }
      | _ => x
  else match decode (BitVec.ofNat 96 v) with
    | .error _ => { x with saved := tdel x.saved k }
    | .ok i =>
      let old : QEntry := match tfind x.saved k with
        | some (.head e) => e
        | _ => { instr := i, vl := x.vl, vt := x.vtype, rm := x.fcsr.rm }
      { x with saved := tset x.saved k (.head { old with
        instr := i, caps := cap :: old.caps.tail, acc := cap, vd := bitsOf mark 0 6, va := bitsOf mark 6 6
        vb := bitsOf mark 12 6, part := bitOf mark 19, prv := bitOf mark 20 }) }

/-- A field of the image restored into the hart (R86, R107); reserved bits are dropped, and a bound hart stays bound. DESIGN
CHOICE (log 50): a reserved value of FCSR.RM or VPROG.TAG comes back as the image has it, where R4 gives the image's value
and R5 zero; SEW keeps its two low bits. -/
def Hart.restoreField (x : Hart) (off v : Nat) : Hart :=
  let w : Word := BitVec.ofNat 64 v
  match off with
  | 0x000 => { x with s := Vector.ofFn fun i => if i.val = 0 then 0 else BitVec.ofNat 64 (elem 64 v i.val) }
  | 0x200 => { x with p := BitVec.ofNat 16 v ||| 0x8000 }
  | 0x208 => { x with pc := BitVec.ofNat 48 v &&& 0xFFFFFFFFFFFC }
  | 0x210 => { x with sup := bitOf v 0, waiting := bitOf v 1, ending := bitOf v 3, wake := bitOf v 4 }
  | 0x220 => { x with vl := bitsOf v 0 13, vlPush := bitsOf v 0 13 }
  | 0x228 =>
    let t : Vtype := ⟨BitVec.ofNat 2 v, BitVec.ofNat 2 (v / 16)⟩
    { x with vtype := t, vtPush := t }
  | 0x230 => { x with vstart := BitVec.ofNat 12 v }
  | 0x238 => { x with fcsr := ⟨BitVec.ofNat 3 v, BitVec.ofNat 8 (v / 256), BitVec.ofNat 8 (v / 65536)⟩ }
  | 0x240 => { x with vcp := BitVec.ofNat 16 v }
  | 0x248 => { x with vqtail := BitVec.ofNat 16 v }
  | 0x250 => { x with taskid := BitVec.ofNat 32 v }
  | 0x258 => { x with stripbase := w }
  | 0x260 => { x with striplen := BitVec.ofNat 32 v }
  | 0x268 => { x with tcause := BitVec.ofNat 8 v }
  | 0x270 => { x with tpc := BitVec.ofNat 48 v &&& 0xFFFFFFFFFFFC }
  | 0x278 => { x with tvqpPos := BitVec.ofNat 16 v, tvqpV := bitOf v 16 }
  | 0x280 => { x with taddr := w }
  | 0x288 => { x with taddr2 := w }
  | 0x290 => { x with tinfo := w }
  | 0x298 => { x with tstatus := ⟨bitOf v 0, bitOf v 1, bitOf v 2, bitOf v 3, bitOf v 4, bitOf v 5⟩ }
  | 0x2A0 => { x with tscr := Vector.ofFn fun i => BitVec.ofNat 64 (elem 64 v i.val) }
  | 0x2C0 => { x with fbn := bitsOf v 0 5 }
  | 0x2C8 => { x with asn := BitVec.ofNat 16 v }
  | 0x2D0 => { x with tvec := BitVec.ofNat 48 v &&& 0xFFFFFFFFFFFC }
  | 0x300 => { x with fb := (List.range 16).map fun k =>
      let e := elem 64 v k
      ⟨BitVec.ofNat 8 e, bitOf e 8, BitVec.ofNat 36 (e / 4096)⟩ }
  | 0xA00 => { x with fmask := BitVec.ofNat 512 v }
  | 0xC00 => { x with m := Vector.ofFn fun i => BitVec.ofNat 512 (elem 512 v i.val) }
  | 0xE00 => { x with vsegOff := BitVec.ofNat 1024 v }
  | 0xE80 => { x with vsegCount := bitsOf v 0 7 }
  | 0xE88 => { x with vprog :=
      ⟨BitVec.ofNat 9 v, BitVec.ofNat 20 (v / 2 ^ 16), BitVec.ofNat 20 (v / 2 ^ 36), BitVec.ofNat 6 (v / 2 ^ 56), bitOf v 62, bitOf v 63⟩ }
  | 0xE90 => { x with fib := Vector.ofFn fun i => { x.fib[i] with occ := elem 16 v i.val } }
  | 0x1000 => { x with q := Vector.ofFn fun i =>
      let b := elem 512 v i.val
      { kind := BitVec.ofNat 3 b, w := BitVec.ofNat 4 (b / 16), link := BitVec.ofNat 3 (b / 256), capt := bitOf b 11
        cls := BitVec.ofNat 2 (b / 4096), base := BitVec.ofNat 64 (elem 64 b 1), stride := BitVec.ofNat 64 (elem 64 b 2)
        vbase := BitVec.ofNat 64 (elem 64 b 3), count := BitVec.ofNat 64 (elem 64 b 4), pos := BitVec.ofNat 64 (elem 64 b 5)
        sub := BitVec.ofNat 64 (elem 64 b 6) } }
  | 0x1200 => { x with pbuf := BitVec.ofNat 40960 v }
  | 0x2600 => { x with pspec := BitVec.ofNat 1024 v }
  | n =>
    if n < 0xA00 then x.restoreSlot ((n - 0x400) / 24) v
    else if n < 0xB000 then x.setVreg ((n - 0x3000) / 512) (BitVec.ofNat 4096 v)
    else x.setFibre ((n - 0xB000) / 2048) { x.fibreReg ((n - 0xB000) / 2048) with pairs := BitVec.ofNat 16384 v }

/-- Line k of a hart's registers read from the image at m: the bytes of each field in the line come from it. -/
def Hart.restoreLine (x : Hart) (m : Nat → Byte) (k : Nat) : Hart :=
  (x.fields instrWord).foldl (fun y f =>
    if f.1 + f.2.1 ≤ 128 * k ∨ 128 * k + 128 ≤ f.1 then y
    else
      let v := leNat ((List.range f.2.1).map fun j =>
        if (f.1 + j) / 128 = k then m (f.1 + j) else BitVec.ofNat 8 (f.2.2 / 2 ^ (8 * j)))
      if v = f.2.2 then y else (y.restoreField f.1 v)) x

/-- The lines that a register store can hold (R110). -/
def storeLines : Nat := 6144

/-- The lines that the register store of a core holds (R110). -/
def State.linesHeld (s : State) (core : Nat) : Nat :=
  let here := (List.range s.harts.length).filter fun h => (s.hart h).coreNo == core && (s.hart h).resident
  (here.map fun h => imageLines - (s.core core).store.countP fun l => l.hart == h && l.absent).sum

/-- A line that the register store of a core may evict: of the harts that have left their slots, the first to have left
(R110). DESIGN CHOICE (log 49): a hart uses all its lines for as long as it is bound. -/
def State.evictable (s : State) (core : Nat) : Option (Nat × Nat) :=
  let line (h : Nat) : Option Nat := findBelow imageLines fun k => s.lineState h k == .evictable
  let left (h : Nat) : Nat := ((s.hart h).leftAt.getD 0).toNat
  let l := (List.range s.harts.length).filter fun h =>
    (s.hart h).coreNo == core && !(s.hart h).bound && (s.hart h).leftAt.isSome && (line h).isSome
  (l.foldl (fun (b : Option Nat) h => match b with
    | none => some h
    | some k => if left h < left k then some h else some k) none).bind fun h => (line h).map fun k => (h, k)

/-- What the register store of its core notes of a line of hart h, replaced. -/
def State.noteLine (s : State) (l : StoreLine) : State :=
  s.modCore (s.hart l.hart).coreNo fun c =>
    { c with store := c.store.filter (fun m => !(m.hart == l.hart && m.line == l.line)) ++ [l] }

/-- The least recently used evictable line of a register store is written back if it is modified, and goes (R110). -/
def State.evictOne (s : State) (core : Nat) : State :=
  match s.evictable core with
  | none => s
  | some (h, k) =>
    let v := imageLine ((s.hart h).fields instrWord) k
    let s1 := if StoreLine.dirty (s.storeLine h k) v then s.writeLine h k v else s
    (s1.modHart h fun y => { y with rsPoison := tdel y.rsPoison k }).noteLine ⟨h, k, true, none⟩

/-- A register store with room for n more lines (R110). -/
def State.makeRoom (s : State) (core n : Nat) : State :=
  (List.range (s.linesHeld core + n - storeLines)).foldl (fun t _ => t.evictOne core) s

/-- The key under which the fill of line k of hart h waits: behind a write of the line, or at its home (R110, R359). -/
def State.fillWaits (s : State) (h k : Nat) : Option Nat :=
  let pa := (s.hart h).imgbase + 128 * k
  if s.imgOut.any fun q => lineOf q.pa == lineOf pa then some (lineOf pa) else s.paWaits h pa 128 false

/-- An absent line k of hart h comes into the register store of its core, pinned: from the image, with the poison of its
line (R110, R111); or the hart waits for it at its home. -/
def State.fillLine (s : State) (h k : Nat) : State :=
  if s.lineState h k ≠ .absent then s
  else match s.fillWaits h k with
  | some key => (s.modHart h fun x => { x with held := true }).queueUp h key
  | none =>
    let pa := (s.hart h).imgbase + 128 * k
    let s0 := (((s.leavePa h pa).exchange (s.hart h).die (24 + hubOfPa pa) none).hbmUse (hubOfPa pa)).takeHome pa 128
    let s1 := s0.makeRoom (s.hart h).coreNo 1
    let x := s1.hart h
    let y := x.restoreLine (fun a => memGet s1.mem (x.imgbase + a)) k
    let bad := if s1.poisoned (x.imgbase + 128 * k) 128 then tset y.rsPoison k (2 ^ 128 - 1) else tdel y.rsPoison k
    let z : Hart := { y with rsPoison := bad }
    (s1.setHart h z).noteLine ⟨h, k, false, some (imageLine (z.fields instrWord) k)⟩

/-- The lines of the image that hold saved queue entries, FMASK and VPROG (R107, R320). -/
def Hart.replayState (x : Hart) : List Nat :=
  20 :: 29 :: x.slots.flatMap fun q =>
    let a := 0x400 + 24 * q.1
    [a / 128, (a + 23) / 128]

/-- A register store holds nothing of hart h's image any more. -/
def State.forgetLines (s : State) (h : Nat) : State :=
  { s.modHart h (fun x => { x with leftAt := none }) with
    cores := s.cores.map fun q => (q.1, { q.2 with store := q.2.store.filter fun l => l.hart != h }) }

/-- Hart h's image leaves its register store: its modified lines are written back first (R110). -/
def State.dropLines (s : State) (h : Nat) : State := (s.saveImage h instrWord).forgetLines h

/-- The hart is bound on another core: its modified lines are written back and dropped before the other core's first fill,
and all its lines are absent there (R110). -/
def State.leaveStore (s : State) (h there : Nat) : State :=
  (s.dropLines h).modCore there fun c =>
    { c with store := c.store ++ (List.range imageLines).map fun k => ⟨h, k, true, none⟩ }

end Sys2Proof.Machine
end

