-- ==== Sys2Proof/Machine/Tasks.lean ====
section
/-! DEFINITION. Sys2Proof/Machine/Tasks.lean: the task control block, the dispatcher and the strip
distributors (R85, R109, R110, R305 to R321). -/

namespace Sys2Proof.Machine

/-- The C-dies in service (R20). -/
def State.inService (s : State) (d : Nat) : Bool := decide (d < 24) && !(s.hub 0).fenced.getLsbD d

/-- A queued instruction of group 0x8 or 0x9 (R296). -/
def isMemoryEntry (i : Instr) : Bool :=
  match i.parts with
  | some (g, _, _) => g == 8 || g == 9
  | none => false

/-- A queued instruction whose partial performance FMASK records (R105, R192, R258). -/
def usesFmask (i : Instr) : Bool :=
  match i with
  | .fwalk _ => false
  | .qrd _ => true
  | .toksend _ => true
  | i => isMemoryEntry i

/-- A started head entry completes where the hart stops (R309). -/
def Hart.endStarted (x : Hart) : Hart :=
  match x.queue with
  | [] => x
  | e :: _ => match e.stage with
    | .performed f v =>
      let y := { x with vstart := 0, fmask := if e.part && usesFmask e.instr then 0 else x.fmask }.orFlags f
      (match v with
        | some (d, w) => y.varResult d w
        | none => y)
    | _ => x

/-- A hart stops for good: its queue is discarded and its slot is free (R309, R320). -/
def Hart.halt (x : Hart) : Hart :=
  { x.endStarted.landAll with
    queue := [], vcp := x.vqtail, bound := false, stopped := true, waiting := false, held := false, heldPush := false
    leftAt := none }

/-- A hart stops for good; `save` says that its image is written back, and what a register store holds of it goes (R110,
R309, R320). -/
def State.stopHart (s : State) (h : Nat) (save : Bool) : State :=
  let s0 := (s.modHart h Hart.halt).unread h
  if save then s0.dropLines h else s0.forgetLines h

/-- A hart's final END has completed: it is unbound for good, and its lines are evictable (R110, R323). -/
def State.endHart (s : State) (h : Nat) : State := s.modHart h fun x => { x.halt with leftAt := some s.cyc }

/-- The head entry has started and not finished. -/
def Hart.headStarted (x : Hart) : Bool :=
  match x.queue with
  | e :: _ => match e.stage with
    | .started | .outside => true
    | _ => false
  | [] => false

/-- A hart of a task that fails stops; a head entry that has started and not finished stays in its queue, to complete
first (R309). -/
def State.haltHart (s : State) (h : Nat) : State :=
  if (s.hart h).headStarted then s.modHart h fun x =>
    { x.landAll with queue := x.queue.take 1, stopped := true, waiting := false, held := false, heldPush := false }
  else s.stopHart h true

/-- The fields of a TCB at a PA (R305). -/
def State.tcbField (s : State) (pa off lo n : Nat) : Nat := bitsOf (s.peek (pa + off) 8) lo n
def State.tcbState (s : State) (pa : Nat) : Nat := s.tcbField pa 0 0 3

/-- STATE and STATUS written, in one store (R309). -/
def State.tcbSet (s : State) (pa st status : Nat) : State := s.homeWrite pa (leBytes 1 (s.peek pa 1 / 8 * 8 + st) ++ leBytes 1 status)

/-- R306, for a TCB whose STATE is FREE. -/
def State.tcbIll (s : State) (pa : Nat) : Bool :=
  let f off lo n := s.tcbField pa off lo n
  let farm := decide (f 0x20 44 1 = 1)
  decide (f 0 3 5 ≠ 0) || decide (f 8 48 16 ≠ 0) || decide (f 0x20 45 19 ≠ 0) || decide (f 0x28 40 24 ≠ 0) ||
    decide (f 8 0 2 ≠ 0) || decide (f 0x38 0 3 ≠ 0) || (List.range 8).any (fun k => decide (f (0x40 + 8 * k) 0 7 ≠ 0)) ||
    (farm && (decide (f 0x18 0 64 < f 0x10 0 64) || decide (f 0x20 0 32 = 0))) ||
    (!farm && (decide (f 0x10 0 64 ≠ 0) || decide (f 0x18 0 64 ≠ 0) || decide (f 0x20 0 32 ≠ 0))) ||
    !((List.range 24).any fun d => bitOf (f 0x28 0 24) d && s.inService d)

/-- The next task id of a hub, skipping 0 in its counter (R308). -/
def nextTid (ctr : BitVec 29) : BitVec 29 := if ctr + 1 = 0 then 1 else ctr + 1

/-- How a publication ends (R325, R326). -/
inductive Publish where
  | ok (s : State) (tid : BitVec 32)
  | notFree
  | ill
  deriving DecidableEq, Repr

/-- The publication row of R309 on the TCB at a VA and its PA, with R306 and R308. -/
def State.publish (s : State) (asn : BitVec 16) (va : Word) (pa : Nat) (sup : Bool) : Publish :=
  if s.tcbState pa ≠ 0 then .notFree
  else if s.tcbIll pa then .ill
  else
    let hub := hubOf va.toNat
    let ctr := nextTid (s.hub hub).tidCtr
    let tid : BitVec 32 := BitVec.ofNat 32 (hub * 2 ^ 29 + ctr.toNat)
    let ready := decide (s.tcbField pa 0 16 16 = 0)
    let f off lo n := s.tcbField pa off lo n
    let prio := f 0x20 40 2
    let t : Task :=
      { tcb := va, pa := pa, asn := asn, tid := tid, st := if ready then .ready else .waiting
        level := if prio = 0 && !sup then 1 else prio
        readyAt := s.cyc, rank := s.order, aged := 0, entry := BitVec.ofNat 48 (f 8 0 48), lo := f 0x10 0 64, hi := f 0x18 0 64
        strip := f 0x20 0 32, harts := f 0x20 32 8 + 1, idem := decide (f 0x20 42 1 = 1)
        farm := decide (f 0x20 44 1 = 1), dies := BitVec.ofNat 24 (f 0x28 0 24), args := BitVec.ofNat 64 (f 0x30 0 64)
        cursor := f 0x10 0 64, reissue := [], out := [], master := none, shadow := none, nextOrd := 0, ended := false
        lostPost := false }
    let s1 := s.modHub hub fun u => { u with tidCtr := ctr }
    let bs := leBytes 1 (if ready then 2 else 1) ++ memBytes s.mem (pa + 1) 3 ++ leBytes 4 tid.toNat ++ memBytes s.mem (pa + 8) 0x23 ++
      leBytes 2 asn.toNat
    let s2 := s1.homeWrite pa bs
    .ok { s2 with tasks := s2.tasks ++ [t], order := s2.order + 1 } tid

/-- An access of R321 that cannot be performed is dropped: event 0x55 and a hub error. -/
def State.dropped (s : State) (hub : Nat) : State :=
  (s.countHub hub 0x55 1).modHub hub fun u => { u with errstat := u.errstat ||| 0x10 }

/-- How a device access under an ASN goes: it may be performed at a PA, is dropped, or is held at a page under migration
(R220, R321). -/
inductive DevAt where
  | ok (s : State) (pa : Nat)
  | drop (s : State)
  | held (key : Nat)
  deriving DecidableEq, Repr

/-- A device store or atomic of n bytes under an ASN, from a hub, by the access with a place of its own (R321). It waits at the home as any store does; a peer
that cannot be reached gets nothing (R356 to R360, R377, R397, R428). DESIGN CHOICE (log 51): its checks (R220) are those of user
privilege, for a supervisor's task too. -/
def State.deviceStore (s : State) (me : Nat) (asn : BitVec 16) (va : Word) (n hub : Nat) (atomic : Bool) : DevAt :=
  if 2 ^ 48 ≤ va.toNat then .drop s
  else match s.translate asn false .store va.toNat with
    | .ok s1 pa pte =>
      if spaceOf pa = 3 ∨ (spaceOf pa = 1 ∧ pteNC pte) then .drop (s.noteWalk asn va.toNat)
      else if spaceOf pa = 2 && !s1.reachable va.toNat pa then .drop (s.noteWalk asn va.toNat)
      else if let some k := s.pageTurn me asn va.toNat then .held k
      else if s1.resync || s1.homeWaits pa n || !s1.canWriteMaster pa n || s1.waitsTurn me (lineOf pa) then .held (lineOf pa)
      else if atomic && s1.poisoned pa 8 then .drop (s.noteWalk asn va.toNat)
      else
        let dst := homeHub (hubOf va.toNat) (lineOf pa)
        .ok (((s1.exchange (24 + hub) (24 + dst) none).recallLine (lineOf pa)).useGot (lineOf pa)) pa
    | .held k => .held k
    | _ => .drop (s.noteWalk asn va.toNat)

/-- The page or line at which a write to a TCB, at its home under its PA, has to wait (R356 to R362, R377). -/
def State.tcbWaits (s : State) (r pa : Nat) : Option Nat := s.paWaits r pa 128 true

/-- A TCB's line taken at its home, for a write that waits no more, with the packet of the dispatcher where that is another hub than
hub 0: no die keeps a copy (R271, R309, R312). -/
def State.takeTcb (s : State) (r pa : Nat) : State := ((s.leavePa r pa).askHomes 0 [hubOfPa pa]).takeHome pa 128

/-- The number of a task by its TCB's PA, while it has not ended. -/
def State.taskAt (s : State) (pa : Nat) : Option Nat :=
  s.tasks.findIdx? fun t => decide (t.pa = pa) && !t.ended

def State.modTask (s : State) (k : Nat) (f : Task → Task) : State := { s with tasks := modAt s.tasks k f }

/-- The completion word of a TCB, if it has one: the final STATE, STATUS and TID (R307). -/
def State.completionOp (s : State) (asn : BitVec 16) (tcbVa : Word) (pa st status : Nat) : List DevOp :=
  let cw := BitVec.ofNat 64 (s.peek (pa + 0x38) 8)
  if cw = 0 then []
  else [.word asn cw (BitVec.ofNat 64 (st + 256 * status + 2 ^ 32 * s.tcbField pa 0 32 32)) (hubOf tcbVa.toNat)]

/-- What the successors of a TCB are told, in order (R319). -/
def State.succOps (s : State) (asn : BitVec 16) (tcbVa : Word) (pa : Nat) (ending : PredEnd) : List DevOp :=
  (List.range 8).filterMap fun k =>
    let v := s.peek (pa + 0x40 + 8 * k) 8
    if v = 0 then none else some (.pred asn (BitVec.ofNat 64 v) ending (hubOf tcbVa.toNat))

/-- A task ends in a terminal state: STATE and STATUS are written, and its completion word and what its successors are told
are left to be done (R309, R319). -/
def State.endTcb (s : State) (asn : BitVec 16) (tcbVa : Word) (pa st status : Nat) (ending : PredEnd) : State × List DevOp :=
  let s1 := s.tcbSet pa st status
  let s2 := match s1.taskAt pa with
    | some k => s1.modTask k fun t => { t with ended := true }
    | none => s1
  (s2, s2.completionOp asn tcbVa pa st status ++ s2.succOps asn tcbVa pa ending)

/-- A task becomes READY: it is entered in its ready list behind those before it (R309, R311). -/
def State.enterReady (s : State) (pa : Nat) : State :=
  match s.taskAt pa with
  | some k => { s.modTask k fun t => { t with st := .ready, readyAt := s.cyc, rank := s.order, aged := 0 } with order := s.order + 1 }
  | none => s

/-- PREDS less 1, and STATE beside it, in one store; PREDS stays at 0 with the excess counted (R309). -/
def State.decPreds (s : State) (hub pa st : Nat) : State :=
  let n := s.tcbField pa 0 16 16
  if n = 0 then s.countHub hub 0x4C 1
  else s.homeWrite pa (leBytes 1 (s.peek pa 1 / 8 * 8 + st) ++ memBytes s.mem (pa + 1) 1 ++ leBytes 2 (n - 1))

/-- One predecessor event at a successor's TCB (R309). DESIGN CHOICE (log 52): at a STATE of 7, which no row has, PREDS goes down as
for a task that has ended. -/
def State.predAt (s : State) (asn : BitVec 16) (succ : Word) (ending : PredEnd) (pa : Nat) : State × List DevOp :=
  let hub := hubOf succ.toNat
  let st := s.tcbState pa
  if 2 ≤ st then (s.decPreds hub pa st, [])
  else if ending = .retired ∨ s.tcbField pa 0x20 43 1 = 1 then
    if st = 1 ∧ s.tcbField pa 0 16 16 = 1 then ((s.decPreds hub pa 2).enterReady pa, []) else (s.decPreds hub pa st, [])
  else s.endTcb asn succ pa 5 (if ending = .failed then 6 else 5) .cancelled

/-- How one access of the device at the end of a task goes: the state and the accesses it causes, or where it is held. -/
inductive DevEnd where
  | ok (s : State) (l : List DevOp)
  | held (key : Nat)
  deriving DecidableEq, Repr

/-- One access of the device at the end of a task, with a place of its own (R307, R309, R319, R321). -/
def State.devStep (s : State) (me : Nat) (p : DevOp) : DevEnd :=
  match p with
  | .word asn va data hub => match s.deviceStore me asn va 8 hub false with
    | .ok s1 pa => .ok (s1.homeWrite pa (leBytes 8 data.toNat)) []
    | .drop t => .ok (t.dropped hub) []
    | .held k => .held k
  | .pred asn succ ending hub => match s.deviceStore me asn succ 128 hub true with
    | .ok s1 pa => .ok (s1.predAt asn succ ending pa).1 (s1.predAt asn succ ending pa).2
    | .drop t => .ok (t.dropped hub) []
    | .held k => .held k
  | .tcb k st status ending => match s.tasks[k]? with
    | none => .ok s []
    | some t => match s.tcbWaits me t.pa with
      | some key => .held key
      | none =>
        let r := (s.takeTcb me t.pa).endTcb t.asn t.tcb t.pa st status ending
        .ok r.1 r.2

def DevEnd.goesOn : DevEnd → Bool
  | .ok _ _ => true
  | .held _ => false

/-- Accesses of the device in order, with those they cause in their turn, under a place; a held one waits there with those behind it.
The fuel bounds how many are handled (R309). -/
def State.devAll : Nat → Nat → List DevOp → State → State
  | 0, _, _, s => s
  | _ + 1, _, [], s => s
  | fuel + 1, me, p :: ps, s => match s.devStep me p with
    | .ok t l => State.devAll fuel me (ps ++ l) (t.leaveAll me)
    | .held k => { s.queueAs me 24 k with
        devHeld := s.devHeld ++ [(me, p :: ps)], places := if me = s.newPlace then s.places + 1 else s.places }

/-- More accesses than one end can cause: a TCB takes no cancellation twice. -/
def devFuel : Nat := 1000000

/-- A task whose TCB's line has been taken ends, with everything its end causes. -/
def State.endTask (s : State) (asn : BitVec 16) (tcbVa : Word) (pa st status : Nat) (ending : PredEnd) : State :=
  State.devAll devFuel s.newPlace (s.endTcb asn tcbVa pa st status ending).2 (s.endTcb asn tcbVa pa st status ending).1

/-- Task k ends: its TCB is written at its home, where it need not wait, and then comes everything its end causes (R309, R319,
R356). -/
def State.finishTask (s : State) (k st status : Nat) (ending : PredEnd) : State :=
  State.devAll devFuel s.newPlace [.tcb k st status ending] (s.modTask k fun t => { t with ended := true })

/-- The device goes on with held accesses that wait no more, if there are any; others take their places where they have come to wait
(R362). -/
def State.devRetry (s : State) : Option State :=
  match s.devHeld.findIdx? fun l => match l.2 with
    | p :: _ => (s.devStep l.1 p).goesOn
    | [] => true with
  | some k => (s.devHeld[k]?).map fun l => State.devAll devFuel l.1 l.2 { s with devHeld := s.devHeld.eraseIdx k }
  | none => s.devHeld.findSome? fun l => l.2.head?.bind fun p => match s.devStep l.1 p with
    | .held k => s.requeue l.1 k
    | .ok _ _ => none

/-- The harts bound to, or waiting to be bound again for, task k. -/
def State.taskHarts (s : State) (k : Nat) : List Nat :=
  (List.range s.harts.length).filter fun h => (s.hart h).task == some k && !(s.hart h).stopped

/-- The images of task k's harts that ended leave their register stores, written back where modified, before the task's
end is made known (R110, R309). -/
def State.dropImages (s : State) (k : Nat) : State :=
  ((List.range s.harts.length).filter fun h => (s.hart h).task == some k && (s.hart h).leftAt.isSome).foldl
    State.dropLines s

/-- Image lines of task k's harts are still on their way to their homes (R110). -/
def State.imagesOut (s : State) (k : Nat) : Bool := s.imgOut.any fun w => (s.hart w.hart).task == some k

/-- Every hart of task k has stopped: the task ends FAILED, once their images are written (R110, R309). -/
def State.failDone (s : State) (k : Nat) : State :=
  match s.tasks[k]? with
  | none => s
  | some t => match t.st with
    | .failing status =>
      if t.ended || s.harts.any fun x => x.task == some k && !x.queue.isEmpty then s
      else
        let t := s.dropImages k
        if t.imagesOut k then t else t.finishTask k 6 status .failed
    | _ => s

/-- Task k fails with a status: its harts stop at their next instruction boundaries, their started entries complete, their
images are written back, and then it ends FAILED (R309). -/
def State.failTask (s : State) (k status : Nat) : State :=
  match s.tasks[k]? with
  | none => s
  | some t =>
    if t.ended || t.st ≠ .running then s
    else (((s.taskHarts k).foldl State.haltHart s).modTask k fun t => { t with st := .failing status }).failDone k

/-- Task k fails at once, with all its work in flight discarded (R309, R320). -/
def State.failTaskNow (s : State) (k status : Nat) : State :=
  match s.tasks[k]? with
  | none => s
  | some _ =>
    let hs := (List.range s.harts.length).filter fun h =>
      (s.hart h).task == some k && (!(s.hart h).stopped || !(s.hart h).queue.isEmpty)
    ((hs.foldl (fun s h => (s.modHart h fun x => { x with queue := [], vcp := x.vqtail }).stopHart h true) s).modTask k
      fun t => { t with st := .failing status }).failDone k

/-- A slot of a die in service that no bound hart holds: the cores with the fewest bound harts first (R20, R315). A package
in the fatal state binds none (R21). -/
def State.freeSlot (s : State) (die : Nat) : Option (Nat × Nat) :=
  let used c := s.harts.countP fun x => x.bound && x.die == die && x.core == c
  let least := (List.range 32).foldl (fun m c => min m (used c)) 8
  if (s.hub 0).fatal || !s.inService die then none
  else (findBelow 32 fun c => decide (used c = least) && decide (least < 8)).bind fun c =>
    (findBelow 8 fun k => !(s.harts.any fun x => x.bound && x.die == die && x.core == c && x.slot == k)).map fun k => (c, k)

/-- The strip handed out next, and the task after it (R315, R317). -/
def Task.handOut (t : Task) : Option (Nat × Nat × Task) :=
  match t.reissue with
  | (b, e) :: r => some (b, e, { t with reissue := r })
  | [] => if t.cursor < t.hi then
      some (t.cursor, min (t.cursor + t.strip) t.hi, { t with cursor := min (t.cursor + t.strip) t.hi })
    else none

/-- The harts of task k bound on a die. -/
def State.boundOn (s : State) (k die : Nat) : Nat :=
  s.harts.countP fun x => x.bound && x.task == some k && x.die == die

/-- The harts of task k that a die holds, those that wait to be bound again among them. -/
def State.heldOn (s : State) (k die : Nat) : Nat :=
  s.harts.countP fun x => !x.stopped && x.task == some k && x.die == die

/-- The die that takes the next hart of a task: the fewest bound harts of it, the lowest number on ties; for a single-hart
routine the lowest die of its mask with a free slot (R315). -/
def State.dieFor (s : State) (k : Nat) (t : Task) : Option Nat :=
  let ok d := t.dies.getLsbD d && s.inService d && (s.freeSlot d).isSome && (!t.farm || decide (s.heldOn k d < t.harts))
  let least := (List.range 24).foldl (fun m d => if ok d then min m (if t.farm then s.boundOn k d else 0) else m) 256
  findBelow 24 fun d => ok d && decide ((if t.farm then s.boundOn k d else 0) = least)

/-- A hart bound for the first time (R85, R109). DESIGN CHOICE (log 2): its image stands behind those before it. -/
def State.newHart (s : State) (k : Nat) (t : Task) (die core slot base len : Nat) : Hart :=
  let w (n : Nat) : Word := BitVec.ofNat 64 n
  let s1 : Vector Word 64 := ((((Vector.replicate 64 (0 : Word)).setIfInBounds 1 (w base)).setIfInBounds 2 (w len)).setIfInBounds 3 t.args).setIfInBounds 4 (w t.nextOrd)
  { pc := t.entry, s := s1.setIfInBounds 5 (w t.tid.toNat), taskid := t.tid, stripbase := w base
    striplen := BitVec.ofNat 32 len, asn := t.asn, tvec := (s.hub 0).taskvec, bound := true, die := die, core := core
    slot := slot, imgbase := Config.stobryImage + Config.imageBytes * s.harts.length, task := some k, ordinal := t.nextOrd
    strips := if t.farm then [(base, base + len)] else [], boundAt := s.cyc }

/-- A hart bound for the first time: its image lines come into the register store pinned, with no read of memory, and
evictable lines make room for them (R109, R110). -/
def State.addHart (s : State) (x : Hart) : State :=
  ({ s with harts := s.harts ++ [x], userBound := true } : State).makeRoom x.coreNo 0

/-- One more hart of a running task is bound with its strip (R315). -/
def State.bindOne (s : State) (k : Nat) : Option State :=
  match s.tasks[k]? with
  | none => none
  | some t =>
    if t.ended || t.st ≠ .running then none
    else match s.dieFor k t with
      | none => none
      | some die => match s.freeSlot die with
        | none => none
        | some (core, slot) =>
          if t.farm then match t.handOut with
            | none => none
            | some (b, e, t1) =>
              let x := s.newHart k t die core slot b (e - b)
              some ((s.addHart x).modTask k fun _ => { t1 with out := t1.out ++ [(die, b, e)], nextOrd := t1.nextOrd + 1 })
          else if t.nextOrd ≠ 0 then none
          else some ((s.addHart (s.newHart k t die core slot 0 0)).modTask k fun t => { t with nextOrd := 1 })

/-- PKGID agrees in all hubs (R425). -/
def State.pkgidAgrees (s : State) : Bool := (List.range 8).all fun h => (s.hub h).pkgid == (s.hub 0).pkgid

/-- The level a task stands at after aging (R311). -/
def Task.levelNow (t : Task) : Nat := if t.level ≤ 1 then t.level else max 1 (t.level - t.aged)

/-- The two lowest dies of a mask in service: the master distributor and its shadow (R314). -/
def State.distributors (s : State) (dies : BitVec 24) : Option Nat × Option Nat :=
  let l := (List.range 24).filter fun d => dies.getLsbD d && s.inService d
  (l[0]?, l[1]?)

/-- The dispatcher claims a READY task (R309, R312, R314). Where the TCB's page or line must be waited for it takes its place
there, and none is left to do once it has one (R356 to R362). -/
def State.claim (s : State) (k : Nat) : Option State :=
  match s.tasks[k]? with
  | none => none
  | some t =>
    if t.farm ∧ t.lo = t.hi then some (s.finishTask k 4 0 .retired)
    else match s.tcbWaits dispPlace t.pa with
      | some key => if (s.queueUp dispPlace key).holds = s.holds then none else some (s.queueUp dispPlace key)
      | none =>
        let s1 := (s.takeTcb dispPlace t.pa).homeWrite t.pa (leBytes 1 (s.peek t.pa 1 / 8 * 8 + 3))
        let s2 := s1.modTask k fun t =>
          { t with st := .running, master := (s.distributors t.dies).1, shadow := (s.distributors t.dies).2 }
        some ((s2.bindOne k).getD s2)

/-- The task that the dispatcher binds the next hart for: the first in level order and then list order for which it could
bind one, a running farm among those READY (R311, R312, R425). -/
def State.nextReady (s : State) : Option Nat :=
  if !s.userBound && !s.pkgidAgrees then none
  else
    let can k := match s.tasks[k]? with
      | some t => !t.ended && (decide (t.st = .ready) && (s.dieFor k t).isSome ||
          decide (t.st = .running) && (s.bindOne k).isSome)
      | none => false
    let cand := (List.range s.tasks.length).filter can
    let lv k := ((s.tasks[k]?).map Task.levelNow).getD 4
    let at_ k := ((s.tasks[k]?).map Task.rank).getD 0
    cand.foldl (fun b k => match b with
      | none => some k
      | some j => if lv k < lv j ∨ (lv k = lv j ∧ at_ k < at_ j) then some k else some j) none

/-- A hart that waits to be bound again on its die: unbound by a wait that is now over, or after YIELD.REL (R304, R313,
R318). `unbound` harts have bound = false and stopped = false. -/
def State.rebind (s : State) (h : Nat) : Option State :=
  let x := s.hart h
  if x.bound || x.stopped then none
  else (s.freeSlot x.die).map fun p =>
    let taken k := s.harts.any fun y => y.bound && y.die == x.die && y.core == x.core && y.slot == k
    let (core, slot) := if !taken x.slot then (x.core, x.slot) else match findBelow 8 fun k => !taken k with
      | some k => (x.core, k)
      | none => p
    let there := 32 * x.die + core
    let s1 := if there = x.coreNo then s else s.leaveStore h there
    s1.modHart h fun x => { x with bound := true, core := core, slot := slot, boundAt := s.cyc, leftAt := none }

/-- The dispatcher's next new hart, if there is one: one more of a running task, or the first of a READY one (R312). -/
def State.dispatch (s : State) : Option State :=
  s.nextReady.bind fun k => match s.bindOne k with
    | some t => some t
    | none => s.claim k

/-- Task k has nothing left to do, and its posted stores are acknowledged or lost (R316, R319). DESIGN CHOICE (log 52): no task
retires in the fatal state, which has stopped all harts: a RUNNING one stays RUNNING (R21). -/
def State.retirable (s : State) (k : Nat) : Bool :=
  match s.tasks[k]? with
  | none => false
  | some t =>
    !(s.hub 0).fatal && !t.ended && decide (t.st = .running) && decide (t.nextOrd ≠ 0) && t.reissue.isEmpty && t.out.isEmpty &&
      (!t.farm || decide (t.cursor = t.hi)) && (s.taskHarts k).isEmpty && !s.imagesOut k &&
      s.harts.all fun x => x.task != some k || decide (x.outcnt = 0)

/-- Task k retires, once the images of its harts are written (R110, R319). -/
def State.retire (s : State) (k : Nat) : State :=
  match s.tasks[k]? with
  | none => s
  | some t =>
    if s.retirable k then
      let u := s.dropImages k
      if u.imagesOut k then u
      else u.finishTask k 4 (if t.lostPost || s.harts.any (fun x => x.task == some k && x.lost) then 2 else 0) .retired
    else s

end Sys2Proof.Machine
end

