-- ==== Sys2Proof/Machine/Fencing.lean ====
section
/-! DEFINITION. Sys2Proof/Machine/Fencing.lean: engines, the loss of parts, uncontained faults, and the configuration blocks of
the hubs (R18 to R21, R317, R320, R339, R343, R424, R425). -/

namespace Sys2Proof.Machine

/-- Engine `eng` of an agent among the engines (R339, R398). -/
def engKey (agent eng : Nat) : Nat := agent * 8 + eng

def State.engine (s : State) (agent eng : Nat) : Engine := tget s.engines (engKey agent eng) {}
def State.setEngine (s : State) (agent eng : Nat) (x : Engine) : State :=
  { s with engines := tset s.engines (engKey agent eng) x }

/-- The lines that an operation took over and that its engine still holds are released (R343, R356). -/
def State.releaseLines (s : State) (agent eng : Nat) (l : List Nat) : State :=
  l.foldl (fun t k => if t.dirOf k = .g agent eng then t.setDir k .i else t) s

/-- The first operation of an engine completes, with a fault recorded against its ticket if there is one; a record goes
with the 64th later completion (R339, R343). -/
def State.engineDone (s : State) (agent eng : Nat) (fault : Option (BitVec 8 × Word × Word)) : State :=
  let e := s.engine agent eng
  let n := e.seq + 1
  let kept := e.recs.filter fun r => decide ((n - r.seq).toNat < 64)
  let recs := match fault with
    | some (c, a, i) => kept ++ [{ seq := n, cause := c, addr := a, tinfo := i }]
    | none => kept
  (s.releaseLines agent eng (tget e.took n.toNat [])).setEngine agent eng
    { e with seq := n, ops := e.ops.tail, pos := 0, took := tdel e.took n.toNat, recs := recs }

/-- An abandoned operation completes in its turn, with DATA_POISON recorded; the address its record holds is not stated: a
free value (R320, log 5). -/
def State.abandonedDone (s : State) (agent eng : Nat) : State :=
  s.takeFree.2.engineDone agent eng (some (causeDATA_POISON, s.takeFree.1, 0))

/-- The ASN an operation was issued under. -/
def EngOp.asn? : EngOp → Option (BitVec 16)
  | .copy a .. => some a
  | .gather a .. => some a
  | .coll a .. => some a
  | .mig m => some m.hasn
  | .record _ a _ _ => some a
  | .abandoned => none

/-- The event counters of the hubs, in order (R401). -/
def State.hubCounters (s : State) : List EvCounter := s.hubs.toList.flatMap fun u => u.counters.toList

/-- A vendor message is sent (R430). What power its rails report the spec does not give: a free value (log 5), and so is what a
counter holds of events that the model does not count (log 46). -/
def State.sendReport (s : State) : State :=
  let show_ (p : EvCounter × Nat) : EvCounter := if p.1.vague then { p.1 with count := Config.freeValue (s.fresh + 1 + p.2) } else p.1
  { s with
    fresh := s.fresh + 1 + s.hubCounters.length
    mgmtOut := s.mgmtOut ++ [.vendor {
      fenced := (s.hub 0).fenced, fatal := (s.hub 0).fatal, temps := s.temps, railPower := Config.freeValue s.fresh
      counters := (s.hubCounters.zipIdx).map show_ }] }

/-- The uncontained state of the package (R21, R430). -/
def State.goFatal (s : State) : State :=
  let s1 : State := (List.range s.harts.length).foldl (fun s h => s.stopHart h false) s
  let s2 : State := (List.range 8).foldl (fun s h => s.modHub h fun u => { u with fatal := true }) s1
  { s2.sendReport with faultLow := true }

/-- A directory state without die x. -/
def DirSt.without (x : Nat) : DirSt → DirSt
  | .s v => sharers (v &&& ~~~(dieBit x))
  | .em d => if d = x then .i else .em d
  | .h hs hm v => .h hs hm (v &&& ~~~(dieBit x))
  | .g a e => if a = x then .i else .g a e
  | .i => .i

/-- A list of strips in ascending index. -/
def sortStrips (l : List (Nat × Nat)) : List (Nat × Nat) :=
  l.foldl (fun r p => r.takeWhile (fun q => decide (q.1 ≤ p.1)) ++ p :: r.dropWhile fun q => decide (q.1 ≤ p.1)) []

/-- What the fence of die x does to the running task k; `held` says the die held a hart of it, `lost` that a hart there had
unacknowledged posted stores (R309, R317). DESIGN CHOICE (log 52): where the die held the shadow alone, the lowest other live die
becomes shadow. -/
def State.fenceTask (s : State) (x k : Nat) (held lost : Bool) : State :=
  match s.tasks[k]? with
  | none => s
  | some t =>
    if t.ended || t.st ≠ .running then s
    else
      let live := (List.range 24).filter fun d => t.dies.getLsbD d && s.inService d
      let mine := t.out.filter fun p => p.1 = x
      let m := if t.master = some x then t.shadow else t.master
      let t1 := { t with master := m, shadow := live.find? fun d => some d != m }
      if live.isEmpty || lost then s.failTask k 1
      else if t.idem then
        s.modTask k fun _ =>
          if t.farm then { t1 with
            reissue := sortStrips (t.reissue ++ mine.map fun p => (p.2.1, p.2.2)), out := t.out.filter fun p => p.1 ≠ x }
          else if held then { t1 with nextOrd := 0 } else t1
      else if held || !mine.isEmpty then s.failTask k 1
      else s.modTask k fun _ => t1

/-- What the touch tables of all agents show, by ASN, and their overflow masks (R396). -/
def State.touchAll (s : State) : Table (BitVec 24) :=
  s.clocks.foldl (fun m p => p.2.touch.foldl (fun m q => tset m q.1 (tget m q.1 0 ||| q.2)) m) []
def State.overflowAll (s : State) : BitVec 24 := s.clocks.foldl (fun m p => m ||| p.2.overflow) 0

/-- The fence of C-die x at run time (R20, R396, R405). DESIGN CHOICE (log 52): what x shows of REMOVED from then on is as it was before
the fence. -/
def State.fenceDie (s : State) (x : Nat) : State :=
  let hs : List Nat := (List.range s.harts.length).filter fun h =>
    (s.hart h).die == x && !(s.hart h).stopped
  let facts := (List.range s.tasks.length).map fun k =>
    (k, hs.any fun h => (s.hart h).task == some k, s.harts.any fun y => y.die == x && y.task == some k && y.outcnt != 0)
  let s0 : State := hs.foldl (fun s h => s.stopHart h false) s
  let s1 : State := ((List.range s.harts.length).filter fun h => (s.hart h).die == x && (s.hart h).stopped).foldl
    (fun s h => (s.modHart h fun y => { y with queue := [], vcp := y.vqtail }).forgetLines h) s0
  let s2 : State := { s1 with engines := s1.engines.map fun p => if p.1 / 8 = x then (p.1, { p.2 with ops := [], pos := 0, took := [] }) else p }
  let bad := s2.dir.filterMap fun p => if p.2 = .em x then some p.1 else none
  let s3 : State := bad.foldl (fun s l => (s.setPoison l true).countHub (hubOfPa (128 * l)) 0x46 1) s2
  let dir := (s3.dir.map fun p => (p.1, p.2.without x)).filter fun p => p.2 != .i
  let gone := (s3.imgOut.filter fun w => w.die = x).map ImgWrite.place ++ (s3.victims.filter fun v => v.die = x).filterMap Victim.place
  let k := s3.clock x
  let s4 : State := { s3 with
    dir := dir
    tags := s3.tags.filter fun p => dir.any fun q => q.1 / 32 = p.1 && q.2.heldByDie
    imgOut := s3.imgOut.filter fun w => w.die ≠ x
    holds := s3.holds.filter fun p => !gone.contains p.2
    dirty := s3.dirty.filter fun p => s3.dirOf p.1 != .em x
    grants := s3.grants.filter fun p => p.1 % 32 ≠ x
    removed := s3.removed ||| ((1 : BitVec 32) <<< x)
    lateFence := if s3.resync then s3.lateFence ||| dieBit x else s3.lateFence
    flight := s3.flight.filter fun p => p.2.src ≠ x
    unsent := s3.unsent.filter fun p => p.src ≠ x ∧ p.dst ≠ x
    clocks := tset (s3.clocks.map fun p =>
      if p.1 = x ∨ s3.removed.getLsbD p.1 then p else (p.1, { p.2 with quar := p.2.quar.filter fun w => w.src ≠ x })) x
      { k with gone := some ⟨s3.rsn, s3.resync, s3.removed, s3.touchAll, s3.overflowAll⟩ }
    victims := s3.victims.filter fun v => v.die ≠ x
    fills := s3.fills.filter fun f => f.die ≠ x }
  let s5 : State := (List.range 8).foldl (fun s h =>
    (s.modHub h fun u => { u with fenced := u.fenced ||| dieBit x }).hubError h 1) s4
  facts.foldl (fun s p => s.fenceTask x p.1 p.2.1 p.2.2) s5

/-- A fence request, refused for a die already fenced or for the last die in service (R20). -/
def State.fenceRequest (s : State) (x : Nat) : State :=
  if 24 ≤ x then s
  else if !s.inService x || decide (((List.range 24).filter s.inService).length ≤ 1) then
    s.modHub 0 fun u => { u with cfgerr := true }
  else s.fenceDie x

/-- An operation as an uncontained fault of its ASN leaves it (R320): abandoned; a migration that has begun still gives its page back, as
an abort does (log 35). -/
def EngOp.abandon : EngOp → EngOp
  | .mig m => if m.begun then .mig { m with st := .abandoned } else .abandoned
  | _ => .abandoned

/-- An uncontained fault of an ASN, found at a hub (R320). -/
def State.asnFault (s : State) (hub : Nat) (asn : BitVec 16) : State :=
  let ks := (List.range s.tasks.length).filter fun k => match s.tasks[k]? with
    | some t => t.asn == asn && t.st.started && !t.ended
    | none => false
  let s1 : State := { s with engines := s.engines.map fun p =>
    (p.1, { p.2 with ops := p.2.ops.map fun e => if e.asn? = some asn then e.abandon else e }) }
  (ks.foldl (fun s k => s.failTaskNow k 4) s1).hubError hub 3

/-- CXL.mem is enabled on a port: MEMRDY and the host's memory-enable control (R425). -/
def State.cxlEnabled (s : State) (hub : Nat) : Bool := (s.hub hub).memEnable && (s.hub hub).memrdy

/-- A register of a configuration block (R424); an unlisted offset reads 0. -/
def State.cfgReg (s : State) (hub off : Nat) : Nat :=
  let u := s.hub hub
  let port := decide (hub = 0 ∨ hub = 4)
  match off with
  | 0x000 => u.atbase.toNat
  | 0x008 => u.hdmbase.toNat
  | 0x010 => u.hdmsize.toNat
  | 0x018 => if port then u.doorbell.toNat else 0
  | 0x020 => u.irqtgt.toNat + (if u.irqen then 2 ^ 13 else 0)
  | 0x028 => u.uetbase.toNat
  | 0x030 => u.pkgid.toNat
  | 0x038 => u.fenced.toNat + (if u.fatal then 2 ^ 24 else 0)
  | 0x040 => if u.cfgerr then 1 else 0
  | 0x048 => u.taskvec.toNat
  | 0x058 => if hub = 0 then u.pubResult.toNat + 2 ^ 32 * (if u.pubResult = 0 then u.pubTid.toNat else 0) else 0
  | 0x068 => (if port && decide (u.doorbell ≠ 0) then 2 else 0) + (if u.mgmt then 4 else 0) +
      (if u.errstat ≠ 0 then 8 else 0) + (if u.notice then 16 else 0)
  | 0x078 => u.errstat.toNat
  | 0x080 => if port && u.memrdy then 1 else 0
  | _ => 0

/-- The bytes of a block's registers at a naturally aligned offset (R424). -/
def State.cfgRead (s : State) (hub off n : Nat) : Nat := s.cfgReg hub (off / 8 * 8) / 2 ^ (8 * (off % 8)) % 2 ^ (8 * n)

/-- The mask of the bytes a store covers. -/
def byteMask (off n : Nat) : Nat := (2 ^ (8 * n) - 1) * 2 ^ (8 * (off % 8))

/-- A granule of a hub's home that its window no longer covers is device-biased (R359). -/
def State.trimBias (s : State) (hub : Nat) : State :=
  let u := s.hub hub
  let covered (g : Nat) : Bool := decide (u.hdmbase.toNat ≤ 4096 * g) && decide (4096 * g < u.hdmbase.toNat + u.hdmsize.toNat)
  { s with hostBias := s.hostBias.filter fun g => hubOfPa (4096 * g) != hub || covered g }

def Hub.refuse (u : Hub) : Hub := { u with cfgerr := true }

/-- A write of n bytes at a naturally aligned offset of a block (R20, R326, R424, R425). -/
def State.cfgWrite (s : State) (hub off n value : Nat) : State :=
  let u := s.hub hub
  let reg := off / 8 * 8
  let m := byteMask off n
  let put := value % 2 ^ (8 * n) * 2 ^ (8 * (off % 8))
  /- the register's word with the covered bytes replaced, and the bits written with 1 -/
  let word (old keep : Nat) : Nat := Nat.lor (old - Nat.land old m) put &&& keep
  let port := decide (hub = 0 ∨ hub = 4)
  let locked := s.cxlEnabled 0 || s.cxlEnabled 4
  let frame := 0x1FFFFFFF000
  match reg with
  | 0x000 => s.setHub hub { u with atbase := BitVec.ofNat 64 (word u.atbase.toNat frame) }
  | 0x008 =>
    let w := word u.hdmbase.toNat frame
    if locked ∨ 2 ^ 41 < w + u.hdmsize.toNat then s.setHub hub u.refuse
    else (s.setHub hub { u with hdmbase := BitVec.ofNat 64 w }).trimBias hub
  | 0x010 =>
    let w := word u.hdmsize.toNat 0x3FFFFFFF000
    if locked ∨ 2 ^ 41 < u.hdmbase.toNat + w then s.setHub hub u.refuse
    else (s.setHub hub { u with hdmsize := BitVec.ofNat 64 w }).trimBias hub
  | 0x018 => if port then s.setHub hub { u with doorbell := u.doorbell &&& ~~~(BitVec.ofNat 16 put) } else s
  | 0x020 =>
    let w := word (u.irqtgt.toNat + (if u.irqen then 2 ^ 13 else 0)) 0x3FFF
    s.setHub hub { u with irqtgt := BitVec.ofNat 13 w, irqen := bitOf w 13 }
  | 0x028 => s.setHub hub { u with uetbase := BitVec.ofNat 64 (word u.uetbase.toNat frame) }
  | 0x030 => s.setHub hub (if s.userBound then u.refuse else { u with pkgid := BitVec.ofNat 10 (word u.pkgid.toNat 0x3FF) })
  | 0x040 => s.setHub hub (if bitOf put 0 then { u with cfgerr := false } else u)
  | 0x048 => s.setHub hub { u with taskvec := BitVec.ofNat 48 (word u.taskvec.toNat 0xFFFFFFFFFFFC) }
  | 0x050 =>
    if hub ≠ 0 then s
    else s.setHub 0 (if n ≠ 8 ∨ u.pubResult = 7 then u.refuse
      else { u with pubReq := some (BitVec.ofNat 64 value), pubResult := 7, pubTid := 0 })
  | 0x060 =>
    if hub ≠ 0 then s else if n ≠ 8 then s.setHub 0 u.refuse else s.fenceRequest (value % 32)
  | 0x068 =>
    s.setHub hub { u with mgmt := u.mgmt && !(decide (hub = 0) && bitOf put 2), notice := u.notice && !bitOf put 4 }
  | 0x070 => s.setHub hub (if bitOf put 4 then { u with notice := true } else u)
  | 0x078 => s.setHub hub { u with errstat := u.errstat &&& ~~~(BitVec.ofNat 5 put) }
  | 0x080 => s.setHub hub (if port && bitOf put 0 then { u with memrdy := true } else u)
  | _ => s

/-- The configuration block and the offset in it of a PA of space 3 (R424). -/
def cfgPlace (pa : Nat) : Option (Nat × Nat) :=
  let a := pa % 2 ^ 54
  if a / 2 ^ 24 < 8 ∧ a % 2 ^ 24 < 4096 then some (a / 2 ^ 24, a % 2 ^ 24) else none

end Sys2Proof.Machine
end

