-- ==== Sys2Proof/Machine/Access.lean ====
section
/-! DEFINITION. Sys2Proof/Machine/Access.lean: one access to memory by a hart: the checks of R257 in their order, views,
poison, posted stores, atomics, and the snapshots of control blocks (R214 to R217, R230, R231, R239, R245, R246, R249,
R257, R275, R379). -/

namespace Sys2Proof.Machine

/-- Who makes an access: the hart, its ASN, the privilege it is made at, the core (32 * die + core), lane memory, and the
base that TADDR2 reports. -/
structure Who where
  h : Nat
  asn : BitVec 16
  sup : Bool
  core : Nat
  lm : Bool
  base : Word
  /-- The format records that an instruction takes from a retained snapshot, by number (R227, R275). -/
  pick : BitVec 128 := 0
  /-- The format records that the instruction has read, by number and hub (R237). -/
  recs : Table Nat := []
  /-- The cache class: where its die keeps the line (R61). -/
  cls : Nat := 0
  deriving DecidableEq, Repr

/-- Where an access is held: at a view home, whose block it will look for; in the queue of a line or page at its home; or
elsewhere. -/
inductive Hold where
  | view (r : HeldRead)
  | queue (key : Nat)
  | other
  deriving DecidableEq, Repr

/-- How one access ends: the state, the value and flags; a fault; a hold; or a stop of the model. -/
inductive Eff where
  | ok (s : State) (v : Nat) (f : BitVec 8)
  | fault (t : Trap)
  | held (r : Hold)
  | stop (f : Fault)
  deriving DecidableEq, Repr

/-- The reads of tree nodes and of level pointers, whose lines the coordinate cache holds (R12, R233). -/
def Who.pointers (w : Who) : Who := if w.cls = 3 then w else { w with cls := 2 }

/-- Class 3: no cache of the die allocates on a miss (R61). -/
def Who.noAlloc (w : Who) : Bool := decide (w.cls = 3)

def State.who (s : State) (h : Nat) (sup lm : Bool) (base : Word) : Who :=
  { h := h, asn := (s.hart h).asn, sup := sup, core := (s.hart h).coreNo, lm := lm, base := base }

/-- A memory fault (R259); the driver of a vector instruction adds the element. For FORMAT_REC `reason` is the page's
FREC. -/
def trapMem (cause : BitVec 8) (a base : Word) (lm store : Bool) (reason : Nat) : Trap :=
  ⟨cause, BitVec.ofNat 64 (if cause = causeFORMAT_REC then reason else lm.toNat + 2 * store.toNat + 16 * reason), a, base⟩

def Who.trap (w : Who) (cause : BitVec 8) (a : Word) (store : Bool) (reason : Nat) : Trap :=
  trapMem cause a w.base w.lm store reason

/-- How a view read at the home ends (R379): it is served from the view, with FCSR.VS set or not; it was served before, with
these bytes; or it faults, or is held. -/
inductive ViewEnd where
  | serve (s : State) (vs : Bool)
  | before (rows : List (Nat × List Byte))
  | stale
  | poison
  | held (r : HeldRead)
  deriving DecidableEq, Repr

def State.setFlagVS (s : State) (h : Nat) : State := s.modHart h fun x => x.orFlags flagVS

/-- An access that is held is remembered: a view block with VER at the read's first arrival, or its place in the queue of a
line or page (R282, R356, R362, R379). -/
def State.holdRead (s : State) (h : Nat) (r : Hold) : State :=
  match r with
  | .view r => s.modHart h fun x => if x.heldReads.any fun q => q.reg = r.reg ∧ q.block = r.block then x
      else { x with heldReads := x.heldReads ++ [r] }
  | .queue k => s.queueUp h k
  | .other => s

/-- What the home has served a read of a view block that a hart holds there. -/
def HeldRead.ended (r : HeldRead) : Option ViewEnd := r.got.map fun g => if g.bad then .poison else .before g.rows

/-- A read of a view block arrives at its home (R379). What its load has read of the block before keeps its VER until the
load is done (R276). -/
def State.viewArrive (s : State) (h reg b : Nat) : ViewEnd :=
  let x := s.block reg b
  let mine := (s.hart h).heldReads.find? fun r => r.reg = reg ∧ r.block = b
  let policy := match tfind s.regs reg with
    | some r => r.policy
    | none => 1
  let done (vs : Bool) : ViewEnd := if x.p then .poison else .serve s vs
  match mine.bind HeldRead.ended with
  | some e => e
  | none =>
    if x.st = .fresh then done false
    else match policy with
      | 0 => .held (mine.getD { reg := reg, block := b, ver := x.ver })
      | 1 => done true
      | _ => .stale

/-- The lines of an access found in the directory, as an effect; `go` is what the access then does. -/
def Touch.bind (t : Touch) (w : Who) (a : Word) (store : Bool) (go : State → Eff) : Eff :=
  match t with
  | .ok s => go s
  | .held l => .held (.queue l)
  | .lost d => .fault { trapDieLost d store a with taddr2 := w.base }

/-- The die holds a line under the tag of a hart's access to va, at pa. -/
def State.whoHolds (s : State) (w : Who) (pte : Word) (a pa : Nat) (own : Bool) (l : Nat) : Bool :=
  s.holdsUnder (w.core / 32) w.asn (pteG pte) (granuleAt a pa l) own l

/-- The lines of a hart's access in the directory, behind the accesses that wait for one of them (R356). A line that its die
holds under another tag is a miss (R223). -/
def State.accessLines (s : State) (w : Who) (acc : Access) (pte : Word) (a pa n : Nat) (want : Want) : Touch :=
  let lines := spanLines pa n
  let hit := lines.all (s.whoHolds w pte a pa (want == .own))
  match lines.find? (s.waitsTurn w.h) with
  | some l => .held l
  | none =>
    let s0 := if want.isMiss then lines.foldl (fun u l => u.countMiss w.core w.cls l (s.whoHolds w pte a pa false l)) s else s
    match s0.touchLines (w.core / 32) w.asn (pteG pte) a pa n (if w.noAlloc && !hit then want.noAlloc else want) ⟨w.sup, acc⟩
        (lineGrant pte) with
    | .ok t =>
      .ok (lines.foldl (fun u l => u.fillCopy w.core w.cls (!s.whoHolds w pte a pa false l) (s.forwards (w.core / 32) l) l) (t.leaveHolds w.h lines))
    | r => r

/-- An access that leaves its die for a place that no directory tracks, a peer or a configuration block: the request and its
reply, unless its ASN is tainted, or a resync runs (R271, R396, R397, R406). -/
def State.leaveDie (s : State) (w : Who) (a : Nat) : Touch :=
  match lowestDie (s.taint w.asn) with
  | some d => .lost d
  | none => if s.resync then .held (walkKey w.asn a) else .ok (s.exchange (w.core / 32) (24 + hubOf a) (some w.asn))

/-- The hart holds nothing at a home any more: what its access read there of a view is forgotten, and its places in the
queues of lines and pages are given up. -/
def State.endHolds (s : State) (h : Nat) : State :=
  if (s.hart h).heldReads.isEmpty && !(s.holds.any fun p => p.2 == h) then s.unread h
  else { s.modHart h (fun x => { x with heldReads := [] }) with holds := s.holds.filter fun p => p.2 != h }.unread h

/-- A translation of a hart's access, behind the accesses that wait for its page (R282, R362). -/
def State.accessPage (s : State) (w : Who) (acc : Access) (a : Nat) : Trans :=
  if s.holds.isEmpty then s.translate w.asn w.sup acc a
  else match s.pageTurn w.h w.asn a with
    | some k => .held k
    | none => match s.translate w.asn w.sup acc a with
      | .ok t pa pte => .ok (t.leavePage w.h w.asn a) pa pte
      | r => r

/-- The place and the leaf of a load, a store or a fetch: those of a line that its die holds, where the line's tag permits
the access, which no hub sees then; else those of its translation (R353). -/
def State.hitOrPage (s : State) (w : Who) (acc : Access) (a : Nat) : Trans :=
  match s.tagHit (w.core / 32) w.asn (acc == .store) a with
  | some (pa, g, glob) => if grantPermits g w.sup acc then .ok s pa (tagLeaf g glob) else s.accessPage w acc a
  | none => s.accessPage w acc a

/-- PRIV (R63). -/
def trapPriv : Trap := ⟨causePRIV, 0, 0, 0⟩

/-- A register of a configuration block that only the supervisor may read or write: ATBASE (R3, R350). -/
def cfgSup (off : Nat) : Bool := decide (off / 8 = 0)

/-- What the access does to the directory, by its page (R217). -/
def wantOf (pte : Word) (pa : Nat) (want : Want) : Want :=
  if !pteNC pte then want else if spaceOf pa = 1 then .host else .home

/-- The byte at a PA of what view homes have served a read. -/
def servedByte (rows : List (Nat × List Byte)) (pa : Nat) : Option Byte :=
  rows.findSome? fun p => if p.1 ≤ pa then p.2[pa - p.1]? else none

/-- Poison consumed, or the value (R230, R231); `rows` are bytes that view homes have served before (R379). -/
def State.consume (s : State) (w : Who) (a : Word) (pa n : Nat) (rows : List (Nat × List Byte)) : Eff :=
  let bad (pa n : Nat) : Bool := (spanLines pa n).any (s.readBad w.core w.cls)
  if rows.isEmpty then
    if bad pa n then .fault (w.trap causeDATA_POISON a false 0) else .ok s (s.peek pa n) 0
  else if (List.range n).any fun k => (servedByte rows (pa + k)).isNone && bad (pa + k) 1 then
    .fault (w.trap causeDATA_POISON a false 0)
  else .ok s (leNat ((List.range n).map fun k => (servedByte rows (pa + k)).getD (memGet s.mem (pa + k)))) 0

/-- A load from lane memory (R215, R231). -/
def State.laneLoad (s : State) (w : Who) (core : Nat) (a : Word) (n : Nat) : Eff :=
  if laneSize ≤ a.toNat then .fault (trapMem causePROTECT a w.base true false 0)
  else if s.lanePoisoned core a.toNat n then .fault (trapMem causeDATA_POISON a w.base true false 0)
  else .ok s (s.lanePeek core a.toNat n) 0

/-- A store to lane memory (R215). -/
def State.laneStore (s : State) (w : Who) (core : Nat) (a : Word) (n v : Nat) : Eff :=
  if laneSize ≤ a.toNat then .fault (trapMem causePROTECT a w.base true true 0)
  else .ok (s.laneWrite core a.toNat (leBytes n v)) 0 0

/-- The frontier that a read from die d would give view home v: its own, and the die's (R417). -/
def State.readFrontier (s : State) (v d : Nat) : Table (BitVec 32) :=
  (s.clock d).f.foldl (fun f p => tset f p.1 (serialMax (tget f p.1 0) p.2)) (s.clock (24 + v)).f

/-- A watch query from view home v and the beat of master home m (R417): the state in which m has confirmed a frontier, or none
while m has not delivered the packets below it, with the horizons that it asks for, or v has not delivered m's notices. A
frontier that the last one confirmed covers needs no query. -/
def State.watch (s : State) (v m : Nat) (front : Table (BitVec 32)) : Option State :=
  let known := tget (s.hub v).confirmed m []
  let below (k : Table (BitVec 32)) (p : Nat × BitVec 32) : Bool := serialLt (tget k p.1 0) p.2
  let late (t : State) : List Nat := (front.filter fun p =>
    !t.removed.getLsbD p.1 && decide (p.1 ≠ 24 + m) && below (t.clock (24 + m)).d p).map Prod.fst
  if !(front.any (below known)) then some s
  else
    let s1 := (((late s).foldl (fun t j => t.askHorizon (24 + m) j) s).bring (24 + m)).bring (24 + v)
    let last := tget (s1.clock (24 + m)).last (4 * (24 + v) + 2) 0
    let k := s1.clock (24 + v)
    if !(late s1).isEmpty then none
    else if v ≠ m ∧ (serialLt (tget k.hor (4 * (24 + m) + 2) 0) last ∨
        k.quar.any fun w => w.src == 24 + m && decide (w.cls = 2) && !serialLt last w.num) then none
    else some (s1.modHub v fun u => { u with confirmed := tset u.confirmed m front })

/-- The master homes of a block: the hubs of the granules with a master element of it (R221, R417). -/
def ViewReg.masterHomes (r : ViewReg) (b : Nat) : List Nat :=
  ((List.range r.bh).flatMap fun k =>
    let a := r.masterVa (r.row0 b + k) (r.col0 b)
    (List.range ((a + r.bw * r.es + 4095) / 4096 - a / 4096)).map fun g => hubOf (4096 * (a / 4096 + g))).dedup

/-- How the confirmation of a view read ends: the state, or the view home in whose quarantine it waits (R417). -/
inductive Confirm where
  | ok (s : State)
  | wait (hub : Nat)
  deriving DecidableEq, Repr

/-- Every home of a block's master elements has confirmed a read of the block by an agent (R417). -/
def State.confirmRead (s : State) (agent reg b : Nat) : Confirm :=
  match tfind s.regs reg with
  | none => .ok s
  | some r =>
    match (r.masterHomes b).foldl (fun (o : Option State) m =>
        o.bind fun t => t.watch (r.home b) m (t.readFrontier (r.home b) agent)) (some s) with
    | some t => .ok t
    | none => .wait (r.home b)

/-- The registered view blocks that n bytes at a PA touch (R379). -/
def State.viewBlocksAt (s : State) (pa n : Nat) : List (Nat × Nat) :=
  if s.regs.isEmpty then [] else ((List.range n).filterMap fun k => s.viewBlockOf (pa + k)).dedup

/-- Every registered view block with a byte in a line is FRESH, and none is poisoned: no die keeps a line of another (R379). -/
def State.lineFresh (s : State) (line : Nat) : Bool :=
  (s.viewBlocksAt (128 * line) 128).all fun p => decide ((s.block p.1 p.2).st = .fresh) && !(s.block p.1 p.2).p

/-- The registered view blocks under a read are confirmed, each by its master homes (R417); else the read waits for one. -/
def State.confirmAll (s : State) (agent : Nat) : List (Nat × Nat) → Except Nat State
  | [] => .ok s
  | p :: l => match s.confirmRead agent p.1 p.2 with
    | .ok t => t.confirmAll agent l
    | .wait v => .error (readKey v p)

/-- A read of a line under a VC page that leaves a copy there or on a die is confirmed for every view block of the line (R417). -/
def State.confirmLine (s : State) (agent : Nat) (pte : Word) (line : Nat) : Except Nat State :=
  if pteVC pte then s.confirmAll agent (s.viewBlocksAt (128 * line) 128) else .ok s

/-- A hart's read of a view block has arrived at its home before, and is held there (R379, R417). -/
def State.arrived (s : State) (h : Nat) (p : Nat × Nat) : Bool :=
  (s.hart h).heldReads.any fun q => decide (q.reg = p.1) && decide (q.block = p.2)

/-- The first view read in a quarantine that its master homes confirm is delivered: a hart's stands at the view home from then on, with
VER as it is now (R379, R417). -/
def State.deliverRead (s : State) : Option State :=
  s.clocks.findSome? fun p => p.2.quar.findSome? fun w => w.reader.bind fun r =>
    match s.confirmRead w.src w.view.1 w.view.2 with
    | .wait _ => none
    | .ok t =>
      let u := t.unread r
      some (if r < 2 ^ 32 ∧ !u.arrived r w.view then
        u.modHart r fun x => { x with heldReads := x.heldReads ++ [{ reg := w.view.1, block := w.view.2, ver := (u.block w.view.1 w.view.2).ver }] }
        else u)

/-- The blocks of removed views that have served a hart's reads of some bytes (R383). -/
def State.servedReads (s : State) (h pa n : Nat) : List (Nat × Nat) :=
  ((s.hart h).heldReads.filter fun r => (tfind s.regs r.reg).isNone && match r.got with
    | some g => g.rows.any fun p => decide (p.1 < pa + n) && decide (pa < p.1 + p.2.length)
    | none => false).map fun r => (r.reg, r.block)

/-- The view rules of a load from a VC page, for each block that it reads (R257 step 4); `go` serves the bytes, cached or
not, with those served before. A read that its master homes have not confirmed waits in the quarantine of the view's home. -/
def State.viewLoad (s : State) (w : Who) (a : Word) (go : State → Bool → List (Nat × List Byte) → Eff) :
    List (Nat × Nat) → Bool → List (Nat × List Byte) → Eff
  | [], cached, rows => go s cached rows
  | (reg, b) :: l, cached, rows => match if s.arrived w.h (reg, b) then Confirm.ok s else s.confirmRead (w.core / 32) reg b with
    | .wait v => .held (.queue (readKey v (reg, b)))
    | .ok s0 =>
      let s1 := s0.unread w.h
      match s1.viewArrive w.h reg b with
      | .serve t vs => (if vs then t.setFlagVS w.h else t).viewLoad w a go l (cached && !vs) rows
      | .before r => s1.viewLoad w a go l false (rows ++ r)
      | .stale => .fault (w.trap causeVIEW_STALE a false 0)
      | .poison => .fault (w.trap causeVIEW_POISON a false 0)
      | .held r => .held (.view r)

/-- The lines of spans, by the frames of a registration. -/
def ViewReg.linesOf (r : ViewReg) (l : List (Nat × Nat)) : List Nat :=
  (l.flatMap fun p => (spanLines p.1 p.2).filterMap fun k => (r.pa (128 * k)).map lineOf).dedup

/-- The master elements of a block in row-major order, by their VA. -/
def ViewReg.elemVas (r : ViewReg) (b : Nat) : List Nat :=
  (List.range r.bh).flatMap fun i => (List.range r.bw).map fun j => r.masterVa (r.row0 b + i) (r.col0 b + j)

/-- A hub's packets to the homes of lines, under an ASN, and their replies (R271). -/
def State.sendHomes (s : State) (hub : Nat) (asn : BitVec 16) (lines : List Nat) : State :=
  ((lines.map (homeHub hub)).dedup).foldl (fun t k => t.exchange (24 + hub) (24 + k) (some asn)) s

/-- The page or line at which the curator of a hub has to wait, to read the master lines of a block by their frames: a page under
migration, a line that an engine writes, that the host has, or whose granule is in a flip, or its turn there (R282, R356 to R362,
R378). -/
def State.derivWaits (s : State) (hub : Nat) (r : ViewReg) (spans : List (Nat × Nat)) : Option Nat :=
  (r.linesOf spans).findSome? fun l => s.paWaits (curPlace hub) (128 * l) 128 false

/-- The curator of a hub waits nowhere any more. -/
def State.leaveCurator (s : State) (hub : Nat) : State := { s with holds := s.holds.filter fun p => p.2 != curPlace hub }

/-- The curator of a hub starts its next derivation: it reads the master lines under the lock (R377, R378), or takes its place
where it has to wait; the end of a resync is waited for too. -/
def State.derivStart (s : State) (hub : Nat) : State :=
  let u := s.hub hub
  match u.deriv, u.derivQ with
  | none, (reg, b) :: q => match tfind s.regs reg with
    | none => s.setHub hub ({ u with derivQ := q } : Hub).fillDerivs
    | some r =>
      let spans := (List.range r.bh).map fun i => (r.masterVa (r.row0 b + i) (r.col0 b), r.bw * r.es)
      let lines := r.linesOf spans
      if s.resync then s
      else match s.derivWaits hub r spans with
      | some k => s.queueUp (curPlace hub) k
      | none =>
        let x := s.block reg b
        let pas := (r.elemVas b).map fun va => (r.pa va).getD 0
        let cause := if pas.any fun pa => s.poisoned pa r.es then causeDATA_POISON else 0
        let s0 := (lines.map (homeHub hub)).dedup.foldl State.hbmUse ((s.leaveCurator hub).sendHomes hub r.asn lines)
        ((lines.foldl State.useGot s0).setBlock reg b { x with st := .deriving_ }).modHub hub fun k =>
          ({ k with derivQ := q, deriv := some ⟨reg, b, x.ver, pas.map fun pa => s.peek pa r.es, cause⟩ } : Hub).fillDerivs
  | _, _ => s

/-- A load of n bytes at an address, with the checks of R257 in their order. `formatted` marks an access of VLDF, which
leaves no copy of a view line on the die (R379). -/
def State.loadEl (s : State) (w : Who) (formatted : Bool) (a : Word) (n : Nat) : Eff :=
  if w.lm then s.laneLoad w w.core a n
  else if 2 ^ 48 ≤ a.toNat then .fault (w.trap causeLOAD_PAGE a false 0)
  else match s.hitOrPage w .load a.toNat with
    | .fault c r => .fault (w.trap c a false r)
    | .poison => .fault (w.trap causeDATA_POISON a false 0)
    | .held k => .held (.queue k)
    | .ok s1 pa pte =>
      match spaceOf pa with
      | 3 => match cfgPlace pa with
        | some (hub, off) =>
          if cfgSup off && !w.sup then .fault trapPriv
          else (s1.leaveDie w a.toNat).bind w a false fun u => .ok u (u.cfgRead hub off n) 0
        | none => .stop .mmioUnspecified
      | 2 =>
        let there := (spanLines pa n).all (s1.whoHolds w pte a.toNat pa false)
        if s1.reachable a.toNat pa || (there && !pteNC pte) then
          (s1.accessLines w .load pte a.toNat pa n (if pteNC pte then .home else .read)).bind w a false fun u => u.consume w a pa n []
        else (s1.leaveDie w a.toNat).bind w a false fun _ => .fault (w.trap causeREMOTE_LOST a false 0)
      | _ =>
        let body (t : State) (cached : Bool) (rows : List (Nat × List Byte)) : Eff :=
          (t.accessLines w .load pte a.toNat pa n (wantOf pte pa (if cached then .read else .pass))).bind w a false
            fun u => u.consume w a pa n rows
        let there (l : Nat) : Bool := s1.whoHolds w pte a.toNat pa false l && s1.tagAllows (w.core / 32) l ⟨w.sup, .load⟩
        if pteVC pte && !(!formatted && (spanLines pa n).all there) then
          s1.viewLoad w a (fun t cached => body t (cached && !formatted && (spanLines pa n).all t.lineFresh)) (s1.servedReads w.h pa n ++ s1.viewBlocksAt pa n) true []
        else body s1 true []

/-- A posted store or atomic leaves the package (R245, R399); the peer's home recalls the copies of its lines. `eff` gives
what it stores there and its flags, or its trap. One that cannot reach its destination is sent and never acknowledged;
whether it is performed is not stated (R281), and here it is not. -/
def State.postStore (s : State) (w : Who) (a : Word) (pa n : Nat) (eff : State → Eff) : Eff :=
  if 2 ^ 20 - 1 ≤ (s.hart w.h).outcnt then .held .other
  else (s.leaveDie w a.toNat).bind w a true fun t =>
    let sent (u : State) (f : BitVec 8) : Eff :=
      .ok { u.modHart w.h (fun x => { x with outcnt := x.outcnt + 1 }) with posted := u.posted ++ [⟨w.h, pa⟩] } 0 f
    if !t.reachable a.toNat pa then sent t 0
    else match (spanLines pa n).find? fun l => (t.dirOf l).busy || t.waitsTurn w.h l with
      | some l => .held (.queue l)
      | none => match eff (t.leaveHolds w.h (spanLines pa n)) with
        | .ok u v f => sent (((spanLines pa n).foldl State.recallLine u).write pa (leBytes n v)) f
        | r => r

/-- A store of the low n bytes of v. -/
def State.storeEl (s : State) (w : Who) (a : Word) (n v : Nat) : Eff :=
  if w.lm then s.laneStore w w.core a n v
  else if 2 ^ 48 ≤ a.toNat then .fault (w.trap causeSTORE_PAGE a true 0)
  else match s.hitOrPage w .store a.toNat with
    | .fault c r => .fault (w.trap c a true r)
    | .poison => .fault (w.trap causeDATA_POISON a true 0)
    | .held k => .held (.queue k)
    | .ok s1 pa pte =>
      match spaceOf pa with
      | 3 => match cfgPlace pa with
        | some (hub, off) =>
          if cfgSup off && !w.sup then .fault trapPriv
          else (s1.leaveDie w a.toNat).bind w a true fun u => .ok (u.cfgWrite hub off n v) 0 0
        | none => .stop .mmioUnspecified
      | 2 => s1.postStore w a pa n fun t => .ok t v 0
      | _ =>
        if s1.canWriteMaster pa n then
          (s1.accessLines w .store pte a.toNat pa n (wantOf pte pa .own)).bind w a true
            fun u => .ok ((u.dieWrite (w.core / 32) pa (leBytes n v)).wroteCopy w.core pa n) 0 0
        else .held .other

/-- An atomic in lane memory (R231, R246). -/
def State.laneAtomic (s : State) (w : Who) (core : Nat) (a : Word) (n : Nat) (f : Nat → Option Nat × BitVec 8) : Eff :=
  if laneSize ≤ a.toNat then .fault (trapMem causePROTECT a w.base true true 0)
  else if s.lanePoisoned core a.toNat n then .fault (trapMem causeDATA_POISON a w.base true true 0)
  else
    let old := s.lanePeek core a.toNat n
    .ok (match (f old).1 with
      | some v => s.laneWrite core a.toNat (leBytes n v)
      | none => s) old (f old).2

/-- An atomic: one read and at most one write at the home; `f` gives the new value, if it stores, and the flags; `post`
marks an atomic that returns no value (R245 to R249). -/
def State.atomicEl (s : State) (w : Who) (a : Word) (n : Nat) (post : Bool) (f : Nat → Option Nat × BitVec 8) : Eff :=
  if w.lm then s.laneAtomic w w.core a n f
  else if 2 ^ 48 ≤ a.toNat then .fault (w.trap causeSTORE_PAGE a true 0)
  else match s.accessPage w .store a.toNat with
    | .fault c r => .fault (w.trap c a true r)
    | .poison => .fault (w.trap causeDATA_POISON a true 0)
    | .held k => .held (.queue k)
    | .ok s1 pa pte =>
      let sp := spaceOf pa
      if sp = 3 ∨ (sp ≠ 0 ∧ pteNC pte) then .fault (w.trap causeATOMIC_ROUTE a true 0)
      else
        let poison : Eff := .fault (w.trap causeDATA_POISON a true 0)
        let put (t : State) : State × Nat × BitVec 8 :=
          let old := t.peek pa n
          (match (f old).1 with
            | some v => t.homeWrite pa (leBytes n v)
            | none => t, old, (f old).2)
        let act (want : State → Bool) : Eff :=
          (s1.accessLines w .store pte a.toNat pa n .home).bind w a true
            fun u => if want u then .ok (put u).1 (put u).2.1 (put u).2.2 else poison
        if sp = 2 then
          if post then s1.postStore w a pa n fun t =>
            if t.poisoned pa n then poison else .ok t ((f (t.peek pa n)).1.getD (t.peek pa n)) (f (t.peek pa n)).2
          else if !s1.reachable a.toNat pa then
            (s1.leaveDie w a.toNat).bind w a true fun _ => .fault (w.trap causeREMOTE_LOST a true 0)
          else act fun u => !u.poisoned pa n
        else if !s1.canWriteMaster pa n then .held .other
        else act fun u => !u.poisoned pa n

/-- The new value of an atomic op under W, and its flags (R246). -/
def atomicNew (op w b old : Nat) : Nat × BitVec 8 :=
  let n := typeBits w
  match op with
  | 0 => (b % 2 ^ n, 0)
  | 1 => ((old + b) % 2 ^ n, 0)
  | 2 => (Nat.land old (b % 2 ^ n), 0)
  | 3 => (Nat.lor old (b % 2 ^ n), 0)
  | 4 => (Nat.xor old (b % 2 ^ n), 0)
  | 5 => (if intVal w b < intVal w old then b % 2 ^ n else old, 0)
  | 6 => (if intVal w old < intVal w b then b % 2 ^ n else old, 0)
  | _ => let r := (fmtOf w).add 0 false old (b % 2 ^ n); (r.code, r.flags)

def atomicStep (op w b old : Nat) : Option Nat × BitVec 8 := (some (atomicNew op w b old).1, (atomicNew op w b old).2)

/-- CAS: b on equality (R246). -/
def casStep (expect b old : Nat) : Option Nat × BitVec 8 := (if old = expect then some b else none, 0)

/-- Of a retained and a newly read snapshot, the one that an instruction uses: where they differ, either (R275). The choice
is a free value (log 8). -/
def State.pickSnap (s : State) (old : Option (List Byte)) (new : List Byte) : List Byte × State :=
  match old with
  | none => (new, s)
  | some o => if o = new then (new, s) else (if s.takeFree.1.getLsbD 0 then o else new, s.takeFree.2)

/-- A control block of 128 bytes read as one snapshot, which is retained; a snapshot retained before may serve in its stead
(R237, R275, log 8). -/
def State.readBlock (s : State) (w : Who) (a : Word) : Eff :=
  match s.loadEl w false a 128 with
  | .ok t v f =>
    let same (b : BlockSnap) : Bool := b.asn == w.asn && decide (b.va = a.toNat)
    let p := t.pickSnap ((t.blockSnaps.find? same).map BlockSnap.data) (leBytes 128 v)
    let line := match t.translate w.asn w.sup .load a.toNat with
      | .ok _ pa _ => lineOf pa
      | _ => 0
    .ok { p.2 with blockSnaps := p.2.blockSnaps.filter (fun b => !same b) ++ [⟨w.asn, a.toNat, line, p.1⟩] } (leNat p.1) f
  | x => x

/-- Retained snapshots are discarded (R251, R355). -/
def State.dropBlockSnaps (s : State) (p : BlockSnap → Bool) : State :=
  { s with blockSnaps := s.blockSnaps.filter fun b => !p b }

/-- How a format record is found (R227, R228, R350). -/
inductive Record where
  | ok (s : State) (x : Nat)
  | ill
  | poison
  | held (r : Hold)
  deriving DecidableEq, Repr

/-- The choice, for the records of one instruction, between retained and newly read snapshots: free values (R275, log 8). -/
def State.drawPick (s : State) : BitVec 128 × State :=
  if s.frecSnaps.isEmpty then (0, s) else (s.takeFree.1 ++ s.takeFree.2.takeFree.1, s.takeFree.2.takeFree.2)

/-- Record n of an ASN, read for hart h by the hub of an address, as a new snapshot or, where `old` holds, a retained one
(R227, R237, R275). -/
def State.readRecord (s : State) (h : Nat) (asn : BitVec 16) (va n : Nat) (old : Bool) : Record :=
  match s.asnEntry (hubOf va) asn with
  | .poison => .poison
  | .held _ => .held (.queue (walkKey asn va))
  | .value ent =>
    let base := asnFrBase ent
    if !inLocalHbm base then .ill
    else if s.resync && hubOfPa (base + 32 * n) ≠ hubOf va then .held (.queue (walkKey asn va))
    else match s.readEntry h (base + 32 * n) 32 with
      | .poison => .poison
      | .held l => .held (.queue l)
      | .value x =>
        let same (f : FrecSnap) : Bool := f.asn == asn && decide (f.n = n)
        let d := (if old then (s.frecSnaps.find? same).map FrecSnap.data else none).getD (leBytes 32 x)
        let home := hubOfPa (base + 32 * n)
        let t := (((s.noteEntry asn va).askHomes (hubOf va) [home]).hbmUse home).leaveHolds h [lineOf (base + 32 * n)]
        .ok { t with frecSnaps := t.frecSnaps.filter (fun f => !same f) ++ [⟨asn, n, d⟩] } (leNat d)

/-- The fields of a format record (R227). -/
structure FRec where
  code : Nat
  log2row : Nat
  sstride : Nat
  dbase : Nat
  sbase : Nat
  deriving DecidableEq, Repr

def frecOf (x : Nat) : FRec := ⟨bitsOf x 0 8, bitsOf x 8 8, bitsOf x 32 32, bitsOf x 64 64, bitsOf x 128 64⟩

/-- The bytes of a scale (R226). -/
def scaleSize (code : Nat) : Nat := if code = 4 then 1 else 4

/-- The record is well formed under a PTE's FMT, but for what concerns an address (R228). -/
def frecOk (x fmt : Nat) : Bool :=
  let r := frecOf x
  let check := (List.range 31).foldl (fun a k => Nat.xor a (bitsOf x (8 * k) 8)) 0x5A
  decide (bitsOf x 248 8 = check) && decide (1 ≤ r.code) && decide (r.code ≤ 4) && decide (r.code = fmt) &&
    (if r.code = 2 then decide (7 ≤ r.log2row) && decide (r.log2row ≤ 24) else decide (r.log2row = 0)) &&
    decide (bitsOf x 16 16 = 0) && decide (bitsOf x 192 56 = 0) &&
    decide (r.sstride ≠ 0) && decide (r.sstride % scaleSize r.code = 0) && decide (r.dbase % 128 = 0) &&
    decide (r.dbase < 2 ^ 48) && decide (r.sbase % scaleSize r.code = 0) && decide (r.sbase < 2 ^ 48)

/-- The address of the scale of an element at x ≥ DBASE (R227). -/
def FRec.scaleAddr (r : FRec) (x : Nat) : Word :=
  BitVec.ofNat 64 (r.sbase + scaleIndex r.code r.log2row (x - r.dbase) * r.sstride)

/-- FORMAT_REC (R259). -/
def trapFormat (a base : Word) (frec : Nat) (mismatch : Bool) : Trap :=
  ⟨causeFORMAT_REC, BitVec.ofNat 64 (frec + (if mismatch then 128 else 0)), a, base⟩

end Sys2Proof.Machine
end

