-- ==== Sys2Proof/Machine/VecArith.lean ====
section
/-! DEFINITION. Sys2Proof/Machine/VecArith.lean: what the vector unit does with the entries of groups 0x3 and 0x4, and
their push checks (R132 to R149). -/

namespace Sys2Proof.Machine

/-- How the vector unit ends with an entry that touches the hart's registers alone: done, with flags and a scalar for a
join; a vector fault, with the flags of the part performed; or a data-dependent entry that stands at a step boundary,
with its partial sum (R187, R188). -/
inductive HRes where
  | done (x : Hart) (f : BitVec 8) (r : Option Word)
  | fault (x : Hart) (f : BitVec 8) (t : Trap)
  | part (x : Hart) (f : BitVec 8) (acc : Word)
  deriving DecidableEq, Repr

/-- The flags of the active elements, ORed (R98). -/
def flagsOver (e : QEntry) (o : Fields) (x : Hart) (f : Nat → FRes) : BitVec 8 :=
  (List.range e.vl).foldl (fun a i => if activeAt e o x i then a ||| (f i).flags else a) 0

/-- Each active element of the n-bit group at D takes the code f gives it; every other element keeps its value (R133). -/
def mapElems (e : QEntry) (o : Fields) (x : Hart) (n : Nat) (f : Nat → FRes) : HRes :=
  .done (x.setElems e.vd n e.vl fun i => if activeAt e o x i then some (f i).code else none) (flagsOver e o x f) none

/-- An element-wise integer instruction with two sources: y of R140. -/
def intElems (e : QEntry) (o : Fields) (x : Hart) (y : Int → Int → Int) : HRes :=
  let w := o.w.toNat
  let n := typeBits w
  mapElems e o x n fun i => ⟨wrapNat n (y (intVal w (x.velem e.va n i)) (intVal w (srcbAt e o x w n i))), 0⟩

/-- An element-wise instruction on n-bit patterns. -/
def patElems (e : QEntry) (o : Fields) (x : Hart) (y : Nat → Nat → Nat → Nat) : HRes :=
  let w := o.w.toNat
  let n := typeBits w
  mapElems e o x n fun i => ⟨y n (x.velem e.va n i) (srcbAt e o x w n i) % 2 ^ n, 0⟩

/-- A saturating element-wise instruction (VSADD, VSSUB). -/
def satElems (e : QEntry) (o : Fields) (x : Hart) (y : Int → Int → Int) : HRes :=
  let w := o.w.toNat
  let n := typeBits w
  mapElems e o x n fun i =>
    let r := clampInt (intMin w) (intMax w) (y (intVal w (x.velem e.va n i)) (intVal w (srcbAt e o x w n i)))
    ⟨wrapNat n r.1, r.2⟩

/-- An element-wise floating instruction with two sources and the old destination element. -/
def floatElems (e : QEntry) (o : Fields) (x : Hart) (y : Fmt → Nat → Bool → Nat → Nat → Nat → FRes) : HRes :=
  let w := o.w.toNat
  let n := typeBits w
  mapElems e o x n fun i =>
    y (fmtOf w) (roundMode o e.rm) (satBit o) (x.velem e.va n i) (srcbAt e o x w n i) (x.velem e.vd n i)

/-- Push checks of a same-width instruction whose B is a vector unless it is broadcast or an immediate (R134). -/
def check2 (o : Fields) (x : Hart) : Option PushIll :=
  let t := x.vtPush
  firstIll [widthIll o t, alignIll x o.d t.regs, alignIll x o.a t.regs,
    if o.i || o.f.getLsbD 7 then none else alignIll x o.b t.regs, mskIll o t]

/-- Push checks of a same-width instruction with one vector source. -/
def check1 (o : Fields) (x : Hart) : Option PushIll :=
  let t := x.vtPush
  firstIll [widthIll o t, alignIll x o.d t.regs, alignIll x o.a t.regs, mskIll o t]

/-- Push checks of a comparison: D is a mask group (R134, R141). -/
def checkCmp (o : Fields) (x : Hart) : Option PushIll :=
  let t := x.vtPush
  firstIll [widthIll o t, maskIll o.d.toNat t.maskRegs, alignIll x o.a t.regs,
    if o.i || o.f.getLsbD 7 then none else alignIll x o.b t.regs, mskIll o t]

/-- Push checks where D is k times as wide as SEW and A and a vector B are narrow (R134). DESIGN CHOICE (log 50): the alignment
is tested before the overlap of the two widths, which reports the wide operand. -/
def checkWiden (o : Fields) (x : Hart) (k : Nat) (vecB : Bool) : Option PushIll :=
  let t := x.vtPush
  let d := resolveVec x o.d
  let bad := overlaps d (k * t.regs) (resolveVec x o.a) t.regs ||
    (vecB && overlaps d (k * t.regs) (resolveVec x o.b) t.regs)
  firstIll [regIll x o.d (decide (8 < k * t.regs)), alignIll x o.d (k * t.regs), alignIll x o.a t.regs,
    if vecB then alignIll x o.b t.regs else none, regIll x o.d bad, mskIll o t]

/-- Push checks where A is k times as wide as SEW and D and a vector B are narrow (R134). DESIGN CHOICE (log 50): as for
`checkWiden`, the alignment comes first, and an overlap reports the wide operand. -/
def checkNarrow (o : Fields) (x : Hart) (k : Nat) (vecB : Bool) : Option PushIll :=
  let t := x.vtPush
  let a := resolveVec x o.a
  let bad := overlaps a (k * t.regs) (resolveVec x o.d) t.regs ||
    (vecB && overlaps a (k * t.regs) (resolveVec x o.b) t.regs)
  firstIll [regIll x o.a (decide (8 < k * t.regs)), alignIll x o.d t.regs, alignIll x o.a (k * t.regs),
    if vecB then alignIll x o.b t.regs else none, regIll x o.a bad, mskIll o t]

/-- Push checks of VWADD and VWMUL (R142). -/
def checkVwide (o : Fields) (x : Hart) : Option PushIll :=
  firstIll [widthIll o x.vtPush, checkWiden o x 2 (!(o.i || o.f.getLsbD 7))]

/-- Push checks of VNSHR (R143). -/
def checkVnshr (o : Fields) (x : Hart) : Option PushIll :=
  firstIll [widthIll o x.vtPush, checkNarrow o x 2 (!(o.i || o.f.getLsbD 7))]

/-- Push checks of VFCVT: SEW is the narrower of the two widths (R134, R147). -/
def checkVfcvt (o : Fields) (x : Hart) : Option PushIll :=
  let t := x.vtPush
  let nd := typeBits o.w.toNat
  let ns := typeBits (fN o / 16)
  firstIll [valueIll (decide (min nd ns ≠ t.bits)) t.sew.toNat,
    if nd = ns then firstIll [alignIll x o.d t.regs, alignIll x o.a t.regs, mskIll o t]
    else if ns < nd then checkWiden o x (nd / ns) false else checkNarrow o x (ns / nd) false]

/-- Push checks of VFQNT (R148): `wide` is the FP32 operand. -/
def checkQuant (o : Fields) (x : Hart) (wide narrow : BitVec 8) : Option PushIll :=
  let t := x.vtPush
  let v := resolveVec x o.b
  let wd := resolveVec x wide
  let nr := resolveVec x narrow
  firstIll [valueIll (decide (t.bits ≠ 8)) t.sew.toNat, regIll x wide (decide (2 < t.regs)),
    alignIll x narrow t.regs, alignIll x wide (4 * t.regs), alignIll x o.b 1,
    regIll x wide (overlaps wd (4 * t.regs) nr t.regs),
    regIll x o.b (overlaps v 1 nr t.regs || overlaps v 1 wd (4 * t.regs)), mskIll o t]

/-- Push checks of VFQNT and VFDQNT. -/
def checkVfqnt (o : Fields) (x : Hart) : Option PushIll := checkQuant o x o.a o.d
def checkVfdqnt (o : Fields) (x : Hart) : Option PushIll := checkQuant o x o.d o.a

/-- Push checks of VID (R144). -/
def checkVid (o : Fields) (x : Hart) : Option PushIll :=
  firstIll [widthIll o x.vtPush, alignIll x o.d x.vtPush.regs, mskIll o x.vtPush]

/-- Push checks of VIOTA (R144). -/
def checkViota (o : Fields) (x : Hart) : Option PushIll :=
  firstIll [widthIll o x.vtPush, alignIll x o.d x.vtPush.regs, maskIll o.a.toNat x.vtPush.maskRegs, mskIll o x.vtPush]

/-- VADD (R140). -/
def perfVadd (e : QEntry) (o : Fields) (x : Hart) : HRes :=
  intElems e o x (· + ·)

/-- VSUB (R140). -/
def perfVsub (e : QEntry) (o : Fields) (x : Hart) : HRes :=
  intElems e o x (· - ·)

/-- VMUL (R140). -/
def perfVmul (e : QEntry) (o : Fields) (x : Hart) : HRes :=
  intElems e o x (· * ·)

/-- VMULH (R140). -/
def perfVmulh (e : QEntry) (o : Fields) (x : Hart) : HRes :=
  intElems e o x fun a b => (a * b) / (2 ^ typeBits o.w.toNat : Nat)

/-- VMADD: the old destination element is the third source (R140). -/
def perfVmadd (e : QEntry) (o : Fields) (x : Hart) : HRes :=
  let w := o.w.toNat
  let n := typeBits w
  mapElems e o x n fun i =>
    ⟨wrapNat n (intVal w (x.velem e.va n i) * intVal w (srcbAt e o x w n i) + intVal w (x.velem e.vd n i)), 0⟩

/-- VDIV (R114, R140). -/
def perfVdiv (e : QEntry) (o : Fields) (x : Hart) : HRes :=
  intElems e o x (intDiv o.w.toNat)

/-- VREM (R114, R140). -/
def perfVrem (e : QEntry) (o : Fields) (x : Hart) : HRes :=
  intElems e o x intRem

/-- VAND (R140). -/
def perfVand (e : QEntry) (o : Fields) (x : Hart) : HRes :=
  patElems e o x fun _ a b => Nat.land a b

/-- VOR (R140). -/
def perfVor (e : QEntry) (o : Fields) (x : Hart) : HRes :=
  patElems e o x fun _ a b => Nat.lor a b

/-- VXOR (R140). -/
def perfVxor (e : QEntry) (o : Fields) (x : Hart) : HRes :=
  patElems e o x fun _ a b => Nat.xor a b

/-- VSHL (R140). -/
def perfVshl (e : QEntry) (o : Fields) (x : Hart) : HRes :=
  patElems e o x fun n a b => a * 2 ^ (b % n)

/-- VSHR (R140). -/
def perfVshr (e : QEntry) (o : Fields) (x : Hart) : HRes :=
  patElems e o x fun n a b => a / 2 ^ (b % n)

/-- VSRA: the first source is read as signed whatever W says (R140). -/
def perfVsra (e : QEntry) (o : Fields) (x : Hart) : HRes :=
  patElems e o x fun n a b => wrapNat n (signedVal n a / (2 ^ (b % n) : Nat))

/-- VMIN (R140). -/
def perfVmin (e : QEntry) (o : Fields) (x : Hart) : HRes :=
  intElems e o x min

/-- VMAX (R140). -/
def perfVmax (e : QEntry) (o : Fields) (x : Hart) : HRes :=
  intElems e o x max

/-- VABSD (R140). -/
def perfVabsd (e : QEntry) (o : Fields) (x : Hart) : HRes :=
  intElems e o x fun a b => ((a - b).natAbs : Int)

/-- VSADD (R140). -/
def perfVsadd (e : QEntry) (o : Fields) (x : Hart) : HRes :=
  satElems e o x (· + ·)

/-- VSSUB (R140). -/
def perfVssub (e : QEntry) (o : Fields) (x : Hart) : HRes :=
  satElems e o x (· - ·)

/-- VCMP (R141): with VSTART at or above VL it has no effect (R96). -/
def perfVcmp (e : QEntry) (o : Fields) (x : Hart) : HRes :=
  let w := o.w.toNat
  let n := typeBits w
  if e.vl ≤ x.vstart.toNat then .done x 0 none
  else .done (x.setMaskBits o.d.toNat e.vl fun i => activeAt e o x i &&
    intCond (fN o % 16) (intVal w (x.velem e.va n i)) (intVal w (srcbAt e o x w n i))) 0 none

/-- VSEL: the mask selects rather than enables (R141). -/
def perfVsel (e : QEntry) (o : Fields) (x : Hart) : HRes :=
  let n := typeBits o.w.toNat
  .done (x.setElems e.vd n e.vl fun i =>
    if i < x.vstart.toNat then none
    else some (if x.maskBit o.mskM.toNat i then x.velem e.va n i else srcbAt e o x o.w.toNat n i)) 0 none

/-- VWADD (R142). -/
def perfVwadd (e : QEntry) (o : Fields) (x : Hart) : HRes :=
  let w := o.w.toNat
  let n := typeBits w
  mapElems e o x (2 * n) fun i =>
    ⟨wrapNat (2 * n) (intVal w (x.velem e.va n i) + intVal w (srcbAt e o x w n i)), 0⟩

/-- VWMUL (R142). -/
def perfVwmul (e : QEntry) (o : Fields) (x : Hart) : HRes :=
  let w := o.w.toNat
  let n := typeBits w
  mapElems e o x (2 * n) fun i =>
    ⟨wrapNat (2 * n) (intVal w (x.velem e.va n i) * intVal w (srcbAt e o x w n i)), 0⟩

/-- VNSHR (R143). -/
def perfVnshr (e : QEntry) (o : Fields) (x : Hart) : HRes :=
  let w := o.w.toNat
  let n := typeBits w
  mapElems e o x n fun i =>
    let v := x.velem e.va (2 * n) i
    let a : Int := if typeSigned w then signedVal (2 * n) v else v
    let y := a / (2 ^ (srcbAt e o x w n i % (2 * n)) : Nat)
    let r := if satBit o then clampInt (intMin w) (intMax w) y else (y, 0)
    ⟨wrapNat n r.1, r.2⟩

/-- VID (R144). -/
def perfVid (e : QEntry) (o : Fields) (x : Hart) : HRes :=
  let n := typeBits o.w.toNat
  mapElems e o x n fun i => ⟨i % 2 ^ n, 0⟩

/-- VIOTA: the count takes no account of the enabling mask (R144). -/
def perfViota (e : QEntry) (o : Fields) (x : Hart) : HRes :=
  let n := typeBits o.w.toNat
  mapElems e o x n fun i => ⟨((List.range i).filter fun j => x.maskBit o.a.toNat j).length % 2 ^ n, 0⟩

/-- VFADD (R145). -/
def perfVfadd (e : QEntry) (o : Fields) (x : Hart) : HRes :=
  floatElems e o x fun fm m s a b _ => fm.add m s a b

/-- VFSUB (R145). -/
def perfVfsub (e : QEntry) (o : Fields) (x : Hart) : HRes :=
  floatElems e o x fun fm m s a b _ => fm.sub m s a b

/-- VFMUL (R145). -/
def perfVfmul (e : QEntry) (o : Fields) (x : Hart) : HRes :=
  floatElems e o x fun fm m s a b _ => fm.mul m s a b

/-- VFMA (R145). -/
def perfVfma (e : QEntry) (o : Fields) (x : Hart) : HRes :=
  floatElems e o x fun fm m s a b c => fm.fma m s false a b c

/-- VFNMA (R145). -/
def perfVfnma (e : QEntry) (o : Fields) (x : Hart) : HRes :=
  floatElems e o x fun fm m s a b c => fm.fma m s true a b c

/-- VFDIV (R145). -/
def perfVfdiv (e : QEntry) (o : Fields) (x : Hart) : HRes :=
  floatElems e o x fun fm m s a b _ => fm.div m s a b

/-- VFSQRT (R145). -/
def perfVfsqrt (e : QEntry) (o : Fields) (x : Hart) : HRes :=
  floatElems e o x fun fm m s a _ _ => fm.sqrt m s a

/-- VFEXP (R145). -/
def perfVfexp (e : QEntry) (o : Fields) (x : Hart) : HRes :=
  floatElems e o x fun fm m s a _ _ => fm.exp m s a

/-- VFMIN (R117, R146). -/
def perfVfmin (e : QEntry) (o : Fields) (x : Hart) : HRes :=
  floatElems e o x fun fm _ _ a b _ => fm.minMax false a b

/-- VFMAX (R117, R146). -/
def perfVfmax (e : QEntry) (o : Fields) (x : Hart) : HRes :=
  floatElems e o x fun fm _ _ a b _ => fm.minMax true a b

/-- VFCMP (R60, R141, R146): with VSTART at or above VL it has no effect (R96). -/
def perfVfcmp (e : QEntry) (o : Fields) (x : Hart) : HRes :=
  let w := o.w.toNat
  let n := typeBits w
  let c := fun i => (fmtOf w).cond (fN o % 8) (x.velem e.va n i) (srcbAt e o x w n i)
  if e.vl ≤ x.vstart.toNat then .done x 0 none
  else .done (x.setMaskBits o.d.toNat e.vl fun i => activeAt e o x i && (c i).1)
    (flagsOver e o x fun i => ⟨0, (c i).2⟩) none

/-- VFCLASS (R146). -/
def perfVfclass (e : QEntry) (o : Fields) (x : Hart) : HRes :=
  floatElems e o x fun fm _ _ a _ _ => ⟨2 ^ fm.classBit a, 0⟩

/-- VFCVT: each element as FCVT converts it (R119, R147). -/
def perfVfcvt (e : QEntry) (o : Fields) (x : Hart) : HRes :=
  let src := fN o / 16
  mapElems e o x (typeBits o.w.toNat) fun i =>
    convertType src o.w.toNat (roundMode o e.rm) (satBit o) (x.velem e.va (typeBits src) i)

/-- VFSCALE: the exponent is a signed integer of SEW bits, or IMM sign-extended (R145). -/
def perfVfscale (e : QEntry) (o : Fields) (x : Hart) : HRes :=
  let w := o.w.toNat
  let n := typeBits w
  mapElems e o x n fun i =>
    let k : Int := if o.i then o.imm.toInt else signedVal n (srcbAt e o x w n i)
    (fmtOf w).scale (roundMode o e.rm) (satBit o) (x.velem e.va n i) k

/-- VFSGN (R146). -/
def perfVfsgn (e : QEntry) (o : Fields) (x : Hart) : HRes :=
  floatElems e o x fun fm _ _ a b _ =>
    let s := match fN o % 4 with
      | 0 => fm.isNeg b
      | 1 => !fm.isNeg b
      | _ => fm.isNeg a != fm.isNeg b
    ⟨fm.withSign s (fm.mag a), 0⟩

/-- VFAMAX (R146). -/
def perfVfamax (e : QEntry) (o : Fields) (x : Hart) : HRes :=
  floatElems e o x fun fm _ _ a b _ => ⟨max (fm.finMag a) (fm.finMag b), 0⟩

/-- A positive finite FP32 code (R148). -/
def positiveFinite (s : Nat) : Bool :=
  !fmtF32.isNaN s && !fmtF32.isInf s && !fmtF32.isNeg s && !fmtF32.isZero s

/-- The largest magnitude among the finite elements of a block that p selects (R41). -/
def blockAmax (vl b j : Nat) (p : Nat → Bool) (f : Nat → Nat) : Nat :=
  (List.range b).foldl (fun a k => if p (j * b + k) && decide (j * b + k < vl) then max a (fmtF32.finMag (f (j * b + k))) else a) 0

/-- The scale a quantising instruction gives a block of largest magnitude amax: FP32, or E8M0 for MXI8 (R41, R42). -/
def scaleOf (w amax : Nat) : Nat := if w = 14 then mxScale amax else quantScale (fmtOf w) amax

/-- One FP32 element under a scale: by R41, R42, or the default NaN under a given scale that is not positive and finite
(R148). -/
def quantUnder (w : Nat) (gs : Bool) (s v : Nat) : FRes :=
  if w = 14 then mxElem s v
  else if gs && !positiveFinite s then ⟨(fmtOf w).nanCode, flagNV⟩
  else quantElem (fmtOf w) s v

/-- The bits of a scale and the block size of a scaled format (R148). -/
def scaleBits (w : Nat) : Nat := if w = 14 then 8 else 32
def blockSize (w : Nat) : Nat := if w = 14 then 32 else 128

/-- VFQNT (R148). -/
def perfVfqnt (e : QEntry) (o : Fields) (x : Hart) : HRes :=
  let w := o.w.toNat
  let b := blockSize w
  let gs := o.f.getLsbD 0
  let act := activeAt e o x
  let src := fun i => x.velem e.va 32 i
  let hasActive := fun j => (List.range b).any fun k => act (j * b + k)
  let scales := (List.range ((e.vl + b - 1) / b)).map fun j =>
    if gs then x.velem e.vb (scaleBits w) j else scaleOf w (blockAmax e.vl b j act src)
  let code := fun i => quantUnder w gs (scales[i / b]?.getD 0) (src i)
  let y := x.setElems e.vd 8 e.vl fun i => if act i then some (code i).code else none
  let z := if gs then y else y.setElems e.vb (scaleBits w) ((e.vl + b - 1) / b) fun j =>
    if hasActive j then some (scales[j]?.getD 0) else none
  .done z (flagsOver e o x code) none

/-- RESERVED_CODE at element i, for a scale or an element code (R30, R150). -/
def trapReserved (scale : Bool) : Trap := ⟨causeRESERVED_CODE, if scale then 0x10E else 0x00E, 0, 0⟩

/-- A code of a scaled format under its scale, as FP32 (R40, R39, R149). DESIGN CHOICE (log 49): a NaN or infinite code sets
no NV for a scale that is a signalling NaN. -/
def dequant (w s c : Nat) : FRes :=
  if w = 14 then
    let v := signedVal 8 c
    if v = 0 then ⟨0, 0⟩ else rneF32 (decide (v < 0)) v.natAbs 1 ((s : Int) - 133)
  else
    let fm := fmtOf w
    if fm.isNaN c then ⟨fmtF32.nanCode, flagIf (fm.isSNaN c) flagNV⟩
    else if fm.isInf c then ⟨fmtF32.withSign (fm.isNeg c) fmtF32.infCode, 0⟩
    else fmtF32.mul 0 false (convertFF fm fmtF32 0 false c).code s

/-- The first element, from VSTART on, at which VFDQNT finds a reserved code: its index, and whether a scale held it
(R149). -/
def vfdqntStop (e : QEntry) (o : Fields) (x : Hart) : Option (Nat × Bool) :=
  if o.w.toNat = 14 then
    ((List.range e.vl).filter fun i => activeAt e o x i).findSome? fun i =>
      if x.velem e.vb 8 (i / 32) = 0xFF then some (i / 32 * 32, true)
      else if x.velem e.va 8 i = 0x80 then some (i, false) else none
  else none

/-- VFDQNT (R149, R150). -/
def perfVfdqnt (e : QEntry) (o : Fields) (x : Hart) : HRes :=
  let w := o.w.toNat
  let code := fun i => dequant w (x.velem e.vb (scaleBits w) (i / blockSize w)) (x.velem e.va 8 i)
  match vfdqntStop e o x with
  | none => mapElems e o x 32 code
  | some (k, sc) =>
    let act := fun i => activeAt e o x i && decide (i < k)
    let y := x.setElems e.vd 32 e.vl fun i => if act i then some (code i).code else none
    let f := (List.range k).foldl (fun a i => if act i then a ||| (code i).flags else a) 0
    .fault { y with vstart := BitVec.ofNat 12 k } f (trapReserved sc)

end Sys2Proof.Machine
end

