-- ==== Sys2Proof/Machine/VecPermute.lean ====
section
/-! DEFINITION. Sys2Proof/Machine/VecPermute.lean: what the vector unit does with the entries of group 0x5, and their
push checks (R152 to R174). -/

namespace Sys2Proof.Machine

/-- Element j of the source group, absent (0) at and above VL (R154, R157). -/
def srcElem (e : QEntry) (x : Hart) (n j : Nat) : Nat := if j < e.vl then x.velem e.va n j else 0

/-- The offset or index operand: a captured scalar, or IMM zero-extended (R152). -/
def offOf (e : QEntry) (o : Fields) : Nat := if o.i then o.imm.toNat else (e.cap 0).toNat

/-- VSLIDEUP (R157). -/
def perfVslideup (e : QEntry) (o : Fields) (x : Hart) : HRes :=
  let n := typeBits o.w.toNat
  .done (x.setElems e.vd n e.vl fun i =>
    if activeAt e o x i && decide (offOf e o ≤ i) then some (srcElem e x n (i - offOf e o)) else none) 0 none

/-- VSLIDEDN (R157). -/
def perfVslidedn (e : QEntry) (o : Fields) (x : Hart) : HRes :=
  let n := typeBits o.w.toNat
  mapElems e o x n fun i => ⟨srcElem e x n (i + offOf e o), 0⟩

/-- The element VSLIDEIN inserts: a captured scalar, or IMM of type W (R158). -/
def slideIn (e : QEntry) (o : Fields) : Nat := if o.i then (immValue o.w.toNat o.imm).toNat else (e.cap 0).toNat

/-- VSLIDEIN.UP (R158). -/
def perfVslideinUp (e : QEntry) (o : Fields) (x : Hart) : HRes :=
  let n := typeBits o.w.toNat
  mapElems e o x n fun i => ⟨if i = 0 then slideIn e o else srcElem e x n (i - 1), 0⟩

/-- VSLIDEIN.DN (R158). -/
def perfVslideinDn (e : QEntry) (o : Fields) (x : Hart) : HRes :=
  let n := typeBits o.w.toNat
  mapElems e o x n fun i => ⟨if i + 1 = e.vl then slideIn e o else srcElem e x n (i + 1), 0⟩

/-- VPERM (R157). -/
def perfVperm (e : QEntry) (o : Fields) (x : Hart) : HRes :=
  let n := typeBits o.w.toNat
  mapElems e o x n fun i => ⟨srcElem e x n (x.velem e.vb n i), 0⟩

/-- VXCH (R157). -/
def perfVxch (e : QEntry) (o : Fields) (x : Hart) : HRes :=
  let n := typeBits o.w.toNat
  mapElems e o x n fun i =>
    let j := Nat.xor i (2 ^ o.b.toNat)
    ⟨if j < e.vl then x.velem e.va n j else x.velem e.va n i, 0⟩

/-- VBCAST (R157). -/
def perfVbcast (e : QEntry) (o : Fields) (x : Hart) : HRes :=
  let n := typeBits o.w.toNat
  mapElems e o x n fun _ => ⟨srcElem e x n (offOf e o), 0⟩

/-- The elements that the mask selects, in ascending order (R159). -/
def selected (e : QEntry) (o : Fields) (x : Hart) : List Nat :=
  (List.range e.vl).filter fun i => x.maskBit o.mskM.toNat i

/-- VCOMPRESS (R159). -/
def perfVcompress (e : QEntry) (o : Fields) (x : Hart) : HRes :=
  let n := typeBits o.w.toNat
  let l := selected e o x
  .done (x.setElems e.vd n l.length fun k => some (x.velem e.va n (l[k]?.getD 0))) 0 none

/-- VEXPAND (R159). -/
def perfVexpand (e : QEntry) (o : Fields) (x : Hart) : HRes :=
  let n := typeBits o.w.toNat
  .done (x.setElems e.vd n e.vl fun i =>
    if x.maskBit o.mskM.toNat i then
      some (x.velem e.va n ((List.range i).filter fun j => x.maskBit o.mskM.toNat j).length)
    else none) 0 none

/-- VMVSX (R160). -/
def perfVmvsx (e : QEntry) (o : Fields) (x : Hart) : HRes :=
  let n := typeBits o.w.toNat
  if e.vl = 0 ∨ x.vstart ≠ 0 then .done x 0 none
  else .done (x.setElems e.vd n 1 fun _ => some (e.cap 0).toNat) 0 none

/-- VMVXS (R155, R160). -/
def perfVmvxs (e : QEntry) (o : Fields) (x : Hart) : HRes :=
  let n := typeBits o.w.toNat
  .done x 0 (some (if offOf e o < e.vl then extCode o.w.toNat (x.velem e.va n (offOf e o)) else 0))

/-- The enabled elements of va in ascending order; a reduction ignores VSTART (R154, R161). -/
def enabledElems (e : QEntry) (o : Fields) (x : Hart) (n : Nat) : List Nat :=
  ((List.range e.vl).filter fun i => enabledAt e o x i).map fun i => x.velem e.va n i

/-- The op of VRED on n-bit patterns of type w (R152, R162). -/
def redOp (w op a b : Nat) : Nat :=
  let n := typeBits w
  match op with
  | 0 => (a + b) % 2 ^ n
  | 1 => wrapNat n (min (intVal w a) (intVal w b))
  | 2 => wrapNat n (max (intVal w a) (intVal w b))
  | 3 => Nat.land a b
  | 4 => Nat.lor a b
  | _ => Nat.xor a b

/-- The vector forms of the reductions write element 0 of D alone, and nothing where VL = 0 (R161). -/
def redResult (e : QEntry) (o : Fields) (x : Hart) (r : FRes) : HRes :=
  if e.vl = 0 then .done x 0 none
  else .done (x.setElems e.vd (typeBits o.w.toNat) 1 fun _ => some r.code) r.flags none

/-- VRED, vector form (R161, R162). -/
def perfVred (e : QEntry) (o : Fields) (x : Hart) : HRes :=
  let w := o.w.toNat
  let n := typeBits w
  redResult e o x ⟨(enabledElems e o x n).foldl (redOp w (fN o % 8)) (srcbAt e o x w n 0), 0⟩

/-- VRED, scalar form: a join (R155, R161). -/
def perfVredX (e : QEntry) (o : Fields) (x : Hart) : HRes :=
  let w := o.w.toNat
  let n := typeBits w
  .done x 0 (some (extCode w ((enabledElems e o x n).foldl (redOp w (fN o % 8)) (slideIn e o % 2 ^ n))))

/-- A running value and the flags so far, with one more rounded operation. -/
def stepF (f : Nat → Nat → FRes) (a : FRes) (b : Nat) : FRes :=
  let r := f a.code b
  ⟨r.code, a.flags ||| r.flags⟩

/-- VFREDO: the sequential sum (R44, R163). -/
def perfVfredo (e : QEntry) (o : Fields) (x : Hart) : HRes :=
  let w := o.w.toNat
  let n := typeBits w
  let add := (fmtOf w).add (roundMode o e.rm) (satBit o)
  redResult e o x ((enabledElems e o x n).foldl (stepF add) ⟨srcbAt e o x w n 0, 0⟩)

/-- One level of the tree of VFREDT: adjacent pairs are added, an odd last element is carried up. -/
def treeLevel (add : Nat → Nat → FRes) : List Nat → List Nat × BitVec 8
  | a :: b :: r =>
    let t := treeLevel add r
    ((add a b).code :: t.1, (add a b).flags ||| t.2)
  | l => (l, 0)

/-- The fixed binary tree of VFREDT (R44). -/
def treeSum (add : Nat → Nat → FRes) : Nat → List Nat → List Nat × BitVec 8
  | 0, l => (l, 0)
  | k + 1, l =>
    if l.length ≤ 1 then (l, 0)
    else
      let t := treeLevel add l
      let u := treeSum add k t.1
      (u.1, t.2 ||| u.2)

/-- VFREDT: the tree sum, then the initial operand (R44, R163). -/
def perfVfredt (e : QEntry) (o : Fields) (x : Hart) : HRes :=
  let w := o.w.toNat
  let n := typeBits w
  let add := (fmtOf w).add (roundMode o e.rm) (satBit o)
  let t := treeSum add 13 (enabledElems e o x n)
  redResult e o x (t.1.foldl (stepF add) ⟨srcbAt e o x w n 0, t.2⟩)

/-- VFREDMX (R161, R164). -/
def perfVfredmx (e : QEntry) (o : Fields) (x : Hart) : HRes :=
  let w := o.w.toNat
  let n := typeBits w
  let fm := fmtOf w
  let l := enabledElems e o x n
  let a := srcbAt e o x w n 0
  redResult e o x (match fN o % 4, l with
    | 2, [] => ⟨a, 0⟩
    | 2, _ => ⟨l.foldl (fun m v => max m (fm.finMag v)) (fm.finMag a), 0⟩
    | op, _ => l.foldl (stepF (fm.minMax (decide (op = 0)))) ⟨a, 0⟩)

/-- MLOG (R165). -/
def perfMlog (e : QEntry) (o : Fields) (x : Hart) : HRes :=
  .done (x.setMaskBits o.d.toNat e.vl fun i =>
    bitOf (fN o) (2 * (x.maskBit o.a.toNat i).toNat + (x.maskBit o.b.toNat i).toNat)) 0 none

/-- MPOPC (R155, R166). -/
def perfMpopc (e : QEntry) (o : Fields) (x : Hart) : HRes :=
  .done x 0 (some (BitVec.ofNat 64
    ((List.range e.vl).filter fun i => enabledAt e o x i && x.maskBit o.a.toNat i).length))

/-- MFIRST (R155, R166). -/
def perfMfirst (e : QEntry) (o : Fields) (x : Hart) : HRes :=
  .done x 0 (some (match findBelow e.vl fun i => enabledAt e o x i && x.maskBit o.a.toNat i with
    | some i => BitVec.ofNat 64 i
    | none => BitVec.allOnes 64))

/-- MSET (R167). -/
def perfMset (e : QEntry) (o : Fields) (x : Hart) : HRes :=
  let f := (findBelow e.vl fun i => x.maskBit o.a.toNat i).getD e.vl
  .done (x.setMaskBits o.d.toNat e.vl fun i =>
    match fN o % 4 with
    | 0 => false
    | 1 => true
    | 2 => decide (i < f)
    | _ => decide (i ≤ f)) 0 none

/-- An entry of VSORTK and VMERGEK: a key and its index (R168). -/
structure RankEntry where
  key : Nat
  idx : Nat
  deriving DecidableEq, Repr

/-- The empty entry that the instructions write, with the sentinel key of type w (R168). -/
def emptyEntry (w : Nat) : RankEntry :=
  ⟨if w = 12 then 0xFF800000 else if w = 2 then 0x80000000 else 0, 0xFFFFFFFF⟩

/-- The rank of an entry: numbers by key, then NaN keys, then empty entries (R168). -/
def rankOf (w : Nat) (r : RankEntry) : Int :=
  if r.idx = 0xFFFFFFFF then -(2 ^ 41 : Nat)
  else if w = 12 then (if fmtF32.isNaN r.key then -(2 ^ 40 : Nat) else fmtF32.key r.key)
  else intVal w r.key

/-- An entry inserted behind every entry that is not worse (R169). -/
def insertRank (w : Nat) (r : RankEntry) : List RankEntry → List RankEntry
  | [] => [r]
  | y :: l => if rankOf w y < rankOf w r then r :: y :: l else y :: insertRank w r l

/-- The stable sort of R169. -/
def sortRank (w : Nat) (l : List RankEntry) : List RankEntry := l.foldl (fun a r => insertRank w r a) []

/-- The entry at position i of the pair at va (R153, R168): an empty one takes the sentinel key. -/
def pairEntry (w : Nat) (e : QEntry) (x : Hart) (i : Nat) : RankEntry :=
  let idx := x.velem (e.va + e.vt.regs) 32 i
  if idx = 0xFFFFFFFF then emptyEntry w else ⟨x.velem e.va 32 i, idx⟩

/-- Both groups of the pair at vd written below VL (R169, R170). -/
def writePair (e : QEntry) (x : Hart) (f : Nat → RankEntry) : Hart :=
  (x.setElems e.vd 32 e.vl fun i => some (f i).key).setElems (e.vd + e.vt.regs) 32 e.vl fun i => some (f i).idx

/-- VSORTK (R169). -/
def perfVsortk (e : QEntry) (o : Fields) (x : Hart) : HRes :=
  let w := o.w.toNat
  let g := 2 ^ (fN o % 16)
  let groups := (List.range ((e.vl + g - 1) / g)).map fun j =>
    sortRank w (((List.range g).filter fun k => enabledAt e o x (j * g + k)).map fun k => pairEntry w e x (j * g + k))
  .done (writePair e x fun i => ((groups[i / g]?.getD [])[i % g]?).getD (emptyEntry w)) 0 none

/-- The best k entries of two runs, x at the lower positions (R170). -/
def topK (w : Nat) : Nat → List RankEntry → List RankEntry → List RankEntry
  | 0, _, _ => []
  | k + 1, a :: as, b :: bs =>
    if rankOf w a < rankOf w b then b :: topK w k (a :: as) bs else a :: topK w k as (b :: bs)
  | k + 1, a :: as, [] => a :: topK w k as []
  | k + 1, [], b :: bs => b :: topK w k [] bs
  | _ + 1, [], [] => []

/-- One level of the tree of VMERGEK (R170). -/
def mergeLevel (w k : Nat) : List (List RankEntry) → List (List RankEntry)
  | a :: b :: r => topK w k a b :: mergeLevel w k r
  | l => l

/-- The tree of VMERGEK (R170). -/
def mergeTree (w k : Nat) : Nat → List (List RankEntry) → List RankEntry
  | 0, l => l.headD []
  | n + 1, l => mergeTree w k n (mergeLevel w k l)

/-- VMERGEK (R170). -/
def perfVmergek (e : QEntry) (o : Fields) (x : Hart) : HRes :=
  let w := o.w.toNat
  let lg := fN o % 16
  let lk := fN o / 16
  let g := 2 ^ lg
  let k := 2 ^ lk
  let entry := fun i => if enabledAt e o x i then pairEntry w e x i else emptyEntry w
  let best := (List.range ((e.vl + g - 1) / g)).map fun j =>
    mergeTree w k (lg - lk) ((List.range (g / k)).map fun t => (List.range k).map fun p => entry (j * g + t * k + p))
  .done (writePair e x fun i =>
    if i % g < k then ((best[i / g]?.getD [])[i % g]?).getD (emptyEntry w) else emptyEntry w) 0 none

/-- Segment offset j (R92, R107). -/
def Hart.segOff (x : Hart) (j : Nat) : Nat := if j < x.vsegCount then elem 16 x.vsegOff.toNat j else 0

/-- Where segment j begins, and where it ends (R172). -/
def Hart.segLo (x : Hart) (vl j : Nat) : Nat := min (x.segOff j) vl
def Hart.segHi (x : Hart) (vl j : Nat) : Nat := if j + 1 < x.vsegCount then min (x.segOff (j + 1)) vl else vl

/-- The active members of segment j in ascending order (R172). -/
def segMembers (e : QEntry) (o : Fields) (x : Hart) (j : Nat) : List Nat :=
  (List.range e.vl).filter fun i =>
    decide (x.segLo e.vl j ≤ i) && decide (i < x.segHi e.vl j) && enabledAt e o x i

/-- The identity of a segment op on type w (R173). -/
def segIdentity (w op : Nat) : Nat :=
  if w ≤ 7 then
    match op with
    | 0 => 0
    | 1 => wrapNat (typeBits w) (intMin w)
    | _ => wrapNat (typeBits w) (intMax w)
  else
    match op with
    | 0 => 0
    | 1 => (fmtOf w).withSign true (fmtOf w).infCode
    | _ => (fmtOf w).infCode

/-- One step of a segment reduction: the op applied to the running value and a member (R173). -/
def segCombine (w op m : Nat) (sat : Bool) (a b : Nat) : FRes :=
  if w ≤ 7 then ⟨redOp w (match op with | 0 => 0 | 1 => 2 | _ => 1) a b, 0⟩
  else match op with
    | 0 => (fmtOf w).add m sat a b
    | _ => (fmtOf w).minMax (decide (op = 1)) a b

/-- The value a reduction starts with at its first member: that member, a NaN made the default NaN by MAX and MIN
(R164, R173). -/
def segStart (w op a : Nat) : FRes :=
  if w ≤ 7 ∨ op = 0 then ⟨a, 0⟩ else (fmtOf w).minMax (decide (op = 1)) a a

/-- The running values of a segment: after each of its members. -/
def segRun (w op m : Nat) (sat : Bool) : Option FRes → List Nat → List FRes
  | _, [] => []
  | none, v :: r => segStart w op v :: segRun w op m sat (some (segStart w op v)) r
  | some a, v :: r => stepF (segCombine w op m sat) a v :: segRun w op m sat (some (stepF (segCombine w op m sat) a v)) r

/-- VSEGRED (R173). -/
def perfVsegred (e : QEntry) (o : Fields) (x : Hart) : HRes :=
  let w := o.w.toNat
  let n := typeBits w
  let op := fN o / 16 % 4
  let res := fun j =>
    (segRun w op (roundMode o e.rm) (satBit o) none ((segMembers e o x j).map fun i => x.velem e.va n i)).getLastD
      ⟨segIdentity w op, 0⟩
  if e.vl = 0 then .done x 0 none
  else
    let c := min x.vsegCount e.vt.vlmax
    .done (x.setElems e.vd n c fun j => some (res j).code) ((List.range c).foldl (fun a j => a ||| (res j).flags) 0) none

/-- The pairs of element and value that VSEGSCAN writes for segment j, and the flags (R173). -/
def segScanOne (e : QEntry) (o : Fields) (x : Hart) (j : Nat) : Table Nat × BitVec 8 :=
  let w := o.w.toNat
  let n := typeBits w
  let op := fN o / 16 % 4
  let ms := segMembers e o x j
  let run := segRun w op (roundMode o e.rm) (satBit o) none (ms.map fun i => x.velem e.va n i)
  let vals := run.map FRes.code
  let out := if o.f.getLsbD 6 then segIdentity w op :: vals else vals
  (ms.zip out, (run.getLastD ⟨0, 0⟩).flags)

/-- VSEGSCAN (R173). -/
def perfVsegscan (e : QEntry) (o : Fields) (x : Hart) : HRes :=
  let segs := (List.range x.vsegCount).map (segScanOne e o x)
  let t := segs.flatMap Prod.fst
  .done (x.setElems e.vd (typeBits o.w.toNat) e.vl (tfind t)) (segs.foldl (fun a p => a ||| p.2) 0) none

/-- VSEGNORM on segment j: what each member becomes, and the flags (R174). DEDUCED (log 49): where every member is excluded,
the sum is the +0 of no member (R173), so ZS is set. -/
def segNormOne (e : QEntry) (o : Fields) (x : Hart) (j : Nat) : Table Nat × BitVec 8 :=
  let m := roundMode o e.rm
  let sat := satBit o
  let fm := fmtF32
  let ms := segMembers e o x j
  let v := fun i => x.velem e.va 32 i
  let out := ms.filter fun i => fm.isNaN (v i) || (fm.isInf (v i) && fm.isNeg (v i))
  let rest := ms.filter fun i => !(fm.isNaN (v i) || (fm.isInf (v i) && fm.isNeg (v i)))
  let nv := flagIf (!out.isEmpty) flagNV
  let zeros := fun (l : List Nat) => l.map fun i => (i, (0 : Nat))
  let infs := rest.filter fun i => fm.isInf (v i)
  if !infs.isEmpty then
    let r := fm.deliver m sat false 1 infs.length 0
    (ms.map fun i => (i, if infs.contains i then r.code else 0), nv ||| r.flags)
  else match segRun 12 0 m sat none (rest.map v) with
    | [] => (zeros out, if out.isEmpty then nv else nv ||| flagZS)
    | s0 :: ss =>
      let s := (s0 :: ss).getLastD s0
      if fm.isZero s.code then
        let r := fm.deliver m sat false 1 rest.length 0
        (zeros out ++ rest.map fun i => (i, r.code), nv ||| s.flags ||| r.flags ||| flagZS)
      else if fm.isInf s.code then (zeros ms, nv ||| s.flags)
      else
        (zeros out ++ rest.map fun i => (i, (fm.div m sat (v i) s.code).code),
         rest.foldl (fun a i => a ||| (fm.div m sat (v i) s.code).flags) (nv ||| s.flags))

/-- VSEGNORM (R174). -/
def perfVsegnorm (e : QEntry) (o : Fields) (x : Hart) : HRes :=
  let segs := (List.range x.vsegCount).map (segNormOne e o x)
  let t := segs.flatMap Prod.fst
  .done (x.setElems e.vd 32 e.vl (tfind t)) (segs.foldl (fun a p => a ||| p.2) 0) none

/-- The running maxima of a list. -/
def runMax : Nat → List Nat → List Nat
  | _, [] => []
  | a, b :: r => max a b :: runMax (max a b) r

/-- VSETSEG (R171). -/
def perfVsetseg (e : QEntry) (o : Fields) (x : Hart) : HRes :=
  let c := min (offOf e o) 64
  let offs := runMax 0 ((List.range c).map fun j => x.velem e.va 16 j)
  .done { x with vsegCount := c, vsegOff := BitVec.ofNat 1024 (packElems 16 offs) } 0 none

/-- VGETSEG (R171). -/
def perfVgetseg (e : QEntry) (_ : Fields) (x : Hart) : HRes :=
  let offs := (List.range 64).map fun j => x.segOff j
  .done (x.setVreg e.vd (BitVec.ofNat 4096 (packElems 16 offs + 2 ^ 1024 * x.vsegCount))) 0 none

/-- Push checks of VPERM (R153). -/
def checkVperm (o : Fields) (x : Hart) : Option PushIll :=
  let t := x.vtPush
  firstIll [widthIll o t, alignIll x o.d t.regs, alignIll x o.a t.regs, alignIll x o.b t.regs, mskIll o t]

/-- Push checks of VMVSX and VMVXS (R152). -/
def checkVmvsx (o : Fields) (x : Hart) : Option PushIll :=
  firstIll [widthIll o x.vtPush, alignIll x o.d x.vtPush.regs]
def checkVmvxs (o : Fields) (x : Hart) : Option PushIll :=
  firstIll [widthIll o x.vtPush, alignIll x o.a x.vtPush.regs]

/-- Push checks of VRED.X (R152). -/
def checkVredX (o : Fields) (x : Hart) : Option PushIll :=
  firstIll [widthIll o x.vtPush, alignIll x o.a x.vtPush.regs, mskIll o x.vtPush]

/-- Push checks of the reductions: D and A are groups, and so is a vector B (R153). -/
def checkRed (o : Fields) (x : Hart) : Option PushIll := check2 o x

/-- Push checks of the mask instructions (R89, R153). -/
def checkMlog (o : Fields) (x : Hart) : Option PushIll :=
  let g := x.vtPush.maskRegs
  firstIll [maskIll o.d.toNat g, maskIll o.a.toNat g, maskIll o.b.toNat g]
def checkMpopc (o : Fields) (x : Hart) : Option PushIll :=
  firstIll [maskIll o.a.toNat x.vtPush.maskRegs, mskIll o x.vtPush]
def checkMset (o : Fields) (x : Hart) : Option PushIll :=
  firstIll [maskIll o.d.toNat x.vtPush.maskRegs, maskIll o.a.toNat x.vtPush.maskRegs]

/-- Push checks of a pair: two groups, aligned to 2·LMUL, LMUL at most 4 (R153). -/
def pairIll (x : Hart) (f : BitVec 8) (t : Vtype) : Option PushIll :=
  firstIll [regIll x f (decide (4 < t.regs)), alignIll x f (2 * t.regs)]

/-- Push checks of VSORTK (R153). -/
def checkVsortk (o : Fields) (x : Hart) : Option PushIll :=
  let t := x.vtPush
  firstIll [widthIll o t, pairIll x o.d t, pairIll x o.a t, mskIll o t]

/-- Push checks of VMERGEK: G is at most VLMAX (R153). -/
def checkVmergek (o : Fields) (x : Hart) : Option PushIll :=
  let t := x.vtPush
  firstIll [widthIll o t, pairIll x o.d t, pairIll x o.a t, valueIll (decide (t.vlmax < 2 ^ (fN o % 16))) (fN o % 16), mskIll o t]

/-- Push checks of VSETSEG and VGETSEG: one register, with no alignment (R153). -/
def checkVsetseg (o : Fields) (x : Hart) : Option PushIll := alignIll x o.a 1
def checkVgetseg (o : Fields) (x : Hart) : Option PushIll := alignIll x o.d 1

end Sys2Proof.Machine
end

