-- ==== Sys2Proof/Machine/FibrePipe.lean ====
section
/-! DEFINITION. Sys2Proof/Machine/FibrePipe.lean: what the fibre pipe does with the entries of group 0x6, their progress
and resumption, and their push checks (R176 to R190). -/

namespace Sys2Proof.Machine

/-- The coordinate and the value container at position k (R90). -/
def Fibre.coord (f : Fibre) (k : Nat) : Nat := elem 64 f.pairs.toNat k % 2 ^ 32
def Fibre.val (f : Fibre) (k : Nat) : Nat := elem 64 f.pairs.toNat k / 2 ^ 32

/-- Position k written. -/
def Fibre.setPair (f : Fibre) (k c v : Nat) : Fibre :=
  { f with pairs := BitVec.ofNat 16384 (setElem 64 f.pairs.toNat k (c % 2 ^ 32 + 2 ^ 32 * (v % 2 ^ 32))) }

/-- A pair written at the end of the occupied positions. -/
def Fibre.push (f : Fibre) (c v : Nat) : Fibre := { f.setPair f.occ c v with occ := f.occ + 1 }

/-- A fibre with its positions from 0 on replaced by pairs, and their number as occupancy. -/
def Fibre.fill (f : Fibre) (l : List (Nat × Nat)) : Fibre := l.foldl (fun g p => g.push p.1 p.2) { f with occ := 0 }

/-- The occupied pairs in order. -/
def Fibre.entries (f : Fibre) : List (Nat × Nat) := (List.range f.occ).map fun k => (f.coord k, f.val k)

/-- FIBRE_ORDER and FIBRE_FULL (R179, R190). -/
def trapFibreOrder (c d : Nat) : Trap := ⟨causeFIBRE_ORDER, BitVec.ofNat 64 (c % 2 ^ 32 + 2 ^ 32 * (d % 16)), 0, 0⟩
def trapFibreFull (d : Nat) : Trap := ⟨causeFIBRE_FULL, BitVec.ofNat 64 (d % 16), 0, 0⟩

/-- A sum of fibre values under W (R176). -/
def fibAdd (w m : Nat) (sat : Bool) (a b : Nat) : FRes :=
  if w ≤ 7 then ⟨(a + b) % 2 ^ typeBits w, 0⟩ else (fmtOf w).add m sat a b

/-- A product of fibre values under W (R176). -/
def fibMul (w m : Nat) (sat : Bool) (a b : Nat) : FRes :=
  if w ≤ 7 then ⟨a * b % 2 ^ typeBits w, 0⟩ else (fmtOf w).mul m sat a b

/-- The lesser or greater of two fibre values under W (R162, R176). -/
def fibMinMax (w : Nat) (isMax : Bool) (a b : Nat) : FRes :=
  if w ≤ 7 then ⟨redOp w (if isMax then 2 else 1) a b, 0⟩ else (fmtOf w).minMax isMax a b

/-- combine of FUNION and FSORT: ADD, MAX, FIRST (R183). -/
def fibCombine (w op m : Nat) (sat : Bool) (a b : Nat) : FRes :=
  match op with
  | 0 => fibAdd w m sat a b
  | 1 => fibMinMax w true a b
  | _ => ⟨a, 0⟩

/-- acc + a·b with one rounding (R45). -/
def fibDotStep (w m : Nat) (sat : Bool) (acc a b : Nat) : FRes :=
  if w ≤ 7 then ⟨(acc + a * b) % 2 ^ typeBits w, 0⟩ else (fmtOf w).fma m sat false a b acc

/-- The four walks of R183. -/
inductive WalkKind where
  | isect | union | merge | dot
  deriving DecidableEq, Repr

/-- Where a data-dependent instruction stands: its input positions, the hart with its output, the count and the partial
sum of FDOT, and the flags so far. -/
structure Progress where
  pa : Nat
  pb : Nat
  x : Hart
  cnt : Nat := 0
  acc : Nat := 0
  flags : BitVec 8 := 0
  deriving DecidableEq, Repr

/-- How a data-dependent instruction ends its run of steps. -/
inductive RunEnd where
  | done (p : Progress)
  | stop (p : Progress)
  | full (p : Progress)
  | order (p : Progress) (c : Nat)
  | fault (p : Progress) (t : Trap)
  | held (p : Progress)
  deriving DecidableEq, Repr

/-- What an emit gives (R183). -/
inductive Emit where
  | ok (x : Hart)
  | full
  | order
  deriving DecidableEq, Repr

/-- emit of R183 into fd, and into fd + 1 too where `two` holds. -/
def emitPair (x : Hart) (d : Nat) (two : Bool) (c v0 v1 : Nat) : Emit :=
  let f := x.fibreReg d
  if f.occ ≥ 256 then .full
  else if 0 < f.occ ∧ c ≤ f.coord (f.occ - 1) then .order
  else
    let y := x.setFibre d (f.push c v0)
    .ok (if two then y.setFibre (d + 1) { ((x.fibreReg (d + 1)).setPair f.occ c v1) with occ := f.occ + 1 } else y)

/-- A step that emits, and then stands at its next boundary. -/
def stepEmit (p : Progress) (d : Nat) (two : Bool) (c v0 v1 pa pb : Nat) (f : BitVec 8) : RunEnd ⊕ Progress :=
  match emitPair p.x d two c v0 v1 with
  | .full => .inl (.full p)
  | .order => .inl (.order p c)
  | .ok y => .inr { p with x := y, pa := pa, pb := pb, flags := p.flags ||| f }

/-- One step of a walk at positions that are not exhausted for its kind (R183). -/
def walkStep (k : WalkKind) (e : QEntry) (o : Fields) (p : Progress) : RunEnd ⊕ Progress :=
  let w := o.w.toNat
  let m := roundMode o e.rm
  let sat := satBit o
  let n := typeBits w
  let fa := p.x.fibreReg o.a.toNat
  let fb := p.x.fibreReg o.b.toNat
  let d := o.d.toNat
  let two := decide (k ≠ .union)
  let va := fa.val p.pa % 2 ^ n
  let vb := fb.val p.pb % 2 ^ n
  let ca := fa.coord p.pa
  let cb := fb.coord p.pb
  if p.pa < fa.occ ∧ p.pb < fb.occ ∧ ca = cb then
    match k with
    | .dot =>
      let r := fibDotStep w m sat p.acc va vb
      .inr { p with pa := p.pa + 1, pb := p.pb + 1, cnt := p.cnt + 1, acc := r.code, flags := p.flags ||| r.flags }
    | .union =>
      let r := fibCombine w (fN o / 16 % 4) m sat va vb
      stepEmit p d two ca r.code 0 (p.pa + 1) (p.pb + 1) r.flags
    | _ => stepEmit p d two ca va vb (p.pa + 1) (p.pb + 1) 0
  else if p.pb ≥ fb.occ ∨ (p.pa < fa.occ ∧ ca < cb) then
    match k with
    | .union | .merge => stepEmit p d two ca va 0 (p.pa + 1) p.pb 0
    | _ => .inr { p with pa := p.pa + 1 }
  else
    match k with
    | .union => stepEmit p d two cb vb 0 p.pa (p.pb + 1) 0
    | .merge => stepEmit p d two cb 0 vb p.pa (p.pb + 1) 0
    | _ => .inr { p with pb := p.pb + 1 }

/-- The walk has visited all it visits: either input exhausted for FISECT and FDOT, both for FUNION and FMERGE (R183). -/
def walkOver (k : WalkKind) (o : Fields) (p : Progress) : Bool :=
  let na := (p.x.fibreReg o.a.toNat).occ
  let nb := (p.x.fibreReg o.b.toNat).occ
  match k with
  | .isect | .dot => decide (na ≤ p.pa) || decide (nb ≤ p.pb)
  | _ => decide (na ≤ p.pa) && decide (nb ≤ p.pb)

/-- Steps of a data-dependent instruction until it is over, at most `limit` of them where a limit is given. -/
def runSteps (isOver : Progress → Bool) (step : Progress → RunEnd ⊕ Progress) : Nat → Option Nat → Progress → RunEnd
  | 0, _, p => .done p
  | n + 1, limit, p =>
    if isOver p then .done p
    else if limit = some 0 then .stop p
    else match step p with
      | .inl r => r
      | .inr q => runSteps isOver step n (limit.map (· - 1)) q

/-- VPROG at a stop (R97, R188). -/
def progressAt (tag : Nat) (full : Bool) (pa pb cnt : Nat) : Vprog :=
  { cnt := BitVec.ofNat 9 cnt, posb := BitVec.ofNat 20 pb, posa := BitVec.ofNat 20 pa, tag := BitVec.ofNat 6 tag,
    full := full, v := true }

/-- The instruction resumes: VPROG is valid and carries its tag (R97, R189). -/
def resumes (x : Hart) (tag : Nat) : Bool := x.vprog.v && x.vprog.tag.toNat == tag

/-- The end of a run of steps as the vector unit sees it (R188 to R190): `cnt` gives CNT, `d` the output register. -/
def endRun (tag d : Nat) (cnt : Progress → Nat) (result : Progress → Option Word) : RunEnd → HRes
  | .done p => .done { p.x with vprog := {} } p.flags (result p)
  | .stop p => .part { p.x with vprog := progressAt tag false p.pa p.pb (cnt p) } p.flags (BitVec.ofNat 64 p.acc)
  | .held p => .part { p.x with vprog := progressAt tag false p.pa p.pb (cnt p) } p.flags (BitVec.ofNat 64 p.acc)
  | .full p => .fault { p.x with vprog := progressAt tag true p.pa p.pb (cnt p) } p.flags (trapFibreFull d)
  | .order p c =>
    .fault { p.x with vprog := progressAt tag false p.pa p.pb (cnt p), vstart := 0 } p.flags (trapFibreOrder c d)
  | .fault p t => .fault { p.x with vprog := progressAt tag false p.pa p.pb (cnt p) } p.flags t

/-- The outputs emptied for a fresh start. -/
def clearOuts (x : Hart) (d : Nat) (two : Bool) : Hart :=
  let y := x.setFibre d { x.fibreReg d with occ := 0 }
  if two then y.setFibre (d + 1) { y.fibreReg (d + 1) with occ := 0 } else y

/-- Where a data-dependent instruction starts: fresh, or from VPROG (R189). -/
def startAt (e : QEntry) (x : Hart) (tag : Nat) (fresh : Hart) : Progress :=
  if resumes x tag then
    { pa := x.vprog.posa.toNat, pb := x.vprog.posb.toNat, x := x, cnt := x.vprog.cnt.toNat, acc := e.acc.toNat }
  else { pa := 0, pb := 0, x := { fresh with vprog := {} } }

/-- The occupancy of the output, for CNT. -/
def outOcc (d : Nat) (p : Progress) : Nat := (p.x.fibreReg d).occ

/-- A walking member (R183). -/
def perfWalk (k : WalkKind) (tag : Nat) (limit : Option Nat) (e : QEntry) (o : Fields) (x : Hart) : HRes :=
  let d := o.d.toNat
  let fresh := match k with
    | .dot => x
    | .union => clearOuts x d false
    | _ => clearOuts x d true
  let r := runSteps (walkOver k o) (walkStep k e o) 520 limit (startAt e x tag fresh)
  match k with
  | .dot => endRun tag d Progress.cnt (fun p => some (extCode o.w.toNat p.acc)) r
  | _ => endRun tag d (outOcc d) (fun _ => none) r

/-- FISECT (R183). -/
def perfFisect (limit : Option Nat) (e : QEntry) (o : Fields) (x : Hart) : HRes := perfWalk .isect 0x02 limit e o x

/-- FUNION (R183). -/
def perfFunion (limit : Option Nat) (e : QEntry) (o : Fields) (x : Hart) : HRes := perfWalk .union 0x03 limit e o x

/-- FMERGE (R183). -/
def perfFmerge (limit : Option Nat) (e : QEntry) (o : Fields) (x : Hart) : HRes := perfWalk .merge 0x04 limit e o x

/-- FDOT: a join (R45, R183). -/
def perfFdot (limit : Option Nat) (e : QEntry) (o : Fields) (x : Hart) : HRes := perfWalk .dot 0x09 limit e o x

/-- A value that is zero under W: integer 0, or either floating zero (R184). -/
def fibZero (w v : Nat) : Bool :=
  let c := v % 2 ^ typeBits w
  if w ≤ 7 then decide (c = 0) else (fmtOf w).isZero c

/-- The positions FCOMPACT visits (R184). -/
def compactLen (o : Fields) (x : Hart) : Nat := min (x.fibreReg o.a.toNat).occ (x.fibreReg (o.a.toNat + 1)).occ

/-- One position of FCOMPACT (R184). -/
def compactStep (o : Fields) (p : Progress) : RunEnd ⊕ Progress :=
  let w := o.w.toNat
  let fa := p.x.fibreReg o.a.toNat
  let fb := p.x.fibreReg (o.a.toNat + 1)
  let keep := !fibZero w (fa.val p.pa) && !fibZero w (fb.val p.pa) &&
    (!o.mskE || (p.x.mreg o.mskM.toNat).getLsbD p.pa)
  if keep then
    stepEmit p o.d.toNat true (fa.coord p.pa) (fa.val p.pa % 2 ^ typeBits w) (fb.val p.pa % 2 ^ typeBits w) (p.pa + 1) 0 0
  else .inr { p with pa := p.pa + 1 }

/-- FCOMPACT (R184). -/
def perfFcompact (limit : Option Nat) (e : QEntry) (o : Fields) (x : Hart) : HRes :=
  let d := o.d.toNat
  endRun 0x05 d (outOcc d) (fun _ => none)
    (runSteps (fun p => decide (compactLen o p.x ≤ p.pa)) (compactStep o) 260 limit
      { startAt e x 0x05 (clearOuts x d true) with pb := 0 })

/-- FSORT's insertion of (c, v) among ordered entries: the entries and the flags, or none where a new coordinate finds
256 entries (R186). -/
def sortInsert (combine : Nat → Nat → FRes) (c v : Nat) (l : List (Nat × Nat)) : Option (List (Nat × Nat) × BitVec 8) :=
  match l.find? fun p => decide (p.1 = c) with
  | some q =>
    let r := combine q.2 v
    some (l.map fun p => if p.1 = c then (c, r.code) else p, r.flags)
  | none =>
    if 256 ≤ l.length then none
    else some ((l.filter fun p => decide (p.1 < c)) ++ (c, v) :: l.filter fun p => decide (c < p.1), 0)

/-- One element of FSORT (R186). -/
def fsortStep (e : QEntry) (o : Fields) (p : Progress) : RunEnd ⊕ Progress :=
  let w := o.w.toNat
  let n := typeBits w
  let d := o.d.toNat
  if activeAt e o p.x p.pa then
    let f := p.x.fibreReg d
    match sortInsert (fun a b => fibCombine w (fN o / 16 % 4) (roundMode o e.rm) (satBit o) (a % 2 ^ n) b)
        (p.x.velem e.va 32 p.pa) (p.x.velem (e.va + e.vt.regs) 32 p.pa % 2 ^ n) f.entries with
    | none => .inl (.full p)
    | some (l, fl) => .inr { p with pa := p.pa + 1, x := p.x.setFibre d (f.fill l), flags := p.flags ||| fl }
  else .inr { p with pa := p.pa + 1 }

/-- FSORT (R186). -/
def perfFsort (limit : Option Nat) (e : QEntry) (o : Fields) (x : Hart) : HRes :=
  let d := o.d.toNat
  if e.vl = 0 then .done x 0 none
  else
    endRun 0x0D d (outOcc d) (fun _ => none)
      (runSteps (fun p => decide (e.vl ≤ p.pa)) (fsortStep e o) 260 limit
        { startAt e x 0x0D (clearOuts x d false) with pb := 0 })

/-- The elements FBUILD takes, until one does not ascend: the fibre, and the element and coordinate of a stop (R179). -/
def buildFrom (e : QEntry) (o : Fields) (x : Hart) : List Nat → Fibre → Fibre × Option (Nat × Nat)
  | [], f => (f, none)
  | i :: r, f =>
    let c := x.velem e.va 32 i
    if 0 < f.occ ∧ c ≤ f.coord (f.occ - 1) then (f, some (i, c))
    else if 256 ≤ f.occ then buildFrom e o x r f
    else buildFrom e o x r (f.push c (x.velem (e.va + e.vt.regs) 32 i % 2 ^ typeBits o.w.toNat))

/-- FBUILD (R179). -/
def perfFbuild (e : QEntry) (o : Fields) (x : Hart) : HRes :=
  let d := o.d.toNat
  let f0 := x.fibreReg d
  if e.vl = 0 then .done x 0 none
  else
    match buildFrom e o x ((List.range e.vl).filter fun i => activeAt e o x i)
        (if x.vstart = 0 then { f0 with occ := 0 } else f0) with
    | (f, none) => .done (x.setFibre d f) 0 none
    | (f, some (i, c)) => .fault { x.setFibre d f with vstart := BitVec.ofNat 12 i } 0 (trapFibreOrder c d)

/-- FSPLIT (R180). -/
def perfFsplit (e : QEntry) (o : Fields) (x : Hart) : HRes :=
  let f := x.fibreReg o.a.toNat
  let act := activeAt e o x
  .done ((x.setElems e.vd 32 e.vl fun i =>
      if act i then some (if i < f.occ then f.coord i else 0xFFFFFFFF) else none).setElems (e.vd + e.vt.regs) 32 e.vl
    fun i => if act i then some (if i < f.occ then f.val i else 0) else none) 0 none

/-- The value of the last entry of a fibre whose coordinate is base + i, if any. -/
def Fibre.valueAt (f : Fibre) (base i : Nat) : Option Nat :=
  (f.entries.filter fun p => decide (p.1 = base + i)).getLast?.map Prod.snd

/-- FEXPAND (R181). -/
def perfFexpand (e : QEntry) (o : Fields) (x : Hart) : HRes :=
  let f := x.fibreReg o.a.toNat
  let n := typeBits o.w.toNat
  .done (x.setElems e.vd n e.vl fun i =>
    if activeAt e o x i then
      match f.valueAt (offOf e o) i with
      | some v => some v
      | none => if o.f.getLsbD 4 then some 0 else none
    else none) 0 none

/-- FGATHER (R182). -/
def perfFgather (e : QEntry) (o : Fields) (x : Hart) : HRes :=
  let n := typeBits o.w.toNat
  let base := o.imm.toNat
  if e.vl = 0 then .done x 0 none
  else
    let l := (x.fibreReg o.a.toNat).entries.filter fun p => decide (base ≤ p.1) && decide (p.1 < base + e.vl)
    .done (x.setFibre o.d.toNat ((x.fibreReg o.d.toNat).fill (l.map fun p => (p.1, x.velem e.vb n (p.1 - base))))) 0 none

/-- The result of an element-wise fibre member on pairs of a coordinate and a rounded value. -/
def fibreResult (o : Fields) (x : Hart) (l : List (Nat × FRes)) : HRes :=
  .done (x.setFibre o.d.toNat ((x.fibreReg o.d.toNat).fill (l.map fun p => (p.1, p.2.code))))
    (l.foldl (fun a p => a ||| p.2.flags) 0) none

/-- FMUL of the fibre group: positions are paired, not coordinates (R185). -/
def perfFmulFibre (e : QEntry) (o : Fields) (x : Hart) : HRes :=
  let w := o.w.toNat
  let n := typeBits w
  fibreResult o x (((x.fibreReg o.a.toNat).entries.zip (x.fibreReg o.b.toNat).entries).map fun p =>
    (p.1.1, fibMul w (roundMode o e.rm) (satBit o) (p.1.2 % 2 ^ n) (p.2.2 % 2 ^ n)))

/-- FSCALE (R185). -/
def perfFscale (e : QEntry) (o : Fields) (x : Hart) : HRes :=
  let w := o.w.toNat
  let n := typeBits w
  fibreResult o x ((x.fibreReg o.a.toNat).entries.map fun p =>
    (p.1, fibMul w (roundMode o e.rm) (satBit o) (p.2 % 2 ^ n) (slideIn e o % 2 ^ n)))

/-- FOCC: a join (R185). -/
def perfFocc (_ : QEntry) (o : Fields) (x : Hart) : HRes :=
  .done x 0 (some (BitVec.ofNat 64 (x.fibreReg o.a.toNat).occ))

/-- FSHIFT (R185). -/
def perfFshift (e : QEntry) (o : Fields) (x : Hart) : HRes :=
  let off : Int := if o.i then o.imm.toInt else (e.cap 0).toInt
  let l := (x.fibreReg o.a.toNat).entries.filter fun p =>
    decide (0 ≤ (p.1 : Int) + off) && decide ((p.1 : Int) + off < (2 ^ 32 : Nat))
  .done (x.setFibre o.d.toNat ((x.fibreReg o.d.toNat).fill (l.map fun p => (((p.1 : Int) + off).toNat, p.2)))) 0 none

/-- FRED: a join (R45, R185). -/
def perfFred (e : QEntry) (o : Fields) (x : Hart) : HRes :=
  let w := o.w.toNat
  let n := typeBits w
  let vals := (x.fibreReg o.a.toNat).entries.map fun p => p.2 % 2 ^ n
  let op := fN o / 16 % 4
  let r := match op with
    | 0 => vals.foldl (stepF (fibAdd w (roundMode o e.rm) (satBit o))) ⟨0, 0⟩
    | _ => match vals with
      | [] => ⟨segIdentity w op, 0⟩
      | v :: _ => vals.foldl (stepF (fibMinMax w (decide (op = 1)))) ⟨v, 0⟩
  .done x r.flags (some (extCode w r.code))

/-- FCLEAR (R185). -/
def perfFclear (_ : QEntry) (o : Fields) (x : Hart) : HRes := .done (clearOuts x o.d.toNat false) 0 none

/-- FCLEAR.PAIR (R185). -/
def perfFclearPair (_ : QEntry) (o : Fields) (x : Hart) : HRes := .done (clearOuts x o.d.toNat true) 0 none

/-- A vector pair at SEW 32 with LMUL at most 2 (R178). -/
def fibPairIll (x : Hart) (f : BitVec 8) : Option PushIll :=
  let t := x.vtPush
  firstIll [regIll x f (decide (t.bits ≠ 32) || decide (2 < t.regs)), alignIll x f (2 * t.regs)]

/-- Push checks of FBUILD and FSORT (R178). -/
def checkFbuild (o : Fields) (x : Hart) : Option PushIll := firstIll [fibPairIll x o.a, mskIll o x.vtPush]

/-- Push checks of FSPLIT (R178). -/
def checkFsplit (o : Fields) (x : Hart) : Option PushIll := firstIll [fibPairIll x o.d, mskIll o x.vtPush]

/-- Push checks of FEXPAND (R178). -/
def checkFexpand (o : Fields) (x : Hart) : Option PushIll :=
  firstIll [regIll x o.d (decide (typeBits o.w.toNat ≠ x.vtPush.bits)), alignIll x o.d x.vtPush.regs, mskIll o x.vtPush]

/-- Push checks of FGATHER (R178). -/
def checkFgather (o : Fields) (x : Hart) : Option PushIll :=
  firstIll [regIll x o.b (decide (typeBits o.w.toNat ≠ x.vtPush.bits)), alignIll x o.b x.vtPush.regs]

/-- An instruction with no push check of its own. -/
def checkNone (_ : Fields) (_ : Hart) : Option PushIll := none

end Sys2Proof.Machine
end

