-- ==== Sys2Proof/Machine/MatrixEngine.lean ====
section
/-! DEFINITION. Sys2Proof/Machine/MatrixEngine.lean: what the matrix engine does with the entries of group 0x7, their
operands and their push checks (R46 to R50, R193 to R211). The gather of MMAG from lane memory is in MemVec.lean. -/

namespace Sys2Proof.Machine

/-- The special state of a P entry (R47, R107). -/
inductive PSpec where
  | none | posInf | negInf | nan
  deriving DecidableEq, Repr

/-- The code of a special state (R107). -/
def PSpec.code : PSpec → Nat
  | .none => 0
  | .posInf => 1
  | .negInf => 2
  | .nan => 3

def PSpec.ofCode (n : Nat) : PSpec :=
  match n % 4 with
  | 0 => .none
  | 1 => .posInf
  | 2 => .negInf
  | _ => .nan

/-- P entry n: its 80-bit value and its special state (R193). -/
def Hart.pEntry (x : Hart) (n : Nat) : Int := signedVal 80 (elem 80 x.pbuf.toNat n)
def Hart.pState (x : Hart) (n : Nat) : PSpec := PSpec.ofCode (elem 2 x.pspec.toNat n)

/-- P with its 512 entries and states given. -/
def Hart.setP (x : Hart) (f : Nat → Int × PSpec) : Hart :=
  let l := (List.range 512).map f
  { x with
    pbuf := BitVec.ofNat 40960 (packElems 80 (l.map fun p => wrapNat 80 p.1))
    pspec := BitVec.ofNat 1024 (packElems 2 (l.map fun p => p.2.code)) }

/-- P zero, with every state none (R193). -/
def Hart.clearP (x : Hart) : Hart := { x with pbuf := 0, pspec := 0 }

/-- The two operands of a matrix instruction as tables of codes: A by row and k, B by k and column (R194). -/
structure MatOps where
  a : Nat → Nat → Nat
  b : Nat → Nat → Nat

/-- K and the element width in bits of a W code (R194). -/
def matK (w : Nat) : Nat := if w = 10 ∨ w = 11 then 32 else 64
def matBits (w : Nat) : Nat := if w = 10 ∨ w = 11 then 16 else 8

/-- Element (i, k) of A in v(a) (R194). -/
def matA (x : Hart) (w a i k : Nat) : Nat := elem (matBits w) (x.vreg a).toNat (matK w * i + k)

/-- Element (k, j) of B in the group at v(b) (R194). -/
def matB (x : Hart) (w b k j : Nat) : Nat := x.velem b (matBits w) (64 * k + j)

/-- Element (i, j) of the accumulator group at v(d) (R194). -/
def matC (x : Hart) (d i j : Nat) : Nat := x.velem d 32 (64 * i + j)

/-- A P entry with its state, and the flags so far. -/
structure PAcc where
  v : Int
  st : PSpec
  flags : BitVec 8 := 0
  deriving DecidableEq, Repr

/-- The limits of a P entry, in units of 2^-40 (R47). -/
def pMax : Int := (2 ^ 79 : Nat) - 1
def pMin : Int := -(2 ^ 79 : Nat)

/-- The exact product of two codes added into a P entry (R47). A special product changes the state and not the value. DESIGN
CHOICE (log 50): an infinite product leaves an entry whose state is NaN as it is. -/
def pAdd (fm : Fmt) (p : PAcc) (a b : Nat) : PAcc :=
  if fm.zeroTimesInf a b then { p with st := .nan, flags := p.flags ||| flagNV }
  else if fm.isNaN a || fm.isNaN b then
    { p with st := .nan, flags := p.flags ||| flagIf (fm.isSNaN a || fm.isSNaN b) flagNV }
  else match fm.mulVal a b with
    | .inf n =>
      match p.st, n with
      | .nan, _ => p
      | .posInf, true | .negInf, false => { p with st := .nan, flags := p.flags ||| flagNV }
      | _, true => { p with st := .negInf }
      | _, false => { p with st := .posInf }
    | .fin n m ex =>
      let v := p.v + signedNat n (scaleUp m (ex + 40))
      let r := clampInt pMin pMax v
      { p with v := r.1, flags := p.flags ||| flagIf (r.2 ≠ 0) (flagOF ||| flagSAT) }
    | .nan _ => p

/-- The IEEE sum of two FP32 values, rounded to nearest even: `t` is special or an exact value. -/
def addTermF32 (c : Nat) (t : FVal) : FRes :=
  if fmtF32.isNaN c then fmtF32.deliverNaN (fmtF32.isSNaN c)
  else fmtF32.addVal 0 false (fmtF32.val c) t

/-- The promotion of one entry: C + P × sa × sb with one rounding (R48). DESIGN CHOICE (log 50): a NaN state or scale makes the
term NaN whatever the other factors are, with NV only where the two scales are ∞ and 0 or one is signalling. -/
def promoteOne (c : Nat) (p : Int) (st : PSpec) (sa sb : Nat) : FRes :=
  let fm := fmtF32
  let nvS := flagIf (fm.isSNaN sa || fm.isSNaN sb || fm.isSNaN c) flagNV
  let neg := (fm.isNeg sa != fm.isNeg sb)
  let scaleInf := fm.isInf sa || fm.isInf sb
  let scaleZero := fm.isZero sa || fm.isZero sb
  if st = .nan ∨ fm.isNaN sa ∨ fm.isNaN sb then
    ⟨fm.nanCode, nvS ||| flagIf ((fm.isInf sa && fm.isZero sb) || (fm.isZero sa && fm.isInf sb)) flagNV⟩
  else if (fm.isInf sa && fm.isZero sb) || (fm.isZero sa && fm.isInf sb) then ⟨fm.nanCode, nvS ||| flagNV⟩
  else if st ≠ .none then
    if scaleZero then ⟨fm.nanCode, nvS ||| flagNV⟩
    else
      let r := addTermF32 c (.inf (neg != decide (st = .negInf)))
      ⟨r.code, r.flags ||| nvS⟩
  else if scaleInf then
    if p = 0 then ⟨fm.nanCode, nvS ||| flagNV⟩
    else
      let r := addTermF32 c (.inf (neg != decide (p < 0)))
      ⟨r.code, r.flags ||| nvS⟩
  else match fm.val sa, fm.val sb with
    | .fin _ a ea, .fin _ b eb =>
      let r := addTermF32 c (.fin (neg != decide (p < 0)) (p.natAbs * a * b) (ea + eb - 40))
      ⟨r.code, r.flags ||| nvS⟩
    | _, _ => ⟨fm.nanCode, nvS⟩

/-- The C group at v(d) written from 512 codes, with the flags (R194). -/
def Hart.setC (x : Hart) (d : Nat) (l : List FRes) : Hart := x.setElems d 32 512 fun n => some (l[n]?.getD ⟨0, 0⟩).code

def orAll (l : List FRes) : BitVec 8 := l.foldl (fun a r => a ||| r.flags) 0

/-- promote(vsa, ssb) into the C group at v(d): P is left zero (R48, R202). `sb` is the weight-tile scale. -/
def promote (x : Hart) (d vsa sb : Nat) : Hart × BitVec 8 :=
  let l := (List.range 512).map fun n =>
    promoteOne (x.velem d 32 n) (x.pEntry n) (x.pState n) (x.velem vsa 32 (n / 64)) (sb % 2 ^ 32)
  ((x.setC d l).clearP, orAll l)

/-- E4M3 and E5M2: every product into P (R47). -/
def mmaP (x : Hart) (w : Nat) (m : MatOps) : Hart × BitVec 8 :=
  let fm := fmtOf w
  let l := (List.range 512).map fun n =>
    (List.range 64).foldl (fun p k => pAdd fm p (m.a (n / 64) k) (m.b k (n % 64))) ⟨x.pEntry n, x.pState n, 0⟩
  (x.setP fun n => ((l[n]?.getD ⟨0, .none, 0⟩).v, (l[n]?.getD ⟨0, .none, 0⟩).st), l.foldl (fun a p => a ||| p.flags) 0)

/-- One step of a BF16 or FP16 accumulation: rne_fp32(c + a·b), the product exact (R46). -/
def stepHalf (fm : Fmt) (c a b : Nat) : FRes :=
  let nv := flagIf (fm.isSNaN a || fm.isSNaN b || fmtF32.isSNaN c) flagNV
  if fm.zeroTimesInf a b then ⟨fmtF32.nanCode, flagNV⟩
  else if fm.isNaN a || fm.isNaN b || fmtF32.isNaN c then ⟨fmtF32.nanCode, nv⟩
  else fmtF32.addVal 0 false (fmtF32.val c) (fm.mulVal a b)

/-- BF16 and FP16: one rounding a step, in ascending k (R46). -/
def mmaHalf (x : Hart) (w d : Nat) (m : MatOps) : Hart × BitVec 8 :=
  let l := (List.range 512).map fun n =>
    (List.range 32).foldl (fun c k => stepF (fun u _ => stepHalf (fmtOf w) u (m.a (n / 64) k) (m.b k (n % 64))) c 0)
      ⟨x.velem d 32 n, 0⟩
  (x.setC d l, orAll l)

/-- I8 and N8: the exact sum, added to C as I32 (R49). -/
def mmaInt (x : Hart) (w d : Nat) (sat : Bool) (m : MatOps) : Hart × BitVec 8 :=
  let l := (List.range 512).map fun n =>
    let s := (List.range 64).foldl (fun a k => a + intVal w (m.a (n / 64) k) * intVal w (m.b k (n % 64))) (0 : Int)
    let v := signedVal 32 (x.velem d 32 n) + s
    let r := if sat then clampInt (intMin 2) (intMax 2) v else (v, 0)
    (⟨wrapNat 32 r.1, r.2⟩ : FRes)
  (x.setC d l, orAll l)

/-- MXI8: blocks of 32, each added with one rounding (R50). `ea` and `eb` are the scales by row or column and block. -/
def mmaMx (x : Hart) (d : Nat) (m : MatOps) (ea eb : Nat → Nat → Nat) : Hart × BitVec 8 :=
  let l := (List.range 512).map fun n =>
    (List.range 2).foldl (fun c q =>
      let dot := (List.range 32).foldl (fun a k =>
        a + signedVal 8 (m.a (n / 64) (32 * q + k)) * signedVal 8 (m.b (32 * q + k) (n % 64))) (0 : Int)
      stepF (fun u _ => addTermF32 u (.fin (decide (dot < 0)) dot.natAbs
        ((ea (n / 64) q : Int) - 127 + (eb q (n % 64) : Int) - 127 - 12))) c 0) ⟨x.velem d 32 n, 0⟩
  (x.setC d l, orAll l)

/-- The register numbers that IMM names (R196). -/
def immVsa (o : Fields) : Nat := o.imm.toNat % 256
def immSsb (o : Fields) : Nat := o.imm.toNat / 256 % 256
def immVm (o : Fields) : Nat := o.imm.toNat / 65536 % 256

/-- The scales of an MXI8 instruction (R199). -/
def mxEa (x : Hart) (o : Fields) (i q : Nat) : Nat := x.velem (immVsa o) 8 (2 * i + q)
def mxEb (x : Hart) (o : Fields) (q j : Nat) : Nat := x.velem (immSsb o) 8 (64 * q + j)

/-- The first reserved item of an MXI8 instruction in the order of R208: operand, byte offset, and whether a scale. -/
def mxReserved (x : Hart) (o : Fields) (m : MatOps) : Option (Nat × Nat) :=
  match findBelow 512 fun n => m.a (n / 64) (n % 64) % 256 == 0x80 with
  | some n => some (0, n)
  | none => match findBelow 4096 fun n => m.b (n / 64) (n % 64) % 256 == 0x80 with
    | some n => some (1, n)
    | none => match findBelow 16 fun n => x.velem (immVsa o) 8 n == 0xFF with
      | some n => some (2, n)
      | none => (findBelow 128 fun n => x.velem (immSsb o) 8 n == 0xFF).map fun n => (3, n)

/-- RESERVED_CODE of a matrix instruction (R208). -/
def trapMxReserved (p : Nat × Nat) : Trap :=
  ⟨causeRESERVED_CODE, BitVec.ofNat 64 (14 + (if 2 ≤ p.1 then 256 else 0) + 512 * p.1 + 4096 * p.2), 0, 0⟩

/-- MMA, MMAS and MMAG on operands already read: the products by W, then the promotion under P (R198). `sb` is the
captured weight-tile scale. -/
def mmaOn (e : QEntry) (o : Fields) (x : Hart) (m : MatOps) (sb : Nat) : HRes :=
  let w := o.w.toNat
  let d := e.vd
  if w = 14 then
    match mxReserved x o m with
    | some p => .fault { x with vstart := 0 } 0 (trapMxReserved p)
    | none =>
      let r := mmaMx x d m (mxEa x o) (mxEb x o)
      .done r.1 r.2 none
  else if w = 8 ∨ w = 9 then
    let r := mmaP x w m
    if o.f.getLsbD 4 then
      let t := promote r.1 d (immVsa o) sb
      .done t.1 (r.2 ||| t.2) none
    else .done r.1 r.2 none
  else if w ≤ 7 then
    let r := mmaInt x w d (satBit o) m
    .done r.1 r.2 none
  else
    let r := mmaHalf x w d m
    .done r.1 r.2 none

/-- MMA (R198). -/
def perfMma (e : QEntry) (o : Fields) (x : Hart) : HRes :=
  mmaOn e o x ⟨matA x o.w.toNat e.va, matB x o.w.toNat e.vb⟩ (e.cap 0).toNat

/-- The kept value t of row i of MMAS (R200). -/
def sparseKept (x : Hart) (a i t : Nat) : Nat := elem 8 (x.vreg a).toNat (32 * i + t)

/-- The metadata nibble of row i and group g (R200). -/
def sparseNibble (x : Hart) (vm i g : Nat) : Nat := elem 4 (x.vreg vm).toNat (16 * i + g)

/-- MMAS as MMA over the kept values alone: slot t of row i multiplies the B row its nibble names, so that two kept
values of one position are added separately (R200). -/
def sparseOps (e : QEntry) (o : Fields) (x : Hart) (i : Nat) : Nat → Nat × Nat := fun t =>
  let nib := sparseNibble x (immVm o) i (t / 2)
  (sparseKept x e.va i t, 4 * (t / 2) + (if t % 2 = 0 then nib % 4 else nib / 4 % 4))

/-- The values of row i that multiply B row k, in the order of the kept values: 0 where no kept value names k (R200). -/
def sparseTerms (e : QEntry) (o : Fields) (x : Hart) (i k : Nat) : List Nat :=
  match [2 * (k / 4), 2 * (k / 4) + 1].filterMap fun t =>
    if (sparseOps e o x i t).2 = k then some (sparseOps e o x i t).1 else none with
  | [] => [0]
  | l => l

/-- MMAS (R200). -/
def perfMmas (e : QEntry) (o : Fields) (x : Hart) : HRes :=
  let w := o.w.toNat
  let d := e.vd
  let b := matB x w e.vb
  let kept := sparseOps e o x
  if w ≤ 7 then
    let l := (List.range 512).map fun n =>
      let s := (List.range 32).foldl (fun a t =>
        a + intVal w (kept (n / 64) t).1 * intVal w (b (kept (n / 64) t).2 (n % 64))) (0 : Int)
      let v := signedVal 32 (x.velem d 32 n) + s
      let r := if satBit o then clampInt (intMin 2) (intMax 2) v else (v, 0)
      (⟨wrapNat 32 r.1, r.2⟩ : FRes)
    .done (x.setC d l) (orAll l) none
  else
    let terms := (List.range 8).map fun i => (List.range 64).map (sparseTerms e o x i)
    let l := (List.range 512).map fun n =>
      ((terms[n / 64]?.getD []).zipIdx).foldl (fun p q =>
        q.1.foldl (fun p a => pAdd (fmtOf w) p a (b q.2 (n % 64))) p) (⟨x.pEntry n, x.pState n, 0⟩ : PAcc)
    let y := x.setP fun n => ((l[n]?.getD ⟨0, .none, 0⟩).v, (l[n]?.getD ⟨0, .none, 0⟩).st)
    let f := l.foldl (fun a p => a ||| p.flags) 0
    if o.f.getLsbD 4 then
      let t := promote y d (immVsa o) (e.cap 0).toNat
      .done t.1 (f ||| t.2) none
    else .done y f none

/-- MPROM (R202). -/
def perfMprom (e : QEntry) (o : Fields) (x : Hart) : HRes :=
  let t := promote x e.vd (immVsa o) (e.cap 0).toNat
  .done t.1 t.2 none

/-- MZERO (R203). -/
def perfMzero (_ : QEntry) (_ : Fields) (x : Hart) : HRes := .done x.clearP 0 none

/-- MZERO.C (R203). -/
def perfMzeroC (e : QEntry) (_ : Fields) (x : Hart) : HRes :=
  .done (x.clearP.setElems e.vd 32 512 fun _ => some 0) 0 none

/-- MDRAIN (R204). -/
def perfMdrain (e : QEntry) (o : Fields) (x : Hart) : HRes :=
  let k := o.imm.toNat
  .done (x.setVreg e.vd (BitVec.ofNat 4096 (packElems 128 ((List.range 32).map fun t =>
    elem 80 x.pbuf.toNat (32 * k + t) + 2 ^ 80 * elem 2 x.pspec.toNat (32 * k + t))))) 0 none

/-- MFILL (R204). -/
def perfMfill (e : QEntry) (o : Fields) (x : Hart) : HRes :=
  let k := o.imm.toNat
  let c := fun t => elem 128 (x.vreg e.va).toNat t
  .done (x.setP fun n =>
    if n / 32 = k then (signedVal 80 (c (n % 32)), PSpec.ofCode (c (n % 32) / 2 ^ 80))
    else (x.pEntry n, x.pState n)) 0 none

/-- MSTAT but for LATCH and LASTBU, which the core holds: a join (R205). -/
def mstatWord (x : Hart) (latch : Bool) : Word :=
  let sp := decide (x.pspec ≠ 0)
  BitVec.ofNat 64 (x.tstatus.mfrz.toNat + 2 * (sp || decide (x.pbuf ≠ 0)).toNat + 4 * sp.toNat + 8 * latch.toNat +
    256 * x.lastbu)

/-- The number of bits in which two wide values differ. -/
def toggles (n a b : Nat) : Nat := countOnes n (Nat.xor a b)

/-- BU of R211, from the toggles. -/
def budgetUnits (t : Nat) : Nat := 8 + (t + 1023) / 1024

/-- The vector registers that IMM names (R196): vsa, vsb of MXI8, vm of MMAS. -/
def immVregs (o : Fields) (vm : Bool) : List Nat :=
  (if o.w = 14 then [immVsa o, immSsb o] else if o.f.getLsbD 4 then [immVsa o] else []) ++ (if vm then [immVm o] else [])

/-- The freeze check of R197. -/
def freezeIll (x : Hart) : Option PushIll := valueIll x.tstatus.mfrz 0xFE

/-- The C group must not share a register with the others named (R197). -/
def cOverlap (x : Hart) (f : BitVec 8) (l : List (Nat × Nat)) : Option PushIll :=
  regIll x f (l.any fun p => overlaps (resolveVec x f) 4 p.1 p.2)

/-- Push checks of MMA (R197). -/
def checkMma (o : Fields) (x : Hart) : Option PushIll :=
  firstIll [alignIll x o.d 4, alignIll x o.a 1, alignIll x o.b 8,
    cOverlap x o.d ((resolveVec x o.a, 1) :: (resolveVec x o.b, 8) :: (immVregs o false).map fun r => (r, 1)),
    freezeIll x]

/-- Push checks of MMAS (R197). -/
def checkMmas (o : Fields) (x : Hart) : Option PushIll :=
  firstIll [alignIll x o.d 4, alignIll x o.a 1, alignIll x o.b 8,
    cOverlap x o.d ((resolveVec x o.a, 1) :: (resolveVec x o.b, 8) :: (immVregs o true).map fun r => (r, 1)),
    freezeIll x]

/-- Push checks of MMAG (R197). -/
def checkMmag (o : Fields) (x : Hart) : Option PushIll :=
  firstIll [alignIll x o.d 4, alignIll x o.a 1, alignIll x o.b 1,
    cOverlap x o.d ((resolveVec x o.a, 1) :: (resolveVec x o.b, 1) :: (immVregs o false).map fun r => (r, 1)),
    freezeIll x]

/-- Push checks of MPROM (R197). -/
def checkMprom (o : Fields) (x : Hart) : Option PushIll :=
  firstIll [alignIll x o.d 4, cOverlap x o.d [(immVsa o, 1)], freezeIll x]

/-- Push checks of MZERO and MZERO.C (R197). -/
def checkMzero (_ : Fields) (x : Hart) : Option PushIll := freezeIll x
def checkMzeroC (o : Fields) (x : Hart) : Option PushIll := firstIll [alignIll x o.d 4, freezeIll x]

end Sys2Proof.Machine
end

