-- ==== Sys2Proof/Machine/MemVec.lean ====
section
/-! DEFINITION. Sys2Proof/Machine/MemVec.lean: what the memory pipe does with queued accesses: dense, indexed, formatted, peer
and atomic vector forms, the MMAG gather, fibre loads and stores, and FWALK (R105, R201, R236 to R247, R255 to R258). -/

namespace Sys2Proof.Machine

/-- How the vector unit or the memory pipe ends with a queue entry: done, with flags and a scalar for a join; a vector
fault, with the flags of the part performed, whether PART is set, and the failing granules; a data-dependent entry at a
step boundary; an entry started and held outside the core, with its progress; an entry that may not start yet; or a stop
of the model. -/
inductive PRes where
  | done (s : State) (f : BitVec 8) (r : Option Word)
  | fault (s : State) (f : BitVec 8) (t : Trap) (part : Bool) (pages : List FaultPage)
  | part (s : State) (f : BitVec 8) (acc : Word)
  | held (s : State) (prog : Vprog)
  | wait (s : State)
  | stop (f : Fault)
  deriving DecidableEq, Repr

/-- The result of an entry that touches the hart's registers alone, in the state. A reserved code leaves an entry in
part, wherever it stands (R150). DESIGN CHOICE (log 51): an MMA, MMAS or MMAG that R208 stops is saved with PART = 1 too. -/
def HRes.lift (r : HRes) (s : State) (h : Nat) : PRes :=
  match r with
  | .done x f v => .done (s.setHart h x) f v
  | .fault x f t => .fault (s.setHart h x) f t (decide (x.vstart ≠ 0) || x.vprog.v || t.cause == causeRESERVED_CODE) []
  | .part x f a => .part (s.setHart h x) f a

/-- The head of the queue changed. -/
def Hart.setHead (x : Hart) (f : QEntry → QEntry) : Hart :=
  match x.queue with
  | [] => x
  | e :: r => { x with queue := f e :: r }

/-- The causes whose trap registers name an element (R259, R297). -/
def namesElement (c : BitVec 8) : Bool :=
  c == causeLOAD_PAGE || c == causeSTORE_PAGE || c == causePROTECT || c == causeDATA_POISON || c == causeVIEW_STALE ||
    c == causeVIEW_POISON || c == causeREMOTE_LOST || c == causeATOMIC_ROUTE || c == causeFORMAT_REC ||
    c == causeVOLUME_RANGE || c == causeALLOC_FAIL

/-- A trap of an element, with its index where the cause names it (R259). -/
def Trap.atElem (t : Trap) (i : Nat) : Trap :=
  if namesElement t.cause then { t with tinfo := t.tinfo + BitVec.ofNat 64 (65536 * (i % 4096)) } else t

/-- The elements of an entry that FMASK leaves to perform: all, or those of the recorded groups (R105, R258). An entry
partly performed with no group recorded has its progress in VSTART (R96, R100). -/
def dueAt (e : QEntry) (x : Hart) (g i : Nat) : Bool := !e.part || x.fmask == 0 || x.fmask.getLsbD (i / g)

/-- Elements per FMASK bit (R105). -/
def groupSize (t : Vtype) : Nat := max 1 (t.vlmax / 512)

/-- What the elements of one group did: the values loaded, and flags; or why the group performs nothing. -/
inductive GroupEnd where
  | ok (s : State) (vals : Table Nat) (f : BitVec 8)
  | fail (i : Nat) (t : Trap)
  | held (r : Hold)
  | stop (f : Fault)
  deriving DecidableEq, Repr

/-- The elements of one group in ascending order. -/
def runElems (f : State → Nat → Eff) : List Nat → State → Table Nat → BitVec 8 → GroupEnd
  | [], s, vals, fl => .ok s vals fl
  | i :: r, s, vals, fl => match f s i with
    | .ok t v g => runElems f r t (vals ++ [(i, v)]) (fl ||| g)
    | .fault t => .fail i t
    | .held x => .held x
    | .stop e => .stop e

/-- What a partly failing instruction did: the state, the values loaded, the flags, the failing groups, and the
lowest-numbered failing element with its trap (R258). -/
structure Batch where
  s : State
  vals : Table Nat := []
  f : BitVec 8 := 0
  bad : List Nat := []
  first : Option (Nat × Trap) := none
  deriving DecidableEq, Repr

inductive BatchEnd where
  | ok (b : Batch)
  | held (r : Hold)
  | stop (f : Fault)
  deriving DecidableEq, Repr

/-- The groups in ascending order: a group with a failing element performs none of its elements (R258). -/
def runGroups (f : State → Nat → Eff) : List (Nat × List Nat) → Batch → BatchEnd
  | [], b => .ok b
  | (j, l) :: r, b => match runElems f l b.s [] 0 with
    | .ok s vals fl => runGroups f r { b with s := s, vals := b.vals ++ vals, f := b.f ||| fl }
    | .fail i t => runGroups f r { b with bad := b.bad ++ [j], first := b.first.orElse fun _ => some (i, t.atElem i) }
    | .held x => .held x
    | .stop e => .stop e

/-- A list of elements cut into FMASK groups. -/
def groupsOf (g : Nat) (l : List Nat) : List (Nat × List Nat) :=
  ((l.map (· / g)).dedup).map fun j => (j, l.filter fun i => i / g = j)

/-- The causes that fault batching records (R296). -/
def batchCause (c : BitVec 8) : Bool :=
  c == causeLOAD_PAGE || c == causeSTORE_PAGE || c == causePROTECT || c == causeFORMAT_REC

/-- The granules of failing elements, each once, in element order (R104, R296); lane memory has none. The TINFO of
FORMAT_REC does not tell a store; `store` does. -/
def pagesOf (l : List Trap) (store : Bool := false) : List FaultPage :=
  l.foldl (fun acc t =>
    let p : FaultPage :=
      ⟨t.cause, if t.cause = causeFORMAT_REC then store else t.tinfo.getLsbD 1, t.taddr.extractLsb' 12 36⟩
    let lane := t.cause != causeFORMAT_REC && t.tinfo.getLsbD 0
    if batchCause t.cause && !lane && acc.length < 16 && !(acc.any fun q => q.gran == p.gran) then acc ++ [p] else acc) []

/-- The trap of each element taken alone, where it fails. -/
def elemTraps (f : State → Nat → Eff) (s : State) (l : List Nat) : List Trap :=
  l.filterMap fun i => match f s i with
    | .fault t => some t
    | _ => none

/-- A hold of an entry outside the core: nothing is performed, and the hold is remembered. -/
def State.heldAt (s : State) (h : Nat) (r : Hold) : PRes := .held (s.holdRead h r) (s.hart h).vprog

/-- Nothing that a store of a core could clear of poison is poisoned. -/
def State.unpoisoned (s : State) (core : Nat) : Bool :=
  s.poison.isEmpty && s.lanePoison.isEmpty && !((s.core core).l1.any Prod.snd) && !((s.core core).coords.any Prod.snd)

/-- The poison of the lines, in memory and in the caches of a core, or of the words of lane memory, that the bytes written by
one store instruction of it cover whole is cleared (R231): `spans` holds addresses in the cell list, with lengths. -/
def State.cleanPoison (s : State) (core : Nat) (spans : List (Nat × Nat)) : State :=
  if s.unpoisoned core then s
  else { s.modCore core fun c => c.cleanCopies fun l => spansCover spans (128 * l) 128 with
    poison := s.poison.filter fun l => !spansCover spans (128 * l) 128
    lanePoison := s.lanePoison.filter fun k => !spansCover spans (8 * k) 8 }

/-- Where the n bytes of an access that has been made stand in the cell list, if it reached memory: in a line that its die holds under
its tag (R353), or where its translation has them. -/
def State.spanOf (s : State) (w : Who) (acc : Access) (a : Word) (n : Nat) : Option (Nat × Nat) :=
  if w.lm then some (laneBase w.core + a.toNat, n)
  else if let some (pa, _) := (s.tagHit (w.core / 32) w.asn (acc == .store) a.toNat).filter fun p => grantPermits p.2.1 w.sup acc then
    some (pa, n)
  else match s.translate w.asn w.sup acc a.toNat with
    | .ok _ pa _ => if spaceOf pa = 2 && !s.reachable a.toNat pa then none else some (pa, n)
    | _ => none

/-- The state after the stores of n bytes of one instruction at some addresses (R231). -/
def State.storesDone (s : State) (w : Who) (n : Nat) (l : List Word) : State :=
  if s.unpoisoned w.core then s
  else s.cleanPoison w.core (l.filterMap fun a => s.spanOf w .store a n)

/-- The elements that a partly failing instruction performed. -/
def Batch.performed (b : Batch) (g : Nat) (due : List Nat) : List Nat := due.filter fun i => !b.bad.contains (i / g)

/-- The end of a memory instruction over FMASK groups: the registers take the values loaded, and FMASK the failing
groups (R105, R106, R258). `put` writes the values into the hart. -/
def finishBatch (s0 : State) (h : Nat) (f : State → Nat → Eff) (due : List Nat) (r : BatchEnd)
    (put : Hart → Table Nat → Hart) (store : Bool := false) : PRes :=
  match r with
  | .held x => s0.heldAt h x
  | .stop e => .stop e
  | .ok b =>
    let s1 := b.s.modHart h fun x => put x b.vals
    match b.first with
    | none => .done s1 b.f none
    | some (_, t) =>
      let mask := b.bad.foldl (fun m j => m ||| ((1 : MReg) <<< j)) 0
      .fault (s1.modHart h fun x => { x with fmask := mask }) b.f t true
        (if batchCause t.cause then pagesOf (elemTraps f s0 due) store else [])

/-- What a store instruction did, with what it does once its elements are through: the poison of what it wrote whole is
cleared, or a store that may be held. -/
def BatchEnd.stored (r : BatchEnd) (f : Batch → Eff) : BatchEnd :=
  match r with
  | .ok b => match f b with
    | .ok s _ _ => .ok { b with s := s }
    | .fault _ => .ok b
    | .held x => .held x
    | .stop e => .stop e
  | x => x

/-- Loaded values written into the n-bit group at v(k). -/
def putGroup (e : QEntry) (k n : Nat) (x : Hart) (vals : Table Nat) : Hart :=
  if vals.isEmpty then x else x.setElems k n e.vl fun i => tfind vals i

/-- The active elements still to be performed (R133, R258). -/
def dueElems (e : QEntry) (o : Fields) (x : Hart) : List Nat :=
  (List.range e.vl).filter fun i => activeAt e o x i && dueAt e x (groupSize e.vt) i

/-- The base of `[sa+off]` for a queued instruction (R237). -/
def baseOf (e : QEntry) (o : Fields) : Word := e.cap 0 + o.imm.signExtend 64

def lmBit (o : Fields) : Bool := o.f.getLsbD 6

def entryWho (s : State) (h : Nat) (e : QEntry) (o : Fields) : Who :=
  { s.who h e.prv (lmBit o) (baseOf e o) with cls := o.hintC.toNat }

/-- The addresses of VLD/VST, VLDS/VSTS and VLDX/VSTX (R240). -/
def unitAddr (e : QEntry) (o : Fields) (i : Nat) : Word := baseOf e o + BitVec.ofNat 64 (i * (e.vt.bits / 8))
def strideAddr (e : QEntry) (o : Fields) (i : Nat) : Word := baseOf e o + BitVec.ofNat 64 i * e.cap 1
def indexAddr (e : QEntry) (o : Fields) (x : Hart) (i : Nat) : Word :=
  baseOf e o + BitVec.ofNat 64 (x.velem e.vb e.vt.bits i * (if o.f.getLsbD 4 then 1 else e.vt.bits / 8))

/-- MISALIGN before any element: the first misaligned address in element order (R240, R259). -/
def misalign (a base : Word) (lm store : Bool) : Trap := trapMem causeMISALIGN a base lm store 0

/-- An address that is a multiple of n. -/
def aligned (a : Word) (n : Nat) : Bool := decide (a.toNat % n = 0)

/-- A dense load or store over its element addresses. `bad` says that the instruction is misaligned though no active
address need be. -/
def denseMem (s : State) (h : Nat) (e : QEntry) (o : Fields) (store bad : Bool) (addr : Nat → Word) : PRes :=
  let x := s.hart h
  let n := e.vt.bits / 8
  let w := entryWho s h e o
  let active := (List.range e.vl).filter fun i => activeAt e o x i
  match active.find? fun i => !aligned (addr i) n with
  | some i => .fault s 0 (misalign (addr i) w.base w.lm store) false []
  | none =>
    if bad then .fault s 0 (misalign w.base w.base w.lm store) false []
    else
      let el : State → Nat → Eff := fun s i =>
        if store then s.storeEl w (addr i) n (x.velem e.vd e.vt.bits i) else s.loadEl w false (addr i) n
      let due := dueElems e o x
      let g := groupSize e.vt
      let r := (runGroups el (groupsOf g due) { s := s }).stored fun b =>
        .ok (if store then b.s.storesDone w n ((b.performed g due).map addr) else b.s) 0 0
      finishBatch s h el due r (fun y vals => if store then y else putGroup e e.vd e.vt.bits y vals) store

/-- VLD and VST (R240). -/
def memVld (e : QEntry) (o : Fields) (h : Nat) (s : State) : PRes :=
  denseMem s h e o false (!aligned (baseOf e o) (e.vt.bits / 8)) (unitAddr e o)

/-- Elements that follow one another in one line of memory, as runs (R418); those that `alone` names stand each by itself. -/
def lineRuns (addr : Nat → Word) (alone : Nat → Bool) : List Nat → List (List Nat)
  | [] => []
  | i :: r => match lineRuns addr alone r with
    | (k :: l) :: rs =>
      if k = i + 1 ∧ lineOf (addr i).toNat = lineOf (addr k).toNat ∧ !alone i ∧ !alone k then (i :: k :: l) :: rs
      else [i] :: (k :: l) :: rs
    | rs => [i] :: rs

/-- The store of an element goes to a peer: each is posted by itself (R245, R399). -/
def State.farStore (s : State) (w : Who) (a : Word) : Bool :=
  match s.hitOrPage w .store a.toNat with
  | .ok _ pa _ => decide (spaceOf pa = 2)
  | _ => false

/-- The curators of the hubs between two stores of one instruction: those that a free value names start a derivation (R378,
R419; log 8). -/
def State.curatorsBetween (s : State) : State :=
  if (List.range 8).any fun hub => (s.hub hub).deriv.isNone && !(s.hub hub).derivQ.isEmpty then
    (List.range 8).foldl (fun t hub => if s.takeFree.1.getLsbD hub then t.derivStart hub else t) s.takeFree.2
  else s

/-- The stores of runs of n-byte elements, one for each run; a curator may start a derivation between them. -/
def storeRuns (w : Who) (n : Nat) (addr : Nat → Word) (val : Nat → Nat) : List (List Nat) → State → Eff
  | [], s => .ok s 0 0
  | l :: r, s => match s.storeEl w (addr (l.headD 0)) (n * l.length) (packElems (8 * n) (l.map val)) with
    | .ok t _ _ => storeRuns w n addr val r (if r.isEmpty then t else t.curatorsBetween)
    | x => x

/-- VST (R240). Where views watch memory its elements in one line are one store of the line, which sends one notice (R276,
R418): the elements are first tried one by one, with no view told of them. -/
def memVst (e : QEntry) (o : Fields) (h : Nat) (s : State) : PRes :=
  let bad := !aligned (baseOf e o) (e.vt.bits / 8)
  if s.regs.isEmpty || lmBit o || bad then denseMem s h e o true bad (unitAddr e o)
  else
    let x := s.hart h
    let n := e.vt.bits / 8
    let w := entryWho s h e o
    let addr := unitAddr e o
    let val (i : Nat) : Nat := x.velem e.vd e.vt.bits i
    let el : State → Nat → Eff := fun s i => s.storeEl w (addr i) n (val i)
    let due := dueElems e o x
    let g := groupSize e.vt
    let r := (runGroups el (groupsOf g due) { s := { s with regs := [] } }).stored fun b =>
      match storeRuns w n addr val (lineRuns addr (fun i => s.farStore w (addr i)) (b.performed g due)) s with
      | .ok t v f => .ok (t.storesDone w n ((b.performed g due).map addr)) v f
      | .fault _ => .held .other
      | q => q
    finishBatch s h el due r (fun y _ => y) true

/-- A strided form is misaligned by its base or by its stride (R240). -/
def strideBad (e : QEntry) (o : Fields) : Bool :=
  !aligned (baseOf e o) (e.vt.bits / 8) || !aligned (e.cap 1) (e.vt.bits / 8)

/-- VLDS and VSTS (R240). -/
def memVlds (e : QEntry) (o : Fields) (h : Nat) (s : State) : PRes :=
  denseMem s h e o false (strideBad e o) (strideAddr e o)
def memVsts (e : QEntry) (o : Fields) (h : Nat) (s : State) : PRes :=
  denseMem s h e o true (strideBad e o) (strideAddr e o)

/-- VLDX and VSTX (R240). -/
def memVldx (e : QEntry) (o : Fields) (h : Nat) (s : State) : PRes :=
  denseMem s h e o false false (indexAddr e o (s.hart h))
def memVstx (e : QEntry) (o : Fields) (h : Nat) (s : State) : PRes :=
  denseMem s h e o true false (indexAddr e o (s.hart h))

/-- The core and the byte offset that a peer index names (R216, R244). -/
def peerPlace (w : Who) (idx n : Nat) : Nat × Word :=
  (w.core / 32 * 32 + bitsOf idx 27 5, BitVec.ofNat 64 (idx % 2 ^ 27 * n))

/-- VLDP and VSTP: lane memory of the cores of the die, by index elements (R244). -/
def peerMem (e : QEntry) (o : Fields) (h : Nat) (s : State) (store : Bool) : PRes :=
  let x := s.hart h
  let n := e.vt.bits / 8
  let w : Who := { s.who h e.prv true 0 with lm := true }
  let el : State → Nat → Eff := fun s i =>
    let p := peerPlace w (x.velem e.va e.vt.bits i % 2 ^ 32) n
    if store then s.laneStore w p.1 p.2 n (x.velem e.vd e.vt.bits i) else s.laneLoad w p.1 p.2 n
  let due := dueElems e o x
  let g := groupSize e.vt
  let r := (runGroups el (groupsOf g due) { s := s }).stored fun b =>
    .ok (if store then b.s.cleanPoison w.core ((b.performed g due).map fun i =>
      let p := peerPlace w (x.velem e.va e.vt.bits i % 2 ^ 32) n
      (laneBase p.1 + p.2.toNat, n)) else b.s) 0 0
  finishBatch s h el due r (fun y vals => if store then y else putGroup e e.vd e.vt.bits y vals) store

def memVldp (e : QEntry) (o : Fields) (h : Nat) (s : State) : PRes := peerMem e o h s false
def memVstp (e : QEntry) (o : Fields) (h : Nat) (s : State) : PRes := peerMem e o h s true

/-- Who makes the atomics of VAMO, their addresses where no peer is named, and one of them (R247). -/
def vamoWho (e : QEntry) (o : Fields) (h : Nat) (s : State) : Who :=
  { s.who h e.prv (lmBit o) (if o.f.getLsbD 5 then 0 else e.cap 0) with lm := lmBit o }
def vamoAddr (e : QEntry) (x : Hart) (i : Nat) : Word :=
  e.cap 0 + BitVec.ofNat 64 (x.velem e.vb e.vt.bits i * (e.vt.bits / 8))
def vamoEl (e : QEntry) (o : Fields) (x : Hart) (w : Who) (s : State) (i : Nat) : Eff :=
  let n := e.vt.bits / 8
  let f := atomicStep (o.imm.toNat % 16) o.w.toNat (x.velem e.vd e.vt.bits i)
  if o.f.getLsbD 5 then
    let p := peerPlace w (x.velem e.vb e.vt.bits i % 2 ^ 32) n
    s.laneAtomic w p.1 p.2 n f
  else s.atomicEl w (vamoAddr e x i) n (o.f.getLsbD 4) f

/-- VAMO: element atomics in ascending order (R247); with .REL at domain scope or wider it waits for the posted stores
(R248, R281). -/
def memVamo (e : QEntry) (o : Fields) (h : Nat) (s : State) : PRes :=
  let x := s.hart h
  let n := e.vt.bits / 8
  let w := vamoWho e o h s
  let active := (List.range e.vl).filter fun i => activeAt e o x i
  match active.find? fun i => !o.f.getLsbD 5 && !aligned (vamoAddr e x i) n with
  | some i => .fault s 0 (misalign (vamoAddr e x i) w.base w.lm true) false []
  | none =>
    if o.imm.getLsbD 5 && decide (5 ≤ fN o % 8) && decide (x.outcnt ≠ 0) then .wait s
    else
    let due := dueElems e o x
    let el := vamoEl e o x w
    finishBatch s h el due (runGroups el (groupsOf (groupSize e.vt) due) { s := s })
      (fun y vals => if o.f.getLsbD 4 then y else putGroup e e.vd e.vt.bits y vals) true

/-- W matches a page format (R242). -/
def fmtMatches (w fmt : Nat) : Bool :=
  match w with
  | 8 => decide (fmt = 1) || decide (fmt = 2)
  | 9 => decide (fmt = 3)
  | _ => decide (fmt = 4)

/-- What VLDF and VSTF learn of a block: the state, the record, and the PTE's FMT and FREC of x0's page; or why every
active element of the block fails. -/
inductive BlockInfo where
  | ok (s : State) (r : FRec) (fmt frec : Nat)
  | fail (t : Trap)
  | held (r : Hold)
  deriving DecidableEq, Repr

/-- The key of a record among those an instruction has read: its number, and the hub whose tables name it (R237). -/
def recKey (va n : Nat) : Nat := 8 * n + hubOf va

/-- The record that the page of x0 names, from the snapshot that the instruction took of it when it started (R227, R237). -/
def State.takeRecord (s : State) (w : Who) (x0 : Word) (n : Nat) : Record :=
  match tfind w.recs (recKey x0.toNat n) with
  | some x => .ok s x
  | none => s.readRecord w.h w.asn x0.toNat n (w.pick.getLsbD n)

/-- The page and record of a block's first element (R228, R242). -/
def blockInfo (s : State) (w : Who) (store : Bool) (wc : Nat) (x0 : Word) : BlockInfo :=
  let acc := if store then Access.store else Access.load
  if 2 ^ 48 ≤ x0.toNat then .fail (w.trap (if store then causeSTORE_PAGE else causeLOAD_PAGE) x0 store 0)
  else match s.translate w.asn w.sup acc x0.toNat with
    | .fault c r => .fail (w.trap c x0 store r)
    | .poison => .fail (w.trap causeDATA_POISON x0 store 0)
    | .held k => .held (.queue k)
    | .ok s1 _ pte =>
      let fmt := pteFMT pte
      let n := pteFREC pte
      if !fmtMatches wc fmt then .fail (trapFormat x0 w.base n true)
      else match s1.takeRecord w x0 n with
        | .ill => .fail (trapFormat x0 w.base n false)
        | .poison => .fail (w.trap causeDATA_POISON x0 store 0)
        | .held r => .held r
        | .ok s2 x =>
          if frecOk x fmt ∧ (frecOf x).dbase ≤ x0.toNat then .ok s2 (frecOf x) fmt n
          else .fail (trapFormat x0 w.base n false)

/-- The records of the blocks of VLDF or VSTF, each read once when the instruction starts (R227, R237). -/
def snapRecords (w : Who) (store : Bool) : List Word → State → State × Who
  | [], s => (s, w)
  | x0 :: l, s =>
    let rest := snapRecords w store l s
    if 2 ^ 48 ≤ x0.toNat then rest
    else match rest.1.translate w.asn w.sup (if store then .store else .load) x0.toNat with
      | .ok _ _ pte => match rest.1.takeRecord rest.2 x0 (pteFREC pte) with
        | .ok t x => (t, { rest.2 with recs := tset rest.2.recs (recKey x0.toNat (pteFREC pte)) x })
        | _ => rest
      | _ => rest

/-- The first elements of the blocks of some elements. -/
def blockStarts (base : Word) (b : Nat) (due : List Nat) : List Word :=
  ((due.map (· / b)).dedup).map fun j => base + BitVec.ofNat 64 (j * b)

/-- A scale's page: its own faults are reported with its address, and a page that is formatted makes the record ill-formed
for the element at x0 (R228). -/
def scaleTrap (s : State) (w : Who) (store : Bool) (x0 : Word) (r : FRec) (frec : Nat) : Option Trap :=
  let a := r.scaleAddr x0.toNat
  let acc := if store then Access.store else Access.load
  if 2 ^ 48 ≤ a.toNat then some (w.trap (if store then causeSTORE_PAGE else causeLOAD_PAGE) a store 0)
  else match s.translate w.asn w.sup acc a.toNat with
    | .fault c q => some (if c = causeFORMAT_REC then trapFormat x0 w.base frec false else w.trap c a store q)
    | .poison => some (w.trap causeDATA_POISON a store 0)
    | .held _ => none
    | .ok _ _ pte => if pteFMT pte ≠ 0 then some (trapFormat x0 w.base frec false) else none

/-- An element's page has x0's format and record (R242). -/
def elemFormat (s : State) (w : Who) (store : Bool) (a : Word) (fmt frec : Nat) : Option Trap :=
  if 2 ^ 48 ≤ a.toNat then none
  else match s.translate w.asn w.sup (if store then .store else .load) a.toNat with
    | .ok _ _ pte => if pteFMT pte = fmt ∧ pteFREC pte = frec then none else some (trapFormat a w.base frec true)
    | _ => none

/-- One code of VLDF. -/
def vldfCode (w : Who) (wc b : Nat) (s : State) (i : Nat) : Eff :=
  let x0 := w.base + BitVec.ofNat 64 (i / b * b)
  match blockInfo s w false wc x0 with
  | .fail t => .fault t
  | .held r => .held r
  | .ok s1 r fmt frec =>
    match scaleTrap s1 w false x0 r frec with
    | some t => .fault t
    | none =>
      /- the block's scale is read with it: one view read for both (R379) -/
      match s1.loadEl w true (r.scaleAddr x0.toNat) (scaleSize r.code) with
      | .ok s2 _ _ =>
        let a := w.base + BitVec.ofNat 64 i
        (match elemFormat s2 w false a fmt frec with
          | some t => .fault t
          | none => s2.loadEl w true a 1)
      | x => x

/-- The scale of a block, once its codes have been read. -/
def vldfScale (w : Who) (wc : Nat) (s : State) (x0 : Word) : Option Nat :=
  match blockInfo s w false wc x0 with
  | .ok s1 r _ _ => match s1.loadEl w true (r.scaleAddr x0.toNat) (scaleSize r.code) with
    | .ok _ v _ => some v
    | _ => none
  | _ => none

/-- The first reserved code of a load of MXI8 elements: its element, or its block for a scale (R30, R242). DESIGN CHOICE
(log 50): a replay looks at what it loads itself, so that a reserved code of a group that completed beside another group's
memory fault is not reported. -/
def vldfStop (b : Nat) (due : List Nat) (vals scales : Table Nat) : Option (Nat × Bool) :=
  (due.findSome? fun i =>
    if tget scales (i / b) 0 = 0xFF then some (i / b * b, true)
    else if tget vals i 0 = 0x80 then some (i, false) else none)

/-- The base of VLDF or VSTF is no multiple of the block size above DBASE, which is itself one; it is judged where some
block with an active element has a record (R228, R242). -/
def blockMisaligned (s : State) (w : Who) (store : Bool) (wc : Nat) (due : List Nat) : Bool :=
  let b := blockSize wc
  !aligned w.base b && due.any fun i => match blockInfo s w store wc (w.base + BitVec.ofNat 64 (i / b * b)) with
    | .ok _ _ _ _ => true
    | _ => false

/-- The codes and scales of VLDF written block by block: a block's scale, then its codes (R242). -/
def putBlocks (e : QEntry) (b sb : Nat) (y : Hart) (vals scales : Table Nat) : Hart :=
  let scale (y : Hart) (p : Nat × Nat) : Hart :=
    y.setVreg e.vb (BitVec.ofNat 4096 (setElem sb (y.vreg e.vb).toNat p.1 p.2))
  if overlaps e.vd e.vt.regs e.vb 1 then
    scales.foldl (fun y p => putGroup e e.vd 8 (scale y p) (vals.filter fun v => v.1 / b = p.1)) y
  else scales.foldl scale (putGroup e e.vd 8 y vals)

/-- VLDF (R242): codes into D, scales into B. -/
def memVldf (e : QEntry) (o : Fields) (h : Nat) (s0 : State) : PRes :=
  let x := s0.hart h
  let wc := o.w.toNat
  let b := blockSize wc
  let due := dueElems e o x
  let p := snapRecords { entryWho s0 h e o with pick := s0.drawPick.1 } false (blockStarts (baseOf e o) b due) s0.drawPick.2
  let s := p.1
  let w := p.2
  if blockMisaligned s w false wc due then .fault s 0 (misalign w.base w.base false false) false []
  else
    let el := vldfCode w wc b
    let sb := scaleBits wc
    match runGroups el (groupsOf (groupSize e.vt) due) { s := s } with
    | .held r => s.heldAt h r
    | .stop f => .stop f
    | .ok bt =>
      let blocks := (due.map (· / b)).dedup
      let scales := blocks.filterMap fun j => (vldfScale w wc bt.s (w.base + BitVec.ofNat 64 (j * b))).map fun v => (j, v)
      let put (vals scales : Table Nat) (y : Hart) : Hart := putBlocks e b sb y vals scales
      match bt.first, (if wc = 14 then vldfStop b due bt.vals scales else none) with
      | none, some (at_, isScale) =>
        .fault (bt.s.modHart h fun y =>
          { put (bt.vals.filter fun p => p.1 < at_) (scales.filter fun p => p.1 * b + b ≤ at_ ∨ (!isScale ∧ p.1 * b ≤ at_)) y with
            vstart := BitVec.ofNat 12 at_, fmask := if e.part then x.fmask else 0 }) bt.f (trapReserved isScale) true []
      | _, _ => finishBatch s h el due (.ok bt) fun y vals => put vals scales y

/-- What VSTF writes for a block: its scale and the codes (R243). -/
def vstfBlock (e : QEntry) (o : Fields) (x : Hart) (j : Nat) : Nat × (Nat → FRes) :=
  let wc := o.w.toNat
  let b := blockSize wc
  let gs := o.f.getLsbD 0
  let val (i : Nat) : Nat := x.velem e.vd 32 i
  let sc := if gs then elem 32 (x.vreg e.vb).toNat j else scaleOf wc (blockAmax e.vl b j (fun _ => true) val)
  (sc, fun i => quantUnder wc gs sc (val i))

/-- The store of a block's scale (R243). -/
def vstfScale (e : QEntry) (o : Fields) (x : Hart) (w : Who) (s : State) (j : Nat) : Eff :=
  let x0 := w.base + BitVec.ofNat 64 (j * blockSize o.w.toNat)
  match blockInfo s w true o.w.toNat x0 with
  | .ok s1 r _ _ => s1.storeEl w (r.scaleAddr x0.toNat) (scaleSize r.code) (vstfBlock e o x j).1
  | .fail t => .fault t
  | .held r => .held r

/-- One code of VSTF, where its block's scale can be written. -/
def vstfCode (e : QEntry) (o : Fields) (x : Hart) (w : Who) (s : State) (i : Nat) : Eff :=
  let wc := o.w.toNat
  let b := blockSize wc
  let x0 := w.base + BitVec.ofNat 64 (i / b * b)
  match blockInfo s w true wc x0 with
  | .fail t => .fault t
  | .held r => .held r
  | .ok s1 r fmt frec =>
    match scaleTrap s1 w true x0 r frec with
    | some t => .fault t
    | none =>
      let q := vstfBlock e o x (i / b)
      match s1.storeEl w (r.scaleAddr x0.toNat) (scaleSize r.code) q.1 with
      | .ok _ _ _ =>
        let a := w.base + BitVec.ofNat 64 i
        (match elemFormat s1 w true a fmt frec with
          | some t => .fault t
          | none => match s1.storeEl w a 1 (q.2 i).code with
            | .ok s3 v f => .ok s3 v (f ||| (q.2 i).flags)
            | y => y)
      | y => y

/-- The scales of some blocks written, each once (R243). -/
def vstfScales (e : QEntry) (o : Fields) (x : Hart) (w : Who) : List Nat → State → Eff
  | [], s => .ok s 0 0
  | j :: l, s => match vstfScale e o x w s j with
    | .ok t _ _ => vstfScales e o x w l t
    | r => r

/-- VSTF (R243). -/
def memVstf (e : QEntry) (o : Fields) (h : Nat) (s0 : State) : PRes :=
  let x := s0.hart h
  let b := blockSize o.w.toNat
  let due := dueElems e o x
  let p := snapRecords { entryWho s0 h e o with pick := s0.drawPick.1 } true (blockStarts (baseOf e o) b due) s0.drawPick.2
  let s := p.1
  let w := p.2
  if blockMisaligned s w true o.w.toNat due then .fault s 0 (misalign w.base w.base false true) false []
  else
    let el := vstfCode e o x w
    let g := groupSize e.vt
    let r := (runGroups el (groupsOf g due) { s := s }).stored fun bt =>
      let done := bt.performed g due
      match vstfScales e o x w ((done.map (· / b)).dedup) bt.s with
      | .ok t _ _ => .ok (t.storesDone w 1 (done.map fun i => w.base + BitVec.ofNat 64 i)) 0 0
      | q => q
    finishBatch s h el due r (fun y _ => y) true

/-- FLD (R255): pairs from VSTART to n - 1, then the check of their ascent. -/
def memFld (e : QEntry) (o : Fields) (h : Nat) (s : State) : PRes :=
  let x := s.hart h
  let w := entryWho s h e o
  let n := min (e.cap 1).toNat 256
  if !aligned w.base 8 then .fault s 0 (misalign w.base w.base w.lm false) false []
  else
    let el : State → Nat → Eff := fun s k => s.loadEl w false (w.base + BitVec.ofNat 64 (8 * k)) 8
    let due := (List.range n).filter fun k => decide (x.vstart.toNat ≤ k) && (!e.part || x.fmask == 0 || x.fmask.getLsbD k)
    let put (y : Hart) (vals : Table Nat) : Hart :=
      let f0 := vals.foldl (fun f p => f.setPair p.1 (p.2 % 2 ^ 32) (p.2 / 2 ^ 32)) (y.fibreReg o.d.toNat)
      y.setFibre o.d.toNat { f0 with occ := n }
    match finishBatch s h el due (runGroups el (groupsOf 1 due) { s := s }) put with
    | .done s1 f _ =>
      let y := s1.hart h
      let fb := y.fibreReg o.d.toNat
      (match (List.range n).find? fun k => decide (1 ≤ k) && decide (x.vstart.toNat ≤ k) && decide (fb.coord k ≤ fb.coord (k - 1)) with
        | none => .done s1 f none
        | some k =>
          /- no pair failed to load: VSTART alone says where it resumes (R96, R255) -/
          .fault (s1.setHart h ({ y with vstart := BitVec.ofNat 12 k, fmask := 0 }.setFibre o.d.toNat { fb with occ := k }))
            f (trapFibreOrder (fb.coord k) o.d.toNat) true [])
    | .fault s1 f t p g =>
      /- a fibre's pairs ascend at every boundary (R90): the pairs before the first one missing are its entries -/
      let y := s1.hart h
      let fb := y.fibreReg o.d.toNat
      let low := (due.find? fun k => y.fmask.getLsbD k).getD 0
      let good := ((List.range low).find? fun k => decide (1 ≤ k) && decide (fb.coord k ≤ fb.coord (k - 1))).getD low
      .fault (s1.setHart h (y.setFibre o.d.toNat { fb with occ := good })) f t p g
    | r => r

/-- FST (R255): pairs 0 to occ - 1, whatever VSTART is. -/
def memFst (e : QEntry) (o : Fields) (h : Nat) (s : State) : PRes :=
  let x := s.hart h
  let w := entryWho s h e o
  let fb := x.fibreReg o.d.toNat
  if !aligned w.base 8 then .fault s 0 (misalign w.base w.base w.lm true) false []
  else
    let el : State → Nat → Eff := fun s k =>
      s.storeEl w (w.base + BitVec.ofNat 64 (8 * k)) 8 (fb.coord k + 2 ^ 32 * fb.val k)
    let due := (List.range fb.occ).filter fun k => !e.part || x.fmask == 0 || x.fmask.getLsbD k
    let r := (runGroups el (groupsOf 1 due) { s := s }).stored fun b =>
      .ok (b.s.storesDone w 8 ((b.performed 1 due).map fun k => w.base + BitVec.ofNat 64 (8 * k))) 0 0
    finishBatch s h el due r (fun y _ => y) true

/-- The bytes of an n-byte access that lie in the page of its first. -/
def pageRoom (a : Word) (n : Nat) : Nat := min n (4096 - a.toNat % 4096)

/-- A load that needs no alignment: where it crosses a granule each part is an access of its own (R218, R257). -/
def State.loadSplit (s : State) (w : Who) (a : Word) (n : Nat) : Eff :=
  let k := pageRoom a n
  if w.lm ∨ k = n then s.loadEl w false a n
  else match s.loadEl w false a k with
    | .ok s1 lo f => (match s1.loadEl w false (a + BitVec.ofNat 64 k) (n - k) with
      | .ok s2 hi g => .ok s2 (lo + 2 ^ (8 * k) * hi) (f ||| g)
      | r => r)
    | r => r

/-- A store that needs no alignment (R218, R257). -/
def State.storeSplit (s : State) (w : Who) (a : Word) (n v : Nat) : Eff :=
  let k := pageRoom a n
  if w.lm ∨ k = n then s.storeEl w a n v
  else match s.storeEl w a k v with
    | .ok s1 _ f => (match s1.storeEl w (a + BitVec.ofNat 64 k) (n - k) (v / 2 ^ (8 * k)) with
      | .ok s2 _ g => .ok s2 0 (f ||| g)
      | r => r)
    | r => r

/-- A load of FWALK, with the base of its array in TADDR2 (R256). -/
def walkLoad (s : State) (h : Nat) (o : Fields) (prv : Bool) (base : Word) (k n : Nat) : Eff :=
  s.loadSplit ({ s.who h prv false base with cls := o.hintC.toNat } : Who).pointers (base + BitVec.ofNat 64 (k * n)) n

/-- FWALK stopped at the boundary before a step: VPROG holds its progress (R188, R256). -/
def fwalkProgress (x : Hart) (d t : Nat) (full : Bool) : Hart :=
  { x with vprog := progressAt 0x28 full t 0 (x.fibreReg d).occ }

/-- FWALK held at a load of a step: it goes on from the boundary before it. -/
def fwalkHeld (s : State) (h d t : Nat) (r : Hold) : PRes := .held (s.holdRead h r) (fwalkProgress (s.hart h) d t false).vprog

/-- The steps of FWALK from entry t of a segment of n entries at lo (R256). -/
def fwalkSteps (e : QEntry) (o : Fields) (h lo n : Nat) : Nat → Nat → Option Nat → State → PRes
  | 0, _, _, s => .done (s.modHart h fun x => { x with vprog := {} }) 0 none
  | fuel + 1, t, limit, s =>
    if n ≤ t then .done (s.modHart h fun x => { x with vprog := {} }) 0 none
    else if limit = some 0 then .part (s.modHart h fun x => fwalkProgress x o.d.toNat t false) 0 0
    else
      let d := o.d.toNat
      let stopAt (s : State) (t0 : Trap) (full : Bool) : PRes :=
        .fault (s.modHart h fun x => fwalkProgress x d t full) 0 t0 true
          (if batchCause t0.cause then pagesOf [t0] else [])
      match walkLoad s h o e.prv (e.cap 1) (lo + t) 4 with
      | .fault t0 => stopAt s t0 false
      | .held r => fwalkHeld s h d t r
      | .stop f => .stop f
      | .ok s1 c _ => match walkLoad s1 h o e.prv (e.cap 2) (lo + t) (typeBytes o.w.toNat) with
        | .fault t0 => stopAt s t0 false
        | .held r => fwalkHeld s h d t r
        | .stop f => .stop f
        | .ok s2 v _ => match emitPair (s2.hart h) d false c v 0 with
          | .ok x => fwalkSteps e o h lo n fuel (t + 1) (limit.map (· - 1)) (s2.setHart h x)
          | .full => stopAt s (trapFibreFull d) true
          | .order => stopAt (s.modHart h fun x => { x with vstart := 0 }) (trapFibreOrder c d) false

/-- FWALK that goes on later keeps the ends of its segment, which it reads at its start and at a resume only (R256). -/
def PRes.keepSeg (r : PRes) (h : Nat) (seg : Nat × Nat) : PRes :=
  let keep (t : State) : State := t.modHart h fun x => x.setHead fun q => { q with seg := some seg }
  match r with
  | .part t f a => .part (keep t) f a
  | .held t p => .held (keep t) p
  | x => x

/-- FWALK (R256): P, X, V and p are its four captures. -/
def memFwalk (limit : Option Nat) (e : QEntry) (o : Fields) (h : Nat) (s : State) : PRes :=
  let x := s.hart h
  let d := o.d.toNat
  let resumed := resumes x 0x28
  let x1 := if resumed then x else x.setFibre d { x.fibreReg d with occ := 0 }
  let s0 := s.setHart h { x1 with vprog := if resumed then x1.vprog else {} }
  let t := if resumed then x.vprog.posa.toNat else 0
  let fail (t0 : Trap) : PRes :=
    .fault (s0.modHart h fun x => fwalkProgress x d t false) 0 t0 true (if batchCause t0.cause then pagesOf [t0] else [])
  match (if e.stage = .waiting then none else e.seg) with
  | some (lo, hi) => (fwalkSteps e o h lo (hi - lo) (hi - lo + 1) t limit s0).keepSeg h (lo, hi)
  | none => match walkLoad s0 h o e.prv (e.cap 0) (e.cap 3).toNat 4 with
    | .fault t0 => fail t0
    | .held r => s.heldAt h r
    | .stop f => .stop f
    | .ok s1 lo _ => match walkLoad s1 h o e.prv (e.cap 0) ((e.cap 3).toNat + 1) 4 with
      | .fault t0 => fail t0
      | .held r => s.heldAt h r
      | .stop f => .stop f
      | .ok s2 hi _ => (fwalkSteps e o h lo (hi - lo) (hi - lo + 1) t limit s2).keepSeg h (lo, hi)

end Sys2Proof.Machine
end

