-- ==== Sys2Proof/Machine/Coord.lean ====
section
/-! DEFINITION. Sys2Proof/Machine/Coord.lean: coordinate volumes: descriptors, the look-aside buffer, tree walks, accession pools,
allocation, and VLDC, VSTC and VAMOC (R253, R254, R364 to R371). -/

namespace Sys2Proof.Machine

/-- A volume descriptor (R364). -/
structure Volume where
  dims : Nat
  l2e : Nat
  levels : Nat
  wr : Bool
  aow : Bool
  tshape : Nat
  radix : Nat
  ext : Nat
  bg : Nat
  root : Nat
  tpool : Nat
  npool : Nat
  deriving DecidableEq, Repr

/-- The fields of a descriptor's bytes. -/
def volumeOf (x : Nat) : Volume :=
  { dims := bitsOf x 0 2 + 1, l2e := bitsOf x 2 2, levels := bitsOf x 4 2 + 1, wr := bitOf x 6, aow := bitOf x 7
    tshape := bitsOf x 32 16, radix := bitsOf x 48 16, ext := bitsOf x 64 128, bg := bitsOf x 192 64
    root := bitsOf x 256 64, tpool := bitsOf x 320 64, npool := bitsOf x 384 64 }

/-- log2 of the tile side and the extent in dimension d, and R_k (R364). -/
def Volume.side (v : Volume) (d : Nat) : Nat := elem 4 v.tshape d
def Volume.extent (v : Volume) (d : Nat) : Nat := elem 32 v.ext d
def Volume.rad (v : Volume) (k : Nat) : Nat := elem 4 v.radix k

/-- NT_d (R365). -/
def Volume.tiles (v : Volume) (d : Nat) : Nat := (v.extent d + 2 ^ v.side d - 1) / 2 ^ v.side d

def sumBelow (n : Nat) (f : Nat → Nat) : Nat := (List.range n).foldl (fun a k => a + f k) 0
def prodBelow (n : Nat) (f : Nat → Nat) : Nat := (List.range n).foldl (fun a k => a * f k) 1

/-- A descriptor at an address is ill-formed (R365). -/
def Volume.ill (v : Volume) (x : Nat) (a : Word) : Bool :=
  let dims := v.dims
  let used (p : Nat → Bool) (n : Nat) : Bool := (List.range n).any p
  decide (bitsOf x 8 24 ≠ 0) || decide (bitsOf x 448 64 ≠ 0) ||
    used (fun d => decide (dims ≤ d) && (decide (v.side d ≠ 0) || decide (v.extent d ≠ 0))) 4 ||
    used (fun k => decide (v.levels ≤ k) && decide (v.rad k ≠ 0)) 4 ||
    used (fun d => decide (v.extent d = 0)) dims ||
    decide (12 < sumBelow dims v.side) ||
    used (fun k => decide (v.rad k = 0) || decide (12 < v.rad k)) v.levels ||
    decide (2 ^ sumBelow v.levels v.rad < prodBelow dims v.tiles) ||
    decide (v.root % 128 ≠ 0) || !aligned a 128 ||
    (v.wr && v.aow && decide (v.tpool % 4096 ≠ 0)) ||
    (v.wr && v.aow && decide (1 < v.levels) && decide (v.npool % 4096 ≠ 0)) ||
    decide (2 ^ 48 ≤ v.root) || decide (2 ^ 48 ≤ v.tpool) || decide (2 ^ 48 ≤ v.npool) || decide (2 ^ 48 ≤ a.toNat)

/-- The tile index, a level's digit and the offset in the tile of a coordinate (R366). -/
def Volume.tile (v : Volume) (x : Nat → Nat) : Nat :=
  sumBelow v.dims fun d => x d / 2 ^ v.side d * prodBelow d v.tiles
def Volume.digit (v : Volume) (t k : Nat) : Nat :=
  t / 2 ^ (sumBelow v.levels v.rad - sumBelow (k + 1) v.rad) % 2 ^ v.rad k
def Volume.off (v : Volume) (x : Nat → Nat) : Nat :=
  2 ^ v.l2e * sumBelow v.dims fun d => x d % 2 ^ v.side d * prodBelow d fun e => 2 ^ v.side e

/-- How a lookup ends: the tile; or the level whose entry is 0, with the entry's address (R370). -/
inductive Look where
  | present (s : State) (tile : Word)
  | absent (s : State) (level : Nat) (entry : Word)
  | fault (t : Trap)
  | held (r : Hold)
  | stop (f : Fault)
  deriving DecidableEq, Repr

/-- Two entries have one key (R370). -/
def ClbEntry.same (c e : ClbEntry) : Bool := c.asn == e.asn && c.root == e.root && decide (c.t = e.t)

/-- The set of 16 ways in which an entry competes, of the 128 sets (R370; log 14). -/
def ClbEntry.set (e : ClbEntry) : Nat := Config.clbSet e.asn e.root e.t % 128

/-- An entry made in a look-aside buffer, or used again: it is the most recently used of its set, and the least recently
used one goes where the set has 16 others (R370). -/
def Core.keepTile (c : Core) (e : ClbEntry) : Core :=
  let rest := c.clb.filter fun q => !q.same e
  let mine := if rest.length < 16 then [] else rest.filter fun q => q.set == e.set
  { c with clb := (match mine with
      | q :: l => if 16 ≤ l.length + 1 then rest.erase q else rest
      | [] => rest) ++ [e] }

/-- The walk from a node at level k on; `rest` counts the levels left (R370). -/
def walkTree (w : Who) (v : Volume) (t : Nat) : Nat → Nat → Word → State → Look
  | 0, _, node, s =>
    .present (s.modCore w.core fun c => c.keepTile ⟨w.asn, BitVec.ofNat 64 v.root, t, node⟩) node
  | rest + 1, k, node, s =>
    let entry := node + BitVec.ofNat 64 (8 * v.digit t k)
    match s.loadEl w.pointers false entry 8 with
    | .fault f => .fault f
    | .held r => .held r
    | .stop f => .stop f
    | .ok s1 x _ => if x = 0 then .absent s1 k entry else walkTree w v t rest (k + 1) (BitVec.ofNat 64 x) s1

/-- The tile of a coordinate: a matching entry of the look-aside buffer, or a walk (R370). -/
def lookTile (w : Who) (v : Volume) (t : Nat) (s : State) : Look :=
  match (s.core w.core).clb.find? fun c => c.asn == w.asn && c.root == BitVec.ofNat 64 v.root && decide (c.t = t) with
  | some c => .present (s.modCore w.core fun k => k.keepTile c) c.tile
  | none => walkTree w v t v.levels 0 (BitVec.ofNat 64 v.root) (s.countCore w.core 0x0C 1)

/-- The header of a pool is ill-formed (R368). -/
def poolIll (h0 h1 : Nat) : Bool :=
  decide (510 < bitsOf h0 0 16) || decide (bitsOf h0 16 16 ≠ 0) || decide (bitsOf h0 33 31 ≠ 0) || decide (h1 ≠ 0)

/-- How a pop ends (R368). -/
inductive Pop where
  | ok (s : State) (block : Word)
  | empty (s : State)
  | fault (t : Trap)
  | held (r : Hold)
  deriving DecidableEq, Repr

/-- A line of a pool granule taken for an atomic at its home, which waits as any atomic does (R274, R276, R368). -/
def State.poolLine (s : State) (w : Who) (pool : Word) (pte : Word) (off pa n : Nat) : Pop ⊕ State :=
  if !s.canWriteMaster pa n then .inl (.held .other)
  else match s.accessLines w .store pte (pool.toNat + off) pa n .home with
    | .held l => .inl (.held (.queue l))
    | .lost d => .inl (.fault { trapDieLost d true pool with taddr2 := w.base })
    | .ok t => if t.poisoned pa n then .inl (.fault (w.trap causeDATA_POISON pool true 0)) else .inr t

/-- The PA of a pool granule for an atomic by a hart, and its leaf, with the faults that R368 reports. -/
def State.poolPa (s : State) (w : Who) (pool : Word) : Pop ⊕ (State × Nat × Word) :=
  if 2 ^ 48 ≤ pool.toNat then .inl (.fault (w.trap causeSTORE_PAGE pool true 0))
  else match s.accessPage w .store pool.toNat with
    | .fault c r => .inl (.fault (w.trap c pool true r))
    | .poison => .inl (.fault (w.trap causeDATA_POISON pool true 0))
    | .held k => .inl (.held (.queue k))
    | .ok s1 pa pte =>
      if spaceOf pa = 3 ∨ (spaceOf pa ≠ 0 ∧ pteNC pte) then .inl (.fault (w.trap causeATOMIC_ROUTE pool true 0))
      else match s1.poolLine w pool pte 0 pa 16 with
        | .inl p => .inl p
        | .inr s2 => .inr (s2, pa, pte)

/-- A pop (R368). -/
def State.pop (s : State) (w : Who) (pool : Word) : Pop :=
  match s.poolPa w pool with
  | .inl p => p
  | .inr (s1, pa, pte) =>
    let h0 := s1.peek pa 8
    let n := bitsOf h0 0 16
    let off := 0x10 + 8 * (n - 1)
    if poolIll h0 (s1.peek (pa + 8) 8) ∨ n = 0 ∨ bitOf h0 32 then .empty s1
    else match s1.poolLine w pool pte off (pa + off) 8 with
      | .inl p => p
      | .inr s2 => .ok (s2.homeWrite pa (leBytes 8 (h0 - 1))) (BitVec.ofNat 64 (s2.peek (pa + off) 8))

/-- A push drops its block: the header is ill-formed, or the pool is full (R368). -/
def pushDrops (h0 h1 : Nat) : Bool := poolIll h0 h1 || decide (bitsOf h0 0 16 = 510)

/-- A push at the home of a pool (R368), of which the header's and the entry's lines are there. -/
def State.pushNow (s : State) (pa : Nat) (block : Word) : State :=
  let h0 := s.peek pa 8
  let n := bitsOf h0 0 16
  if pushDrops h0 (s.peek (pa + 8) 8) then s.countHub (hubOfPa pa) 0x4E 1
  else (s.homeWrite (pa + 0x10 + 8 * n) (leBytes 8 block.toNat)).homeWrite pa (leBytes 8 (h0 + 1))

/-- A push that no hart makes (R368); none while the pool is frozen, when the push and what is queued behind it wait (R369), or while
a line of it must wait. -/
def State.pushPool (s : State) (pa : Nat) (block : Word) : Option State :=
  let h0 := s.peek pa 8
  let slot := pa + 0x10 + 8 * bitsOf h0 0 16
  if bitOf h0 32 || s.resync || s.homeWaits pa 16 ||
      (!pushDrops h0 (s.peek (pa + 8) 8) && (s.homeWaits slot 8 || !s.canWriteTwo slot pa)) then none
  else
    let take (t : State) (a : Nat) : State := (t.recallLine (lineOf a)).useGot (lineOf a)
    some ((if pushDrops h0 (s.peek (pa + 8) 8) then take s pa else take (take s pa) slot).pushNow pa block)

/-- A block popped and not published goes back to its pool, the element waiting while the pool is frozen (R369, R371). -/
def State.giveBack (s : State) (w : Who) (pool block : Word) : Pop :=
  match s.poolPa w pool with
  | .inl p => p
  | .inr (s1, pa, pte) =>
    let h0 := s1.peek pa 8
    let off := 0x10 + 8 * bitsOf h0 0 16
    if bitOf h0 32 then .held .other
    else if pushDrops h0 (s1.peek (pa + 8) 8) then .ok (s1.pushNow pa block) block
    else match s1.poolLine w pool pte off (pa + off) 8 with
      | .inl p => p
      | .inr s2 => if s2.canWriteTwo (pa + off) pa then .ok (s2.pushNow pa block) block else .held .other

/-- Which pools have failed in this performance: tiles, nodes (R254). -/
structure Pools where
  tile : Bool := false
  node : Bool := false
  deriving DecidableEq, Repr

/-- How an element finds its address: an address, or none for an absent tile that is only read; or why it fails, the
blocks it published staying (R254). -/
inductive Resolve where
  | at_ (s : State) (p : Pools) (a : Option Word)
  | fail (s : State) (p : Pools) (t : Trap)
  | held (r : Hold)
  | stop (f : Fault)
  deriving DecidableEq, Repr

/-- ALLOC_FAIL (R254, R259). -/
def trapAlloc (desc pool : Word) (node : Bool) : Trap := ⟨causeALLOC_FAIL, if node then 0x100 else 0, desc, pool⟩

/-- A block's contents when it is published: zeros for a node, the background repeated for a tile (R371). -/
def blockFill (v : Volume) (last : Bool) (k : Nat) : Nat × Nat :=
  if last then
    let n := 2 ^ sumBelow v.dims v.side
    (2 ^ v.l2e * n, packElems (8 * 2 ^ v.l2e) (List.replicate n v.bg))
  else (8 * 2 ^ v.rad (k + 1), 0)

/-- A block's fill: a store to each granule that it lies in (R218, R278, R371). Beside how it ends stands the state that
its stores have reached. -/
def fillBlock (w : Who) : Nat → Word → Nat → Nat → State → State × Eff
  | 0, _, _, _, s => (s, .ok s 0 0)
  | fuel + 1, a, n, v, s =>
    if n = 0 then (s, .ok s 0 0)
    else
      let k := pageRoom a n
      match s.storeEl w a k v with
      | .ok t _ _ => fillBlock w fuel (a + BitVec.ofNat 64 k) (n - k) (v / 2 ^ (8 * k)) t
      | r => (s, r)

/-- An element fails with a block that it has popped and not published: the block goes back first, and a fault of that is
raised in the element's place (R368, R371). -/
def failBack (w : Who) (pool block : Word) (s : State) (p : Pools) (t : Trap) : Resolve :=
  match s.giveBack w pool block with
  | .ok u _ => .fail u p t
  | .fault f => .fail s p f
  | .held r => .held r
  | .empty u => .fail u p t

/-- Allocation from the empty entry of level k on, `rest` being the levels of the tree from there. Where another
publication has come first, the block goes back to its pool and the walk goes on from the entry found (R279, R371). -/
def allocTile (w : Who) (v : Volume) (t : Nat) : Nat → Nat → Word → Pools → State → Resolve
  | 0, _, _, p, s => .at_ s p none
  | rest + 1, k, entry, p, s =>
    let last := decide (v.levels ≤ k + 1)
    let pool := BitVec.ofNat 64 (if last then v.tpool else v.npool)
    let p' : Pools := if last then { p with tile := true } else { p with node := true }
    match s.pop w pool with
    | .empty s1 => .fail s1 p' (trapAlloc w.base pool (!last))
    | .fault f => .fail s p f
    | .held r => .held r
    | .ok s1 block =>
      let fill := fillBlock w 16 block (blockFill v last k).1 (blockFill v last k).2 s1
      match fill.2 with
      | .fault f => failBack w pool block fill.1 p f
      | .held r => .held r
      | .stop f => .stop f
      | .ok s2 _ _ => match s2.atomicEl w entry 8 false (casStep 0 block.toNat) with
        | .fault f => failBack w pool block s2 p f
        | .held r => .held r
        | .stop f => .stop f
        | .ok s3 old _ =>
          if old ≠ 0 then
            match s3.giveBack w pool block with
            | .fault f => .fail s3 p f
            | .held r => .held r
            | .empty s4 => .fail s4 p (trapAlloc w.base pool (!last))
            | .ok s4 _ => match walkTree w v t (v.levels - (k + 1)) (k + 1) (BitVec.ofNat 64 old) s4 with
              | .present s5 tile => .at_ s5 p (some tile)
              | .absent s5 k5 entry5 => allocTile w v t rest k5 entry5 p s5
              | .fault f => .fail s4 p f
              | .held r => .held r
              | .stop f => .stop f
          else if last then
            .at_ (s3.modCore w.core fun c => c.keepTile ⟨w.asn, BitVec.ofNat 64 v.root, t, block⟩) p (some block)
          else allocTile w v t rest (k + 1) (block + BitVec.ofNat 64 (8 * v.digit t (k + 1))) p s3

/-- Allocation for an element that finds the entry of level k empty. One that needs a block of a pool that has failed in
this performance fails with no pop: a node where it needs one, else the tile (R254). -/
def allocFrom (w : Who) (v : Volume) (t k : Nat) (entry : Word) (p : Pools) (s : State) : Resolve :=
  if p.node && decide (k + 1 < v.levels) then .fail s p (trapAlloc w.base (BitVec.ofNat 64 v.npool) true)
  else if p.tile then .fail s p (trapAlloc w.base (BitVec.ofNat 64 v.tpool) false)
  else allocTile w v t (v.levels - k) k entry p s

/-- VOLUME_RANGE (R253, R259). -/
def trapVolume (desc : Word) (dim : Nat) : Trap := ⟨causeVOLUME_RANGE, BitVec.ofNat 64 (256 * dim), desc, 0⟩

/-- PROTECT reasons 5 and 6 (R253, R259). -/
def trapVolProtect (desc : Word) (reason : Nat) : Trap := trapMem causePROTECT desc desc false true reason

/-- The address of an element of a volume, with allocation where it is stored to (R253, R371). -/
def resolveVol (w : Who) (v : Volume) (bad write : Bool) (x : Nat → Nat) (s : State) (p : Pools) : Resolve :=
  if bad then .fail s p (trapVolume w.base 0xFF)
  else match findBelow v.dims fun d => decide (v.extent d ≤ x d) with
    | some d => .fail s p (trapVolume w.base d)
    | none =>
      if write && !v.wr then .fail s p (trapVolProtect w.base 5)
      else
        let at_ (tile : Word) : Word := tile + BitVec.ofNat 64 (v.off x)
        match lookTile w v (v.tile x) s with
        | .fault f => .fail s p f
        | .held r => .held r
        | .stop f => .stop f
        | .present s1 tile => .at_ s1 p (some (at_ tile))
        | .absent s1 k entry =>
          if !write then .at_ s1 p none
          else if !v.aow then .fail s1 p (trapVolProtect w.base 6)
          else match allocFrom w v (v.tile x) k entry p s1 with
            | .at_ s2 p2 (some tile) => .at_ s2 p2 (some (at_ tile))
            | r => r

/-- The addresses of a group's elements in ascending order, all of them or those below the first that has none; the blocks
published for them stay (R254). -/
inductive GroupAddr where
  | ok (s : State) (p : Pools) (l : List (Nat × Option Word))
  | fail (s : State) (p : Pools) (i : Nat) (t : Trap) (l : List (Nat × Option Word))
  | held (r : Hold)
  | stop (f : Fault)
  deriving DecidableEq, Repr

def resolveGroup (f : Nat → State → Pools → Resolve) : List Nat → State → Pools → List (Nat × Option Word) → GroupAddr
  | [], s, p, l => .ok s p l
  | i :: r, s, p, l => match f i s p with
    | .at_ s1 p1 a => resolveGroup f r s1 p1 (l ++ [(i, a)])
    | .fail s1 p1 t => .fail s1 p1 i t l
    | .held x => .held x
    | .stop e => .stop e

/-- The groups of a coordinate form in ascending order: a group's tiles first, then its accesses, or none of these
(R254, R258). The lowest element that fails is the group's, be it at its tile or at its access. -/
def coordGroups (find : Nat → State → Pools → Resolve) (acc : Option Word → State → Nat → Eff) :
    List (Nat × List Nat) → Pools → Batch → BatchEnd
  | [], _, b => .ok b
  | (j, l) :: r, p, b =>
    let bad (s : State) (i : Nat) (t : Trap) : Batch :=
      { b with s := s, bad := b.bad ++ [j], first := b.first.orElse fun _ => some (i, t.atElem i) }
    let run (addrs : List (Nat × Option Word)) (s : State) : GroupEnd :=
      runElems (fun s i => acc ((tfind addrs i).getD none) s i) (addrs.map Prod.fst) s [] 0
    match resolveGroup find l b.s p [] with
    | .fail s1 p1 i t addrs => match run addrs s1 with
      | .fail j u => coordGroups find acc r p1 (bad s1 j u)
      | .ok _ _ _ => coordGroups find acc r p1 (bad s1 i t)
      | .held x => .held x
      | .stop e => .stop e
    | .held x => .held x
    | .stop e => .stop e
    | .ok s1 p1 addrs => match run addrs s1 with
      | .ok s2 vals fl => coordGroups find acc r p1 { b with s := s2, vals := b.vals ++ vals, f := b.f ||| fl }
      | .fail i t => coordGroups find acc r p1 (bad s1 i t)
      | .held x => .held x
      | .stop e => .stop e

/-- The width of the data group's elements (R236, R253). -/
def coordBits (o : Fields) : Nat := if typeBits o.w.toNat = 64 then 64 else 32

/-- Who makes the accesses of a coordinate form, and the descriptor that it cannot use (R253, R365). -/
def coordWho (e : QEntry) (o : Fields) (h : Nat) (s : State) : Who :=
  { s.who h e.prv false (e.cap 0) with cls := o.hintC.toNat }
def coordBad (o : Fields) (w : Who) (d : Nat) : Bool :=
  let v := volumeOf d
  v.ill d w.base || decide (8 * 2 ^ v.l2e ≠ typeBits o.w.toNat) || decide (v.dims ≠ (o.f.extractLsb' 4 2).toNat + 1)

/-- The coordinates of element i, and its address in the volume. -/
def coordOf (e : QEntry) (x : Hart) (i t : Nat) : Nat := x.velem (e.vb + t * e.vt.regs) 32 i
def coordFind (e : QEntry) (o : Fields) (x : Hart) (w : Who) (d : Nat) (write : Bool) (i : Nat) (s : State) (p : Pools) : Resolve :=
  resolveVol w (volumeOf d) (coordBad o w d) write (coordOf e x i) s p

/-- The elements of a coordinate form that stores are through: the poison of what it wrote whole is cleared (R231). -/
def coordStored (o : Fields) (w : Who) (find : Nat → State → Pools → Resolve) (write : Bool) (done : List Nat) (s : State) : State :=
  let spans : List (Nat × Nat) := done.filterMap fun i => match find i s {} with
    | .at_ t _ (some a) => t.spanOf w .store a (typeBytes o.w.toNat)
    | _ => none
  if !write || s.unpoisoned w.core then s else s.cleanPoison w.core spans

/-- A coordinate form: `acc` performs an element at its address. -/
def coordMem (e : QEntry) (o : Fields) (h : Nat) (s : State) (write : Bool)
    (acc : Volume → Who → Option Word → State → Nat → Eff) : PRes :=
  let x := s.hart h
  let w := coordWho e o h s
  let due := dueElems e o x
  match due with
  | [] => .done s 0 none
  | i0 :: _ =>
    let all (t : Trap) : PRes :=
      finishBatch s h (fun _ _ => .fault t) due
        (.ok { s := s, bad := (due.map (· / groupSize e.vt)).dedup, first := some (i0, t.atElem i0) }) fun y _ => y
    if !aligned w.base 128 || decide (2 ^ 48 ≤ w.base.toNat) then all (trapVolume w.base 0xFF)
    else match s.readBlock w w.base with
    | .held r => s.heldAt h r
    | .stop f => .stop f
    | .fault t => all t
    | .ok s1 d _ =>
      let v := volumeOf d
      let find := coordFind e o x w d write
      let one (s : State) (i : Nat) : Eff := match find i s {} with
        | .at_ s2 _ a => acc v w a s2 i
        | .fail _ _ t => .fault t
        | .held r => .held r
        | .stop f => .stop f
      let g := groupSize e.vt
      let r := (coordGroups find (acc v w) (groupsOf g due) {} { s := s1 }).stored fun b =>
        .ok (coordStored o w find write (b.performed g due) b.s) 0 0
      finishBatch s h one due r (fun y vals =>
        if vals.isEmpty then y
        else y.setElems e.vd (coordBits o) e.vl fun i => tfind vals i) write

/-- One element of VLDC: of a tile that is absent the background (R253). -/
def vldcEl (o : Fields) (v : Volume) (w : Who) (a : Option Word) (s : State) (_ : Nat) : Eff :=
  let ext (c : Nat) : Nat := (extCode o.w.toNat c).toNat % 2 ^ coordBits o
  match a with
  | none => .ok s (ext (v.bg % 2 ^ typeBits o.w.toNat)) 0
  | some a => match s.loadSplit w a (typeBytes o.w.toNat) with
    | .ok s1 c f => .ok s1 (ext c) f
    | r => r

/-- VLDC (R253). -/
def memVldc (e : QEntry) (o : Fields) (h : Nat) (s : State) : PRes := coordMem e o h s false (vldcEl o)

/-- One element of VSTC (R253). -/
def vstcEl (e : QEntry) (o : Fields) (x : Hart) (_ : Volume) (w : Who) (a : Option Word) (s : State) (i : Nat) : Eff :=
  let old := x.velem e.vd (coordBits o) i
  match s.storeSplit w (a.getD 0) (typeBytes o.w.toNat) old with
  | .ok s1 _ f => .ok s1 old f
  | r => r

/-- VSTC (R253): the data group is read and not written. -/
def memVstc (e : QEntry) (o : Fields) (h : Nat) (s : State) : PRes := coordMem e o h s true (vstcEl e o (s.hart h))

/-- One element of VAMOC (R253). DESIGN CHOICE (log 49): an element whose address is misaligned raises MISALIGN by itself,
since no address is known before the tile is found. -/
def vamocEl (e : QEntry) (o : Fields) (x : Hart) (_ : Volume) (w : Who) (a : Option Word) (s : State) (i : Nat) : Eff :=
  let n := typeBytes o.w.toNat
  if !aligned (a.getD 0) n then .fault (misalign (a.getD 0) w.base false true)
  else s.atomicEl w (a.getD 0) n false (atomicStep (o.imm.toNat % 16) o.w.toNat (x.velem e.vd (coordBits o) i))

/-- VAMOC (R253). -/
def memVamoc (e : QEntry) (o : Fields) (h : Nat) (s : State) : PRes :=
  let x := s.hart h
  if o.imm.getLsbD 5 && decide (5 ≤ fN o % 8) && decide (x.outcnt ≠ 0) && decide (e.vl ≠ 0) then .wait s
  else coordMem e o h s true (vamocEl e o x)

end Sys2Proof.Machine
end

