-- ==== Sys2Proof/Machine/Streams.lean ====
section
/-! DEFINITION. Sys2Proof/Machine/Streams.lean: stream registers: binding, consuming, releasing and prefetching (R332 to R338). -/

namespace Sys2Proof.Machine

/-- A stream fault: PROTECT with a reason, the stream's number in TINFO[15:8], and an address (R334, R336). -/
def trapStream (reason q : Nat) (a : Word) : Trap := ⟨causePROTECT, BitVec.ofNat 64 (16 * reason + 256 * q), a, 0⟩

/-- Element bytes of a stream. -/
def Stream.es (q : Stream) : Nat := typeBytes q.w.toNat

/-- A stream as QREL leaves it; the link of an indirect stream is free again and stays bound (R338). -/
def Hart.releaseStream (x : Hart) (n : Nat) : Hart :=
  let q := x.stream n
  let y := if q.kind = 3 then x.setStream q.link.toNat { x.stream q.link.toNat with capt := false } else x
  y.setStream n {}

/-- The fields of a stream descriptor (R333). -/
structure StreamDesc where
  kind : Nat
  w : Nat
  link : Nat
  base : Nat
  stride : Nat
  vbase : Nat
  count : Nat
  start : Nat
  deriving DecidableEq, Repr

def streamDescOf (x : Nat) : StreamDesc :=
  ⟨bitsOf x 0 3, bitsOf x 4 4, bitsOf x 8 3, bitsOf x 64 64, bitsOf x 128 64, bitsOf x 192 64, bitsOf x 256 64, bitsOf x 320 64⟩

/-- A stream descriptor at an address is ill-formed for stream n (R333). DESIGN CHOICE (log 52): one at an address that is no
multiple of 128 counts as ill-formed. -/
def streamIll (x : Hart) (n : Nat) (d : Nat) (a : Word) : Bool :=
  let q := streamDescOf d
  let es := typeBytes q.w
  let lk := x.stream q.link
  let far (v : Nat) : Bool := decide (2 ^ 48 ≤ v)
  decide (q.kind = 0) || decide (5 ≤ q.kind) || decide (q.w = 15) ||
    (decide (q.kind = 4) && !([0, 1, 2, 4, 5, 6, 8, 9, 10, 11, 12].contains q.w)) ||
    decide (bitsOf d 3 1 ≠ 0) || decide (bitsOf d 11 53 ≠ 0) || decide (bitsOf d 384 640 ≠ 0) || !aligned a 128 ||
    decide (q.count < q.start) || far q.base || (decide (q.kind = 4) && (far q.stride || far q.vbase)) ||
    (decide (q.kind ≤ 3) && decide (q.base % es ≠ 0)) ||
    (decide (q.kind = 2) && decide (q.stride % es ≠ 0)) ||
    (decide (q.kind = 4) && (decide (q.base % 4 ≠ 0) || decide (q.stride % 4 ≠ 0) || decide (q.vbase % es ≠ 0))) ||
    (decide (q.kind = 3) && (decide (q.link = n) || decide (lk.kind = 0) || lk.capt || decide (3 ≤ lk.kind.toNat) ||
      (lk.w != 6 && lk.w != 7)))

/-- QBIND (R334). -/
def memQbind (e : QEntry) (o : Fields) (h : Nat) (s : State) : PRes :=
  let n := o.d.toNat
  let x := s.hart h
  let a := baseOf e o
  if (x.stream n).capt then .fault s 0 (trapStream 9 n 0) false []
  else match s.readBlock { s.who h e.prv false a with cls := o.hintC.toNat } a with
    | .held r => s.heldAt h r
    | .stop f => .stop f
    | .fault t => .fault s 0 t false (if batchCause t.cause then pagesOf [t] else [])
    | .ok s1 d f =>
      let lk := (streamDescOf d).link
      match if (streamDescOf d).kind = 3 then x.poisonedLine [32 + lk / 2] else none with
      | some t => .fault s1 0 t false []
      | none =>
      if streamIll x n d a then .fault s1 0 (trapStream 10 n a) false (pagesOf [trapStream 10 n a])
      else
        let q := streamDescOf d
        let w (v : Nat) : Word := BitVec.ofNat 64 v
        .done (s1.modHart h fun x =>
          let y := x.releaseStream n
          let b : Stream :=
            { kind := BitVec.ofNat 3 q.kind, w := BitVec.ofNat 4 q.w, link := BitVec.ofNat 3 q.link
              capt := false, cls := o.hintC, base := w q.base, stride := w q.stride
              vbase := if q.kind = 4 then w q.vbase else 0, count := w q.count, pos := w q.start }
          let z := y.setStream n b
          if q.kind = 3 then z.setStream q.link { z.stream q.link with capt := true } else z) f none

/-- The address of element j of a unit-stride or strided stream (R336). -/
def Stream.addr (q : Stream) (j : Nat) : Word :=
  if q.kind = 2 then q.base + BitVec.ofNat 64 j * q.stride else q.base + BitVec.ofNat 64 (j * q.es)

/-- An element of a stream as the stream engine fetched it, where the privilege of its consumer allows it, or as `load`
reads it now; VS is set here in either case (R335). -/
def State.streamLoad (s : State) (h n key : Nat) (prv : Bool) (load : State → Eff) : Eff :=
  match tfind ((s.hart h).stream n).fetched key with
  | some f => if f.sup && !prv then load s else .ok (if f.vs then s.setFlagVS h else s) f.value.toNat 0
  | none => load s

/-- Position j of stream n consumed (R336). -/
def streamElem (h : Nat) (prv : Bool) (n : Nat) (s : State) (j : Nat) : Eff :=
  let x := s.hart h
  let q := x.stream n
  if q.count.toNat ≤ j then .ok s 0 0
  else s.streamLoad h n j prv fun s =>
    let w : Who := { s.who h prv false q.base with cls := q.cls.toNat }
    if q.kind = 3 then
      let lk := x.stream q.link.toNat
      let p := lk.pos.toNat + (j - q.pos.toNat)
      if lk.count.toNat ≤ p then .ok s 0 0
      else match s.streamLoad h q.link.toNat p prv fun s => s.loadEl { w with base := lk.base, cls := lk.cls.toNat } false (lk.addr p) lk.es with
        | .ok s1 k _ => s1.loadEl w false (q.base + BitVec.ofNat 64 (k * q.es)) q.es
        | r => r
    else s.loadEl w false (q.addr j) q.es

/-- The arrays of a fibre level, for entry k: P, X and V (R337). -/
def levelElem (h : Nat) (prv : Bool) (n which k : Nat) (s : State) : Eff :=
  let q := (s.hart h).stream n
  let at_ (base : Word) (b : Nat) (s : State) : Eff := s.loadEl { s.who h prv false base with cls := q.cls.toNat } false (base + BitVec.ofNat 64 (b * k)) b
  s.streamLoad h n (3 * k + which) prv fun s =>
    match which with
    | 0 => at_ q.base 4 s
    | 1 => at_ q.stride 4 s
    | _ => at_ q.vbase q.es s

/-- A stream that QRD may read (R336). -/
def qrdOk (q : Stream) (w : Nat) : Bool :=
  decide (1 ≤ q.kind.toNat) && decide (q.kind.toNat ≤ 3) && !q.capt && decide (typeBits w = typeBits q.w.toNat)

/-- POS after n elements (R336). -/
def Stream.advance (q : Stream) (n : Nat) : Stream :=
  let p := min (q.pos.toNat + n) q.count.toNat
  { q with pos := BitVec.ofNat 64 p, fetched := q.fetched.filter fun e => decide (p ≤ e.1) }

/-- QRD (R336). -/
def memQrd (e : QEntry) (o : Fields) (h : Nat) (s : State) : PRes :=
  let x := s.hart h
  let n := o.a.toNat
  let q := x.stream n
  if !qrdOk q o.w.toNat then .fault s 0 (trapStream 9 n 0) false []
  else
    let el : State → Nat → Eff := fun s i => streamElem h e.prv n s (q.pos.toNat + i)
    let due := dueElems e o x
    match finishBatch s h el due (runGroups el (groupsOf (groupSize e.vt) due) { s := s })
        (putGroup e e.vd e.vt.bits) with
    | .done s1 f r =>
      .done (s1.modHart h fun y =>
        let z := y.setStream n (q.advance e.vl)
        if q.kind = 3 then z.setStream q.link.toNat ((x.stream q.link.toNat).advance e.vl) else z) f r
    | r => r

/-- The m entries of a segment from entry k on: coordinates and values (R337). -/
def fldqLoads (h : Nat) (prv : Bool) (n : Nat) : Nat → Nat → List (Nat × Nat) → State → Eff × List (Nat × Nat)
  | 0, _, l, s => (.ok s 0 0, l)
  | m + 1, k, l, s =>
    match levelElem h prv n 1 k s with
    | .ok s1 c _ =>
      (match levelElem h prv n 2 k s1 with
        | .ok s2 v _ => fldqLoads h prv n m (k + 1) (l ++ [(c, v)]) s2
        | r => (r, l))
    | r => (r, l)

/-- The pairs of a list whose coordinates ascend from the first on: how many there are (R90, R255). -/
def ascending (l : List (Nat × Nat)) : Nat :=
  ((List.range l.length).find? fun k =>
    decide (1 ≤ k) && decide ((l.getD k (0, 0)).1 ≤ (l.getD (k - 1) (0, 0)).1)).getD l.length

/-- A stream of kind 4 after m entries of a segment from entry `first` on (R337). -/
def Stream.readEntries (q : Stream) (first m : Nat) : Stream :=
  let p := if m = 256 then q.pos else q.pos + 1
  let rest := q.fetched.filter fun e =>
    if e.1 % 3 = 0 then decide (3 * p.toNat ≤ e.1) else decide (3 * (first + m) ≤ e.1) || decide (e.1 < 3 * first)
  { q with pos := p, sub := if m = 256 then q.sub + 256 else 0, fetched := rest }

/-- FLDQ (R337). -/
def memFldq (e : QEntry) (o : Fields) (h : Nat) (s : State) : PRes :=
  let n := o.a.toNat
  let d := o.d.toNat
  let q := (s.hart h).stream n
  /- what was loaded before a fault stands in fd as FLD leaves it (R255, R337) -/
  let fail (l : List (Nat × Nat)) (t : Trap) : PRes :=
    .fault (s.modHart h fun x => { x.setFibre d { (x.fibreReg d).fill l with occ := ascending l } with vstart := 0 }) 0 t false
      (if batchCause t.cause then pagesOf [t] else [])
  if q.kind ≠ 4 then .fault s 0 (trapStream 9 n 0) false []
  else if q.count.toNat ≤ q.pos.toNat then
    .done (s.modHart h fun x => x.setFibre d { x.fibreReg d with occ := 0 }) 0 none
  else
    match levelElem h e.prv n 0 q.pos.toNat s with
    | .fault t => fail [] t
    | .held r => s.heldAt h r
    | .stop f => .stop f
    | .ok s1 lo _ => match levelElem h e.prv n 0 (q.pos.toNat + 1) s1 with
      | .fault t => fail [] t
      | .held r => s.heldAt h r
      | .stop f => .stop f
      | .ok s2 hi _ =>
        let first := lo + q.sub.toNat
        let m := min (hi - first) 256
        match fldqLoads h e.prv n m first [] s2 with
        | (.fault t, l) => fail l t
        | (.held r, _) => s.heldAt h r
        | (.stop f, _) => .stop f
        | (.ok s3 _ f, l) =>
          let x := s3.hart h
          let fb := (x.fibreReg d).fill l
          let k := ascending l
          if k < m then
            .fault (s3.setHart h { x.setFibre d { fb with occ := k } with vstart := 0 }) f (trapFibreOrder (fb.coord k) d) false []
          else .done (s3.setHart h ((x.setFibre d fb).setStream n (q.readEntries first m))) f none

/-- QREL (R338). -/
def memQrel (_ : QEntry) (o : Fields) (h : Nat) (s : State) : PRes :=
  let n := o.a.toNat
  if ((s.hart h).stream n).capt then .fault s 0 (trapStream 9 n 0) false []
  else .done (s.modHart h fun x => x.releaseStream n) 0 none

/-- The stream engine fetches one element, which `load` reads, and records it; VS waits for its consumption. None where
the fetch fails (R335). -/
def State.fetchElem (s : State) (h n key : Nat) (load : State → Eff) : Option (State × Nat) :=
  let f := (s.hart h).fcsr
  match load (s.modHart h fun x => { x with fcsr := { f with flags := 0 } }) with
  | .ok t v _ =>
    let e : Fetched := ⟨BitVec.ofNat 64 v, (t.hart h).fcsr.flags.getLsbD 7, (s.hart h).sup⟩
    some (t.modHart h fun x =>
      { x.setStream n { x.stream n with fetched := tset (x.stream n).fetched key e } with fcsr := f }, v)
  | _ => none

/-- The stream engine ahead of a fibre level: up to a number of steps from entry t of the segment at position k (R335). -/
def prefetchLevel (h n : Nat) : Nat → Nat → Nat → State → State
  | 0, _, _, s => s
  | fuel + 1, k, t, s =>
    let prv := (s.hart h).sup
    let get (which k : Nat) (s : State) : Option (State × Nat) := s.fetchElem h n (3 * k + which) (levelElem h prv n which k)
    if ((s.hart h).stream n).count.toNat ≤ k then s
    else match get 0 k s with
      | none => s
      | some (s1, lo) => match get 0 (k + 1) s1 with
        | none => s1
        | some (s2, hi) =>
          if hi ≤ lo + t then prefetchLevel h n fuel (k + 1) 0 s2
          else match get 1 (lo + t) s2 with
            | none => s2
            | some (s3, _) => match get 2 (lo + t) s3 with
              | none => s3
              | some (s4, _) => prefetchLevel h n fuel k (t + 1) s4

/-- The stream engine fetches up to k elements ahead of POS, within 16 KiB, for a bound hart of a die in service; a fetch
that fails records nothing (R20, R335). DESIGN CHOICE (log 51): the 16 KiB of a stream of kind 4 count its values alone, not its
pointer and index words (R12). -/
def State.prefetchStream (s : State) (h n k : Nat) : State :=
  let q := (s.hart h).stream n
  if q.kind = 0 || !(s.hart h).bound || (s.hart h).stopped || !s.inService (s.hart h).die then s
  else if q.kind = 4 then prefetchLevel h n (min k (16384 / q.es)) q.pos.toNat q.sub.toNat s
  else
    let p := q.pos.toNat
    (List.range (min k (16384 / q.es))).foldl (fun s i =>
      if q.count.toNat ≤ p + i then s
      else ((s.fetchElem h n (p + i) fun s => streamElem h (s.hart h).sup n s (p + i)).map Prod.fst).getD s) s

end Sys2Proof.Machine
end

