-- ==== Sys2Proof/Machine/Queued.lean ====
section
/-! DEFINITION. Sys2Proof/Machine/Queued.lean: what is done at the head of the queue for the gather and the budget of the
matrix engine, for SETVL, END, TASKPUB, ARRIVE and WAKE, and for TOKSEND (R131, R195, R201, R205, R211, R323, R325, R328,
R329, R348, R349, R429). -/

namespace Sys2Proof.Machine

/-- The B tile at v(b): eight registers (R194). -/
def matTile (x : Hart) (b : Nat) : BitVec 32768 :=
  BitVec.ofNat 32768 (packElems 4096 ((List.range 8).map fun k => (x.vreg (b + k)).toNat))

/-- A hart's instruction runs on the matrix engine of its core: what another hart's left there is neither reused nor
compared with (R195, R211). -/
def State.engineRun (s : State) (h : Nat) : State :=
  match tfind s.cores (s.hart h).coreNo with
  | some k => s.setCore (s.hart h).coreNo { k with mat := k.mat.filter fun m => decide (m.hart = h) }
  | none => s

/-- What an MMA, MMAS or MMAG is charged on core c: A, its tile, and the group it is read from, if any (R195, R211).
DESIGN CHOICE (log 49): where no operands came before, every bit counts as toggled. -/
def Core.charge (c : Core) (h : Nat) (a : VReg) (b : BitVec 32768) (group : Option Nat) : Nat :=
  match c.mat with
  | none => budgetUnits (4096 + 32768)
  | some m =>
    if m.hart ≠ h then budgetUnits (4096 + 32768)
    else
      let reuse := group.isSome && m.latch == group && m.b == b
      budgetUnits (toggles 4096 m.a.toNat a.toNat + (if reuse then 0 else toggles 32768 m.b.toNat b.toNat))

/-- An MMA-class instruction waits until the counter of its core holds its charge, and is then performed on the state
with the charge taken; with RATE 0 it does not start (R211, R400). DESIGN CHOICE (log 49): the latch holds a register
group alone, so an MMAG leaves it empty, and LATCH stays 1 when a register of the group is written (R195, R205). DESIGN CHOICE
(log 51): the charge, LASTBU and the latch stand where RESERVED_CODE (R208) then stops the instruction, whose replay is charged
again. -/
def State.chargeMma (s : State) (h : Nat) (a : VReg) (b : BitVec 32768) (group : Option Nat) (lastb : Bool)
    (go : State → PRes) : PRes :=
  let c := (s.hart h).coreNo
  let k := s.core c
  let bu := k.charge h a b group
  if k.level < bu ∨ tget s.rate (c / 32) 512 = 0 then
    .wait (s.setCore c { k with budgetWait := if k.budgetWait.contains h then k.budgetWait else k.budgetWait ++ [h] })
  else
    let k1 : Core := { k with
      level := k.level - bu, mat := some ⟨h, a, b, if lastb then none else group⟩
      budgetWait := k.budgetWait.filter (· ≠ h) }
    let s1 := (s.setCore c k1).countCore c 0x07 1
    go (s1.modHart h fun x => { x with lastbu := bu })

/-- MMA at the engine (R198, R211). -/
def memMma (e : QEntry) (o : Fields) (h : Nat) (s : State) : PRes :=
  let x := s.hart h
  s.chargeMma h (x.vreg e.va) (matTile x e.vb) (some e.vb) o.hintL fun t => (perfMma e o (t.hart h)).lift t h

/-- MMAS at the engine (R200, R211). -/
def memMmas (e : QEntry) (o : Fields) (h : Nat) (s : State) : PRes :=
  let x := s.hart h
  s.chargeMma h (x.vreg e.va) (matTile x e.vb) (some e.vb) o.hintL fun t => (perfMmas e o (t.hart h)).lift t h

/-- The byte offset in lane memory of row k of an MMAG, of rb bytes (R201). DESIGN CHOICE (log 51): the sum does not wrap, so a
large sbase gives a row outside the window. -/
def gatherRow (e : QEntry) (x : Hart) (rb k : Nat) : Nat := (e.cap 0).toNat + x.velem e.vb 32 k * rb

/-- Why the gather of an MMAG faults, if it does (R201). DESIGN CHOICE (log 51): TADDR2 is 0. DESIGN CHOICE
(log 52): the range of every row is tested before the poison of any, and of several poisoned bytes the first in row order, by k
and then by byte, is reported. -/
def gatherTrap (s : State) (h : Nat) (e : QEntry) (w : Nat) : Option Trap :=
  let x := s.hart h
  let rb := 64 * (matBits w / 8)
  let lm (c : BitVec 8) (a k : Nat) : Trap := ⟨c, BitVec.ofNat 64 (1 + 256 * k), BitVec.ofNat 64 a, 0⟩
  if (e.cap 0).toNat % rb ≠ 0 then some (lm causeMISALIGN (e.cap 0).toNat 0)
  else match findBelow (matK w) fun k => decide (laneSize < gatherRow e x rb k + rb) with
    | some k => some (lm causePROTECT (gatherRow e x rb k) k)
    | none => (findBelow (matK w * rb) fun j => s.lanePoisoned x.coreNo (gatherRow e x rb (j / rb) + j % rb) 1).map fun j =>
        lm causeDATA_POISON (gatherRow e x rb (j / rb) + j % rb) 0

/-- The tile an MMAG gathers: row k in bits 8·rb·k on (R201). -/
def gatherTile (s : State) (h : Nat) (e : QEntry) (w : Nat) : BitVec 32768 :=
  let x := s.hart h
  let rb := 64 * (matBits w / 8)
  BitVec.ofNat 32768 (packElems (8 * rb) ((List.range (matK w)).map fun k => s.lanePeek x.coreNo (gatherRow e x rb k) rb))

/-- MMAG at the engine (R201, R211). DEDUCED (log 15): its captures are sbase and then ssb, the order of R196's form. -/
def memMmag (e : QEntry) (o : Fields) (h : Nat) (s : State) : PRes :=
  let w := o.w.toNat
  match gatherTrap s h e w with
  | some t => .fault s 0 t false []
  | none =>
    let tile := gatherTile s h e w
    s.chargeMma h ((s.hart h).vreg e.va) tile none o.hintL fun t =>
      let x := t.hart h
      (mmaOn e o x ⟨matA x w e.va, fun k j => elem (matBits w) tile.toNat (64 * k + j)⟩ (e.cap 1).toNat).lift t h

/-- MPROM at the engine, charged 2; with RATE 0 it does not start (R202, R211, R400). -/
def memMprom (e : QEntry) (o : Fields) (h : Nat) (s : State) : PRes :=
  let c := (s.hart h).coreNo
  let k := s.core c
  if k.level < 2 ∨ tget s.rate (c / 32) 512 = 0 then .wait (s.setCore c { k with budgetWait := if k.budgetWait.contains h then k.budgetWait else k.budgetWait ++ [h] })
  else
    let s1 := (s.setCore c { k with level := k.level - 2, budgetWait := k.budgetWait.filter (· ≠ h) }).engineRun h
    (perfMprom e o (s1.hart h)).lift s1 h

/-- MZERO, MZERO.C and MDRAIN at the engine (R195, R203, R204). -/
def memMzero (e : QEntry) (o : Fields) (h : Nat) (s : State) : PRes := (perfMzero e o (s.hart h)).lift (s.engineRun h) h
def memMzeroC (e : QEntry) (o : Fields) (h : Nat) (s : State) : PRes := (perfMzeroC e o (s.hart h)).lift (s.engineRun h) h
def memMdrain (e : QEntry) (o : Fields) (h : Nat) (s : State) : PRes := (perfMdrain e o (s.hart h)).lift (s.engineRun h) h

/-- MFILL drops the latched tile (R195, R204). -/
def memMfill (e : QEntry) (o : Fields) (h : Nat) (s : State) : PRes :=
  let c := (s.hart h).coreNo
  let t := s.engineRun h
  let s1 := match tfind t.cores c with
    | some k => t.setCore c { k with mat := k.mat.map fun m => { m with latch := none } }
    | none => t
  (perfMfill e o (s1.hart h)).lift s1 h

/-- MSTAT: a join (R205). -/
def memMstat (_ : QEntry) (_ : Fields) (h : Nat) (s : State) : PRes :=
  let t := s.engineRun h
  let x := t.hart h
  let latch := match (t.core x.coreNo).mat with
    | some m => decide (m.hart = h) && m.latch.isSome
    | none => false
  .done t 0 (some (mstatWord x latch))

/-- The charge that the engine estimates for an entry of group 7 at the head of a hart's queue (R211). -/
def State.estimate (s : State) (h : Nat) (e : QEntry) (o : Fields) : Option Nat :=
  let x := s.hart h
  let k := s.core x.coreNo
  match e.instr with
  | .mma _ | .mmas _ => some (k.charge h (x.vreg e.va) (matTile x e.vb) (some e.vb))
  | .mmag _ => some (k.charge h (x.vreg e.va) (gatherTile s h e o.w.toNat) none)
  | .mprom _ => some 2
  | .mzero _ | .mzeroC _ | .mdrain _ | .mfill _ | .mstat _ => some 0
  | _ => none

/-- SETVL's entry: VL in [12:0] and VTYPE in [21:16] of its capture (R131). -/
def setvlCapture (vl : Nat) (t : Vtype) : Word := BitVec.ofNat 64 (vl + 65536 * (t.sew.toNat + 16 * t.lmul.toNat))

def memSetvl (e : QEntry) (_ : Fields) (h : Nat) (s : State) : PRes :=
  let c := (e.cap 0).toNat
  .done (s.modHart h fun x => { x with
    vl := bitsOf c 0 13, vtype := ⟨BitVec.ofNat 2 (bitsOf c 16 2), BitVec.ofNat 2 (bitsOf c 20 2)⟩ }) 0 none

/-- PROTECT for a TCB, a TOKSEND address or another address of the supervisor's tables. -/
def trapReason (reason : Nat) (a : Word) : Trap := ⟨causePROTECT, BitVec.ofNat 64 (16 * reason), a, 0⟩

/-- TASKPUB (R325). DESIGN CHOICE (log 52): its PROTECT of reasons 7 and 8 leaves TADDR2 and the store bit of TINFO 0. -/
def memTaskpub (e : QEntry) (_ : Fields) (h : Nat) (s : State) : PRes :=
  let a := e.cap 0
  let w := s.who h e.prv false a
  let fault (s : State) (t : Trap) : PRes := .fault s 0 t false (if batchCause t.cause then pagesOf [t] true else [])
  if !aligned a 128 then fault s (trapReason 8 a)
  else if 2 ^ 48 ≤ a.toNat then fault s (w.trap causeSTORE_PAGE a true 0)
  else match s.accessPage w .store a.toNat with
    | .fault c r => fault s (w.trap c a true r)
    | .poison => fault s (w.trap causeDATA_POISON a true 0)
    | .held k => s.heldAt h (.queue k)
    | .ok s1 pa pte =>
      if spaceOf pa ≠ 0 then fault s (trapReason 8 a)
      else if !s1.canWriteMaster pa 128 then s.heldAt h .other
      else match s1.accessLines w .store pte a.toNat pa 128 .home with
        | .held l => s.heldAt h (.queue l)
        | .lost d => fault s { trapDieLost d true a with taddr2 := a }
        | .ok s2 =>
          if s2.poisoned pa 128 then fault s (w.trap causeDATA_POISON a true 0)
          else match s2.publish w.asn a pa e.prv with
            | .ok s3 _ => .done s3 0 none
            | .notFree => fault s2 (trapReason 7 a)
            | .ill => fault s2 (trapReason 8 a)

/-- The quad of the package that a hart's core belongs to (R12). -/
def Hart.quadNo (x : Hart) : Nat := 8 * x.die + x.core / 4

/-- The barrier a hart names: quads are numbered 8 * die + quad, dies by their number (R12, R328). -/
def barrierKey (x : Hart) (quad : Bool) (n : Nat) : Nat := if quad then x.quadNo * 8 + n else 16 * x.die + n

def State.barrier (s : State) (x : Hart) (quad : Bool) (n : Nat) : Barrier :=
  tget (if quad then s.quadBar else s.dieBar) (barrierKey x quad n) {}

def State.setBarrier (s : State) (x : Hart) (quad : Bool) (n : Nat) (b : Barrier) : State :=
  if quad then { s with quadBar := tset s.quadBar (barrierKey x quad n) b }
  else { s with dieBar := tset s.dieBar (barrierKey x quad n) b }

/-- One arrival with a count (R328). -/
def Barrier.arrive (b : Barrier) (n : Nat) : Barrier :=
  let expect := if b.count = 0 then n else b.expect
  if expect ≤ b.count + 1 then ⟨b.phase + 1, 0, expect⟩ else ⟨b.phase, b.count + 1, expect⟩

/-- ARRIVE (R328). -/
def memArrive (e : QEntry) (o : Fields) (h : Nat) (s : State) : PRes :=
  let x := s.hart h
  let quad := decide (fN o = 2)
  let n := o.imm.toNat % 16
  .done (s.setBarrier x quad n ((s.barrier x quad n).arrive (e.cap 0).toNat)) 0 none

/-- Push check of ARRIVE (R328). -/
def checkArrive (o : Fields) (x : Hart) : Option PushIll :=
  let c := (x.reg o.a.toNat).toNat
  valueIll (!(decide (1 ≤ c) && decide (c ≤ if fN o = 2 then 32 else 256))) 0xFD

/-- The wake flag of hart h set from a die: in its registers, and in its image where line 4 stands there alone (R107, R110, R329). -/
def State.setWake (s : State) (h die : Nat) : State :=
  let t := s.modHart h fun y => { y with wake := true }
  if s.lineState h 4 = .absent then t.imgWrite h die ((s.hart h).imgbase + 0x210) none false else t

/-- WAKE (R329). -/
def memWake (e : QEntry) (_ : Fields) (h : Nat) (s : State) : PRes :=
  let x := s.hart h
  let n := (e.cap 0).toNat % 2 ^ 32
  match (List.range s.harts.length).find? fun k =>
      (s.hart k).task == x.task && x.task.isSome && !(s.hart k).stopped && decide ((s.hart k).ordinal = n) with
  | some k => .done (s.setWake k x.die) 0 none
  | none => .done (s.countHub 0 0x4D 1) 0 none

/-- A destination of TOKSEND, or the fault of its element. -/
inductive RowPlace where
  | ok (s : State) (d : RowDest)
  | fault (t : Trap)
  | held (r : Hold)
  deriving DecidableEq, Repr

/-- An entry of the endpoint table (R429) and the offset in its window. -/
def endpointOk (x off : Nat) : Bool :=
  bitOf x 0 && decide (bitsOf x 1 15 = 0) && decide (bitsOf x 48 16 = 0) && decide (bitsOf x 192 64 = 0) &&
    decide (off < bitsOf x 128 64)

/-- A slot or count word of TOKSEND resolved (R348, R349, R429). -/
def State.rowPlace (s : State) (w : Who) (a : Word) (count : Bool) : RowPlace :=
  if a.getLsbD 63 then
    let idx := bitsOf a.toNat 48 15
    let off := bitsOf a.toNat 0 48
    let hub := w.core / 32 / 3
    let pa := (s.hub hub).uetbase.toNat + 32 * idx
    if s.resync then .held .other
    else match s.readEntry w.h pa 32 with
    | .poison => .fault (w.trap causeDATA_POISON a true 0)
    | .held l => .held (.queue l)
    | .value x =>
      if endpointOk x off then .ok ((s.askHomes hub [hubOfPa pa]).hbmUse (hubOfPa pa)) (.endpoint (BitVec.ofNat 32 (bitsOf x 16 32)) (BitVec.ofNat 64 (bitsOf x 64 64 + off)))
      else .fault (w.trap causePROTECT a true 11)
  else if 2 ^ 48 ≤ a.toNat then .fault (w.trap causeSTORE_PAGE a true 0)
  else match s.accessPage w .store a.toNat with
    | .fault c r => .fault (w.trap c a true r)
    | .poison => .fault (w.trap causeDATA_POISON a true 0)
    | .held k => .held (.queue k)
    | .ok s1 pa pte =>
      if spaceOf pa % 2 = 1 then .fault (if count then w.trap causeATOMIC_ROUTE a true 0 else w.trap causePROTECT a true 11)
      else if count && spaceOf pa = 2 && pteNC pte then .fault (w.trap causeATOMIC_ROUTE a true 0)
      else .ok s1 (.pa pa)

/-- A destination outside the package. -/
def RowDest.outside : RowDest → Bool
  | .pa a => decide (spaceOf a = 2)
  | .endpoint _ _ => true

/-- The count word of a row placed as an ordinary store, in the local package too: an atomic add at its home.
DESIGN CHOICE (log 15): a poisoned word stays as it is. -/
def State.countHere (s : State) (w : Who) (a : Word) : Eff :=
  match s.atomicEl w a 8 false (atomicStep 1 7 1) with
  | .fault t => if t.cause = causeDATA_POISON then .ok s 0 0 else .fault t
  | r => r

/-- A row sent on its way, with the next place number. -/
def State.addRow (s : State) (r : TokRow) : State := { s with rows := s.rows ++ [{ r with place := s.newPlace }], places := s.places + 1 }

/-- A row for the local package placed as an ordinary store, and its count word where that is local too; else the count
word is left to the routing path (R348, R349). -/
def State.storeRow (s : State) (w : Who) (rb first : Nat) (data : List Byte) (a word : Word) (dw : RowDest) : Eff :=
  let v := leNat data
  let count (t : State) : Eff :=
    if dw.outside then .ok (t.addRow ⟨w.h, w.core / 32, data, [], dw, 0⟩) 0 0 else t.countHere w word
  match s.storeEl w a first v with
  | .ok t _ _ =>
    if first = rb then count t
    else (match t.storeEl w (a + BitVec.ofNat 64 first) (rb - first) (v / 2 ^ (8 * first)) with
      | .ok u _ _ => count u
      | r => r)
  | r => r

/-- One row of TOKSEND sent; what leaves the package for a tainted ASN is lost (R348, R396, R397, R399). -/
def sendRow (w : Who) (rb : Nat) (data : Nat → List Byte) (slot word : Nat → Word) (s : State) (i : Nat) : Eff :=
  let a := slot i
  let first := if a.getLsbD 63 then rb else pageRoom a rb
  match s.rowPlace w a false with
  | .fault t => .fault t
  | .held r => .held r
  | .ok s1 d0 =>
    let rest : RowPlace := if first = rb then .ok s1 d0 else s1.rowPlace w (a + BitVec.ofNat 64 first) false
    match rest with
    | .fault t => .fault t
    | .held r => .held r
    | .ok s2 d1 => match s2.rowPlace w (word i) true with
      | .fault t => .fault t
      | .held r => .held r
      | .ok s3 dw =>
        let rowOut := d0.outside || d1.outside
        let out := rowOut.toNat + dw.outside.toNat
        let lost := if out = 0 then none else lowestDie (s3.taint w.asn)
        if let some d := lost then .fault { trapDieLost d true (if rowOut then a else word i) with taddr2 := w.base }
        else if 2 ^ 20 - 1 < (s3.hart w.h).outcnt + out || (decide (out ≠ 0) && s3.resync) then .held .other
        else
          let die := w.core / 32
          let s4 : State := if out = 0 then s3 else (s3.exchange die (24 + die / 3) (some w.asn)).modHart w.h fun x => { x with outcnt := x.outcnt + out }
          if rowOut then
            let pieces := (0, first, d0) :: (if first = rb then [] else [(first, rb - first, d1)])
            .ok (s4.addRow ⟨w.h, w.core / 32, data i, pieces, dw, 0⟩) 0 0
          else s4.storeRow w rb first (data i) a (word i) dw

/-- The slot address, the count word's address and the row of element i of TOKSEND (R348). -/
def rowSlot (e : QEntry) (x : Hart) (i : Nat) : Word := BitVec.ofNat 64 (x.velem e.va 64 i)
def rowWord (e : QEntry) (x : Hart) (i : Nat) : Word := BitVec.ofNat 64 (x.velem (e.va + e.vt.regs) 64 i)
def rowBytes (e : QEntry) (o : Fields) (x : Hart) (i : Nat) : List Byte :=
  (List.range o.imm.toNat).map fun k => BitVec.ofNat 8 (x.velem e.vd 8 (i * o.imm.toNat + k))

/-- TOKSEND (R348). -/
def memToksend (e : QEntry) (o : Fields) (h : Nat) (s : State) : PRes :=
  let x := s.hart h
  let w := s.who h e.prv false 0
  let slot := rowSlot e x
  let word := rowWord e x
  let active := (List.range e.vl).filter fun i => activeAt e o x i
  match active.findSome? fun i =>
      if !aligned (slot i) 16 then some (slot i) else if !aligned (word i) 8 then some (word i) else none with
  | some a => .fault s 0 (misalign a 0 false true) false []
  | none =>
    let el := sendRow w o.imm.toNat (rowBytes e o x) slot word
    let due := dueElems e o x
    finishBatch s h el due (runGroups el (groupsOf (groupSize e.vt) due) { s := s }) (fun y _ => y) true

/-- Push checks of TOKSEND (R331). DESIGN CHOICE (log 52): where VL × IMM is too large the register number reported is D's. -/
def checkToksend (o : Fields) (x : Hart) : Option PushIll :=
  let t := x.vtPush
  let d := resolveVec x o.d
  let a := resolveVec x o.a
  firstIll [regIll x o.d (decide (t.bits ≠ 64)), alignIll x o.d 8, pairIll x o.a t,
    regIll x o.a (overlaps d 8 a (2 * t.regs)), regIll x o.d (decide (4096 < x.vlPush * o.imm.toNat)), mskIll o t]

/-- The package that a PA of space 2 names can be reached: its rail is port P mod 8 of hub ⌊(P mod 64) ÷ 8⌋ (R349). -/
def State.rowRailUp (s : State) (pa : Nat) : Bool := !s.deadRails.contains (peerOf pa % 64)

/-- The hub through which rows and ingress reach a PA: its home, or the one whose port leads to the peer. -/
def placeHub (pa : Nat) : Nat := if spaceOf pa = 2 then peerOf pa % 64 / 8 else hubOfPa pa

/-- The page or line at which bytes for a PA wait (R356 to R362, R377). -/
def State.placeWaits (s : State) (me pa n : Nat) : Option Nat :=
  (spanLines pa n).findSome? fun l =>
    let lo := max pa (128 * l)
    s.paWaits me lo (min (pa + n) (128 * l + 128) - lo) true

/-- Bytes placed at a PA by the routing path, with a place, sent by an agent: each line becomes free of die copies; none where a line
must wait, or the notices of them all cannot be taken (R274, R348, R377). -/
def State.placeBytes (s : State) (me agent pa : Nat) (bs : List Byte) : Option State :=
  if s.resync || (s.placeWaits me pa bs.length).isSome || !s.canWriteMaster pa bs.length then none
  else
    let s1 := (s.exchange agent (24 + placeHub pa) none).takeHome pa bs.length
    if spaceOf pa = 2 then some (if s.rowRailUp pa then s1.write pa bs else s)
    else some (s1.homeWrite pa bs)

/-- What a row leaves at a remote endpoint (R348, R429): bytes for its window, or one more in a count word. -/
def State.ueSend (s : State) (fep : BitVec 32) (addr : Word) (data : Option (List Byte)) : State :=
  { s with ueOut := s.ueOut ++ [⟨fep, addr, data⟩] }

/-- A destination written. -/
def State.placeAt (s : State) (me die : Nat) (d : RowDest) (bs : List Byte) : Option State :=
  match d with
  | .endpoint fep a => some (s.ueSend fep a (some bs))
  | .pa a => s.placeBytes me die a bs

/-- A count word incremented; DESIGN CHOICE (log 15): a poisoned word stays as it is. -/
def State.countRow (s : State) (me die : Nat) (d : RowDest) : Option State :=
  match d with
  | .endpoint fep a => some (s.ueSend fep a none)
  | .pa a => if s.poisoned a 8 then some s else s.placeBytes me die a (leBytes 8 (s.peek a 8 + 1))

/-- The address a posted row is known by. -/
def RowDest.addr : RowDest → Nat
  | .pa a => a
  | .endpoint fep a => 2 ^ 63 + fep.toNat * 2 ^ 64 + a.toNat

/-- A destination that no rail reaches. -/
def State.rowDead (s : State) (d : RowDest) : Bool :=
  match d with
  | .pa a => decide (spaceOf a = 2) && !s.rowRailUp a
  | .endpoint _ _ => false

/-- Row k of those in flight is placed, and its count word incremented (R348); none where it must wait. A row that its
rail loses is neither placed nor counted (R273), and what was sent of it is never acknowledged. -/
def State.placeRow (s : State) (k : Nat) : Option State :=
  match s.rows[k]? with
  | none => none
  | some r =>
    let dead := r.slot.find? fun p => s.rowDead p.2.2
    let placed := if dead.isSome then some s else
      (r.slot.foldl (fun (t : Option State) p =>
        t.bind fun u => u.placeAt r.place r.die p.2.2 ((r.data.drop p.1).take p.2.1)) (some s)).bind fun u => u.countRow r.place r.die r.word
    placed.map fun u =>
      let note (d : RowDest) : Posted := ⟨r.hart, ((dead.map fun p => p.2.2).getD d).addr⟩
      let row := ((r.slot.find? fun p => p.2.2.outside).map fun p => note p.2.2).toList
      let word := if r.word.outside then [note r.word] else []
      { u.leaveAll r.place with rows := u.rows.eraseIdx k, posted := u.posted ++ row ++ word }

/-- The pieces of a row that have a PA, with their lengths, and its count word. -/
def TokRow.places (r : TokRow) : List (Nat × Nat) :=
  let at_ (d : RowDest) (n : Nat) : Option (Nat × Nat) := match d with
    | .pa a => some (a, n)
    | _ => none
  (r.slot.filterMap fun p => at_ p.2.2 p.2.1) ++ (at_ r.word 8).toList

/-- Row k is placed, or takes its place where it has to wait (R348, R356). -/
def State.rowMove (s : State) (k : Nat) : Option State :=
  match s.placeRow k with
  | some t => some t
  | none => (s.rows[k]?).bind fun r => (r.places.findSome? fun p => s.placeWaits r.place p.1 p.2).bind fun key =>
      let t := s.queueUp r.place key
      if t.holds = s.holds then none else some t

end Sys2Proof.Machine
end

