-- ==== Sys2Proof/Machine/Perform.lean ====
section
/-! DEFINITION. Sys2Proof/Machine/Perform.lean: what the vector unit and the memory pipe do with each kind of queue entry, the
captures of an entry, and the poison of the register-store lines it reads (R99, R111, R132, R154, R236, R260, R287, R331). -/

namespace Sys2Proof.Machine

/-- The entry of a queue performed: `limit` bounds the steps of a data-dependent instruction (R187). END and the
instructions that are never pushed do nothing here. -/
def performRaw (limit : Option Nat) (e : QEntry) (h : Nat) (s : State) : PRes :=
  match e.instr with
  | .vadd o => (perfVadd e o (s.hart h)).lift s h
  | .vsub o => (perfVsub e o (s.hart h)).lift s h
  | .vmul o => (perfVmul e o (s.hart h)).lift s h
  | .vmulh o => (perfVmulh e o (s.hart h)).lift s h
  | .vmadd o => (perfVmadd e o (s.hart h)).lift s h
  | .vdiv o => (perfVdiv e o (s.hart h)).lift s h
  | .vrem o => (perfVrem e o (s.hart h)).lift s h
  | .vand o => (perfVand e o (s.hart h)).lift s h
  | .vor o => (perfVor e o (s.hart h)).lift s h
  | .vxor o => (perfVxor e o (s.hart h)).lift s h
  | .vshl o => (perfVshl e o (s.hart h)).lift s h
  | .vshr o => (perfVshr e o (s.hart h)).lift s h
  | .vsra o => (perfVsra e o (s.hart h)).lift s h
  | .vmin o => (perfVmin e o (s.hart h)).lift s h
  | .vmax o => (perfVmax e o (s.hart h)).lift s h
  | .vabsd o => (perfVabsd e o (s.hart h)).lift s h
  | .vsadd o => (perfVsadd e o (s.hart h)).lift s h
  | .vssub o => (perfVssub e o (s.hart h)).lift s h
  | .vcmp o => (perfVcmp e o (s.hart h)).lift s h
  | .vsel o => (perfVsel e o (s.hart h)).lift s h
  | .vwadd o => (perfVwadd e o (s.hart h)).lift s h
  | .vwmul o => (perfVwmul e o (s.hart h)).lift s h
  | .vnshr o => (perfVnshr e o (s.hart h)).lift s h
  | .vid o => (perfVid e o (s.hart h)).lift s h
  | .viota o => (perfViota e o (s.hart h)).lift s h
  | .vfadd o => (perfVfadd e o (s.hart h)).lift s h
  | .vfsub o => (perfVfsub e o (s.hart h)).lift s h
  | .vfmul o => (perfVfmul e o (s.hart h)).lift s h
  | .vfma o => (perfVfma e o (s.hart h)).lift s h
  | .vfnma o => (perfVfnma e o (s.hart h)).lift s h
  | .vfdiv o => (perfVfdiv e o (s.hart h)).lift s h
  | .vfsqrt o => (perfVfsqrt e o (s.hart h)).lift s h
  | .vfexp o => (perfVfexp e o (s.hart h)).lift s h
  | .vfmin o => (perfVfmin e o (s.hart h)).lift s h
  | .vfmax o => (perfVfmax e o (s.hart h)).lift s h
  | .vfcmp o => (perfVfcmp e o (s.hart h)).lift s h
  | .vfclass o => (perfVfclass e o (s.hart h)).lift s h
  | .vfcvt o => (perfVfcvt e o (s.hart h)).lift s h
  | .vfscale o => (perfVfscale e o (s.hart h)).lift s h
  | .vfsgn o => (perfVfsgn e o (s.hart h)).lift s h
  | .vfqnt o => (perfVfqnt e o (s.hart h)).lift s h
  | .vfdqnt o => (perfVfdqnt e o (s.hart h)).lift s h
  | .vfamax o => (perfVfamax e o (s.hart h)).lift s h
  | .vslideup o => (perfVslideup e o (s.hart h)).lift s h
  | .vslidedn o => (perfVslidedn e o (s.hart h)).lift s h
  | .vslideinUp o => (perfVslideinUp e o (s.hart h)).lift s h
  | .vslideinDn o => (perfVslideinDn e o (s.hart h)).lift s h
  | .vperm o => (perfVperm e o (s.hart h)).lift s h
  | .vxch o => (perfVxch e o (s.hart h)).lift s h
  | .vcompress o => (perfVcompress e o (s.hart h)).lift s h
  | .vexpand o => (perfVexpand e o (s.hart h)).lift s h
  | .vbcast o => (perfVbcast e o (s.hart h)).lift s h
  | .vmvsx o => (perfVmvsx e o (s.hart h)).lift s h
  | .vmvxs o => (perfVmvxs e o (s.hart h)).lift s h
  | .vred o => (perfVred e o (s.hart h)).lift s h
  | .vredX o => (perfVredX e o (s.hart h)).lift s h
  | .vfredo o => (perfVfredo e o (s.hart h)).lift s h
  | .vfredt o => (perfVfredt e o (s.hart h)).lift s h
  | .vfredmx o => (perfVfredmx e o (s.hart h)).lift s h
  | .mlog o => (perfMlog e o (s.hart h)).lift s h
  | .mpopc o => (perfMpopc e o (s.hart h)).lift s h
  | .mfirst o => (perfMfirst e o (s.hart h)).lift s h
  | .mset o => (perfMset e o (s.hart h)).lift s h
  | .vsortk o => (perfVsortk e o (s.hart h)).lift s h
  | .vmergek o => (perfVmergek e o (s.hart h)).lift s h
  | .vsegred o => (perfVsegred e o (s.hart h)).lift s h
  | .vsegnorm o => (perfVsegnorm e o (s.hart h)).lift s h
  | .vsegscan o => (perfVsegscan e o (s.hart h)).lift s h
  | .vsetseg o => (perfVsetseg e o (s.hart h)).lift s h
  | .vgetseg o => (perfVgetseg e o (s.hart h)).lift s h
  | .fbuild o => (perfFbuild e o (s.hart h)).lift s h
  | .fsplit o => (perfFsplit e o (s.hart h)).lift s h
  | .fisect o => (perfFisect limit e o (s.hart h)).lift s h
  | .funion o => (perfFunion limit e o (s.hart h)).lift s h
  | .fmerge o => (perfFmerge limit e o (s.hart h)).lift s h
  | .fcompact o => (perfFcompact limit e o (s.hart h)).lift s h
  | .fexpand o => (perfFexpand e o (s.hart h)).lift s h
  | .fgather o => (perfFgather e o (s.hart h)).lift s h
  | .fmulFibre o => (perfFmulFibre e o (s.hart h)).lift s h
  | .fdot o => (perfFdot limit e o (s.hart h)).lift s h
  | .fscale o => (perfFscale e o (s.hart h)).lift s h
  | .focc o => (perfFocc e o (s.hart h)).lift s h
  | .fshift o => (perfFshift e o (s.hart h)).lift s h
  | .fsort o => (perfFsort limit e o (s.hart h)).lift s h
  | .fred o => (perfFred e o (s.hart h)).lift s h
  | .fclear o => (perfFclear e o (s.hart h)).lift s h
  | .fclearPair o => (perfFclearPair e o (s.hart h)).lift s h
  | .mma o => memMma e o h s
  | .mmas o => memMmas e o h s
  | .mmag o => memMmag e o h s
  | .mprom o => memMprom e o h s
  | .mzero o => memMzero e o h s
  | .mzeroC o => memMzeroC e o h s
  | .mdrain o => memMdrain e o h s
  | .mfill o => memMfill e o h s
  | .mstat o => memMstat e o h s
  | .vld o => memVld e o h s
  | .vst o => memVst e o h s
  | .vlds o => memVlds e o h s
  | .vsts o => memVsts e o h s
  | .vldx o => memVldx e o h s
  | .vstx o => memVstx e o h s
  | .vldf o => memVldf e o h s
  | .vstf o => memVstf e o h s
  | .vldp o => memVldp e o h s
  | .vstp o => memVstp e o h s
  | .vamo o => memVamo e o h s
  | .vldc o => memVldc e o h s
  | .vstc o => memVstc e o h s
  | .vamoc o => memVamoc e o h s
  | .fld o => memFld e o h s
  | .fst o => memFst e o h s
  | .qbind o => memQbind e o h s
  | .qrd o => memQrd e o h s
  | .fldq o => memFldq e o h s
  | .qrel o => memQrel e o h s
  | .toksend o => memToksend e o h s
  | .setvl o => memSetvl e o h s
  | .taskpub o => memTaskpub e o h s
  | .arrive o => memArrive e o h s
  | .wake o => memWake e o h s
  | .fwalk o => memFwalk limit e o h s
  | _ => .done s 0 none

/-- The group of an instruction. -/
def groupOf (i : Instr) : Nat := (i.parts.map fun p => p.1).getD 16

/-- With VL = 0 the entry reaches no lane and reads no register: groups 0x3, 0x4 and 0x5, but for VSETSEG and VGETSEG, and
the conversions of group 0x6; a join of group 0x5 still delivers its result (R132, R154, R182). -/
def QEntry.reachesNoLane (e : QEntry) : Bool :=
  decide (e.vl = 0) && match e.instr with
    | .vsetseg _ | .vgetseg _ => false
    | .fbuild _ | .fsplit _ | .fexpand _ | .fgather _ | .fsort _ => true
    | i => decide (3 ≤ groupOf i) && decide (groupOf i ≤ 5)

/-- An instruction that makes no access and raises nothing where VL = 0 (R260, R331). Those of groups 0x3 to 0x6 do
nothing with VL = 0 by their own definitions (R132, R154). -/
def retiresEmpty : Instr → Bool
  | .vld _ => true
  | .vst _ => true
  | .vlds _ => true
  | .vsts _ => true
  | .vldx _ => true
  | .vstx _ => true
  | .vldf _ => true
  | .vstf _ => true
  | .vldp _ => true
  | .vstp _ => true
  | .vamo _ => true
  | .vldc _ => true
  | .vstc _ => true
  | .vamoc _ => true
  | .qrd _ => true
  | .fldq _ => true
  | .toksend _ => true
  | _ => false

/-- A data-dependent instruction's tag (R97). -/
def progressTag : Instr → Option Nat
  | .fisect _ => some 0x02
  | .funion _ => some 0x03
  | .fmerge _ => some 0x04
  | .fcompact _ => some 0x05
  | .fdot _ => some 0x09
  | .fsort _ => some 0x0D
  | .fwalk _ => some 0x28
  | _ => none

/-- The fields of an instruction word. -/
def fieldsOfInstr (i : Instr) : Fields :=
  match i.parts with
  | some (_, _, o) => o
  | none => {}

/-- The vector registers an entry reads, as first register and number (R111). -/
def QEntry.sources (e : QEntry) : List (Nat × Nat) :=
  let g := e.vt.regs
  let o := fieldsOfInstr e.instr
  let sh := shape e.instr
  let a := if sh.a = .vector then [(e.va, g)] else []
  let b := if sh.b = .vector ∧ !o.i then [(e.vb, g)] else []
  let k := (o.f.extractLsb' 4 2).toNat + 1
  match e.instr with
  | .mma _ | .mmas _ | .mmag _ | .mprom _ => []
  | .mfill _ | .vsetseg _ => [(e.va, 1)]
  | .vsortk _ | .vmergek _ | .fbuild _ | .fsort _ => [(e.va, 2 * g)]
  | .vnshr _ => (e.va, 2 * g) :: b
  | .vfcvt _ => [(e.va, g * max 1 (typeBits (fN o / 16) / typeBits o.w.toNat))]
  | .vfqnt _ => (e.va, 4 * g) :: (if o.f.getLsbD 0 then [(e.vb, 1)] else [])
  | .vfdqnt _ => [(e.va, g), (e.vb, 1)]
  | .vmadd _ | .vfma _ | .vfnma _ => (e.vd, g) :: a ++ b
  | .vst _ | .vsts _ => [(e.vd, g)]
  | .vstx _ | .vamo _ => [(e.vd, g), (e.vb, g)]
  | .vstp _ => [(e.vd, g), (e.va, g)]
  | .vstf _ => (e.vd, 4 * g) :: (if o.f.getLsbD 0 then [(e.vb, 1)] else [])
  | .vldf _ => []
  | .vldc _ => [(e.vb, k * g)]
  | .vstc _ | .vamoc _ => [(e.vb, k * g), (e.vd, g * max 1 (coordBits o / e.vt.bits))]
  | .toksend _ => [(e.vd, 8), (e.va, 2 * g)]
  | _ => a ++ b

/-- The byte of a scale register that holds the scale of block j (R148). -/
def scaleByte (w j : Nat) : Nat := if w = 14 then j else 4 * j

/-- A product that goes to P alone: C is neither read nor written (R47, R198). -/
def cUnused (o : Fields) : Bool := (o.w == 8 || o.w == 9) && !o.f.getLsbD 4

/-- The vector registers that a product or a promotion of the matrix engine reads, as first register and number of lines:
C but where the products go to P alone, and of the scales, the metadata and the indices the bytes in use (R194, R198 to
R202). -/
def matLines (i : Instr) (e : QEntry) (o : Fields) : List (Nat × Nat) :=
  let c := if cUnused o then [] else [(e.vd, 16)]
  let scales := (immVregs o false).map fun r => (r, 1)
  match i with
  | .mma _ => c ++ [(e.va, 4), (e.vb, 32)] ++ scales
  | .mmas _ => c ++ [(e.va, 2), (e.vb, 32)] ++ scales ++ [(immVm o, 1)]
  | .mmag _ => c ++ [(e.va, 4), (e.vb, matK o.w.toNat / 32)] ++ scales
  | .mprom _ => [(e.vd, 16), (immVsa o, 1)]
  | _ => []

/-- The lines of the vector registers that an entry reads (R111). VFDQNT reads the codes of its active elements and the
scales of their blocks alone, block by block, the scale first, up to where it stops at a reserved code (R149). DESIGN CHOICE (log
50): of another source group every line counts as read, those whose elements all stand at or above VL among them. DESIGN CHOICE
(log 52): the lines stand in the order in which DATA_POISON looks for the first poisoned one: of a matrix instruction C, A, B
and what else it names, of another D, then A, then B. -/
def QEntry.vecLines (e : QEntry) (x : Hart) : List Nat :=
  let lines (p : Nat × Nat) : List Nat := (List.range p.2).map fun k => 96 + 4 * p.1 + k
  match e.instr with
  | .vfdqnt o =>
    let b := blockSize o.w.toNat
    let stop := vfdqntStop e o x
    let act := (List.range e.vl).filter fun i => activeAt e o x i
    let scaleRead (j : Nat) : Bool := stop.all fun p => decide (j ≤ p.1 / b)
    let codeRead (i : Nat) : Bool := stop.all fun p => decide (i < p.1) || (decide (i = p.1) && !p.2)
    ((act.map (· / b)).dedup.filter scaleRead).flatMap fun j =>
      (96 + 4 * e.vb + scaleByte o.w.toNat j / 128) ::
        (act.filter fun i => decide (i / b = j) && codeRead i).map fun i => 96 + 4 * e.va + i / 128
  | i => (matLines i e (fieldsOfInstr i)).flatMap lines ++ e.sources.flatMap fun p => lines (p.1, 4 * p.2)

/-- The lines of the image from its byte `off` on that n bytes stand in. -/
def imageSpan (off n : Nat) : List Nat := (List.range ((off + n + 127) / 128 - off / 128)).map (off / 128 + ·)

/-- The lines of the partial buffer that an entry reads: all of it for a product of E4M3 or E5M2, a promotion and MSTAT, and the
32 entries that MDRAIN moves (R198, R202, R204). -/
def linesOfP (i : Instr) (o : Fields) : List Nat :=
  let all := imageSpan 0x1200 5120 ++ [76]
  match i with
  | .mma _ | .mmas _ | .mmag _ => if o.w = 8 ∨ o.w = 9 ∨ o.f.getLsbD 4 then all else []
  | .mprom _ | .mstat _ => all
  | .mdrain _ => imageSpan (0x1200 + 320 * (o.imm.toNat % 16)) 320 ++ [76]
  | _ => []

/-- The lines of the enabling or selecting mask of an entry; FCOMPACT's is the single register m(MSK.M) (R89, R141, R184). -/
def QEntry.maskLines (e : QEntry) (n : Nat) : List Nat :=
  let regs := match e.instr with
    | .fcompact _ => 1
    | _ => e.vt.maskRegs
  (List.range regs).map fun k => 24 + (n + k) / 2

/-- The pairs of its own destination that a fibre instruction reads: where it goes on, the last entry that a coordinate is
compared with (R179, R183, R189, R255), for FSORT every entry (R186), for FLD those that it does not load again (R255). DESIGN
CHOICE (log 52): what it has itself written before in the same run counts as no register read. -/
def QEntry.destPairs (e : QEntry) (x : Hart) : List Nat :=
  let occ := (x.fibreReg (fieldsOfInstr e.instr).d.toNat).occ
  let resumed := (progressTag e.instr).any (resumes x)
  let last := if occ = 0 then [] else [occ - 1]
  match e.instr with
  | .fisect _ | .funion _ | .fmerge _ | .fcompact _ | .fwalk _ => if resumed then last else []
  | .fsort _ => if resumed then List.range occ else []
  | .fbuild _ => if x.vstart = 0 then [] else last
  | .fld _ =>
    let due (k : Nat) : Bool := decide (x.vstart.toNat ≤ k) && (!e.part || x.fmask == 0 || x.fmask.getLsbD k)
    (List.range (min (e.cap 1).toNat 256)).filter fun k => decide (x.vstart.toNat ≤ k + 1) && !due k
  | _ => []

/-- The lines of the image that an entry reads registers from, those of its mask first (R107, R111, R136). -/
def QEntry.lines (e : QEntry) (x : Hart) : List Nat :=
  let o := fieldsOfInstr e.instr
  let sh := shape e.instr
  let fibre (n : Nat) : List Nat := 29 :: imageSpan (0xB000 + 2048 * n) (8 * (x.fibreReg n).occ)
  let link (n : Nat) : List Nat := if (x.stream n).kind = 3 then [32 + (x.stream n).link.toNat / 2] else []
  if e.reachesNoLane then []
  else
    (if o.mskE then e.maskLines o.mskM.toNat else []) ++ e.vecLines x ++
    (if sh.a = .mask then e.maskLines o.a.toNat else []) ++ (if sh.b = .mask then e.maskLines o.b.toNat else []) ++
    (if sh.a = .fibre then fibre o.a.toNat else []) ++ (if sh.b = .fibre then fibre o.b.toNat else []) ++
    (if sh.a = .stream then [32 + o.a.toNat / 2] else []) ++ linesOfP e.instr o ++
    (if (progressTag e.instr).isSome then [29] else []) ++
    (e.destPairs x).flatMap (fun k => 29 :: imageSpan (0xB000 + 2048 * o.d.toNat + 8 * k) 8) ++ (if e.part && usesFmask e.instr then [20] else []) ++
    match e.instr with
    | .vsegred _ | .vsegnorm _ | .vsegscan _ | .vgetseg _ => [28, 29]
    | .fst _ => fibre o.d.toNat
    | .fcompact _ => fibre (o.a.toNat + 1)
    | .qrd _ | .qrel _ => link o.a.toNat
    | .qbind _ => (32 + o.d.toNat / 2) :: link o.d.toNat
    | _ => []

/-- The v registers of an entry's destination group at D (R53, R134). -/
def QEntry.destRegs (e : QEntry) : Nat :=
  let g := e.vt.regs
  match e.instr with
  | .vwadd _ | .vwmul _ | .fsplit _ | .vsortk _ | .vmergek _ => 2 * g
  | .vfdqnt _ => 4 * g
  | .vfcvt o => g * max 1 (typeBits o.w.toNat / typeBits (fN o / 16))
  | .vldc o | .vamoc o => g * max 1 (coordBits o / e.vt.bits)
  | .mma o | .mmas o | .mmag o => if cUnused o then 0 else 4
  | .mprom _ | .mzeroC _ => 4
  | .mdrain _ | .vgetseg _ | .vmvsx _ | .vred _ | .vfredo _ | .vfredt _ | .vfredmx _ => 1
  | _ => g

/-- The vector registers that an entry writes in full: first register and number. What goes on from VSTART or from FMASK does
not (R258). -/
def QEntry.fullDest (e : QEntry) (x : Hart) : Nat × Nat :=
  let whole := !(fieldsOfInstr e.instr).mskE && x.vstart == 0 && decide (e.vl = e.vt.vlmax) && !(e.part && x.fmask != 0)
  match e.instr with
  | .mma _ | .mmas _ | .mmag _ | .mprom _ | .mzeroC _ | .mdrain _ | .vgetseg _ => (e.vd, e.destRegs)
  | .vcompress _ | .vexpand _ | .vmvsx _ | .vslideup _ | .vred _ | .vfredo _ | .vfredt _ | .vfredmx _ | .vsegred _
  | .vsegnorm _ | .vsegscan _ | .vst _ | .vsts _ | .vstx _ | .vstp _ | .vstf _ | .vstc _ | .toksend _ => (0, 0)
  | i => if whole ∧ (shape i).d = .vector then (e.vd, e.destRegs) else (0, 0)

/-- The fibre registers that an entry writes. -/
def QEntry.fibreDest (e : QEntry) : List Nat :=
  let d := (fieldsOfInstr e.instr).d.toNat
  match e.instr with
  | .fst _ => []
  | .fisect _ | .fmerge _ | .fcompact _ | .fclearPair _ => [d, d + 1]
  | i => if (shape i).d = .fibre then [d] else []

/-- The bytes of the fibre registers that an entry has written, as offsets and lengths (R107, R111): x is the hart before it and
y the hart after it. One that goes on leaves the pairs before it as they were, FLD those that it does not load. -/
def QEntry.fibreWritten (e : QEntry) (x y : Hart) : List (Nat × Nat) :=
  let goesOn := (progressTag e.instr).any (resumes x) || (x.vstart != 0 && match e.instr with
    | .fbuild _ => true
    | _ => false)
  let keep (n k : Nat) : Bool := (goesOn && decide (k < (x.fibreReg n).occ)) || match e.instr with
    | .fld _ => (e.destPairs x).contains k || decide (k < x.vstart.toNat)
    | _ => false
  e.fibreDest.flatMap fun n => (0xE90 + 2 * n, 2) ::
    (((List.range (y.fibreReg n).occ).filter fun k => !keep n k).map fun k => (0xB000 + 2048 * n + 8 * k, 8))

/-- The bytes of the image that an entry wrote in full, as offsets and lengths (R107, R111): x is the hart before it and y
the hart after it. -/
def QEntry.written (e : QEntry) (x y : Hart) : List (Nat × Nat) :=
  let o := fieldsOfInstr e.instr
  let v := e.fullDest x
  if e.reachesNoLane then []
  else [(0x3000 + 512 * v.1, 512 * v.2)] ++ e.fibreWritten x y ++
    match e.instr with
    | .vcmp _ | .vfcmp _ | .mlog _ | .mset _ => [(0xC00 + 64 * o.d.toNat, e.vl / 8)]
    | .mzero _ | .mzeroC _ => [(0x1200, 5120), (0x2600, 128)]
    | .mfill _ => [(0x1200 + 320 * o.imm.toNat, 320), (0x2600 + 8 * o.imm.toNat, 8)]
    | .vsetseg _ => [(0xE00, 128), (0xE80, 8)]
    | .qbind _ => [(0x1000 + 64 * o.d.toNat, 64)]
    | .qrel _ => [(0x1000 + 64 * o.a.toNat, 64)]
    | .setvl _ => [(0x220, 16)]
    | _ => []

/-- How many times as wide as SEW the widest operand of an entry of groups 0x3 and 0x4 is (R134, R136). -/
def QEntry.widest (e : QEntry) : Nat :=
  match e.instr with
  | .vwadd _ | .vwmul _ | .vnshr _ => 2
  | .vfqnt _ | .vfdqnt _ => 4
  | .vfcvt o => max (typeBits o.w.toNat) (typeBits (fN o / 16)) / e.vt.bits
  | _ => 1

/-- The beats of an entry of the arithmetic pipes that hold an active element, and those that are skipped (R136). VSEL's mask
selects, and every element from VSTART on is active (R141). -/
def QEntry.beats (e : QEntry) (x : Hart) : Nat × Nat :=
  let o := fieldsOfInstr e.instr
  let on (i : Nat) : Bool := match e.instr with
    | .vsel _ => decide (x.vstart.toNat ≤ i)
    | _ => activeAt e o x i
  let l := (((List.range e.vl).filter on).map fun i => i * (e.widest * e.vt.bits / 8) / 128).dedup
  (l.length, 4 * e.widest * e.vt.regs - l.length)

/-- The coordinates that both inputs of a walk hold between two positions of it (R183, R401). -/
def walkMatches (o : Fields) (x : Hart) (p q : Nat × Nat) : Nat :=
  let coords (n lo hi : Nat) : List Nat := (List.range (hi - lo)).map fun k => (x.fibreReg n).coord (lo + k)
  ((coords o.a.toNat p.1 q.1).filter (coords o.b.toNat p.2 q.2).contains).length

/-- The beats of an entry of the arithmetic pipes, and the matches of a fibre walk, counted (R401): the hart was x before
the performance and is y after it, which is over or stands where VPROG says. -/
def State.countPipes (s : State) (e : QEntry) (x y : Hart) (fin : Bool) : State :=
  match e.instr with
  | .fisect o | .funion o | .fmerge o | .fdot o =>
    let at_ (v : Vprog) : Nat × Nat := (v.posa.toNat, v.posb.toNat)
    let here := if resumes x ((progressTag e.instr).getD 0) then at_ x.vprog else (0, 0)
    let there := if fin then ((x.fibreReg o.a.toNat).occ, (x.fibreReg o.b.toNat).occ) else at_ y.vprog
    s.countCore x.coreNo 0x09 (walkMatches o x here there)
  | i =>
    if (groupOf i = 3 ∨ groupOf i = 4) ∧ fin ∧ e.vl ≠ 0 then
      (s.countCore x.coreNo 0x05 (e.beats x).1).countCore x.coreNo 0x06 (e.beats x).2
    else s

/-- An entry performed: from a poisoned register-store line nothing is read; VL = 0 retires a member that uses VL.
DESIGN CHOICE (log 49): the DATA_POISON of R111 is raised in groups 0x3 to 0x6 too, which R151, R175, R192 and R290 do not
list. DESIGN CHOICE (log 52): it is raised before anything else of the entry. An entry in progress keeps its progress (R188),
and what it has written of a fibre is clean (R111). -/
def performInstr (limit : Option Nat) (e : QEntry) (h : Nat) (s : State) : PRes :=
  let x := s.hart h
  if e.vl = 0 ∧ retiresEmpty e.instr then .done s 0 none
  else match x.poisonedLine (e.lines x) with
    | some t => .fault s 0 t (e.part || e.prog.v) []
    | none =>
      let clean (t : State) (l : List (Nat × Nat)) : State :=
        if x.rsPoison.isEmpty then t else t.modHart h fun y => l.foldl (fun z p => z.cleanBytes p.1 p.2) y
      let part (t : State) : State := clean t (e.fibreWritten x (t.hart h))
      match performRaw limit e h s with
      | .done t f r => .done ((clean t (e.written x (t.hart h))).countPipes e x (t.hart h) true) f r
      | .part t f acc => .part ((part t).countPipes e x (t.hart h) false) f acc
      | .fault t f tr p pages => .fault ((part t).countPipes e x (t.hart h) false) f tr p pages
      | .held t p => .held (if p.v && progressTag e.instr == some p.tag.toNat then part t else t) p
      | r => r

/-- The scalars an instruction captures at push, in their order (R99, R196, R237). -/
def captures (i : Instr) (o : Fields) (x : Hart) : List Word :=
  let sh := shape i
  let std := (if sh.a = .scalar then [x.reg o.a.toNat] else []) ++
    (if sh.b = .scalar ∧ !o.i then [x.reg o.b.toNat] else [])
  let ssb : List Word := if o.f.getLsbD 4 then [x.reg (immSsb o)] else []
  match i with
  | .mma _ | .mmas _ => ssb
  | .mmag _ => x.reg (immVm o) :: ssb
  | .mprom _ => [x.reg (immSsb o)]
  | .fwalk _ => [x.reg o.a.toNat, x.reg (o.a.toNat + 1), x.reg (o.a.toNat + 2), x.reg o.b.toNat]
  | _ => std

/-- The scalar registers that an instruction reads at issue, whose distance counts (R65). -/
def scalarReads (i : Instr) (o : Fields) : List Nat :=
  let sh := shape i
  let std := (if sh.a = .scalar then [o.a.toNat] else []) ++ (if sh.b = .scalar ∧ !o.i then [o.b.toNat] else [])
  let span (n : Nat) : List Nat := (List.range n).map (o.a.toNat + ·)
  match i with
  | .bfi _ | .ffma _ | .loop _ | .st _ | .cas _ => o.d.toNat :: std
  | .mma _ | .mmas _ => if o.f.getLsbD 4 then [immSsb o] else []
  | .mmag _ => immVm o :: (if o.f.getLsbD 4 then [immSsb o] else [])
  | .mprom _ => [immSsb o]
  | .fwalk _ => span 3 ++ [o.b.toNat]
  | .acopy _ => span 3
  | .acopy2 _ | .pmig _ | .collArsum _ | .collArmax _ | .collAg _ | .collRssum _ | .collRsmax _ => span 4
  | .waitt _ => span 2
  | _ => std

/-- The predicates that an instruction reads at issue besides its guard. DESIGN CHOICE (log 50): PLOG reads both of its
operands, even one that its table ignores (R120). -/
def predReads (i : Instr) (o : Fields) : List Nat :=
  let sh := shape i
  (if sh.a = .pred then [o.a.toNat] else []) ++ (if sh.b = .pred then [o.b.toNat] else []) ++
    match i with
    | .sel _ => [fN o % 16]
    | _ => []

/-- The scalars that an instruction writes itself, or that the join it pushes will write. -/
def scalarWrites (i : Instr) (o : Fields) : List Nat :=
  match i with
  | .st _ => []
  | .call _ | .callReg _ => [62]
  | .endI _ => [1, 2]
  | .acopy _ | .acopy2 _ | .collArsum _ | .collArmax _ | .collAg _ | .collRssum _ | .collRsmax _ =>
    [o.d.toNat, o.d.toNat + 1]
  | _ => if (shape i).d = .scalar then [o.d.toNat] else []

end Sys2Proof.Machine
end

