-- ==== Sys2Proof/Machine/Queue.lean ====
section
/-! DEFINITION. Sys2Proof/Machine/Queue.lean: the vector queue: performing and completing its entries, parking it, vector faults
with fault batching, held faults and queue faults (R99, R287, R290 to R296, R301, R323). -/

namespace Sys2Proof.Machine

/-- The occupancy of the live queue (R99). -/
def Hart.occupancy (x : Hart) : Nat := (x.vqtail - x.vcp).toNat

/-- Interrupts and pre-emption may be taken: at user privilege or with IE set, with the vector unit unfrozen and not between
a VQREPLAY and its ERET (R293). -/
def Hart.takesIrq (x : Hart) : Bool := (!x.sup || x.tstatus.ie) && !x.tstatus.vfrz && !x.replaying && x.bound && !x.stopped

/-- How the vector unit's work ends: a state, or a stop of the model. -/
inductive Drive where
  | ok (s : State)
  | stop (f : Fault)
  deriving DecidableEq, Repr

def Drive.bind (d : Drive) (f : State → Drive) : Drive :=
  match d with
  | .ok s => f s
  | .stop e => .stop e

/-- A source is pending at a hub (R427). -/
def Hub.pendingSrc (u : Hub) (port : Bool) (src : Nat) : Bool :=
  match src with
  | 1 => port && u.doorbell != 0
  | 2 => u.mgmt
  | 3 => u.errstat != 0
  | _ => u.notice

/-- The interrupt that a hart takes next: its source and hub (R427). -/
def State.pendingIrq (s : State) (h : Nat) : Option (Nat × Nat) :=
  let x := s.hart h
  [3, 2, 4, 1].findSome? fun src => (findBelow 8 fun hub =>
    (s.hub hub).irqen && decide ((s.hub hub).irqtgt.toNat = x.hartid.toNat) &&
      (s.hub hub).pendingSrc (decide (hub = 0 ∨ hub = 4)) src).map fun hub => (src, hub)

/-- An interrupt is pending for a hart (R427). -/
def State.irqPending (s : State) (h : Nat) : Bool := (s.pendingIrq h).isSome

/-- How a performance of the head entry e of hart h leaves the queue: `before` is the stage it went on from. What a started
entry has done so far stands in the entry, and VPROG takes it when the queue is parked (R188). An entry that faults while
a pre-emption request waits for it, with no interrupt before the request, is left to be parked and does not start again before;
its replay faults again (R293, R304). -/
def PRes.headStage (r : PRes) (e : QEntry) (h : Nat) : Drive :=
  let tidy (t : State) : State := match e.stage with
    | .waiting => t
    | _ => t.endHolds h
  match r with
  | .done t f v => .ok ((tidy t).modHart h fun y => y.setHead fun q =>
      { q with stage := .performed f (v.map fun w => ((fieldsOfInstr e.instr).d.toNat, w)) })
  | .fault t f tr p pages => .ok (((tidy t).noteFault (t.faulter h) tr pages).modHart h fun y => (y.orFlags f).setHead fun q =>
      { q with part := p, stage := if e.stage = .outside ∧ y.preempt.isSome ∧ y.takesIrq ∧ !(t.irqPending h) then .parking else .faulted tr pages })
  | .part t f acc => .ok (t.modHart h fun y => ({ y.orFlags f with vprog := {} }).setHead fun q =>
      { q with acc := acc, prog := y.vprog, stage := .started })
  | .held t prog => .ok (t.modHart h fun y => y.setHead fun q => { q with prog := prog, stage := .outside })
  | .wait t => .ok t
  | .stop f => .stop f

/-- The hart's head entry stays as it is, to be parked by the pre-emption request that waits (R304). -/
def Hart.headParking (x : Hart) (e : QEntry) : Bool := e.stage == .parking && x.preempt.isSome && x.takesIrq

/-- The head entry performed, where it may be: entries reinstated by VQREPLAY wait for ERET (R301). `limit` bounds the
steps of a data-dependent entry. -/
def State.performHead (s : State) (h : Nat) (limit : Option Nat) : Drive :=
  let x := s.hart h
  match x.queue with
  | [] => .ok s
  | e :: _ =>
    if x.replaying || x.headParking e then .ok s
    else match e.stage with
      | .waiting | .parking => (performInstr limit e h s).headStage e h
      | .started | .outside =>
        (performInstr limit e h (s.modHart h fun y => { y with vprog := e.prog })).headStage e h
      | _ => .ok s

/-- A strip is done (R316). -/
def State.stripDone (s : State) (h : Nat) : State :=
  let x := s.hart h
  match x.strips, x.task with
  | p :: r, some k =>
    (s.modHart h fun x => { x with strips := r }).modTask k fun t => { t with out := t.out.erase (x.die, p.1, p.2) }
  | _, _ => s

/-- An END marker completes: the strip it closes is done, and after a final END the hart is unbound for good (R316,
R323). -/
def State.endDone (s : State) (h : Nat) : State :=
  let s1 := s.stripDone h
  if (s.hart h).ending && (s.hart h).queue.isEmpty then s1.endHart h else s1

/-- The head entry completes, if it is performed (R96, R98, R99, R106, R155). -/
def State.completeHead (s : State) (h : Nat) : State :=
  let x := s.hart h
  match x.queue with
  | [] => s
  | e :: r => match e.stage with
    | .performed f v =>
      let y := { x with
        queue := r, vcp := x.vcp + BitVec.ofNat 16 e.size, vstart := 0
        fmask := if e.part && usesFmask e.instr then 0 else x.fmask }
      let z := y.orFlags f
      let s1 := s.setHart h (match v with
        | some (d, w) => z.varResult d w
        | none => z)
      (match e.instr with
        | .endI _ => s1.endDone h
        | _ => s1)
    | _ => s

/-- The least element of a list by a measure, the first of those where several have it. -/
def leastBy (f : Nat → Nat) (l : List Nat) : Option Nat :=
  l.foldl (fun b k => match b with
    | none => some k
    | some j => if f k < f j then some k else some j) none

/-- The hart's head entry, if a unit may take it or go on with it; `done` counts one that is only to complete. -/
def Hart.readyHead (x : Hart) (done : Bool) : Option QEntry :=
  if x.replaying then none
  else match x.queue with
    | [] => none
    | e :: _ => match e.stage with
      | .waiting | .started | .outside => some e
      | .parking => if x.headParking e then none else some e
      | .performed _ _ => if done then some e else none
      | .faulted _ _ => none

/-- The hart has started a fibre instruction, which the fibre pipe holds (R191). -/
def Hart.onFibrePipe (x : Hart) : Bool :=
  match x.queue with
  | e :: _ => e.stage == .started && groupOf e.instr == 6
  | [] => false

/-- The harts of a core whose head entries the vector unit may take now: `me` is the hart that the work is done for, and
`stuck` those whose heads cannot go on. The fibre pipe is held by a started entry, one of a stopped hart too (R191, R287,
R309). -/
def State.readyHarts (s : State) (core : Nat) (me : Option Nat) (stuck : List Nat) : List Nat :=
  let here (k : Nat) : Bool := (s.hart k).coreNo == core && (some k == me || ((s.hart k).bound && !(s.hart k).stopped))
  (List.range s.harts.length).filter fun k => here k && !stuck.contains k && match (s.hart k).readyHead me.isSome with
    | none => false
    | some e => groupOf e.instr != 6 || e.stage == .started ||
        !((List.range s.harts.length).any fun j => j != k && (s.hart j).coreNo == core && (s.hart j).onFibrePipe)

/-- The push order of a hart's head entry. -/
def Hart.headOrder (x : Hart) : Nat :=
  match x.queue with
  | e :: _ => e.order
  | [] => 0

/-- A hart's head entry waits to start. -/
def Hart.headWaits (x : Hart) : Bool :=
  match x.queue with
  | e :: _ => e.stage == .waiting
  | [] => false

/-- The positions that a hart's head entry takes in its queue (R99). -/
def Hart.headSize (x : Hart) : Nat :=
  match x.queue with
  | e :: _ => e.size
  | [] => 0

/-- A vector fault waits at the head of a hart's queue. -/
def Hart.headFaulted (x : Hart) : Bool :=
  match x.queue with
  | e :: _ => match e.stage with
    | .faulted _ _ => true
    | _ => false
  | [] => false

/-- The charge estimated for a hart's head entry, where it is a matrix instruction (R211). -/
def State.headEstimate (s : State) (h : Nat) : Option Nat :=
  match (s.hart h).queue with
  | e :: _ => s.estimate h e (fieldsOfInstr e.instr)
  | [] => none

/-- The low-water mark of a budget counter (R400). -/
def lowWater : Nat := 8192

/-- The hart whose head entry the vector unit of a core takes next, of those ready: the oldest, but none that would make more
than 8 entries in a row, continuation entries among them (R99), while another is ready; a matrix engine below its low-water mark takes the lowest estimate (R211, R287). -/
def State.chooseHart (s : State) (core : Nat) (ready : List Nat) : Option Nat :=
  let c := s.core core
  let others := ready.filter fun k =>
    some k != c.vuLast || !(s.hart k).headWaits || decide (c.vuRun + (s.hart k).headSize ≤ 8)
  let l := if others.isEmpty then ready else others
  let order (k : Nat) : Nat := (s.hart k).headOrder
  (leastBy order l).bind fun k =>
    if c.level < lowWater && (s.headEstimate k).isSome then
      leastBy (fun j => (s.headEstimate j).getD 0 * (s.order + 1) + order j) (l.filter fun j => (s.headEstimate j).isSome)
    else some k

/-- The hart whose head entry the vector unit of a core takes or goes on with. -/
def State.pickEntry (s : State) (core : Nat) (me : Option Nat) (stuck : List Nat) : Option Nat :=
  s.chooseHart core (s.readyHarts core me stuck)

/-- Hart h's head entry is taken: the run of entries of one hart is counted while others are ready, and an entry taken while
none is ends it (R287). -/
def State.noteTaken (s : State) (core h : Nat) (me : Option Nat) (stuck : List Nat) : State :=
  if !(s.hart h).headWaits then s
  else if (s.readyHarts core me stuck).length ≤ 1 then
    if (s.core core).vuRun = 0 then s else s.modCore core fun c => { c with vuRun := 0 }
  else s.modCore core fun c => { c with vuLast := some h, vuRun := (if c.vuLast = some h then c.vuRun else 0) + (s.hart h).headSize }

/-- The vector unit of hart h's core works, oldest entries first, until at most n positions of h's queue are occupied, or
until its head cannot go on (R287). -/
def drainFrom (h n : Nat) : Nat → List Nat → State → Drive
  | 0, _, s => .ok s
  | fuel + 1, stuck, s =>
    if (s.hart h).queue.isEmpty ∨ (s.hart h).occupancy ≤ n then .ok s
    else
      let core := (s.hart h).coreNo
      match s.pickEntry core (some h) stuck with
      | none => .ok s
      | some k => ((s.noteTaken core k (some h) stuck).performHead k none).bind fun t =>
        let u := t.completeHead k
        if (u.hart k).queue.length < (s.hart k).queue.length then drainFrom h n fuel stuck u
        else if k = h then .ok u
        else drainFrom h n fuel (k :: stuck) u

/-- The vector unit works for a hart until at most n positions of its queue are occupied. -/
def drainQ (h n fuel : Nat) (s : State) : Drive := drainFrom h n fuel [] s

/-- More entries, and harts that cannot go on, than the queues of a core hold. -/
def drainFuel : Nat := 521

/-- Every entry of the queue performed and completed, as far as they go. -/
def State.drainAll (s : State) (h : Nat) : Drive := drainQ h 0 drainFuel s

/-- A data-dependent entry in progress stops where it stands: VPROG takes its progress and its PART is set (R188, R291
step 1). -/
def Hart.stopStarted (x : Hart) : Hart :=
  match x.queue with
  | [] => x
  | e :: r => match e.stage with
    | .started | .outside => if e.prog.v then { x with vprog := e.prog, queue := { e with part := true } :: r } else x
    | _ => x

/-- A data-dependent fibre instruction in progress stops at a step boundary, and the fibre pipe is free of it; it goes on from
VPROG (R188, R189, R191). -/
def Hart.leavePipe (x : Hart) : Hart :=
  if x.onFibrePipe then x.stopStarted.setHead fun e => { e with stage := .waiting } else x

/-- The queue parked: the entries stand in the saved slots, the live queue is empty, and VFRZ is set (R291 steps 2 to
4). -/
def Hart.park (x : Hart) : Hart :=
  let y := x.stopStarted
  { y with
    saved := saveSlots y.queue y.vcp.toNat [], queue := [], vcp := y.vqtail
    tstatus := { y.tstatus with vfrz := true } }

/-- TINFO with NQ (R291 step 5). -/
def withNq (t : Trap) (nq : Nat) : Trap := { t with tinfo := (t.tinfo &&& 0x0000000FFFFFFFFF#64) ||| BitVec.ofNat 64 (nq * 2 ^ 40) }

/-- An entry writes one of g v registers from n on: what a probe must not depend on (R296). -/
def QEntry.writesVec (e : QEntry) (n g : Nat) : Bool :=
  let sh := shape e.instr
  let store := match e.instr with
    | .vst _ | .vsts _ | .vstx _ | .vstf _ | .vstp _ | .vstc _ | .toksend _ => true
    | .vamo o => o.f.getLsbD 4
    | _ => false
  (sh.d == .vector && !store && overlaps e.vd e.destRegs n g) ||
    match e.instr with
    | .vldf _ => overlaps e.vb 1 n g
    | .vfqnt o => !o.f.getLsbD 0 && overlaps e.vb 1 n g
    | _ => false

def QEntry.writesMask (e : QEntry) (n g : Nat) : Bool :=
  (shape e.instr).d == .mask && overlaps (fieldsOfInstr e.instr).d.toNat e.vt.maskRegs n g

/-- What a probe tests at an address: the kind of access, the address, and the fault of a format record that R220 finds behind
the checks of its page (R228). -/
abbrev ProbeAt := Access × Word × Option Trap

/-- The probes of element i of VLDF or VSTF: the page of its block's first element where that fails, its own address with the
format record of its block, and the address of its scale (R220, R242, R296). -/
def probeBlock (s : State) (w : Who) (store : Bool) (wc i : Nat) : List ProbeAt :=
  let acc := if store then Access.store else .load
  let a := w.base + BitVec.ofNat 64 i
  let x0 := w.base + BitVec.ofNat 64 (i / blockSize wc * blockSize wc)
  let record (t : Trap) : Option Trap := if t.cause = causeFORMAT_REC ∧ !t.tinfo.getLsbD 7 then some t else none
  match blockInfo s w store wc x0 with
  | .ok s1 r _ frec => [(acc, a, (scaleTrap s1 w store x0 r frec).bind record), (acc, r.scaleAddr x0.toNat, none)]
  | .fail t => [(acc, x0, none), (acc, a, record t)]
  | .held _ => [(acc, a, none)]

/-- The addresses an entry would access, with the kind of access, where R296 probes it. -/
def probeAddrs (s : State) (h : Nat) (e : QEntry) : List ProbeAt :=
  let x := { s.hart h with vstart := 0 }
  let o := fieldsOfInstr e.instr
  let act := (List.range e.vl).filter fun i => activeAt e o x i
  let dense (acc : Access) (f : Nat → Word) : List ProbeAt := if lmBit o then [] else act.map fun i => (acc, f i, none)
  match e.instr with
  | .vld _ => dense .load (unitAddr e o)
  | .vst _ => dense .store (unitAddr e o)
  | .vlds _ => dense .load (strideAddr e o)
  | .vsts _ => dense .store (strideAddr e o)
  | .vldx _ => dense .load (indexAddr e o x)
  | .vstx _ => dense .store (indexAddr e o x)
  | .vldf _ => act.flatMap (probeBlock s (entryWho s h e o) false o.w.toNat)
  | .vstf _ => act.flatMap (probeBlock s (entryWho s h e o) true o.w.toNat)
  | .vamo _ => if o.f.getLsbD 5 then [] else dense .store (vamoAddr e x)
  | _ => []

/-- The entry reads its index group, or its mask, from registers that an earlier parked entry writes (R296). -/
def probeBlocked (before : List QEntry) (e : QEntry) : Bool :=
  let o := fieldsOfInstr e.instr
  let indexed := match e.instr with
    | .vldx _ | .vstx _ | .vamo _ => true
    | _ => false
  before.any fun b =>
    (indexed && b.writesVec e.vb e.vt.regs) || (o.mskE && b.writesMask o.mskM.toNat e.vt.maskRegs)

/-- The pages with one more probe recorded (R104, R296). -/
def probeOne (s : State) (h : Nat) (prv : Bool) (pages : List FaultPage) (p : ProbeAt) : List FaultPage :=
  let note (c : BitVec 8) (a : Word) : List FaultPage :=
    let gran := a.extractLsb' 12 36
    if 16 ≤ pages.length ∨ pages.any fun q => q.gran == gran then pages else pages ++ [⟨c, decide (p.1 = .store), gran⟩]
  if 2 ^ 48 ≤ p.2.1.toNat then note (if p.1 = .store then causeSTORE_PAGE else causeLOAD_PAGE) p.2.1
  else match s.probe (s.hart h).asn prv p.1 p.2.1.toNat, p.2.2 with
    | some (c, _), _ => note c p.2.1
    | none, some t => note t.cause t.taddr
    | none, none => pages

/-- The probes over the parked entries behind the faulting one: the next 8 of groups 0x8 and 0x9 (R296). -/
def probeEntries (s : State) (h : Nat) : Nat → List QEntry → List QEntry → List FaultPage → List FaultPage
  | _, _, [], pages => pages
  | 0, _, _, pages => pages
  | n + 1, before, e :: r, pages =>
    if isMemoryEntry e.instr then
      probeEntries s h n (before ++ [e]) r
        (if probeBlocked before e then pages else (probeAddrs s h e).foldl (probeOne s h e.prv) pages)
    else probeEntries s h (n + 1) (before ++ [e]) r pages

/-- The pages of a vector fault: those of the faulting entry, then those probed (R296). A fault without a granule of its own,
in lane memory or at a stream register, takes no part (R201, log 49). -/
def State.batchPages (s : State) (h : Nat) (t : Trap) (pages : List FaultPage) : List FaultPage :=
  if batchCause t.cause && !pages.isEmpty then probeEntries s h 8 [] (s.hart h).queue.tail pages else []

/-- The hart stops at a queue fault, and its task fails (R295). -/
def State.queueFaultNow (s : State) (h : Nat) : State :=
  let x := s.hart h
  let s1 := s.countCore x.coreNo 0x0F 1
  match x.task with
  | some k => (s1.stopHart h true).failTask k 3
  | none => s1.stopHart h true

/-- The fault of the head entry acted on: a queue fault, a fault held until the handler of a scalar-raised trap touches
the queue, or the trap of the entry with TPC at the hart's next instruction (R290 to R296). -/
def State.takeVectorFault (s : State) (h : Nat) : State :=
  let x := s.hart h
  match x.queue with
  | [] => s
  | e :: _ => match e.stage with
    | .faulted t pages =>
      if e.frz then s.queueFaultNow h
      else
        let all := s.batchPages h t pages
        let nq := x.occupancy
        let y := x.park
        if e.depth < x.depth then s.setHart h { y with heldTrap := some ⟨x.vcp, nq, t, all⟩ }
        else (s.setHart h (y.freezingTrap (withNq t nq) x.pc x.vcp true all)).countCore x.coreNo 0x10 1
    | _ => s

/-- A held vector fault taken at the hart's present instruction (R294). -/
def State.takeHeld (s : State) (h : Nat) : State :=
  let x := s.hart h
  match x.heldTrap with
  | none => s
  | some k =>
    (s.setHart h { x.freezingTrap (withNq k.trap k.nq) x.pc k.pos true k.pages with heldTrap := none }).countCore x.coreNo 0x10 1

/-- A performed entry completes before the queue is parked (R291 step 1). -/
def State.finishStarted (s : State) (h : Nat) : State := s.completeHead h

/-- A stopped hart of a task that fails goes on with its started entry, and stops for good once that has completed or
faulted (R309). -/
def State.finishHalted (s : State) (h : Nat) : Drive :=
  if !(s.hart h).stopped || (s.hart h).queue.isEmpty then .ok s
  else (s.performHead h none).bind fun t =>
    let u := t.completeHead h
    let fin := (u.hart h).queue.isEmpty || (u.hart h).headFaulted
    .ok (if fin then (u.modHart h fun y => { y with queue := [], vcp := y.vqtail }).stopHart h true else u)

/-- Task k, which fails, goes on with the started entries of its harts, and ends once all of them have stopped (R309). -/
def State.failStep (s : State) (k : Nat) : Drive :=
  (((List.range s.harts.length).filter fun h => (s.hart h).task == some k).foldl
    (fun (d : Drive) h => d.bind fun t => t.finishHalted h) (.ok s)).bind fun t => .ok (t.failDone k)

/-- INTERRUPT and PREEMPT wait: the head entry has faulted, and its trap goes first, or it is held outside the core and
completes or faults first (R291, R293, R304). -/
def Hart.headBusy (x : Hart) : Bool :=
  match x.queue with
  | e :: _ => match e.stage with
    | .faulted _ _ | .outside => true
    | _ => false
  | [] => false

/-- INTERRUPT or PREEMPT taken at a boundary: the queue is parked and the handler entered (R291, R292). -/
def State.freeze (s0 : State) (h : Nat) (t : Trap) : State :=
  let s := s0.finishStarted h
  let x := s.hart h
  let y := x.landAll.park
  (s.setHart h (y.freezingTrap (withNq t x.occupancy) x.pc x.vcp false [])).countCore x.coreNo 0x10 1

/-- An entry for an instruction, with its captures and resolved registers (R287). -/
def newEntry (x : Hart) (i : Instr) (o : Fields) (caps : List Word) (order : Nat) : QEntry :=
  { instr := i, caps := caps, vd := resolveVec x o.d, va := resolveVec x o.a, vb := resolveVec x o.b, vl := x.vlPush
    vt := x.vtPush, rm := x.fcsr.rm, size := max 1 caps.length, prv := x.sup, depth := x.depth, frz := x.tstatus.vfrz
    order := order }

/-- A push (R287). -/
def State.pushEntry (s : State) (h : Nat) (e : QEntry) : State :=
  let s1 := { s with order := s.order + 1 }
  (s1.modHart h fun x => { x with queue := x.queue ++ [e], vqtail := x.vqtail + BitVec.ofNat 16 e.size }).countCore
    (s.hart h).coreNo 0x03 e.size

/-- A push of n positions must wait: there is no room, or the queue holds entries of the other privilege (R287). -/
def Hart.pushWaits (x : Hart) (n : Nat) : Bool := decide (64 < x.occupancy + n) || x.queue.any fun e => e.prv != x.sup

end Sys2Proof.Machine
end

