-- ==== Sys2Proof/Machine/Issue.lean ====
section
/-! DEFINITION. Sys2Proof/Machine/Issue.lean: what surrounds the effect of every instruction that a hart issues: privilege, guard,
interlocks, the stall check, held faults, pushes, trap entry, and the distance it adds (R53, R55, R62 to R68, R111, R287 to
R294, R301). -/

namespace Sys2Proof.Machine

abbrev Out := Host.Outcome State Fault Refusal


/-- STALL_CHECK (R67). -/
def trapStall (pred : Bool) (n : Nat) : Trap := ⟨causeSTALL_CHECK, BitVec.ofNat 64 (n + if pred then 256 else 0), 0, 0⟩

/-- An instruction that pushes queue entries (R287). -/
def pushes (i : Instr) : Bool :=
  match i.parts with
  | none => false
  | some (g, op, _) =>
    (3 ≤ g && g ≤ 7) || (g == 2 && (op == 5 || op == 10)) || (g == 8 && 2 ≤ op && op ≤ 11) || (g == 9 && 2 ≤ op) ||
      (g == 10 && [2, 3, 4, 5, 10, 11, 13, 16].contains op)

/-- An instruction of R288 that waits on the queue, the pushes apart. -/
def waitsOnQueue (i : Instr) (o : Fields) : Bool :=
  match i.parts with
  | none => false
  | some (g, op, _) =>
    (g == 2 && (op == 13 || ((op == 8 || op == 9) && msrQueue o))) || (g == 8 && (op ≤ 1 || 12 ≤ op)) || (g == 9 && op ≤ 1) ||
      (g == 10 && [0, 1, 6, 7, 9].contains op) || (g == 11 && op ≠ 3) || (g == 12 && op == 4)

/-- The instruction may run only at supervisor privilege (R63, R93). -/
def needsSupervisor (i : Instr) (o : Fields) : Bool :=
  supervisorOnly i ||
    match i with
    | .mfs _ | .mts _ => msrSupervisor o
    | _ => false

/-- The scalar register that a join writes when its entry completes (R155); SETVL writes its own at issue (R131). -/
def QEntry.joinDest (e : QEntry) : Option Nat :=
  match e.instr with
  | .setvl _ => none
  | i => if (shape i).d = .scalar ∧ pushes i then some (fieldsOfInstr i).d.toNat else none

/-- The scalar registers that joins still in the queue will write. -/
def Hart.joinDests (x : Hart) : List Nat := x.queue.filterMap QEntry.joinDest

/-- The scalar registers that the joins of the parked block will write. -/
def Hart.savedJoins (x : Hart) : List Nat :=
  x.saved.filterMap fun p => match p.2 with
    | .head e => e.joinDest
    | .cont => none

/-- The registers of indirect vector operands (R53). -/
def indirects (i : Instr) (o : Fields) : List Nat :=
  let sh := shape i
  let one (c : Opnd) (f : BitVec 8) : List Nat := if c = .vector ∧ 128 ≤ f.toNat then [f.toNat - 128] else []
  one sh.d o.d ++ one sh.a o.a ++ if o.i then [] else one sh.b o.b

/-- The instruction reads or writes one of some scalar registers that joins will write. -/
def awaits (l : List Nat) (i : Instr) (o : Fields) : Bool :=
  (scalarReads i o ++ scalarWrites i o ++ indirects i o).any fun n => n ≠ 0 && l.contains n

/-- The instruction must wait for a join's result (R66, R68, R155). -/
def Hart.interlocked (x : Hart) (i : Instr) (o : Fields) : Bool := !x.queue.isEmpty && awaits x.joinDests i o

/-- The instruction waits on the queue, pushes to it, or is ERET: a held vector fault goes before it (R288, R294). -/
def Hart.touchesQueue (x : Hart) (i : Instr) (o : Fields) : Bool :=
  pushes i || waitsOnQueue i o || awaits x.savedJoins i o || match i with
    | .eret _ => true
    | _ => false

/-- The first source whose distance is too short under CSB = 1 (R67). DESIGN CHOICE (log 49): of several, the guard is
reported first, then the scalars in the order they are read, then the predicates. -/
def Hart.stallTrap (x : Hart) (i : Instr) (o : Fields) : Option Trap :=
  if !x.tstatus.csb then none
  else match (scalarReads i o).find? fun n => x.tooEarly false n with
    | some n => some (trapStall false n)
    | none => ((predReads i o).find? fun n => x.tooEarly true n).map (trapStall true)

/-- Where the image holds the special register of an index, if it does (R93, R107). -/
def specialOffset (idx : Nat) : Option Nat :=
  if idx ≤ 0x002 then some (0x220 + 8 * idx)
  else if idx = 0x003 then some 0xE88
  else if 0x004 ≤ idx ∧ idx ≤ 0x006 then some (0x238 + 8 * (idx - 4))
  else if idx = 0x007 then some 0xE80
  else if idx = 0x011 then some 0x250
  else if idx = 0x013 ∨ idx = 0x014 then some (0x258 + 8 * (idx - 0x013))
  else if 0x020 ≤ idx ∧ idx ≤ 0x025 then some (0x268 + 8 * (idx - 0x020))
  else if idx = 0x026 then some 0x2D0
  else if idx = 0x027 then some 0x298
  else if 0x028 ≤ idx ∧ idx ≤ 0x02B then some (0x2A0 + 8 * (idx - 0x028))
  else if idx = 0x030 then some 0x2C8
  else if 0x040 ≤ idx ∧ idx ≤ 0x04F then some (0x300 + 8 * (idx - 0x040))
  else if idx = 0x050 then some 0x2C0
  else none

/-- The lines of the image that hold the special registers an instruction reads at issue (R111). -/
def specialReads (i : Instr) (o : Fields) : List Nat :=
  match i with
  | .mfs _ => ((specialOffset (msrIndex o)).map (· / 128)).toList
  | .eret _ => [4, 5]
  | .tfence _ => [4]
  | .fadd _ | .fsub _ | .fmul _ | .fdiv _ | .fsqrt _ | .ffma _ | .fcvt _ => if fN o % 8 = 5 then [4] else []
  | .qrd _ | .fldq _ | .toksend _ => [4]
  | _ => if pushes i && [3, 4, 5, 6, 8, 9].contains (groupOf i) then [4] else []

/-- DATA_POISON of a register read (R111): scalars stand in lines 0 to 3, predicates in line 4, and there too the VL, the
VTYPE and the FCSR.RM that a pushed instruction runs under. -/
def Hart.poisonTrap (x : Hart) (i : Instr) (o : Fields) : Option Trap :=
  if x.rsPoison.isEmpty then none
  else x.poisonedLine (((scalarReads i o ++ indirects i o).filter (· ≠ 0)).map (· / 16) ++ ((predReads i o).filter (· ≠ 15)).map (fun _ => 4) ++
    specialReads i o)

/-- The bytes of the image that the scalar unit writes in full, as offsets and lengths (R107, R111). -/
def scalarBytes (i : Instr) (o : Fields) : List (Nat × Nat) :=
  ((scalarWrites i o).filter (· ≠ 0)).map (fun n => (8 * n, 8)) ++
    match i with
    | .mts _ => ((specialOffset (msrIndex o)).map fun a => (a, 8)).toList
    | .pmovAll _ => [(0x200, 8)]
    | _ => []

/-- What the guard predicate allows: a trap at its read, the instruction, or nothing of it (R55, R67). -/
inductive Guard where
  | run | skip
  | trap (t : Trap)
  deriving DecidableEq, Repr

def Hart.guard (x : Hart) (o : Fields) : Guard :=
  let n := o.gp.toNat
  if n ≠ 15 ∧ x.tstatus.csb ∧ x.tooEarly true n then .trap (trapStall true n)
  else match (if n = 15 then none else x.poisonedLine [4]) with
    | some t => .trap t
    | none => if x.pred n != o.gn then .run else .skip

/-- An instruction of the scalar unit is counted as issued at its core; one that pushes is not (R401). -/
def State.countIssue (s : State) (core : Nat) (i : Instr) : State := s.countCore core 0x02 (if pushes i then 0 else 1)

/-- The instruction has issued with its guard 0: its distance passes, and the counters add it (R55, R65, R401). -/
def State.passed (s : State) (h : Nat) (i : Instr) (o : Fields) : State :=
  (s.modHart h fun x => x.pass (1 + o.stall.toNat)).countIssue (s.hart h).coreNo i

/-- The instruction has issued: its distance passes, the registers it writes in full lose their poison, and the counters add
it (R65, R111, R401). -/
def State.issued (s : State) (h : Nat) (i : Instr) (o : Fields) : State :=
  let s1 := s.modHart h fun x =>
    let y := x.pass (1 + o.stall.toNat)
    (if x.rsPoison.isEmpty then y else (scalarBytes i o).foldl (fun y p => y.cleanBytes p.1 p.2) y)
  s1.countIssue (s.hart h).coreNo i

/-- A trap of the scalar unit taken (R289): the instruction no longer waits at a home. -/
def State.takeTrap (s : State) (h : Nat) (t : Trap) (tpc : BitVec 48) : State :=
  (((s.endHolds h).noteFault (s.faulter h) t []).modHart h fun x => x.scalarTrap t tpc).countCore (s.hart h).coreNo 0x10 1

/-- A vector fault that waits at the head of the queue is taken at the boundary (R290, R293). -/
def State.settle (s : State) (h : Nat) : State :=
  match (s.hart h).queue with
  | e :: _ => match e.stage with
    | .faulted _ _ => s.takeVectorFault h
    | _ => s
  | [] => s

/-- The hart stands at an instruction again, held or not; a vector fault that waits is taken there. -/
def State.backTo (s : State) (h : Nat) (pc : BitVec 48) (held : Bool) : State :=
  (s.modHart h fun x => { x with pc := pc, held := held || x.held }).settle h

/-- The results of joins in the queue are outstanding. Those that VQREPLAY has reinstated start only after ERET (R301). -/
def Hart.joinsOut (x : Hart) : Bool := !x.replaying && !x.joinDests.isEmpty

/-- The entry to the handler of a scalar-raised trap of the instruction at `pc`: it waits until the joins in the queue have
written their results (R68), and a vector fault that has arisen goes before it (R293). -/
def State.raise (s : State) (h : Nat) (pc : BitVec 48) (enter : State → State) : Out :=
  let go (t : State) : Out := .next (if (t.hart h).headFaulted then t.backTo h pc false else enter t)
  if (s.hart h).joinsOut then
    match s.drainAll h with
    | .stop f => .fault f
    | .ok t => if (t.hart h).joinsOut && !(t.hart h).headFaulted then .next (t.backTo h pc true) else go t
  else go s

/-- The end of an issue turn: the hart was at `pc` when it issued. -/
def finish (h : Nat) (i : Instr) (o : Fields) (pc : BitVec 48) (r : Res) : Out :=
  match r with
  | .ok s => .next ((s.issued h i o).settle h)
  | .trap s t => s.raise h pc fun u => u.takeTrap h t pc
  | .trapNext s t => s.raise h pc fun u => (u.issued h i o).takeTrap h t (nextPc pc)
  | .hold s => .next (s.backTo h pc true)
  | .stop f => .fault f

/-- The checks between the guard and the effect: interlocks, a held vector fault, the stall check, and register poison. -/
def sources (h : Nat) (i : Instr) (o : Fields) (body : State → Res) (s : State) : Res :=
  let x := s.hart h
  if x.replaying && (pushes i || waitsOnQueue i o || x.interlocked i o) then .trap s (trapIllegal 6 false)
  else
    let wait : Drive := if x.interlocked i o then s.drainAll h else .ok s
    match wait with
    | .stop f => .stop f
    | .ok t =>
      let y := t.hart h
      if y.interlocked i o then .hold t
      else match y.stallTrap i o with
        | some k => .trap t k
        | none => match y.poisonTrap i o with
          | some k => .trap t k
          | none => body t

/-- An instruction issued by hart `s.cur` (R62, R63, R55). `body` runs with the PC at the next instruction. -/
def issue (i : Instr) (o : Fields) (body : State → Res) (s : State) : Out :=
  let h := s.cur
  let x := s.hart h
  let s1 := s.setHart h { x with pc := nextPc x.pc, held := false, heldPush := false, waiting := false }
  if needsSupervisor i o && !x.sup then finish h i o x.pc (.trap s1 trapPriv)
  else
    let due := x.heldTrap.isSome && x.touchesQueue i o
    match x.guard o with
    | .trap t => if due then .next (s.takeHeld h) else finish h i o x.pc (.trap s1 t)
    | .skip => .next ((s1.passed h i o).settle h)
    | .run => if due then .next (s.takeHeld h) else finish h i o x.pc (sources h i o body s1)

/-- An instruction whose effect is on the hart's own scalar state alone. -/
def scalarIssue (i : Instr) (o : Fields) (f : Hart → Hart) (s : State) : Out :=
  issue i o (fun t => .ok (t.modHart t.cur f)) s

/-- The positions of a queue behind the last of its entries that are waited for; `blocks` sees an entry and those behind
it. -/
def behindLast (blocks : QEntry → List QEntry → Bool) : List QEntry → Option Nat
  | [] => none
  | e :: r => match behindLast blocks r with
    | some n => some n
    | none => if blocks e r then some (r.map QEntry.size).sum else none

/-- A wait of the scalar unit until no entry of the queue is one that it waits for (R288). -/
def State.waitUntil (s : State) (h : Nat) (blocks : State → QEntry → List QEntry → Bool) (go : State → Res) : Res :=
  match behindLast (blocks s) (s.hart h).queue with
  | none => go s
  | some n => match drainQ h n drainFuel s with
    | .stop f => .stop f
    | .ok t => if (behindLast (blocks t) (t.hart h).queue).isSome then .hold t else go t

/-- A wait of the scalar unit for the whole queue (R288). -/
def State.waitQueue (s : State) (h : Nat) (go : State → Res) : Res := s.waitUntil h (fun _ _ _ => true) go

/-- Bytes that an access may touch: in lane memory or not, an address and a length; a length of 2^64 is every address. -/
structure Span where
  lane : Bool
  base : Word
  len : Nat
  deriving DecidableEq, Repr

/-- Every address, in lane memory or not. -/
def everywhere (lane : Bool) : Span := ⟨lane, 0, 2 ^ 64⟩

/-- The line that contains an address. -/
def lineSpan (a : Word) : Span := ⟨false, BitVec.ofNat 64 (a.toNat / 128 * 128), 128⟩

/-- Two spans have a byte in common: an address range holds the addresses from its base on, modulo 2^64. -/
def Span.meets (a b : Span) : Bool :=
  a.lane == b.lane && decide (0 < a.len) && decide (0 < b.len) &&
    (decide ((b.base - a.base).toNat < a.len) || decide ((a.base - b.base).toNat < b.len))

/-- The span of a strided access of n elements of b bytes (R240). -/
def strideSpan (lane : Bool) (base stride : Word) (n b : Nat) : Span :=
  let reach := (n - 1) * stride.toInt.natAbs
  let base1 := if stride.toInt < 0 then base - BitVec.ofNat 64 reach else base
  ⟨lane, base1, if n = 0 then 0 else min (2 ^ 64) (reach + b)⟩

/-- What a queued entry may touch, by address range; indexed, peer, coordinate and fibre-walk instructions touch every
address, and so do those whose scales, stream elements or rows stand elsewhere (R201, R238, R284). -/
def QEntry.touches (e : QEntry) : List Span :=
  let o := fieldsOfInstr e.instr
  let b := e.vt.bits / 8
  let lm := lmBit o
  match e.instr with
  | .vld _ | .vst _ => [⟨lm, baseOf e o, e.vl * b⟩]
  | .vlds _ | .vsts _ => [strideSpan lm (baseOf e o) (e.cap 1) e.vl b]
  | .vldx _ | .vstx _ | .vldp _ | .vstp _ | .vldc _ | .vstc _ | .vamoc _ | .fwalk _ => [everywhere true, everywhere false]
  | .vamo _ => [everywhere (lm || o.f.getLsbD 5)]
  | .mmag _ => [everywhere true]
  | .fld _ => [⟨lm, baseOf e o, 8 * min (e.cap 1).toNat 256⟩]
  | .fst _ => [⟨lm, baseOf e o, 2048⟩]
  | .qbind _ => [⟨false, baseOf e o, 128⟩]
  | .taskpub _ => [⟨false, e.cap 0, 128⟩]
  | .vldf _ | .vstf _ | .qrd _ | .fldq _ | .toksend _ => [everywhere false]
  | _ => []

/-- Two spans of global memory have a frame in common (R218): the accesses may be to the same bytes though their addresses
differ. A span of more than 2^24 bytes counts as meeting every other. -/
def State.sameFrame (s : State) (h : Nat) (a b : Span) : Bool :=
  let x := s.hart h
  let frames (c : Span) : List Nat := (List.range (c.len / 4096 + 2)).filterMap fun k =>
    match s.translate x.asn x.sup .load (c.base + BitVec.ofNat 64 (4096 * k)).toNat with
    | .ok _ pa _ => some (pa / 4096)
    | _ => none
  !a.lane && !b.lane && decide (0 < a.len) && decide (0 < b.len) &&
    (decide (2 ^ 24 < a.len) || decide (2 ^ 24 < b.len) || (frames a).any (frames b).contains)

/-- What a scalar access is to R264: a load, an access that stores, or neither. -/
inductive StripSide where
  | load | store | neither
  deriving DecidableEq, Repr

/-- The entry makes memory accesses (R263, R284). -/
def QEntry.accesses (e : QEntry) : Bool := !e.touches.isEmpty

/-- The entry makes memory accesses that load. -/
def QEntry.loads (e : QEntry) : Bool :=
  match e.instr with
  | .vst _ | .vsts _ | .vstx _ | .vstf _ | .vstp _ | .vstc _ | .fst _ | .toksend _ => false
  | _ => e.accesses

def QEntry.unperformed (e : QEntry) : Bool :=
  match e.stage with
  | .performed _ _ => false
  | _ => true

def QEntry.isVamo (e : QEntry) : Bool :=
  match e.instr with
  | .vamo _ | .vamoc _ => true
  | _ => false

/-- A SETVL stands in a queue: what is before it belongs to an earlier strip than what comes after it (R131, R263). DESIGN
CHOICE (log 51): END, YIELD and SLEEP, whose markers close the current strip (R323), begin no strip that R264 tells apart. -/
def closesStrip (l : List QEntry) : Bool :=
  l.any fun e => match e.instr with
    | .setvl _ => true
    | _ => false

/-- R264 orders a queued access before a scalar access of a later strip. -/
def QEntry.stripBefore (e : QEntry) (k : StripSide) : Bool :=
  match k with
  | .load => e.loads
  | .store => e.accesses
  | .neither => false

/-- A scalar memory instruction waits for a queued entry: for a VAMO until VCP has passed it, for an unperformed access to
bytes that it may touch, and for an unperformed access of an earlier strip that R264 orders before it (R238, R248, R267,
R288). `behind` stands behind the entry in the queue. -/
def State.mayTouch (s : State) (h : Nat) (k : StripSide) (l : List Span) (e : QEntry) (behind : List QEntry) : Bool :=
  e.isVamo || e.unperformed &&
    ((closesStrip behind && e.stripBefore k) || e.touches.any fun b => l.any fun a => a.meets b || s.sameFrame h a b)

/-- A wait for the queued memory accesses that go before the access of a scalar memory instruction. -/
def State.waitMemory (s : State) (h : Nat) (k : StripSide) (l : List Span) (go : State → Res) : Res :=
  s.waitUntil h (fun t => t.mayTouch h k l) go

/-- A wait for every earlier queued access to be performed (R248, R282, R288). -/
def State.waitAccesses (s : State) (h : Nat) (go : State → Res) : Res :=
  s.waitUntil h (fun _ e _ => e.accesses && e.unperformed) go

/-- A request of hart h for a hub's own work, and the reply (R271); during a resync it is held (R397). -/
def State.askHub (s : State) (h hub : Nat) (go : State → Res) : Res :=
  if s.resync then .hold s else go (s.exchange (s.hart h).die (24 + hub) (some (s.hart h).asn))

/-- ILLEGAL of check 13 with its VALUE (R62). -/
def State.ill13 (s : State) (p : PushIll) : Res :=
  let r := s.illegal 12 (p.value.map fun n => BitVec.ofNat 8 n) p.ind
  .trap r.2 r.1

/-- The push of an instruction's entries, once they have room, and the work the vector unit has done on the queue before
the scalar unit goes on (R287; log 4). -/
def pushBody (i : Instr) (o : Fields) (check : Fields → Hart → Option PushIll) (caps : Hart → List Word)
    (atIssue : State → State) (s : State) : Res :=
  let h := s.cur
  let x := s.hart h
  let n := max 1 (caps x).length
  let other := x.queue.any fun e => e.prv != x.sup
  let room : Drive := if x.pushWaits n then drainQ h (if other then 0 else 64 - n) drainFuel s else .ok s
  match room with
  | .stop f => .stop f
  | .ok t =>
    let y := t.hart h
    if y.pushWaits n then .hold (t.modHart h fun z => { z with heldPush := true })
    else match check o y with
      | some p => t.ill13 p
      | none =>
        let t1 := t.pushEntry h (newEntry y i o (caps y) t.order)
        match drainQ h t.lead drainFuel (atIssue t1) with
        | .stop f => .stop f
        | .ok u => .ok u

/-- An instruction that pushes one queue entry, with its push checks. -/
def vecIssue (i : Instr) (o : Fields) (check : Fields → Hart → Option PushIll) (s : State) : Out :=
  issue i o (pushBody i o check (captures i o) id) s

end Sys2Proof.Machine
end

