-- ==== Sys2Proof/Machine/Engines.lean ====
section
/-! DEFINITION. Sys2Proof/Machine/Engines.lean: copy and collective engines: acceptance, promises and tickets, the work on each
line, completion, and WAITT (R274, R331, R339 to R347). -/

namespace Sys2Proof.Machine

/-- A fault of an engine's access: cause, address and TINFO (R343). -/
abbrev EngFault := BitVec 8 × Word × Word

/-- One byte read by an engine: its value and whether it carries poison; or why not. An access that waits names the line or
page that it queues for, if it queues. -/
inductive EngRead where
  | ok (s : State) (b : Byte) (poison : Bool)
  | fault (f : EngFault)
  | wait (key : Option Nat)
  | stop
  deriving DecidableEq, Repr

/-- Where an engine's access goes: lane memory of a core, or global memory under an ASN and a privilege. -/
structure EngWho where
  asn : BitVec 16
  sup : Bool
  core : Nat
  lm : Bool
  deriving DecidableEq, Repr

/-- TINFO of an engine's record: the PROTECT reason and no other cause's detail (R343). -/
def engTinfo (lm dst : Bool) (reason : Nat) : Word := BitVec.ofNat 64 (lm.toNat + 2 * dst.toNat + 16 * reason)

/-- The record of a failed check of R220 (R343). -/
def engFault (dst : Bool) (c : BitVec 8) (a : Word) (reason : Nat) : EngFault :=
  (c, a, engTinfo false dst (if c = causePROTECT then reason else 0))

/-- The translation of an engine's access, behind those that wait for its page (R282, R362), by an engine whose ASN is not
tainted, outside a resync (R396, R397). -/
inductive EngPage where
  | ok (s : State) (pa : Nat) (pte : Word)
  | fault (f : EngFault)
  | wait (key : Option Nat)
  deriving DecidableEq, Repr

def State.engPage (s : State) (w : EngWho) (me : Nat) (dst : Bool) (a : Word) : EngPage :=
  if 2 ^ 48 ≤ a.toNat then .fault (if dst then causeSTORE_PAGE else causeLOAD_PAGE, a, engTinfo false dst 0)
  else match s.pageTurn me w.asn a.toNat with
  | some k => .wait (some k)
  | none => match s.translate w.asn w.sup (if dst then .store else .load) a.toNat with
    | .fault c r => .fault (engFault dst c a r)
    | .poison => .fault (causeDATA_POISON, a, engTinfo false dst 0)
    | .held k => .wait (some k)
    | .ok t pa pte => match lowestDie (t.taint w.asn) with
      | some d => .fault (causeDIE_LOST, a, BitVec.ofNat 64 (2 * dst.toNat + 256 * d))
      | none => if t.resync then .wait none else .ok (t.leavePage me w.asn a.toNat) pa pte

/-- The first read of a source line by an engine: its request, the home's probes and the reply (R271, R356, R417), once the
read is confirmed for every view block of the line; else the key under which it waits. -/
def State.engReach (s : State) (w : EngWho) (agent eng : Nat) (a : Word) (pa : Nat) (pte : Word) : Except Nat State :=
  let line := lineOf pa
  let hub := hubOf a.toNat
  (s.confirmLine agent pte line).map fun t =>
    let u := (t.unread (engPlace agent eng)).request agent hub line w.asn
    (u.moveDir (homeHub hub line) line ((passState (u.dirOf line)).getD (u.dirOf line))).reply agent hub line

/-- One source byte of an engine; `first` marks the first byte it reads of a line (R274, R343). -/
def State.engRead (s : State) (w : EngWho) (agent eng : Nat) (first : Bool) (a : Word) : EngRead :=
  if w.lm then
    let o := a.toNat % laneSize
    .ok s (memGet s.mem (laneBase w.core + o)) (s.lanePoisoned w.core o 1)
  else match s.engPage w (engPlace agent eng) false a with
    | .fault f => .fault f
    | .wait k => .wait k
    | .ok s1 pa pte =>
      if spaceOf pa = 3 then (match cfgPlace pa with
        | some (hub, off) => if cfgSup off && !w.sup then .fault (engFault false causePROTECT a 2)
          else .ok (s1.exchange agent (24 + hubOf a.toNat) (some w.asn)) (BitVec.ofNat 8 (s1.cfgRead hub off 1)) false
        | none => .stop)
      else
        let line := lineOf pa
        if s1.dirOf line != .g agent eng && (s1.homeWaits pa 1 || s1.waitsTurn (engPlace agent eng) line) then .wait (some line)
        else if spaceOf pa = 2 && !s1.reachable a.toNat pa then .fault (causeREMOTE_LOST, a, 0)
        else match if first then s1.engReach w agent eng a pa pte else .ok s1 with
          | .error k => .wait (some k)
          | .ok t => .ok t (memGet s1.mem pa) (s1.poisoned pa 1)

/-- How the work on one destination line ends. -/
inductive EngStep where
  | ok (s : State)
  | fault (f : EngFault)
  | wait (key : Option Nat)
  | stop
  deriving DecidableEq, Repr

/-- Bytes written to a lane memory, each 8-byte word with the poison of the bytes that fall in it (R231). -/
def State.engLane (s : State) (w : EngWho) (o : Nat) (bs : List (Byte × Bool)) : State :=
  let s1 := s.laneWrite w.core o (bs.map Prod.fst)
  let base := laneBase w.core + o
  let words := ((List.range bs.length).filter fun k => ((bs[k]?).map Prod.snd).getD false).map fun k => (base + k) / 8
  { s1 with lanePoison := s1.lanePoison ++ words.dedup.filter fun k => !s1.lanePoison.contains k }

/-- Bytes written by an engine in one destination line, with the poison they carry; the line is released (R231, R271, R274,
R276). -/
def State.engWrite (s : State) (w : EngWho) (agent eng : Nat) (a : Word) (bs : List (Byte × Bool)) : EngStep :=
  if w.lm then .ok (s.engLane w (a.toNat % laneSize) bs)
  else match s.engPage w (engPlace agent eng) true a with
    | .fault f => .fault f
    | .wait k => .wait k
    | .ok s1 pa _ =>
      let hub := hubOf a.toNat
      let line := lineOf pa
      let data := bs.map Prod.fst
      if spaceOf pa = 3 then (match cfgPlace pa with
        | some (h, off) => if cfgSup off && !w.sup then .fault (engFault true causePROTECT a 2)
          else .ok ((List.range data.length).foldl (fun t k => t.cfgWrite h (off + k) 1 ((data[k]?.getD 0).toNat))
            (s1.exchange agent (24 + hub) (some w.asn)))
        | none => .stop)
      else if !s1.canWriteMaster pa data.length then .wait (some line)
      else if s1.dirOf line != .g agent eng && (s1.homeWaits pa data.length || s1.waitsTurn (engPlace agent eng) line) then
        .wait (some line)
      else if spaceOf pa = 2 && !s1.reachable a.toNat pa then .fault (causeREMOTE_LOST, a, engTinfo false true 0)
      else
        let s2 := (((s1.request agent hub line w.asn).moveDir (homeHub hub line) line .i).useGot line).homeWrite pa data
        .ok ((if bs.any Prod.snd then (s2.setPoison line true).countHub (hubOfPa pa) 0x46 1 else s2).reply agent hub line)

/-- The bytes of destination positions lo .. lo + n - 1, from their sources in order, each with its poison. -/
def engGather (src : State → Nat → EngRead) : Nat → Nat → State → List (Byte × Bool) → EngRead × List (Byte × Bool)
  | 0, _, s, l => (.ok s 0 false, l)
  | n + 1, k, s, l => match src s k with
    | .ok t b p => engGather src n (k + 1) t (l ++ [(b, p)])
    | r => (r, l)

/-- An engine's access has been made: what the host gave for it is used, and it leaves the queues it waited in. -/
def State.engServed (s : State) (agent eng : Nat) : State :=
  let mine := s.holds.filter fun p => p.2 == engPlace agent eng
  let t := mine.foldl (fun t p => t.useGot p.1) s
  if mine.isEmpty then s.unread (engPlace agent eng)
  else ({ t with holds := s.holds.filter fun p => p.2 != engPlace agent eng } : State).unread (engPlace agent eng)

/-- One destination line of an operation: positions lo .. lo + n - 1, at address dst + lo. -/
def State.engLine (s : State) (w : EngWho) (agent eng dst lo n : Nat) (src : State → Nat → EngRead) : EngStep :=
  match engGather src n lo s [] with
  | (.ok t _ _, l) => match t.engWrite w agent eng (BitVec.ofNat 64 (dst + lo)) l with
    | .ok u => .ok (u.engServed agent eng)
    | r => r
  | (.fault f, _) => .fault f
  | (.wait k, _) => .wait k
  | (.stop, _) => .stop

/-- Positions lo and length of line k of a destination of `count` bytes at dst. -/
def linePart (dst count k : Nat) : Nat × Nat :=
  let a := max dst (128 * (dst / 128 + k))
  let b := min (dst + count) (128 * (dst / 128 + k + 1))
  (a - dst, b - a)

def lineCount (dst count : Nat) : Nat := if count = 0 then 0 else (dst + count + 127) / 128 - dst / 128

/-- The bytes that an operation writes, and its destination. -/
def EngOp.dest : EngOp → Nat × Nat
  | .copy _ _ _ _ _ dst _ count => (dst, count)
  | .gather _ _ _ _ dst _ _ rb rows np => (dst, rb * rows * np)
  | .coll _ _ _ op w _ dst _ count n _ => (dst, (if op = 2 then n * count else count) * typeBytes w)
  | .mig .. => (0, 0)
  | .record .. => (0, 0)
  | .abandoned => (0, 0)

/-- The source of position j of a copy or a gather (R341, R342), for a destination line whose first position is lo. -/
def engSource (agent eng : Nat) (op : EngOp) (lo : Nat) (s : State) (j : Nat) : EngRead :=
  let first (a : Word) : Bool := decide (j = lo) || decide (a.toNat % 128 = 0)
  match op with
  | .copy asn sup core _ slm _ src _ =>
    let a := BitVec.ofNat 64 (src + j)
    s.engRead ⟨asn, sup, core, slm⟩ agent eng (first a) a
  | .gather asn sup core _ _ list stride rb rows _ =>
    let w : EngWho := ⟨asn, sup, core, false⟩
    let row := j / rb
    let new := decide (j = lo) || decide (j % rb = 0)
    let at_ := list + 8 * (row / rows)
    match engGather (fun s k => s.engRead w agent eng (new && decide (k = at_)) (BitVec.ofNat 64 k)) 8 at_ s [] with
    | (.ok t _ _, l) =>
      let a := BitVec.ofNat 64 (leNat (l.map Prod.fst)) + BitVec.ofInt 64 ((row % rows : Nat) * stride) + BitVec.ofNat 64 (j % rb)
      (match t.engRead w agent eng (new || first a) a with
        | .ok u b q => .ok u b (l.any Prod.snd || q)
        | r => r)
    | (r, _) => r
  | _ => .ok s 0 false

/-- Where an operation writes. -/
def EngOp.writer : EngOp → EngWho
  | .copy asn sup core dlm _ _ _ _ => ⟨asn, sup, core, dlm⟩
  | .gather asn sup core dlm .. => ⟨asn, sup, core, dlm⟩
  | .coll asn sup .. => ⟨asn, sup, 0, false⟩
  | .mig .. => ⟨0, false, 0, false⟩
  | .record .. => ⟨0, false, 0, false⟩
  | .abandoned => ⟨0, false, 0, false⟩

/-- The first operation of an engine completes: what it still holds is released, and a fault that it met is recorded, with
the snapshot that the failing access used kept (R343, R350). -/
def State.engFinish (s : State) (agent eng : Nat) (f : Option EngFault) : State :=
  let op := (s.engine agent eng).ops.headD .abandoned
  let s1 := match f with
    | some (c, a, i) => s.noteFault { asn := op.writer.asn } ⟨c, i, a, 0⟩ []
    | none => s
  (s1.engServed agent eng).engineDone agent eng f

/-- An engine finishes the next line of its first operation, a copy or a gather (R274, R343, R356); none where it waits, or
has none. -/
def State.engNext (s : State) (agent eng : Nat) : Option EngStep :=
  let e := s.engine agent eng
  match e.ops with
  | [] => none
  | op :: _ =>
    let d := op.dest
    if lineCount d.1 d.2 ≤ e.pos then none
    else
      let p := linePart d.1 d.2 e.pos
      match s.engLine op.writer agent eng d.1 p.1 p.2 (engSource agent eng op p.1) with
      | .ok t => some (.ok (t.setEngine agent eng { t.engine agent eng with pos := e.pos + 1 }))
      | r => some r

/-- An engine's work that waits takes its place where it waits (R282, R356). -/
def State.engQueue (s : State) (agent eng : Nat) (key : Option Nat) : State :=
  match key with
  | some k => s.queueUp (engPlace agent eng) k
  | none => s

/-- The remaining lines of the first operation, then its completion, as far as it goes; the fuel is the number of lines. -/
def State.engRun (agent eng : Nat) : Nat → State → EngStep
  | 0, s => .ok (s.engFinish agent eng none)
  | n + 1, s => match s.engNext agent eng with
    | none => .ok (s.engFinish agent eng none)
    | some (.ok t) => State.engRun agent eng n t
    | some (.fault f) => .ok (s.engFinish agent eng (some f))
    | some (.wait k) => .ok (s.engQueue agent eng k)
    | some .stop => .stop

/-- The first operation of a copy engine runs to its completion (R343); an abandoned one completes in its turn (R320). -/
def State.copyComplete (s : State) (agent eng : Nat) : EngStep :=
  match (s.engine agent eng).ops with
  | [] => .wait none
  | .abandoned :: _ => .ok (s.abandonedDone agent eng)
  | .copy a b c d e f g n :: _ => State.engRun agent eng (lineCount (EngOp.copy a b c d e f g n).dest.1 n + 1) s
  | .gather a b c d e f g rb rows np :: _ =>
    State.engRun agent eng (lineCount (EngOp.gather a b c d e f g rb rows np).dest.1 (rb * rows * np) + 1) s
  | _ => .wait none

/-- What the takeover of a destination line finds: a line under its VA; a line or page that it must wait for,
under migration, behind its table, or at its home; or no line, which the engine finds later (R220, R274, R343). -/
inductive DestLine where
  | take (va line : Nat)
  | wait (key : Nat)
  | none
  deriving DecidableEq, Repr

/-- The takeover of the line at a VA, for an engine that holds none of it; hart h, which asks for it, waits behind those that
wait for its page or line (R282, R356). -/
def State.destLine (s : State) (h : Nat) (w : EngWho) (va : Nat) : DestLine :=
  if 2 ^ 48 ≤ va then .none
  else match s.pageTurn h w.asn va with
  | some k => .wait k
  | none => match s.findLeaf w.asn va with
    | .leaf pte sizeBits _ =>
      let pa := ptePFN pte * 4096 + va % 2 ^ sizeBits
      if (checkLeaf w.sup .store va pte sizeBits).isSome || decide (spaceOf pa = 3) then .none
      else if pteMIG pte then .wait (pageKey (ptePFN pte * 4096) sizeBits va)
      else if s.homeWaits (lineOf pa * 128) 128 || s.waitsTurn h (lineOf pa) then .wait (lineOf pa)
      else .take va (lineOf pa)
    | .held _ => .wait (walkKey w.asn va)
    | _ => .none

/-- The lines of a destination of `count` bytes at dst. -/
def State.destLines (s : State) (w : EngWho) (dst count : Nat) : List DestLine :=
  if w.lm then [] else (List.range (lineCount dst count)).map fun k => s.destLine s.cur w (128 * (dst / 128 + k))

/-- The line or page that keeps an operation from its destination lines. -/
def destWaits (l : List DestLine) : Option Nat :=
  l.findSome? fun d => match d with
    | .wait k => some k
    | _ => none

/-- An engine takes a destination line over: its translation, its request, the home's probes and the reply (R271, R274,
R350). -/
def State.takeOver (s : State) (agent eng : Nat) (asn : BitVec 16) (d : DestLine) : State :=
  match d with
  | .take va line =>
    let hub := hubOf va
    ((((s.noteWalk asn va).request agent hub line asn).moveDir (homeHub hub line) line (.g agent eng)).useGot line).reply agent hub line
  | _ => s

/-- The engine accepts an operation: its promise, its ticket, and the takeover of its destination lines; none where it
waits for a place or for a line, or a resync holds the takeover (R274, R339, R397). -/
def State.accept (s : State) (agent eng room cost : Nat) (op : EngOp) : Option (State × Word × Word) :=
  let e := s.engine agent eng
  let lines := s.destLines op.writer op.dest.1 op.dest.2
  let busy := (destWaits lines).isSome || (s.resync && lines.any (· != .none))
  if room ≤ e.ops.length ∨ busy then none
  else
    let base := if e.promise.toNat < s.cyc.toNat then s.cyc else e.promise
    let promise := base + BitVec.ofNat 64 (2048 + cost * lineCount op.dest.1 op.dest.2)
    let seq := (e.seq + BitVec.ofNat 64 (e.ops.length + 1)).toNat
    let ticket := BitVec.ofNat 64 (seq % 2 ^ 48 + 2 ^ 48 * eng + 2 ^ 56 * agent)
    let mine := lines.filterMap fun d => match d with
      | .take _ line => some line
      | _ => none
    let s1 := s.setEngine agent eng { e with promise := promise, ops := e.ops ++ [op], took := tset e.took seq mine }
    some (lines.foldl (fun t d => t.takeOver agent eng op.writer.asn d) s1, promise, ticket)

/-- Promise and ticket delivered (R339). -/
def Hart.deliverTicket (x : Hart) (d : Nat) (promise ticket : Word) : Hart := (x.varResult d promise).varResult (d + 1) ticket

/-- PROTECT of a lane-memory range, or the page cause of a global address beyond the space (R259, R341). DESIGN CHOICE (log 52): an
empty range at an offset of 0x10_0000 or more reaches 0x10_0000 too. -/
def engAddrTrap (lm store : Bool) (a : Word) (count : Nat) : Option Trap :=
  if lm then
    if laneSize < a.toNat + count ∨ laneSize ≤ a.toNat then some ⟨causePROTECT, engTinfo true store 0, a, 0⟩ else none
  else if 2 ^ 48 ≤ a.toNat then some ⟨if store then causeSTORE_PAGE else causeLOAD_PAGE, engTinfo false store 0, a, 0⟩
  else none

/-- The first trap of a list. -/
def firstTrap : List (Option Trap) → Option Trap
  | [] => none
  | some t :: _ => some t
  | none :: r => firstTrap r

/-- The copy engine an instruction goes to: the one it names, or the one with the fewest operations (R341). -/
def State.copyEngine (s : State) (o : Fields) (die : Nat) : Nat :=
  if o.imm.getLsbD 2 then o.imm.toNat % 4
  else
    let n k := (s.engine die k).ops.length
    (List.range 4).foldl (fun b k => if n k < n b then k else b) 0

/-- The acceptance of an operation at the end of an instruction, which goes to a hub's engine in a packet (R271); the hart
queues for a destination line that it waits for (R356, R397). -/
def acceptRes (s : State) (o : Fields) (agent eng room cost : Nat) (op : EngOp) : Res :=
  let h := s.cur
  let x := s.hart h
  if s.resync && agent != x.die then .hold s
  else match (s.exchange x.die agent (some x.asn)).accept agent eng room cost op with
    | none => match destWaits (s.destLines op.writer op.dest.1 op.dest.2) with
      | some k => .hold (s.queueUp h k)
      | none => .hold s
    | some (t, p, k) => .ok ((t.endHolds h).modHart h fun x => x.deliverTicket o.d.toNat p k)

/-- ACOPY (R341). -/
def acopyBody (o : Fields) (s : State) : Res :=
  let y := s.hart s.cur
  let dst := y.reg o.a.toNat
  let src := y.reg (o.a.toNat + 1)
  let n := (y.reg (o.a.toNat + 2)).toNat
  let dlm := o.f.getLsbD 0
  let slm := o.f.getLsbD 1
  s.waitMemory s.cur .store [⟨dlm, dst, n⟩, ⟨slm, src, n⟩] fun s =>
    let x := s.hart s.cur
    let bad : Trap := ⟨causePROTECT, 16 * 11, dst, src⟩
    let meet := dlm == slm && decide (0 < n) && decide (dst.toNat < src.toNat + n) && decide (src.toNat < dst.toNat + n)
    match firstTrap [engAddrTrap slm false src n, engAddrTrap dlm true dst n, if 2 ^ 30 < n ∨ meet then some bad else none] with
    | some t => .trap s t
    | none =>
      acceptRes s o x.die (s.copyEngine o x.die) 64 4 (.copy x.asn x.sup x.coreNo dlm slm dst.toNat src.toNat n)

def execAcopy (o : Fields) (s : State) : Out := issue (.acopy o) o (acopyBody o) s

/-- ACOPY2 (R342): its patches may stand at every global address. -/
def acopy2Body (o : Fields) (s : State) : Res :=
  let r k := (s.hart s.cur).reg (o.a.toNat + k)
  let shape := (r 3).toNat
  let rb := bitsOf shape 0 24
  let rows := bitsOf shape 24 16
  let np := bitsOf shape 40 16
  let dlm := o.f.getLsbD 0
  s.waitMemory s.cur .store [⟨dlm, r 0, rb * rows * np⟩, everywhere false] fun s =>
    let x := s.hart s.cur
    let badShape := decide (rb = 0) || decide (2 ^ 20 < rb) || decide (rows = 0) || decide (4096 < rows) || decide (np = 0) ||
      decide (2 ^ 56 ≤ shape) || decide (2 ^ 30 < rb * rows * np)
    match firstTrap [if aligned (r 1) 8 then none else some ⟨causeMISALIGN, 0, r 1, 0⟩, engAddrTrap false false (r 1) 0,
        engAddrTrap dlm true (r 0) (rb * rows * np), if badShape then some ⟨causePROTECT, 16 * 11, r 0, r 1⟩ else none] with
    | some t => .trap s t
    | none =>
      acceptRes s o x.die (s.copyEngine o x.die) 64 4
        (.gather x.asn x.sup x.coreNo dlm (r 0).toNat (r 1).toNat (r 2).toInt rb rows np)

def execAcopy2 (o : Fields) (s : State) : Out := issue (.acopy2 o) o (acopy2Body o) s

/-- The members of a group descriptor (R345). -/
def collMember (d k : Nat) : Nat := (bitsOf d 32 10 + k * bitsOf d 42 10) % 1024

/-- A group descriptor is ill-formed (R345). -/
def collIll (d pkg : Nat) : Bool :=
  let n := bitsOf d 16 11
  decide (n = 0) || decide (1024 < n) || decide (bitsOf d 27 5 ≠ 0) || decide (bitsOf d 52 972 ≠ 0) ||
    !((List.range n).map (collMember d)).Nodup || !(List.range n).any fun k => collMember d k == pkg

/-- ⌈log2 n⌉. -/
def ceilLog2 (n : Nat) : Nat := if n ≤ 1 then 0 else (n - 1).log2 + 1

/-- COLL (R345), which touches every address (R340). DESIGN CHOICE (log 51): a descriptor address that is no multiple of 128
raises PROTECT 10 before any read; the descriptor is read and checked before the count; and TADDR of PROTECT 11 is s(a), the
destination's address. -/
def collBody (o : Fields) (s : State) : Res :=
  s.waitMemory s.cur .store [everywhere true, everywhere false] fun s =>
    let h := s.cur
    let x := s.hart h
    let r k := x.reg (o.a.toNat + k)
    let w := s.who h x.sup false (r 3)
    let q := o.f.getLsbD 3
    let n := (r 2).toNat
    if !aligned (r 3) 128 then .trap s (trapReason 10 (r 3))
    else match s.readBlock w (r 3) with
      | .held k => .hold (s.holdRead h k)
      | .stop f => .stop f
      | .fault t => .trap s t
      | .ok s1 d f =>
        let pkg := (s1.hub (x.die / 3)).pkgid.toNat
        if collIll d pkg then .trap s1 (trapReason 10 (r 3))
        else if n = 0 ∨ 2 ^ 32 ≤ n ∨ (q ∧ n % 128 ≠ 0) then .trap s1 (trapReason 11 (r 0))
        else
          let m := bitsOf d 16 11
          let rank := (findBelow m fun k => collMember d k == pkg).getD 0
          acceptRes (s1.modHart h fun x => x.orFlags f) o (24 + x.die / 3) 4 256 (16 * ceilLog2 (m + 1))
            (.coll x.asn x.sup (bitsOf d 0 16) (fN o % 8) o.w.toNat q (r 0).toNat (r 1).toNat n m rank)

/-- COLL.ARSUM, .ARMAX, .AG, .RSSUM and .RSMAX (R345, R346). -/
def execCollArsum (o : Fields) (s : State) : Out := issue (.collArsum o) o (collBody o) s
def execCollArmax (o : Fields) (s : State) : Out := issue (.collArmax o) o (collBody o) s
def execCollAg (o : Fields) (s : State) : Out := issue (.collAg o) o (collBody o) s
def execCollRssum (o : Fields) (s : State) : Out := issue (.collRssum o) o (collBody o) s
def execCollRsmax (o : Fields) (s : State) : Out := issue (.collRsmax o) o (collBody o) s

/-- The fields of a ticket (R339). -/
def ticketSeq (t : Word) : Nat := bitsOf t.toNat 0 48
def ticketEng (t : Word) : Nat := bitsOf t.toNat 48 8
def ticketAgent (t : Word) : Nat := bitsOf t.toNat 56 8

/-- A ticket is complete (R339). -/
def State.ticketDone (s : State) (t : Word) : Bool :=
  decide (((s.engine (ticketAgent t) (ticketEng t)).seq.toNat + 2 ^ 48 - ticketSeq t) % 2 ^ 48 < 2 ^ 47)

/-- A wait of the scalar unit that gives up its issue turns, from the first cycle on (R318, R329, R344). -/
def State.waitHere (s : State) (h : Nat) : State :=
  s.modHart h fun x => { x with waiting := true, waitFrom := some (x.waitFrom.getD s.cyc) }

/-- A wait is over. -/
def State.waitOver (s : State) (h : Nat) : State := s.modHart h fun x => { x with waitFrom := none, waitQuad := none }

/-- The fault record of a ticket that no WAITT has raised yet (R343, R344). -/
def Engine.unraised (e : Engine) (t : Word) : Option EngRecord :=
  e.recs.find? fun r => !r.raised && decide (r.seq.toNat % 2 ^ 48 = ticketSeq t)

/-- WAITT's look at its ticket (R344). -/
def waittLook (p t : Word) (s : State) : Res :=
  let h := s.cur
  let a := ticketAgent t
  let g := ticketEng t
  if 31 < a ∨ 4 < g ∨ (g = 4 ∧ a < 24) ∨ (g < 4 ∧ 23 < a) then .trap s (trapReason 11 t)
  else if s.ticketDone t then
    let e := s.engine a g
    match e.unraised t with
    | some r =>
      let s1 := s.setEngine a g { e with recs := e.recs.map fun q => if q.seq = r.seq then { q with raised := true } else q }
      .trap (s1.waitOver h) ⟨r.cause, r.tinfo, r.addr, t⟩
    | none => .ok (s.waitOver h)
  else if a < 24 ∧ !s.inService a then .trap (s.waitOver h) ⟨causeDIE_LOST, BitVec.ofNat 64 (256 * a), 0, 0⟩
  else if p.toNat ≤ s.cyc.toNat then .trap (s.waitOver h) ⟨causePROMISE_MISSED, 0, p, t⟩
  else .hold (s.waitHere h)

def waittBody (o : Fields) (s : State) : Res :=
  let x := s.hart s.cur
  waittLook (x.reg o.a.toNat) (x.reg (o.a.toNat + 1)) s

/-- WAITT (R344). -/
def execWaitt (o : Fields) (s : State) : Out := issue (.waitt o) o (waittBody o) s

end Sys2Proof.Machine
end

