-- ==== Sys2Proof/Machine/Collect.lean ====
section
/-! DEFINITION. Sys2Proof/Machine/Collect.lean: what a collective engine does with the contributions of a group (R345 to R347). -/

namespace Sys2Proof.Machine

/-- Elements of n bytes of a list of bytes. -/
def elemsOf (n : Nat) (l : List Byte) : List Nat :=
  (List.range (l.length / n)).map fun k => leNat ((l.drop (n * k)).take n)

/-- One step of a reduction: a sum for ops 0 and 3, a maximum for ops 1 and 4 (R347). -/
def collStep (op w : Nat) (a b : Nat) : FRes :=
  if op = 0 ∨ op = 3 then (if w = 2 then ⟨(a + b) % 2 ^ 32, 0⟩ else (fmtOf w).add 0 false a b)
  else if w = 2 then ⟨if intVal w a < intVal w b then b else a, 0⟩
  else (fmtOf w).minMax true a b

/-- An element's contributions in rank order reduced by the tree of R44 (R347). -/
def collReduce (op w : Nat) (l : List Nat) : Nat := (treeSum (collStep op w) 11 l).1.headD 0

/-- A block of 128 FP32 elements quantised to E4M3 and dequantised again (R40, R41, R347). -/
def collQuant (l : List Nat) : List Nat :=
  let s := scaleOf 8 (l.foldl (fun a x => max a (fmtF32.finMag x)) 0)
  l.map fun x => (dequant 8 s (quantUnder 8 false s x).code).code

/-- One level of the tree under Q: pairs of blocks added and quantised, an odd block carried up. -/
def collPairs : List (List Nat) → List (List Nat)
  | a :: b :: r => collQuant (List.zipWith (fun x y => (fmtF32.add 0 false x y).code) a b) :: collPairs r
  | l => l

def collTree : Nat → List (List Nat) → List Nat
  | 0, l => l.headD []
  | n + 1, l => match l with
    | [] => []
    | [a] => a
    | l => collTree n (collPairs l)

/-- A block's contributions in rank order reduced under Q: quantised at injection, at each node and at the root (R347). -/
def collBlockQ (l : List (List Nat)) : List Nat := collQuant (collTree 11 (l.map collQuant))

/-- The elements that the member of rank r receives, from the contributions by rank (R346, R347). -/
def collResult (op w : Nat) (quant : Bool) (count r : Nat) (l : List (List Nat)) : List Nat :=
  let lo := if 3 ≤ op then r * count else 0
  if op = 2 then l.flatMap fun c => c.take count
  else if quant then
    (List.range (count / 128)).flatMap fun b => collBlockQ (l.map fun c => (c.drop (lo + 128 * b)).take 128)
  else (List.range count).map fun i => collReduce op w (l.map fun v => (v[lo + i]?).getD 0)

/-- The bytes of the own source that byte j of the destination comes from, and how many they are (R231, R346). -/
def collFrom (op n count r : Nat) (quant : Bool) (j : Nat) : Nat × Nat :=
  let i := j / n
  let lo := if 3 ≤ op then r * count else 0
  if op = 2 then (if i / count = r then (n * (i % count), n) else (0, 0))
  else if quant then (n * (lo + i / 128 * 128), 128 * n) else (n * (lo + i), n)

/-- The lines of a destination written in ascending order from line k on; a failing line ends the operation. -/
def collLines (agent : Nat) (w : EngWho) (dst : Nat) (bytes : List Byte) (bad : Nat → Bool) : Nat → Nat → State → EngStep
  | 0, _, s => .ok (s.engFinish agent 4 none)
  | n + 1, k, s =>
    let p := linePart dst bytes.length k
    match s.engWrite w agent 4 (BitVec.ofNat 64 (dst + p.1))
        ((List.range p.2).map fun j => ((bytes[p.1 + j]?).getD 0, bad (p.1 + j))) with
    | .ok t => collLines agent w dst bytes bad n (k + 1) t
    | .fault f => .ok (s.engFinish agent 4 (some f))
    | r => r

/-- A collective that fails before any data moves. The address its record holds is not stated: a free value (log 5). -/
def State.collFail (s : State) (agent : Nat) (c : BitVec 8) (tinfo : Word) : State :=
  s.takeFree.2.engFinish agent 4 (some (c, s.takeFree.1, tinfo))

/-- The first operation of a collective engine completes with the shares that the other members give for its GID (R346). It
waits while a member's share is missing. -/
def State.collComplete (s : State) (agent : Nat) (peers : List CollShare) : EngStep :=
  match (s.engine agent 4).ops with
  | .abandoned :: _ => .ok (s.abandonedDone agent 4)
  | .coll asn sup gid op w quant dst src count n rank :: _ =>
    let others := (List.range n).filter (· ≠ rank)
    let share k := peers.find? fun p => p.rank == k && p.gid == gid
    if others.any fun k => (share k).any fun p => !p.reachable then .ok (s.collFail agent causeREMOTE_LOST 0)
    else if others.any fun k => (share k).isNone then .wait none
    else if others.any fun k => (share k).any fun p => decide (p.op ≠ op) || decide (p.w ≠ w) || p.quant != quant ||
        decide (p.count ≠ count) then .ok (s.collFail agent causePROTECT (16 * 11))
    else
      let who : EngWho := ⟨asn, sup, 0, false⟩
      let es := typeBytes w
      let own := (if 3 ≤ op then n * count else count) * es
      match engGather (fun s k => s.engRead who agent 4 (decide (k = 0) || decide ((src + k) % 128 = 0)) (BitVec.ofNat 64 (src + k)))
          own 0 s [] with
      | (.ok t _ _, mine) =>
        let data k := if k = rank then elemsOf es (mine.map Prod.fst) else ((share k).map fun p => elemsOf es p.data).getD []
        let bytes := (collResult op w quant count rank ((List.range n).map data)).flatMap (leBytes es)
        let bad (j : Nat) : Bool :=
          let p := collFrom op es count rank quant j
          (List.range p.2).any fun k => ((mine[p.1 + k]?).map Prod.snd).getD false
        match collLines agent who dst bytes bad (lineCount dst bytes.length) 0 t with
        | .wait k => .ok (s.engQueue agent 4 k)
        | r => r
      | (.fault f, _) => .ok (s.engFinish agent 4 (some f))
      | (.wait k, _) => .ok (s.engQueue agent 4 k)
      | (.stop, _) => .stop
  | _ => .wait none

end Sys2Proof.Machine
end

