-- ==== Sys2Proof/Machine/Control.lean ====
section
/-! DEFINITION. Sys2Proof/Machine/Control.lean: the meanings of the control transfers of group 0x2, of NOP, TRAP, ERET, SETVL, END and
YIELD (R122 to R126, R130, R131, R323, R324). -/

namespace Sys2Proof.Machine

/-- The target of a PC-relative transfer; `pc` is the PC of the next instruction (R122). -/
def relTarget (pc : BitVec 48) (o : Fields) : BitVec 48 := pc - 12 + BitVec.ofInt 48 (4 * o.imm.toInt)

/-- The target of a register transfer (R122). -/
def regTarget (x : Hart) (o : Fields) : BitVec 48 := (x.reg o.a.toNat + o.imm.signExtend 64).setWidth 48

/-- MISALIGN of a transfer (R71). -/
def trapTarget (a : BitVec 48) : Trap := ⟨causeMISALIGN, 0, a.setWidth 64, 0⟩

/-- A transfer to a register target, which traps where the target is not a multiple of 4 (R71). -/
def jumpTo (a : BitVec 48) (f : Hart → Hart) (s : State) : Res :=
  if a.toNat % 4 ≠ 0 then .trap s (trapTarget a) else .ok (s.modHart s.cur fun x => { f x with pc := a })

/-- BRA (R122). -/
def execBra (o : Fields) (s : State) : Out := scalarIssue (.bra o) o (fun x => { x with pc := relTarget x.pc o }) s

/-- JMP (R122). -/
def execJmp (o : Fields) (s : State) : Out := issue (.jmp o) o (fun t => jumpTo (regTarget (t.hart t.cur) o) id t) s

/-- s62 takes the address of the next instruction, with latency 1: the sum is exact, also at the end of the space (R6, R66,
R122). -/
def linkResult (x : Hart) : Hart := x.scalarResult 62 ((x.pc - 12).setWidth 64 + 12) 0 1

/-- CALL label (R122). -/
def execCall (o : Fields) (s : State) : Out :=
  scalarIssue (.call o) o (fun x => { linkResult x with pc := relTarget x.pc o }) s

/-- CALL [sa+off] (R122). -/
def execCallReg (o : Fields) (s : State) : Out :=
  issue (.callReg o) o (fun t => jumpTo (regTarget (t.hart t.cur) o) linkResult t) s

/-- RET (R122). -/
def execRet (o : Fields) (s : State) : Out :=
  issue (.ret o) o (fun t => jumpTo (((t.hart t.cur).reg o.a.toNat).setWidth 48) id t) s

/-- LOOP (R122). DESIGN CHOICE (log 50): with D = s0, whose write is discarded (R87), the branch is taken by the value
computed, which is not 0. -/
def loopResult (o : Fields) (x : Hart) : Hart :=
  let v := x.reg o.d.toNat - 1
  let y := x.scalarResult o.d.toNat v 0 1
  if v ≠ 0 then { y with pc := relTarget x.pc o } else y

def execLoop (o : Fields) (s : State) : Out := scalarIssue (.loop o) o (loopResult o) s

/-- NOP (R123). -/
def execNop (o : Fields) (s : State) : Out := scalarIssue (.nop o) o id s

/-- TRAP (R125). -/
def execTrap (o : Fields) (s : State) : Out :=
  issue (.trap o) o (fun t => .trapNext t ⟨causeSOFTWARE, o.imm.setWidth 64, 0, 0⟩) s

/-- ERET waits until the joins in the queue have written their results (R68); a vector fault that arises goes first. -/
def eretWait (s : State) (h : Nat) (go : State → Res) : Res :=
  if !(s.hart h).joinsOut then go s
  else match s.drainAll h with
    | .stop f => .stop f
    | .ok t => if (t.hart h).joinsOut || (t.hart h).headFaulted then .hold t else go t

/-- ERET (R126); the entries of the queue go on (R301). -/
def eretBody (s : State) : Res :=
  let h := s.cur
  if (s.hart h).tstatus.vfrz then .trap s (trapIllegal 4 false)
  else eretWait s h fun s => match drainQ h s.lead drainFuel (s.modHart h Hart.eret) with
    | .ok t => .ok t
    | .stop f => .stop f

def execEret (o : Fields) (s : State) : Out := issue (.eret o) o eretBody s

/-- VTYPE and VL of SETVL (R130). -/
def setvlType (o : Fields) : Vtype := ⟨BitVec.ofNat 2 (widthCode (typeBits o.w.toNat)), o.f.extractLsb' 0 2⟩
def setvlLen (o : Fields) (x : Hart) : Nat :=
  min (if o.i then o.imm.toNat else (x.reg o.a.toNat).toNat) (setvlType o).vlmax

/-- SETVL at issue: sd, and the VL and VTYPE of later pushes (R131). -/
def setvlIssue (o : Fields) (n : Nat) (x : Hart) : Hart :=
  { x.varResult o.d.toNat (BitVec.ofNat 64 n) with vlPush := n, vtPush := setvlType o }

def setvlBody (o : Fields) (s : State) : Res :=
  let n := setvlLen o (s.hart s.cur)
  pushBody (.setvl o) o (fun _ _ => none) (fun _ => [setvlCapture n (setvlType o)])
    (fun t => t.modHart t.cur (setvlIssue o n)) s

/-- SETVL (R130, R131). -/
def execSetvl (o : Fields) (s : State) : Out := issue (.setvl o) o (setvlBody o) s

/-- END at issue: the next strip, or the ending state, in which the PC stays at the END (R323). -/
def endIssue (s : State) : State :=
  let h := s.cur
  let last : State := s.modHart h fun x => { x with ending := true, pc := x.pc - 12 }
  match (s.hart h).task with
  | none => last
  | some k => match s.tasks[k]? with
    | none => last
    | some t =>
      if !t.farm || t.ended || t.st ≠ .running then last
      else match t.handOut with
        | none => last
        | some (b, e, t1) =>
          let w (n : Nat) : Word := BitVec.ofNat 64 n
          let s1 := s.modHart h fun x => { ((x.varResult 1 (w b)).varResult 2 (w (e - b))) with
            stripbase := w b, striplen := BitVec.ofNat 32 (e - b), strips := x.strips ++ [(b, e)] }
          s1.modTask k fun _ => { t1 with out := t1.out ++ [((s.hart h).die, b, e)] }

/-- END (R323). -/
def execEnd (o : Fields) (s : State) : Out :=
  issue (.endI o) o (pushBody (.endI o) o (fun _ _ => none) (fun _ => []) endIssue) s

/-- YIELD (R324). -/
def execYield (o : Fields) (s : State) : Out :=
  issue (.yield o) o (fun t => .ok (t.modHart t.cur fun x => { x with yieldTo := t.othersReady t.cur })) s

/-- A hart leaves its slot: a fibre instruction in progress stops at a step boundary and leaves the fibre pipe (R191), P leaves the engine with it, the latched tile is dropped, and its register-store lines are
evictable from now on (R110, R195, R207, R304, R318). -/
def State.unbind (s : State) (h : Nat) : State :=
  let c := (s.hart h).coreNo
  let s1 := s.modHart h fun x => { x.leavePipe with bound := false, preempted := false, lastbu := 0, leftAt := some s.cyc }
  match tfind s1.cores c with
  | none => s1
  | some k => s1.setCore c { k with mat := k.mat.map fun m => if m.hart = h then { m with latch := none } else m }

/-- YIELD.REL (R304, R324). -/
def execYieldRel (o : Fields) (s : State) : Out :=
  issue (.yieldRel o) o (fun t =>
    if (t.hart t.cur).occupancy ≠ 0 then .trap t (trapIllegal 7 false) else .ok (t.unbind t.cur)) s

end Sys2Proof.Machine
end

