-- ==== Sys2Proof/Machine/TaskScalar.lean ====
section
/-! DEFINITION. Sys2Proof/Machine/TaskScalar.lean: the meanings of TASKCAN, WAITB and SLEEP (R310, R318, R327 to R329). -/

namespace Sys2Proof.Machine

/-- The cancel of TASKCAN at a TCB's home: what it returns (R309, R327). STATE 7 is reserved, and its answer is a free
value (log 5). -/
def State.cancelTcb (s : State) (va : Word) (pa : Nat) : State × Word :=
  match s.tcbState pa with
  | 0 => (s, 2)
  | 3 => (s, 1)
  | 4 => (s, 2)
  | 5 => (s, 2)
  | 6 => (s, 2)
  | 7 => (s.takeFree.2, s.takeFree.1)
  | _ => (s.endTask (BitVec.ofNat 16 (s.tcbField pa 0x28 24 16)) va pa 5 7 .cancelled, 0)

/-- TASKCAN. DEDUCED (log 15): its access is translated as a store, and a TCB outside space 0 raises PROTECT as TASKPUB's
does. -/
def taskcanBody (o : Fields) (s : State) : Res :=
  let h := s.cur
  let x := s.hart h
  let a := x.reg o.a.toNat
  let w := s.who h x.sup false a
  if !aligned a 128 then .trap s (misalign a a false true)
  else if 2 ^ 48 ≤ a.toNat then .trap s (w.trap causeSTORE_PAGE a true 0)
  else match s.accessPage w .store a.toNat with
    | .fault c r => .trap s (w.trap c a true r)
    | .poison => .trap s (w.trap causeDATA_POISON a true 0)
    | .held k => .hold (s.holdRead h (.queue k))
    | .ok s1 pa pte =>
      if spaceOf pa ≠ 0 then .trap s (trapReason 8 a)
      else if !s1.canWriteMaster pa 128 then .hold s
      else match s1.accessLines w .store pte a.toNat pa 128 .home with
        | .held l => .hold (s.holdRead h (.queue l))
        | .lost d => .trap s { trapDieLost d true a with taddr2 := a }
        | .ok s2 =>
          if s2.poisoned pa 128 then .trap s (w.trap causeDATA_POISON a true 0)
          else
            let r := (s2.endHolds h).cancelTcb a pa
            .ok (r.1.modHart h fun y => y.varResult o.d.toNat r.2)

/-- TASKCAN (R327). -/
def execTaskcan (o : Fields) (s : State) : Out := issue (.taskcan o) o (taskcanBody o) s

/-- A wait's look: over with an effect on the hart, or the hart goes on waiting. -/
def waitStep (fin : Bool) (f : Hart → Hart) (s : State) : Res :=
  if fin then .ok ((s.waitOver s.cur).modHart s.cur f) else .hold (s.waitHere s.cur)

/-- The barrier that a WAITB waits on: that of the quad where it began to wait, though its hart is bound again elsewhere
(R318, R328). -/
def State.waitBarrier (s : State) (x : Hart) (quad : Bool) (n : Nat) : Barrier :=
  if quad then tget s.quadBar (x.waitQuad.getD x.quadNo * 8 + n) {} else s.barrier x false n

/-- WAITB's phase has come (R328). -/
def waitbOver (o : Fields) (s : State) : Bool :=
  let x := s.hart s.cur
  let n := ((s.waitBarrier x (decide (fN o = 2)) (o.imm.toNat % 16)).phase - (x.reg o.a.toNat).setWidth 16).toNat
  decide (1 ≤ n) && decide (n ≤ 2 ^ 15)

def waitbBody (o : Fields) (s : State) : Res :=
  let keep (x : Hart) : Hart := { x with waitQuad := some (x.waitQuad.getD x.quadNo) }
  if waitbOver o s then .ok (s.waitOver s.cur) else .hold ((s.waitHere s.cur).modHart s.cur keep)

/-- WAITB (R328). -/
def execWaitb (o : Fields) (s : State) : Out := issue (.waitb o) o (waitbBody o) s

/-- The cycles since a hart's present wait began. -/
def State.waited (s : State) (h : Nat) : Nat := (s.cyc - ((s.hart h).waitFrom.getD s.cyc)).toNat

/-- SLEEP is over: the wake flag, or the timeout (R329). -/
def sleepOver (o : Fields) (s : State) : Bool :=
  let x := s.hart s.cur
  let t := (x.reg o.a.toNat).toNat
  x.wake || (decide (t ≠ 0) && decide (t ≤ s.waited s.cur))

def sleepBody (o : Fields) (s : State) : Res := waitStep (sleepOver o s) (fun x => { x with wake := false }) s

/-- SLEEP (R329). -/
def execSleep (o : Fields) (s : State) : Out := issue (.sleep o) o (sleepBody o) s

end Sys2Proof.Machine
end

