-- ==== Sys2Proof/Machine/Counters.lean ====
section
/-! DEFINITION. Sys2Proof/Machine/Counters.lean: the meanings of group 0xC: the cycle count, engine sequences, causal clocks, resync,
event counters, posted stores and the budget (R386, R397 to R407). -/

namespace Sys2Proof.Machine

/-- A variable-latency result in sd. -/
def giveWord (o : Fields) (v : State → Word) (s : State) : Res :=
  .ok (s.modHart s.cur fun x => x.varResult o.d.toNat (v s))

/-- RDCYC (R386, R403). -/
def execRdcyc (o : Fields) (s : State) : Out := issue (.rdcyc o) o (giveWord o fun s => s.cyc) s

/-- OUTCNT's word (R399). -/
def Hart.outWord (x : Hart) : Word := BitVec.ofNat 64 (x.outcnt % 2 ^ 20 + 2 ^ 32 * x.lost.toNat)

/-- OUTCNT (R399, R403). -/
def execOutcnt (o : Fields) (s : State) : Out := issue (.outcnt o) o (giveWord o fun s => (s.hart s.cur).outWord) s

/-- BUDRD's word for the core of a hart (R400). -/
def State.budWord (s : State) (x : Hart) : Word :=
  BitVec.ofNat 64 ((s.core x.coreNo).level + 2 ^ 16 * tget s.rate x.die 512 + 2 ^ 32 * 8192)

/-- BUDRD (R400, R403). -/
def execBudrd (o : Fields) (s : State) : Out := issue (.budrd o) o (giveWord o fun s => s.budWord (s.hart s.cur)) s

/-- An engine selector is ill-formed (R398). -/
def selectorIll (t : Word) : Bool :=
  decide (31 < ticketAgent t) || decide (5 < ticketEng t) || (decide (ticketEng t < 4) != decide (ticketAgent t < 24))

/-- DIE_LOST of an engine's die (R404). -/
def trapEngineLost (t : Word) : Trap := ⟨causeDIE_LOST, BitVec.ofNat 64 (256 * ticketAgent t), 0, 0⟩

/-- The engine's die has been fenced. -/
def State.engineLost (s : State) (t : Word) : Bool := decide (ticketAgent t < 24) && !s.inService (ticketAgent t)

def rdseqBody (o : Fields) (s : State) : Res :=
  let t := (s.hart s.cur).reg o.a.toNat
  if selectorIll t then .trap s (trapReason 11 t)
  else if s.engineLost t then .trap s (trapEngineLost t)
  else giveWord o (fun s => (s.engine (ticketAgent t) (ticketEng t)).seq) s

/-- RDSEQ (R404). -/
def execRdseq (o : Fields) (s : State) : Out := issue (.rdseq o) o (rdseqBody o) s

/-- WAITSEQ: a complete ticket returns though its die is fenced, as in R344 (log 11). -/
def waitseqBody (o : Fields) (s : State) : Res :=
  let t := (s.hart s.cur).reg o.a.toNat
  if selectorIll t then .trap s (trapReason 11 t)
  else if !s.ticketDone t && s.engineLost t then .trap s (trapEngineLost t)
  else waitStep (s.ticketDone t) id s

/-- WAITSEQ (R404). -/
def execWaitseq (o : Fields) (s : State) : Out := issue (.waitseq o) o (waitseqBody o) s

/-- Item n of the causal state of agent s[A][20:16], a fenced one's as it stood at its fence (R405). -/
def State.clkWord (s : State) (n : Nat) (a : Word) : Word :=
  let k := s.clock (bitsOf a.toNat 16 5)
  let j := bitsOf a.toNat 0 5
  match n with
  | 0 => k.s.setWidth 64
  | 1 => (tget k.d j 0).setWidth 64
  | 2 => (tget k.f j 0).setWidth 64
  | 3 => (tget k.hor (4 * j + bitsOf a.toNat 8 3) 0).setWidth 64
  | 4 => (tget k.ack j 0).setWidth 64
  | 5 =>
    let (rsn, resync, removed) := match k.gone with
      | some g => (g.rsn, g.resync, g.removed)
      | none => (s.rsn, s.resync, s.removed)
    BitVec.ofNat 64 (rsn.toNat + 16 * resync.toNat + 2 ^ 16 * k.quar.length + 2 ^ 32 * removed.toNat)
  | _ => (match k.gone with
    | some g => (tget g.touch (a.setWidth 16).toNat 0 ||| g.overflow) &&& g.removed.setWidth 24
    | none => s.taint (a.setWidth 16)).setWidth 64

/-- ILLEGAL for an operand value that R405 or R407 rejects (R402). -/
def trapCounter : Trap := trapIllegal 0xFC false

def rdclkBody (o : Fields) (s : State) : Res :=
  let a := (s.hart s.cur).reg o.a.toNat
  if o.imm.toNat = 3 ∧ 4 ≤ bitsOf a.toNat 8 3 then .trap s trapCounter
  else giveWord o (fun s => s.clkWord o.imm.toNat a) s

/-- RDCLK (R405). -/
def execRdclk (o : Fields) (s : State) : Out := issue (.rdclk o) o (rdclkBody o) s

/-- CRESYNC: it starts a resync, or joins the one that runs, and returns once that has completed (R397, R406). -/
def cresyncBody (o : Fields) (s : State) : Res :=
  s.waitAccesses s.cur fun s =>
    let h := s.cur
    let give (s : State) : Res := giveWord o (fun s => s.rsn.setWidth 64) (s.waitOver h)
    if (s.hart h).waitFrom.isSome && !s.resync then give s
    else if s.drained then give s.resyncDone
    else .hold ({ s with resync := true, resyncAt := if s.resync then s.resyncAt else s.cyc }.modHart h fun x => { x with waitFrom := some (x.waitFrom.getD s.cyc) })

def execCresync (o : Fields) (s : State) : Out := issue (.cresync o) o (cresyncBody o) s

/-- The code a counter takes: one that it can count, or 0 (R401). -/
def eventCode (hub : Bool) (c : Nat) : BitVec 8 :=
  let ok := if hub then decide (0x40 ≤ c) && decide (c ≤ 0x55)
    else (decide (1 ≤ c) && decide (c ≤ 0x11)) || (decide (0x20 ≤ c) && decide (c ≤ 0x27))
  if ok then BitVec.ofNat 8 c else 0

/-- The counter that a selector names: on a hub or not, the hub, the number; none where R407 rejects it. -/
def counterAt (a : Word) : Option (Bool × Nat × Nat) :=
  let n := bitsOf a.toNat 0 4
  if bitOf a.toNat 4 then some (true, bitsOf a.toNat 5 3, n) else if 7 < n then none else some (false, 0, n)

/-- A counter set by EVSEL (R407). -/
def EvCounter.select (e : EvCounter) (hub : Bool) (b : Word) : EvCounter :=
  { code := eventCode hub (bitsOf b.toNat 0 8), en := bitOf b.toNat 8, count := if bitOf b.toNat 9 then 0 else e.count }

def State.counter (s : State) (x : Hart) (hub : Bool) (u n : Nat) : EvCounter :=
  if hub then (s.hub u).counters[n]?.getD {} else (s.core x.coreNo).counters[n]?.getD {}

def State.setCounter (s : State) (x : Hart) (hub : Bool) (u n : Nat) (e : EvCounter) : State :=
  if hub then s.modHub u fun k => { k with counters := k.counters.setIfInBounds n e }
  else s.modCore x.coreNo fun k => { k with counters := k.counters.setIfInBounds n e }

/-- What a counter holds now: a free value, where events that the model does not count may have occurred since it was set (R401,
log 46). -/
def State.countNow (s : State) (e : EvCounter) : Word × State := if e.vague then s.takeFree else (e.count, s)

def evselBody (o : Fields) (s : State) : Res :=
  let x := s.hart s.cur
  match counterAt (x.reg o.a.toNat) with
  | none => .trap s trapCounter
  | some (hub, u, n) =>
    let e := s.counter x hub u n
    let r := s.countNow e
    .ok (r.2.setCounter x hub u n ({ e with count := r.1 }.select hub (x.reg o.b.toNat)))

/-- EVSEL (R407). -/
def execEvsel (o : Fields) (s : State) : Out := issue (.evsel o) o (evselBody o) s

def evrdBody (o : Fields) (s : State) : Res :=
  let x := s.hart s.cur
  match counterAt (x.reg o.a.toNat) with
  | none => .trap s trapCounter
  | some (hub, u, n) =>
    let r := s.countNow (s.counter x hub u n)
    if hub && !x.sup then .trap s trapPriv else giveWord o (fun _ => r.1) r.2

/-- EVRD (R407). -/
def execEvrd (o : Fields) (s : State) : Out := issue (.evrd o) o (evrdBody o) s

end Sys2Proof.Machine
end

