-- ==== Sys2Proof/Machine/EventsClock.lean ====
section
/-! DEFINITION. Sys2Proof/Machine/EventsClock.lean: the events of the causal fabric: stamps, arrival, quarantine, beats, the window,
the drain of a resync and watch beats (R388 to R397, R417). -/

namespace Sys2Proof.Machine

/-- The flits of a packet's stamp (R389): the header in its low 108 bits, then its clock-extension flits, all as numbers. -/
def stampFlits (p : Packet) : List Nat :=
  let entry (e : Dep) : Nat := e.agent % 32 + 2 ^ 5 * e.count.toNat
  let pack (l : List Dep) : Nat := (l.zipIdx.map fun e => entry e.1 * 2 ^ (21 * e.2)).sum
  let more := p.deps.drop 3
  let ext := (List.range ((more.length + 10) / 11)).map fun k => pack ((more.drop (11 * k)).take 11)
  (p.src % 32 + 2 ^ 5 * p.seq.toNat + 2 ^ 21 * p.rsn.toNat + 2 ^ 25 * min 3 p.deps.length + 2 ^ 27 * ext.length +
    2 ^ 29 * p.ackv.toNat + 2 ^ 45 * pack (p.deps.take 3)) :: ext

/-- PACKET_ARRIVAL (R391). -/
def execPacketArrival (dst : Nat) (p : Packet) (s : State) : Out :=
  .next (if 32 ≤ dst ∨ 32 ≤ p.src ∨ 4 ≤ p.cls ∨ 31 < p.deps.length ∨ p.deps.any fun e => 32 ≤ e.agent then s
    else s.receive dst p)

/-- QUARANTINE_DELIVERY (R391). -/
def execQuarantineDelivery (dst : Nat) (s : State) : Out :=
  let k := s.clock dst
  match if s.removed.getLsbD dst then none else k.nextOut s.removed with
  | none => .next s
  | some w => .next (s.setClock dst (({ k with quar := k.quar.erase w } : Clock).deliver w))

/-- HORIZON_BEAT (R393). A beat out of its source's order does not come (R11), and a fenced agent takes none (R405). -/
def execHorizonBeat (dst : Nat) (b : Beat) (s : State) : Out :=
  .next (if 32 ≤ dst ∨ 32 ≤ b.src ∨ s.removed.getLsbD b.src ∨ s.removed.getLsbD dst ∨ !(s.clock dst).beatInOrder b then s
    else s.setClock dst ((s.clock dst).beat b))

/-- IDLE_BEAT (R393): a beat of an agent that has sent its destination nothing for 4,096 cycles. -/
def execIdleBeat (src dst : Nat) (s : State) : Out :=
  .next (if 32 ≤ dst ∨ 32 ≤ src ∨ src = dst ∨ s.removed.getLsbD src ∨ s.removed.getLsbD dst ∨
      (s.cyc - tget (s.clock src).sentAt dst 0).toNat < 4096 then s
    else s.answerBeat src dst)

/-- WINDOW_STALL (R392): the sender waits at its window, and the beats it asks for raise ACK. -/
def execWindowStall (agent : Nat) (s : State) : Out :=
  .next (if 32 ≤ agent ∨ s.windowOpen agent then s else s.stallCycle agent)

/-- RESYNC_DRAIN_TIMEOUT (R397): a drain that is unfinished after 2^24 cycles is an uncontained error. -/
def execResyncDrainTimeout (s : State) : Out :=
  .next (if s.resync && !s.drained && decide (2 ^ 24 ≤ (s.cyc - s.resyncAt).toNat) then s.goFatal else s)

/-- WATCH_BEAT (R417): the master home confirms the frontier of a view home. -/
def execWatchBeat (viewHome masterHome : Nat) (s : State) : Out :=
  .next (if 8 ≤ viewHome ∨ 8 ≤ masterHome then s
    else (s.watch viewHome masterHome (s.clock (24 + viewHome)).f).getD s)

end Sys2Proof.Machine
end

