-- ==== Sys2Proof/Machine/System.lean ====
section
/-! DEFINITION. Sys2Proof/Machine/System.lean: the meanings of MFS, MTS, TFENCE, VQSYNC and VQREPLAY (R93 to R104, R127, R128, R298 to
R301). -/

namespace Sys2Proof.Machine

/-- The special register of an index (R93 to R104); its reserved bits read 0 (R128). DESIGN CHOICE (log 49): PKGID is hub
0's copy where the hubs' differ. -/
def State.special (s : State) (h idx : Nat) : Word :=
  let x := s.hart h
  let w (n : Nat) : Word := BitVec.ofNat 64 n
  match idx with
  | 0x000 => w x.vl
  | 0x001 => w x.vtype.word
  | 0x002 => w x.vstart.toNat
  | 0x003 => w x.vprog.word
  | 0x004 => w x.fcsr.word
  | 0x005 => w x.vcp.toNat
  | 0x006 => w x.vqtail.toNat
  | 0x007 => w x.vsegCount
  | 0x010 => x.hartid
  | 0x011 => w x.taskid.toNat
  | 0x012 => w (s.hub 0).pkgid.toNat
  | 0x013 => x.stripbase
  | 0x014 => w x.striplen.toNat
  | 0x020 => w x.tcause.toNat
  | 0x021 => w x.tpc.toNat
  | 0x022 => w x.tvqp
  | 0x023 => x.taddr
  | 0x024 => x.taddr2
  | 0x025 => x.tinfo
  | 0x026 => w x.tvec.toNat
  | 0x027 => w x.tstatus.word
  | 0x028 => x.tscr[0]
  | 0x029 => x.tscr[1]
  | 0x02A => x.tscr[2]
  | 0x02B => x.tscr[3]
  | 0x030 => w x.asn.toNat
  | 0x031 => w x.imgbase
  | 0x050 => w x.fbn
  | 0x060 => s.cyc
  | n => if 0x040 ≤ n ∧ n ≤ 0x04F then w (((x.fb.take x.fbn)[n - 0x040]?.map FaultPage.word).getD 0) else 0

/-- VPROG as MTS writes it: a reserved TAG becomes 0 (R97). -/
def vprogOf (v : Nat) : Vprog :=
  let tag := bitsOf v 56 6
  { cnt := BitVec.ofNat 9 v, posb := BitVec.ofNat 20 (v / 2 ^ 16), posa := BitVec.ofNat 20 (v / 2 ^ 36)
    tag := if [0x02, 0x03, 0x04, 0x05, 0x09, 0x0D, 0x28].contains tag then BitVec.ofNat 6 tag else 0
    full := bitOf v 62, v := bitOf v 63 }

/-- FCSR as MTS writes it: a reserved RM becomes 0 (R98). -/
def fcsrOf (v : Nat) : Fcsr :=
  ⟨if 5 ≤ v % 8 then 0 else BitVec.ofNat 3 v, BitVec.ofNat 8 (v / 256), BitVec.ofNat 8 (v / 65536)⟩

/-- MTS of the register of an index, field by field (R93, R128). -/
def Hart.setSpecial (x : Hart) (idx : Nat) (v : Word) : Hart :=
  match idx with
  | 0x002 => { x with vstart := v.setWidth 12 }
  | 0x003 => { x with vprog := vprogOf v.toNat }
  | 0x004 => { x with fcsr := fcsrOf v.toNat }
  | 0x021 => { x with tpc := v.setWidth 48 &&& 0xFFFFFFFFFFFC }
  | 0x026 => { x with tvec := v.setWidth 48 &&& 0xFFFFFFFFFFFC }
  | 0x027 => { x with tstatus := { x.tstatus with
      pp := v.getLsbD 0, ie := v.getLsbD 1, pie := v.getLsbD 2, csb := v.getLsbD 3 } }
  | 0x028 => { x with tscr := x.tscr.set 0 v }
  | 0x029 => { x with tscr := x.tscr.set 1 v }
  | 0x02A => { x with tscr := x.tscr.set 2 v }
  | 0x02B => { x with tscr := x.tscr.set 3 v }
  | 0x030 => { x with asn := v.setWidth 16 }
  | _ => x

/-- A class Q register is reached once the queue is empty and the scalar floating results and flags are in (R94). -/
def specialWait (o : Fields) (s : State) (go : State → Res) : Res :=
  if msrQueue o then s.waitQueue s.cur fun t => go (t.modHart t.cur Hart.landFloats) else go s

/-- MFS (R127, R128). -/
def execMfs (o : Fields) (s : State) : Out :=
  issue (.mfs o) o (fun t => specialWait o t fun u =>
    .ok (u.modHart u.cur fun x => x.varResult o.d.toNat (u.special u.cur (msrIndex o)))) s

/-- MTS (R127, R128). -/
def execMts (o : Fields) (s : State) : Out :=
  issue (.mts o) o (fun t => specialWait o t fun u =>
    .ok (u.modHart u.cur fun x => x.setSpecial (msrIndex o) (x.reg o.a.toNat))) s

/-- TFENCE (R298). -/
def tfenceBody (s : State) : Res :=
  s.waitQueue s.cur fun t =>
    let u := t.modHart t.cur Hart.landFloats
    let f := (u.hart u.cur).fcsr
    if f.flags &&& f.en = 0 then .ok u else .trapNext u ⟨causeARITH, (f.flags &&& f.en).setWidth 64, 0, 0⟩

def execTfence (o : Fields) (s : State) : Out := issue (.tfence o) o tfenceBody s

/-- VQSYNC (R300). -/
def execVqsync (o : Fields) (s : State) : Out := issue (.vqsync o) o (fun t => t.waitQueue t.cur .ok) s

/-- The saved entries of n slots from a position on, as they stand in the queue again (R301). -/
def savedEntries (saved : Table SavedSlot) (p n : Nat) : List QEntry :=
  (List.range n).filterMap fun k => match tfind saved ((p + k) % 64) with
    | some (.head e) => some { e with stage := .waiting, frz := false }
    | _ => none

/-- VQREPLAY (R301): VQTAIL rises by one for each slot; a slot without an entry holds no position of the live queue. -/
def vqreplayResult (p n : Nat) (x : Hart) : Hart :=
  let l := savedEntries x.saved p n
  let held := decide (0 < n) || x.tstatus.vfrz
  { x with
    queue := x.queue ++ l, vcp := x.vcp + BitVec.ofNat 16 (n - (l.map QEntry.size).sum), vqtail := x.vqtail + BitVec.ofNat 16 n
    fbn := 0, fb := [], replayed := l.length, replaying := held || x.replaying, tstatus := { x.tstatus with vfrz := false } }

/-- The lines of the image that VQREPLAY reads: those of its slots, FMASK and VPROG (R107, R320). -/
def replayLines (p n : Nat) : List Nat :=
  if n = 0 then [] else 20 :: 29 :: (List.range n).flatMap fun k =>
    let a := 0x400 + 24 * ((p + k) % 64)
    [a / 128, (a + 23) / 128]

/-- VQREPLAY (R301); a line of what it reads that is found poisoned is an uncontained fault of the hart's ASN (R320). DESIGN
CHOICE (log 50): a result that has landed here counts for no distance any more (R67). -/
def vqreplayBody (o : Fields) (s : State) : Res :=
  s.waitQueue s.cur fun t =>
    let u := t.modHart t.cur Hart.landAll
    let x := u.hart u.cur
    let a := (x.reg o.a.toNat).toNat
    let n := bitsOf a 16 7
    let p := bitsOf a 0 16
    if 64 < n ∨ (0 < n ∧ !x.tstatus.vfrz) then .trap u (trapIllegal 5 false)
    else if (x.poisonedLine (replayLines p n)).isSome then .ok (u.asnFault (x.die / 3) x.asn)
    else .ok (u.modHart u.cur (vqreplayResult p n))

def execVqreplay (o : Fields) (s : State) : Out := issue (.vqreplay o) o (vqreplayBody o) s

end Sys2Proof.Machine
end

