-- ==== Sys2Proof/Machine/Fetch.lean ====
section
/-! DEFINITION. Sys2Proof/Machine/Fetch.lean: fetching the bytes of an instruction, and the interrupts and pre-emption requests that a
boundary takes (R70 to R72, R291 to R293, R303, R304, R427). -/

namespace Sys2Proof.Machine

/-- How one byte is fetched. -/
inductive FetchByte where
  | ok (s : State) (b : Byte)
  | page
  | poison
  | held (key : Nat)
  /-- A die or a package cannot be reached: the cause and its TINFO. -/
  | lost (cause : BitVec 8) (info : Word)
  /-- A register of the supervisor's, read at user privilege (R3). -/
  | priv
  | stop
  deriving DecidableEq, Repr

/-- The line of the instruction cache of a core that holds a VA (R72, R222). -/
def State.icacheLine (s : State) (core : Nat) (asn : BitVec 16) (a : Nat) : Option ICLine :=
  (s.core core).icache.find? fun l => (l.glob || l.asn == asn) && decide (l.line = a / 128)

/-- The lines of an instruction cache of 64 KiB (R12). -/
def icacheRoom : Nat := 512

/-- A line read into the instruction cache, in the place of one of its tag; the first one in leaves a full one (log 6). A line
of an NC page is not kept (R222). -/
def State.keepLine (s : State) (core : Nat) (asn : BitVec 16) (pte : Word) (a pa : Nat) : State :=
  if pteNC pte then s
  else s.modCore core fun c =>
    let rest := c.icache.filter fun l => !((l.glob || l.asn == asn) && decide (l.line = a / 128))
    { c with icache := rest.drop (rest.length + 1 - icacheRoom) ++
        [⟨asn, pteG pte, a / 128, lineGrant pte, memBytes s.mem (pa / 128 * 128) 128, false⟩] }

/-- One byte of an instruction: from the instruction cache, where the tag there permits the fetch (R353), or from its line,
which is then kept there, unless it is of a view block that is not FRESH (R70, R72, R230, R379); a read of a view block is confirmed
first (R417). -/
def State.fetchByte (s : State) (h a : Nat) : FetchByte :=
  let x := s.hart h
  let w := s.who h x.sup false 0
  if 2 ^ 48 ≤ a then .page
  else match (s.icacheLine x.coreNo x.asn a).filter fun l => grantPermits l.grant x.sup .fetch with
    | some l => if l.poison then .poison else .ok s ((l.data[a % 128]?).getD 0)
    | none => match s.hitOrPage w .fetch a with
      | .fault _ _ => .page
      | .poison => .poison
      | .held k => .held k
      | .ok s1 pa pte =>
        if !pteX pte then .page
        else
          if spaceOf pa = 3 then (match cfgPlace pa, s1.leaveDie w a with
            | none, _ => .stop
            | some (hub, off), t =>
              if cfgSup off && !x.sup then .priv
              else match t with
                | .ok s2 => .ok s2 (BitVec.ofNat 8 (s2.cfgRead hub off 1))
                | .held k => .held k
                | .lost d => .lost causeDIE_LOST (BitVec.ofNat 64 (256 * d)))
          else if spaceOf pa = 2 && !s1.reachable a pa && !s1.whoHolds w pte a pa false (lineOf pa) then
            .lost causeREMOTE_LOST 0
          else match if s1.whoHolds w pte a pa false (lineOf pa) then .ok s1 else s1.confirmLine x.die pte (lineOf pa) with
          | .error k => .held k
          | .ok s1 =>
            let keeps := !pteVC pte || s1.lineFresh (lineOf pa)
            match (if pteVC pte then s1.unread h else s1).accessLines { w with cls := 1 } .fetch pte a pa 1
                (wantOf pte pa (if keeps then .read else .pass)) with
            | .held l => .held l
            | .lost d => .lost causeDIE_LOST (BitVec.ofNat 64 (256 * d))
            | .ok s2 =>
              if s2.readBad w.core 1 (lineOf pa) then .poison
              else .ok (if keeps then s2.keepLine x.coreNo x.asn pte a pa else s2) (memGet s2.mem pa)

/-- How a fetch ends: the word; a trap; a hold at a page or a line; or a stop of the model. -/
inductive Fetch where
  | ok (s : State) (w : BitVec 96)
  | trap (t : Trap)
  | held (key : Nat)
  | stop
  deriving DecidableEq, Repr

/-- The bytes from address a on, in order, until one cannot be had. -/
def fetchBytes (h : Nat) : Nat → Nat → State → List Byte → FetchByte × List Byte
  | 0, _, s, l => (.ok s 0, l)
  | n + 1, a, s, l => match s.fetchByte h a with
    | .ok t b => fetchBytes h n (a + 1) t (l ++ [b])
    | r => (r, l)

/-- The first byte of an instruction in a failing page (R70, R71). -/
def State.failingByte (s : State) (h a : Nat) : Option Nat :=
  (findBelow 12 fun k => decide (s.fetchByte h (a + k) = .page)).map fun k => min (a + k) (2 ^ 48)

/-- The fetch of the 12 bytes at the PC (R70, R71). DESIGN CHOICE (log 50): a failing page goes before a hold or poison of
another page, and poison before a page under migration that stands behind it. -/
def State.fetch (s : State) (h : Nat) : Fetch :=
  let pc := (s.hart h).pc.toNat
  let at_ (k : Nat) : Word := BitVec.ofNat 64 k
  match fetchBytes h 12 pc s [] with
  | (.ok t _, l) => .ok t (BitVec.ofNat 96 (leNat l))
  | (.stop, _) => .stop
  | (r, l) => match s.failingByte h pc with
    | some k => .trap ⟨causeFETCH_FAULT, 0, at_ pc, at_ k⟩
    | none => match r with
      | .poison => .trap ⟨causeDATA_POISON, 0, at_ pc, at_ (pc + l.length)⟩
      | .lost c i => .trap ⟨c, i, at_ pc, 0⟩
      | .priv => .trap trapPriv
      | .held k => .held k
      | _ => .stop

/-- The instruction that the hart stands at, where its bytes can be had and are legal. -/
def State.instrAt (s : State) (h : Nat) : Option Instr :=
  match s.fetch h with
  | .ok _ w => (decode w).toOption
  | _ => none


/-- A boundary of the hart is open to INTERRUPT and PREEMPT now (R291, R293, R304). -/
def Hart.boundaryOpen (x : Hart) : Bool := x.takesIrq && !x.headBusy

/-- INTERRUPT taken (R303, R427). -/
def State.takeIrq (s : State) (h : Nat) : State :=
  match s.pendingIrq h with
  | some (src, hub) => if (s.hart h).boundaryOpen then
      s.freeze h ⟨causeINTERRUPT, BitVec.ofNat 64 (src + 65536 * hub), 0, 0⟩ else s
  | none => s

/-- What pre-emption does before it parks the queue: P and its special states stand in the hart's image lines, which its
register store holds, so nothing is written to memory (R110, R207); streams keep their bound fields alone (R304, R335). -/
def State.drainP (s : State) (h : Nat) : State :=
  s.modHart h fun x => { x with q := x.q.map fun (q : Stream) => { q with fetched := [] } }

/-- PREEMPT taken (R304). -/
def State.takePreempt (s : State) (h : Nat) : State :=
  match (s.hart h).preempt with
  | some r => if (s.hart h).boundaryOpen then
      ((s.drainP h).modHart h fun x => { x with preempt := none, preempted := true }).freeze h ⟨causePREEMPT, BitVec.ofNat 64 r, 0, 0⟩ else s
  | none => s

/-- A boundary with nothing of rank 1 or 2: INTERRUPT goes before PREEMPT (R293). -/
def State.boundary (s : State) (h : Nat) : Option State :=
  if !(s.hart h).boundaryOpen then none
  else if (s.pendingIrq h).isSome then some (s.takeIrq h)
  else if (s.hart h).preempt.isSome then some (s.takePreempt h)
  else none

end Sys2Proof.Machine
end

