-- ==== Sys2Proof/Machine/Views.lean ====
section
/-! DEFINITION. Sys2Proof/Machine/Views.lean: the view catalogue: registration and removal, derivations, and the meanings of VIEWREG,
VIEWDEL, VIEWSYNC and VIEWSTAT (R374 to R385, R434). -/

namespace Sys2Proof.Machine

/-- The fields of a view descriptor (R374). -/
def viewRegOf (d : Nat) (asn : BitVec 16) (a : Word) : ViewReg :=
  { asn := asn, desc := a, rel := bitsOf d 0 2, fmt := bitsOf d 3 3, policy := bitsOf d 6 2, l2es := bitsOf d 8 2
    rows := bitsOf d 32 32, cols := bitsOf d 64 32, mbase := bitsOf d 128 64, mstride := bitsOf d 192 64
    vbase := bitsOf d 256 64, vstride := bitsOf d 320 64, tbase := bitsOf d 384 64
    dbase := 0, sbase := 0, sstride := 0, log2row := 0, frames := [] }

/-- A view descriptor at an address is ill-formed (R434). -/
def viewIll (r : ViewReg) (d : Nat) (a : Word) : Bool :=
  let far (v : Nat) : Bool := decide (2 ^ 48 ≤ v)
  !aligned a 128 || far a.toNat || far r.mbase || far r.vbase || far r.tbase ||
    decide (bitsOf d 2 1 ≠ 0) || decide (bitsOf d 10 22 ≠ 0) || decide (bitsOf d 96 32 ≠ 0) || decide (bitsOf d 448 576 ≠ 0) ||
    decide (r.rel = 3) || decide (r.policy = 3) ||
    (if r.rel = 0 then decide (r.fmt = 0) || decide (5 ≤ r.fmt) || decide (r.l2es ≠ 2) else decide (r.fmt ≠ 0)) ||
    (if r.rel = 2 then decide (r.policy ≠ 0) || decide (r.tbase % 8 ≠ 0) else decide (r.tbase ≠ 0)) ||
    decide (r.rows = 0) || decide (2 ^ 20 < r.rows) || decide (r.cols = 0) || decide (2 ^ 24 < r.cols) ||
    decide (r.rows % r.bh ≠ 0) || decide (r.cols % r.bw ≠ 0) || decide (2 ^ 20 < r.count) ||
    decide (r.mbase % 128 ≠ 0) || decide (r.vbase % 128 ≠ 0) ||
    decide (r.mstride < r.cols * r.es) || decide (r.mstride % r.es ≠ 0) || decide (r.vstride < r.cols * r.ves)

/-- The spans of VA, base and length, of a registration's master, view, scales and tag words. -/
def ViewReg.masterSpans (r : ViewReg) : List (Nat × Nat) := (List.range r.rows).map fun k => (r.masterVa k 0, r.cols * r.es)
def ViewReg.rowSpans (r : ViewReg) : List (Nat × Nat) := (List.range r.rows).map fun k => (r.viewVa k 0, r.cols * r.ves)
def ViewReg.scaleSpans (r : ViewReg) : List (Nat × Nat) := (List.range r.count).map fun b => (r.scaleVa b, r.scaleBytes)
def ViewReg.tagSpans (r : ViewReg) : List (Nat × Nat) := (List.range r.count).map fun b => (r.tbase + 8 * b, 8)

/-- The granules of spans. -/
def granulesOf (l : List (Nat × Nat)) : List Nat :=
  (l.flatMap fun p => (List.range ((p.1 + p.2 + 4095) / 4096 - p.1 / 4096)).map (p.1 / 4096 + ·)).dedup

/-- Granules translated: each with its frame and its PTE. -/
inductive RegMap where
  | ok (s : State) (l : Table (Nat × Word))
  | trap (t : Trap)
  | hold (key : Nat)
  deriving DecidableEq, Repr

/-- Granules translated in order (R382 step 2); TADDR is the granule's first byte. -/
def mapGranules (w : Who) (store : Bool) : List Nat → State → Table (Nat × Word) → RegMap
  | [], s, l => .ok s l
  | g :: r, s, l =>
    let a : Word := BitVec.ofNat 64 (4096 * g)
    if 2 ^ 36 ≤ g then .trap (w.trap (if store then causeSTORE_PAGE else causeLOAD_PAGE) a store 0)
    else match s.accessPage w (if store then .store else .load) (4096 * g) with
      | .fault c k => .trap (w.trap c a store k)
      | .poison => .trap (w.trap causeDATA_POISON a store 0)
      | .held k => .hold k
      | .ok s1 pa pte => mapGranules w store r s1 (l ++ [(g, (pa / 4096, pte))])

def RegMap.bind (m : RegMap) (s : State) (go : State → Table (Nat × Word) → Res) : Res :=
  match m with
  | .ok t l => go t l
  | .trap t => .trap s t
  | .hold k => .hold (s.holdRead s.cur (.queue k))

/-- Every granule of a list stands in space 0 with a given VC (R382 step 3). -/
def kindOk (l : Table (Nat × Word)) (vc : Bool) : Bool := l.all fun p => decide (spaceOf (4096 * p.2.1) = 0) && pteVC p.2.2 == vc

/-- Spans as pieces of PA, by the frames of a registration. -/
def ViewReg.pieces (r : ViewReg) (l : List (Nat × Nat)) : List (Nat × Nat) :=
  l.flatMap fun p => (granulesOf [p]).filterMap fun g =>
    let a := max p.1 (4096 * g)
    (r.pa a).map fun pa => (pa, min (p.1 + p.2) (4096 * (g + 1)) - a)

/-- Two sets of pieces share a byte. -/
def piecesMeet (l m : List (Nat × Nat)) : Bool :=
  l.any fun p => m.any fun q => decide (p.1 < q.1 + q.2) && decide (q.1 < p.1 + p.2)

def ViewReg.masterPieces (r : ViewReg) : List (Nat × Nat) := r.pieces r.masterSpans
def ViewReg.viewPieces (r : ViewReg) : List (Nat × Nat) :=
  if r.rel = 2 then [] else r.pieces (r.rowSpans ++ if r.rel = 0 then r.scaleSpans else [])

/-- The physical frames of a registration's master. -/
def ViewReg.masterFrames (r : ViewReg) : List Nat := (granulesOf r.masterSpans).filterMap fun g => tfind r.frames g

/-- A new registration conflicts with the catalogue (R382 step 4). -/
def State.regConflict (s : State) (r : ViewReg) : Bool :=
  let v := r.viewPieces
  let m := r.masterPieces
  piecesMeet v m ||
    (s.regs.any fun p => piecesMeet v (p.2.masterPieces ++ p.2.viewPieces) || piecesMeet p.2.viewPieces m) ||
    (r.masterFrames.any fun f => decide (4 ≤ (s.regs.filter fun p => p.2.masterFrames.contains f).length)) ||
    s.regs.any fun p => p.2.asn == r.asn && p.2.desc == r.desc

/-- There is room for a registration (R376, R382 step 5). -/
def State.regRoom (s : State) (r : ViewReg) : Bool :=
  decide (s.regs.length < 4096) && decide ((s.regs.filter fun p => hubOf p.2.mbase = hubOf r.mbase).length < 512)

/-- The lines of a registration's view and scales, where they stand in the package (R379). -/
def ViewReg.ownLines (r : ViewReg) : List Nat := r.viewPieces.flatMap fun p => spanLines p.1 p.2

/-- A registration installed: its watches stand, EM copies of master lines are recalled, and its blocks are queued, STALE
with VER 1 (R377, R382); no die keeps a line of a view that is not FRESH (R379). -/
def State.addReg (s : State) (r : ViewReg) : State :=
  let n := s.nextReg
  let master := r.masterFrames
  let alone (l : Nat) : Bool := master.contains (l / 32) && match s.dirOf l with
    | .em _ => true
    | _ => false
  let own := r.ownLines
  let s0 := s.recallWhere fun l => alone l || own.contains l
  let s1 : State := { s0 with regs := s0.regs ++ [(n, r)], nextReg := n + 1 }
  (List.range r.count).foldl (fun s b => s.modHub (r.home b) fun u => u.queueDeriv (n, b)) s1

/-- PROTECT of the catalogue (R381). -/
def trapView (reason : Nat) (a : Word) : Trap := trapReason reason a

/-- The checks of R382 from step 3 on; the registration is asked of its home (R271, R376). -/
def viewregFinish (r : ViewReg) (a : Word) (kinds : Bool) (s : State) : Res :=
  if !kinds || s.regConflict r then .trap s (trapView 15 a)
  else if !s.regRoom r then .trap s (trapView 14 a)
  else s.askHub s.cur (hubOf r.mbase) fun t => .ok ((t.endHolds t.cur).addReg r)

/-- VIEWREG of a FORMAT view whose master and view granules are mapped: one FREC, its record, and the scale granules, which an
ill-formed record, or one whose DBASE lies above the view, does not give. -/
def viewregFormat (w : Who) (r : ViewReg) (a : Word) (lm lv : Table (Nat × Word)) (s : State) : Res :=
  let frec := ((lv.head?).map fun p => pteFREC p.2.2).getD 0
  let same (code : Nat) := lv.all fun p => decide (pteFREC p.2.2 = frec) && decide (pteFMT p.2.2 = r.fmt) && decide (code = r.fmt)
  let frames (l : Table (Nat × Word)) : Table Nat := (lm ++ lv ++ l).map fun p => (p.1, p.2.1)
  match s.drawPick.2.readRecord w.h w.asn r.vbase frec (s.drawPick.1.getLsbD frec) with
  | .poison => .trap s (w.trap causeDATA_POISON (BitVec.ofNat 64 r.vbase) false 0)
  | .ill => .trap s (trapView 15 a)
  | .held k => .hold (s.holdRead s.cur k)
  | .ok s1 x =>
    let k := frecOf x
    if !frecOk x k.code || decide (r.vbase < k.dbase) then .trap s (trapView 15 a)
    else
      let q : ViewReg := { r with dbase := k.dbase, sbase := k.sbase, sstride := k.sstride, log2row := k.log2row }
      (mapGranules w false (granulesOf q.scaleSpans) s1 []).bind s fun s2 ls =>
        viewregFinish { q with frames := frames ls } a
          (same k.code && kindOk lm false && kindOk lv true && kindOk ls true && ls.all fun p => decide (pteFMT p.2.2 = 0)) s2

/-- VIEWREG (R382). -/
def viewregBody (o : Fields) (s : State) : Res :=
  s.waitAccesses s.cur fun s =>
    let h := s.cur
    let x := s.hart h
    let a := x.reg o.a.toNat
    let w := s.who h x.sup false a
    if !aligned a 128 then .trap s (trapView 10 a)
    else match s.readBlock w a with
      | .held k => .hold (s.holdRead h k)
      | .stop f => .stop f
      | .fault t => .trap s t
      | .ok s0 d _ =>
        let r := viewRegOf d x.asn a
        if viewIll r d a then .trap s0 (trapView 10 a)
        else
          let far := decide (r.rel = 2)
          (mapGranules w false (granulesOf r.masterSpans) s0 []).bind s0 fun s1 lm =>
            (mapGranules w far (granulesOf r.rowSpans) s1 []).bind s0 fun s2 lv =>
              if r.rel = 0 then viewregFormat w r a lm lv s2
              else if far then
                (mapGranules w true (granulesOf r.tagSpans) s2 []).bind s0 fun s3 lt =>
                  viewregFinish { r with frames := (lm ++ lv ++ lt).map fun p => (p.1, p.2.1) } a
                    (kindOk lm false && [tfind lv (r.vbase / 4096), tfind lt (r.tbase / 4096)].all fun p =>
                      p.any fun p => decide (spaceOf (4096 * p.1) = 2)) s3
              else viewregFinish { r with frames := (lm ++ lv).map fun p => (p.1, p.2.1) } a
                (kindOk lm false && kindOk lv true) s2

def execViewreg (o : Fields) (s : State) : Out := issue (.viewreg o) o (viewregBody o) s

/-- What a derivation computes: the bytes of each row of the view block, and of its scale, by VA; SAT and NV (R375). -/
structure Derived where
  rows : List (Nat × List Byte)
  sat : Bool
  nv : Bool
  deriving DecidableEq, Repr

/-- The W code of a format (R226). -/
def fmtType (fmt : Nat) : Nat := if fmt = 4 then 14 else if fmt = 3 then 9 else 8

def deriveBlock (r : ViewReg) (b : Nat) (data : List Nat) : Derived :=
  let at_ (i j : Nat) : Nat := (data[i * r.bw + j]?).getD 0
  let row (f : Nat → Nat → List Byte) : List (Nat × List Byte) := (List.range r.bh).map fun i =>
    (r.viewVa (r.row0 b + i) (r.col0 b), (List.range r.bw).flatMap (f i))
  if r.rel = 0 then
    let w := fmtType r.fmt
    let sc := scaleOf w (data.foldl (fun a x => max a (fmtF32.finMag x)) 0)
    let q := data.map (quantUnder w false sc)
    let fl := q.foldl (fun f y => f ||| y.flags) (0 : BitVec 8)
    ⟨row (fun i j => leBytes 1 (((q[i * r.bw + j]?).map FRes.code).getD 0)) ++ [(r.scaleVa b, leBytes r.scaleBytes sc)],
      fl &&& flagSAT != 0, fl &&& flagNV != 0⟩
  else if r.rel = 1 then ⟨row fun i j => leBytes r.es (at_ j i), false, false⟩
  else ⟨row fun i j => leBytes r.es (at_ i j), false, false⟩

/-- A line of a view as the curator finds it: its PA, a cause of failure, or the page or line where it waits (R378). -/
inductive CuratorAt where
  | at_ (pa : Nat)
  | fail (c : BitVec 8)
  | wait (key : Nat)
  deriving DecidableEq, Repr

/-- The checks of orders 1 and 5 of R220 on a VA, by the curator of a hub. -/
def State.curatorPa (s : State) (hub : Nat) (r : ViewReg) (va : Nat) : CuratorAt :=
  match s.pageTurn (curPlace hub) r.asn va with
  | some k => .wait k
  | none => match s.findLeaf r.asn va with
  | .poison => .fail causeDATA_POISON
  | .held _ => .wait (walkKey r.asn va)
  | .invalid => .fail causeSTORE_PAGE
  | .leaf pte n _ =>
    let frame := ptePFN pte * 4096
    let pa := frame + va % 2 ^ n
    if frame % 2 ^ n ≠ 0 ∨ beyondSpace frame then .fail causeSTORE_PAGE
    else if pteMIG pte then .wait (pageKey frame n va)
    else if spaceOf pa = 0 ∧ hubOf va ≠ hubOfPa pa then .fail causePROTECT
    else if spaceOf pa = 2 ∧ !s.reachable va pa then .fail causeREMOTE_LOST
    else if s.homeWaits (lineOf pa * 128) 128 || s.waitsTurn (curPlace hub) (lineOf pa) then .wait (lineOf pa)
    else if spaceOf pa = 2 then .at_ pa
    else if s.poisoned pa 1 then .fail causeDATA_POISON
    else .at_ pa

/-- The rows of a block cut at the lines of the VA. -/
def cutLines (l : List (Nat × List Byte)) : List (Nat × List Byte) :=
  l.flatMap fun p => (List.range (lineCount p.1 p.2.length)).map fun k =>
    let c := linePart p.1 p.2.length k
    (p.1 + c.1, (p.2.drop c.1).take c.2)

/-- Bytes of a view block written: to a line of the package, or by a posted store to a peer, whose home recalls the copies
(R378, R380). -/
def State.curatorPut (s : State) (pa : Nat) (bs : List Byte) : State :=
  if spaceOf pa = 2 then (s.recallLine (lineOf pa)).write pa bs
  else ((s.moveDir (homeHub 0 (lineOf pa)) (lineOf pa) .i).useGot (lineOf pa)).homeWrite pa bs

/-- The tag word of a SHARD block (R380). -/
def State.tagWord (s : State) (hub : Nat) (r : ViewReg) (b : Nat) (tag : BitVec 16) (bad : Bool) : State :=
  match s.curatorPa hub r (r.tbase + 8 * b) with
  | .at_ pa => (s.recallLine (lineOf pa)).write pa (leBytes 8 (tag.toNat + (if bad then 65536 else 0)))
  | _ => s

/-- The bytes of a block's view rows and scale as they stand, by PA (R379). -/
def State.blockRows (s : State) (r : ViewReg) (b : Nat) : List (Nat × List Byte) :=
  (r.pieces (r.viewSpans b)).map fun p => (p.1, memBytes s.mem p.1 p.2)

/-- The reads held on a registration's blocks that `who` selects are served, with P and the bytes that their blocks hold
(R379, R383). -/
def State.serveReads (s : State) (r : ViewReg) (who : HeldRead → Bool) (flag : BitVec 8) : State :=
  let mine (q : HeldRead) : Bool := who q && q.got.isNone
  let serve (q : HeldRead) : HeldRead :=
    if mine q then { q with got := some ⟨(s.block q.reg q.block).p, s.blockRows r q.block⟩ } else q
  let give (x : Hart) : Hart := { x.orFlags flag with heldReads := x.heldReads.map serve }
  { s with harts := s.harts.map fun x => if x.heldReads.any mine then give x else x }

/-- A derivation ends: it publishes its block, or fails, and serves the reads that waited for a tag which covers theirs (R377
to R380). It takes its place where a line or its tag word must be waited for; and its stores wait for their own notices. -/
def State.derivPublish (s : State) (hub : Nat) : State :=
  match (s.hub hub).deriv with
  | none => s
  | some d => match tfind s.regs d.reg with
    | none => s.modHub hub fun u => { u with deriv := none }
    | some r =>
      let out := deriveBlock r d.block d.data
      let places := (cutLines out.rows).map fun p => (s.curatorPa hub r p.1, p.2)
      let tag := if r.rel = 2 then [s.curatorPa hub r (r.tbase + 8 * d.block)] else []
      let waits := (places.map Prod.fst ++ tag).findSome? fun p => match p with
        | .wait k => some k
        | _ => none
      let lines := places.filterMap fun p => match p.1 with
        | .at_ pa => some (lineOf pa)
        | _ => none
      let stores := places.filterMap fun p => match p.1 with
        | .at_ pa => some (pa, p.2.length)
        | _ => none
      if s.resync || !s.canWriteAll stores then s
      else match waits with
      | some k => s.queueUp (curPlace hub) k
      | none =>
        let vas := (cutLines out.rows).map Prod.fst ++ if r.rel = 2 then [r.tbase + 8 * d.block] else []
        let s := vas.foldl (fun t va => t.noteWalk r.asn va) (s.leaveCurator hub)
        let cause := if d.cause ≠ 0 then d.cause else (places.findSome? fun p => match p.1 with
          | .fail c => some c
          | _ => none).getD 0
        let ok := cause == 0
        let put (s : State) (p : CuratorAt × List Byte) : State := match p.1 with
          | .at_ pa => s.curatorPut pa p.2
          | _ => s
        let s1 : State := if ok then places.foldl put (s.sendHomes hub r.asn lines) else s
        let s2 := if r.rel = 2 then s1.tagWord hub r d.block d.tagr (!ok) else s1
        let x := s2.block d.reg d.block
        let y : ViewBlock := { x with
          tag := d.tagr, st := if x.redo then .stale else .fresh, redo := false, p := !ok, published := true
          sat := if ok then out.sat else x.sat, nv := if ok then out.nv else x.nv, cause := if ok then x.cause else cause }
        let s3 := (s2.setBlock d.reg d.block y).modHub hub fun u =>
          let u1 : Hub := { u with deriv := none }
          if x.redo then u1.queueDeriv (d.reg, d.block) else u1
        (s3.serveReads r (fun q => decide (q.reg = d.reg) && decide (q.block = d.block) && covers d.tagr q.ver) 0).countHub hub (if ok then 0x4A else 0x4B) 1

/-- The derivations of registration n that have started end, where they can (R383 step 2). -/
def State.endDerivs (s : State) (n : Nat) : State :=
  (List.range 8).foldl (fun s hub => match (s.hub hub).deriv with
    | some d => if d.reg = n then s.derivPublish hub else s
    | none => s) s

/-- A derivation of registration n is in progress. -/
def State.derives (s : State) (n : Nat) : Bool :=
  (List.range 8).any fun hub => (s.hub hub).deriv.any fun d => decide (d.reg = n)

/-- A registration removed: its queued derivations go, and its held reads are served what its blocks hold, with FCSR.VS (R383
steps 1 to 4). -/
def State.dropReg (s : State) (n : Nat) (r : ViewReg) : State :=
  let s1 := s.serveReads r (fun q => decide (q.reg = n)) flagVS
  { s1 with
    regs := s1.regs.filter fun p => p.1 ≠ n
    blocks := s1.blocks.filter fun p => p.1 / 2 ^ 20 ≠ n
    hubs := s1.hubs.map fun (u : Hub) => ({ u with
      derivQ := u.derivQ.filter fun p => p.1 ≠ n, derivWait := u.derivWait.filter fun p => p.1 ≠ n } : Hub).fillDerivs }

/-- The registration of a descriptor's VA (R383, R385). -/
def State.regOf (s : State) (asn : BitVec 16) (a : Word) : Option (Nat × ViewReg) :=
  s.regs.find? fun p => p.2.asn == asn && p.2.desc == a

def viewdelBody (o : Fields) (s : State) : Res :=
  s.waitAccesses s.cur fun s =>
    let x := s.hart s.cur
    let a := x.reg o.a.toNat
    match s.regOf x.asn a with
    | none => .trap s (trapView 15 a)
    | some (n, r) =>
      let t := s.endDerivs n
      if t.derives n then .hold t else t.askHub t.cur (hubOf r.mbase) fun u => .ok (u.dropReg n r)

/-- VIEWDEL (R383). -/
def execViewdel (o : Fields) (s : State) : Out := issue (.viewdel o) o (viewdelBody o) s

/-- VIEWSYNC with a tag, P, and whether the tag may serve: P traps at once; else it returns, times out, or the hart is held
(R384). -/
def syncStep (o : Fields) (a : Word) (tag : BitVec 16) (bad ready : Bool) (s : State) : Res :=
  let h := s.cur
  let b := ((s.hart h).reg o.b.toNat).toNat
  let t := bitsOf b 16 32
  if bad then .trap s ⟨causeVIEW_POISON, 0, a, 0⟩
  else if ready && covers tag (BitVec.ofNat 16 b) then .ok ((s.endHolds h).waitOver h)
  else if t ≠ 0 ∧ t ≤ s.waited h then .trap s ⟨causeVIEW_STALE, tag.setWidth 64, a, 0⟩
  else .hold (s.modHart h fun x => { x with waitFrom := some (x.waitFrom.getD s.cyc) })

/-- A scalar instruction that asks the home of the view block at an address, translated as a load (R384, R385): `go` has the
state, the PA and what leaves the die for the home. -/
def viewAsk (o : Fields) (s : State) (go : State → Nat → (State → State) → Res) : Res :=
  let h := s.cur
  let x := s.hart h
  let a := x.reg o.a.toNat
  let w := s.who h x.sup false a
  if 2 ^ 48 ≤ a.toNat then .trap s (w.trap causeLOAD_PAGE a false 0)
  else match s.accessPage w .load a.toNat with
    | .fault c r => .trap s (w.trap c a false r)
    | .poison => .trap s (w.trap causeDATA_POISON a false 0)
    | .held k => .hold (s.holdRead h (.queue k))
    | .ok s1 pa _ => match lowestDie (s1.taint w.asn) with
      | some d => .trap s { trapDieLost d false a with taddr2 := a }
      | none =>
        if s1.resync then .hold s1
        else go s1 pa fun t => (t.endHolds h).travel x.die (hubOf a.toNat) (lineOf pa) w.asn

/-- VIEWSYNC, the view form (R384). A hart held on a block whose registration VIEWDEL has removed meanwhile finds it gone, whatever
is registered there now (R383). -/
def viewsyncBody (o : Fields) (s : State) : Res :=
  let x := s.hart s.cur
  let gone := x.waitFrom.isSome && x.syncOn.any fun n => (tfind s.regs n).isNone
  if gone then .trap s (trapView 15 (x.reg o.a.toNat))
  else viewAsk o s fun s1 pa ask =>
    let a := (s.hart s.cur).reg o.a.toNat
    match (if spaceOf pa = 0 then s1.viewBlockOf pa else none) with
    | none => .trap s1 (trapView 15 a)
    | some (reg, b) =>
      let v := s1.block reg b
      match syncStep o a v.tag v.p (v.st == .fresh) s1 with
      | .ok t => .ok (ask t)
      | .hold t => .hold (t.modHart t.cur fun y => { y with syncOn := some reg })
      | r => r

/-- VIEWSYNC (R384). -/
def execViewsync (o : Fields) (s : State) : Out := issue (.viewsync o) o (viewsyncBody o) s

/-- VIEWSYNC.TW: the word is read by an atomic that writes nothing (R384). -/
def viewsyncTwBody (o : Fields) (s : State) : Res :=
  let h := s.cur
  let x := s.hart h
  let a := x.reg o.a.toNat
  if !aligned a 8 then .trap s (misalign a a false true)
  else match s.atomicEl (s.who h x.sup false a) a 8 false (fun _ => (none, 0)) with
    | .fault t => .trap s t
    | .held r => .hold (s.holdRead h r)
    | .stop f => .stop f
    | .ok t v _ => syncStep o a (BitVec.ofNat 16 v) (bitOf v 16) true t

def execViewsyncTw (o : Fields) (s : State) : Out := issue (.viewsyncTw o) o (viewsyncTwBody o) s

/-- The code of a block's state (R385). -/
def BlockSt.code : BlockSt → Nat
  | .fresh => 0
  | .stale => 1
  | .deriving_ => 2

/-- VIEWSTAT's word for a block, or NOREG (R385). -/
def State.statWord (s : State) (p : Option (Nat × Nat)) : Word :=
  match p with
  | none => 0x8000000000000000
  | some (reg, b) => match tfind s.regs reg with
    | none => 0x8000000000000000
    | some r =>
      let x := s.block reg b
      BitVec.ofNat 64 (x.tag.toNat + 2 ^ 16 * x.ver.toNat + 2 ^ 32 * x.st.code + 2 ^ 34 * x.p.toNat + 2 ^ 35 * x.sat.toNat +
        2 ^ 36 * x.nv.toNat + 2 ^ 37 * r.rel + 2 ^ 40 * x.cause.toNat)

/-- VIEWSTAT, the view form (R385). -/
def viewstatBody (o : Fields) (s : State) : Res :=
  s.waitMemory s.cur .load [lineSpan ((s.hart s.cur).reg o.a.toNat)] fun s =>
    viewAsk o s fun s1 pa ask =>
      .ok ((ask s1).modHart s.cur fun y => y.varResult o.d.toNat (s1.statWord (s1.statBlockOf pa)))

def execViewstat (o : Fields) (s : State) : Out := issue (.viewstat o) o (viewstatBody o) s

/-- VIEWSTAT.D: the block of a registration by its number (R385), asked of the home of the registration. -/
def viewstatDBody (o : Fields) (s : State) : Res :=
  s.waitMemory s.cur .load [everywhere false] fun s =>
    let h := s.cur
    let x := s.hart h
    let a := x.reg o.a.toNat
    let b := (x.reg o.b.toNat).toNat
    let p := (s.regOf x.asn a).bind fun p => if b < p.2.count then some (p.1, b) else none
    let hub := match p with
      | some (reg, b) => ((tfind s.regs reg).map fun r => r.home b).getD 0
      | none => hubOf a.toNat
    match lowestDie (s.taint x.asn) with
    | some d => .trap s { trapDieLost d false a with taddr2 := a }
    | none =>
      if s.resync then .hold s
      else .ok ((s.exchange x.die (24 + hub) (some x.asn)).modHart h fun y => y.varResult o.d.toNat (s.statWord p))

def execViewstatD (o : Fields) (s : State) : Out := issue (.viewstatD o) o (viewstatDBody o) s

end Sys2Proof.Machine
end

