-- ==== Sys2Proof/Machine/EventsHart.lean ====
section
/-! DEFINITION. Sys2Proof/Machine/EventsHart.lean: the events of harts and cores: results landing, the vector queue, interrupts and
pre-emption, register stores, the budget, prefetching, and the ends of waits (R65, R99, R110, R155, R211, R287 to R295, R303,
R304, R318, R329, R335, R344, R384, R386, R400). -/

namespace Sys2Proof.Machine

/-- The vector unit's work as the end of an event. -/
def Drive.out : Drive → Out
  | .ok s => .next s
  | .stop f => .fault f

/-- Cores counted for n cycles: cycles, cycles with a hart held at a full queue, and cycles waiting for budget (R401). -/
def State.countCycles (s : State) (n : Nat) : State :=
  let one (s : State) (p : Nat × Core) : State :=
    let held := s.harts.any fun x => x.heldPush && x.bound && x.coreNo == p.1
    let s1 := s.countCore p.1 0x01 n
    let s2 := if held then s1.countCore p.1 0x04 n else s1
    if p.2.budgetWait.isEmpty then s2 else s2.countCore p.1 0x08 n
  { s with cores := (s.cores.foldl one s).cores }

/-- n refills of every budget counter (R400); a counter that no core lists is full. -/
def State.refill (s : State) (n : Nat) : State :=
  { s with cores := s.cores.map fun p => (p.1, { p.2 with level := min 65535 (p.2.level + n * tget s.rate (p.1 / 32) 512) }) }

/-- n cycles pass (R386, R400). -/
def State.tick (s : State) (n : Nat) : State :=
  let next := s.cyc + BitVec.ofNat 64 n
  let s1 := { s.countCycles n with cyc := next }
  let k := (s.cyc.toNat % 64 + n) / 64
  if k = 0 then s1 else s1.refill k

/-- CYCLE_TICK (R386). -/
def execCycleTick (s : State) : Out := .next (s.tick 1)

/-- The outstanding write with the least distance to go lands now (R65). -/
def Hart.landNow (x : Hart) : Hart :=
  let live := x.pend.filter fun w => !w.landed
  match live.foldl (fun (m : Option Nat) w => some (min (m.getD w.left) w.left)) none with
  | none => x
  | some n => match x.pend.findIdx? fun w => !w.landed && decide (w.left = n) with
    | none => x
    | some k => match x.pend[k]? with
      | none => x
      | some w => { x.landOne w with pend := modAt x.pend k fun v => { v with landed := true, flags := 0 } }

/-- SCALAR_WRITE_LAND (R65): the time since issue covers the latency before the distance does (log 9). -/
def execScalarWriteLand (h : Nat) (s : State) : Out := .next (s.modHart h Hart.landNow)

/-- A hart's held mark cleared, so that its instruction runs again at its next turn. -/
def State.release (s : State) (h : Nat) : State := s.modHart h fun x => { x with held := false, heldPush := false }

/-- JOIN_RELEASE (R155): the queue runs up to the join's producer, and the hart goes on. -/
def execJoinRelease (h : Nat) (s : State) : Out := ((s.drainAll h).bind fun t => .ok ((t.settle h).release h)).out

/-- QUEUE_PUSH_RESUME (R287): the vector unit makes room, and the hart goes on. -/
def execQueuePushResume (h : Nat) (s : State) : Out := ((s.drainAll h).bind fun t => .ok ((t.settle h).release h)).out

/-- QUEUE_ENTRY_START (R191, R211, R287): `steps` bounds a data-dependent entry's steps. -/
def execQueueEntryStart (core steps : Nat) (s : State) : Out :=
  match s.pickEntry core none [] with
  | none => .next s
  | some h => ((s.noteTaken core h none []).performHead h (some steps)).out

/-- QUEUE_ENTRY_COMPLETE (R99). -/
def execQueueEntryComplete (h : Nat) (s : State) : Out := .next (s.completeHead h)

/-- VECTOR_FAULT (R290). -/
def execVectorFault (h : Nat) (s : State) : Out := .next (s.settle h)

/-- QUEUE_FAULT (R295): only an entry pushed while the vector unit was frozen causes it. -/
def execQueueFault (h : Nat) (s : State) : Out :=
  match (s.hart h).queue with
  | e :: _ => .next (if e.frz then s.settle h else s)
  | [] => .next s

/-- INTERRUPT (R303). -/
def execInterrupt (h : Nat) (s : State) : Out := .next (s.takeIrq h)

/-- PREEMPT (R304): the request, taken at once where the boundary allows it, behind an interrupt that is pending (R293). -/
def execPreempt (h requester : Nat) (s : State) : Out :=
  let x := s.hart h
  if !x.bound || x.stopped then .next s
  else
    let t := if x.preempt.isSome then s else s.modHart h fun x => { x with preempt := some requester }
    .next ((t.boundary h).getD t)

/-- A line of a bound hart's image comes in, where it is absent (R110, R111); a saved queue entry, FMASK or VPROG that is found
poisoned is an uncontained fault of the hart's ASN (R320). -/
def State.bringLine (s : State) (h k : Nat) : State :=
  if !(s.hart h).bound || s.lineState h k != .absent then s
  else
    let t := s.fillLine h k
    let x := t.hart h
    if t.lineState h k != .absent && x.replayState.contains k && decide (tget x.rsPoison k 0 ≠ 0) then t.asnFault (x.die / 3) x.asn else t

/-- Every absent line of a hart comes in from its image (R110). DESIGN CHOICE (log 49): the fills are made together, before
the hart's next instruction. -/
def State.bringLines (s : State) (h : Nat) : State :=
  ((s.core (s.hart h).coreNo).store.filter fun l => l.hart == h && l.absent).foldl (fun t l => t.bringLine h l.line) s

/-- REGSTORE_FILL (R110): a line comes in pinned, from the image with its poison where it had left the store (R111). -/
def execRegstoreFill (h line : Nat) (s : State) : Out := .next (if imageLines ≤ line then s else s.bringLine h line)

/-- BUDGET_CHARGE (R211): the engine takes the head of the hart's queue, an instruction of group 7, where the core would take
that entry next (R287). -/
def execBudgetCharge (h : Nat) (s : State) : Out :=
  let core := (s.hart h).coreNo
  match (s.hart h).queue with
  | e :: _ =>
    if groupOf e.instr != 7 || s.pickEntry core none [] != some h then .next s
    else (((s.noteTaken core h none []).performHead h none).bind fun t => .ok (t.completeHead h)).out
  | [] => .next s

/-- BUDGET_REFILL (R400): the cycles up to the next multiple of 64 pass, and every budget counter is refilled. -/
def execBudgetRefill (s : State) : Out := .next (s.tick (64 - s.cyc.toNat % 64))

/-- The most that the governor may set RATE to: 0 at 105 degrees and above, which a loss of flow counts as, and less than it
is at reset from 95 degrees on (R400, R433; log 46). -/
def State.rateCap (s : State) (die : Nat) : Nat :=
  if s.flowLost ∨ 105 ≤ tget s.temps die 0 then 0 else if 95 ≤ tget s.temps die 0 then 511 else 4095

/-- GOVERNOR_UPDATE (R400, R433). -/
def execGovernorUpdate (die : Nat) (rate : BitVec 12) (s : State) : Out :=
  if 24 ≤ die then .next s
  else .next { s with rate := tset s.rate die (min (s.rateCap die) rate.toNat) }

/-- STREAM_PREFETCH (R335). -/
def execStreamPrefetch (h q n : Nat) (s : State) : Out := .next (s.prefetchStream h q n)

/-- The instruction a waiting hart stands at looks at its wait again; `pick` says which instructions the event is for. -/
def State.lookAgain (s : State) (h : Nat) (pick : Instr → Option (State → Out)) : Out :=
  if !(s.hart h).bound then .next s
  else match (s.instrAt h).bind pick with
    | some f => f { s with cur := h }
    | none => .next s

/-- PROMISE_MISSED (R344): WAITT's look, which tests completion first. -/
def execPromiseMissed (h : Nat) (s : State) : Out :=
  s.lookAgain h fun i => match i with
    | .waitt o => if (s.hart h).waiting then some (execWaitt o) else none
    | _ => none

/-- VIEWSYNC_TIMEOUT (R384). -/
def execViewsyncTimeout (h : Nat) (s : State) : Out :=
  s.lookAgain h fun i =>
    if (s.hart h).waitFrom.isNone then none
    else match i with
      | .viewsync o => some (execViewsync o)
      | .viewsyncTw o => some (execViewsyncTw o)
      | _ => none

/-- SLEEP_TIMEOUT (R329). -/
def execSleepTimeout (h : Nat) (s : State) : Out :=
  s.lookAgain h fun i => match i with
    | .sleep o => if (s.hart h).waiting then some (execSleep o) else none
    | _ => none

/-- VIEW_READ (R379): a held read arrives again at the view's home; a queued one is at the head of its queue, and a scalar
one runs again at the hart's next turn. -/
def execViewRead (h : Nat) (s : State) : Out :=
  if (s.hart h).heldReads.isEmpty then .next s
  else ((s.drainAll h).bind fun t => .ok ((t.settle h).release h)).out

/-- WAIT_UNBIND (R318). -/
def execWaitUnbind (h : Nat) (s : State) : Out :=
  let x := s.hart h
  if x.waiting && x.bound && decide (65536 < s.waited h) then .next ((s.unbind h).countCore x.coreNo 0x11 1) else .next s

/-- The wait of a hart is over, or it does not wait (R318, R324). -/
def State.waitDone (s : State) (h : Nat) : Bool :=
  let x := s.hart h
  if !x.waiting then true
  else
    let s1 := { s with cur := h }
    let ends (r : Res) : Bool := match r with
      | .hold _ => false
      | _ => true
    match s.instrAt h with
    | some (.waitt o) => ends (waittBody o s1)
    | some (.waitb o) => ends (waitbBody o s1)
    | some (.sleep o) => ends (sleepBody o s1)
    | some (.waitseq o) => ends (waitseqBody o s1)
    | _ => true

/-- WAIT_REBIND (R313, R318). -/
def execWaitRebind (h : Nat) (s : State) : Out :=
  if s.waitDone h then .next ((s.rebind h).getD s) else .next s

end Sys2Proof.Machine
end

