-- ==== Sys2Proof/Machine/Tables.lean ====
section
/-! DEFINITION. Sys2Proof/Machine/Tables.lean: the meanings of CLBINV, MTLBINV, FRECINV, BIASSET and PMIG, and the steps of a bias
flip and of a migration (R282, R354, R355, R359 to R363, R372). -/

namespace Sys2Proof.Machine

/-- Entries of a look-aside buffer dropped: those of an ASN, and of one ROOT where it is given (R372). -/
def Core.dropTiles (c : Core) (asn : BitVec 16) (root : Option Word) : Core :=
  { c with clb := c.clb.filter fun e => !(e.asn == asn && (root.isNone || root == some e.root)) }

/-- The ROOT that CLBINV names (R372). -/
def clbRoot (a : Word) : Word := a &&& 0x0000FFFFFFFFFF80#64

/-- An instruction whose completion is a causal broadcast from its die: a resync holds it (R271, R355, R372, R397). -/
def State.announce (s : State) (h : Nat) (f : State → State) : Res :=
  if s.resync then .hold s else .ok (s.broadcast (s.hart h).die f)

/-- CLBINV at a scope (R372). -/
def clbinvBody (o : Fields) (root : Hart → Option Word) (s : State) : Res :=
  s.waitAccesses s.cur fun t =>
    let x := t.hart t.cur
    let pkg := decide (fN o % 8 = 4)
    let drop (t : State) : State := { t with cores := t.cores.map fun p =>
      if (pkg || decide (p.1 / 32 = x.die)) = true then (p.1, p.2.dropTiles x.asn (root x)) else p }
    if pkg then t.announce t.cur drop else .ok (drop t)

/-- CLBINV (R372). -/
def execClbinv (o : Fields) (s : State) : Out :=
  issue (.clbinv o) o (clbinvBody o fun x => some (clbRoot (x.reg o.a.toNat))) s

/-- CLBINV.ALL (R372). -/
def execClbinvAll (o : Fields) (s : State) : Out := issue (.clbinvAll o) o (clbinvBody o fun _ => none) s

/-- What an MTLBINV covers: an entry of an ASN, or global, over a range of addresses (R355). -/
def scopeHits (c : InvScope) (asn : BitVec 16) (glob : Bool) (lo size : Nat) : Bool :=
  match c with
  | .page a b z _ => (glob || asn == a) && decide (b < lo + size) && decide (lo < b + z)
  | .asn a _ => !glob && asn == a
  | .all _ => true

def scopePurge : InvScope → Bool
  | .page _ _ _ p => p
  | .asn _ p => p
  | .all p => p

/-- A hub translator drops its entries, and its snapshots of ASN entries for the wider forms (R350, R355). -/
def Hub.dropEntries (u : Hub) (c : InvScope) : Hub :=
  { u with
    tlb := u.tlb.filter fun t => !scopeHits c t.asn t.glob t.vbase (2 ^ t.sizeBits)
    asnSnaps := match c with
      | .page .. => u.asnSnaps
      | .asn a _ => u.asnSnaps.filter fun p => p.1 ≠ a.toNat
      | .all _ => [] }

/-- The lines whose tag record lies in the range. -/
def State.tagged (s : State) (c : InvScope) (line : Nat) : Bool :=
  match tfind s.tags (line / 32) with
  | some t => scopeHits c t.asn t.glob (4096 * t.granule) 4096
  | none => false

/-- An instruction cache without the lines of the range. -/
def Core.sweep (k : Core) (c : InvScope) : Core :=
  { k with icache := k.icache.filter fun l => !scopeHits c l.asn l.glob (128 * l.line) 128 }

/-- The purge of every die (R353, R355). A retained snapshot in the range goes, whatever its ASN: R275 allows the new
contents to every reader. -/
def State.purgeAll (s : State) (c : InvScope) : State :=
  let s1 := s.recallWhere (s.tagged c)
  let s2 : State := { s1 with
    tags := s1.tags.filter fun p => !scopeHits c p.2.asn p.2.glob (4096 * p.2.granule) 4096
    cores := s1.cores.map fun p => (p.1, p.2.sweep c) }
  s2.dropBlockSnaps fun b => scopeHits c b.asn (match c with
    | .page .. => true
    | _ => false) b.va 128

/-- The effect of an MTLBINV on the whole package (R355). -/
def State.invalidate (s : State) (c : InvScope) : State :=
  let s1 := { s with hubs := s.hubs.map fun (u : Hub) => u.dropEntries c }
  if scopePurge c then s1.purgeAll c else s1

/-- A purge must wait for a line: an engine writes it, or the host has a modified half to write back (R355, R356). -/
def State.purgeWaits (s : State) (c : InvScope) : Bool := scopePurge c && s.dir.any fun p => s.tagged c p.1 && p.2.busy

/-- MTLBINV on the range that its operands name (R355). -/
def mtlbinvBody (f : Hart → InvScope) (s : State) : Res :=
  s.waitAccesses s.cur fun t =>
    let c := f (t.hart t.cur)
    if t.purgeWaits c then .hold t else t.announce t.cur fun u => u.invalidate c

/-- The size of a `.PAGE` form (R355). -/
def pageBits (o : Fields) : Nat :=
  match fN o / 4 % 4 with
  | 0 => 12
  | 1 => 16
  | 2 => 21
  | _ => 30

/-- MTLBINV.PAGE (R355). -/
def execMtlbinvPage (o : Fields) (s : State) : Out :=
  issue (.mtlbinvPage o) o (mtlbinvBody fun x =>
    let n := 2 ^ pageBits o
    .page ((x.reg o.b.toNat).setWidth 16) (bitsOf (x.reg o.a.toNat).toNat 0 48 / n * n) n (o.f.getLsbD 4)) s

/-- MTLBINV.ASN (R355). -/
def execMtlbinvAsn (o : Fields) (s : State) : Out :=
  issue (.mtlbinvAsn o) o (mtlbinvBody fun x => .asn ((x.reg o.b.toNat).setWidth 16) (o.f.getLsbD 4)) s

/-- MTLBINV.ALL (R355). -/
def execMtlbinvAll (o : Fields) (s : State) : Out := issue (.mtlbinvAll o) o (mtlbinvBody fun _ => .all (o.f.getLsbD 4)) s

/-- FRECINV (R363): one record of an ASN, or all of them together with FRBASE, which the snapshot of R350 holds. -/
def frecinvBody (o : Fields) (all : Bool) (s : State) : Res :=
  s.waitAccesses s.cur fun t =>
    let asn : BitVec 16 := ((t.hart t.cur).reg o.a.toNat).setWidth 16
    t.announce t.cur fun u =>
      let u1 : State := { u with frecSnaps := u.frecSnaps.filter fun f => !(f.asn == asn && (all || decide (f.n = o.imm.toNat))) }
      if all then { u1 with hubs := u1.hubs.map fun (v : Hub) =>
        { v with asnSnaps := v.asnSnaps.filter fun p => p.1 ≠ asn.toNat } } else u1

/-- FRECINV and FRECINV.ALL (R363). -/
def execFrecinv (o : Fields) (s : State) : Out := issue (.frecinv o) o (frecinvBody o false) s
def execFrecinvAll (o : Fields) (s : State) : Out := issue (.frecinvAll o) o (frecinvBody o true) s

/-- A granule of local HBM lies in the HDM window, as its home hub has it (R359, R424). -/
def State.inWindow (s : State) (pa : Nat) : Bool :=
  let u := s.hub (hubOfPa pa)
  decide (u.hdmbase.toNat ≤ pa) && decide (pa < u.hdmbase.toNat + u.hdmsize.toNat)

/-- The frames pa .. pa + n - 1 meet a page that a migration engine has accepted (R360, R361). -/
def State.migMeets (s : State) (pa n : Nat) : Bool :=
  s.migs.any fun m => decide (m.frame < pa + n) && decide (pa < m.frame + 2 ^ m.bits)

/-- A frame lies in a page that a migration engine has accepted. -/
def State.migrating (s : State) (pa : Nat) : Bool := s.migMeets pa 1

/-- A granule is in a flip whose last step is not done (R360). -/
def State.flipping (s : State) (g : Nat) : Bool := s.flips.any fun f => decide (f.granule = g) && !f.done

/-- BIASSET (R360): it starts a flip, is held until the flip's last step is done, and returns the bias before it. -/
def biassetFlip (o : Fields) (toHost : Bool) (g : Nat) (s : State) : Res :=
  let h := s.cur
  let mine (f : Flip) : Bool := decide (f.granule = g) && decide (f.hart = h) && f.toHost == toHost && f.done
  let give (s : State) (bias : Bool) : Res := .ok (s.modHart h fun x => x.varResult o.d.toNat (if bias then 1 else 0))
  if s.flips.any mine then give { s with flips := s.flips.filter fun f => !mine f } (!toHost)
  else if s.flipping g || s.migrating (4096 * g) then .hold s
  else if s.hostBias.contains g == toHost then give s toHost
  else s.askHub h (hubOfPa (4096 * g)) fun s => .hold { s with flips := s.flips ++
    [{ granule := g, toHost := toHost, hart := h, left := if toHost then [] else (List.range 64).map (64 * g + ·) }] }

/-- The checks of BIASSET at issue, then the flip (R360). DESIGN CHOICE (log 36): the order of the checks. -/
def biassetBody (o : Fields) (toHost : Bool) (s : State) : Res :=
  let a := (s.hart s.cur).reg o.a.toNat
  if a.toNat % 4096 ≠ 0 then .trap s ⟨causeMISALIGN, 0, a, 0⟩
  else if !inLocalHbm a.toNat then .trap s (trapReason 12 a)
  else if !s.inWindow a.toNat then .trap s (trapReason 13 a)
  else s.waitAccesses s.cur (biassetFlip o toHost (a.toNat / 4096))

/-- BIASSET.HOST and BIASSET.DEV (R360). -/
def execBiassetHost (o : Fields) (s : State) : Out := issue (.biassetHost o) o (biassetBody o true) s
def execBiassetDev (o : Fields) (s : State) : Out := issue (.biassetDev o) o (biassetBody o false) s

/-- No line of lo .. lo + n - 1 must be waited for: no engine writes it, and the host has no half modified (R356). -/
def State.quiet (s : State) (lo n : Nat) : Bool :=
  !(s.dir.any fun p => decide (lo ≤ p.1) && decide (p.1 < lo + n) && p.2.busy)

/-- The steps of the flip of a granule, where they can end (R360): toward the host, once no line must be waited for, all
copies are recalled and the bias changes; toward the device, the bias changes once the host has given back every half. -/
def State.flipStep (s : State) (g : Nat) : State :=
  match s.flips.find? fun f => decide (f.granule = g) && !f.done with
  | none => s
  | some f =>
    let ended (t : State) : State := { t with
      hostGot := t.hostGot.filter fun k => k / 64 ≠ g
      flips := t.flips.map fun k => if k.granule = g ∧ !k.done then { k with done := true } else k }
    if f.toHost then
      if s.resync || !s.quiet (32 * g) 32 then s
      else
        let s1 := s.recallWhere fun l => decide (l / 32 = g)
        ended { s1 with
          tags := tdel s1.tags g, hostBias := g :: s1.hostBias
          victims := s1.victims.filter fun v => v.line / 32 ≠ g }
    else if f.left.isEmpty then ended { s with hostBias := s.hostBias.filter (· ≠ g) }
    else s

/-- Why PMIG traps at issue, if it does (R361). DESIGN CHOICE (log 34): the order of the checks. -/
def pmigTrap (s : State) (va : Word) (asn : BitVec 16) (newPa status : Word) : Option Trap :=
  let bad (r : Nat) : Option Trap := some (trapReason r va)
  if 2 ^ 48 ≤ va.toNat then bad 12
  else match s.findLeaf asn va.toNat with
    | .poison => some ⟨causeDATA_POISON, 0, va, 0⟩
    | .invalid => bad 12
    | .held _ => none
    | .leaf pte n _ =>
      let frame := ptePFN pte * 4096
      let grans := List.range (2 ^ (n - 12))
      if pteMIG pte || decide (frame % 2 ^ n ≠ 0) || decide (spaceOf frame ≠ 0) || beyondSpace frame ||
          !inLocalHbm newPa.toNat || s.migMeets frame (2 ^ n) ||
          grans.any fun k => s.hostBias.contains (frame / 4096 + k) || s.flipping (frame / 4096 + k) then bad 12
      else if va.toNat % 2 ^ n ≠ 0 then some ⟨causeMISALIGN, 0, va, 0⟩
      else if newPa.toNat % 2 ^ n ≠ 0 then some ⟨causeMISALIGN, 0, newPa, 0⟩
      else if status.toNat % 16 ≠ 0 then some ⟨causeMISALIGN, 0, status, 0⟩
      else if grans.any fun k => decide (hubOfPa (newPa.toNat + 4096 * k) ≠ hubOf (va.toNat + 4096 * k)) then bad 4
      else none

/-- PMIG (R361). -/
def pmigBody (o : Fields) (s : State) : Res :=
  let h := s.cur
  let r k := (s.hart h).reg (o.a.toNat + k)
  let asn : BitVec 16 := (r 1).setWidth 16
  let va := (r 0).toNat
  let note (s : State) : State := if va < 2 ^ 48 then s.noteWalk asn va else s
  if s.resync && decide (va < 2 ^ 48) && (s.tableHomes asn va).any (· ≠ hubOf va) then .hold s
  else match pmigTrap s (r 0) asn (r 2) (r 3) with
  | some t => .trap (note s) t
  | none => s.waitAccesses h fun s =>
    let hub := hubOf va
    let e := s.engine (24 + hub) 5
    match s.findLeaf asn va with
    | .leaf pte n pa =>
      if 16 ≤ e.ops.length then .hold s
      else
        let seq := (e.seq.toNat + e.ops.length + 1) % 2 ^ 48
        let ticket := BitVec.ofNat 64 (seq + 2 ^ 48 * 5 + 2 ^ 56 * (24 + hub))
        let m : Mig :=
          { va := va, asn := asn, bits := n, frame := ptePFN pte * 4096, ptePa := pa, newPa := (r 2).toNat, status := (r 3).toNat
            hasn := (s.hart h).asn }
        s.askHub h hub fun s =>
          .ok (((note s).setEngine (24 + hub) 5 { e with ops := e.ops ++ [.mig m] }).modHart h fun x => x.varResult o.d.toNat ticket)
    | _ => .hold s

def execPmig (o : Fields) (s : State) : Out := issue (.pmig o) o (pmigBody o) s

/-- The translator entries of a page dropped at every hub (R362). -/
def State.dropPage (s : State) (asn : BitVec 16) (va n : Nat) : State :=
  { s with hubs := s.hubs.map fun (u : Hub) => u.dropEntries (.page asn va (2 ^ n) false) }

/-- The line at which a requester's store of n bytes at a home has to wait: a PTE's, or a status record's (R356 to R360, R377). -/
def State.wordWaits (s : State) (me pa n : Nat) : Option Nat :=
  if s.resync || s.homeWaits pa n || !s.canWriteMaster pa n || s.waitsTurn me (lineOf pa) then some (lineOf pa) else none

/-- Bytes stored at their home by a hub, in a packet where the home is another (R271). -/
def State.hubStore (s : State) (hub pa : Nat) (bs : List Byte) : State :=
  ((s.askHomes hub [homeHub hub (lineOf pa)]).takeHome pa bs.length).homeWrite pa bs

/-- The place of the migration engine of a hub. -/
def migPlace (hub : Nat) : Nat := engPlace (24 + hub) 5

/-- A line in lo .. lo + n - 1 that has to be waited for: an engine writes it, or the host has a half of it modified (R356). -/
def State.busyIn (s : State) (lo n : Nat) : Option Nat :=
  (s.dir.find? fun p => decide (lo ≤ p.1) && decide (p.1 < lo + n) && p.2.busy).map Prod.fst

/-- The migration engine of a hub with its first operation replaced. -/
def State.setMig (s : State) (hub : Nat) (op : EngOp) : State :=
  let e := s.engine (24 + hub) 5
  s.setEngine (24 + hub) 5 { e with ops := op :: e.ops.tail }

/-- The two words of a status record (R362 step 7). -/
def migWords (outcome : Nat) (cause : BitVec 8) (hdm : Bool) (line : Nat) : Nat × Nat :=
  (outcome + 256 * cause.toNat + 65536 * hdm.toNat, line)

/-- A migration begins: MIG is set, and every copy of the source frame is recalled, once none of it must be waited for; from then on the
engine keeps the page's frame and the place of its PTE (R362 steps 1 to 3). -/
def State.migStart (s : State) (hub : Nat) : State :=
  match (s.engine (24 + hub) 5).ops with
  | .mig m :: _ =>
    if m.st ≠ .queued then s
    else match s.pageTurn (migPlace hub) m.asn m.va, s.findLeaf m.asn m.va with
    | some k, _ => s.queueUp (migPlace hub) k
    | none, .held _ => s.queueUp (migPlace hub) (walkKey m.asn m.va)
    | none, .leaf pte n pa =>
      let frame := ptePFN pte * 4096
      let inside (l : Nat) : Bool := decide (frame / 128 ≤ l) && decide (l < (frame + 2 ^ n) / 128)
      match s.wordWaits (migPlace hub) pa 8, s.busyIn (frame / 128) (2 ^ n / 128) with
      | some k, _ => s.queueUp (migPlace hub) k
      | none, some k => s.queueUp (migPlace hub) k
      | none, none =>
        if s.flips.any fun f => !f.done && inside (32 * f.granule) then s
        else
          let s0 := (s.noteWalk m.asn m.va).leaveAll (migPlace hub)
          let s1 := (s0.hubStore hub pa (leBytes 8 (Nat.lor (s.peek pa 8) 0x20))).dropPage m.asn m.va n
          let s2 := s1.recallWhere inside
          let s3 := { s2 with tags := s2.tags.filter fun p => !inside (32 * p.1) }
          s3.setMig hub (.mig { m with bits := n, frame := frame, ptePa := pa, st := .copying })
    | none, _ =>
      let w := migWords 1 causeLOAD_PAGE (s.inWindow m.frame) 0
      (s.noteWalk m.asn m.va).setMig hub (.record m.status m.hasn w.1 w.2)
  | _ => s

/-- Memory with the n bytes at src copied to dst. -/
def copyCells (m : List Host.Cell) (src dst n : Nat) : List Host.Cell :=
  (m.filter fun c => decide (src ≤ c.1) && decide (c.1 < src + n)).foldl (fun m c => memSet m (c.1 - src + dst) c.2)
    (m.filter fun c => !(decide (dst ≤ c.1) && decide (c.1 < dst + n)))

/-- A line of a destination frame that has to be waited for: it is busy, a flip holds it, the host has some of it, or others came first
(R274, R356 to R360); the end of a resync is waited for too. -/
def State.frameWaits (s : State) (me dst n : Nat) : Option Nat :=
  let inside (l : Nat) : Bool := decide (dst / 128 ≤ l) && decide (l < (dst + n) / 128)
  let busy := (s.dir.filter fun p => inside p.1 && p.2.busy).map Prod.fst
  let flips := (s.flips.filter fun f => inside (32 * f.granule) && !f.toHost && !f.done).map fun f => 32 * f.granule
  let host := (s.hostBias.filter fun g => inside (32 * g)).flatMap fun g => (frameLines g).filter fun l => s.atHost l (lineHalves l)
  let turns := (s.holds.filter fun p => inside p.1 && s.waitsTurn me p.1).map Prod.fst
  if s.resync then some (dst / 128) else (busy ++ flips ++ host ++ turns).head?

/-- The n bytes of whole lines at src copied to dst with their poison by the engine of a hub, in packets to their homes: every
copy of a destination line is recalled. The copy is no master write (R231, R271, R274, R376). -/
def State.copyFrame (s0 : State) (hub src dst n : Nat) : State :=
  let homes := (List.range ((n + 4095) / 4096)).flatMap fun k => [hubOfPa (src + 4096 * k), hubOfPa (dst + 4096 * k)]
  let s := homes.dedup.foldl State.hbmUse (s0.askHomes hub homes)
  let inside (a : Nat) (l : Nat) : Bool := decide (a / 128 ≤ l) && decide (l < (a + n) / 128)
  let s1 := s.recallWhere (inside dst)
  { s1 with
    hostGot := s1.hostGot.filter fun k => !inside dst (k / 2)
    mem := copyCells s1.mem src dst n
    poison := (s1.poison.filter fun l => !inside dst l) ++ (s1.poison.filter (inside src)).map fun l => l - src / 128 + dst / 128 }

/-- What the device keeps by its address in a page follows the page to its new frame: the TCBs of tasks, the lines of
retained snapshots, the granules of views, and token rows on their way; and so does the order of those that wait for the page (R275,
R305, R348, R362, R376). -/
def State.moveFrame (s : State) (frame bits newPa : Nat) : State :=
  let n := 2 ^ bits
  let move (pa : Nat) : Nat := if frame ≤ pa ∧ pa < frame + n then pa - frame + newPa else pa
  let dest (d : RowDest) : RowDest := match d with
    | .pa a => .pa (move a)
    | e => e
  let key (k : Nat) : Nat := match keyPage k with
    | some (f, b, h) => if f = frame ∧ b = bits then frameKey newPa bits h else k
    | none => k
  { s with
    holds := s.holds.map fun p => (key p.1, p.2)
    rows := s.rows.map fun r => { r with slot := r.slot.map fun p => (p.1, p.2.1, dest p.2.2), word := dest r.word }
    tasks := s.tasks.map fun t => { t with pa := move t.pa }
    blockSnaps := s.blockSnaps.map fun b => { b with line := move (128 * b.line) / 128 }
    regs := s.regs.map fun p => (p.1, { p.2 with frames := p.2.frames.map fun f => (f.1, move (4096 * f.2) / 4096) }) }

/-- The bytes that a migration copies: all of its page, or those before the line that failed (R362 steps 4 to 6). -/
def Mig.copied (m : Mig) : Nat :=
  match m.st with
  | .failing o _ l => if o = 3 ∨ l = 0 then 0 else if o = 1 then l - m.newPa else l - m.frame
  | .abandoned => 0
  | _ => 2 ^ m.bits

/-- The outcome, the cause and the failing line that a migration's record carries. -/
def Mig.outcome (m : Mig) : Nat × BitVec 8 × Nat :=
  match m.st with
  | .failing o c l => (o, c, l)
  | _ => (0, 0, 0)

/-- The line at which the end of a migration waits: that of the PTE, or one of the destination. -/
def State.migWaits (s : State) (hub : Nat) (m : Mig) : Option Nat :=
  match s.wordWaits (migPlace hub) m.ptePa 8 with
  | some k => some k
  | none => if m.copied = 0 then none else s.frameWaits (migPlace hub) m.newPa (2 ^ m.bits)

/-- The page of a migration that has begun comes back into use: with its new frame, or, after an abort, with the old one (R362 steps
4 to 6). It waits while the destination or the PTE cannot be written. An abandoned one completes with it (R320). -/
def State.migEnd (s : State) (hub : Nat) : State :=
  match (s.engine (24 + hub) 5).ops with
  | .mig m :: _ =>
    if m.st = .queued then s
    else match s.migWaits hub m with
    | some k => s.queueUp (migPlace hub) k
    | none =>
      let pte : Word := BitVec.ofNat 64 (s.peek m.ptePa 8)
      let rest := pte.toNat - (if pteMIG pte then 0x20 else 0) - ptePFN pte * 4096
      let s0 := s.leaveAll (migPlace hub)
      let s1 := if m.copied = 0 then s0 else s0.copyFrame hub m.frame m.newPa m.copied
      let s2 := if m.st = .copying then (s1.moveFrame m.frame m.bits m.newPa).hubStore hub m.ptePa (leBytes 8 (rest + m.newPa))
        else s1.hubStore hub m.ptePa (leBytes 8 (rest + m.frame))
      let s3 := s2.dropPage m.asn m.va m.bits
      let (o, c, l) := m.outcome
      let w := migWords o c (s.inWindow m.frame) l
      if m.st = .abandoned then s3.abandonedDone (24 + hub) 5 else s3.setMig hub (.record m.status m.hasn w.1 w.2)
  | _ => s

/-- The status record of a migration written, where its address allows it, and the ticket completes (R362 steps 7 and 8). It
waits where its page or its line does. -/
def State.migRecord (s : State) (hub : Nat) : State :=
  match (s.engine (24 + hub) 5).ops with
  | .record status hasn w0 w1 :: _ =>
    let finish (t : State) : State := (t.leaveAll (migPlace hub)).engineDone (24 + hub) 5 none
    if 2 ^ 48 ≤ status then finish s
    else match s.pageTurn (migPlace hub) hasn status, s.translate hasn true .store status with
      | some k, _ => s.queueUp (migPlace hub) k
      | none, .ok t pa _ =>
        if spaceOf pa = 3 ∨ (spaceOf pa = 2 ∧ !t.reachable status pa) then finish t
        else match t.wordWaits (migPlace hub) pa 16 with
          | some k => s.queueUp (migPlace hub) k
          | none => finish (t.hubStore hub pa (leBytes 8 w0 ++ leBytes 8 w1))
      | none, .held k => s.queueUp (migPlace hub) k
      | none, _ => finish (s.noteWalk hasn status)
  | _ => s

/-- A migration fails: with an outcome, a cause and the failing line's PA (R362 step 6). -/
def State.migFail (s : State) (hub outcome : Nat) (cause : BitVec 8) (line : Nat) : State :=
  match (s.engine (24 + hub) 5).ops with
  | .mig m :: _ => if m.st = .copying then (s.setMig hub (.mig { m with st := .failing outcome cause line })).migEnd hub else s
  | _ => s

/-- A migration that has begun ends: with success, or with DIE_LOST where its ASN is tainted; and then its record is written
(R362, R396). -/
def State.migComplete (s : State) (hub : Nat) : State :=
  match (s.engine (24 + hub) 5).ops with
  | .mig m :: _ => match (if m.st = .copying then lowestDie (s.taint m.hasn) else none) with
    | some _ => (s.migFail hub 3 causeDIE_LOST 0).migRecord hub
    | none => (s.migEnd hub).migRecord hub
  | .abandoned :: _ => s.abandonedDone (24 + hub) 5
  | _ => s.migRecord hub

/-- The migration that copies from or to a line, if one has begun: its hub, and whether the line is in its destination. -/
def State.migOf (s : State) (line : Nat) : Option (Nat × Bool) :=
  (List.range 8).findSome? fun hub => match (s.engine (24 + hub) 5).ops with
    | .mig m :: _ =>
      let inside (a : Nat) : Bool := decide (a / 128 ≤ line) && decide (line < (a + 2 ^ m.bits) / 128)
      if m.st ≠ .copying then none
      else if inside m.frame then some (hub, false) else if inside m.newPa then some (hub, true) else none
    | _ => none

/-- A fresh uncorrectable error of a line aborts the migration that copies from or to it (R362 step 4). -/
def State.migError (s : State) (line : Nat) : State :=
  match s.migOf line with
  | some (hub, dst) => s.migFail hub (if dst then 1 else 2) causeDATA_POISON (128 * line)
  | none => s

end Sys2Proof.Machine
end

