-- ==== Sys2Proof/Machine/EventsMemory.lean ====
section
/-! DEFINITION. Sys2Proof/Machine/EventsMemory.lean: the events of memory, the directory, engines, views, pools and the host's port
(R111, R223, R224, R230 to R232, R245, R343, R346, R348, R355 to R362, R368, R372, R377, R378, R399, R426). -/

namespace Sys2Proof.Machine

/-- An engine's step as the end of an event; one that waits takes its place. -/
def EngStep.out (r : EngStep) (s : State) (agent eng : Nat) : Out :=
  match r with
  | .ok t => .next t
  | .fault _ => .next s
  | .wait k => .next (s.engQueue agent eng k)
  | .stop => .fault .mmioUnspecified

/-- A line of local HBM or host memory. -/
def cachedLine (line : Nat) : Bool := decide (128 * line < 2 ^ 55)

/-- L2_FILL (R224): a fill lands, and its waiters are served. -/
def execL2Fill (die line : Nat) (s : State) : Out :=
  .next { s with fills := s.fills.filter fun f => !(decide (f.die = die) && decide (f.line = line)) }

/-- The slice and set of an L2 that a line falls in, by the tag of its frame (R224). -/
def State.l2Place (s : State) (line : Nat) : Nat × BitVec 11 :=
  let t := tget s.tags (line / 32) ⟨0, false, line / 32⟩
  let va := 4096 * t.granule + 128 * (line % 32)
  (Nat.xor (Nat.xor (bitsOf va 7 4) (bitsOf va 15 4)) (bitsOf t.asn.toNat 0 4), Config.l2Set va t.asn)

/-- An L2 slice refuses a request for a line: its list of 16 waiters is full, or 8 ways of its set are pending (R224). -/
def State.fillRefused (s : State) (die line : Nat) : Bool :=
  match s.fills.find? fun f => decide (f.die = die) && decide (f.line = line) with
  | some f => decide (16 ≤ f.waiters)
  | none => decide (8 ≤ (s.fills.filter fun f => decide (f.die = die) && s.l2Place f.line == s.l2Place line).length)

/-- A fill on its way to a slice, with one more waiter (R224). -/
def State.addFill (s : State) (die line : Nat) : State :=
  match s.fills.findIdx? fun f => decide (f.die = die) && decide (f.line = line) with
  | some k => { s with fills := modAt s.fills k fun f => { f with waiters := f.waiters + 1 } }
  | none => { s with fills := s.fills ++ [⟨die, line, 1⟩] }

/-- How a die's request for a line goes: it is served; it goes nowhere; or it waits under a key. -/
inductive LineEnd where
  | ok (s : State)
  | drop
  | wait (key : Nat)
  deriving DecidableEq, Repr

/-- A request of a die for a line at its home, under the tag record of the line's frame, which its hub translates as a load,
behind those that wait there (R223, R224, R353, R356, R359, R362, R390, R397). It goes nowhere where its slice refuses it, the
ASN is tainted, or the page gives it no leave. -/
def State.lineServe (s : State) (q : LineReq) : LineEnd :=
  let line := q.line
  let die := q.die
  let w : Want := if q.own then .own else .read
  match tfind s.tags (line / 32) with
  | none => .drop
  | some t =>
    let hub := hubOf (4096 * t.granule)
    let va := 4096 * t.granule + 128 * (line % 32)
    if !s.inService die || !cachedLine line || s.fillRefused die line || (lowestDie (s.taint t.asn)).isSome then .drop
    else if s.resync then .wait line
    else match s.pageTurn q.place t.asn va with
    | some k => .wait k
    | none => match s.translate t.asn true .load va with
      | .held k => .wait k
      | .ok u pa pte =>
        if lineOf pa ≠ line ∨ pteNC pte ∨ (pteVC pte && !u.lineFresh line) then .drop
        else if u.flipHolds (128 * line) || u.atHost line (lineHalves line) || u.waitsTurn q.place line then .wait line
        else match w.next die (u.watched line) (u.dirOf line), u.confirmLine die pte line with
          | none, _ => .wait line
          | _, .error k => .wait k
          | some d, .ok u =>
            let s1 := (((u.request die hub line t.asn).moveDir (homeHub hub line) line d).useGot line).reply die hub line
            .ok ((({ s1 with grants := tset s1.grants (grantKey die line) (lineGrant pte) } : State).fillCopy (32 * die) 1
              (!hitState die false (s.dirOf line)) (s.forwards die line) line).addFill die line)
      | _ => .drop

/-- A die's request for a line arrives: it is served, or takes its place behind those that wait (R356). -/
def State.lineRequest (s : State) (line die : Nat) (own : Bool) : State :=
  let q : LineReq := ⟨line, die, own, s.newPlace⟩
  let hold (k : Nat) : State := { s.queueNew die k with lineReqs := s.lineReqs ++ [q] }
  if s.lineReqs.any fun r => r.line == line && r.die == die then hold line
  else match s.lineServe q with
    | .ok t => t
    | .drop => s
    | .wait k => hold k

/-- The first request of a die that waits and can go on, none of its die before it naming its line. -/
def State.lineRetry (s : State) : List LineReq → List LineReq → Option State
  | _, [] => none
  | tried, q :: l =>
    let next := s.lineRetry (tried ++ [q]) l
    if tried.any fun r => r.line == q.line && r.die == q.die then next
    else match s.lineServe q with
      | .wait k => (s.requeue q.place k).orElse fun _ => next
      | .ok t => some { t.endPlace q.place with lineReqs := tried ++ l }
      | .drop => some { s.endPlace q.place with lineReqs := tried ++ l }

/-- REQUEST_HEADER_REFUSED (R224): timing, and a count, where a slice of the hart's die can refuse a request. -/
def execRequestHeaderRefused (h : Nat) (s : State) : Out :=
  let x := s.hart h
  let full (f : PendFill) : Bool := decide (f.die = x.die) && (decide (16 ≤ f.waiters) ||
    decide (8 ≤ (s.fills.filter fun g => decide (g.die = x.die) && s.l2Place g.line == s.l2Place f.line).length))
  .next (if s.fills.any full then s.countCore x.coreNo 0x0D 1 else s)

/-- DIR_READ and DIR_OWNERSHIP (R356). -/
def execDirRead (line die : Nat) (s : State) : Out := .next (s.lineRequest line die false)
def execDirOwnership (line die : Nat) (s : State) : Out := .next (s.lineRequest line die true)

/-- A write-back request of a die is served at the home: the owner's line, with the poison of its copy, goes there, and no die holds it any
more; a die that is not the owner is granted no data phase (R231, R356, R357). -/
def State.victimServe (s : State) (line die : Nat) : State :=
  let owner := s.dirOf line == .em die
  let s1 : State := { s with victims := s.victims.filter (fun v => !(v.die == die && v.line == line)) ++ [⟨die, line, !owner, none⟩] }
  if !owner then s1
  else
    let bad := s.l2Bad die line
    let s2 := s1.setPoison line bad
    ((if bad && !s.poisoned (128 * line) 1 then s2.countHub (hubOfPa (128 * line)) 0x46 1 else s2).plainCopy die line).setDir line .i

/-- A write-back request waits at its home: an engine writes the line, or others came first (R356). -/
def State.victimWaits (s : State) (place line : Nat) : Bool := (match s.dirOf line with
  | .g _ _ => true
  | _ => false) || s.waitsTurn place line

/-- WRITEBACK_REQUEST (R356, R357): a line goes into the victim buffer, and its request to the home, where it is served or waits. -/
def execWritebackRequest (line die : Nat) (s : State) : Out :=
  let mine := s.victims.filter fun v => v.die = die
  let there := mine.any fun v => v.line = line
  if !s.inService die || there || decide (16 ≤ mine.length) || s.resync then .next s
  else
    let s1 := s.transmit die (24 + s.lineHub line) 0 none
    if s1.victimWaits s1.newPlace line then
      .next { s1.queueNew die line with victims := s1.victims ++ [⟨die, line, false, some s1.newPlace⟩] }
    else .next (s1.victimServe line die)

/-- The first write-back request that waits and can be served. -/
def State.victimMove (s : State) : Option State :=
  s.victims.findSome? fun v => v.place.bind fun p => if s.victimWaits p v.line then none else some ((s.endPlace p).victimServe v.line v.die)

/-- WRITEBACK_GRANT (R271, R357): the grant of a request that has been served, and, unless it carries "no data", the data phase. The
line's value has been at its home since the request (log 6). -/
def execWritebackGrant (line die : Nat) (s : State) : Out :=
  let hub := 24 + s.lineHub line
  match s.victims.find? fun v => decide (v.die = die) && decide (v.line = line) && v.place.isNone with
  | none => .next s
  | some v =>
    if s.resync then .next s
    else
      let t := s.transmit hub die 2 none
      let u := if v.noData then t else t.transmit die hub 3 none
      .next { u with victims := u.victims.filter fun v => !(decide (v.die = die) && decide (v.line = line)) }

/-- SYNONYM_SWITCH (R223): a record under which no die holds a line is free at once (R353). -/
def execSynonymSwitch (frame : Nat) (asn : BitVec 16) (granule : Nat) (s : State) : Out :=
  .next (if s.quiet (32 * frame) 32 && !s.resync then (s.retag frame asn false granule).freeTag frame else s)

/-- ENGINE_LINE_FINISH (R343, R356): a copy engine writes its next destination line and releases it. -/
def execEngineLineFinish (agent eng : Nat) (s : State) : Out :=
  match (s.engine agent eng).ops with
  | .coll .. :: _ => .next s
  | _ => match s.engNext agent eng with
    | none => .next s
    | some (.fault f) => .next (s.engFinish agent eng (some f))
    | some r => r.out s agent eng

/-- COPY_OP_COMPLETE (R343). -/
def execCopyOpComplete (agent eng : Nat) (s : State) : Out := (s.copyComplete agent eng).out s agent eng

/-- COLL_COMPLETE (R346). -/
def execCollComplete (agent : Nat) (peers : List CollShare) (s : State) : Out := (s.collComplete agent peers).out s agent 4

/-- TOKSEND_ROW_PLACE (R348). -/
def execToksendRowPlace (k : Nat) (s : State) : Out := .next ((s.placeRow k).getD s)

/-- The hart's oldest posted store leaves the count. -/
def State.dropPosted (s : State) (h : Nat) (f : State → State) : State :=
  match s.posted.findIdx? fun p => p.hart = h with
  | none => s
  | some k => f ({ s with posted := s.posted.eraseIdx k }.modHart h fun x => { x with outcnt := x.outcnt - 1 })

/-- POSTED_STORE_ACK (R399). -/
def execPostedStoreAck (h : Nat) (s : State) : Out := .next (s.dropPosted h id)

/-- DOMAIN_TIMEOUT (R245, R319, R399): a posted store is lost. -/
def execDomainTimeout (h : Nat) (s : State) : Out :=
  .next (s.dropPosted h fun t =>
    let u := t.modHart h fun x => { x with lost := true }
    match (s.hart h).task with
    | some k => u.modTask k fun t => { t with lostPost := true }
    | none => u)

/-- MIGRATION and MIGRATION_COMPLETE (R362). -/
def execMigration (hub : Nat) (s : State) : Out := .next (s.migStart hub)
def execMigrationComplete (hub : Nat) (s : State) : Out := .next (s.migComplete hub)

/-- HOLD_QUEUE_RETRY (R362, R427). -/
def execHoldQueueRetry (hub : Nat) (s : State) : Out := .next ((s.countHub hub 0x4F 1).hubError hub 2)

/-- BIAS_FLIP_STEP (R360). -/
def execBiasFlipStep (granule : Nat) (s : State) : Out := .next (s.flipStep granule)

/-- The bit of a 64-byte half of a line. -/
def halfBit (pa : Nat) : BitVec 2 := if pa / 64 % 2 = 0 then 1 else 2

/-- A line's state once the host holds these halves. -/
def hostState (hs hm : BitVec 2) (v : BitVec 24) : DirSt := if hs = 0 ∧ hm = 0 then sharers v else .h hs hm v

/-- The host takes a half of a line, shared or owned (R356, R358); none while an engine writes the line. -/
def hostTake (b : BitVec 2) (own : Bool) : DirSt → Option DirSt
  | .g _ _ => none
  | .h hs hm v =>
    if own then some (.h (hs &&& ~~~b) (hm ||| b) 0)
    else if hm &&& b ≠ 0 then some (.h hs hm v) else some (.h (hs ||| b) hm v)
  | .i => some (if own then .h 0 b 0 else .h b 0 0)
  | .s v => some (if own then .h 0 b 0 else .h b 0 v)
  | .em d => some (if own then .h 0 b 0 else .h b 0 (dieBit d))

/-- The host writes a half: every die copy of the line goes, and the half is no longer modified at the host (R358). -/
def hostGive (b : BitVec 2) : DirSt → Option DirSt
  | .g _ _ => none
  | .h hs hm _ => some (hostState hs (hm &&& ~~~b) 0)
  | _ => some .i

/-- What a host access reaches: a half of a line; a register of a configuration block; the answer that it gets instead; or no
device that answers, so that the link layer retries it (R424 to R426, R432). -/
inductive HostAccess where
  | at_ (pa : Nat)
  | register (hub off : Nat)
  | answer (poison unsupported : Bool)
  | silent
  deriving DecidableEq, Repr

/-- The registers that the host reaches through the BAR of a hub's port (R424): DOORBELL, and in hub 0 PUBLISH and PUBSTAT. -/
def barOpen (hub off : Nat) : Bool :=
  let reg := off / 8 * 8
  reg == 0x018 || (hub == 0 && (reg == 0x050 || reg == 0x058))

/-- A host access by its address: through the decoder of its port, once CXL.mem is enabled there; host memory, of which
the device's part is what its dies hold; or the BAR. -/
def State.hostAccess (s : State) (a : HostAddr) : HostAccess :=
  match a with
  | .window port off =>
    let u := s.hub (hubOfPort port)
    if 2 ≤ port ∨ !s.cxlEnabled (hubOfPort port) then .silent
    else if (s.hub 0).fatal then .answer true false
    else if u.hdmsize.toNat ≤ off then .answer false true
    else .at_ (u.hdmbase.toNat + off)
  | .memory pa => if spaceOf pa = 1 ∧ pa < 2 ^ 55 then .at_ pa else .silent
  | .bar port off =>
    if 2 ≤ port then .silent else if barOpen (hubOfPort port) off then .register (hubOfPort port) off else .answer false true

/-- The key under which a host access to a half has to wait, by its place: for a flip, toward the host for the recall of its line, toward
the device until its half has been back-invalidated; for a migration; behind the accesses that wait for its line or page; or for the
end of a resync (R282, R356, R360, R362, R397). -/
def State.hostWaits (s : State) (me pa : Nat) : Option Nat :=
  let line := lineOf pa
  let flip := s.flips.any fun f => decide (f.granule = pa / 4096) && !f.done && (f.toHost || f.left.contains (pa / 64))
  if flip || s.resync || s.waitsTurn me line then some line
  else match s.migHolds pa with
    | some k => some k
    | none => (s.holds.find? fun p => (keyHolds p.1 pa || (p.2 == me && (keyPage p.1).isSome)) && s.waitsTurn me p.1).map Prod.fst

/-- The host's half of a line is not tracked: its granule is host-biased, or it is host memory, in no flip, and no die or
engine holds the line (R358, R359). -/
def State.untracked (s : State) (pa : Nat) : Bool :=
  (s.hostBias.contains (pa / 4096) || decide (spaceOf pa = 1)) && !s.flipping (pa / 4096) && s.dirOf (lineOf pa) == .i

/-- How a host access ends: done, or waiting under a key. -/
inductive HostEnd where
  | ok (s : State)
  | wait (key : Nat)
  deriving DecidableEq, Repr

/-- The half of a line goes into a state at its home, for the host. -/
def State.hostMoves (s : State) (line : Nat) (d : DirSt) : State := (s.moveDir (s.lineHub line) line d).freeTag (line / 32)

/-- The host reads a half, shared or with ownership (R358, R359, R426). One of view blocks is confirmed first (R417); DESIGN CHOICE (log
52): it then reads their bytes as they stand. -/
def State.hostRead (s : State) (me : Nat) (a : HostAddr) (own : Bool) (pa : Nat) : HostEnd :=
  let bad := s.poisoned pa 64
  let give (t : State) : State := { t with hostOut := t.hostOut ++ [⟨a, if bad then [] else memBytes s.mem pa 64, bad, false⟩] }
  match s.hostWaits me pa, s.confirmAll (s.agentOf me) (s.viewBlocksAt pa 64) with
  | some k, _ => .wait k
  | none, .error k => .wait k
  | none, .ok s =>
    if s.untracked pa then .ok (give { s with hostGot := s.hostGot.filter fun k => k ≠ pa / 64 })
    else match hostTake (halfBit pa) own (s.dirOf (lineOf pa)) with
      | none => .wait (lineOf pa)
      | some d => .ok (give (s.hostMoves (lineOf pa) d))

/-- The host writes bytes of one half (R358, R376). -/
def State.hostWrite (s : State) (me pa : Nat) (bs : List Byte) : HostEnd :=
  match s.hostWaits me pa with
  | some k => .wait k
  | none =>
    if !s.canWriteMaster pa bs.length then .wait (lineOf pa)
    else if s.untracked pa then .ok (({ s with hostGot := s.hostGot.filter fun k => k ≠ pa / 64 } : State).homeWrite pa bs)
    else match hostGive (halfBit pa) (s.dirOf (lineOf pa)) with
      | none => .wait (lineOf pa)
      | some d => .ok ((s.hostMoves (lineOf pa) d).homeWrite pa bs)

/-- The address of the half, or of the register, that an access names. -/
def hostHalf : HostAddr → HostAddr
  | .window p off => .window p (off / 64 * 64)
  | .memory pa => .memory (pa / 64 * 64)
  | .bar p off => .bar p (off / 8 * 8)

def HostReq.addr : HostReq → HostAddr
  | .read a _ => hostHalf a
  | .write a _ => a

/-- A host write of bytes to a register that the BAR reaches (R326, R424, R427): DOORBELL ORs in the bytes it covers. -/
def State.barWrite (s : State) (hub off : Nat) (bs : List Byte) : State :=
  let value := leNat bs
  if bs.isEmpty then s
  else if off / 8 * 8 = 0x018 then
    s.modHub hub fun u => { u with doorbell := u.doorbell ||| BitVec.ofNat 16 (value * 2 ^ (8 * (off % 8))) }
  else s.cfgWrite hub off bs.length value

/-- The request of a host access from its port's hub to the line's home, and the reply (R271). -/
def State.hostAsks (s : State) (a : HostAddr) (line : Nat) : State :=
  match a with
  | .window port _ => s.askHomes (hubOfPort port) [s.lineHub line]
  | _ => s

/-- A host access served now, if it can be, by its place. -/
def State.hostServe (s : State) (me : Nat) (q : HostReq) : HostEnd :=
  match s.hostAccess q.addr with
  | .silent => .ok s
  | .answer p u => .ok { s with hostOut := s.hostOut ++ [⟨q.addr, [], p, u⟩] }
  | .register hub off => .ok (match q with
    | .read _ _ => { s with hostOut := s.hostOut ++ [⟨q.addr, leBytes 8 (s.cfgRead hub off 8), false, false⟩] }
    | .write _ data => s.barWrite hub off (data.take (8 - off % 8)))
  | .at_ pa => match q with
    | .read _ own => (s.hostAsks q.addr (lineOf pa)).hostRead me q.addr own pa
    | .write _ data => (s.hostAsks q.addr (lineOf pa)).hostWrite me pa (data.take (64 - pa % 64))

/-- The agent at which a host access enters: the hub of its port; host memory is reached at hub 0's. -/
def hostAgent (q : HostReq) : Nat :=
  match q.at_ with
  | .window port _ => 24 + hubOfPort port
  | .bar port _ => 24 + hubOfPort port
  | .memory _ => 24

/-- A host access arrives: it is served, or waits behind those that wait already, with a place of its own (R282, R356, R362). -/
def State.hostArrives (s : State) (q : HostReq) : State :=
  let hold (k : Nat) : State := { s.queueNew (hostAgent q) k with hostHeld := s.hostHeld ++ [(s.newPlace, q)] }
  match s.hostAccess q.addr with
  | .at_ pa =>
    if s.hostHeld.any fun r => hostHalf r.2.addr == hostHalf q.addr then hold (lineOf pa)
    else match s.hostServe s.newPlace q with
      | .ok t => t
      | .wait k => hold k
  | _ => match s.hostServe s.newPlace q with
    | .ok t => t
    | .wait k => hold k

/-- The first host access that waits and can be served, none before it naming its half; it then leaves its queues. -/
def State.hostRetry (s : State) : List (Nat × HostReq) → List (Nat × HostReq) → Option State
  | _, [] => none
  | tried, q :: l =>
    let next := s.hostRetry (tried ++ [q]) l
    if tried.any fun r => hostHalf r.2.addr == hostHalf q.2.addr then next
    else match s.hostServe q.1 q.2 with
      | .wait k => (s.requeue q.1 k).orElse fun _ => next
      | .ok t => some { t.endPlace q.1 with hostHeld := tried ++ l }

/-- HOST_CXL_MEM_READ (R358, R359, R424, R426): the host reads the half that holds an address, shared or with ownership; or,
through the BAR, a register. -/
def execHostCxlMemRead (a : HostAddr) (own : Bool) (s : State) : Out := .next (s.hostArrives (.read a own))

/-- HOST_CXL_MEM_WRITE (R358, R376, R424): bytes within one half; or, through the BAR, of a register. -/
def execHostCxlMemWrite (a : HostAddr) (data : List Byte) (s : State) : Out := .next (s.hostArrives (.write a data))

/-- A message of the host enters at the port of a line's home, and goes on to it (R217, R271). -/
def State.fromPort (s : State) (line : Nat) : State :=
  let home := s.lineHub line
  s.transmit (24 + bridgeOf home) (24 + home) 1 none

/-- HOST_CXL_RESPONSE (R358 to R360): the host gives a half up, with the data it held modified, if any: to a flip toward the
device, from H, or for a device access to a line that the host has. Any other response changes nothing (log 49). -/
def execHostCxlResponse (half : Nat) (data : List Byte) (s : State) : Out :=
  let pa := 64 * half
  let line := lineOf pa
  let bs := data.take 64
  let b := halfBit pa
  if !cachedLine line || s.resync || !s.canWriteMaster pa bs.length then .next s
  else if s.flips.any fun f => f.left.contains half then
    let given (f : Flip) : Flip := { f with left := f.left.filter (· ≠ half) }
    .next (({ s.fromPort line with flips := s.flips.map given } : State).homeWrite pa bs)
  else match s.dirOf line with
    | .h hs hm v =>
      .next (((s.fromPort line).setDir line (hostState (hs &&& ~~~b) (hm &&& ~~~b) v)).homeWrite pa (if hm &&& b ≠ 0 then bs else []))
    | _ =>
      if !s.atHost line [half] then .next s
      else .next { (s.fromPort line).homeWrite pa bs with hostGot := s.hostGot ++ [half] }

/-- A line poisoned, counted at its home (R401). -/
def State.poisonLine (s : State) (l : Nat) : State := (s.setPoison l true).countHub (hubOfPa (128 * l)) 0x46 1

/-- A line poisoned where HBM keeps it: a dirty copy on a die, and the clean copies that are not poisoned, stay as they are
(R229, R230). -/
def State.poisonHome (s : State) (l : Nat) : State :=
  let keys := ((List.range 24).filter fun d => (s.dirOf l).holders.getLsbD d && !s.l2Bad d l).map fun d => grantKey d l
  match tfind s.dirty l with
  | some d => ({ s with dirty := tset s.dirty l { d with poison := true } } : State).countHub (hubOfPa (128 * l)) 0x46 1
  | none => ({ s with goodCopies := s.goodCopies.filter (fun k => !keys.contains k) ++ keys } : State).poisonLine l

/-- The copy of a line in a core's cache poisoned, where it is there. -/
def poisonCopy (m : Table Bool) (line : Nat) : Table Bool := m.map fun p => if p.1 = line then (p.1, true) else p

/-- UNCORRECTABLE_ERROR (R111, R229, R230, R232, R362): poison at its site, every line of a compression block
at its home, a copy in a cache, a dirty one being the line's only value; or a corrected error's count. -/
def execUncorrectableError (e : ErrorSite) (s : State) : Out :=
  match e with
  | .line l => .next ((s.poisonHome l).migError l)
  | .block b =>
    if 2 ^ 41 ≤ 1024 * b then .next s
    else .next (((List.range 8).foldl (fun t k => t.poisonHome (8 * b + k)) s).migError (8 * b))
  | .icLine core k => .next (s.modCore core fun c => { c with icache := modAt c.icache k fun l => { l with poison := true } })
  | .l1Line core l => .next (s.modCore core fun c => { c with l1 := poisonCopy c.l1 l })
  | .coordLine core l => .next (s.modCore core fun c => { c with coords := poisonCopy c.coords l })
  | .l2Line die l =>
    if !hitState die false (s.dirOf l) then .next s
    else if s.dirOf l = .em die ∧ (tfind s.dirty l).isSome then .next (s.poisonLine l)
    else .next { s with
      badCopies := s.badCopies.filter (· ≠ grantKey die l) ++ [grantKey die l]
      goodCopies := s.goodCopies.filter (· ≠ grantKey die l) }
  | .laneWord core w =>
    let k := laneBase core / 8 + w
    if laneSize / 8 ≤ w ∨ 768 ≤ core ∨ s.lanePoison.contains k then .next s
    else .next { s with lanePoison := k :: s.lanePoison }
  | .regStore h line =>
    if 608 ≤ line then .next s
    else .next (s.modHart h fun x => { x with rsPoison := tset x.rsPoison line (2 ^ 128 - 1) })
  | .correctedCore core => .next (s.countCore core 0x0E 1)
  | .correctedL2 die => .next (if die < 24 then s.countAgent die 0x21 0 else s)
  | .correctedHbm hub => .next (s.countHub hub 0x44 1)
  | .correctedHub hub => .next (s.countHub hub 0x45 1)

/-- Bytes from another package or a frame from beyond the domain are placed, or wait at their home (R356). -/
def State.ingress (s : State) (pa : Nat) (data : List Byte) : State :=
  let last := pa + data.length - 1
  let agent := 24 + placeHub pa
  if data.isEmpty || decide (2 ^ 56 ≤ last) || decide (spaceOf pa ≠ spaceOf last) || decide (spaceOf pa = 3) then s
  else match s.placeBytes s.newPlace agent pa data with
    | some t => t
    | none => { s.queueNew agent ((s.placeWaits s.newPlace pa data.length).getD (lineOf pa)) with
        arrivals := s.arrivals ++ [⟨s.newPlace, pa, data⟩] }

/-- The first bytes from beyond the package that wait and can be placed, none before them naming one of their lines; others take their
places where they have come to wait. -/
def State.arrivalMove (s : State) : List Arrival → List Arrival → Option State
  | _, [] => none
  | tried, q :: l =>
    let next := s.arrivalMove (tried ++ [q]) l
    let same (r : Arrival) : Bool := (spanLines r.pa r.data.length).any (spanLines q.pa q.data.length).contains
    if tried.any same then next
    else match s.placeBytes q.place (24 + placeHub q.pa) q.pa q.data with
      | some t => some { t.endPlace q.place with arrivals := tried ++ l }
      | none => ((s.placeWaits q.place q.pa q.data.length).bind (s.requeue q.place)).orElse fun _ => next

/-- RILROV_INGRESS (R230, R245): an address of space 2 gives what a peer's memory holds there. -/
def execRilrovIngress (pa : Nat) (data : List Byte) (s : State) : Out := .next (s.ingress pa data)

/-- ETHERNET_INGRESS (R230): global memory of the package. -/
def execEthernetIngress (pa : Nat) (data : List Byte) (s : State) : Out :=
  .next (if spaceOf pa = 2 then s else s.ingress pa data)

/-- STALE_NOTICE (R377); held at the master home while it may not be taken. -/
def execStaleNotice (reg block : Nat) (s : State) : Out := .next (if s.canNotice reg block && !s.resync then s.notice reg block else s)

/-- DERIVATION_START (R377, R378). -/
def execDerivationStart (hub : Nat) (s : State) : Out := .next (s.derivStart hub)

/-- DERIVATION_PUBLISH (R377, R378). -/
def execDerivationPublish (hub : Nat) (s : State) : Out := .next (s.derivPublish hub)

/-- POOL_PUSH (R368): it waits while the pool is frozen, or a line of it must wait. -/
def execPoolPush (asn : BitVec 16) (pool block : Word) (s : State) : Out :=
  if 2 ^ 48 ≤ pool.toNat then .next s
  else match s.translate asn true .store pool.toNat with
    | .ok s1 pa _ =>
      .next (if s1.poisoned pa 16 then s1
        else ((s1.askHomes (hubOf pool.toNat) [homeHub (hubOf pool.toNat) (lineOf pa)]).pushPool pa block).getD s)
    | _ => .next s

/-- CLB_DROP_ACK (R372). -/
def execClbDropAck (core : Nat) (asn : BitVec 16) (root : Option Word) (s : State) : Out :=
  .next { s with cores := s.cores.map fun p => if p.1 = core then (p.1, p.2.dropTiles asn (root.map clbRoot)) else p }

/-- The sweep of one die: its dirty lines are written back and dropped (R355). -/
def State.sweepDie (s : State) (die : Nat) (c : InvScope) : State :=
  let s1 : State := { s with
    cores := s.cores.map fun p => if p.1 / 32 = die then (p.1, p.2.sweep c) else p }
  let s2 := (s.dir.filter fun p => s.tagged c p.1).foldl (fun (t : State) p => match p.2 with
    | .g _ _ => t
    | d => t.setDir p.1 (d.without die)) s1
  (s.tags.map Prod.fst).foldl (fun s f => if s.tagged c (32 * f) then s.freeTag f else s) s2

/-- MTLBINV_ACKNOWLEDGE (R355). -/
def execMtlbinvAcknowledge (agent : Nat) (scope : InvScope) (s : State) : Out :=
  if 24 ≤ agent then .next (s.modHub (agent - 24) fun u => u.dropEntries scope)
  else .next (if scopePurge scope then s.sweepDie agent scope else s)

end Sys2Proof.Machine
end

