-- ==== Sys2Proof/Machine/EventsOutside.lean ====
section
/-! DEFINITION. Sys2Proof/Machine/EventsOutside.lean: reset, and the events of the configuration blocks, the host, management, links,
power and cooling (R18 to R21, R320, R326, R424 to R433). -/

namespace Sys2Proof.Machine

/-- The package after a reset in which the dies of a mask failed self-test; what is outside the package, the memory of the
host and of peers and the heat of its dies among it, and the model's own fields stay (R18, R19, R432, R433). DESIGN CHOICE
(log 49): where all 24 dies fail self-test, no hart is released and no FATAL is set, and RATE stays on a hot die. -/
def State.afterReset (s : State) (failed : BitVec 24) : State :=
  let outside (a : Nat) : Bool := decide (spaceOf a = 1 ∨ spaceOf a = 2) && decide (a < 2 ^ 56)
  let r : State := { State.reset with
    mem := s.mem.filter fun c => outside c.1
    poison := s.poison.filter fun l => outside (128 * l)
    fuses := s.fuses, deadRails := s.deadRails, temps := s.temps, flowLost := s.flowLost, sched := s.sched, lead := s.lead, fresh := s.fresh
    rate := s.rate.filter fun p => s.flowLost || decide (95 ≤ tget s.temps p.1 0)
    removed := failed.setWidth 32
    clocks := ((List.range 24).filter fun d => failed.getLsbD d).map fun d => (d, { gone := some ⟨0, false, 0, [], 0⟩ })
    hubs := State.reset.hubs.map fun u => { u with fenced := failed } }
  match findBelow 24 fun d => !failed.getLsbD d with
  | some d => { r with harts := [{ Hart.stobry with die := d }] }
  | none => { r with harts := [] }

/-- The boot ROMs take a firmware image: its key has the fused hash, its signature verifies under that key, and its version is not
below the fused anti-rollback counter (R431). -/
def bootAccepts (f : Config.Fuses) (i : Firmware) : Bool := i.keyHash == f.keyHash && i.signed && decide (f.counter ≤ i.version)

/-- PACKAGE_RESET (R18, R430 to R432): a package whose links fail, or whose boot ROMs refuse the Stobry image or the hub firmware,
is unusable: it is fatal, which it reports, and releases no harts. -/
def execPackageReset (selfTestFail : BitVec 24) (linkFail : Bool) (images : BootImages) (s : State) : Out :=
  let r := s.afterReset selfTestFail
  if linkFail || !bootAccepts s.fuses images.stobry || !bootAccepts s.fuses images.hubFirmware then
    .next { ({ r with harts := [], hubs := r.hubs.map fun u => { u with fatal := true } } : State).sendReport with faultLow := true }
  else .next r

/-- DOORBELL_WRITE (R427): the host's bits on a hub with a CXL port. -/
def execDoorbellWrite (hub : Nat) (mask : BitVec 16) (s : State) : Out :=
  .next (if hub = 0 ∨ hub = 4 then s.modHub hub fun u => { u with doorbell := u.doorbell ||| mask } else s)

/-- PUBLISH_WRITE (R326). -/
def execPublishWrite (value : Word) (s : State) : Out := .next (s.cfgWrite 0 0x050 8 value.toNat)

/-- FENCEREQ_WRITE (R20). -/
def execFencereqWrite (value : Word) (s : State) : Out := .next (s.cfgWrite 0 0x060 8 value.toNat)

/-- DIE_LEVEL_ERROR (R20). -/
def execDieLevelError (die : Nat) (s : State) : Out := .next (if s.inService die then s.fenceDie die else s)

/-- HUB_LOSS (R21). -/
def execHubLoss (s : State) : Out := .next s.goFatal

/-- UNCONTAINED_ASN_FAULT (R320). -/
def execUncontainedAsnFault (hub : Nat) (asn : BitVec 16) (s : State) : Out :=
  .next (if hub < 8 then s.asnFault hub asn else s)

/-- A write to a register of a configuration block, at a naturally aligned offset (R424). -/
def State.blockWrite (s : State) (hub off n : Nat) (value : Word) : State :=
  if hub < 8 ∧ off < 4096 ∧ (n = 1 ∨ n = 2 ∨ n = 4 ∨ n = 8) ∧ off % n = 0 then s.cfgWrite hub off n value.toNat else s

/-- IRQSET_WRITE (R427). -/
def execIrqsetWrite (hub : Nat) (s : State) : Out := .next (s.blockWrite hub 0x070 8 0x10)

/-- MEMRDY_WRITE (R432). -/
def execMemrdyWrite (hub : Nat) (s : State) : Out := .next (s.blockWrite hub 0x080 8 1)

/-- CONFIG_REG_WRITE (R424, R425). -/
def execConfigRegWrite (hub off n : Nat) (value : Word) (s : State) : Out := .next (s.blockWrite hub off n value)

/-- MANAGEMENT_MESSAGE (R427, R430, R431): one for the supervisor sets MGMT of hub 0; the others are answered. -/
def execManagementMessage (m : MgmtMessage) (s : State) : Out :=
  match m with
  | .forSupervisor => .next (s.modHub 0 fun u => { u with mgmt := true })
  | .control => .next { s with mgmtOut := s.mgmtOut ++ [.control] }
  | .spdmMeasurements => .next { s with mgmtOut := s.mgmtOut ++ [.measurements (Config.measured s.fuses s.measurement) s.debugOpen] }
  | .vendorReport => .next s.sendReport

/-- DEBUG_UNLOCK (R431). -/
def execDebugUnlock (signed : Bool) (s : State) : Out :=
  .next (if signed && !s.debugOpen then { s with debugOpen := true, measurement := s.measurement + 1 } else s)

/-- RILROV_PORT_FAILURE (R428): one of the 64 rails. -/
def execRilrovPortFailure (rail : Nat) (s : State) : Out :=
  .next (if 64 ≤ rail ∨ s.deadRails.contains rail then s else { s with deadRails := s.deadRails ++ [rail] })

/-- RATE 0 on a die (R400, R433). -/
def State.stopBudget (s : State) (die : Nat) : State := { s with rate := tset s.rate die 0 }

/-- The governor throttles a die (R433): RATE falls below what it is at reset. How far is not stated: a free value (log 5). -/
def State.throttle (s : State) (die : Nat) : State :=
  { s.takeFree.2 with rate := tset s.rate die (min (tget s.rate die 512) (s.takeFree.1.toNat % 512)) }

/-- LOSS_OF_FLOW (R433): as 105 degrees on every die until it clears. -/
def execLossOfFlow (on_ : Bool) (s : State) : Out :=
  let t := { s with flowLost := on_ }
  .next (if on_ then (List.range 24).foldl State.stopBudget t else t)

/-- JUNCTION_TEMPERATURE (R433): throttled from 95 degrees, RATE 0 from 105, fatal from 115. -/
def execJunctionTemperature (die celsius : Nat) (s : State) : Out :=
  if 24 ≤ die then .next s
  else
    let t := { s with temps := tset s.temps die celsius }
    .next (if 115 ≤ celsius then (t.stopBudget die).goFatal else if 105 ≤ celsius then t.stopBudget die
      else if 95 ≤ celsius then t.throttle die else t)

/-- MEM_ENABLE_CONTROL_WRITE (R425): port 0 is on hub 0 and port 1 on hub 4 (R9). -/
def execMemEnableControlWrite (port : Nat) (on_ : Bool) (s : State) : Out :=
  .next (if port < 2 then s.modHub (4 * port) fun u => { u with memEnable := on_ } else s)

end Sys2Proof.Machine
end

