-- ==== Sys2Proof/Machine/EventsTasks.lean ====
section
/-! DEFINITION. Sys2Proof/Machine/EventsTasks.lean: the events of the dispatcher and of tasks (R309 to R313, R319, R321, R326). -/

namespace Sys2Proof.Machine

/-- The TCB of a host publication: its hub's access to the line, and the publication, each of which the dispatcher of hub 0 asks of their
hub (R271, R326). What the hub has read of the tables it keeps, whatever the result (R350). DESIGN CHOICE (log 52): an ASN entry whose
line is poisoned gives the result of a poisoned TCB, 3. -/
def State.hostPublish (s : State) (value : Word) : State × BitVec 3 × BitVec 32 :=
  let tcb := bitsOf value.toNat 0 48
  let asn : BitVec 16 := BitVec.ofNat 16 (bitsOf value.toNat 48 16)
  let s0 := (s.askHomes 0 [hubOf tcb]).noteEntry asn tcb
  match s.asnEntry (hubOf tcb) asn with
  | .poison => (s0, 3, 0)
  | .held _ => (s, 3, 0)
  | .value ent =>
    if !asnUsable ent || !bitOf ent 1 then (s0, 4, 0)
    else if tcb % 128 ≠ 0 then (s0, 2, 0)
    else match s0.translate asn false .store tcb with
      | .ok s1 pa _ =>
        if spaceOf pa ≠ 0 then (s1, 2, 0)
        else if s1.poisoned pa 128 then (s1, 3, 0)
        else
          let s2 := (s1.leavePa pubPlace pa).dropBlockSnaps fun b => b.asn == asn && decide (b.va = tcb)
          match (s2.takeHome pa 128).publish asn (BitVec.ofNat 64 tcb) pa false with
          | .ok s3 tid => (s3, 0, tid)
          | .notFree => (s2, 1, 0)
          | .ill => (s2, 2, 0)
      | _ => (s0.noteWalk asn tcb, 3, 0)

/-- The page or line at which the publication of a TCB has to wait, or the end of a resync (R282, R326, R352, R356 to R362, R397). -/
def State.pubWaits (s : State) (value : Word) : Option Nat :=
  let tcb := bitsOf value.toNat 0 48
  let asn : BitVec 16 := BitVec.ofNat 16 (bitsOf value.toNat 48 16)
  if s.resync then some (walkKey asn tcb)
  else match s.pageTurn pubPlace asn tcb with
  | some k => some k
  | none => match s.asnEntry (hubOf tcb) asn, s.translate asn false .store tcb with
    | .held _, _ => some (walkKey asn tcb)
    | _, .held k => some k
    | _, .ok t pa _ => if spaceOf pa = 0 then t.tcbWaits pubPlace pa else none
    | _, _ => none

/-- HOST_PUBLICATION (R326): the dispatcher handles the write to PUBLISH in progress; a TCB whose page or line must be waited
for is waited for. -/
def execHostPublication (s : State) : Out :=
  match (s.hub 0).pubReq with
  | none => .next s
  | some v => match s.pubWaits v with
    | some k => .next (s.queueUp pubPlace k)
    | none =>
      let r := (s.leaveAll pubPlace).hostPublish v
      .next (r.1.modHub 0 fun u => { u with pubReq := none, pubResult := r.2.1, pubTid := r.2.2 })

/-- PREDECESSOR_EVENT (R309, R321). -/
def execPredecessorEvent (asn : BitVec 16) (tcb : Word) (ending : PredEnd) (s : State) : Out :=
  .next (State.devAll devFuel s.newPlace [.pred asn tcb ending (hubOf tcb.toNat)] s)

/-- The level at which a hart waits to be bound again, that of its task after aging; a hart without a task goes before all. -/
def State.rebindLevel (s : State) (h : Nat) : Nat := (((s.hart h).task.bind fun k => s.tasks[k]?).map Task.levelNow).getD 0

/-- The hart to be bound again next, the lowest level first (R304, R313, R318). -/
def State.nextRebind (s : State) : Option Nat :=
  leastBy s.rebindLevel ((List.range s.harts.length).filter fun h =>
    let x := s.hart h
    !x.bound && !x.stopped && (s.freeSlot x.die).isSome && s.waitDone h)

/-- The level of the task that the dispatcher would bind a new hart for, and the state after it. -/
def State.nextBind (s : State) : Option (Nat × State) :=
  if s.tasks.isEmpty then none
  else s.nextReady.bind fun k => s.dispatch.map fun t => (((s.tasks[k]?).map Task.levelNow).getD 4, t)

/-- The dispatcher's binding of a new hart, where no hart of its level or above waits to be bound again (R313, R318). -/
def State.claimNext (s : State) : Option State :=
  s.nextBind.bind fun p => match s.nextRebind with
    | some h => if p.1 < s.rebindLevel h then some p.2 else none
    | none => some p.2

/-- DISPATCH_CLAIM (R309, R312, R313, R315, R318). -/
def execDispatchClaim (s : State) : Out := .next (s.claimNext.getD s)

/-- Task k is due to move up a ready list (R311). -/
def State.ageDue (s : State) (k : Nat) : Bool :=
  match s.tasks[k]? with
  | some t => !t.ended && decide (t.st = .ready) && decide (1 < t.levelNow) &&
      decide (2 ^ 20 * (t.aged + 1) ≤ (s.cyc - t.readyAt).toNat)
  | none => false

/-- READY_LIST_AGING (R311). -/
def execReadyListAging (k : Nat) (s : State) : Out :=
  .next (if s.ageDue k then s.modTask k fun t => { t with aged := t.aged + 1 } else s)

/-- The level of a hart's task; a supervisor hart without one is not chosen. DESIGN CHOICE (log 51): a RUNNING task counts at the
level it was published with, here (R313) and for the order of issue (R318), and not at the level it had aged to. -/
def State.hartLevel (s : State) (h : Nat) : Option Nat := ((s.hart h).task.bind fun k => s.tasks[k]?).map Task.level

/-- The hart that a level-0 task pre-empts: on a die of its mask, of the lowest level, the most recently bound on ties;
none while a hart there has yet to release its slot (R313). -/
def State.preemptFor (s : State) (t : Task) : Option Nat :=
  let ok h := (s.hart h).bound && !(s.hart h).stopped && t.dies.getLsbD (s.hart h).die && (s.hartLevel h).isSome
  let l := (List.range s.harts.length).filter ok
  if l.any fun h => (s.hart h).preempt.isSome || (s.hart h).preempted then none
  else l.foldl (fun b h => match b with
    | none => some h
    | some k =>
      let (a, b) := ((s.hartLevel k).getD 0, (s.hartLevel h).getD 0)
      if a < b ∨ (a = b ∧ (s.hart k).boundAt.toNat ≤ (s.hart h).boundAt.toNat) then some h else some k) none

/-- The first level-0 task that has been READY for 2^16 cycles, with the hart to pre-empt for it (R313). -/
def State.level0Due (s : State) : Option Nat :=
  (s.tasks.filter fun t => !t.ended && decide (t.st = .ready) && decide (t.level = 0) &&
    decide (2 ^ 16 ≤ (s.cyc - t.readyAt).toNat)).findSome? s.preemptFor

/-- LEVEL0_PREEMPT (R313): a request by the dispatcher, requester 1. -/
def execLevel0Preempt (s : State) : Out :=
  match s.level0Due with
  | some h => .next (s.modHart h fun x => { x with preempt := some 1 })
  | none => .next s

/-- TASK_RETIREMENT (R319). -/
def execTaskRetirement (k : Nat) (s : State) : Out := .next (s.retire k)

/-- TASK_FAILURE (R309): the task's harts stop, and the entries that they had started go on to their end. -/
def execTaskFailure (k status : Nat) (s : State) : Out := ((s.failTask k status).failStep k).out

end Sys2Proof.Machine
end

