-- ==== Sys2Proof/Machine/Fibre.lean ====
section
/-! DEFINITION. Sys2Proof/Machine/Fibre.lean: the meanings of group 0x6, fibre instructions (R176 to R191). -/

namespace Sys2Proof.Machine

/-- FBUILD (R179). -/
def execFbuild (o : Fields) (s : State) : Out := vecIssue (.fbuild o) o checkFbuild s

/-- FSPLIT (R180). -/
def execFsplit (o : Fields) (s : State) : Out := vecIssue (.fsplit o) o checkFsplit s

/-- FISECT (R183). -/
def execFisect (o : Fields) (s : State) : Out := vecIssue (.fisect o) o checkNone s

/-- FUNION (R183). -/
def execFunion (o : Fields) (s : State) : Out := vecIssue (.funion o) o checkNone s

/-- FMERGE (R183). -/
def execFmerge (o : Fields) (s : State) : Out := vecIssue (.fmerge o) o checkNone s

/-- FCOMPACT (R184). -/
def execFcompact (o : Fields) (s : State) : Out := vecIssue (.fcompact o) o checkNone s

/-- FEXPAND (R181). -/
def execFexpand (o : Fields) (s : State) : Out := vecIssue (.fexpand o) o checkFexpand s

/-- FGATHER (R182). -/
def execFgather (o : Fields) (s : State) : Out := vecIssue (.fgather o) o checkFgather s

/-- FMUL of fibres (R185). -/
def execFmulFibre (o : Fields) (s : State) : Out := vecIssue (.fmulFibre o) o checkNone s

/-- FDOT (R183). -/
def execFdot (o : Fields) (s : State) : Out := vecIssue (.fdot o) o checkNone s

/-- FSCALE (R185). -/
def execFscale (o : Fields) (s : State) : Out := vecIssue (.fscale o) o checkNone s

/-- FOCC (R185). -/
def execFocc (o : Fields) (s : State) : Out := vecIssue (.focc o) o checkNone s

/-- FSHIFT (R185). -/
def execFshift (o : Fields) (s : State) : Out := vecIssue (.fshift o) o checkNone s

/-- FSORT (R186). -/
def execFsort (o : Fields) (s : State) : Out := vecIssue (.fsort o) o checkFbuild s

/-- FRED (R185). -/
def execFred (o : Fields) (s : State) : Out := vecIssue (.fred o) o checkNone s

/-- FCLEAR (R185). -/
def execFclear (o : Fields) (s : State) : Out := vecIssue (.fclear o) o checkNone s

/-- FCLEAR.PAIR (R185). -/
def execFclearPair (o : Fields) (s : State) : Out := vecIssue (.fclearPair o) o checkNone s

end Sys2Proof.Machine
end

