-- ==== Sys2Proof/Machine/Matrix.lean ====
section
/-! DEFINITION. Sys2Proof/Machine/Matrix.lean: the meanings of group 0x7, matrix instructions (R193 to R211). -/

namespace Sys2Proof.Machine

/-- Push checks of MDRAIN and MFILL: one register (R197). -/
def checkMdrain (o : Fields) (x : Hart) : Option PushIll := alignIll x o.d 1
def checkMfill (o : Fields) (x : Hart) : Option PushIll := alignIll x o.a 1

/-- MMA (R198). -/
def execMma (o : Fields) (s : State) : Out := vecIssue (.mma o) o checkMma s

/-- MMAS (R200). -/
def execMmas (o : Fields) (s : State) : Out := vecIssue (.mmas o) o checkMmas s

/-- MMAG (R201). -/
def execMmag (o : Fields) (s : State) : Out := vecIssue (.mmag o) o checkMmag s

/-- MPROM (R202). -/
def execMprom (o : Fields) (s : State) : Out := vecIssue (.mprom o) o checkMprom s

/-- MZERO (R203). -/
def execMzero (o : Fields) (s : State) : Out := vecIssue (.mzero o) o checkMzero s

/-- MZERO.C (R203). -/
def execMzeroC (o : Fields) (s : State) : Out := vecIssue (.mzeroC o) o checkMzeroC s

/-- MDRAIN (R204). -/
def execMdrain (o : Fields) (s : State) : Out := vecIssue (.mdrain o) o checkMdrain s

/-- MFILL (R204). -/
def execMfill (o : Fields) (s : State) : Out := vecIssue (.mfill o) o checkMfill s

/-- MSTAT (R205). -/
def execMstat (o : Fields) (s : State) : Out := vecIssue (.mstat o) o checkNone s

end Sys2Proof.Machine
end

