-- ==== Sys2Proof/Machine/MemQueued.lean ====
section
/-! DEFINITION. Sys2Proof/Machine/MemQueued.lean: the meanings of the queued members of groups 0x8 and 0x9, and of the stream instructions and TOKSEND (R236 to R258, R331 to R338, R348). -/

namespace Sys2Proof.Machine

/-- Push checks of a dense vector access: the data group has W's width (R134, R236). -/
def checkDense (o : Fields) (x : Hart) : Option PushIll :=
  let t := x.vtPush
  firstIll [widthIll o t, alignIll x o.d t.regs, mskIll o t]

/-- Push checks with an index group in field `f`; a written data group is apart from it (R236). -/
def checkIndexed (f : Fields → BitVec 8) (written : Bool) (o : Fields) (x : Hart) : Option PushIll :=
  let t := x.vtPush
  let d := resolveVec x o.d
  firstIll [widthIll o t, alignIll x o.d t.regs, alignIll x (f o) t.regs,
    regIll x o.d (written && overlaps d t.regs (resolveVec x (f o)) t.regs), mskIll o t]

def checkVldx (o : Fields) (x : Hart) : Option PushIll := checkIndexed Fields.b true o x
def checkVstx (o : Fields) (x : Hart) : Option PushIll := checkIndexed Fields.b false o x
def checkVldp (o : Fields) (x : Hart) : Option PushIll := checkIndexed Fields.a true o x
def checkVstp (o : Fields) (x : Hart) : Option PushIll := checkIndexed Fields.a false o x
def checkVamo (o : Fields) (x : Hart) : Option PushIll := checkIndexed Fields.b (!o.f.getLsbD 4) o x

/-- LMUL is 1 or 2 (R236). -/
def smallLmul (x : Hart) (f : BitVec 8) (t : Vtype) : Option PushIll := regIll x f (decide (2 < t.regs))

/-- Push checks of VLDF: codes in D, scales in one register, apart where their widths differ (R134, R236, R242). -/
def checkVldf (o : Fields) (x : Hart) : Option PushIll :=
  let t := x.vtPush
  let d := resolveVec x o.d
  let b := resolveVec x o.b
  firstIll [widthIll o t, smallLmul x o.d t, alignIll x o.d t.regs, alignIll x o.b 1,
    regIll x o.b (decide (o.w.toNat ≠ 14) && overlaps d t.regs b 1), mskIll o t]

/-- Push checks of VSTF: an FP32 source of 4 * LMUL registers (R236, R243). -/
def checkVstf (o : Fields) (x : Hart) : Option PushIll :=
  let t := x.vtPush
  firstIll [widthIll o t, smallLmul x o.d t, alignIll x o.d (4 * t.regs),
    if o.f.getLsbD 0 then alignIll x o.b 1 else none]

/-- Push checks of the coordinate forms (R236). -/
def checkCoord (written : Bool) (o : Fields) (x : Hart) : Option PushIll :=
  let t := x.vtPush
  let wide := decide (typeBits o.w.toNat = 64)
  let g := if wide then 2 * t.regs else t.regs
  let n := ((o.f.extractLsb' 4 2).toNat + 1) * t.regs
  let d := resolveVec x o.d
  let c := resolveVec x o.b
  firstIll [regIll x o.d (decide (t.bits ≠ 32)), regIll x o.d (wide && decide (4 < t.regs)), alignIll x o.d g,
    alignIll x o.b t.regs, regIll x o.b (decide (64 < c + n)), regIll x o.d ((written || wide) && overlaps d g c n), mskIll o t]

def checkVldc (o : Fields) (x : Hart) : Option PushIll := checkCoord true o x
def checkVstc (o : Fields) (x : Hart) : Option PushIll := checkCoord false o x

/-- VLD (R240). -/
def execVld (o : Fields) (s : State) : Out := vecIssue (.vld o) o checkDense s

/-- VST (R240). -/
def execVst (o : Fields) (s : State) : Out := vecIssue (.vst o) o checkDense s

/-- VLDS (R240). -/
def execVlds (o : Fields) (s : State) : Out := vecIssue (.vlds o) o checkDense s

/-- VSTS (R240). -/
def execVsts (o : Fields) (s : State) : Out := vecIssue (.vsts o) o checkDense s

/-- VLDX (R240). -/
def execVldx (o : Fields) (s : State) : Out := vecIssue (.vldx o) o checkVldx s

/-- VSTX (R240). -/
def execVstx (o : Fields) (s : State) : Out := vecIssue (.vstx o) o checkVstx s

/-- VLDF (R242). -/
def execVldf (o : Fields) (s : State) : Out := vecIssue (.vldf o) o checkVldf s

/-- VSTF (R243). -/
def execVstf (o : Fields) (s : State) : Out := vecIssue (.vstf o) o checkVstf s

/-- VLDP (R244). -/
def execVldp (o : Fields) (s : State) : Out := vecIssue (.vldp o) o checkVldp s

/-- VSTP (R244). -/
def execVstp (o : Fields) (s : State) : Out := vecIssue (.vstp o) o checkVstp s

/-- VAMO (R247). -/
def execVamo (o : Fields) (s : State) : Out := vecIssue (.vamo o) o checkVamo s

/-- VLDC (R253). -/
def execVldc (o : Fields) (s : State) : Out := vecIssue (.vldc o) o checkVldc s

/-- VSTC (R253). -/
def execVstc (o : Fields) (s : State) : Out := vecIssue (.vstc o) o checkVstc s

/-- VAMOC (R253). -/
def execVamoc (o : Fields) (s : State) : Out := vecIssue (.vamoc o) o checkVldc s

/-- FLD (R255). -/
def execFld (o : Fields) (s : State) : Out := vecIssue (.fld o) o checkNone s

/-- FST (R255). -/
def execFst (o : Fields) (s : State) : Out := vecIssue (.fst o) o checkNone s

/-- FWALK (R256). -/
def execFwalk (o : Fields) (s : State) : Out := vecIssue (.fwalk o) o checkNone s

/-- QBIND (R334). -/
def execQbind (o : Fields) (s : State) : Out := vecIssue (.qbind o) o checkNone s

/-- QRD (R336). -/
def execQrd (o : Fields) (s : State) : Out := vecIssue (.qrd o) o checkDense s

/-- FLDQ (R337). -/
def execFldq (o : Fields) (s : State) : Out := vecIssue (.fldq o) o checkNone s

/-- QREL (R338). -/
def execQrel (o : Fields) (s : State) : Out := vecIssue (.qrel o) o checkNone s

/-- TOKSEND (R348). -/
def execToksend (o : Fields) (s : State) : Out := vecIssue (.toksend o) o checkToksend s

end Sys2Proof.Machine
end

