-- ==== Sys2Proof/Machine/MemScalar.lean ====
section
/-! DEFINITION. Sys2Proof/Machine/MemScalar.lean: the meanings of the scalar members of groups 0x8 and 0x9: LD, ST, PREF, CBINV,
FENCE, AMO and CAS (R239, R246, R248 to R252, R281). -/

namespace Sys2Proof.Machine

/-- The address of a scalar memory instruction (R237). -/
def scalarAddr (o : Fields) (x : Hart) : Word := addrOf (x.reg o.a.toNat) o

/-- The end of an access as the end of its instruction; an access held at a home keeps its place there (R282, R379). -/
def Eff.toRes (r : Eff) (s : State) (h : Nat) (k : State → Nat → State) : Res :=
  match r with
  | .ok t v f => .ok ((k (t.endHolds h) v).modHart h fun x => x.orFlags f)
  | .fault t => .trap s t
  | .held q => .hold (s.holdRead h q)
  | .stop f => .stop f

/-- Who makes a scalar access. -/
def scalarWho (o : Fields) (s : State) (a : Word) : Who :=
  { s.who s.cur (s.hart s.cur).sup (lmBit o) a with cls := o.hintC.toNat }

/-- The bytes of a scalar access at an address. -/
def scalarSpan (o : Fields) (a : Word) : List Span := [⟨lmBit o, a, typeBytes o.w.toNat⟩]

/-- LD (R239). -/
def ldBody (o : Fields) (s : State) : Res :=
  let a := scalarAddr o (s.hart s.cur)
  s.waitMemory s.cur .load (scalarSpan o a) fun s =>
    let n := typeBytes o.w.toNat
    if !aligned a n then .trap s (misalign a a (lmBit o) false)
    else (s.loadEl (scalarWho o s a) false a n).toRes s s.cur fun t v =>
      t.modHart s.cur fun y => y.varResult o.d.toNat (extCode o.w.toNat v)

def execLd (o : Fields) (s : State) : Out := issue (.ld o) o (ldBody o) s

/-- ST: the low bits of the register that D names (R235, R239). -/
def stBody (o : Fields) (s : State) : Res :=
  let a := scalarAddr o (s.hart s.cur)
  s.waitMemory s.cur .store (scalarSpan o a) fun s =>
    let n := typeBytes o.w.toNat
    if !aligned a n then .trap s (misalign a a (lmBit o) true)
    else (s.storeEl (scalarWho o s a) a n ((s.hart s.cur).reg o.d.toNat).toNat).toRes s s.cur fun t _ => t

def execSt (o : Fields) (s : State) : Out := issue (.st o) o (stBody o) s

/-- Where a prefetch puts the line: with ownership, for a die's caches, or in the hub cache alone (R61, R250). -/
def prefWant (o : Fields) : Want := if o.hintC = 3 then .pass else if o.f.getLsbD 5 then .own else .read

/-- The line a prefetch brings in, or nothing (R250). -/
def prefLine (o : Fields) (s : State) : State :=
  let x := s.hart s.cur
  let a := scalarAddr o x
  if 2 ^ 48 ≤ a.toNat then s
  else match s.translate x.asn x.sup .load a.toNat with
    | .ok s1 pa pte =>
      let there := spaceOf pa ≠ 2 || s1.reachable a.toNat pa
      if pteNC pte || decide (spaceOf pa = 3) || !there || (pteVC pte && !s1.lineFresh (lineOf pa)) then s
      else match s1.confirmLine x.die pte (lineOf pa) with
      | .error _ => s
      | .ok s1 => match (s1.countMiss x.coreNo o.hintC.toNat (lineOf pa)
          (s1.holdsUnder x.die x.asn (pteG pte) (a.toNat / 4096) false (lineOf pa))).touchLine x.die x.asn (pteG pte) (a.toNat / 4096) (lineOf pa) (prefWant o) ⟨x.sup, .load⟩ (lineGrant pte)
          (lineHalves (lineOf pa)) with
        | .ok s2 => s2.fillCopy x.coreNo o.hintC.toNat
            (!s1.holdsUnder x.die x.asn (pteG pte) (a.toNat / 4096) false (lineOf pa)) (s1.forwards x.die (lineOf pa)) (lineOf pa)
        | _ => s
    | _ => s

/-- PREF (R238, R250). -/
def execPref (o : Fields) (s : State) : Out :=
  issue (.pref o) o (fun t => t.waitMemory t.cur .neither [lineSpan (scalarAddr o (t.hart t.cur))] fun u => .ok (prefLine o u)) s

/-- The three ops of CBINV (R251). -/
inductive CacheOp where
  | wb | wbi | disc
  deriving DecidableEq, Repr

/-- CBINV on a line at a scope: the issuing die's copies, or every die's with the victim buffers (R251, R357). -/
def State.cleanLine (s : State) (op : CacheOp) (die : Nat) (pkg : Bool) (line : Nat) : State :=
  let mine := pkg || s.dirOf line == .em die
  let s1 : State := if !mine then s else if op = .disc then s.discardLine line else { s with dirty := tdel s.dirty line }
  if op = .wb then
    { s1 with victims := s1.victims.map fun v => if pkg && v.line == line then { v with noData := true } else v }
  else
    let d := s1.dirOf line
    let s2 := if pkg then s1.moveDir (homeHub 0 line) line d.recall else s1.setDir line (d.without die)
    { s2 with victims := s2.victims.filter fun v => !(pkg && v.line == line) }

/-- CBINV at package scope goes to the home of its line, which every request there waits for; it then discards the
snapshots of control blocks in the line (R251, R275, R356, R396, R406). -/
def State.cleanHome (s : State) (op : CacheOp) (w : Who) (a : Word) (line : Nat) : Touch :=
  match lowestDie (s.taint w.asn) with
  | some d => .lost d
  | none =>
    if s.resync || (s.dirOf line).busy then .held line
    else
      let hub := hubOf a.toNat
      let t := ((s.request (w.core / 32) hub line w.asn).cleanLine op (w.core / 32) true line).reply (w.core / 32) hub line
      .ok (t.dropBlockSnaps fun b => decide (b.line = line) || (b.asn == w.asn && decide (b.va / 128 = a.toNat / 128)))

/-- CBINV at the scope of the issuing die: a dirty line goes to its home, in a packet, and so does the word that its owner drops it (R251,
R271); a resync holds them (R397). -/
def State.cleanHere (s : State) (op : CacheOp) (die line : Nat) : Touch :=
  let owner := s.dirOf line == .em die
  let data := owner && (tfind s.dirty line).isSome && op != .disc
  let hub := 24 + s.lineHub line
  if !(data || (owner && op != .wb)) then .ok (s.cleanLine op die false line)
  else if s.resync then .held line
  else .ok (((s.transmit die hub (if data then 3 else 0) none).transmit hub die 1 none).cleanLine op die false line)

/-- CBINV on the line of its address (R251): checked as a load, and for .DISC as a store. A line of space 3 has no copies. -/
def cbinvBody (o : Fields) (op : CacheOp) (s : State) : Res :=
  let h := s.cur
  let a := scalarAddr o (s.hart h)
  s.waitMemory h .neither [lineSpan a] fun s =>
    let w := s.who h (s.hart h).sup false a
    let store := decide (op = .disc)
    let acc : Access := if store then .store else .load
    (if 2 ^ 48 ≤ a.toNat then Eff.fault (w.trap (if store then causeSTORE_PAGE else causeLOAD_PAGE) a store 0)
    else match s.accessPage w acc a.toNat with
      | .fault c r => .fault (w.trap c a store r)
      | .poison => .fault (w.trap causeDATA_POISON a store 0)
      | .held k => .held (.queue k)
      | .ok s1 pa _ =>
        if spaceOf pa = 3 then .ok s1 0 0
        else if fN o % 8 = 4 then (s1.cleanHome op w a (lineOf pa)).bind w a store fun t => .ok t 0 0
        else (s1.cleanHere op (w.core / 32) (lineOf pa)).bind w a store fun t => .ok t 0 0).toRes s h fun t _ => t

/-- CBINV.WB, CBINV.WBI and CBINV.DISC (R251). -/
def execCbinvWb (o : Fields) (s : State) : Out := issue (.cbinvWb o) o (cbinvBody o .wb) s
def execCbinvWbi (o : Fields) (s : State) : Out := issue (.cbinvWbi o) o (cbinvBody o .wbi) s
def execCbinvDisc (o : Fields) (s : State) : Out := issue (.cbinvDisc o) o (cbinvBody o .disc) s

/-- FENCE: at domain scope and wider it waits for the posted stores too (R252, R281). -/
def fenceBody (o : Fields) (s : State) : Res :=
  if fN o = 0 then .ok s
  else s.waitQueue s.cur fun t => if 5 ≤ fN o ∧ (t.hart t.cur).outcnt ≠ 0 then .hold t else .ok t

def execFence (o : Fields) (s : State) : Out := issue (.fence o) o (fenceBody o) s

/-- FENCE.I: the core's instruction cache is empty (R72, R252). -/
def fenceIBody (s : State) : Res :=
  s.waitQueue s.cur fun t =>
    let c := (t.hart t.cur).coreNo
    .ok (match tfind t.cores c with
      | some k => t.setCore c { k with icache := [] }
      | none => t)

def execFenceI (o : Fields) (s : State) : Out := issue (.fenceI o) o fenceIBody s

/-- What a scalar atomic waits for: with .REL every earlier queued access, and at domain scope and wider the posted stores
(R248, R281, R288). -/
def atomicWait (o : Fields) (s : State) (go : State → Res) : Res :=
  if o.imm.getLsbD 5 then
    s.waitUntil s.cur (fun _ e _ => e.isVamo || e.accesses && e.unperformed) fun t =>
      if 5 ≤ fN o % 8 ∧ (t.hart t.cur).outcnt ≠ 0 then .hold t else go t
  else s.waitMemory s.cur .store (scalarSpan o ((s.hart s.cur).reg o.a.toNat)) go

/-- A scalar atomic with its step on the old value (R246). -/
def atomicBody (o : Fields) (step : Hart → Nat → Option Nat × BitVec 8) (s : State) : Res :=
  atomicWait o s fun s =>
    let h := s.cur
    let x := s.hart h
    let a := x.reg o.a.toNat
    let n := typeBytes o.w.toNat
    if !aligned a n then .trap s (misalign a a (lmBit o) true)
    else (s.atomicEl (scalarWho o s a) a n false (step x)).toRes s h fun t old =>
      t.modHart h fun y => y.varResult o.d.toNat (extCode o.w.toNat old)

/-- AMO (R246). -/
def execAmo (o : Fields) (s : State) : Out :=
  issue (.amo o) o (atomicBody o fun x => atomicStep (o.imm.toNat % 16) o.w.toNat (x.reg o.b.toNat).toNat) s

/-- CAS (R246). -/
def execCas (o : Fields) (s : State) : Out :=
  issue (.cas o) o (atomicBody o fun x =>
    casStep ((x.reg o.d.toNat).toNat % 2 ^ typeBits o.w.toNat) ((x.reg o.b.toNat).toNat % 2 ^ typeBits o.w.toNat)) s

end Sys2Proof.Machine
end

