-- ==== Sys2Proof/Machine/Permute.lean ====
section
/-! DEFINITION. Sys2Proof/Machine/Permute.lean: the meanings of group 0x5: permutation, masks, reductions, sorting and segments (R152 to R174). -/

namespace Sys2Proof.Machine

/-- VSLIDEUP (R157). -/
def execVslideup (o : Fields) (s : State) : Out := vecIssue (.vslideup o) o check1 s

/-- VSLIDEDN (R157). -/
def execVslidedn (o : Fields) (s : State) : Out := vecIssue (.vslidedn o) o check1 s

/-- VSLIDEIN.UP (R158). -/
def execVslideinUp (o : Fields) (s : State) : Out := vecIssue (.vslideinUp o) o check1 s

/-- VSLIDEIN.DN (R158). -/
def execVslideinDn (o : Fields) (s : State) : Out := vecIssue (.vslideinDn o) o check1 s

/-- VPERM (R157). -/
def execVperm (o : Fields) (s : State) : Out := vecIssue (.vperm o) o checkVperm s

/-- VXCH (R157). -/
def execVxch (o : Fields) (s : State) : Out := vecIssue (.vxch o) o check1 s

/-- VCOMPRESS (R159). -/
def execVcompress (o : Fields) (s : State) : Out := vecIssue (.vcompress o) o check1 s

/-- VEXPAND (R159). -/
def execVexpand (o : Fields) (s : State) : Out := vecIssue (.vexpand o) o check1 s

/-- VBCAST (R157). -/
def execVbcast (o : Fields) (s : State) : Out := vecIssue (.vbcast o) o check1 s

/-- VMVSX (R160). -/
def execVmvsx (o : Fields) (s : State) : Out := vecIssue (.vmvsx o) o checkVmvsx s

/-- VMVXS (R160). -/
def execVmvxs (o : Fields) (s : State) : Out := vecIssue (.vmvxs o) o checkVmvxs s

/-- VRED (R162). -/
def execVred (o : Fields) (s : State) : Out := vecIssue (.vred o) o checkRed s

/-- VRED.X (R161). -/
def execVredX (o : Fields) (s : State) : Out := vecIssue (.vredX o) o checkVredX s

/-- VFREDO (R163). -/
def execVfredo (o : Fields) (s : State) : Out := vecIssue (.vfredo o) o checkRed s

/-- VFREDT (R163). -/
def execVfredt (o : Fields) (s : State) : Out := vecIssue (.vfredt o) o checkRed s

/-- VFREDMX (R164). -/
def execVfredmx (o : Fields) (s : State) : Out := vecIssue (.vfredmx o) o checkRed s

/-- MLOG (R165). -/
def execMlog (o : Fields) (s : State) : Out := vecIssue (.mlog o) o checkMlog s

/-- MPOPC (R166). -/
def execMpopc (o : Fields) (s : State) : Out := vecIssue (.mpopc o) o checkMpopc s

/-- MFIRST (R166). -/
def execMfirst (o : Fields) (s : State) : Out := vecIssue (.mfirst o) o checkMpopc s

/-- MSET (R167). -/
def execMset (o : Fields) (s : State) : Out := vecIssue (.mset o) o checkMset s

/-- VSORTK (R169). -/
def execVsortk (o : Fields) (s : State) : Out := vecIssue (.vsortk o) o checkVsortk s

/-- VMERGEK (R170). -/
def execVmergek (o : Fields) (s : State) : Out := vecIssue (.vmergek o) o checkVmergek s

/-- VSEGRED (R173). -/
def execVsegred (o : Fields) (s : State) : Out := vecIssue (.vsegred o) o check1 s

/-- VSEGNORM (R174). -/
def execVsegnorm (o : Fields) (s : State) : Out := vecIssue (.vsegnorm o) o check1 s

/-- VSEGSCAN (R173). -/
def execVsegscan (o : Fields) (s : State) : Out := vecIssue (.vsegscan o) o check1 s

/-- VSETSEG (R171). -/
def execVsetseg (o : Fields) (s : State) : Out := vecIssue (.vsetseg o) o checkVsetseg s

/-- VGETSEG (R171). -/
def execVgetseg (o : Fields) (s : State) : Out := vecIssue (.vgetseg o) o checkVgetseg s

end Sys2Proof.Machine
end

