-- ==== Sys2Proof/Machine/Scalar.lean ====
section
/-! DEFINITION. Sys2Proof/Machine/Scalar.lean: the meanings of group 0x0, scalar integer instructions (R112 to R115). -/

namespace Sys2Proof.Machine

/-- A two-source integer instruction of latency L: y on val(sa) and val(srcb), then ext (R112, R113). -/
def int2Result (o : Fields) (L : Nat) (y : Int → Int → Int) (x : Hart) : Hart :=
  let w := o.w.toNat
  x.scalarResult o.d.toNat (extWord w (y (intVal w (x.reg o.a.toNat).toNat) (intVal w (srcB o x).toNat))) 0 L

/-- A two-source instruction on n-bit patterns, n the width of W. -/
def pat2Result (o : Fields) (y : Nat → Nat → Nat → Nat) (x : Hart) : Hart :=
  let w := o.w.toNat
  let n := typeBits w
  x.scalarResult o.d.toNat (extWord w (y n ((x.reg o.a.toNat).toNat % 2 ^ n) (srcB o x).toNat : Nat)) 0 1

/-- A one-source instruction on an n-bit pattern. -/
def pat1Result (o : Fields) (y : Nat → Nat → Nat) (x : Hart) : Hart :=
  let w := o.w.toNat
  let n := typeBits w
  x.scalarResult o.d.toNat (extWord w (y n ((x.reg o.a.toNat).toNat % 2 ^ n) : Nat)) 0 1

/-- A variable-latency integer result (R66). -/
def intVarResult (o : Fields) (y : Int → Int → Int) (x : Hart) : Hart :=
  let w := o.w.toNat
  x.varResult o.d.toNat (extWord w (y (intVal w (x.reg o.a.toNat).toNat) (intVal w (srcB o x).toNat)))

/-- ADD (R113). -/
def execAdd (o : Fields) (s : State) : Out := scalarIssue (.add o) o (int2Result o 1 (· + ·)) s

/-- SUB (R113). -/
def execSub (o : Fields) (s : State) : Out := scalarIssue (.sub o) o (int2Result o 1 (· - ·)) s

/-- MUL (R113). -/
def execMul (o : Fields) (s : State) : Out := scalarIssue (.mul o) o (int2Result o 3 (· * ·)) s

/-- MULH (R113). -/
def execMulh (o : Fields) (s : State) : Out := scalarIssue (.mulh o) o (int2Result o 3 fun a b => (a * b) / (2 ^ typeBits o.w.toNat : Nat)) s

/-- DIV (R114). -/
def execDiv (o : Fields) (s : State) : Out := scalarIssue (.div o) o (intVarResult o (intDiv o.w.toNat)) s

/-- REM (R114). -/
def execRem (o : Fields) (s : State) : Out := scalarIssue (.rem o) o (intVarResult o intRem) s

/-- AND (R113). -/
def execAnd (o : Fields) (s : State) : Out := scalarIssue (.and o) o (pat2Result o fun n a b => Nat.land a (b % 2 ^ n)) s

/-- OR (R113). -/
def execOr (o : Fields) (s : State) : Out := scalarIssue (.or o) o (pat2Result o fun n a b => Nat.lor a (b % 2 ^ n)) s

/-- XOR (R113). -/
def execXor (o : Fields) (s : State) : Out := scalarIssue (.xor o) o (pat2Result o fun n a b => Nat.xor a (b % 2 ^ n)) s

/-- ANDN (R113). -/
def execAndn (o : Fields) (s : State) : Out := scalarIssue (.andn o) o (pat2Result o fun n a b => Nat.land a (2 ^ n - 1 - b % 2 ^ n)) s

/-- SHL (R113). -/
def execShl (o : Fields) (s : State) : Out := scalarIssue (.shl o) o (pat2Result o fun n a b => a * 2 ^ (b % n)) s

/-- SHR (R113). -/
def execShr (o : Fields) (s : State) : Out := scalarIssue (.shr o) o (pat2Result o fun n a b => a / 2 ^ (b % n)) s

/-- SRA (R113). -/
def execSra (o : Fields) (s : State) : Out := scalarIssue (.sra o) o (pat2Result o fun n a b => wrapNat n (signedVal n a / (2 ^ (b % n) : Nat))) s

/-- ROTR (R113). -/
def execRotr (o : Fields) (s : State) : Out := scalarIssue (.rotr o) o (pat2Result o fun n a b => rotateRight n a (b % n)) s

/-- MIN (R113). -/
def execMin (o : Fields) (s : State) : Out := scalarIssue (.min o) o (int2Result o 1 min) s

/-- MAX (R113). -/
def execMax (o : Fields) (s : State) : Out := scalarIssue (.max o) o (int2Result o 1 max) s

/-- CLZ (R113). -/
def execClz (o : Fields) (s : State) : Out := scalarIssue (.clz o) o (pat1Result o leadingZeros) s

/-- CTZ (R113). -/
def execCtz (o : Fields) (s : State) : Out := scalarIssue (.ctz o) o (pat1Result o trailingZeros) s

/-- POPC (R113). -/
def execPopc (o : Fields) (s : State) : Out := scalarIssue (.popc o) o (pat1Result o countOnes) s

/-- BREV (R113). -/
def execBrev (o : Fields) (s : State) : Out := scalarIssue (.brev o) o (pat1Result o reverseBits) s

/-- EXT (R113). -/
def execExt (o : Fields) (s : State) : Out := scalarIssue (.ext o) o (pat1Result o fun _ a => a) s

/-- The place and the width of the field of BFX and BFI (R115). -/
def bfPos (o : Fields) : Nat := o.imm.toNat % 64
def bfWidth (o : Fields) : Nat := o.imm.toNat / 64 % 64 + 1

/-- BFX (R115). -/
def bfxResult (o : Fields) (x : Hart) : Hart :=
  let v := bitsOf (x.reg o.a.toNat).toNat (bfPos o) (bfWidth o)
  x.scalarResult o.d.toNat (if o.w = 3 then BitVec.ofInt 64 (signedVal (bfWidth o) v) else BitVec.ofNat 64 v) 0 1

def execBfx (o : Fields) (s : State) : Out := scalarIssue (.bfx o) o (bfxResult o) s

/-- BFI: sd is a source (R115). -/
def bfiResult (o : Fields) (x : Hart) : Hart :=
  let mask := (2 ^ bfWidth o - 1) * 2 ^ bfPos o
  let put := (x.reg o.a.toNat).toNat % 2 ^ bfWidth o * 2 ^ bfPos o
  x.scalarResult o.d.toNat ((x.reg o.d.toNat &&& ~~~(BitVec.ofNat 64 mask)) ||| BitVec.ofNat 64 put) 0 1

def execBfi (o : Fields) (s : State) : Out := scalarIssue (.bfi o) o (bfiResult o) s

/-- MOV: sa, or IMM sign-extended (R115). -/
def movResult (o : Fields) (x : Hart) : Hart :=
  x.scalarResult o.d.toNat (if o.i then o.imm.signExtend 64 else x.reg o.a.toNat) 0 1

def execMov (o : Fields) (s : State) : Out := scalarIssue (.mov o) o (movResult o) s

/-- LIH (R115). -/
def lihResult (o : Fields) (x : Hart) : Hart :=
  x.scalarResult o.d.toNat (BitVec.ofNat 64 (o.imm.toNat * 2 ^ 32 + (x.reg o.a.toNat).toNat % 2 ^ 32)) 0 1

def execLih (o : Fields) (s : State) : Out := scalarIssue (.lih o) o (lihResult o) s

/-- SEL (R115). -/
def selResult (o : Fields) (x : Hart) : Hart :=
  x.scalarResult o.d.toNat (if x.pred (fN o % 16) != o.f.getLsbD 4 then x.reg o.a.toNat else srcBSigned o x) 0 1

def execSel (o : Fields) (s : State) : Out := scalarIssue (.sel o) o (selResult o) s

/-- CMP: the integer column of R60 (R115). -/
def cmpResult (o : Fields) (x : Hart) : Hart :=
  let w := o.w.toNat
  x.predResult o.d.toNat (intCond (fN o) (intVal w (x.reg o.a.toNat).toNat) (intVal w (srcB o x).toNat)) 0 1

def execCmp (o : Fields) (s : State) : Out := scalarIssue (.cmp o) o (cmpResult o) s

end Sys2Proof.Machine
end

