-- ==== Sys2Proof/Machine/ScalarFloat.lean ====
section
/-! DEFINITION. Sys2Proof/Machine/ScalarFloat.lean: the meanings of group 0x1, scalar floating point and predicates (R116 to
R121). -/

namespace Sys2Proof.Machine

/-- The format, the rounding mode and SAT of a scalar floating instruction, and its two sources as codes (R116). -/
def floatArgs (o : Fields) (x : Hart) (y : Fmt → Nat → Bool → Nat → Nat → FRes) : FRes :=
  let n := typeBits o.w.toNat
  y (fmtOf o.w.toNat) (roundMode o x.fcsr.rm) (satBit o) ((x.reg o.a.toNat).toNat % 2 ^ n) ((srcB o x).toNat % 2 ^ n)

/-- A scalar floating result of latency L; its flags land with it (R66, R98, R116). -/
def floatResult (o : Fields) (L : Nat) (y : Fmt → Nat → Bool → Nat → Nat → FRes) (x : Hart) : Hart :=
  let r := floatArgs o x y
  x.scalarResult o.d.toNat (BitVec.ofNat 64 r.code) r.flags L true

/-- A scalar floating result of variable latency. -/
def floatVarResult (o : Fields) (y : Fmt → Nat → Bool → Nat → Nat → FRes) (x : Hart) : Hart :=
  let r := floatArgs o x y
  (x.varResult o.d.toNat (BitVec.ofNat 64 r.code)).orFlags r.flags

/-- FADD (R116). -/
def execFadd (o : Fields) (s : State) : Out := scalarIssue (.fadd o) o (floatResult o 4 fun fm m s a b => fm.add m s a b) s

/-- FSUB (R116). -/
def execFsub (o : Fields) (s : State) : Out := scalarIssue (.fsub o) o (floatResult o 4 fun fm m s a b => fm.sub m s a b) s

/-- FMUL (R116). -/
def execFmul (o : Fields) (s : State) : Out := scalarIssue (.fmul o) o (floatResult o 4 fun fm m s a b => fm.mul m s a b) s

/-- FFMA (R116; sd is the third source). -/
def execFfma (o : Fields) (s : State) : Out := scalarIssue (.ffma o) o (fun x => floatResult o 4 (fun fm m s a b => fm.fma m s false a b ((x.reg o.d.toNat).toNat % 2 ^ typeBits o.w.toNat)) x) s

/-- FDIV (R116). -/
def execFdiv (o : Fields) (s : State) : Out := scalarIssue (.fdiv o) o (floatVarResult o fun fm m s a b => fm.div m s a b) s

/-- FSQRT (R116). -/
def execFsqrt (o : Fields) (s : State) : Out := scalarIssue (.fsqrt o) o (floatVarResult o fun fm m s a _ => fm.sqrt m s a) s

/-- FMIN (R117). -/
def execFmin (o : Fields) (s : State) : Out := scalarIssue (.fmin o) o (floatResult o 2 fun fm _ _ a b => fm.minMax false a b) s

/-- FMAX (R117). -/
def execFmax (o : Fields) (s : State) : Out := scalarIssue (.fmax o) o (floatResult o 2 fun fm _ _ a b => fm.minMax true a b) s

/-- FCMP: the floating column of R60 (R118). -/
def fcmpResult (o : Fields) (x : Hart) : Hart :=
  let n := typeBits o.w.toNat
  let r := (fmtOf o.w.toNat).cond (fN o) ((x.reg o.a.toNat).toNat % 2 ^ n) ((srcB o x).toNat % 2 ^ n)
  x.predResult o.d.toNat r.1 r.2 2 true

def execFcmp (o : Fields) (s : State) : Out := scalarIssue (.fcmp o) o (fcmpResult o) s

/-- FCVT: an integer result is written as ext of the target (R119). -/
def fcvtResult (o : Fields) (x : Hart) : Hart :=
  let w := o.w.toNat
  let src := fN o / 16
  let r := convertType src w (roundMode o x.fcsr.rm) (satBit o) ((x.reg o.a.toNat).toNat % 2 ^ typeBits src)
  x.scalarResult o.d.toNat (if w ≤ 7 then extWord w (r.code : Nat) else BitVec.ofNat 64 r.code) r.flags 3 true

def execFcvt (o : Fields) (s : State) : Out := scalarIssue (.fcvt o) o (fcvtResult o) s

/-- PLOG (R120). -/
def plogResult (o : Fields) (x : Hart) : Hart :=
  x.predResult o.d.toNat (bitOf (fN o) (2 * (x.pred o.a.toNat).toNat + (x.pred o.b.toNat).toNat)) 0 1

def execPlog (o : Fields) (s : State) : Out := scalarIssue (.plog o) o (plogResult o) s

/-- PMOV of a predicate (R121). -/
def execPmov (o : Fields) (s : State) : Out :=
  scalarIssue (.pmov o) o (fun x => x.predResult o.d.toNat (x.pred o.a.toNat) 0 1) s

/-- PMOV of a scalar (R121). -/
def execPmovScalar (o : Fields) (s : State) : Out :=
  scalarIssue (.pmovScalar o) o (fun x => x.predResult o.d.toNat (decide (x.reg o.a.toNat ≠ 0)) 0 1) s

/-- PMOV.ALL (R121). -/
def pmovAllResult (o : Fields) (x : Hart) : Hart :=
  (List.range 15).foldl (fun y n => y.predResult n ((x.reg o.a.toNat).getLsbD n) 0 1) x

def execPmovAll (o : Fields) (s : State) : Out := scalarIssue (.pmovAll o) o (pmovAllResult o) s

end Sys2Proof.Machine
end

