-- ==== Sys2Proof/Machine/TaskQueued.lean ====
section
/-! DEFINITION. Sys2Proof/Machine/TaskQueued.lean: the meanings of TASKPUB, ARRIVE and WAKE (R325, R328, R329). -/

namespace Sys2Proof.Machine

/-- TASKPUB (R325). -/
def execTaskpub (o : Fields) (s : State) : Out := vecIssue (.taskpub o) o checkNone s

/-- ARRIVE (R328). -/
def execArrive (o : Fields) (s : State) : Out := vecIssue (.arrive o) o checkArrive s

/-- WAKE (R329). -/
def execWake (o : Fields) (s : State) : Out := vecIssue (.wake o) o checkNone s

end Sys2Proof.Machine
end

