-- ==== Sys2Proof/Machine/VecFloat.lean ====
section
/-! DEFINITION. Sys2Proof/Machine/VecFloat.lean: the meanings of group 0x4, vector floating-point instructions (R145 to R149). -/

namespace Sys2Proof.Machine

/-- VFADD (R145). -/
def execVfadd (o : Fields) (s : State) : Out := vecIssue (.vfadd o) o check2 s

/-- VFSUB (R145). -/
def execVfsub (o : Fields) (s : State) : Out := vecIssue (.vfsub o) o check2 s

/-- VFMUL (R145). -/
def execVfmul (o : Fields) (s : State) : Out := vecIssue (.vfmul o) o check2 s

/-- VFMA (R145). -/
def execVfma (o : Fields) (s : State) : Out := vecIssue (.vfma o) o check2 s

/-- VFNMA (R145). -/
def execVfnma (o : Fields) (s : State) : Out := vecIssue (.vfnma o) o check2 s

/-- VFDIV (R145). -/
def execVfdiv (o : Fields) (s : State) : Out := vecIssue (.vfdiv o) o check2 s

/-- VFSQRT (R145). -/
def execVfsqrt (o : Fields) (s : State) : Out := vecIssue (.vfsqrt o) o check1 s

/-- VFEXP (R145). -/
def execVfexp (o : Fields) (s : State) : Out := vecIssue (.vfexp o) o check1 s

/-- VFMIN (R146). -/
def execVfmin (o : Fields) (s : State) : Out := vecIssue (.vfmin o) o check2 s

/-- VFMAX (R146). -/
def execVfmax (o : Fields) (s : State) : Out := vecIssue (.vfmax o) o check2 s

/-- VFCMP (R146). -/
def execVfcmp (o : Fields) (s : State) : Out := vecIssue (.vfcmp o) o checkCmp s

/-- VFCLASS (R146). -/
def execVfclass (o : Fields) (s : State) : Out := vecIssue (.vfclass o) o check1 s

/-- VFCVT (R147). -/
def execVfcvt (o : Fields) (s : State) : Out := vecIssue (.vfcvt o) o checkVfcvt s

/-- VFSCALE (R145). -/
def execVfscale (o : Fields) (s : State) : Out := vecIssue (.vfscale o) o check2 s

/-- VFSGN (R146). -/
def execVfsgn (o : Fields) (s : State) : Out := vecIssue (.vfsgn o) o check2 s

/-- VFQNT (R148). -/
def execVfqnt (o : Fields) (s : State) : Out := vecIssue (.vfqnt o) o checkVfqnt s

/-- VFDQNT (R149). -/
def execVfdqnt (o : Fields) (s : State) : Out := vecIssue (.vfdqnt o) o checkVfdqnt s

/-- VFAMAX (R146). -/
def execVfamax (o : Fields) (s : State) : Out := vecIssue (.vfamax o) o check2 s

end Sys2Proof.Machine
end

