-- ==== Sys2Proof/Machine/VecInt.lean ====
section
/-! DEFINITION. Sys2Proof/Machine/VecInt.lean: the meanings of group 0x3, vector integer instructions (R132 to R144). -/

namespace Sys2Proof.Machine

/-- VADD (R140). -/
def execVadd (o : Fields) (s : State) : Out := vecIssue (.vadd o) o check2 s

/-- VSUB (R140). -/
def execVsub (o : Fields) (s : State) : Out := vecIssue (.vsub o) o check2 s

/-- VMUL (R140). -/
def execVmul (o : Fields) (s : State) : Out := vecIssue (.vmul o) o check2 s

/-- VMULH (R140). -/
def execVmulh (o : Fields) (s : State) : Out := vecIssue (.vmulh o) o check2 s

/-- VMADD (R140). -/
def execVmadd (o : Fields) (s : State) : Out := vecIssue (.vmadd o) o check2 s

/-- VDIV (R140). -/
def execVdiv (o : Fields) (s : State) : Out := vecIssue (.vdiv o) o check2 s

/-- VREM (R140). -/
def execVrem (o : Fields) (s : State) : Out := vecIssue (.vrem o) o check2 s

/-- VAND (R140). -/
def execVand (o : Fields) (s : State) : Out := vecIssue (.vand o) o check2 s

/-- VOR (R140). -/
def execVor (o : Fields) (s : State) : Out := vecIssue (.vor o) o check2 s

/-- VXOR (R140). -/
def execVxor (o : Fields) (s : State) : Out := vecIssue (.vxor o) o check2 s

/-- VSHL (R140). -/
def execVshl (o : Fields) (s : State) : Out := vecIssue (.vshl o) o check2 s

/-- VSHR (R140). -/
def execVshr (o : Fields) (s : State) : Out := vecIssue (.vshr o) o check2 s

/-- VSRA (R140). -/
def execVsra (o : Fields) (s : State) : Out := vecIssue (.vsra o) o check2 s

/-- VMIN (R140). -/
def execVmin (o : Fields) (s : State) : Out := vecIssue (.vmin o) o check2 s

/-- VMAX (R140). -/
def execVmax (o : Fields) (s : State) : Out := vecIssue (.vmax o) o check2 s

/-- VABSD (R140). -/
def execVabsd (o : Fields) (s : State) : Out := vecIssue (.vabsd o) o check2 s

/-- VSADD (R140). -/
def execVsadd (o : Fields) (s : State) : Out := vecIssue (.vsadd o) o check2 s

/-- VSSUB (R140). -/
def execVssub (o : Fields) (s : State) : Out := vecIssue (.vssub o) o check2 s

/-- VCMP (R141). -/
def execVcmp (o : Fields) (s : State) : Out := vecIssue (.vcmp o) o checkCmp s

/-- VSEL (R141). -/
def execVsel (o : Fields) (s : State) : Out := vecIssue (.vsel o) o check2 s

/-- VWADD (R142). -/
def execVwadd (o : Fields) (s : State) : Out := vecIssue (.vwadd o) o checkVwide s

/-- VWMUL (R142). -/
def execVwmul (o : Fields) (s : State) : Out := vecIssue (.vwmul o) o checkVwide s

/-- VNSHR (R143). -/
def execVnshr (o : Fields) (s : State) : Out := vecIssue (.vnshr o) o checkVnshr s

/-- VID (R144). -/
def execVid (o : Fields) (s : State) : Out := vecIssue (.vid o) o checkVid s

/-- VIOTA (R144). -/
def execViota (o : Fields) (s : State) : Out := vecIssue (.viota o) o checkViota s

end Sys2Proof.Machine
end

