-- ==== Sys2Proof/Machine/Dispatch.lean ====
section
/-! DEFINITION. Sys2Proof/Machine/Dispatch.lean: the meaning of each instruction of the hart whose turn it is, and of each
event. -/

namespace Sys2Proof.Machine

def exec (i : Instr) (s : State) : Host.Outcome State Fault Refusal :=
  match i with
  | .add o => Sys2Proof.Machine.execAdd o s
  | .sub o => Sys2Proof.Machine.execSub o s
  | .mul o => Sys2Proof.Machine.execMul o s
  | .mulh o => Sys2Proof.Machine.execMulh o s
  | .div o => Sys2Proof.Machine.execDiv o s
  | .rem o => Sys2Proof.Machine.execRem o s
  | .and o => Sys2Proof.Machine.execAnd o s
  | .or o => Sys2Proof.Machine.execOr o s
  | .xor o => Sys2Proof.Machine.execXor o s
  | .andn o => Sys2Proof.Machine.execAndn o s
  | .shl o => Sys2Proof.Machine.execShl o s
  | .shr o => Sys2Proof.Machine.execShr o s
  | .sra o => Sys2Proof.Machine.execSra o s
  | .rotr o => Sys2Proof.Machine.execRotr o s
  | .min o => Sys2Proof.Machine.execMin o s
  | .max o => Sys2Proof.Machine.execMax o s
  | .clz o => Sys2Proof.Machine.execClz o s
  | .ctz o => Sys2Proof.Machine.execCtz o s
  | .popc o => Sys2Proof.Machine.execPopc o s
  | .brev o => Sys2Proof.Machine.execBrev o s
  | .ext o => Sys2Proof.Machine.execExt o s
  | .bfx o => Sys2Proof.Machine.execBfx o s
  | .bfi o => Sys2Proof.Machine.execBfi o s
  | .mov o => Sys2Proof.Machine.execMov o s
  | .lih o => Sys2Proof.Machine.execLih o s
  | .sel o => Sys2Proof.Machine.execSel o s
  | .cmp o => Sys2Proof.Machine.execCmp o s
  | .fadd o => Sys2Proof.Machine.execFadd o s
  | .fsub o => Sys2Proof.Machine.execFsub o s
  | .fmul o => Sys2Proof.Machine.execFmul o s
  | .ffma o => Sys2Proof.Machine.execFfma o s
  | .fdiv o => Sys2Proof.Machine.execFdiv o s
  | .fsqrt o => Sys2Proof.Machine.execFsqrt o s
  | .fmin o => Sys2Proof.Machine.execFmin o s
  | .fmax o => Sys2Proof.Machine.execFmax o s
  | .fcmp o => Sys2Proof.Machine.execFcmp o s
  | .fcvt o => Sys2Proof.Machine.execFcvt o s
  | .plog o => Sys2Proof.Machine.execPlog o s
  | .pmov o => Sys2Proof.Machine.execPmov o s
  | .pmovScalar o => Sys2Proof.Machine.execPmovScalar o s
  | .pmovAll o => Sys2Proof.Machine.execPmovAll o s
  | .bra o => Sys2Proof.Machine.execBra o s
  | .jmp o => Sys2Proof.Machine.execJmp o s
  | .call o => Sys2Proof.Machine.execCall o s
  | .callReg o => Sys2Proof.Machine.execCallReg o s
  | .ret o => Sys2Proof.Machine.execRet o s
  | .loop o => Sys2Proof.Machine.execLoop o s
  | .setvl o => Sys2Proof.Machine.execSetvl o s
  | .trap o => Sys2Proof.Machine.execTrap o s
  | .eret o => Sys2Proof.Machine.execEret o s
  | .mfs o => Sys2Proof.Machine.execMfs o s
  | .mts o => Sys2Proof.Machine.execMts o s
  | .endI o => Sys2Proof.Machine.execEnd o s
  | .yield o => Sys2Proof.Machine.execYield o s
  | .yieldRel o => Sys2Proof.Machine.execYieldRel o s
  | .nop o => Sys2Proof.Machine.execNop o s
  | .tfence o => Sys2Proof.Machine.execTfence o s
  | .vadd o => Sys2Proof.Machine.execVadd o s
  | .vsub o => Sys2Proof.Machine.execVsub o s
  | .vmul o => Sys2Proof.Machine.execVmul o s
  | .vmulh o => Sys2Proof.Machine.execVmulh o s
  | .vmadd o => Sys2Proof.Machine.execVmadd o s
  | .vdiv o => Sys2Proof.Machine.execVdiv o s
  | .vrem o => Sys2Proof.Machine.execVrem o s
  | .vand o => Sys2Proof.Machine.execVand o s
  | .vor o => Sys2Proof.Machine.execVor o s
  | .vxor o => Sys2Proof.Machine.execVxor o s
  | .vshl o => Sys2Proof.Machine.execVshl o s
  | .vshr o => Sys2Proof.Machine.execVshr o s
  | .vsra o => Sys2Proof.Machine.execVsra o s
  | .vmin o => Sys2Proof.Machine.execVmin o s
  | .vmax o => Sys2Proof.Machine.execVmax o s
  | .vabsd o => Sys2Proof.Machine.execVabsd o s
  | .vsadd o => Sys2Proof.Machine.execVsadd o s
  | .vssub o => Sys2Proof.Machine.execVssub o s
  | .vcmp o => Sys2Proof.Machine.execVcmp o s
  | .vsel o => Sys2Proof.Machine.execVsel o s
  | .vwadd o => Sys2Proof.Machine.execVwadd o s
  | .vwmul o => Sys2Proof.Machine.execVwmul o s
  | .vnshr o => Sys2Proof.Machine.execVnshr o s
  | .vid o => Sys2Proof.Machine.execVid o s
  | .viota o => Sys2Proof.Machine.execViota o s
  | .vfadd o => Sys2Proof.Machine.execVfadd o s
  | .vfsub o => Sys2Proof.Machine.execVfsub o s
  | .vfmul o => Sys2Proof.Machine.execVfmul o s
  | .vfma o => Sys2Proof.Machine.execVfma o s
  | .vfnma o => Sys2Proof.Machine.execVfnma o s
  | .vfdiv o => Sys2Proof.Machine.execVfdiv o s
  | .vfsqrt o => Sys2Proof.Machine.execVfsqrt o s
  | .vfexp o => Sys2Proof.Machine.execVfexp o s
  | .vfmin o => Sys2Proof.Machine.execVfmin o s
  | .vfmax o => Sys2Proof.Machine.execVfmax o s
  | .vfcmp o => Sys2Proof.Machine.execVfcmp o s
  | .vfclass o => Sys2Proof.Machine.execVfclass o s
  | .vfcvt o => Sys2Proof.Machine.execVfcvt o s
  | .vfscale o => Sys2Proof.Machine.execVfscale o s
  | .vfsgn o => Sys2Proof.Machine.execVfsgn o s
  | .vfqnt o => Sys2Proof.Machine.execVfqnt o s
  | .vfdqnt o => Sys2Proof.Machine.execVfdqnt o s
  | .vfamax o => Sys2Proof.Machine.execVfamax o s
  | .vslideup o => Sys2Proof.Machine.execVslideup o s
  | .vslidedn o => Sys2Proof.Machine.execVslidedn o s
  | .vslideinUp o => Sys2Proof.Machine.execVslideinUp o s
  | .vslideinDn o => Sys2Proof.Machine.execVslideinDn o s
  | .vperm o => Sys2Proof.Machine.execVperm o s
  | .vxch o => Sys2Proof.Machine.execVxch o s
  | .vcompress o => Sys2Proof.Machine.execVcompress o s
  | .vexpand o => Sys2Proof.Machine.execVexpand o s
  | .vbcast o => Sys2Proof.Machine.execVbcast o s
  | .vmvsx o => Sys2Proof.Machine.execVmvsx o s
  | .vmvxs o => Sys2Proof.Machine.execVmvxs o s
  | .vred o => Sys2Proof.Machine.execVred o s
  | .vredX o => Sys2Proof.Machine.execVredX o s
  | .vfredo o => Sys2Proof.Machine.execVfredo o s
  | .vfredt o => Sys2Proof.Machine.execVfredt o s
  | .vfredmx o => Sys2Proof.Machine.execVfredmx o s
  | .mlog o => Sys2Proof.Machine.execMlog o s
  | .mpopc o => Sys2Proof.Machine.execMpopc o s
  | .mfirst o => Sys2Proof.Machine.execMfirst o s
  | .mset o => Sys2Proof.Machine.execMset o s
  | .vsortk o => Sys2Proof.Machine.execVsortk o s
  | .vmergek o => Sys2Proof.Machine.execVmergek o s
  | .vsegred o => Sys2Proof.Machine.execVsegred o s
  | .vsegnorm o => Sys2Proof.Machine.execVsegnorm o s
  | .vsegscan o => Sys2Proof.Machine.execVsegscan o s
  | .vsetseg o => Sys2Proof.Machine.execVsetseg o s
  | .vgetseg o => Sys2Proof.Machine.execVgetseg o s
  | .fbuild o => Sys2Proof.Machine.execFbuild o s
  | .fsplit o => Sys2Proof.Machine.execFsplit o s
  | .fisect o => Sys2Proof.Machine.execFisect o s
  | .funion o => Sys2Proof.Machine.execFunion o s
  | .fmerge o => Sys2Proof.Machine.execFmerge o s
  | .fcompact o => Sys2Proof.Machine.execFcompact o s
  | .fexpand o => Sys2Proof.Machine.execFexpand o s
  | .fgather o => Sys2Proof.Machine.execFgather o s
  | .fmulFibre o => Sys2Proof.Machine.execFmulFibre o s
  | .fdot o => Sys2Proof.Machine.execFdot o s
  | .fscale o => Sys2Proof.Machine.execFscale o s
  | .focc o => Sys2Proof.Machine.execFocc o s
  | .fshift o => Sys2Proof.Machine.execFshift o s
  | .fsort o => Sys2Proof.Machine.execFsort o s
  | .fred o => Sys2Proof.Machine.execFred o s
  | .fclear o => Sys2Proof.Machine.execFclear o s
  | .fclearPair o => Sys2Proof.Machine.execFclearPair o s
  | .mma o => Sys2Proof.Machine.execMma o s
  | .mmas o => Sys2Proof.Machine.execMmas o s
  | .mmag o => Sys2Proof.Machine.execMmag o s
  | .mprom o => Sys2Proof.Machine.execMprom o s
  | .mzero o => Sys2Proof.Machine.execMzero o s
  | .mzeroC o => Sys2Proof.Machine.execMzeroC o s
  | .mdrain o => Sys2Proof.Machine.execMdrain o s
  | .mfill o => Sys2Proof.Machine.execMfill o s
  | .mstat o => Sys2Proof.Machine.execMstat o s
  | .ld o => Sys2Proof.Machine.execLd o s
  | .st o => Sys2Proof.Machine.execSt o s
  | .vld o => Sys2Proof.Machine.execVld o s
  | .vst o => Sys2Proof.Machine.execVst o s
  | .vlds o => Sys2Proof.Machine.execVlds o s
  | .vsts o => Sys2Proof.Machine.execVsts o s
  | .vldx o => Sys2Proof.Machine.execVldx o s
  | .vstx o => Sys2Proof.Machine.execVstx o s
  | .vldf o => Sys2Proof.Machine.execVldf o s
  | .vstf o => Sys2Proof.Machine.execVstf o s
  | .vldp o => Sys2Proof.Machine.execVldp o s
  | .vstp o => Sys2Proof.Machine.execVstp o s
  | .pref o => Sys2Proof.Machine.execPref o s
  | .cbinvWb o => Sys2Proof.Machine.execCbinvWb o s
  | .cbinvWbi o => Sys2Proof.Machine.execCbinvWbi o s
  | .cbinvDisc o => Sys2Proof.Machine.execCbinvDisc o s
  | .fence o => Sys2Proof.Machine.execFence o s
  | .fenceI o => Sys2Proof.Machine.execFenceI o s
  | .amo o => Sys2Proof.Machine.execAmo o s
  | .cas o => Sys2Proof.Machine.execCas o s
  | .vamo o => Sys2Proof.Machine.execVamo o s
  | .vldc o => Sys2Proof.Machine.execVldc o s
  | .vstc o => Sys2Proof.Machine.execVstc o s
  | .vamoc o => Sys2Proof.Machine.execVamoc o s
  | .fld o => Sys2Proof.Machine.execFld o s
  | .fst o => Sys2Proof.Machine.execFst o s
  | .fwalk o => Sys2Proof.Machine.execFwalk o s
  | .vqsync o => Sys2Proof.Machine.execVqsync o s
  | .vqreplay o => Sys2Proof.Machine.execVqreplay o s
  | .qbind o => Sys2Proof.Machine.execQbind o s
  | .qrd o => Sys2Proof.Machine.execQrd o s
  | .fldq o => Sys2Proof.Machine.execFldq o s
  | .qrel o => Sys2Proof.Machine.execQrel o s
  | .acopy o => Sys2Proof.Machine.execAcopy o s
  | .acopy2 o => Sys2Proof.Machine.execAcopy2 o s
  | .waitt o => Sys2Proof.Machine.execWaitt o s
  | .collArsum o => Sys2Proof.Machine.execCollArsum o s
  | .collArmax o => Sys2Proof.Machine.execCollArmax o s
  | .collAg o => Sys2Proof.Machine.execCollAg o s
  | .collRssum o => Sys2Proof.Machine.execCollRssum o s
  | .collRsmax o => Sys2Proof.Machine.execCollRsmax o s
  | .toksend o => Sys2Proof.Machine.execToksend o s
  | .taskpub o => Sys2Proof.Machine.execTaskpub o s
  | .taskcan o => Sys2Proof.Machine.execTaskcan o s
  | .arrive o => Sys2Proof.Machine.execArrive o s
  | .waitb o => Sys2Proof.Machine.execWaitb o s
  | .sleep o => Sys2Proof.Machine.execSleep o s
  | .wake o => Sys2Proof.Machine.execWake o s
  | .clbinv o => Sys2Proof.Machine.execClbinv o s
  | .clbinvAll o => Sys2Proof.Machine.execClbinvAll o s
  | .viewreg o => Sys2Proof.Machine.execViewreg o s
  | .viewdel o => Sys2Proof.Machine.execViewdel o s
  | .viewsync o => Sys2Proof.Machine.execViewsync o s
  | .viewsyncTw o => Sys2Proof.Machine.execViewsyncTw o s
  | .viewstat o => Sys2Proof.Machine.execViewstat o s
  | .viewstatD o => Sys2Proof.Machine.execViewstatD o s
  | .mtlbinvPage o => Sys2Proof.Machine.execMtlbinvPage o s
  | .mtlbinvAsn o => Sys2Proof.Machine.execMtlbinvAsn o s
  | .mtlbinvAll o => Sys2Proof.Machine.execMtlbinvAll o s
  | .pmig o => Sys2Proof.Machine.execPmig o s
  | .biassetHost o => Sys2Proof.Machine.execBiassetHost o s
  | .biassetDev o => Sys2Proof.Machine.execBiassetDev o s
  | .frecinv o => Sys2Proof.Machine.execFrecinv o s
  | .frecinvAll o => Sys2Proof.Machine.execFrecinvAll o s
  | .rdcyc o => Sys2Proof.Machine.execRdcyc o s
  | .rdseq o => Sys2Proof.Machine.execRdseq o s
  | .waitseq o => Sys2Proof.Machine.execWaitseq o s
  | .rdclk o => Sys2Proof.Machine.execRdclk o s
  | .cresync o => Sys2Proof.Machine.execCresync o s
  | .evsel o => Sys2Proof.Machine.execEvsel o s
  | .evrd o => Sys2Proof.Machine.execEvrd o s
  | .outcnt o => Sys2Proof.Machine.execOutcnt o s
  | .budrd o => Sys2Proof.Machine.execBudrd o s
  | .packageReset selfTestFail linkFail images => Sys2Proof.Machine.execPackageReset selfTestFail linkFail images s
  | .cycleTick => Sys2Proof.Machine.execCycleTick s
  | .scalarWriteLand h => Sys2Proof.Machine.execScalarWriteLand h s
  | .joinRelease h => Sys2Proof.Machine.execJoinRelease h s
  | .queuePushResume h => Sys2Proof.Machine.execQueuePushResume h s
  | .queueEntryStart core steps => Sys2Proof.Machine.execQueueEntryStart core steps s
  | .queueEntryComplete h => Sys2Proof.Machine.execQueueEntryComplete h s
  | .vectorFault h => Sys2Proof.Machine.execVectorFault h s
  | .queueFault h => Sys2Proof.Machine.execQueueFault h s
  | .interrupt h => Sys2Proof.Machine.execInterrupt h s
  | .preempt h requester => Sys2Proof.Machine.execPreempt h requester s
  | .regstoreFill h line => Sys2Proof.Machine.execRegstoreFill h line s
  | .budgetCharge h => Sys2Proof.Machine.execBudgetCharge h s
  | .budgetRefill => Sys2Proof.Machine.execBudgetRefill s
  | .governorUpdate die rate => Sys2Proof.Machine.execGovernorUpdate die rate s
  | .streamPrefetch h q n => Sys2Proof.Machine.execStreamPrefetch h q n s
  | .requestHeaderRefused h => Sys2Proof.Machine.execRequestHeaderRefused h s
  | .l2Fill die line => Sys2Proof.Machine.execL2Fill die line s
  | .dirRead line die => Sys2Proof.Machine.execDirRead line die s
  | .dirOwnership line die => Sys2Proof.Machine.execDirOwnership line die s
  | .writebackRequest line die => Sys2Proof.Machine.execWritebackRequest line die s
  | .writebackGrant line die => Sys2Proof.Machine.execWritebackGrant line die s
  | .synonymSwitch frame asn granule => Sys2Proof.Machine.execSynonymSwitch frame asn granule s
  | .engineLineFinish agent eng => Sys2Proof.Machine.execEngineLineFinish agent eng s
  | .copyOpComplete agent eng => Sys2Proof.Machine.execCopyOpComplete agent eng s
  | .collComplete agent peers => Sys2Proof.Machine.execCollComplete agent peers s
  | .toksendRowPlace k => Sys2Proof.Machine.execToksendRowPlace k s
  | .postedStoreAck h => Sys2Proof.Machine.execPostedStoreAck h s
  | .domainTimeout h => Sys2Proof.Machine.execDomainTimeout h s
  | .promiseMissed h => Sys2Proof.Machine.execPromiseMissed h s
  | .viewsyncTimeout h => Sys2Proof.Machine.execViewsyncTimeout h s
  | .sleepTimeout h => Sys2Proof.Machine.execSleepTimeout h s
  | .migration hub => Sys2Proof.Machine.execMigration hub s
  | .migrationComplete hub => Sys2Proof.Machine.execMigrationComplete hub s
  | .holdQueueRetry hub => Sys2Proof.Machine.execHoldQueueRetry hub s
  | .biasFlipStep granule => Sys2Proof.Machine.execBiasFlipStep granule s
  | .hostCxlMemRead off own => Sys2Proof.Machine.execHostCxlMemRead off own s
  | .hostCxlMemWrite off data => Sys2Proof.Machine.execHostCxlMemWrite off data s
  | .doorbellWrite hub mask => Sys2Proof.Machine.execDoorbellWrite hub mask s
  | .publishWrite value => Sys2Proof.Machine.execPublishWrite value s
  | .hostPublication => Sys2Proof.Machine.execHostPublication s
  | .fencereqWrite value => Sys2Proof.Machine.execFencereqWrite value s
  | .dieLevelError die => Sys2Proof.Machine.execDieLevelError die s
  | .hubLoss => Sys2Proof.Machine.execHubLoss s
  | .uncontainedAsnFault hub asn => Sys2Proof.Machine.execUncontainedAsnFault hub asn s
  | .uncorrectableError e => Sys2Proof.Machine.execUncorrectableError e s
  | .packetArrival dst p => Sys2Proof.Machine.execPacketArrival dst p s
  | .quarantineDelivery dst => Sys2Proof.Machine.execQuarantineDelivery dst s
  | .horizonBeat dst b => Sys2Proof.Machine.execHorizonBeat dst b s
  | .idleBeat src dst => Sys2Proof.Machine.execIdleBeat src dst s
  | .windowStall agent => Sys2Proof.Machine.execWindowStall agent s
  | .resyncDrainTimeout => Sys2Proof.Machine.execResyncDrainTimeout s
  | .watchBeat viewHome masterHome => Sys2Proof.Machine.execWatchBeat viewHome masterHome s
  | .staleNotice reg block => Sys2Proof.Machine.execStaleNotice reg block s
  | .derivationStart hub => Sys2Proof.Machine.execDerivationStart hub s
  | .derivationPublish hub => Sys2Proof.Machine.execDerivationPublish hub s
  | .viewRead h => Sys2Proof.Machine.execViewRead h s
  | .poolPush asn pool block => Sys2Proof.Machine.execPoolPush asn pool block s
  | .clbDropAck core asn root => Sys2Proof.Machine.execClbDropAck core asn root s
  | .predecessorEvent asn tcb ending => Sys2Proof.Machine.execPredecessorEvent asn tcb ending s
  | .dispatchClaim => Sys2Proof.Machine.execDispatchClaim s
  | .readyListAging k => Sys2Proof.Machine.execReadyListAging k s
  | .level0Preempt => Sys2Proof.Machine.execLevel0Preempt s
  | .taskRetirement k => Sys2Proof.Machine.execTaskRetirement k s
  | .taskFailure k status => Sys2Proof.Machine.execTaskFailure k status s
  | .waitUnbind h => Sys2Proof.Machine.execWaitUnbind h s
  | .waitRebind h => Sys2Proof.Machine.execWaitRebind h s
  | .irqsetWrite hub => Sys2Proof.Machine.execIrqsetWrite hub s
  | .memrdyWrite hub => Sys2Proof.Machine.execMemrdyWrite hub s
  | .configRegWrite hub off n value => Sys2Proof.Machine.execConfigRegWrite hub off n value s
  | .managementMessage m => Sys2Proof.Machine.execManagementMessage m s
  | .debugUnlock signed => Sys2Proof.Machine.execDebugUnlock signed s
  | .rilrovPortFailure rail => Sys2Proof.Machine.execRilrovPortFailure rail s
  | .lossOfFlow up => Sys2Proof.Machine.execLossOfFlow up s
  | .junctionTemperature die celsius => Sys2Proof.Machine.execJunctionTemperature die celsius s
  | .memEnableControlWrite port up => Sys2Proof.Machine.execMemEnableControlWrite port up s
  | .rilrovIngress pa data => Sys2Proof.Machine.execRilrovIngress pa data s
  | .ethernetIngress pa data => Sys2Proof.Machine.execEthernetIngress pa data s
  | .hostCxlResponse half data => Sys2Proof.Machine.execHostCxlResponse half data s
  | .mtlbinvAcknowledge agent scope => Sys2Proof.Machine.execMtlbinvAcknowledge agent scope s

end Sys2Proof.Machine
end

