-- ==== Sys2Proof/Machine/Turn.lean ====
section
/-! DEFINITION. Sys2Proof/Machine/Turn.lean: what happens next: an issue turn of a hart, and the order in which the model takes the
moves of the package where nothing else names one (R61, R65, R292, R293, R318, R386; log 4). -/

namespace Sys2Proof.Machine

/-- Hart h has issued an instruction, which is not held: no other hart of its core gives up a turn any more, and HINT.Y gives up
the turn of h itself, unless the instruction trapped without effect; the trap of TRAP is its effect (R61). `n` is the number of
the hart's trap entries before it. DESIGN CHOICE (log 51): an instruction whose guard is 0 gives up the turn too (R55). -/
def State.giveUp (s : State) (h n : Nat) (i : Instr) : State :=
  if (s.hart h).held then s
  else
    let s1 : State := { s with harts := s.harts.map fun x =>
      if x.gaveUp && x.coreNo == (s.hart h).coreNo then { x with gaveUp := false } else x }
    let done := match i with
      | .trap _ => decide ((s.hart h).entries = n) || (s.hart h).tcause == causeSOFTWARE
      | _ => decide ((s.hart h).entries = n)
    if (fieldsOfInstr i).hintY && done then s1.modHart h fun x => { x with gaveUp := true } else s1

/-- The result of the instruction at the PC, and the cycles of its issue (R62, R70; log 10). -/
def State.runInstr (s : State) (h : Nat) : Out × Nat :=
  let pc := (s.hart h).pc
  match s.fetch h with
  | .trap t => (s.raise h pc fun u => u.takeTrap h t pc, 1)
  | .held k => (.next ((s.holdRead h (.queue k)).modHart h fun x => { x with held := true }), 1)
  | .stop => (.fault .mmioUnspecified, 1)
  | .ok t w => match decode w with
    | .ok i =>
      (match exec i t with
        | .next u => .next (u.giveUp h (t.hart h).entries i)
        | r => r, 1 + (fieldsOfInstr i).stall.toNat)
    | .error e =>
      let r := t.illegal e.field e.value false
      (r.2.raise h pc fun u => u.takeTrap h r.1 pc, 1)

/-- The instruction at the PC, or the interrupt or the pre-emption request that its boundary takes where the instruction
raises no trap. A vector fault of an entry that the instruction itself pushed has not reached that boundary (R293). -/
def State.runBoundary (s : State) (h : Nat) : Out :=
  let r := s.runInstr h
  let trapped (t : State) : Bool := (t.hart h).entries != (s.hart h).entries &&
    !((t.hart h).tvqpV && (t.hart h).tvqpPos == (s.hart h).vqtail)
  let n (t : State) : Nat := if trapped t || (t.hart h).held then 1 else r.2
  match s.boundary h, r.1 with
  | none, .next t => .next (t.tick (n t))
  | none, e => e
  | some b, .next t => .next (if trapped t then t.tick 1 else b.tick 1)
  | some b, _ => .next (b.tick 1)

/-- Hart h has its turn: it is the current hart, the last of its core to issue, and no hart of the core yields to it any more
(R318, R324). -/
def State.beginTurn (s : State) (h : Nat) : State :=
  let c := (s.hart h).coreNo
  let s1 := s.modCore c fun x => { x with lastIssue := h }
  { s1 with
    cur := h
    harts := s1.harts.map fun x => if x.coreNo = c then { x with yieldTo := x.yieldTo.erase h } else x }

/-- Lines of a hart's image that it waits for at their homes (R110, R359). -/
def State.linesMissing (s : State) (h : Nat) : Bool := (s.core (s.hart h).coreNo).store.any fun l => l.hart == h && l.absent

/-- An issue turn of a hart: the lines of its image that are absent come in, or it waits for them; its vector unit works down to the lead, a vector
fault is taken, and the scalar unit issues (R110, R287, R293; log 4). An ending hart issues nothing (R323). -/
def State.issueTurn (s : State) (h : Nat) : Out :=
  let x := s.hart h
  if !x.bound || x.stopped then .next (s.tick 1)
  else
    let s0 := (s.beginTurn h).bringLines h
    if s0.linesMissing h then .next (s0.tick 1)
    else match drainQ h (if x.idle then 0 else s0.lead) drainFuel s0 with
    | .stop f => .fault f
    | .ok t =>
      let s1 := t.settle h
      let y := s1.hart h
      if y.entries ≠ x.entries ∨ y.stopped ∨ y.idle then .next (s1.tick 1) else s1.runBoundary h

/-- A boundary of the hart would take something now. -/
def State.irqReady (s : State) (h : Nat) : Bool :=
  (s.hart h).boundaryOpen && ((s.pendingIrq h).isSome || (s.hart h).preempt.isSome)

/-- A hart that has a use for an issue turn. -/
def State.canIssue (s : State) (h : Nat) : Bool :=
  let x := s.hart h
  x.bound && !x.stopped && !x.idle && (!x.waiting || x.headFaulted || s.irqReady h || s.waitDone h)

/-- The rank of a hart among those of its core: supervisor first, then by the level of its task (R318). -/
def State.issueRank (s : State) (h : Nat) : Nat := (if (s.hart h).sup then 0 else 4) + (s.hartLevel h).getD 0

/-- The hart's instruction was held, and not in a wait of R318, which ends by itself: whether it can go on shows when it runs
again. -/
def Hart.stalled (x : Hart) : Bool := x.held && !x.waiting

/-- The harts of a core that the next issue is chosen from: those of the best rank, and those of no lower rank that were
held and may go on. One that yields waits for the others, and one that has given up its turn for those that are ready, a hart
whose wait is over among them (R61, R318, R324). -/
def State.issueSet (s : State) (c : Nat) : List Nat :=
  let all := (List.range s.harts.length).filter fun h => (s.hart h).coreNo == c && s.canIssue h
  let free := all.filter fun h => !((s.hart h).yieldTo.any fun k => all.contains k) && !((s.hart h).gaveUp && all.any fun k => k != h && !(s.hart k).stalled)
  let l := if free.isEmpty then all else free
  match (l.filter fun h => !(s.hart h).stalled).foldl (fun (m : Option Nat) h => some (min (m.getD (s.issueRank h)) (s.issueRank h))) none with
  | none => l
  | some best => l.filter fun h => decide (s.issueRank h ≤ best)

/-- The element of a list that follows n in ascending cyclic order. -/
def nextAfter (n : Nat) (l : List Nat) : Option Nat :=
  let least (m : List Nat) : Option Nat := m.foldl (fun (b : Option Nat) k => some (min (b.getD k) k)) none
  match least (l.filter fun k => decide (n < k)) with
  | some k => some k
  | none => least l

/-- The hart that issues next: the cores take turns, and within a core the harts of its issue set (R318; log 4). -/
def State.nextIssue (s : State) : Option Nat :=
  let cores := ((List.range s.harts.length).filter s.canIssue).map fun h => (s.hart h).coreNo
  (nextAfter (s.hart s.cur).coreNo cores).bind fun c => nextAfter (s.core c).lastIssue (s.issueSet c)

/-- The dispatcher's move: a hart is bound again before any new hart of its level or below (R318). -/
def State.bindMove (s : State) : Option State :=
  match s.claimNext with
  | some t => some t
  | none => s.nextRebind.bind s.rebind

/-- The tasks' other moves: retirement, aging and the pre-emption for a level-0 task (R311, R313, R319). -/
def State.taskMove (s : State) : Option State :=
  let ks := List.range s.tasks.length
  match ks.find? s.retirable with
  | some k => some (s.retire k)
  | none => match ks.find? s.ageDue with
    | some k => some (s.modTask k fun t => { t with aged := t.aged + 1 })
    | none => s.level0Due.map fun h => s.modHart h fun x => { x with preempt := some 1 }

/-- The curator of a hub moves (R378). -/
def State.curatorMove (s : State) (hub : Nat) : Option State :=
  let u := s.hub hub
  if u.deriv.isSome then
    let t := s.derivPublish hub
    if (t.hub hub).deriv.isNone || t.holds != s.holds then some t else none
  else if u.derivQ.isEmpty then none
  else
    let t := s.derivStart hub
    if (t.hub hub).deriv.isSome || (t.hub hub).derivQ != u.derivQ || t.holds != s.holds then some t else none

/-- The migration engine of a hub moves (R362). -/
def State.migrationMove (s : State) (hub : Nat) : Option State :=
  match (s.engine (24 + hub) 5).ops with
  | [] => none
  | op :: _ =>
    let t := match op with
      | .mig m => if m.st = .queued then s.migStart hub else s.migComplete hub
      | _ => s.migComplete hub
    if (t.engine (24 + hub) 5).ops = (s.engine (24 + hub) 5).ops ∧ t.holds = s.holds then none else some t

/-- A copy or collective engine moves, where it can do something or takes a place in a queue (R343, R346). -/
def State.engineMove (s : State) (key : Nat) : Option Out :=
  let (agent, eng) := (key / 8, key % 8)
  let r := if eng < 4 then s.copyComplete agent eng else if eng = 4 then s.collComplete agent [] else .wait none
  match r with
  | .ok t => if t.engine agent eng = s.engine agent eng ∧ t.holds = s.holds ∧ t.clocks = s.clocks then none else some (.next t)
  | .stop => some (r.out s agent eng)
  | _ => none

/-- What hubs and engines do next. -/
def State.unitMove (s : State) : Option Out :=
  match (List.range 8).findSome? s.curatorMove with
  | some t => some (.next t)
  | none => match (List.range 8).findSome? s.migrationMove with
    | some t => some (.next t)
    | none => s.engines.findSome? fun p => if p.2.ops.isEmpty then none else s.engineMove p.1

/-- The host's accesses that waited go on; and the host answers what the device asks of it, where it holds no modified data: the
halves of a flip toward the device, or those of a line that a held access waits for (R359, R360; log 4). -/
def State.hostMove (s : State) : Option State :=
  match s.hostRetry [] s.hostHeld with
  | some t => some t
  | none => match s.flips.find? fun f => !f.done && !f.left.isEmpty with
  | some f => some { s with flips := s.flips.map fun g => if g = f then { g with left := [] } else g }
  | none => ((s.holds.map Prod.fst).find? fun l => decide (l < 2 ^ 49) && s.atHost l (lineHalves l)).map fun l =>
      { s with hostGot := (s.hostGot.filter fun k => k / 2 ≠ l) ++ [2 * l, 2 * l + 1] }

/-- Accesses that waited at homes go on: rows, write-backs, images, what came from beyond the package, the device's own and the requests of
dies; and, in a resync, the view reads in quarantines (R348, R356, R357, R359, R397, R417). -/
def State.waitMove (s : State) : Option State :=
  let first (l : List (Unit → Option State)) : Option State := l.findSome? fun f => f ()
  first [fun _ => (List.range s.rows.length).findSome? s.rowMove, fun _ => s.victimMove, fun _ => s.imgMove,
    fun _ => s.arrivalMove [] s.arrivals, fun _ => s.devRetry, fun _ => s.lineRetry [] s.lineReqs,
    fun _ => if s.resync then s.deliverRead else none]

/-- A resync, waiting accesses, flips, quarantines and acknowledgements. A resync whose drain is over completes, whatever became of the
harts that asked for it (R397). An acknowledgement comes by itself only while every rail serves. -/
def State.fabricMove (s : State) : Option State :=
  if s.resync && s.drained then some s.resyncDone
  else match s.sendUnsent with
  | some t => some t
  | none => match s.waitMove with
  | some t => some t
  | none => match (s.flips.filter fun f => !f.done).findSome? fun f =>
      let t := s.flipStep f.granule
      if (t.flips.filter fun g => !g.done).length < (s.flips.filter fun g => !g.done).length then some t else none with
    | some t => some t
    | none => match s.hostMove with
    | some t => some t
    | none => match s.clocks.findSome? fun p => (p.2.nextOut s.removed).map fun w =>
        s.setClock p.1 (({ p.2 with quar := p.2.quar.erase w } : Clock).deliver w) with
      | some t => some t
      | none => match s.posted with
        | p :: _ => if s.deadRails.isEmpty then some (s.dropPosted p.hart id) else none
        | [] => none

/-- Harts whose wait has grown long, and ending harts whose queue is not empty (R318, R323). -/
def State.hartMove (s : State) : Option Out :=
  match (List.range s.harts.length).find? fun h => (s.hart h).waiting && (s.hart h).bound && decide (65536 < s.waited h) with
  | some h => some (.next ((s.unbind h).countCore (s.hart h).coreNo 0x11 1))
  | none => (List.range s.harts.length).findSome? fun h =>
    let x := s.hart h
    if !x.idle || !x.bound || x.queue.isEmpty then none
    else match s.drainAll h with
      | .stop f => some (.fault f)
      | .ok t =>
        let u := t.settle h
        if (u.hart h).queue.length < x.queue.length then some (.next u) else none

/-- The started entries of a task that fails go on, or it ends (R309). -/
def State.failMove (s : State) : Option Out :=
  (List.range s.tasks.length).findSome? fun k =>
    if !((s.tasks[k]?).any fun t => !t.ended && t.st != .running && t.st.started) then none
    else match s.failStep k with
      | .stop f => some (.fault f)
      | .ok t =>
        let left (u : State) : Nat := (u.harts.map fun x => x.queue.length).sum
        if left t < left s || (t.tasks[k]?).any Task.ended || t.imgOut != s.imgOut then some (.next t) else none

/-- A move that needs no instruction, if there is one that changes something; the host's publication comes first. -/
def State.autoMove (s : State) : Option Out :=
  let pub : Option Out := if (s.hub 0).pubReq.isNone then none
    else match execHostPublication s with
      | .next t => if (t.hub 0).pubReq.isNone || t.holds != s.holds then some (.next t) else none
      | r => some r
  match pub with
  | some r => some r
  | none => match s.bindMove with
    | some t => some (.next t)
    | none => match s.taskMove with
      | some t => some (.next t)
      | none => match s.unitMove with
        | some r => some r
        | none => match s.fabricMove with
          | some t => some (.next t)
          | none => match s.failMove with
            | some r => some r
            | none => s.hartMove

/-- The move that the model takes where `sched` names none (log 4). -/
def State.defaultMove (s : State) : Out :=
  match s.autoMove with
  | some r => r
  | none => match s.nextIssue with
    | some h => s.issueTurn h
    | none => .next (s.tick 1)

/-- A move that `sched` names: an event of the opcode table, or an issue turn. An instruction is no event. -/
def State.turn (s : State) (t : Turn) : Out :=
  match t with
  | .event e => if e.parts.isSome then .next s else exec e s
  | .issue h => s.issueTurn h

end Sys2Proof.Machine
end

