-- ==== Sys2Proof/Machine/Step.lean ====
section
/-! DEFINITION. Sys2Proof/Machine/Step.lean: one step of the package, and the placing of an instruction where the next step fetches
it (log 3, log 4). -/

namespace Sys2Proof.Machine

/-- One step: the next move of `sched`, or the move the model takes by itself. -/
def step (s : State) : Host.Outcome State Fault Refusal :=
  match s.sched with
  | t :: r => ({ s with sched := r } : State).turn t
  | [] => s.defaultMove

/-- Where a hart fetches a byte of a VA from, where it may: its address in local HBM. -/
def State.fetchPa (s : State) (h va : Nat) : Option Nat :=
  match s.translate (s.hart h).asn (s.hart h).sup .fetch va with
  | .ok _ pa pte => if pteX pte ∧ spaceOf pa = 0 then some pa else none
  | _ => none

/-- Where withFetchWord puts page tables (log 3). -/
def tableBase : Nat := 0x80000

/-- One page of supervisor code mapped for the ASN of a hart, in the tables at `tableBase`: what a supervisor does before
its code is fetched (R219, R221, R350, R351; log 3). Two neighbouring pages use different tables and frames where their
indices differ. -/
def State.mapCode (s : State) (h va : Nat) : State :=
  let x := s.hart h
  let hub := hubOf va
  let table (n k : Nat) : Nat := tableBase + 4096 * (n + va / 2 ^ k % 2)
  let frame := tableBase + 0x10000 * (1 + va / 4096 % 2) + 4096 * hub
  let entry (s : State) (t k v : Nat) : State := s.pokeNat (t + 8 * bitsOf va k 9) 8 v
  let u := s.hub hub
  let s1 := s.setHub hub { u with
    tlb := u.tlb.filter fun e => decide (e.vbase ≠ va / 2 ^ e.sizeBits * 2 ^ e.sizeBits), asnSnaps := tdel u.asnSnaps x.asn.toNat }
  let s2 := s1.pokeNat (asnEntryPa u x.asn) 32 (tableBase + 1)
  let s3 := entry s2 tableBase 39 (table 1 39 + 0x701)
  let s4 := entry s3 (table 1 39) 30 (table 3 30 + 0x701)
  let s5 := entry s4 (table 3 30) 21 (table 5 21 + 0x701)
  entry s5 (table 5 21) 12 (frame + 5)

/-- A byte stored where a hart fetches a VA from; its line is neither poisoned, nor waited for, nor cached. -/
def State.placeCode (s : State) (h va : Nat) (b : Byte) : State :=
  let s1 := if (s.fetchPa h va).isSome then s else s.mapCode h va
  match s1.fetchPa h va with
  | none => s1
  | some pa =>
    let s2 := (s1.poke pa [b]).setPoison (lineOf pa) false
    let s3 : State := { s2 with dir := tdel s2.dir (lineOf pa) }
    s3.modCore (s.hart h).coreNo fun c => { c with icache := c.icache.filter fun l => decide (l.line ≠ va / 128) }

/-- The bytes of an instruction stored from a VA on. -/
def placeAll (h : Nat) : Nat → List Byte → State → State
  | _, [], s => s
  | va, b :: r, s => placeAll h (va + 1) r (s.placeCode h va b)

/-- The state whose next step fetches and runs the instruction with the bits w on the current hart (log 3): its 12 bytes
stand at the PC, and it is the hart's issue turn. -/
def State.withFetchWord (s : State) (nbits w : Nat) : State :=
  let t := placeAll s.cur (s.hart s.cur).pc.toNat (leBytes 12 (w % 2 ^ nbits)) s
  { t with sched := [.issue t.cur] }

end Sys2Proof.Machine
end

