-- ==== Sys2Proof/Safety.lean ====
section
/-! DEFINITION. Sys2Proof/Safety.lean: what counts as a safe run of the package, and the words that claims about one
instruction are stated in. -/

namespace Sys2Proof

/-- The invariant of the model's memory: its list of cells is in canonical form. -/
def Machine.State.Inv (s : Machine.State) : Prop := Machine.Memory.wf s.mem = true

/-- The package is not in the uncontained state of R21. -/
def Machine.State.Alive (s : Machine.State) : Prop := ∀ h < 8, (s.hub h).fatal = false

/-- s reaches t in n steps. -/
inductive Reaches : Nat → Machine.State → Machine.State → Prop where
  | zero (s : Machine.State) : Reaches 0 s s
  | more (n : Nat) (s t u : Machine.State) : Machine.step s = .next t → Reaches n t u → Reaches (n + 1) s u

/-- No state within n steps stops the model, and each keeps memory canonical and the package alive. -/
def SafeFor (n : Nat) (s : Machine.State) : Prop :=
  ∀ k ≤ n, ∀ t, Reaches k s t → t.Inv ∧ t.Alive ∧ ∃ u, Machine.step t = .next u

namespace Machine

/-- The current hart. -/
abbrev State.me (s : State) : Hart := s.hart s.cur

/-- The current hart is at rest: it is one of the package's harts, its queue is empty, no result is outstanding, no line
of its registers is poisoned, no vector fault is held, and it is not between VQREPLAY and ERET. -/
structure State.AtRest (s : State) : Prop where
  here : s.cur < s.harts.length
  empty : s.me.queue = []
  level : s.me.vqtail = s.me.vcp
  settled : s.me.pend = []
  clean : s.me.rsPoison = []
  free : s.me.heldTrap = none
  live : s.me.replaying = false

/-- The guard of the instruction lets it run (R55), and the hart has the privilege it asks for (R63). -/
structure State.CanRun (s : State) (i : Instr) (o : Fields) : Prop extends s.AtRest where
  runs : s.me.pred o.gp.toNat ≠ o.gn
  allowed : needsSupervisor i o = true → s.me.sup = true

/-- A hart whose instruction has issued: the PC stands at the next instruction and the hart is held by nothing. -/
def Hart.advanced (x : Hart) : Hart := { x with pc := nextPc x.pc, held := false, heldPush := false, waiting := false }

/-- The state in which the effect of an instruction of the current hart takes place. -/
def State.begun (s : State) : State := s.setHart s.cur s.me.advanced

/-- Nothing but the current hart, event counts and the model's push order differs: every other hart, all of memory, and
everything else of the package are as they were. -/
structure State.SameOutside (s t : State) : Prop where
  rest : t = { s with harts := t.harts, cores := t.cores, order := t.order }
  number : t.harts.length = s.harts.length
  others : ∀ k, k ≠ s.cur → t.hart k = s.hart k
  core : ∀ c, t.core c = { s.core c with counters := (t.core c).counters }
  bytes : ∀ a, memGet t.mem a = memGet s.mem a

/-- The instruction completes with an effect on its own hart alone: once its result has landed, the hart is `f` of the
hart it was, with the PC advanced; a result of latency at most its distance 1 + STALL has landed already (R65). -/
def Completes (i : Instr) (o : Fields) (s : State) (latency : Nat) (f : Hart → Hart) : Prop :=
  ∃ t, exec i s = .next t ∧ t.me.landAll = f s.me.advanced ∧ (latency ≤ 1 + o.stall.toNat → t.me.pend = []) ∧ s.SameOutside t

/-- The state after the effect of an instruction of the current hart, with its distance passed and counted. -/
def CompletesAs (i : Instr) (o : Fields) (s u : State) : Prop := exec i s = .next (u.issued s.cur i o)

/-- The instruction raises a trap of the scalar unit at its own address, in a state that holds nothing of its effect. -/
def TrapsWith (i : Instr) (s : State) (t : Trap) : Prop := exec i s = .next (s.begun.takeTrap s.cur t s.me.pc)

/-- The queue entry that an instruction of the current hart pushes. -/
def State.entry (s : State) (i : Instr) (o : Fields) : QEntry :=
  newEntry s.me.advanced i o (captures i o s.me.advanced) s.order

/-- The hart y that the vector unit leaves when it has performed its only entry e, with the entry completed: VCP passes
it, VSTART is 0, its flags are in FCSR, and a join has delivered its scalar (R96, R98, R99, R155). -/
def Hart.retired (y : Hart) (e : QEntry) (f : BitVec 8) (v : Option Word) : Hart :=
  let z := ({ y with queue := [], vcp := y.vcp + BitVec.ofNat 16 e.size, vstart := 0 }).orFlags f
  match v with
  | some w => z.varResult (fieldsOfInstr e.instr).d.toNat w
  | none => z

/-- The effect on its hart of a queued instruction that the vector unit performs at once: the entry is pushed, `perf` is
performed on the hart, and the entry completes. -/
def State.queued (s : State) (i : Instr) (o : Fields) (perf : QEntry → Fields → Hart → HRes) (x : Hart) : Hart :=
  let e := s.entry i o
  match perf e o { x with queue := [e], vqtail := x.vqtail + BitVec.ofNat 16 e.size } with
  | .done y f v => y.retired e f v
  | _ => x

/-- The performance is done: no vector fault, no stop at a step boundary. -/
def State.isDone (s : State) (i : Instr) (o : Fields) (perf : QEntry → Fields → Hart → HRes) : Prop :=
  let e := s.entry i o
  let x := s.me.advanced
  ∃ y f v, perf e o { x with queue := [e], vqtail := x.vqtail + BitVec.ofNat 16 e.size } = .done y f v

/-- The current hart can push the instruction's entry: its push checks pass, no other hart of its core has entries that the
vector unit could take first, nor does a run of entries of one hart count there (R287), and the vector unit works at once. -/
structure State.CanPush (s : State) (i : Instr) (o : Fields) (check : Fields → Hart → Option PushIll) : Prop
    extends s.CanRun i o where
  checked : check o s.me.advanced = none
  prompt : s.lead = 0
  alone : ∀ k, k ≠ s.cur → (s.hart k).coreNo = s.me.coreNo → (s.hart k).queue = []
  calm : (s.core s.me.coreNo).vuRun = 0

/-- A queued instruction that changes only its hart completes whenever it can be pushed. -/
def Performs (i : Instr) (o : Fields) (s : State) (check : Fields → Hart → Option PushIll)
    (perf : QEntry → Fields → Hart → HRes) : Prop :=
  s.CanPush i o check → s.isDone i o perf ∧ Completes i o s 0 (s.queued i o perf)

/-- A queued instruction that changes only its hart completes whenever it can be pushed and meets no vector fault. -/
def PerformsIfDone (i : Instr) (o : Fields) (s : State) (check : Fields → Hart → Option PushIll)
    (perf : QEntry → Fields → Hart → HRes) : Prop :=
  s.CanPush i o check → s.isDone i o perf → Completes i o s 0 (s.queued i o perf)

/-- The state in which the entry of an instruction of the current hart stands in the queue. -/
def State.pushedNow (s : State) (i : Instr) (o : Fields) : State := s.begun.pushEntry s.cur (s.entry i o)

/-- A queued instruction that may change more than its hart: wherever the vector unit or the memory pipe performs its entry
to the end, it completes, with the entry done with and its flags and scalar delivered. -/
def RetiresAs (i : Instr) (o : Fields) (s : State) (check : Fields → Hart → Option PushIll) : Prop :=
  s.CanPush i o check → ∀ u f v, performInstr none (s.entry i o) s.cur (s.pushedNow i o) = .done u f v →
    CompletesAs i o s (u.modHart s.cur fun y => y.retired (s.entry i o) f v)

/-- Every other hart and every byte of memory are as they were. -/
def State.SameMemory (s t : State) : Prop :=
  t.cur = s.cur ∧ (∀ k, k ≠ s.cur → t.hart k = s.hart k) ∧ ∀ a, memGet t.mem a = memGet s.mem a

/-- An instruction whose next state has the current hart changed by `f`, every other hart and every byte of memory as they
were; the rest of the package may differ. -/
def GivesHart (i : Instr) (s : State) (f : Hart → Hart) : Prop :=
  ∃ t, exec i s = .next t ∧ t.me = f s.me.advanced ∧ s.SameMemory t

/-- The address of byte 0 of an access to a lane memory, among the bytes that memory holds. -/
def laneAt (p : Nat × Word) : Nat := laneBase p.1 + p.2.toNat

/-- The n bytes from a on of memory t hold v, and every other byte is as in s. -/
def State.OnlyBytes (s t : State) (a n v : Nat) : Prop :=
  ∀ b, memGet t.mem b = if a ≤ b ∧ b < a + n then BitVec.ofNat 8 (v / 2 ^ (8 * (b - a))) else memGet s.mem b

end Machine

end Sys2Proof
end

