-- ==== Sys2Proof/Certificates/Slice0/Obligations.lean ====
section
/-! DEFINITION. Sys2Proof/Certificates/Slice0/Obligations.lean: the statements for the provers, each from the numbered
rules of the spec named in its docstring. A hart is at rest where `State.AtRest` says so; `Completes` says the whole effect
of an instruction and its frame; `Performs` says the same of one that the vector queue performs at once. -/

open Sys2Proof Sys2Proof.Machine

/-! The encoding, and what a step does with a word. -/

/-- R51, R62, R64: the decoder reads back every well-formed instruction from its word, with every operand at every value
the encoding admits. -/
def Obligations.DecodeEncode : Prop :=
  ∀ i : Instr, WellFormed i → ∃ x, encode i = some x ∧ decode x = .ok i

/-- R51, R62, R64: a word that decodes is the encoding of the instruction it holds, and that instruction is well formed. -/
def Obligations.EncodeDecode : Prop :=
  ∀ (x : BitVec 96) (i : Instr), decode x = .ok i → WellFormed i ∧ encode i = some x

/-- R62, checks 1 and 2, which come first: a word whose GRP is above 0xC fails check 1 (TINFO[3:0] = 0) with its GRP; one
whose OP its group does not assign fails check 2 with its OP, whatever its other fields hold. -/
def Obligations.UnassignedRefused : Prop :=
  ∀ x : BitVec 96,
    (13 ≤ grpOf x → decode x = .error ⟨0, some (BitVec.ofNat 8 (grpOf x))⟩) ∧
    (grpOf x ≤ 12 → mkInstr (grpOf x) (opOf x) (fieldsOf x) = none →
      decode x = .error ⟨1, some (BitVec.ofNat 8 (opOf x))⟩)

/-- R51, R64: words that the spec works out decode to the instructions it says they stand for. -/
def Obligations.SpecWordsDecode : Prop :=
  decode 0x069E0204000E000900000000 = .ok (.cmp { d := 1, a := 2, w := 7, f := 4, i := true }) ∧
  decode 0x215E0C040018000600000000 = .ok (.setvl { d := 6, a := 2, w := 12, f := 3 }) ∧
  decode 0x549E08100018000600000000 = .ok (.vsortk { d := 4, a := 8, w := 12, f := 3 }) ∧
  decode 0x609E08000418000000000000 = .ok (.fisect { d := 4, a := 0, b := 2, w := 12 }) ∧
  decode 0x701E0010201000200000090C = .ok (.mma { d := 0, a := 8, b := 16, w := 8, f := 16, imm := 0x90C }) ∧
  decode 0x901E08060A0E000800000021 = .ok (.amo { d := 4, a := 3, b := 5, w := 7, f := 4, imm := 0x21 })

/-- R62, R124: where a hart fetches a word that fails a check with a stated VALUE, ILLEGAL is taken at its PC with the
check number and VALUE in TINFO; the instruction has no other effect. Here no vector fault waits, which would go first
(R293), and no join's result is outstanding, which would land first (R68). -/
def Obligations.IllegalWordTraps : Prop :=
  ∀ (s t : State) (h : Nat) (x : BitVec 96) (f : Nat) (v : BitVec 8), s.fetch h = .ok t x →
    decode x = .error ⟨f, some v⟩ → (t.hart h).joinsOut = false → (t.hart h).headFaulted = false →
    (s.runInstr h).1 = .next (t.takeTrap h ⟨causeILLEGAL, BitVec.ofNat 64 (f + 256 * v.toNat), 0, 0⟩ (s.hart h).pc)

/-- A step runs the instruction that its word decodes to. In a hart's issue turn, the lines of its image that are
absent come in (`bringLines`, R110), the vector unit works down to the lead (`drainQ`) and a vector fault is taken
(`settle`); if the hart still issues, its word is fetched, and where the word decodes to i, the step is `exec i`,
after which HINT.Y gives up the turn (`giveUp`, R61) and the cycles of the issue pass (R62, R70). Nothing is taken at
the boundary here (R293). The order of the package's moves is the model's own (log 4). That the absent lines come in
together is the model's choice (log 49); so are the exact advance of CYC by an issue turn (log 10) and the turn that a
guarded-off HINT.Y gives up (log 51). -/
def Obligations.StepRunsDecoded : Prop :=
  ∀ (s s1 t : State) (h : Nat) (r : List Turn) (x : BitVec 96) (i : Instr),
    s.sched = .issue h :: r → (s.hart h).bound = true → (s.hart h).stopped = false → (s.hart h).idle = false →
    let s0 := (({ s with sched := r } : State).beginTurn h).bringLines h
    drainQ h s0.lead drainFuel s0 = .ok s1 →
    ((s1.settle h).hart h).entries = (s.hart h).entries → ((s1.settle h).hart h).stopped = false →
    ((s1.settle h).hart h).idle = false → (s1.settle h).boundary h = none →
    (s1.settle h).fetch h = .ok t x → decode x = .ok i →
    (∀ u, exec i t = .next u → step s = .next ((u.giveUp h (t.hart h).entries i).tick
      (if (u.hart h).entries ≠ (s.hart h).entries ∨ (u.hart h).held = true then 1
        else 1 + (fieldsOfInstr i).stall.toNat))) ∧
    (∀ f, exec i t = .fault f → step s = .fault f) ∧
    ∀ f, exec i t = .refused f → step s = .refused f

/-! Reset, registers, guard, privilege and traps. -/

/-- R432 steps 2 to 6 and R18: after reset Stobry's hart alone exists, bound to slot 0 of core 0 of die 0, at supervisor
privilege, with TVEC = 0 and IE = 0; CYC is 0, causal state is zero, CXL.mem is not ready, and memory and lane memory
read zero and hold no poison. That no die is fenced is the model's choice (log 12), and so is the zero of host and peer
memory (log 1). -/
def Obligations.ResetState : Prop :=
  State.reset.harts.length = 1 ∧
  (State.reset.hart 0).bound = true ∧ (State.reset.hart 0).sup = true ∧ (State.reset.hart 0).hartid = 0 ∧
  (State.reset.hart 0).tvec = 0 ∧ (State.reset.hart 0).tstatus.ie = false ∧
  State.reset.cyc = 0 ∧ (∀ n < 8, (State.reset.hub n).memrdy = false) ∧
  (∀ a, memGet State.reset.mem a = 0) ∧ State.reset.poison = [] ∧ State.reset.lanePoison = [] ∧
  State.reset.rsn = 0 ∧ ∀ a : Nat, State.reset.clock a = {}

/-- R87: s0 reads zero and p15 reads 1, writes to them are discarded, and every other scalar register s1 to s63 and
predicate p0 to p14 reads what was last written to it and is changed by no write to another; s62 receives the return
address PC + 12 of CALL (R122), whose 64 bits at the top of the PC space are the model's choice (log 51). -/
def Obligations.HardwiredRegisters : Prop :=
  ∀ (x : Hart) (v : Word) (b : Bool),
    x.reg 0 = 0 ∧ x.setReg 0 v = x ∧ x.pred 15 = true ∧ x.setPred 15 b = x ∧
    (∀ n, 1 ≤ n → n < 64 → (x.setReg n v).reg n = v) ∧ (∀ n k, k ≠ n → (x.setReg n v).reg k = x.reg k) ∧
    (∀ n, n < 15 → (x.setPred n b).pred n = b) ∧ (∀ n k, n < 16 → k < 16 → k ≠ n → (x.setPred n b).pred k = x.pred k) ∧
    ∀ s o, s.CanRun (.call o) o → ∃ t, exec (.call o) s = .next t ∧ t.me.landAll.reg 62 = s.me.pc.setWidth 64 + 12

/-- R55: an instruction whose guard is 0, and that the hart's privilege allows, does nothing: the PC goes to the next
instruction, and nothing else of the hart, of memory or of the package changes. -/
def Obligations.GuardedOff : Prop :=
  ∀ (i : Instr) (g op : Nat) (o : Fields) (s : State), i.parts = some (g, op, o) → s.AtRest →
    s.me.pred o.gp.toNat = o.gn → (needsSupervisor i o = true → s.me.sup = true) →
    Completes i o s 0 id

/-- R63: a supervisor-only instruction issued at user privilege raises PRIV with TINFO = 0, whatever its guard; MFS and
MTS do so for a register that R93 gives to the supervisor. -/
def Obligations.PrivilegeTraps : Prop :=
  ∀ (i : Instr) (g op : Nat) (o : Fields) (s : State), i.parts = some (g, op, o) → s.AtRest →
    needsSupervisor i o = true → s.me.sup = false → TrapsWith i s ⟨causePRIV, 0, 0, 0⟩

/-- R124, R68: what trap entry leaves, for a trap of the scalar unit: every outstanding write has landed (`landAll`), in
program order; beside that, the trap registers hold
the cause and its contents, TVQP is 0, PP and PIE hold the old privilege and IE, IE is 0, MFRZ is 1, the hart is at
supervisor privilege at TVEC; every general register, the vector, mask and fibre registers, the queue with its entries,
VFRZ, CSB, the other registers and all of memory stand as they were. The hart no longer waits for anything. -/
def Obligations.TrapEntryEffect : Prop :=
  ∀ (s : State) (h : Nat) (t : Trap) (pc : BitVec 48), h < s.harts.length →
    let x := (s.hart h).landAll
    let y := (s.takeTrap h t pc).hart h
    (y.tcause = t.cause ∧ y.tpc = pc &&& 0xFFFFFFFFFFFC ∧ y.tinfo = t.tinfo ∧ y.taddr = t.taddr ∧ y.taddr2 = t.taddr2 ∧
      y.tvqpPos = 0 ∧ y.tvqpV = false ∧ y.fbn = 0 ∧ y.fb = [] ∧
      y.tstatus = { x.tstatus with pp := x.sup, pie := x.tstatus.ie, ie := false, mfrz := true } ∧
      y.sup = true ∧ y.pc = x.tvec ∧ y.pend = []) ∧
    y = { x with
      tcause := y.tcause, tpc := y.tpc, tinfo := y.tinfo, taddr := y.taddr, taddr2 := y.taddr2, tvqpPos := y.tvqpPos,
      tvqpV := y.tvqpV, fbn := y.fbn, fb := y.fb, rsPoison := trapClean x.rsPoison, tstatus := y.tstatus, sup := y.sup, pc := y.pc, held := false, heldPush := false,
      waiting := false, waitFrom := none, waitQuad := none, heldReads := [], entries := x.entries + 1,
      traps := true :: x.traps } ∧
    (∀ k, k ≠ h → (s.takeTrap h t pc).hart k = s.hart k) ∧ ∀ a, memGet (s.takeTrap h t pc).mem a = memGet s.mem a

/-- R125: TRAP raises SOFTWARE with TINFO = IMM, and TPC holds the address of the next instruction. R126: ERET with VFRZ
= 0 puts the PC at TPC, restores the privilege from PP and IE from PIE, and clears MFRZ; PP, PIE, CSB and every other
register keep their values. With VFRZ = 1 it raises ILLEGAL with TINFO[3:0] = 12 and TINFO[15:8] = 4. -/
def Obligations.TrapAndReturn : Prop :=
  (∀ (s : State) (o : Fields), s.CanRun (.trap o) o →
     exec (.trap o) s = .next ((s.begun.issued s.cur (.trap o) o).takeTrap s.cur ⟨causeSOFTWARE, o.imm.setWidth 64, 0, 0⟩
       (nextPc s.me.pc))) ∧
  (∀ (s : State) (o : Fields), s.CanRun (.eret o) o →
     (s.me.tstatus.vfrz = false → Completes (.eret o) o s 0 fun x => { x with
       pc := x.tpc, sup := x.tstatus.pp, tstatus := { x.tstatus with ie := x.tstatus.pie, mfrz := false }
       traps := x.traps.tail, replaying := false, replayed := 0, preempted := false }) ∧
     (s.me.tstatus.vfrz = true → TrapsWith (.eret o) s ⟨causeILLEGAL, 12 + 4 * 256, 0, 0⟩))

/-! Scalar instructions. In each, A is the value of the source register under W and B that of the second source, a register
or IMM; `extWord` reduces a value to W and extends it to 64 bits (R112). -/

/-- R112 to R114, R66: the integer arithmetic of group 0x0 writes sd and nothing else; the quotient and the remainder
truncate, and division by zero gives R114's results; MUL and MULH have latency 3, the others 1, and DIV and REM are seen
by every later reader. -/
def Obligations.IntegerArithmetic : Prop :=
  ∀ (s : State) (o : Fields),
    let w := o.w.toNat
    let a := intVal w (s.me.reg o.a.toNat).toNat
    let b := intVal w (srcB o s.me).toNat
    let gives (i : Instr) (latency : Nat) (y : Int) : Prop :=
      s.CanRun i o → Completes i o s latency fun x => x.setReg o.d.toNat (extWord w y)
    gives (.add o) 1 (a + b) ∧ gives (.sub o) 1 (a - b) ∧ gives (.mul o) 3 (a * b) ∧
    gives (.mulh o) 3 (a * b / (2 ^ typeBits w : Nat)) ∧
    gives (.div o) 0 (if b = 0 then (if w ≤ 3 then -1 else (2 ^ typeBits w : Nat) - 1) else a.tdiv b) ∧
    gives (.rem o) 0 (if b = 0 then a else a.tmod b) ∧
    gives (.min o) 1 (if a ≤ b then a else b) ∧ gives (.max o) 1 (if a ≤ b then b else a)

/-- R112, R113, R66: the bitwise, shift, count and extension instructions of group 0x0, on the low n bits of their sources,
write sd and nothing else, with latency 1; a shift takes its count modulo n. -/
def Obligations.IntegerPatterns : Prop :=
  ∀ (s : State) (o : Fields),
    let w := o.w.toNat
    let n := typeBits w
    let a := (s.me.reg o.a.toNat).toNat % 2 ^ n
    let b := (srcB o s.me).toNat % 2 ^ n
    let k := (srcB o s.me).toNat % n
    let gives (i : Instr) (y : Int) : Prop :=
      s.CanRun i o → Completes i o s 1 fun x => x.setReg o.d.toNat (extWord w y)
    gives (.and o) (Nat.land a b : Nat) ∧ gives (.or o) (Nat.lor a b : Nat) ∧ gives (.xor o) (Nat.xor a b : Nat) ∧
    gives (.andn o) (Nat.land a (2 ^ n - 1 - b) : Nat) ∧ gives (.shl o) (a * 2 ^ k : Nat) ∧ gives (.shr o) (a / 2 ^ k : Nat) ∧
    gives (.sra o) (signedVal n a / (2 ^ k : Nat)) ∧ gives (.rotr o) (a / 2 ^ k + a % 2 ^ k * 2 ^ (n - k) : Nat) ∧
    gives (.clz o) (leadingZeros n a : Nat) ∧ gives (.ctz o) (trailingZeros n a : Nat) ∧ gives (.popc o) (countOnes n a : Nat) ∧
    gives (.brev o) (reverseBits n a : Nat) ∧ gives (.ext o) a

/-- R115, R66: BFX, BFI, MOV, LIH and SEL write sd and nothing else, with latency 1. p is IMM[5:0] and m is IMM[11:6] + 1. -/
def Obligations.FieldsAndMoves : Prop :=
  ∀ (s : State) (o : Fields),
    let a := s.me.reg o.a.toNat
    let p := o.imm.toNat % 64
    let m := o.imm.toNat / 64 % 64 + 1
    let gives (i : Instr) (v : Word) : Prop := s.CanRun i o → Completes i o s 1 fun x => x.setReg o.d.toNat v
    gives (.bfx o) (if o.w = 3 then BitVec.ofInt 64 (signedVal m (a.toNat / 2 ^ p % 2 ^ m)) else
      BitVec.ofNat 64 (a.toNat / 2 ^ p % 2 ^ m)) ∧
    gives (.bfi o) ((s.me.reg o.d.toNat &&& ~~~(BitVec.ofNat 64 ((2 ^ m - 1) * 2 ^ p))) |||
      BitVec.ofNat 64 (a.toNat % 2 ^ m * 2 ^ p)) ∧
    gives (.mov o) (if o.i then o.imm.signExtend 64 else a) ∧
    gives (.lih o) (BitVec.ofNat 64 (o.imm.toNat * 2 ^ 32 + a.toNat % 2 ^ 32)) ∧
    gives (.sel o) (if s.me.pred (o.f.toNat % 16) != o.f.getLsbD 4 then a else srcBSigned o s.me)

/-- R115, R118, R120, R121: the instructions with a predicate result write pd, or p0 to p14 for PMOV.ALL; FCMP also sets
FCSR flags. Latency is 1, and 2 for FCMP (R66). -/
def Obligations.PredicateResults : Prop :=
  ∀ (s : State) (o : Fields),
    let w := o.w.toNat
    let n := typeBits w
    let a := s.me.reg o.a.toNat
    let c := (fmtOf w).cond o.f.toNat (a.toNat % 2 ^ n) ((srcB o s.me).toNat % 2 ^ n)
    let gives (i : Instr) (latency : Nat) (f : Hart → Hart) : Prop := s.CanRun i o → Completes i o s latency f
    gives (.cmp o) 1 (fun x => x.setPred o.d.toNat (intCond o.f.toNat (intVal w a.toNat) (intVal w (srcB o s.me).toNat))) ∧
    gives (.fcmp o) 2 (fun x => (x.setPred o.d.toNat c.1).orFlags c.2) ∧
    gives (.plog o) 1 (fun x => x.setPred o.d.toNat
      (bitOf o.f.toNat (2 * (s.me.pred o.a.toNat).toNat + (s.me.pred o.b.toNat).toNat))) ∧
    gives (.pmov o) 1 (fun x => x.setPred o.d.toNat (s.me.pred o.a.toNat)) ∧
    gives (.pmovScalar o) 1 (fun x => x.setPred o.d.toNat (decide (a ≠ 0))) ∧
    gives (.pmovAll o) 1 (fun x => (List.range 15).foldl (fun y k => y.setPred k (a.getLsbD k)) x)

/-- R116, R117, R119, R31, R98: scalar floating instructions write sd with the code that the format's operation gives
under the rounding mode, and OR its flags into FCSR; nothing else changes. FCVT's source type is F[7:4]. That UF
counts a result of zero is the model's reading (log 13). -/
def Obligations.ScalarFloat : Prop :=
  ∀ (s : State) (o : Fields),
    let w := o.w.toNat
    let n := typeBits w
    let fm := fmtOf w
    let rm := if o.f.toNat % 8 = 5 then s.me.fcsr.rm.toNat else o.f.toNat % 8
    let sat := o.f.getLsbD 3
    let a := (s.me.reg o.a.toNat).toNat % 2 ^ n
    let b := (srcB o s.me).toNat % 2 ^ n
    let c := (s.me.reg o.d.toNat).toNat % 2 ^ n
    let src := o.f.toNat / 16
    let cv := convertType src w rm sat ((s.me.reg o.a.toNat).toNat % 2 ^ typeBits src)
    let gives (i : Instr) (latency : Nat) (r : FRes) : Prop :=
      s.CanRun i o → Completes i o s latency fun x => (x.setReg o.d.toNat (BitVec.ofNat 64 r.code)).orFlags r.flags
    gives (.fadd o) 4 (fm.add rm sat a b) ∧ gives (.fsub o) 4 (fm.sub rm sat a b) ∧ gives (.fmul o) 4 (fm.mul rm sat a b) ∧
    gives (.ffma o) 4 (fm.fma rm sat false a b c) ∧ gives (.fdiv o) 0 (fm.div rm sat a b) ∧ gives (.fsqrt o) 0 (fm.sqrt rm sat a) ∧
    gives (.fmin o) 2 (fm.minMax false a b) ∧ gives (.fmax o) 2 (fm.minMax true a b) ∧
    (s.CanRun (.fcvt o) o → Completes (.fcvt o) o s 3 fun x =>
      (x.setReg o.d.toNat (if w ≤ 7 then extWord w (cv.code : Nat) else BitVec.ofNat 64 cv.code)).orFlags cv.flags)

/-! Control transfers and system instructions. -/

/-- R122, R123, R66: BRA, CALL label and LOOP transfer to (PC + 4 × sext(IMM)) mod 2^48, LOOP only where sd − 1 is not
0; CALL writes s62 := PC + 12 and LOOP sd := sd − 1; NOP has no effect. That LOOP with D = s0 branches is the model's
choice (log 50), and so are, at the top of the PC space, the 64-bit link PC + 12 and the 48-bit fall-through (log 51). -/
def Obligations.RelativeTransfers : Prop :=
  ∀ (s : State) (o : Fields),
    let target := s.me.pc + BitVec.ofInt 48 (4 * o.imm.toInt)
    let v := s.me.reg o.d.toNat - 1
    let gives (i : Instr) (latency : Nat) (f : Hart → Hart) : Prop := s.CanRun i o → Completes i o s latency f
    gives (.bra o) 0 (fun x => { x with pc := target }) ∧
    gives (.call o) 1 (fun x => { x.setReg 62 (s.me.pc.setWidth 64 + 12) with pc := target }) ∧
    gives (.loop o) 1 (fun x => { x.setReg o.d.toNat v with pc := if v = 0 then s.me.pc + 12 else target }) ∧
    gives (.nop o) 0 id

/-- R122, R71: JMP, CALL [sa+off] and RET transfer to their register target, CALL writing s62 := PC + 12; a target whose
bits [1:0] are not zero raises MISALIGN at the instruction with TADDR = the target, and s62 is not written. That the link
PC + 12 has 64 bits at the top of the PC space is the model's choice (log 51). -/
def Obligations.RegisterTransfers : Prop :=
  ∀ (s : State) (o : Fields),
    let far := (s.me.reg o.a.toNat + o.imm.signExtend 64).setWidth 48
    let back : BitVec 48 := (s.me.reg o.a.toNat).setWidth 48
    let gives (i : Instr) (latency : Nat) (target : BitVec 48) (f : Hart → Hart) : Prop := s.CanRun i o →
      (target.toNat % 4 = 0 → Completes i o s latency fun x => { f x with pc := target }) ∧
      (target.toNat % 4 ≠ 0 → TrapsWith i s ⟨causeMISALIGN, 0, target.setWidth 64, 0⟩)
    gives (.jmp o) 0 far id ∧ gives (.ret o) 0 back id ∧
    gives (.callReg o) 1 far fun x => x.setReg 62 (s.me.pc.setWidth 64 + 12)

/-- R127, R128, R94: MFS completes and writes sd with the 64 bits of the special register that IMM names, and MTS completes
and writes that register from sa, of every index, in either mode that may name it, where the queue is empty; nothing else
changes. R93, R96, R98, R101, R102, R128: what MTS stores: every writable register by its index, field by field, with
reserved bits ignored, a reserved RM stored as 0, VFRZ and MFRZ kept, and TPC and TVEC without bits [1:0] and [63:48]. Every
other index leaves the hart as it is. Which hub's PKGID is read while the hubs' copies differ is the model's choice
(log 49). -/
def Obligations.SpecialRegisters : Prop :=
  (∀ (s : State) (o : Fields), s.CanRun (.mfs o) o → ∃ t, exec (.mfs o) s = .next t ∧
     t.me = s.me.advanced.setReg o.d.toNat (s.special s.cur (msrIndex o)) ∧ s.SameOutside t) ∧
  (∀ (s : State) (o : Fields), s.CanRun (.mts o) o → ∃ t, exec (.mts o) s = .next t ∧
     t.me = s.me.advanced.setSpecial (msrIndex o) (s.me.reg o.a.toNat) ∧ s.SameOutside t) ∧
  (∀ (x : Hart) (v : Word),
     x.setSpecial 0x002 v = { x with vstart := v.setWidth 12 } ∧
     x.setSpecial 0x003 v = { x with vprog := vprogOf v.toNat } ∧
     x.setSpecial 0x004 v = { x with fcsr := {
       rm := if 5 ≤ v.toNat % 8 then 0 else v.setWidth 3, flags := v.extractLsb' 8 8, en := v.extractLsb' 16 8 } } ∧
     x.setSpecial 0x021 v = { x with tpc := v.setWidth 48 &&& 0xFFFFFFFFFFFC } ∧
     x.setSpecial 0x026 v = { x with tvec := v.setWidth 48 &&& 0xFFFFFFFFFFFC } ∧
     x.setSpecial 0x027 v = { x with tstatus := { x.tstatus with
       pp := v.getLsbD 0, ie := v.getLsbD 1, pie := v.getLsbD 2, csb := v.getLsbD 3 } } ∧
     (∀ n (h : n < 4), x.setSpecial (0x028 + n) v = { x with tscr := x.tscr.set n v h }) ∧
     x.setSpecial 0x030 v = { x with asn := v.setWidth 16 } ∧
     ∀ idx, idx ∉ [0x002, 0x003, 0x004, 0x021, 0x026, 0x027, 0x028, 0x029, 0x02A, 0x02B, 0x030] → x.setSpecial idx v = x)

/-- R298: TFENCE with no enabled flag set has no effect; with one set, it raises ARITH with TPC at the next instruction
and TINFO the enabled flags that are set. R300, R301, R324, R304: with an empty queue VQSYNC has no effect; YIELD lets
the core's other ready harts issue first; YIELD.REL unbinds the hart and leaves its registers, whose lines are evictable from
now on (R110); VQREPLAY of n ≤ 64 saved
positions, where VFRZ = 1 or n = 0, puts the entries from position P on back on the queue, raises VQTAIL by n and clears FBN
and VFRZ; other n raise ILLEGAL with TINFO[3:0] = 12, TINFO[15:8] = 5. That VCP passes a saved slot without an entry is the
model's choice (log 30). -/
def Obligations.QueueControl : Prop :=
  (∀ (s : State) (o : Fields), s.CanRun (.tfence o) o →
     let e := s.me.fcsr.flags &&& s.me.fcsr.en
     (e = 0 → Completes (.tfence o) o s 0 id) ∧
     (e ≠ 0 → exec (.tfence o) s = .next ((s.begun.issued s.cur (.tfence o) o).takeTrap s.cur ⟨causeARITH, e.setWidth 64, 0, 0⟩
       (nextPc s.me.pc)))) ∧
  (∀ (s : State) (o : Fields),
     (s.CanRun (.vqsync o) o → Completes (.vqsync o) o s 0 id) ∧
     (s.CanRun (.yield o) o → Completes (.yield o) o s 0 fun x => { x with yieldTo := s.begun.othersReady s.cur }) ∧
     (s.CanRun (.yieldRel o) o → ∃ t, exec (.yieldRel o) s = .next t ∧
       t.me = { s.me.advanced with bound := false, preempted := false, lastbu := 0, leftAt := some s.cyc } ∧ s.SameMemory t) ∧
     (s.CanRun (.vqreplay o) o →
       let a := (s.me.reg o.a.toNat).toNat
       let n := a / 2 ^ 16 % 2 ^ 7
       let l := savedEntries s.me.saved (a % 2 ^ 16) n
       (n ≤ 64 → (n = 0 ∨ s.me.tstatus.vfrz = true) → ∃ t, exec (.vqreplay o) s = .next t ∧
         t.me = { s.me.advanced with
           queue := l, vcp := s.me.vcp + BitVec.ofNat 16 (n - (l.map QEntry.size).sum), vqtail := s.me.vqtail + BitVec.ofNat 16 n
           fbn := 0, fb := [], replayed := l.length,
           replaying := decide (0 < n) || s.me.tstatus.vfrz, tstatus := { s.me.tstatus with vfrz := false } } ∧
         s.SameMemory t) ∧
       (64 < n ∨ (0 < n ∧ s.me.tstatus.vfrz = false) → TrapsWith (.vqreplay o) s ⟨causeILLEGAL, 12 + 5 * 256, 0, 0⟩)))

/-! The vector queue. In the statements of this section the hart's queue is empty and the vector unit works at once, so that
one step pushes, performs and completes an entry (log 4). -/

/-- R99, R287: any instruction that pushes one entry with its push checks appends it at the tail where there is room and the
vector unit does no work yet: the entry has the scalars captured at push, the resolved registers, and the VL, VTYPE, RM and
privilege in force; VQTAIL passes its positions, the PC goes on, and no other register changes. -/
def Obligations.PushCaptures : Prop :=
  ∀ (s : State) (i : Instr) (o : Fields) (check : Fields → Hart → Option PushIll), s.CanRun i o →
    check o s.me.advanced = none → (captures i o s.me.advanced).length ≤ 4 → 64 ≤ s.lead →
    (∀ t : State, exec i t = vecIssue i o check t) →
    let e := s.entry i o
    (e.caps = captures i o s.me ∧ e.vd = resolveVec s.me o.d ∧ e.va = resolveVec s.me o.a ∧ e.vb = resolveVec s.me o.b ∧
      e.vl = s.me.vlPush ∧ e.vt = s.me.vtPush ∧ e.rm = s.me.fcsr.rm ∧ e.prv = s.me.sup ∧ e.stage = .waiting) ∧
    Completes i o s 0 fun x => { x with queue := [e], vqtail := x.vqtail + BitVec.ofNat 16 e.size }

/-- R96, R99, R130, R131: SETVL sets sd, VL and VTYPE: VL is the least of the requested length and VLMAX, for the width of W and
the LMUL code of F[1:0]; later pushes run under them, and VSTART is 0. That the pushed entry is performed, and VCP passes it,
in the same step is the model's choice (log 4). -/
def Obligations.SetvlEffect : Prop :=
  ∀ (s : State) (o : Fields), s.CanPush (.setvl o) o (fun _ _ => none) →
    let width := typeBits o.w.toNat
    let vt : Vtype := ⟨BitVec.ofNat 2 (widthCode width), o.f.extractLsb' 0 2⟩
    let n := min (if o.i then o.imm.toNat else (s.me.reg o.a.toNat).toNat)
      (2 ^ (o.f.extractLsb' 0 2).toNat * 512 / (width / 8))
    Completes (.setvl o) o s 0 fun x => { x.setReg o.d.toNat (BitVec.ofNat 64 n) with
      vl := n, vtype := vt, vlPush := n, vtPush := vt, vqtail := x.vqtail + 1, vcp := x.vcp + 1, vstart := 0 }

/-- R323, R315, R316: END completes. Where the routine is a farm with a strip left, s1, s2, STRIPBASE and STRIPLEN take the
next strip, and the hart goes on behind the END with the strip it closes done. Else the END is final: the hart is in the
ending state with its PC at the END, and once the marker completes it leaves its slot for good: the lines of its image stay
in the register store, evictable from now on, and no byte of memory changes (R110). Other harts stay. -/
def Obligations.FinalEnd : Prop :=
  ∀ (s : State) (o : Fields), s.CanPush (.endI o) o (fun _ _ => none) → s.me.ending = false →
    let given := s.me.task.bind fun k => (s.tasks[k]?).bind fun t =>
      if !t.farm || t.ended || t.st ≠ .running then none else t.handOut
    (∃ t, exec (.endI o) s = .next t ∧ t.cur = s.cur ∧ ∀ k, k ≠ s.cur → t.hart k = s.hart k) ∧
    (given = none → ∃ t, exec (.endI o) s = .next t ∧ t.me.ending = true ∧ t.me.bound = false ∧ t.me.stopped = true ∧
      t.me.pc = s.me.pc ∧ t.me.queue = [] ∧ t.me.leftAt = some s.cyc ∧ (t.core s.me.coreNo).store = (s.core s.me.coreNo).store ∧
      ∀ a, memGet t.mem a = memGet s.mem a) ∧
    ∀ b e k, given = some (b, e, k) → ∃ t, exec (.endI o) s = .next t ∧ t.me.reg 1 = BitVec.ofNat 64 b ∧
      t.me.reg 2 = BitVec.ofNat 64 (e - b) ∧ t.me.stripbase = BitVec.ofNat 64 b ∧ t.me.striplen = BitVec.ofNat 32 (e - b) ∧
      t.me.strips = (s.me.strips ++ [(b, e)]).tail ∧ t.me.ending = false ∧ t.me.bound = s.me.bound ∧ t.me.pc = nextPc s.me.pc ∧
      t.me.queue = [] ∧ ∀ a, memGet t.mem a = memGet s.mem a

/-- R88, R133: what a vector result writes: of the group at v(k), elements below vl that `f` gives take their code, and
every other element, every other vector register and every other register of the hart keep their value. -/
def Obligations.VectorElements : Prop :=
  ∀ (x : Hart) (k n vl : Nat) (f : Nat → Option Nat), n ∈ [8, 16, 32, 64] → k + (n * vl + 4095) / 4096 ≤ 64 →
    (∀ i, i < vl → (x.setElems k n vl f).velem k n i = ((f i).map (· % 2 ^ n)).getD (x.velem k n i)) ∧
    (∀ i, vl ≤ i → k + n * i / 4096 < 64 → (x.setElems k n vl f).velem k n i = x.velem k n i) ∧
    (∀ j, j < k ∨ k + (n * vl + 4095) / 4096 ≤ j → (x.setElems k n vl f).vreg j = x.vreg j) ∧
    x.setElems k n vl f = { x with v := (x.setElems k n vl f).v }

/-- R133, R134, R140, R142 to R144: vector integer instructions complete, and each active element takes the value that the
rule gives on the elements of its sources; inactive elements and all other registers keep theirs. -/
def Obligations.VectorInteger : Prop :=
  ∀ (s : State) (o : Fields),
    let w := o.w.toNat
    let n := typeBits w
    let elems (bits : Nat) (y : QEntry → Hart → Nat → Int) (e : QEntry) (o : Fields) (x : Hart) : HRes :=
      .done (x.setElems e.vd bits e.vl fun i => if activeAt e o x i then some (wrapNat bits (y e x i)) else none) 0 none
    let a (e : QEntry) (x : Hart) (i : Nat) : Int := intVal w (x.velem e.va n i)
    let b (e : QEntry) (x : Hart) (i : Nat) : Int := intVal w (srcbAt e o x w n i)
    let ap (e : QEntry) (x : Hart) (i : Nat) : Nat := x.velem e.va n i
    let bp (e : QEntry) (x : Hart) (i : Nat) : Nat := srcbAt e o x w n i
    let gives (i : Instr) (y : QEntry → Hart → Nat → Int) : Prop := Performs i o s check2 (elems n y)
    gives (.vadd o) (fun e x i => a e x i + b e x i) ∧ gives (.vsub o) (fun e x i => a e x i - b e x i) ∧
    gives (.vmul o) (fun e x i => a e x i * b e x i) ∧ gives (.vmulh o) (fun e x i => a e x i * b e x i / (2 ^ n : Nat)) ∧
    gives (.vmadd o) (fun e x i => a e x i * b e x i + intVal w (x.velem e.vd n i)) ∧
    gives (.vdiv o) (fun e x i => intDiv w (a e x i) (b e x i)) ∧ gives (.vrem o) (fun e x i => intRem (a e x i) (b e x i)) ∧
    gives (.vmin o) (fun e x i => min (a e x i) (b e x i)) ∧ gives (.vmax o) (fun e x i => max (a e x i) (b e x i)) ∧
    gives (.vabsd o) (fun e x i => |a e x i - b e x i|) ∧
    gives (.vand o) (fun e x i => (Nat.land (ap e x i) (bp e x i) : Nat)) ∧
    gives (.vor o) (fun e x i => (Nat.lor (ap e x i) (bp e x i) : Nat)) ∧
    gives (.vxor o) (fun e x i => (Nat.xor (ap e x i) (bp e x i) : Nat)) ∧
    gives (.vshl o) (fun e x i => (ap e x i * 2 ^ (bp e x i % n) : Nat)) ∧
    gives (.vshr o) (fun e x i => (ap e x i / 2 ^ (bp e x i % n) : Nat)) ∧
    gives (.vsra o) (fun e x i => signedVal n (ap e x i) / (2 ^ (bp e x i % n) : Nat)) ∧
    Performs (.vwadd o) o s checkVwide (elems (2 * n) fun e x i => a e x i + b e x i) ∧
    Performs (.vwmul o) o s checkVwide (elems (2 * n) fun e x i => a e x i * b e x i) ∧
    Performs (.vid o) o s checkVid (elems n fun _ _ i => (i : Nat)) ∧
    Performs (.viota o) o s checkViota (elems n fun _ x i =>
      (((List.range i).filter fun j => x.maskBit o.a.toNat j).length : Nat))

/-- R133, R140, R141, R143: the saturating and narrowing instructions clamp to W's range and set FCSR.SAT where an
active element is clamped; comparisons write a mask group, inactive bits 0, and write nothing where VSTART is at or
above VL (R96); VSEL picks by the mask, which does not enable. R148 to R150, R30: VFQNT completes; VFDQNT completes
where no active element meets a reserved code, and for E4M3 and E5M2 always. A scale that is a signalling NaN is log
49's choice. -/
def Obligations.VectorNarrowing : Prop :=
  (∀ (s : State) (o : Fields),
     Performs (.vsadd o) o s check2 perfVsadd ∧ Performs (.vssub o) o s check2 perfVssub ∧
     Performs (.vnshr o) o s checkVnshr perfVnshr ∧ Performs (.vcmp o) o s checkCmp perfVcmp ∧
     Performs (.vsel o) o s check2 perfVsel ∧
     (∀ (e : QEntry) (x : Hart), e.vl ≤ x.vstart.toNat → perfVcmp e o x = .done x 0 none) ∧
     (∀ (e : QEntry) (x : Hart), x.vstart.toNat < e.vl → e.vl ≤ 4096 → o.d.toNat + (e.vl + 511) / 512 ≤ 8 → ∀ i, i < e.vl → ∀ y f v,
       perfVcmp e o x = .done y f v → f = 0 ∧ v = none ∧ y.maskBit o.d.toNat i = (activeAt e o x i &&
         intCond (o.f.toNat % 16) (intVal o.w.toNat (x.velem e.va (typeBits o.w.toNat) i))
           (intVal o.w.toNat (srcbAt e o x o.w.toNat (typeBits o.w.toNat) i))))) ∧
  (∀ (s : State) (o : Fields),
     Performs (.vfqnt o) o s checkVfqnt perfVfqnt ∧
     PerformsIfDone (.vfdqnt o) o s checkVfdqnt perfVfdqnt ∧
     (o.w.toNat ≠ 14 → Performs (.vfdqnt o) o s checkVfdqnt perfVfdqnt) ∧
     ∀ (e : QEntry) (x : Hart), vfdqntStop e o x = none → ∃ y f, perfVfdqnt e o x = .done y f none)

/-- R133, R145 to R147, R31, R98: vector floating instructions complete: each active element takes the code of the
format's operation on the elements of its sources, under the rounding mode captured at push, and the flags of the
active elements are ORed into FCSR. That UF counts a result of zero is the model's reading (log 13). -/
def Obligations.VectorFloat : Prop :=
  ∀ (s : State) (o : Fields),
    let w := o.w.toNat
    let n := typeBits w
    let fm := fmtOf w
    let sat := o.f.getLsbD 3
    let elems (y : QEntry → Hart → Nat → FRes) (e : QEntry) (o : Fields) (x : Hart) : HRes :=
      .done (x.setElems e.vd n e.vl fun i => if activeAt e o x i then some (y e x i).code else none)
        (flagsOver e o x (y e x)) none
    let m (e : QEntry) : Nat := if o.f.toNat % 8 = 5 then e.rm.toNat else o.f.toNat % 8
    let a (e : QEntry) (x : Hart) (i : Nat) : Nat := x.velem e.va n i
    let b (e : QEntry) (x : Hart) (i : Nat) : Nat := srcbAt e o x w n i
    let c (e : QEntry) (x : Hart) (i : Nat) : Nat := x.velem e.vd n i
    let gives (i : Instr) (check : Fields → Hart → Option PushIll) (y : QEntry → Hart → Nat → FRes) : Prop :=
      Performs i o s check (elems y)
    gives (.vfadd o) check2 (fun e x i => fm.add (m e) sat (a e x i) (b e x i)) ∧
    gives (.vfsub o) check2 (fun e x i => fm.sub (m e) sat (a e x i) (b e x i)) ∧
    gives (.vfmul o) check2 (fun e x i => fm.mul (m e) sat (a e x i) (b e x i)) ∧
    gives (.vfma o) check2 (fun e x i => fm.fma (m e) sat false (a e x i) (b e x i) (c e x i)) ∧
    gives (.vfnma o) check2 (fun e x i => fm.fma (m e) sat true (a e x i) (b e x i) (c e x i)) ∧
    gives (.vfdiv o) check2 (fun e x i => fm.div (m e) sat (a e x i) (b e x i)) ∧
    gives (.vfsqrt o) check1 (fun e x i => fm.sqrt (m e) sat (a e x i)) ∧
    gives (.vfexp o) check1 (fun e x i => fm.exp (m e) sat (a e x i)) ∧
    gives (.vfmin o) check2 (fun e x i => fm.minMax false (a e x i) (b e x i)) ∧
    gives (.vfmax o) check2 (fun e x i => fm.minMax true (a e x i) (b e x i)) ∧
    gives (.vfclass o) check1 (fun e x i => ⟨2 ^ fm.classBit (a e x i), 0⟩) ∧
    gives (.vfamax o) check2 (fun e x i => ⟨max (fm.finMag (a e x i)) (fm.finMag (b e x i)), 0⟩) ∧
    gives (.vfcvt o) checkVfcvt (fun e x i =>
      convertType (o.f.toNat / 16) w (m e) sat (x.velem e.va (typeBits (o.f.toNat / 16)) i)) ∧
    Performs (.vfscale o) o s check2 perfVfscale ∧ Performs (.vfsgn o) o s check2 perfVfsgn ∧
    Performs (.vfcmp o) o s checkCmp perfVfcmp

/-- R151 to R175: permutations, reductions, joins, mask instructions, sorting and segments complete, each with the
result of its rule on the hart's registers; joins deliver their scalar to sd. The sum of a segment whose members are
all excluded is the model's choice (log 49), and corners of FBUILD, VSEGRED and VFREDMX are its readings (log 21). -/
def Obligations.VectorPermute : Prop :=
  ∀ (s : State) (o : Fields),
    let done (i : Instr) (check : Fields → Hart → Option PushIll) (perf : QEntry → Fields → Hart → HRes) : Prop :=
      Performs i o s check perf
    done (.vslideup o) check1 perfVslideup ∧ done (.vslidedn o) check1 perfVslidedn ∧
    done (.vslideinUp o) check1 perfVslideinUp ∧ done (.vslideinDn o) check1 perfVslideinDn ∧
    done (.vperm o) checkVperm perfVperm ∧ done (.vxch o) check1 perfVxch ∧ done (.vcompress o) check1 perfVcompress ∧
    done (.vexpand o) check1 perfVexpand ∧ done (.vbcast o) check1 perfVbcast ∧ done (.vmvsx o) checkVmvsx perfVmvsx ∧
    done (.vmvxs o) checkVmvxs perfVmvxs ∧ done (.vred o) checkRed perfVred ∧ done (.vredX o) checkVredX perfVredX ∧
    done (.vfredo o) checkRed perfVfredo ∧ done (.vfredt o) checkRed perfVfredt ∧ done (.vfredmx o) checkRed perfVfredmx ∧
    done (.mlog o) checkMlog perfMlog ∧ done (.mpopc o) checkMpopc perfMpopc ∧ done (.mfirst o) checkMpopc perfMfirst ∧
    done (.mset o) checkMset perfMset ∧ done (.vsortk o) checkVsortk perfVsortk ∧ done (.vmergek o) checkVmergek perfVmergek ∧
    done (.vsegred o) check1 perfVsegred ∧ done (.vsegnorm o) check1 perfVsegnorm ∧ done (.vsegscan o) check1 perfVsegscan ∧
    done (.vsetseg o) checkVsetseg perfVsetseg ∧ done (.vgetseg o) checkVgetseg perfVgetseg

/-- R176 to R190: fibre instructions complete with the result of their rule; those that FIBRE_ORDER or FIBRE_FULL can
stop complete where they meet neither, and FBUILD does where the coordinates of its active elements strictly ascend.
Corners that the rules leave are the model's readings (log 21). -/
def Obligations.FibreInstructions : Prop :=
  ∀ (s : State) (o : Fields),
    let done (i : Instr) (check : Fields → Hart → Option PushIll) (perf : QEntry → Fields → Hart → HRes) : Prop :=
      Performs i o s check perf
    let ifDone (i : Instr) (check : Fields → Hart → Option PushIll) (perf : QEntry → Fields → Hart → HRes) : Prop :=
      PerformsIfDone i o s check perf
    done (.fsplit o) checkFsplit perfFsplit ∧ done (.fexpand o) checkFexpand perfFexpand ∧
    done (.fgather o) checkFgather perfFgather ∧ done (.fmulFibre o) checkNone perfFmulFibre ∧
    done (.fscale o) checkNone perfFscale ∧ done (.focc o) checkNone perfFocc ∧ done (.fshift o) checkNone perfFshift ∧
    done (.fred o) checkNone perfFred ∧ done (.fclear o) checkNone perfFclear ∧ done (.fclearPair o) checkNone perfFclearPair ∧
    done (.fdot o) checkNone (perfFdot none) ∧
    ifDone (.fbuild o) checkFbuild perfFbuild ∧ ifDone (.fisect o) checkNone (perfFisect none) ∧
    ifDone (.funion o) checkNone (perfFunion none) ∧ ifDone (.fmerge o) checkNone (perfFmerge none) ∧
    ifDone (.fcompact o) checkNone (perfFcompact none) ∧ ifDone (.fsort o) checkFbuild (perfFsort none) ∧
    ∀ (e : QEntry) (x : Hart), x.vstart = 0 → e.vl ≤ 256 →
      (∀ i j, i < j → activeAt e o x i = true → activeAt e o x j = true → x.velem e.va 32 i < x.velem e.va 32 j) →
      ∃ y f v, perfFbuild e o x = .done y f v

/-! Matrix instructions and queued accesses. -/

/-- R198, R200 to R205, R211: matrix instructions complete. Those of the matrix unit's products and promotions do
where the core's budget covers their charge, RATE is not 0, and no operand is reserved (MXI8) or out of lane memory
(MMAG); the budget falls by the charge, which MSTAT gives as LASTBU. R201, R211: MMAG multiplies the tile that it
gathers from lane memory, where the rows lie in it, aligned and not poisoned, and the budget covers the charge. What
the engine's first charge compares its operands with, and when MSTAT's LATCH is set, are the model's choice (log 24,
log 49). So are a NaN state that meets an infinity or a NaN at promotion (log 50), and the zeros that MMAS multiplies
(log 23). -/
def Obligations.MatrixInstructions : Prop :=
  (∀ (s : State) (o : Fields),
     let x := s.me
     let w := o.w.toNat
     let va := resolveVec x o.a
     let vb := resolveVec x o.b
     let k := s.core x.coreNo
     let charged (i : Instr) (check : Fields → Hart → Option PushIll) (bu : Nat) (lastbu : Option Nat)
         (perf : QEntry → Fields → Hart → HRes) : Prop :=
       s.CanPush i o check → bu ≤ k.level → (lastbu.isSome → tget s.rate x.die 512 ≠ 0) → x.core < 32 →
       ∃ t, exec i s = .next t ∧
         t.me = s.queued i o perf (match lastbu with
           | some b => { x.advanced with lastbu := b }
           | none => x.advanced) ∧
         (t.core x.coreNo).level = k.level - bu ∧ s.SameMemory t
     let mma := k.charge s.cur (x.vreg va) (matTile x vb) (some vb)
     ((w = 14 → mxReserved x o ⟨matA x w va, matB x w vb⟩ = none) → charged (.mma o) checkMma mma (some mma) perfMma) ∧
     charged (.mmas o) checkMmas mma (some mma) perfMmas ∧
     charged (.mprom o) checkMprom 2 none perfMprom ∧
     (s.CanPush (.mzero o) o checkMzero → GivesHart (.mzero o) s (s.queued (.mzero o) o perfMzero)) ∧
     (s.CanPush (.mzeroC o) o checkMzeroC → GivesHart (.mzeroC o) s (s.queued (.mzeroC o) o perfMzeroC)) ∧
     (s.CanPush (.mdrain o) o checkMdrain → GivesHart (.mdrain o) s (s.queued (.mdrain o) o perfMdrain)) ∧
     (s.CanPush (.mfill o) o checkMfill → GivesHart (.mfill o) s (s.queued (.mfill o) o perfMfill)) ∧
     (s.CanPush (.mstat o) o checkNone → GivesHart (.mstat o) s (s.queued (.mstat o) o fun _ _ x =>
       .done x 0 (some (mstatWord x (match k.mat with
         | some m => decide (m.hart = s.cur) && m.latch.isSome
         | none => false)))))) ∧
  (∀ (s : State) (o : Fields),
     let x := s.me
     let w := o.w.toNat
     let e := s.entry (.mmag o) o
     let k := s.core x.coreNo
     let tile := gatherTile s s.cur e w
     let m : MatOps := ⟨matA x w e.va, fun k j => elem (matBits w) tile.toNat (64 * k + j)⟩
     let bu := k.charge s.cur (x.vreg e.va) tile none
     s.CanPush (.mmag o) o checkMmag → gatherTrap s s.cur e w = none → (w = 14 → mxReserved x o m = none) →
       bu ≤ k.level → tget s.rate x.die 512 ≠ 0 → x.core < 32 →
       ∃ t, exec (.mmag o) s = .next t ∧
         t.me = s.queued (.mmag o) o (fun e o y => mmaOn e o y m (e.cap 1).toNat) { x.advanced with lastbu := bu } ∧
         (t.core x.coreNo).level = k.level - bu ∧ s.SameMemory t)

/-- R215, R237, R240, R244: vector loads from lane memory. Each active element takes the bytes at its address, at
[sa + off] with stride or index, or on the core that its peer index names; the other elements, the registers outside the
group and all of memory stay. R90, R255: FLD from lane memory loads pairs whose coordinates ascend. -/
def Obligations.LaneMemoryLoads : Prop :=
  ∀ (s : State) (o : Fields),
    let x := s.me
    let loads (i : Instr) (check : Fields → Hart → Option PushIll) (straight : QEntry → Prop)
        (place : QEntry → Nat → Nat × Word) : Prop :=
      let e := s.entry i o
      let n := e.vt.bits / 8
      s.CanPush i o check → 0 < e.vl → e.vl ≤ e.vt.vlmax → straight e →
      (∀ k < e.vl, activeAt e o x k = true → aligned (place e k).2 n = true ∧ (place e k).2.toNat < laneSize ∧
        s.lanePoisoned (place e k).1 (place e k).2.toNat n = false) →
      ∃ t, exec i s = .next t ∧
        (∀ k < e.vl, t.me.velem e.vd e.vt.bits k =
          if activeAt e o x k then memNat s.mem (laneAt (place e k)) n else x.velem e.vd e.vt.bits k) ∧
        (∀ j, j < e.vd ∨ e.vd + e.vt.regs ≤ j → t.me.vreg j = x.vreg j) ∧
        t.me = { x.advanced with
          v := t.me.v, vqtail := x.vqtail + BitVec.ofNat 16 e.size, vcp := x.vcp + BitVec.ofNat 16 e.size, vstart := 0 } ∧
        s.SameOutside t
    let own (addr : QEntry → Nat → Word) (e : QEntry) (k : Nat) : Nat × Word := (x.coreNo, addr e k)
    (lmBit o = true →
      loads (.vld o) checkDense (fun e => aligned (baseOf e o) (e.vt.bits / 8) = true) (own fun e => unitAddr e o) ∧
      loads (.vlds o) checkDense (fun e => strideBad e o = false) (own fun e => strideAddr e o) ∧
      loads (.vldx o) checkVldx (fun _ => True) (own fun e => indexAddr e o x)) ∧
    (loads (.vldp o) checkVldp (fun _ => True) fun e k =>
      peerPlace (s.who s.cur x.sup true 0) (x.velem e.va e.vt.bits k % 2 ^ 32) (e.vt.bits / 8)) ∧
    (let e := s.entry (.fld o) o
     let n := min (e.cap 1).toNat 256
     let base := baseOf e o
     let pair (k : Nat) : Nat := laneAt (x.coreNo, base) + 8 * k
     lmBit o = true → s.CanPush (.fld o) o checkNone → o.d.toNat < 16 → x.vstart = 0 → base.toNat % 8 = 0 →
       base.toNat + 8 * n ≤ laneSize → (∀ k < n, s.lanePoisoned x.coreNo (base.toNat + 8 * k) 8 = false) →
       (∀ k, k + 1 < n → memNat s.mem (pair k) 4 < memNat s.mem (pair (k + 1)) 4) →
       ∃ t, exec (.fld o) s = .next t ∧ (t.me.fibreReg o.d.toNat).occ = n ∧
         (∀ k < n, (t.me.fibreReg o.d.toNat).coord k = memNat s.mem (pair k) 4 ∧
           (t.me.fibreReg o.d.toNat).val k = memNat s.mem (pair k + 4) 4) ∧
         (∀ j, j ≠ o.d.toNat → t.me.fibreReg j = x.fibreReg j) ∧
         t.me = { x.advanced with
           fib := t.me.fib, vqtail := x.vqtail + BitVec.ofNat 16 e.size, vcp := x.vcp + BitVec.ofNat 16 e.size, vstart := 0 } ∧
         s.SameOutside t)

/-- R215, R237, R240, R244: vector stores to lane memory. Each byte that active elements address takes its value from the
last of them in element order; every other byte of memory, and the vector registers, stay. FST stores the pairs of the
occupied entries and nothing else. The memory's list of cells is in its canonical form, as every step keeps it
(StepKeepsMemoryCanonical). -/
def Obligations.LaneMemoryStores : Prop :=
  ∀ (s : State) (o : Fields),
    let x := s.me
    let stores (i : Instr) (check : Fields → Hart → Option PushIll) (straight : QEntry → Prop)
        (place : QEntry → Nat → Nat × Word) : Prop :=
      let e := s.entry i o
      let n := e.vt.bits / 8
      let covers (k a : Nat) : Prop := laneAt (place e k) ≤ a ∧ a < laneAt (place e k) + n
      s.Inv → s.CanPush i o check → 0 < e.vl → straight e →
      (∀ k < e.vl, activeAt e o x k = true → aligned (place e k).2 n = true ∧ (place e k).2.toNat < laneSize) →
      ∃ t, exec i s = .next t ∧
        (∀ a, (∀ k < e.vl, activeAt e o x k = true → ¬ covers k a) → memGet t.mem a = memGet s.mem a) ∧
        (∀ k < e.vl, activeAt e o x k = true → ∀ a, covers k a →
          (∀ j, k < j → j < e.vl → activeAt e o x j = true → ¬ covers j a) →
          memGet t.mem a = BitVec.ofNat 8 (x.velem e.vd e.vt.bits k / 2 ^ (8 * (a - laneAt (place e k))))) ∧
        t.me = { x.advanced with
          vqtail := x.vqtail + BitVec.ofNat 16 e.size, vcp := x.vcp + BitVec.ofNat 16 e.size, vstart := 0 } ∧
        ∀ h, h ≠ s.cur → t.hart h = s.hart h
    let own (addr : QEntry → Nat → Word) (e : QEntry) (k : Nat) : Nat × Word := (x.coreNo, addr e k)
    (lmBit o = true →
      stores (.vst o) checkDense (fun e => aligned (baseOf e o) (e.vt.bits / 8) = true) (own fun e => unitAddr e o) ∧
      stores (.vsts o) checkDense (fun e => strideBad e o = false) (own fun e => strideAddr e o) ∧
      stores (.vstx o) checkVstx (fun _ => True) (own fun e => indexAddr e o x)) ∧
    (stores (.vstp o) checkVstp (fun _ => True) fun e k =>
      peerPlace (s.who s.cur x.sup true 0) (x.velem e.va e.vt.bits k % 2 ^ 32) (e.vt.bits / 8)) ∧
    (let e := s.entry (.fst o) o
     let fb := x.fibreReg o.d.toNat
     let lo := laneAt (x.coreNo, baseOf e o)
     lmBit o = true → s.Inv → s.CanPush (.fst o) o checkNone → (baseOf e o).toNat % 8 = 0 →
       (baseOf e o).toNat + 8 * fb.occ ≤ laneSize →
       ∃ t, exec (.fst o) s = .next t ∧ (∀ a, a < lo ∨ lo + 8 * fb.occ ≤ a → memGet t.mem a = memGet s.mem a) ∧
         (∀ k < fb.occ, ∀ b < 8, memGet t.mem (lo + 8 * k + b) =
           BitVec.ofNat 8 ((fb.coord k + 2 ^ 32 * fb.val k) / 2 ^ (8 * b))) ∧
         t.me = { x.advanced with
           vqtail := x.vqtail + BitVec.ofNat 16 e.size, vcp := x.vcp + BitVec.ofNat 16 e.size, vstart := 0 } ∧
         ∀ h, h ≠ s.cur → t.hart h = s.hart h)

/-- R96, R99, R155, R239 to R258, R325, R331 to R338, R348: a queued access whose entry the memory pipe performs
without a fault completes: the entry is done with, its flags are in FCSR, and a join has its scalar. R260, R331: with
VL = 0 a vector access, QRD, FLDQ or TOKSEND makes no access, raises nothing, and completes. R256, R325, R333, R334:
QBIND binds its stream to the fields of a well-formed descriptor that it can read; TASKPUB publishes a TCB of local
HBM that is free and well formed; FWALK of an empty segment leaves an empty fibre. R242, R243, R247, R253, R336, R337,
R348: VLDF, VSTF, VAMO, VLDC, VSTC, VAMOC, QRD, FLDQ and TOKSEND complete where their operands are well formed and each
active element, in ascending order, passes its translation and its access where those before it have been made
(`runElems`, `coordGroups`, `fldqLoads`); a coordinate form with one active element where its tile is found, VLDC where it
is absent too; VAMO of lane memory wherever its addresses are aligned, inside and clean. That TASKPUB translates the TCB as
a store is the model's reading (log 15). -/
def Obligations.QueuedAccesses : Prop :=
  (∀ (s : State) (o : Fields),
     let done (i : Instr) (check : Fields → Hart → Option PushIll) : Prop := RetiresAs i o s check
     done (.vld o) checkDense ∧ done (.vst o) checkDense ∧ done (.vlds o) checkDense ∧ done (.vsts o) checkDense ∧
     done (.vldx o) checkVldx ∧ done (.vstx o) checkVstx ∧ done (.vldf o) checkVldf ∧ done (.vstf o) checkVstf ∧
     done (.vldp o) checkVldp ∧ done (.vstp o) checkVstp ∧ done (.vamo o) checkVamo ∧ done (.vldc o) checkVldc ∧
     done (.vstc o) checkVstc ∧ done (.vamoc o) checkVldc ∧ done (.fld o) checkNone ∧ done (.fst o) checkNone ∧
     done (.fwalk o) checkNone ∧ done (.qbind o) checkNone ∧ done (.qrd o) checkDense ∧ done (.fldq o) checkNone ∧
     done (.qrel o) checkNone ∧ done (.toksend o) checkToksend ∧ done (.taskpub o) checkNone) ∧
  (∀ (s : State) (o : Fields),
     let empty (i : Instr) (check : Fields → Hart → Option PushIll) : Prop :=
       s.CanPush i o check → s.me.vlPush = 0 → Completes i o s 0 (s.queued i o fun _ _ x => .done x 0 none)
     empty (.vld o) checkDense ∧ empty (.vst o) checkDense ∧ empty (.vlds o) checkDense ∧ empty (.vsts o) checkDense ∧
     empty (.vldx o) checkVldx ∧ empty (.vstx o) checkVstx ∧ empty (.vldf o) checkVldf ∧ empty (.vstf o) checkVstf ∧
     empty (.vldp o) checkVldp ∧ empty (.vstp o) checkVstp ∧ empty (.vamo o) checkVamo ∧ empty (.vldc o) checkVldc ∧
     empty (.vstc o) checkVstc ∧ empty (.vamoc o) checkVldc ∧ empty (.qrd o) checkDense ∧ empty (.fldq o) checkNone ∧
     empty (.toksend o) checkToksend) ∧
  (∀ (s : State) (o : Fields),
     let x := s.me
     let h := s.cur
     (let e := s.entry (.qbind o) o
      let u := s.pushedNow (.qbind o) o
      let n := o.d.toNat
      let a := baseOf e o
      s.CanPush (.qbind o) o checkNone → n < 8 → (x.stream n).capt = false → ∀ s1 d f,
        u.readBlock { u.who h x.sup false a with cls := o.hintC.toNat } a = .ok s1 d f → streamIll x n d a = false →
        ∃ t, exec (.qbind o) s = .next t ∧
          (let q := streamDescOf d
           let b := t.me.stream n
           b.kind.toNat = q.kind ∧ b.w.toNat = q.w ∧ b.capt = false ∧ b.cls = o.hintC ∧ b.base.toNat = q.base ∧
             b.stride.toNat = q.stride ∧ b.count.toNat = q.count ∧ b.pos.toNat = q.start ∧ b.sub = 0 ∧
             (q.kind = 4 → b.vbase.toNat = q.vbase) ∧ (q.kind = 3 → b.link.toNat = q.link ∧ (t.me.stream q.link).capt = true))) ∧
     (let e := s.entry (.taskpub o) o
      let u := s.pushedNow (.taskpub o) o
      let a := e.cap 0
      let w := u.who h x.sup false a
      s.CanPush (.taskpub o) o checkNone → a.toNat % 128 = 0 → a.toNat < 2 ^ 48 → ∀ s1 pa pte,
        u.accessPage w .store a.toNat = .ok s1 pa pte → spaceOf pa = 0 → s1.canWriteMaster pa 128 = true → ∀ s2,
        s1.accessLines w .store pte a.toNat pa 128 .home = .ok s2 → s2.poisoned pa 128 = false →
        s2.tcbState pa = 0 → s2.tcbIll pa = false → ∃ s3 tid, s2.publish x.asn a pa x.sup = .ok s3 tid ∧
          CompletesAs (.taskpub o) o s (s3.modHart h fun y => y.retired e 0 none)) ∧
     (let e := s.entry (.fwalk o) o
      let u := s.pushedNow (.fwalk o) o
      let y := u.hart h
      let d := o.d.toNat
      let u0 := u.setHart h { y.setFibre d { y.fibreReg d with occ := 0 } with vprog := {} }
      s.CanPush (.fwalk o) o checkNone → x.vprog.v = false → ∀ s1 lo f s2 hi g,
        walkLoad u0 h o x.sup (e.cap 0) (e.cap 3).toNat 4 = .ok s1 lo f →
        walkLoad s1 h o x.sup (e.cap 0) ((e.cap 3).toNat + 1) 4 = .ok s2 hi g → hi ≤ lo →
        CompletesAs (.fwalk o) o s ((s2.modHart h fun z => { z with vprog := {} }).modHart h fun z => z.retired e 0 none))) ∧
  (∀ (s : State) (o : Fields),
     let h := s.cur
     let ends (i : Instr) (t : State) (f : BitVec 8) (put : Hart → Hart) : Prop :=
       CompletesAs i o s ((t.modHart h put).modHart h fun y => y.retired (s.entry i o) f none)
     let fresh : Prop := (o.imm.getLsbD 5 && decide (5 ≤ fN o % 8)) = true → s.me.outcnt = 0
     let coord (i : Instr) (check : Fields → Hart → Option PushIll) (write : Bool) (ready : Prop)
         (el : QEntry → Hart → Volume → Who → Option Word → State → Nat → Eff) : Prop :=
       let e := s.entry i o
       let u := s.pushedNow i o
       let x := u.hart h
       let w := coordWho e o h u
       let due := dueElems e o x
       let g := groupSize e.vt
       let put (vals : Table Nat) (y : Hart) : Hart := y.setElems e.vd (coordBits o) e.vl fun k => tfind vals k
       s.CanPush i o check → ready → (due = [] → ends i u 0 id) ∧
         (due ≠ [] → aligned w.base 128 = true → w.base.toNat < 2 ^ 48 → ∀ s1 d f1, u.readBlock w w.base = .ok s1 d f1 →
           let v := volumeOf d
           let find := coordFind e o x w d write
           (∀ b, coordGroups find (el e x v w) (groupsOf g due) {} { s := s1 } = .ok b → b.first = none →
             ends i (coordStored o w find write (b.performed g due) b.s) b.f fun y => if b.vals.isEmpty then y else put b.vals y) ∧
           ∀ k, due = [k] → coordBad o w d = false → (∀ n < v.dims, coordOf e x k n < v.extent n) → (write = true → v.wr = true) →
             (∀ s2 tile, lookTile w v (v.tile (coordOf e x k)) s1 = .present s2 tile →
               ∀ t r f, el e x v w (some (tile + BitVec.ofNat 64 (v.off (coordOf e x k)))) s2 k = .ok t r f →
                 ends i (coordStored o w find write [k] t) f (put [(k, r)])) ∧
             ∀ s2 lev p, write = false → lookTile w v (v.tile (coordOf e x k)) s1 = .absent s2 lev p →
               ∀ t r f, el e x v w none s2 k = .ok t r f → ends i t f (put [(k, r)]))
     coord (.vldc o) checkVldc false True (fun _ _ => vldcEl o) ∧ coord (.vstc o) checkVstc true True (fun e x => vstcEl e o x) ∧
     coord (.vamoc o) checkVldc true fresh (fun e x => vamocEl e o x) ∧
     (let e := s.entry (.vamo o) o
      let u := s.pushedNow (.vamo o) o
      let x := u.hart h
      let w := vamoWho e o h u
      let n := e.vt.bits / 8
      let peer := o.f.getLsbD 5
      let place (k : Nat) : Nat × Word := if peer then peerPlace w (x.velem e.vb e.vt.bits k % 2 ^ 32) n else (x.coreNo, vamoAddr e x k)
      s.CanPush (.vamo o) o checkVamo → fresh →
        (∀ k < e.vl, activeAt e o x k = true → peer = true ∨ aligned (vamoAddr e x k) n = true) →
        (∀ t vals f, runElems (vamoEl e o x w) (dueElems e o x) u [] 0 = .ok t vals f →
          ends (.vamo o) t f fun y => if o.f.getLsbD 4 then y else putGroup e e.vd e.vt.bits y vals) ∧
        (s.Inv → 0 < e.vl → peer = true ∨ lmBit o = true →
          (∀ k < e.vl, activeAt e o x k = true → (place k).2.toNat < laneSize ∧ s.lanePoisoned (place k).1 (place k).2.toNat n = false) →
          ∃ t, exec (.vamo o) s = .next t ∧ (∀ k, k ≠ h → t.hart k = s.hart k) ∧
            ∀ a, (∀ k < e.vl, activeAt e o x k = true → a < laneAt (place k) ∨ laneAt (place k) + n ≤ a) →
              memGet t.mem a = memGet s.mem a)) ∧
     (let e := s.entry (.vldf o) o
      let u := s.pushedNow (.vldf o) o
      let wc := o.w.toNat
      let b := blockSize wc
      let due := dueElems e o (u.hart h)
      let p := snapRecords { entryWho u h e o with pick := u.drawPick.1 } false (blockStarts (baseOf e o) b due) u.drawPick.2
      s.CanPush (.vldf o) o checkVldf → 0 < e.vl → blockMisaligned p.1 p.2 false wc due = false → ∀ t vals f,
        runElems (vldfCode p.2 wc b) due p.1 [] 0 = .ok t vals f →
        let scales := ((due.map (· / b)).dedup).filterMap fun j =>
          (vldfScale p.2 wc t (p.2.base + BitVec.ofNat 64 (j * b))).map fun v => (j, v)
        (wc = 14 → vldfStop b due vals scales = none) → ends (.vldf o) t f fun y => putBlocks e b (scaleBits wc) y vals scales) ∧
     (let e := s.entry (.vstf o) o
      let u := s.pushedNow (.vstf o) o
      let x := u.hart h
      let b := blockSize o.w.toNat
      let due := dueElems e o x
      let p := snapRecords { entryWho u h e o with pick := u.drawPick.1 } true (blockStarts (baseOf e o) b due) u.drawPick.2
      s.CanPush (.vstf o) o checkVstf → 0 < e.vl → blockMisaligned p.1 p.2 true o.w.toNat due = false → ∀ t vals f,
        runElems (vstfCode e o x p.2) due p.1 [] 0 = .ok t vals f → ∀ t2 v2 f2,
        vstfScales e o x p.2 ((due.map (· / b)).dedup) t = .ok t2 v2 f2 →
        ends (.vstf o) (t2.storesDone p.2 1 (due.map fun k => p.2.base + BitVec.ofNat 64 k)) f id) ∧
     (let e := s.entry (.qrd o) o
      let u := s.pushedNow (.qrd o) o
      let n := o.a.toNat
      let q := (u.hart h).stream n
      s.CanPush (.qrd o) o checkDense → 0 < e.vl → qrdOk q o.w.toNat = true → ∀ t vals f,
        runElems (fun t k => streamElem h e.prv n t (q.pos.toNat + k)) (dueElems e o (u.hart h)) u [] 0 = .ok t vals f →
        ends (.qrd o) t f fun y =>
          let z := (putGroup e e.vd e.vt.bits y vals).setStream n (q.advance e.vl)
          if q.kind = 3 then z.setStream q.link.toNat (((u.hart h).stream q.link.toNat).advance e.vl) else z) ∧
     (let e := s.entry (.fldq o) o
      let u := s.pushedNow (.fldq o) o
      let n := o.a.toNat
      let d := o.d.toNat
      let q := (u.hart h).stream n
      s.CanPush (.fldq o) o checkNone → 0 < e.vl → q.kind = 4 →
        (q.count.toNat ≤ q.pos.toNat → ends (.fldq o) u 0 fun y => y.setFibre d { y.fibreReg d with occ := 0 }) ∧
        (q.pos.toNat < q.count.toNat → ∀ s1 lo f1 s2 hi f2, levelElem h e.prv n 0 q.pos.toNat u = .ok s1 lo f1 →
          levelElem h e.prv n 0 (q.pos.toNat + 1) s1 = .ok s2 hi f2 →
          let first := lo + q.sub.toNat
          let m := min (hi - first) 256
          ∀ s3 v f l, fldqLoads h e.prv n m first [] s2 = (.ok s3 v f, l) → m ≤ ascending l →
            ends (.fldq o) s3 f fun y => (y.setFibre d ((y.fibreReg d).fill l)).setStream n (q.readEntries first m))) ∧
     (let e := s.entry (.toksend o) o
      let u := s.pushedNow (.toksend o) o
      let x := u.hart h
      s.CanPush (.toksend o) o checkToksend → 0 < e.vl →
        (∀ k < e.vl, activeAt e o x k = true → aligned (rowSlot e x k) 16 = true ∧ aligned (rowWord e x k) 8 = true) → ∀ t vals f,
        runElems (sendRow (u.who h e.prv false 0) o.imm.toNat (rowBytes e o x) (rowSlot e x) (rowWord e x)) (dueElems e o x) u [] 0 =
          .ok t vals f → ends (.toksend o) t f id))

/-- R328, R329, R338: ARRIVE, WAKE and QREL complete. ARRIVE adds one to its barrier, which enters its next phase at its
count; WAKE sets the wake flag of the hart of its task with the named ordinal, in its image too where the line of its hart word
stands there alone (R107, R110); QREL unbinds a stream that is not linked. -/
def Obligations.ArriveWakeRelease : Prop :=
  ∀ (s : State) (o : Fields),
    let x := s.me
    let quad := decide (o.f = 2)
    let n := o.imm.toNat % 16
    (s.CanPush (.arrive o) o checkArrive → ∃ t, exec (.arrive o) s = .next t ∧
      t.barrier x quad n = (s.barrier x quad n).arrive (x.reg o.a.toNat).toNat ∧ s.SameMemory t) ∧
    (s.CanPush (.wake o) o checkNone → ∀ k, k < s.harts.length → k ≠ s.cur → x.task.isSome → (s.hart k).task = x.task →
      (s.hart k).stopped = false → (s.hart k).ordinal = (x.reg o.a.toNat).toNat % 2 ^ 32 →
      (∀ j < k, (s.hart j).task = x.task → (s.hart j).stopped = false → (s.hart j).ordinal ≠ (s.hart k).ordinal) →
      ∃ t, exec (.wake o) s = .next t ∧ t.hart k = { s.hart k with wake := true } ∧
        (∀ j, j ≠ k → j ≠ s.cur → t.hart j = s.hart j) ∧ ∀ a, memGet t.mem a =
          if s.lineState k 4 = .absent ∧ a = (s.hart k).imgbase + 0x210 then BitVec.ofNat 8 (Nat.lor (s.peek a 1) 0x10)
          else memGet s.mem a) ∧
    (s.CanPush (.qrel o) o checkNone → (x.stream o.a.toNat).capt = false →
      Completes (.qrel o) o s 0 (s.queued (.qrel o) o fun _ o x => .done (x.releaseStream o.a.toNat) 0 none))

/-! Scalar memory instructions. -/

/-- R215, R235, R237, R239, R246: LD, ST, AMO and CAS in lane memory. LD gives the bytes at its address, extended by W; ST
stores the low bytes of sd; AMO and CAS give the old value and store the new one, CAS on equality alone. A hart that has
accessed memory waits at no home any more (`heldReads`). For the stores, the memory's list of cells is in its canonical
form, as every step keeps it (StepKeepsMemoryCanonical). -/
def Obligations.ScalarLaneMemory : Prop :=
  ∀ (s : State) (o : Fields),
    let x := s.me
    let w := o.w.toNat
    let n := typeBytes w
    let a := scalarAddr o x
    let b := x.reg o.a.toNat
    let old (p : Word) : Nat := memNat s.mem (laneAt (x.coreNo, p)) n
    let inside (p : Word) : Prop := lmBit o = true ∧ aligned p n = true ∧ p.toNat < laneSize
    let clean (p : Word) : Prop := s.lanePoisoned x.coreNo p.toNat n = false
    let free : Hart := { x.advanced with heldReads := [] }
    let atomic (i : Instr) (f : Nat → Option Nat × BitVec 8) : Prop :=
      s.Inv → s.CanRun i o → inside b → clean b → x.outcnt = 0 → ∃ t, exec i s = .next t ∧
        t.me = (free.setReg o.d.toNat (extCode w (old b))).orFlags (f (old b)).2 ∧
        s.OnlyBytes t (laneAt (x.coreNo, b)) n ((f (old b)).1.getD (old b)) ∧ ∀ h, h ≠ s.cur → t.hart h = s.hart h
    (s.CanRun (.ld o) o → inside a → clean a → ∃ t, exec (.ld o) s = .next t ∧
      t.me = free.setReg o.d.toNat (extCode w (old a)) ∧ s.SameMemory t) ∧
    (s.Inv → s.CanRun (.st o) o → inside a → ∃ t, exec (.st o) s = .next t ∧ t.me = free ∧
      s.OnlyBytes t (laneAt (x.coreNo, a)) n (x.reg o.d.toNat).toNat ∧ ∀ h, h ≠ s.cur → t.hart h = s.hart h) ∧
    atomic (.amo o) (atomicStep (o.imm.toNat % 16) w (x.reg o.b.toNat).toNat) ∧
    atomic (.cas o) (casStep ((x.reg o.d.toNat).toNat % 2 ^ typeBits w) ((x.reg o.b.toNat).toNat % 2 ^ typeBits w))

/-- R239, R246, R259: a scalar access whose address is no multiple of its size raises MISALIGN with TADDR and TADDR2 its
address, TINFO[0] = LM, and TINFO[1] set for a store or an atomic. -/
def Obligations.ScalarMisaligned : Prop :=
  ∀ (s : State) (o : Fields),
    let x := s.me
    let n := typeBytes o.w.toNat
    let a := scalarAddr o x
    let b := x.reg o.a.toNat
    let info (store : Bool) : Word := (if lmBit o then 1 else 0) + if store then 2 else 0
    (s.CanRun (.ld o) o → a.toNat % n ≠ 0 → TrapsWith (.ld o) s ⟨causeMISALIGN, info false, a, a⟩) ∧
    (s.CanRun (.st o) o → a.toNat % n ≠ 0 → TrapsWith (.st o) s ⟨causeMISALIGN, info true, a, a⟩) ∧
    (s.CanRun (.amo o) o → x.outcnt = 0 → b.toNat % n ≠ 0 → TrapsWith (.amo o) s ⟨causeMISALIGN, info true, b, b⟩) ∧
    (s.CanRun (.cas o) o → x.outcnt = 0 → b.toNat % n ≠ 0 → TrapsWith (.cas o) s ⟨causeMISALIGN, info true, b, b⟩)

/-- R239, R246, R257: in global memory, LD, ST, AMO and CAS complete where their access passes its checks: the access is
`loadEl`, `storeEl` or `atomicEl` at their address. -/
def Obligations.ScalarGlobalMemory : Prop :=
  ∀ (s : State) (o : Fields),
    let x := s.me
    let w := o.w.toNat
    let n := typeBytes w
    let a := scalarAddr o x
    let b := x.reg o.a.toNat
    let who (p : Word) : Who := scalarWho o s.begun p
    let result (t : State) (v : Nat) (f : BitVec 8) : State :=
      ((t.endHolds s.cur).modHart s.cur fun y => y.varResult o.d.toNat (extCode w v)).modHart s.cur fun y => y.orFlags f
    let atomic (i : Instr) (g : Nat → Option Nat × BitVec 8) : Prop :=
      s.CanRun i o → aligned b n = true → x.outcnt = 0 → ∀ t v f,
        s.begun.atomicEl (who b) b n false g = .ok t v f → CompletesAs i o s (result t v f)
    (s.CanRun (.ld o) o → aligned a n = true → ∀ t v f,
      s.begun.loadEl (who a) false a n = .ok t v f → CompletesAs (.ld o) o s (result t v f)) ∧
    (s.CanRun (.st o) o → aligned a n = true → ∀ t v f,
      s.begun.storeEl (who a) a n (x.reg o.d.toNat).toNat = .ok t v f →
      CompletesAs (.st o) o s ((t.endHolds s.cur).modHart s.cur fun y => y.orFlags f)) ∧
    atomic (.amo o) (atomicStep (o.imm.toNat % 16) w (x.reg o.b.toNat).toNat) ∧
    atomic (.cas o) (casStep ((x.reg o.d.toNat).toNat % 2 ^ typeBits w) ((x.reg o.b.toNat).toNat % 2 ^ typeBits w))

/-- R219, R231, R239, R353: the frame of LD and ST in global memory. The access finds its PA by the tag of a line that its die
holds or by its translation (`hitOrPage`); where that sets no A or D bit in a table, LD changes no byte of memory, and ST none
but those at the PA, whatever the instruction ends in. Configuration registers (space 3) are not memory. -/
def Obligations.ScalarMemoryFrame : Prop :=
  ∀ (s t u : State) (o : Fields) (pa : Nat) (pte : Word),
    let a := scalarAddr o s.me
    let finds (acc : Access) : Prop :=
      s.begun.hitOrPage (scalarWho o s.begun a) acc a.toNat = .ok u pa pte ∧ u.mem = s.mem ∧ spaceOf pa ≠ 3
    lmBit o = false → a.toNat < 2 ^ 48 →
    (s.CanRun (.ld o) o → finds .load → exec (.ld o) s = .next t → ∀ b, memGet t.mem b = memGet s.mem b) ∧
    (s.CanRun (.st o) o → finds .store → exec (.st o) s = .next t →
      ∀ b, b < pa ∨ pa + typeBytes o.w.toNat ≤ b → memGet t.mem b = memGet s.mem b)

/-- R220, R259: the order of the checks on a leaf: alignment and reach of its frame, S, VC, W, its colour, and FMT, whose
FORMAT_REC carries the page's FREC. -/
def Obligations.PageChecks : Prop :=
  ∀ (sup : Bool) (acc : Access) (va : Nat) (pte : Word) (n : Nat),
    let frame := ptePFN pte * 4096
    let page := if acc = .store then causeSTORE_PAGE else causeLOAD_PAGE
    let c1 := frame % 2 ^ n ≠ 0 ∨ beyondSpace frame = true
    let c2 := pteS pte = true ∧ sup = false
    let c3 := acc = .store ∧ pteVC pte = true
    let c4 := acc = .store ∧ pteW pte = false
    let c5 := spaceOf frame = 0 ∧ hubOf va ≠ hubOfPa (frame + va % 2 ^ n)
    let c6 := 5 ≤ pteFMT pte
    (c1 → checkLeaf sup acc va pte n = some (page, 0)) ∧
    (¬ c1 → c2 → checkLeaf sup acc va pte n = some (causePROTECT, 2)) ∧
    (¬ c1 → ¬ c2 → c3 → checkLeaf sup acc va pte n = some (causePROTECT, 3)) ∧
    (¬ c1 → ¬ c2 → ¬ c3 → c4 → checkLeaf sup acc va pte n = some (causePROTECT, 1)) ∧
    (¬ c1 → ¬ c2 → ¬ c3 → ¬ c4 → c5 → checkLeaf sup acc va pte n = some (causePROTECT, 4)) ∧
    (¬ c1 → ¬ c2 → ¬ c3 → ¬ c4 → ¬ c5 → c6 → checkLeaf sup acc va pte n = some (causeFORMAT_REC, pteFREC pte)) ∧
    (¬ c1 → ¬ c2 → ¬ c3 → ¬ c4 → ¬ c5 → ¬ c6 → checkLeaf sup acc va pte n = none)

/-- R72, R250 to R252, R281: PREF, CBINV, FENCE and FENCE.I complete. FENCE orders nothing more here, where the queue is
empty, and at domain scope and wider completes with no posted store outstanding; FENCE.I empties the core's instruction
cache; CBINV completes where its address translates, on the issuing die's copies, or at package scope at the line's home,
where that serves it; it changes memory only in that .DISC gives the line its home value back. -/
def Obligations.CacheInstructions : Prop :=
  ∀ (s : State) (o : Fields),
    let x := s.me
    let a := scalarAddr o x
    let w := s.begun.who s.cur x.sup false a
    let cbinv (i : Instr) (op : CacheOp) (acc : Access) : Prop :=
      s.CanRun i o → a.toNat < 2 ^ 48 → ∀ s1 pa pte, s.begun.accessPage w acc a.toNat = .ok s1 pa pte →
        let ends (u : State) : Prop := CompletesAs i o s ((u.endHolds s.cur).modHart s.cur fun y => y.orFlags 0) ∧
          (op ≠ .disc → u.mem = s1.mem)
        (spaceOf pa = 3 → ends s1) ∧
        (spaceOf pa ≠ 3 → o.f.toNat % 8 ≠ 4 → ends (s1.cleanLine op (x.coreNo / 32) false (lineOf pa))) ∧
        (spaceOf pa ≠ 3 → o.f.toNat % 8 = 4 → ∀ u, s1.cleanHome op w a (lineOf pa) = .ok u → ends u)
    (s.CanRun (.fence o) o → (5 ≤ o.f.toNat → x.outcnt = 0) → Completes (.fence o) o s 0 id) ∧
    (s.CanRun (.fenceI o) o → ∃ t, exec (.fenceI o) s = .next t ∧ (t.core x.coreNo).icache = [] ∧
      t.harts = s.begun.harts ∧ t.mem = s.mem) ∧
    (s.CanRun (.pref o) o → CompletesAs (.pref o) o s (prefLine o s.begun)) ∧
    cbinv (.cbinvWb o) .wb .load ∧ cbinv (.cbinvWbi o) .wbi .load ∧ cbinv (.cbinvDisc o) .disc .store

/-! Engines, waits, tasks, views, tables and counters. -/

/-- R274, R339: an engine accepts an operation while it has a place for it and no destination line must be waited for: none
is written by an engine, held modified by the host, or on a page under migration (the last is the model's choice, log 49), and
no resync holds the takeover (R397). The
operation queues behind the others, its lines belong to the engine, the ticket holds agent, engine and sequence, and the
promise lies 2,048 cycles and the cost of the lines behind the last promise, or behind CYC where that is later. No hart and
no byte of memory changes. -/
def Obligations.EngineAcceptance : Prop :=
  ∀ (s : State) (agent eng room cost : Nat) (op : EngOp),
    let e := s.engine agent eng
    let lines := s.destLines op.writer op.dest.1 op.dest.2
    let waits : Prop := (∃ k, .wait k ∈ lines) ∨ (s.resync = true ∧ ∃ l ∈ lines, l ≠ .none)
    agent < 32 → eng < 8 →
    (e.ops.length < room → ¬ waits → ∃ t promise ticket, s.accept agent eng room cost op = some (t, promise, ticket) ∧
      (t.engine agent eng).ops = e.ops ++ [op] ∧ (t.engine agent eng).promise = promise ∧
      promise = (if e.promise.toNat < s.cyc.toNat then s.cyc else e.promise) +
        BitVec.ofNat 64 (2048 + cost * lineCount op.dest.1 op.dest.2) ∧
      ticketAgent ticket = agent ∧ ticketEng ticket = eng ∧
      ticketSeq ticket = (e.seq + BitVec.ofNat 64 (e.ops.length + 1)).toNat % 2 ^ 48 ∧
      (∀ va l, .take va l ∈ lines → t.dirOf l = .g agent eng) ∧
      (∀ l, (∀ va, .take va l ∉ lines) → t.dirOf l = s.dirOf l) ∧ t.harts = s.harts ∧ t.mem = s.mem) ∧
    (room ≤ e.ops.length ∨ waits → s.accept agent eng room cost op = none)

/-- R339, R341, R342, R345: ACOPY, ACOPY2 and COLL complete where their operands are legal and the engine accepts the
operation; promise and ticket are in s[D] and s[D+1]. A resync holds what goes to a hub (R397). -/
def Obligations.EngineInstructions : Prop :=
  ∀ (s : State) (o : Fields),
    let x := s.me
    let r k := x.reg (o.a.toNat + k)
    let dlm := o.f.getLsbD 0
    let slm := o.f.getLsbD 1
    let reach (lm : Bool) (a : Word) (n : Nat) : Prop := if lm then a.toNat < laneSize ∧ a.toNat + n ≤ laneSize else a.toNat < 2 ^ 48
    let accepted (i : Instr) (u : State) (agent eng room cost : Nat) (op : EngOp) : Prop :=
      (agent = x.die ∨ u.resync = false) →
      ∀ t p k, (u.exchange x.die agent (some x.asn)).accept agent eng room cost op = some (t, p, k) →
        CompletesAs i o s ((t.endHolds s.cur).modHart s.cur fun y => y.deliverTicket o.d.toNat p k)
    let n := (r 2).toNat
    let meet : Prop := dlm = slm ∧ 0 < n ∧ (r 0).toNat < (r 1).toNat + n ∧ (r 1).toNat < (r 0).toNat + n
    let shape := (r 3).toNat
    let rb := bitsOf shape 0 24
    let rows := bitsOf shape 24 16
    let np := bitsOf shape 40 16
    let coll (i : Instr) : Prop :=
      s.CanRun i o → (r 3).toNat % 128 = 0 → ∀ u d f,
        s.begun.readBlock (s.begun.who s.cur x.sup false (r 3)) (r 3) = .ok u d f →
        let pkg := (u.hub (x.die / 3)).pkgid.toNat
        let m := bitsOf d 16 11
        let q := o.f.getLsbD 3
        collIll d pkg = false → 1 ≤ n → n < 2 ^ 32 → (q = true → n % 128 = 0) →
        accepted i (u.modHart s.cur fun y => y.orFlags f) (24 + x.die / 3) 4 256 (16 * ceilLog2 (m + 1))
          (.coll x.asn x.sup (bitsOf d 0 16) (o.f.toNat % 8) o.w.toNat q (r 0).toNat (r 1).toNat n m
            ((findBelow m fun k => collMember d k == pkg).getD 0))
    (s.CanRun (.acopy o) o → n ≤ 2 ^ 30 → ¬ meet → reach slm (r 1) n → reach dlm (r 0) n →
      accepted (.acopy o) s.begun x.die (s.begun.copyEngine o x.die) 64 4
        (.copy x.asn x.sup x.coreNo dlm slm (r 0).toNat (r 1).toNat n)) ∧
    (s.CanRun (.acopy2 o) o → (r 1).toNat % 8 = 0 → reach false (r 1) 0 → reach dlm (r 0) (rb * rows * np) →
      1 ≤ rb → rb ≤ 2 ^ 20 → 1 ≤ rows → rows ≤ 4096 → 1 ≤ np → shape < 2 ^ 56 → rb * rows * np ≤ 2 ^ 30 →
      accepted (.acopy2 o) s.begun x.die (s.begun.copyEngine o x.die) 64 4
        (.gather x.asn x.sup x.coreNo dlm (r 0).toNat (r 1).toNat (r 2).toInt rb rows np)) ∧
    coll (.collArsum o) ∧ coll (.collArmax o) ∧ coll (.collAg o) ∧ coll (.collRssum o) ∧ coll (.collRsmax o)

/-- R328, R329, R344, R404: WAITT and WAITSEQ return once the ticket is complete, WAITB once the barrier's phase has passed
the one it names, and SLEEP on its wake flag, which it clears, or at its timeout. Before that the hart waits at the
instruction. That a complete ticket returns although its engine's die is fenced is the model's reading (log 11, DEDUCED). -/
def Obligations.Waits : Prop :=
  ∀ (s : State) (o : Fields),
    let x := s.me
    let ended (x : Hart) : Hart := { x with waitFrom := none, waitQuad := none }
    let stays (i : Instr) (quad : Option Nat) : Prop := exec i s = .next (s.setHart s.cur { x with
      held := true, heldPush := false, waiting := true, waitFrom := some (x.waitFrom.getD s.cyc), waitQuad := quad })
    let t := x.reg (o.a.toNat + 1)
    let q := x.reg o.a.toNat
    let named (t : Word) : Prop := (ticketAgent t < 24 ∧ ticketEng t < 4) ∨ (24 ≤ ticketAgent t ∧ ticketAgent t < 32 ∧ ticketEng t = 4)
    let n := ((s.waitBarrier x (decide (o.f = 2)) (o.imm.toNat % 16)).phase - q.setWidth 16).toNat
    let waited := (s.cyc - x.waitFrom.getD s.cyc).toNat
    (s.CanRun (.waitt o) o → named t → s.ticketDone t = true →
      (s.engine (ticketAgent t) (ticketEng t)).unraised t = none → Completes (.waitt o) o s 0 ended) ∧
    (s.CanRun (.waitt o) o → named t → s.ticketDone t = false → (ticketAgent t < 24 → s.inService (ticketAgent t) = true) →
      s.cyc.toNat < q.toNat → stays (.waitt o) x.waitQuad) ∧
    (s.CanRun (.waitseq o) o → selectorIll q = false → s.ticketDone q = true → Completes (.waitseq o) o s 0 ended) ∧
    (s.CanRun (.waitseq o) o → selectorIll q = false → s.ticketDone q = false → s.engineLost q = false → stays (.waitseq o) x.waitQuad) ∧
    (s.CanRun (.waitb o) o → 1 ≤ n → n ≤ 2 ^ 15 → Completes (.waitb o) o s 0 ended) ∧
    (s.CanRun (.waitb o) o → n = 0 ∨ 2 ^ 15 < n → stays (.waitb o) (some (x.waitQuad.getD x.quadNo))) ∧
    (s.CanRun (.sleep o) o → x.wake = true ∨ (1 ≤ q.toNat ∧ q.toNat ≤ waited) →
      Completes (.sleep o) o s 0 fun x => { ended x with wake := false }) ∧
    (s.CanRun (.sleep o) o → x.wake = false → q = 0 ∨ waited < q.toNat → stays (.sleep o) x.waitQuad)

/-- R309, R327: TASKCAN on a TCB of local HBM cancels a WAITING or READY task and returns 0, returns 1 for a RUNNING
one and 2 for one that has ended or was never published. That the TCB is translated as a store is the model's reading
(log 15). -/
def Obligations.TaskCancel : Prop :=
  ∀ (s : State) (o : Fields),
    let x := s.me
    let a := x.reg o.a.toNat
    let w := s.begun.who s.cur x.sup false a
    s.CanRun (.taskcan o) o → a.toNat % 128 = 0 → a.toNat < 2 ^ 48 → ∀ s1 pa pte,
      s.begun.accessPage w .store a.toNat = .ok s1 pa pte → spaceOf pa = 0 → s1.canWriteMaster pa 128 = true → ∀ s2,
      s1.accessLines w .store pte a.toNat pa 128 .home = .ok s2 → s2.poisoned pa 128 = false →
      let s3 := s2.endHolds s.cur
      let st := s3.tcbState pa
      let gives (u : State) (v : Word) : Prop :=
        CompletesAs (.taskcan o) o s (u.modHart s.cur fun y => y.varResult o.d.toNat v)
      (st = 1 ∨ st = 2 → gives (s3.endTask (BitVec.ofNat 16 (s3.tcbField pa 0x28 24 16)) a pa 5 7 .cancelled) 0) ∧
      (st = 3 → gives s3 1) ∧ (st = 0 ∨ st = 4 ∨ st = 5 ∨ st = 6 → gives s3 2)

/-- R379 to R385: VIEWREG completes where its checks pass; VIEWDEL where the catalogue holds the descriptor and no
derivation of it has started; VIEWSYNC and VIEWSYNC.TW where the tag covers the version asked for; VIEWSTAT and
VIEWSTAT.D give the block's word, or NOREG. Those that ask a view home do so outside a resync, and where no lost die
taints the hart's ASN (R396, R397). That VIEWDEL waits for a derivation, and what VIEWSTAT says of a SHARD view, are
the model's readings (log 39). -/
def Obligations.ViewInstructions : Prop :=
  ∀ (s : State) (o : Fields),
    let x := s.me
    let a := x.reg o.a.toNat
    let b := (x.reg o.b.toNat).toNat
    let w := s.begun.who s.cur x.sup false a
    let ended (u : State) : State := (u.endHolds s.cur).waitOver s.cur
    let asks (u : State) (pa : Nat) : State := (u.endHolds s.cur).travel x.die (hubOf a.toNat) (lineOf pa) x.asn
    let open_ (u : State) : Prop := lowestDie (u.taint x.asn) = none ∧ u.resync = false
    (s.CanRun (.viewreg o) o → ∀ u, viewregBody o s.begun = .ok u → CompletesAs (.viewreg o) o s u) ∧
    (s.CanRun (.viewdel o) o → ∀ p, s.regOf x.asn a = some p → s.derives p.1 = false → s.resync = false →
      CompletesAs (.viewdel o) o s ((s.begun.exchange x.die (24 + hubOf p.2.mbase) (some x.asn)).dropReg p.1 p.2)) ∧
    (a.toNat < 2 ^ 48 → ∀ u pa pte, s.begun.accessPage w .load a.toNat = .ok u pa pte → open_ u →
      (s.CanRun (.viewsync o) o → spaceOf pa = 0 → ∀ reg k, u.viewBlockOf pa = some (reg, k) → (u.block reg k).st = .fresh →
        covers (u.block reg k).tag (BitVec.ofNat 16 b) = true → (u.block reg k).p = false →
        CompletesAs (.viewsync o) o s (asks (ended u) pa)) ∧
      (s.CanRun (.viewstat o) o → CompletesAs (.viewstat o) o s
        ((asks u pa).modHart s.cur fun y => y.varResult o.d.toNat (u.statWord (u.statBlockOf pa))))) ∧
    (s.CanRun (.viewsyncTw o) o → a.toNat % 8 = 0 → ∀ u v f,
      s.begun.atomicEl w a 8 false (fun _ => (none, 0)) = .ok u v f →
      covers (BitVec.ofNat 16 v) (BitVec.ofNat 16 b) = true → bitOf v 16 = false → CompletesAs (.viewsyncTw o) o s (ended u)) ∧
    (s.CanRun (.viewstatD o) o → open_ s → GivesHart (.viewstatD o) s fun y => y.setReg o.d.toNat
      (s.statWord ((s.regOf x.asn a).bind fun p => if b < p.2.count then some (p.1, b) else none)))

/-- R350, R355, R363, R372: CLBINV, MTLBINV and FRECINV complete. CLBINV drops the tiles of the hart's ASN, of one
ROOT or all, on the cores in scope; MTLBINV leaves no translator an entry in its range; FRECINV drops the records kept
for an ASN. Neither a hart nor a byte of memory changes. Where completion is a causal broadcast, a resync holds it
(R397), and a purge waits for lines that an engine writes or the host holds modified (R356). That the broadcast ends
within the step is the model's choice (log 9, log 37). -/
def Obligations.Invalidations : Prop :=
  ∀ (s : State) (o : Fields),
    let x := s.me
    let asn : BitVec 16 := (x.reg o.b.toNat).setWidth 16
    let drops (i : Instr) (root : Option Word) : Prop := s.CanRun i o → (o.f.toNat % 8 = 4 → s.resync = false) →
      ∃ t, exec i s = .next t ∧
      t.harts = s.begun.harts ∧ t.mem = s.mem ∧
      ∀ c, (t.core c).clb = if o.f.toNat % 8 = 4 ∨ c / 32 = x.die then (s.core c).clb.filter fun e =>
        !(e.asn == x.asn && (root.isNone || root == some e.root)) else (s.core c).clb
    let clears (i : Instr) (c : InvScope) : Prop := s.CanRun i o → s.resync = false → s.purgeWaits c = false →
      ∃ t, exec i s = .next t ∧
      t.harts = s.begun.harts ∧ t.mem = s.mem ∧ ∀ n < 8, ∀ e ∈ (t.hub n).tlb,
        e ∈ (s.hub n).tlb ∧ scopeHits c e.asn e.glob e.vbase (2 ^ e.sizeBits) = false
    let forgets (i : Instr) (all : Bool) : Prop := s.CanRun i o → s.resync = false → ∃ t, exec i s = .next t ∧
      t.harts = s.begun.harts ∧ t.mem = s.mem ∧ t.frecSnaps = s.frecSnaps.filter fun f =>
        !(f.asn == (x.reg o.a.toNat).setWidth 16 && (all || decide (f.n = o.imm.toNat)))
    drops (.clbinv o) (some (clbRoot (x.reg o.a.toNat))) ∧ drops (.clbinvAll o) none ∧
    clears (.mtlbinvPage o) (.page asn (bitsOf (x.reg o.a.toNat).toNat 0 48 / 2 ^ pageBits o * 2 ^ pageBits o) (2 ^ pageBits o)
      (o.f.getLsbD 4)) ∧
    clears (.mtlbinvAsn o) (.asn asn (o.f.getLsbD 4)) ∧ clears (.mtlbinvAll o) (.all (o.f.getLsbD 4)) ∧
    forgets (.frecinv o) false ∧ forgets (.frecinvAll o) true

/-- R359 to R361: BIASSET returns the bias before it: at once where it stands as asked, and else once its flip is done,
which it starts; PMIG queues a migration at the hub of its page and returns the ticket; each raises its trap instead where
an operand breaks a check. The order of BIASSET's checks, and of PMIG's (`pmigTrap`), is the model's choice (log 36,
log 34). A resync holds what goes to a hub (R397). -/
def Obligations.BiasAndMigration : Prop :=
  ∀ (s : State) (o : Fields),
    let x := s.me
    let a := x.reg o.a.toNat
    let g := a.toNat / 4096
    let bias (i : Instr) (toHost : Bool) : Prop := s.CanRun i o →
      (a.toNat % 4096 ≠ 0 → TrapsWith i s ⟨causeMISALIGN, 0, a, 0⟩) ∧
      (a.toNat % 4096 = 0 → 2 ^ 41 ≤ a.toNat → TrapsWith i s ⟨causePROTECT, 16 * 12, a, 0⟩) ∧
      (a.toNat % 4096 = 0 → a.toNat < 2 ^ 41 → s.inWindow a.toNat = false → TrapsWith i s ⟨causePROTECT, 16 * 13, a, 0⟩) ∧
      (a.toNat % 4096 = 0 → a.toNat < 2 ^ 41 → s.inWindow a.toNat = true → (∀ f ∈ s.flips, f.granule ≠ g) →
        s.migrating a.toNat = false →
        (s.hostBias.contains g = toHost → Completes i o s 0 fun x => x.setReg o.d.toNat (if toHost then 1 else 0)) ∧
        (s.hostBias.contains g ≠ toHost → s.resync = false → ∃ t, exec i s = .next t ∧
          t.me = { x with held := true, heldPush := false, waiting := false } ∧
          t.flips = s.flips ++ [⟨g, toHost, s.cur, if toHost then [] else (List.range 64).map (64 * g + ·), false⟩] ∧
          t.hostBias = s.hostBias ∧ t.dir = s.dir ∧ s.SameMemory t)) ∧
      (a.toNat % 4096 = 0 → a.toNat < 2 ^ 41 → s.inWindow a.toNat = true → ∀ f, s.flips = [f] → f.granule = g →
        f.toHost = toHost → f.hart = s.cur → f.done = true →
        CompletesAs i o s (({ s.begun with flips := [] } : State).modHart s.cur fun y => y.varResult o.d.toNat (if toHost then 0 else 1)))
    let r k := x.reg (o.a.toNat + k)
    let asn : BitVec 16 := (r 1).setWidth 16
    let hub := hubOf (r 0).toNat
    let e := s.engine (24 + hub) 5
    bias (.biassetHost o) true ∧ bias (.biassetDev o) false ∧
    (s.CanRun (.pmig o) o → s.resync = false → ∀ t, pmigTrap s (r 0) asn (r 2) (r 3) = some t → TrapsWith (.pmig o) s t) ∧
    (s.CanRun (.pmig o) o → pmigTrap s (r 0) asn (r 2) (r 3) = none → e.ops.length < 16 → s.resync = false → ∀ pte n pa,
      s.findLeaf asn (r 0).toNat = .leaf pte n pa →
      let u := s.begun.exchange x.die (24 + hub) (some x.asn)
      CompletesAs (.pmig o) o s ((u.setEngine (24 + hub) 5 { e with
        ops := e.ops ++ [.mig {
          va := (r 0).toNat, asn := asn, bits := n, frame := ptePFN pte * 4096, ptePa := pa, newPa := (r 2).toNat
          status := (r 3).toNat, hasn := x.asn }] }).modHart s.cur fun y =>
          y.varResult o.d.toNat (BitVec.ofNat 64 ((e.seq.toNat + e.ops.length + 1) % 2 ^ 48 + 2 ^ 48 * 5 + 2 ^ 56 * (24 + hub)))))

/-- R386, R399 to R407: the instructions of group 0xC: CYC, an engine's sequence, an item of the causal state, OUTCNT, the
core's budget and a counter are read into sd; CRESYNC returns RSN with a resync done; EVSEL sets a counter's code, enable
and count. What a counter of an implementation's own events holds is a free value (log 46), whichever it is. -/
def Obligations.CounterInstructions : Prop :=
  ∀ (s : State) (o : Fields),
    let x := s.me
    let a := x.reg o.a.toNat
    let reads (i : Instr) (v : Word) : Prop := s.CanRun i o → Completes i o s 0 fun y => y.setReg o.d.toNat v
    reads (.rdcyc o) s.cyc ∧
    reads (.outcnt o) (BitVec.ofNat 64 (x.outcnt % 2 ^ 20 + 2 ^ 32 * x.lost.toNat)) ∧
    reads (.budrd o) (BitVec.ofNat 64 ((s.core x.coreNo).level + 2 ^ 16 * tget s.rate x.die 512 + 2 ^ 32 * 8192)) ∧
    (selectorIll a = false → s.engineLost a = false → reads (.rdseq o) (s.engine (ticketAgent a) (ticketEng a)).seq) ∧
    (o.imm.toNat ≠ 3 ∨ bitsOf a.toNat 8 3 < 4 → reads (.rdclk o) (s.clkWord o.imm.toNat a)) ∧
    (∀ hub u n, counterAt a = some (hub, u, n) → (hub = true → x.sup = true) → s.CanRun (.evrd o) o →
      GivesHart (.evrd o) s fun y => y.setReg o.d.toNat (s.countNow (s.counter x hub u n)).1) ∧
    (∀ hub u n, counterAt a = some (hub, u, n) → s.CanRun (.evsel o) o →
      let r := s.begun.countNow (s.counter x hub u n)
      CompletesAs (.evsel o) o s (r.2.setCounter x hub u n ({ s.counter x hub u n with count := r.1 }.select hub (x.reg o.b.toNat)))) ∧
    (s.drained = true → x.waitFrom = none → s.CanRun (.cresync o) o →
      CompletesAs (.cresync o) o s ((s.begun.resyncDone.waitOver s.cur).modHart s.cur
        fun y => y.varResult o.d.toNat ((s.rsn + 1).setWidth 64)))

/-! Events of the package: what happens by itself, or from outside. -/

/-- R65, R386, R400, R401, R433: a cycle advances CYC; a refill comes when CYC next reaches a multiple of 64, and
raises each budget by RATE to at most 65,535; the governor sets RATE, which stays 0 while a die is too hot or the flow
is lost, and is less than at reset while the die is throttled (log 46); a refused request header changes no register
and no byte; an outstanding result lands in its register. The event that lands a result before its distance is the
model's reading (log 9). -/
def Obligations.TimeEvents : Prop :=
  ∀ (s : State),
    (∃ t, exec .cycleTick s = .next t ∧ t.cyc = s.cyc + 1 ∧ t.harts = s.harts ∧ t.mem = s.mem) ∧
    (∃ t, exec .budgetRefill s = .next t ∧ t.cyc = s.cyc + BitVec.ofNat 64 (64 - s.cyc.toNat % 64) ∧
      t = { s with cyc := t.cyc, cores := t.cores } ∧
      ∀ c, (t.core c).level = min 65535 ((s.core c).level + tget s.rate (c / 32) 512) ∨ tfind s.cores c = none) ∧
    (∀ die rate, die < 24 → ∃ t, exec (.governorUpdate die rate) s = .next t ∧ t = { s with rate := t.rate } ∧
      tget t.rate die 512 = (if s.flowLost = true ∨ 105 ≤ tget s.temps die 0 then 0
        else if 95 ≤ tget s.temps die 0 then min 511 rate.toNat else rate.toNat) ∧
      ∀ d, d ≠ die → tget t.rate d 512 = tget s.rate d 512) ∧
    (∀ h, ∃ t, exec (.requestHeaderRefused h) s = .next t ∧ t = { s with cores := t.cores }) ∧
    ∀ h w, h < s.harts.length → (s.hart h).pend = [w] → w.landed = false → w.pred = false → 1 ≤ w.reg → w.reg < 64 →
      ∃ t, exec (.scalarWriteLand h) s = .next t ∧ (t.hart h).reg w.reg = w.value ∧
        (∀ n, n ≠ w.reg → (t.hart h).reg n = (s.hart h).reg n) ∧
        (t.hart h).fcsr.flags = (s.hart h).fcsr.flags ||| w.flags ∧ ∀ k, k ≠ h → t.hart k = s.hart k

/-- R96, R99, R155, R211, R287, R290, R291, R295: QUEUE_ENTRY_START starts the entry that R287 picks, and a VADD at
the head is performed; QUEUE_ENTRY_COMPLETE takes a performed entry off the queue, with VSTART 0 and its flags in
FCSR; VECTOR_FAULT parks the queue in the saved slots, from the faulting entry on, and enters the handler at the
hart's PC, with the head's position in TVQP, the number of parked positions in TINFO[46:40] and the batched pages in
FB; an entry pushed under VFRZ that faults stops the hart. JOIN_RELEASE, QUEUE_PUSH_RESUME and VIEW_READ let the queue
run and the hart go on. BUDGET_CHARGE starts a head of group 7 where R287 picks it, and an MMA completes with its
charge taken. What the first charge compares its operands with is the model's choice (log 49). -/
def Obligations.QueueEvents : Prop :=
  ∀ (s : State) (h : Nat), h < s.harts.length →
    let x := s.hart h
    let alone : Prop := x.bound = true ∧ x.stopped = false ∧ x.replaying = false ∧
      ∀ k, k ≠ h → (s.hart k).coreNo = x.coreNo → (s.hart k).queue = []
    let unmoved (t : State) : Prop := (∀ k, k ≠ h → t.hart k = s.hart k) ∧ t.mem = s.mem
    let goesOn (u : State) : Prop := exec (.joinRelease h) s = .next u ∧ exec (.queuePushResume h) s = .next u ∧
      (x.heldReads ≠ [] → exec (.viewRead h) s = .next u)
    (∀ core steps t, s.pickEntry core none [] = some h →
      (s.noteTaken core h none []).performHead h (some steps) = .ok t → exec (.queueEntryStart core steps) s = .next t) ∧
    (∀ steps o e r, x.queue = e :: r → e.instr = .vadd o → e.stage = .waiting → alone → x.rsPoison = [] →
      ∃ t y, perfVadd e o x = .done y 0 none ∧ exec (.queueEntryStart x.coreNo steps) s = .next t ∧
        t.hart h = { y with queue := { e with stage := .performed 0 none } :: r } ∧ unmoved t) ∧
    (∀ e r f, x.queue = e :: r → e.stage = .performed f none → (∀ o, e.instr ≠ .endI o) →
      ∃ t, exec (.queueEntryComplete h) s = .next t ∧ t.hart h = ({ x with
        queue := r, vcp := x.vcp + BitVec.ofNat 16 e.size, vstart := 0, fmask := if e.part && usesFmask e.instr then 0 else x.fmask } : Hart).orFlags f ∧
        unmoved t) ∧
    (∀ e r k pages, x.queue = e :: r → e.stage = .faulted k pages → e.frz = false → x.depth ≤ e.depth →
      x.pend = [] → ∃ t, exec (.vectorFault h) s = .next t ∧ unmoved t ∧
        let y := t.hart h
        y.tcause = k.cause ∧ y.tinfo = (withNq k x.occupancy).tinfo ∧ y.taddr = k.taddr ∧ y.taddr2 = k.taddr2 ∧
          y.tpc = x.pc &&& 0xFFFFFFFFFFFC ∧ y.tvqpPos = x.vcp ∧ y.tvqpV = true ∧ y.fbn = y.fb.length ∧ y.fb = s.batchPages h k pages ∧
          y.saved = saveSlots x.queue x.vcp.toNat [] ∧ y.queue = [] ∧ y.vcp = x.vqtail ∧ y.tstatus.vfrz = true ∧
          y.tstatus.mfrz = true ∧ y.tstatus.ie = false ∧ y.tstatus.pie = x.tstatus.ie ∧ y.tstatus.pp = x.sup ∧ y.sup = true ∧
          y.pc = x.tvec ∧ y.s = x.s ∧ y.v = x.v) ∧
    (∀ e r k pages, x.queue = e :: r → e.stage = .faulted k pages → e.frz = true →
      ∃ t, exec (.queueFault h) s = .next t ∧ (t.hart h).stopped = true ∧ (t.hart h).bound = false) ∧
    (x.queue = [] → goesOn (s.release h)) ∧
    (∀ e f v, x.queue = [e] → e.stage = .performed f v → (∀ o, e.instr ≠ .endI o) → 1 ≤ e.size → e.size ≤ 64 →
      x.vqtail = x.vcp + BitVec.ofNat 16 e.size → alone → goesOn ((s.completeHead h).release h)) ∧
    (∀ u, s.drainAll h = .ok u → goesOn ((u.settle h).release h)) ∧
    (∀ e r u, x.queue = e :: r → groupOf e.instr = 7 → s.pickEntry x.coreNo none [] = some h →
      (s.noteTaken x.coreNo h none []).performHead h none = .ok u → exec (.budgetCharge h) s = .next (u.completeHead h)) ∧
    ∀ o e, x.queue = [e] → e.instr = .mma o → o.w.toNat ≠ 14 → e.stage = .waiting → alone → x.rsPoison = [] →
      let bu := (s.core x.coreNo).charge h (x.vreg e.va) (matTile x e.vb) (some e.vb)
      bu ≤ (s.core x.coreNo).level → tget s.rate (x.coreNo / 32) 512 ≠ 0 →
      ∃ t y f v, perfMma e o { x with lastbu := bu } = .done y f v ∧ exec (.budgetCharge h) s = .next t ∧
        (t.core x.coreNo).level = (s.core x.coreNo).level - bu ∧ (t.hart h).lastbu = bu ∧ (t.hart h).pbuf = y.pbuf ∧
        (t.hart h).queue = [] ∧ (t.hart h).vcp = x.vcp + BitVec.ofNat 16 e.size ∧ unmoved t

/-- R110, R318, R335: a register-store fill pins its line, whose registers come from the image where it was absent,
and touches neither memory nor another hart where its store has room; a prefetch is the stream engine's; a hart that
has waited for more than 65,536 cycles leaves its slot, and is bound again once its wait is over. R329, R344, R384: a
hart that stands at WAITT, VIEWSYNC or SLEEP looks at its deadline: a WAITT whose ticket is complete returns, and one
past its promise raises PROMISE_MISSED; a VIEWSYNC whose tag covers the version asked for returns, one whose block or
word has P = 1 raises VIEW_POISON, and one past its timeout raises VIEW_STALE with the tag; a SLEEP past its timeout
returns. R291 to R293, R303, R304, R427: an interrupt that a boundary takes completes a performed head, parks the rest
of the queue, whatever it holds, and enters the handler with the source, the hub and the number of parked positions in
TINFO; a pre-emption does with its requester, behind a pending interrupt. That the first look at P comes before the
tag is the model's reading (log 40). That P stays in the register store at a pre-emption is the model's choice (log
50), and that the fills of a store that has no room evict the oldest line (log 49). -/
def Obligations.HartEvents : Prop :=
  (∀ (s : State) (h : Nat), h < s.harts.length →
     let x := s.hart h
     (∀ line, ∃ t, exec (.regstoreFill h line) s = .next t ∧ (x.bound = true → line < 608 → s.linesHeld x.coreNo < storeLines →
       s.poisoned (x.imgbase + 128 * line) 128 = false → t.lineState h line = .pinned ∧
         (s.lineState h line = .absent →
           ∃ p, t.hart h = { x.restoreLine (fun a => memGet s.mem (x.imgbase + a)) line with rsPoison := p }) ∧
         (∀ k, k ≠ h → t.hart k = s.hart k) ∧ t.mem = s.mem)) ∧
     (∀ q n, exec (.streamPrefetch h q n) s = .next (s.prefetchStream h q n)) ∧
     (x.waiting = true → x.bound = true → 65536 < s.waited h → ∃ t, exec (.waitUnbind h) s = .next t ∧
       t.hart h = { x with bound := false, preempted := false, lastbu := 0, leftAt := some s.cyc } ∧ (∀ k, k ≠ h → t.hart k = s.hart k) ∧ t.mem = s.mem) ∧
     (∀ t, x.waiting = false → s.rebind h = some t → exec (.waitRebind h) s = .next t ∧ (t.hart h).bound = true)) ∧
  (∀ (s : State) (h : Nat),
     let s1 : State := { s with cur := h }
     let x := s.hart h
     let overY (y : Hart) : Hart := { y with waitFrom := none, waitQuad := none }
     let unmoved (t : State) : Prop := (∀ k, k ≠ h → t.hart k = s.hart k) ∧ t.mem = s.mem
     (∀ o, s.instrAt h = some (.waitt o) → x.bound = true → x.waiting = true → s1.CanRun (.waitt o) o →
       let p := x.reg o.a.toNat
       let k := x.reg (o.a.toNat + 1)
       (ticketAgent k < 24 ∧ ticketEng k < 4) ∨ (24 ≤ ticketAgent k ∧ ticketAgent k < 32 ∧ ticketEng k = 4) →
       (s.ticketDone k = true → (s.engine (ticketAgent k) (ticketEng k)).unraised k = none →
         ∃ t, exec (.promiseMissed h) s = .next t ∧ t.hart h = overY x.advanced ∧ unmoved t) ∧
       (s.ticketDone k = false → (ticketAgent k < 24 → s.inService (ticketAgent k) = true) → p.toNat ≤ s.cyc.toNat →
         ∃ t, exec (.promiseMissed h) s = .next t ∧
           t = (s1.begun.waitOver h).takeTrap h ⟨causePROMISE_MISSED, 0, p, k⟩ x.pc ∧ unmoved t)) ∧
     (∀ o, s.instrAt h = some (.viewsync o) → x.bound = true → x.waitFrom.isSome → s1.CanRun (.viewsync o) o →
       let a := x.reg o.a.toNat
       let b := (x.reg o.b.toNat).toNat
       a.toNat < 2 ^ 48 → ∀ u pa pte, s1.begun.accessPage (s1.begun.who h x.sup false a) .load a.toNat = .ok u pa pte →
       lowestDie (u.taint x.asn) = none → u.resync = false → spaceOf pa = 0 → ∀ reg n, u.viewBlockOf pa = some (reg, n) →
       let v := u.block reg n
       let ready := v.st = .fresh ∧ covers v.tag (BitVec.ofNat 16 b) = true
       (ready → v.p = false → ∃ t, exec (.viewsyncTimeout h) s = .next t ∧
         t = (((((u.endHolds h).waitOver h).endHolds h).travel x.die (hubOf a.toNat) (lineOf pa) x.asn).issued h (.viewsync o) o)) ∧
       (v.p = true → exec (.viewsyncTimeout h) s = .next (u.takeTrap h ⟨causeVIEW_POISON, 0, a, 0⟩ x.pc)) ∧
       (¬ ready → v.p = false → bitsOf b 16 32 ≠ 0 → bitsOf b 16 32 ≤ u.waited h → ∃ t, exec (.viewsyncTimeout h) s = .next t ∧
         t = u.takeTrap h ⟨causeVIEW_STALE, v.tag.setWidth 64, a, 0⟩ x.pc)) ∧
     (∀ o, s.instrAt h = some (.viewsyncTw o) → x.bound = true → x.waitFrom.isSome → s1.CanRun (.viewsyncTw o) o →
       let a := x.reg o.a.toNat
       let b := (x.reg o.b.toNat).toNat
       a.toNat % 8 = 0 → ∀ u v f, s1.begun.atomicEl (s1.begun.who h x.sup false a) a 8 false (fun _ => (none, 0)) = .ok u v f →
       let tag := BitVec.ofNat 16 v
       (covers tag (BitVec.ofNat 16 b) = true → bitOf v 16 = false → ∃ t, exec (.viewsyncTimeout h) s = .next t ∧
         t = (((u.endHolds h).waitOver h).issued h (.viewsyncTw o) o)) ∧
       (bitOf v 16 = true → exec (.viewsyncTimeout h) s = .next (u.takeTrap h ⟨causeVIEW_POISON, 0, a, 0⟩ x.pc)) ∧
       (covers tag (BitVec.ofNat 16 b) = false → bitOf v 16 = false → bitsOf b 16 32 ≠ 0 → bitsOf b 16 32 ≤ u.waited h →
         ∃ t, exec (.viewsyncTimeout h) s = .next t ∧ t = u.takeTrap h ⟨causeVIEW_STALE, tag.setWidth 64, a, 0⟩ x.pc)) ∧
     ∀ o, s.instrAt h = some (.sleep o) → x.bound = true → x.waiting = true → s1.CanRun (.sleep o) o →
       x.wake = true ∨ (1 ≤ (x.reg o.a.toNat).toNat ∧ (x.reg o.a.toNat).toNat ≤ s.waited h) →
       ∃ t, exec (.sleepTimeout h) s = .next t ∧ t.hart h = overY { x.advanced with wake := false } ∧ unmoved t) ∧
  (∀ (s : State) (h : Nat), h < s.harts.length → (s.hart h).pend = [] → (s.hart h).takesIrq = true →
     (s.hart h).headBusy = false → (∀ o, ((s.hart h).queue.head?).map QEntry.instr ≠ some (.endI o)) →
     let x := s.hart h
     let z := (s.completeHead h).hart h
     let entered (y : Hart) (cause : BitVec 8) (info : Nat) : Prop :=
       y.tcause = cause ∧ y.tinfo = BitVec.ofNat 64 (info + 2 ^ 40 * z.occupancy) ∧ y.tpc = x.pc &&& 0xFFFFFFFFFFFC ∧
         y.tvqpPos = z.vcp ∧ y.tvqpV = false ∧ y.saved = saveSlots z.stopStarted.queue z.vcp.toNat [] ∧ y.queue = [] ∧
         y.vcp = x.vqtail ∧ y.vqtail = x.vqtail ∧ y.vprog = z.stopStarted.vprog ∧ y.tstatus.vfrz = true ∧ y.tstatus.mfrz = true ∧
         y.tstatus.pp = x.sup ∧ y.tstatus.pie = x.tstatus.ie ∧ y.tstatus.ie = false ∧ y.sup = true ∧ y.pc = x.tvec ∧
         y.s = z.s ∧ y.v = x.v
     (∀ src hub, s.pendingIrq h = some (src, hub) → hub < 8 → src < 8 → ∃ t, exec (.interrupt h) s = .next t ∧
       entered (t.hart h) causeINTERRUPT (src + 65536 * hub) ∧ (∀ k, k ≠ h → t.hart k = s.hart k) ∧ t.mem = s.mem) ∧
     (∀ r, x.preempt = none → r < 2 ^ 16 → s.pendingIrq h = none → ∃ t, exec (.preempt h r) s = .next t ∧
       entered (t.hart h) causePREEMPT r ∧ (t.hart h).preempt = none ∧ (∀ k, k ≠ h → t.hart k = s.hart k) ∧ t.mem = s.mem) ∧
     ∀ r src hub, x.preempt = none → s.pendingIrq h = some (src, hub) → hub < 8 → src < 8 → ∃ t, exec (.preempt h r) s = .next t ∧
       entered (t.hart h) causeINTERRUPT (src + 65536 * hub) ∧ (t.hart h).preempt = some r)

/-- R223, R224, R353, R355 to R357: the directory's events on a line of a die in service: a read or an ownership
request under the tag record of the line's frame moves the line to the state that R356 gives, with the leave that its
page gives, and sends a fill, which lands, or takes its place in the queue where it must wait; a victim of its owner
frees the line at the request and ends at the grant; a synonym switch retags a frame. That a directory request acts
under the tag record of its frame is the model's reading (log 48). -/
def Obligations.DirectoryEvents : Prop :=
  ∀ (s : State) (line die : Nat),
    let asks (i : Instr) (own : Bool) (w : Want) : Prop := (∀ q ∈ s.lineReqs, q.line = line → q.die ≠ die) →
      (s.inService die = true → 128 * line < 2 ^ 55 → s.fillRefused die line = false → s.resync = false →
        ∀ tag, tfind s.tags (line / 32) = some tag → lowestDie (s.taint tag.asn) = none →
        let va := 4096 * tag.granule + 128 * (line % 32)
        s.pageTurn s.newPlace tag.asn va = none → ∀ u pa pte, s.translate tag.asn true .load va = .ok u pa pte →
        lineOf pa = line → pteNC pte = false → (pteVC pte = true → u.lineFresh line = true) →
        u.flipHolds (128 * line) = false → u.atHost line (lineHalves line) = false → u.waitsTurn s.newPlace line = false →
        ∀ d, w.next die (u.watched line) (u.dirOf line) = some d → ∀ v, u.confirmLine die pte line = .ok v →
        ∃ t, exec i s = .next t ∧ t.dirOf line = d ∧ (∀ l, l ≠ line → t.dirOf l = v.dirOf l) ∧
          t.harts = v.harts ∧ t.mem = v.mem ∧ tfind t.grants (grantKey die line) = some (lineGrant pte) ∧
          ∃ f ∈ t.fills, f.die = die ∧ f.line = line) ∧
      ∀ k, s.lineServe ⟨line, die, own, s.newPlace⟩ = .wait k →
        exec i s = .next { s.queueNew die k with lineReqs := s.lineReqs ++ [⟨line, die, own, s.newPlace⟩] }
    asks (.dirRead line die) false .read ∧ asks (.dirOwnership line die) true .own ∧
    exec (.l2Fill die line) s = .next { s with fills := s.fills.filter fun f => !(decide (f.die = die) && decide (f.line = line)) } ∧
    (s.inService die = true → (s.victims.filter fun v => v.die = die).length < 16 → (∀ v ∈ s.victims, v.die = die → v.line ≠ line) →
      s.resync = false → s.dirOf line = .em die →
      let u := s.transmit die (24 + s.lineHub line) 0 none
      u.victimWaits u.newPlace line = false → ∃ t, exec (.writebackRequest line die) s = .next t ∧ t.dirOf line = .i ∧
        t.victims = s.victims ++ [⟨die, line, false, none⟩] ∧ t.mem = s.mem ∧ (line ∈ t.poison ↔ s.l2Bad die line = true)) ∧
    (s.resync = false → ∀ v ∈ s.victims, v.die = die → v.line = line → v.place = none →
      ∃ t, exec (.writebackGrant line die) s = .next t ∧ t.mem = s.mem ∧ t.harts = s.harts ∧ t.dir = s.dir ∧
        t.victims = s.victims.filter fun v => !(decide (v.die = die) && decide (v.line = line))) ∧
    ∀ frame asn granule, s.quiet (32 * frame) 32 = true → s.resync = false →
      exec (.synonymSwitch frame asn granule) s = .next ((s.retag frame asn false granule).freeTag frame)

/-- R245, R343, R346, R348, R399: engines and posted stores. An engine finishes its next line and its first operation;
a row of TOKSEND is placed; an acknowledgement takes the oldest posted store of a hart off OUTCNT, and a timeout does
too and marks the hart. R359 to R362, R377, R378: migrations, bias flips, notices and derivations take their steps; a
held access is counted at its hub. How a migration ends and how derivations wait are the model's readings (log 35, log
39). -/
def Obligations.UnitEvents : Prop :=
  (∀ (s : State),
     (∀ agent eng t, (∀ a b c d e f g h i j k, (s.engine agent eng).ops.head? ≠ some (.coll a b c d e f g h i j k)) →
       s.engNext agent eng = some (.ok t) → exec (.engineLineFinish agent eng) s = .next t) ∧
     (∀ agent eng t, s.copyComplete agent eng = .ok t → exec (.copyOpComplete agent eng) s = .next t) ∧
     (∀ agent peers t, s.collComplete agent peers = .ok t → exec (.collComplete agent peers) s = .next t) ∧
     (∀ k t, s.placeRow k = some t → exec (.toksendRowPlace k) s = .next t) ∧
     ∀ h p r, h < s.harts.length → s.posted = p :: r → p.hart = h →
       (∃ t, exec (.postedStoreAck h) s = .next t ∧ t.posted = r ∧ t.hart h = { s.hart h with outcnt := (s.hart h).outcnt - 1 } ∧
         (∀ k, k ≠ h → t.hart k = s.hart k) ∧ t.mem = s.mem) ∧
       ∃ t, exec (.domainTimeout h) s = .next t ∧ t.posted = r ∧
         t.hart h = { s.hart h with outcnt := (s.hart h).outcnt - 1, lost := true } ∧
         (∀ k, k ≠ h → t.hart k = s.hart k) ∧ t.mem = s.mem) ∧
  (∀ (s : State),
     (∀ hub, exec (.migration hub) s = .next (s.migStart hub)) ∧
     (∀ hub, exec (.migrationComplete hub) s = .next (s.migComplete hub)) ∧
     (∀ hub, hub < 8 → ∃ t, exec (.holdQueueRetry hub) s = .next t ∧ (t.hub hub).errstat = (s.hub hub).errstat ||| 4 ∧
       t = { s with hubs := t.hubs }) ∧
     (∀ g f, s.flips = [f] → f.granule = g → f.done = false →
       (if f.toHost then s.resync = false ∧ s.quiet (32 * g) 32 = true else f.left = []) →
       ∃ t, exec (.biasFlipStep g) s = .next t ∧ t.flips = [{ f with done := true }] ∧ t.hostBias.contains g = f.toHost ∧
         t.harts = s.harts ∧ t.mem = s.mem) ∧
     (∀ reg b, s.canNotice reg b = true → s.resync = false → exec (.staleNotice reg b) s = .next (s.notice reg b)) ∧
     (∀ hub, exec (.derivationStart hub) s = .next (s.derivStart hub)) ∧
     ∀ hub, exec (.derivationPublish hub) s = .next (s.derivPublish hub))

/-- R230, R231, R355, R358, R359, R368, R372, R376, R426: accesses of the host, of peers and of the network, pool
pushes, invalidation acknowledgements and errors. The host reads and writes a half of a line, through the decoder of
its port or in its own memory, as memory holds it, tracked in H or not (R358, R359), where it need not wait, and
DOORBELL, PUBLISH and PUBSTAT through the BAR (R424; log 45); bytes from outside are placed where no line waits; an
error in HBM poisons what the line's home holds, and one in a clean copy of a cache that copy alone. Which halves of
host memory and of host-biased granules are tracked, and what waits, are the model's readings (log 38, log 45). -/
def Obligations.OutsideAccesses : Prop :=
  ∀ (s : State),
    let atHome (l : Nat) (t : State) : Prop := match tfind s.dirty l with
      | some d => tfind t.dirty l = some { d with poison := true }
      | none => l ∈ t.poison
    (∀ a own pa, s.hostAccess (hostHalf a) = .at_ pa → (∀ q ∈ s.hostHeld, hostHalf q.2.addr ≠ hostHalf (hostHalf a)) →
      let v := s.hostAsks (hostHalf a) (lineOf pa)
      v.hostWaits s.newPlace pa = none → v.poisoned pa 64 = false →
      ∀ u, v.confirmAll (v.agentOf s.newPlace) (v.viewBlocksAt pa 64) = .ok u →
      let answered (t : State) : State := { t with hostOut := t.hostOut ++ [⟨hostHalf a, memBytes v.mem pa 64, false, false⟩] }
      (u.untracked pa = true → exec (.hostCxlMemRead a own) s =
        .next (answered { u with hostGot := u.hostGot.filter fun k => k ≠ pa / 64 })) ∧
      (u.untracked pa = false → ∀ d, hostTake (halfBit pa) own (u.dirOf (lineOf pa)) = some d →
        exec (.hostCxlMemRead a own) s = .next (answered (u.hostMoves (lineOf pa) d)))) ∧
    (∀ a data pa, s.hostAccess a = .at_ pa → (∀ q ∈ s.hostHeld, hostHalf q.2.addr ≠ hostHalf a) →
      let u := s.hostAsks a (lineOf pa)
      let bs := data.take (64 - pa % 64)
      u.hostWaits s.newPlace pa = none → u.canWriteMaster pa bs.length = true →
      (u.untracked pa = true → exec (.hostCxlMemWrite a data) s =
        .next (({ u with hostGot := u.hostGot.filter fun k => k ≠ pa / 64 } : State).homeWrite pa bs)) ∧
      (u.untracked pa = false → ∀ d, hostGive (halfBit pa) (u.dirOf (lineOf pa)) = some d →
        exec (.hostCxlMemWrite a data) s = .next ((u.hostMoves (lineOf pa) d).homeWrite pa bs))) ∧
    (∀ a own hub off, s.hostAccess (hostHalf a) = .register hub off → exec (.hostCxlMemRead a own) s =
      .next { s with hostOut := s.hostOut ++ [⟨hostHalf a, leBytes 8 (s.cfgRead hub off 8), false, false⟩] }) ∧
    (∀ a data hub off, s.hostAccess a = .register hub off → exec (.hostCxlMemWrite a data) s =
      .next (s.barWrite hub off (data.take (8 - off % 8)))) ∧
    (∀ a own p u, s.hostAccess (hostHalf a) = .answer p u → exec (.hostCxlMemRead a own) s =
      .next { s with hostOut := s.hostOut ++ [⟨hostHalf a, [], p, u⟩] }) ∧
    (∀ a data, s.hostAccess a = .silent → exec (.hostCxlMemWrite a data) s = .next s) ∧
    (∀ half data hs hm v, s.dirOf (half / 2) = .h hs hm v → half / 2 < 2 ^ 48 → (∀ f ∈ s.flips, half ∉ f.left) → s.resync = false →
      s.canWriteMaster (64 * half) (data.take 64).length = true →
      let b := halfBit (64 * half)
      exec (.hostCxlResponse half data) s =
        .next (((s.fromPort (half / 2)).setDir (half / 2) (hostState (hs &&& ~~~b) (hm &&& ~~~b) v)).homeWrite (64 * half)
          (if hm &&& b ≠ 0 then data.take 64 else []))) ∧
    (∀ pa data t, data ≠ [] → pa + data.length ≤ 2 ^ 56 → spaceOf pa = spaceOf (pa + data.length - 1) → spaceOf pa ≠ 3 →
      s.placeBytes s.newPlace (24 + placeHub pa) pa data = some t →
      exec (.rilrovIngress pa data) s = .next t ∧ (spaceOf pa ≠ 2 → exec (.ethernetIngress pa data) s = .next t)) ∧
    (∀ asn pool block t pa pte u, pool.toNat < 2 ^ 48 → s.translate asn true .store pool.toNat = .ok t pa pte →
      t.poisoned pa 16 = false →
      (t.askHomes (hubOf pool.toNat) [homeHub (hubOf pool.toNat) (lineOf pa)]).pushPool pa block = some u →
      exec (.poolPush asn pool block) s = .next u) ∧
    (∀ core asn root, ∃ t, exec (.clbDropAck core asn root) s = .next t ∧ t = { s with cores := t.cores } ∧
      (t.core core).clb = (s.core core).clb.filter fun e => !(e.asn == asn && (root.isNone || root.map clbRoot == some e.root))) ∧
    (∀ hub scope, hub < 8 → ∃ t, exec (.mtlbinvAcknowledge (24 + hub) scope) s = .next t ∧ t = { s with hubs := t.hubs } ∧
      ∀ e ∈ (t.hub hub).tlb, scopeHits scope e.asn e.glob e.vbase (2 ^ e.sizeBits) = false) ∧
    (∀ die scope, die < 24 → scopePurge scope = true → exec (.mtlbinvAcknowledge die scope) s = .next (s.sweepDie die scope)) ∧
    (∀ l, s.migOf l = none → ∃ t, exec (.uncorrectableError (.line l)) s = .next t ∧ atHome l t ∧ t.mem = s.mem ∧ t.harts = s.harts) ∧
    (∀ b, 1024 * b < 2 ^ 41 → s.migOf (8 * b) = none → ∃ t, exec (.uncorrectableError (.block b)) s = .next t ∧
      (∀ k, k < 8 → atHome (8 * b + k) t) ∧ t.mem = s.mem ∧ t.harts = s.harts) ∧
    (∀ core l, (tfind (s.core core).l1 l).isSome → ∃ t, exec (.uncorrectableError (.l1Line core l)) s = .next t ∧
      tfind (t.core core).l1 l = some true ∧ t.poison = s.poison ∧ t.mem = s.mem ∧ t.harts = s.harts) ∧
    (∀ core l, (tfind (s.core core).coords l).isSome → ∃ t, exec (.uncorrectableError (.coordLine core l)) s = .next t ∧
      tfind (t.core core).coords l = some true ∧ t.poison = s.poison ∧ t.mem = s.mem ∧ t.harts = s.harts) ∧
    (∀ die l, hitState die false (s.dirOf l) = true → s.dirOf l ≠ .em die ∨ tfind s.dirty l = none →
      ∃ t, exec (.uncorrectableError (.l2Line die l)) s = .next t ∧ grantKey die l ∈ t.badCopies ∧ t.poison = s.poison ∧
        t.mem = s.mem ∧ t.harts = s.harts) ∧
    (∀ core k l, (s.core core).icache[k]? = some l → ∃ t, exec (.uncorrectableError (.icLine core k)) s = .next t ∧
      (t.core core).icache[k]? = some { l with poison := true } ∧ t.mem = s.mem ∧ t.harts = s.harts) ∧
    ∀ core w, w < laneSize / 8 → core < 768 → ∃ t, exec (.uncorrectableError (.laneWord core w)) s = .next t ∧
      laneBase core / 8 + w ∈ t.lanePoison ∧ t.mem = s.mem ∧ t.harts = s.harts

/-- R309 to R313, R319, R326: the dispatcher's events: a host publication in progress ends with its result, or waits
in its turn for its TCB's page or line; a
predecessor's end is told on; a task is claimed or bound, where no hart of its level or above waits to be bound again;
it ages, pre-empts, retires, or fails, here with no entry of its harts left to complete. Which of two harts bound in
one cycle is pre-empted is the model's reading (log 42). -/
def Obligations.TaskEvents : Prop :=
  ∀ (s : State),
    (∀ v, (s.hub 0).pubReq = some v →
      let r := (s.leaveAll pubPlace).hostPublish v
      (s.pubWaits v = none → exec .hostPublication s =
        .next (r.1.modHub 0 fun u => { u with pubReq := none, pubResult := r.2.1, pubTid := r.2.2 })) ∧
      ∀ k, s.pubWaits v = some k → exec .hostPublication s = .next (s.queueUp pubPlace k)) ∧
    (∀ asn tcb ending, exec (.predecessorEvent asn tcb ending) s =
      .next (State.devAll devFuel s.newPlace [.pred asn tcb ending (hubOf tcb.toNat)] s)) ∧
    (∀ k t, s.tasks ≠ [] → s.nextReady = some k → s.dispatch = some t →
      (∀ h, s.nextRebind = some h → ((s.tasks[k]?).map Task.levelNow).getD 4 < s.rebindLevel h) → exec .dispatchClaim s = .next t) ∧
    (∀ k t, s.tasks[k]? = some t → s.ageDue k = true → ∃ u, exec (.readyListAging k) s = .next u ∧
      u.tasks[k]? = some { t with aged := t.aged + 1 } ∧ u = { s with tasks := u.tasks }) ∧
    (∀ h, s.level0Due = some h → h < s.harts.length → ∃ t, exec .level0Preempt s = .next t ∧
      t.hart h = { s.hart h with preempt := some 1 } ∧ (∀ k, k ≠ h → t.hart k = s.hart k) ∧ t.mem = s.mem) ∧
    (∀ k, exec (.taskRetirement k) s = .next (s.retire k)) ∧
    ∀ k status t, s.tasks[k]? = some t → t.ended = false → t.st = .running →
      (∀ x ∈ s.harts, x.task = some k → x.queue = []) →
      let u := (((s.taskHarts k).foldl (fun s h => s.stopHart h true) s).modTask k fun t => { t with st := .failing status }).dropImages k
      u.imagesOut k = false → exec (.taskFailure k status) s = .next (u.finishTask k 6 status .failed)

/-- R391 to R394, R396, R397, R417: the causal fabric: an arriving packet of the present RSN is received and one of
another is dropped; a ready quarantined packet is delivered; beats in their order raise horizons, one comes by itself
after 4,096 cycles, and a stalled sender asks for one; a drain unfinished after 2^24 cycles is an uncontained error.
That a packet or beat out of its order changes nothing is the model's reading (log 42). -/
def Obligations.FabricEvents : Prop :=
  ∀ (s : State),
    (∀ dst p, dst < 32 → p.src < 32 → p.cls < 4 → p.deps.length ≤ 31 → (∀ e ∈ p.deps, e.agent < 32) →
      exec (.packetArrival dst p) s = .next (s.receive dst p) ∧
      (s.removed.getLsbD p.src = false → p.rsn ≠ s.rsn →
        (s.receive dst p).clocks = s.clocks ∧ (s.receive dst p).harts = s.harts ∧ (s.receive dst p).mem = s.mem)) ∧
    (∀ dst w, s.removed.getLsbD dst = false → (s.clock dst).nextOut s.removed = some w → ∃ t, exec (.quarantineDelivery dst) s = .next t ∧
      (t.clock dst).quar = (s.clock dst).quar.erase w ∧ (∀ a, a ≠ dst → t.clock a = s.clock a) ∧ t = { s with clocks := t.clocks }) ∧
    (∀ dst (b : Beat), dst < 32 → b.src < 32 → s.removed.getLsbD b.src = false → s.removed.getLsbD dst = false →
      (s.clock dst).beatInOrder b = true →
      exec (.horizonBeat dst b) s = .next (s.setClock dst ((s.clock dst).beat b))) ∧
    (∀ src dst, src < 32 → dst < 32 → src ≠ dst → s.removed.getLsbD src = false → s.removed.getLsbD dst = false →
      4096 ≤ (s.cyc - tget (s.clock src).sentAt dst 0).toNat →
      exec (.idleBeat src dst) s = .next ((s.countAgent src 0x26 0xFF).beatNow src dst)) ∧
    (∀ agent, agent < 32 → s.windowOpen agent = false → exec (.windowStall agent) s = .next (s.stallCycle agent)) ∧
    (s.resync = true → s.drained = false → 2 ^ 24 ≤ (s.cyc - s.resyncAt).toNat → exec .resyncDrainTimeout s = .next s.goFatal) ∧
    ∀ v m t, v < 8 → m < 8 → s.watch v m (s.clock (24 + v)).f = some t → exec (.watchBeat v m) s = .next t

/-- R18 to R21, R320, R326, R424 to R433: reset, the configuration registers, management, links, cooling and the loss
of a part. The RATE that a throttled die takes, and the power of a rail in a report, are free values (log 5, log 46).
What a reset keeps of the outside, and a reset in which every die fails, are the model's choices (log 2, log 12, log
49). -/
def Obligations.PackageEvents : Prop :=
  ∀ (s : State),
    let boots (i : Firmware) : Prop := i.keyHash = s.fuses.keyHash ∧ i.signed = true ∧ s.fuses.counter ≤ i.version
    (∀ failed images, boots images.stobry → boots images.hubFirmware →
      exec (.packageReset failed false images) s = .next (s.afterReset failed)) ∧
    (∀ failed linkFail images, linkFail = true ∨ ¬ boots images.stobry ∨ ¬ boots images.hubFirmware →
      ∃ t, exec (.packageReset failed linkFail images) s = .next t ∧ t.harts = [] ∧ t.faultLow = true ∧ t.fuses = s.fuses) ∧
    (∀ hub mask, hub = 0 ∨ hub = 4 → exec (.doorbellWrite hub mask) s =
      .next (s.modHub hub fun u => { u with doorbell := u.doorbell ||| mask })) ∧
    (∀ value, exec (.publishWrite value) s = .next (s.cfgWrite 0 0x050 8 value.toNat)) ∧
    (∀ value, exec (.fencereqWrite value) s = .next (s.cfgWrite 0 0x060 8 value.toNat)) ∧
    (∀ hub off n value, hub < 8 → off < 4096 → n = 1 ∨ n = 2 ∨ n = 4 ∨ n = 8 → off % n = 0 →
      exec (.configRegWrite hub off n value) s = .next (s.cfgWrite hub off n value.toNat)) ∧
    (∀ hub, hub < 8 → exec (.irqsetWrite hub) s = .next (s.setHub hub { s.hub hub with notice := true })) ∧
    (∀ hub, hub = 0 ∨ hub = 4 → exec (.memrdyWrite hub) s = .next (s.setHub hub { s.hub hub with memrdy := true })) ∧
    (∀ die, s.inService die = true → exec (.dieLevelError die) s = .next (s.fenceDie die)) ∧
    (∃ t, exec .hubLoss s = .next t ∧ t.faultLow = true ∧ (∀ h, h < s.harts.length → (t.hart h).stopped = true) ∧
      ∀ n, n < 8 → (t.hub n).fatal = true) ∧
    (∀ hub asn, hub < 8 → exec (.uncontainedAsnFault hub asn) s = .next (s.asnFault hub asn)) ∧
    exec (.managementMessage .forSupervisor) s = .next (s.modHub 0 fun u => { u with mgmt := true }) ∧
    exec (.managementMessage .control) s = .next { s with mgmtOut := s.mgmtOut ++ [.control] } ∧
    exec (.managementMessage .spdmMeasurements) s = .next { s with mgmtOut := s.mgmtOut ++ [.measurements (Config.measured s.fuses s.measurement) s.debugOpen] } ∧
    exec (.managementMessage .vendorReport) s = .next s.sendReport ∧ s.sendReport.fresh = s.fresh + 1 + s.hubCounters.length ∧
    s.sendReport.mgmtOut = s.mgmtOut ++ [.vendor {
      fenced := (s.hub 0).fenced, fatal := (s.hub 0).fatal, temps := s.temps, railPower := Config.freeValue s.fresh
      counters := s.hubCounters.zipIdx.map fun p =>
        if p.1.vague then { p.1 with count := Config.freeValue (s.fresh + 1 + p.2) } else p.1 }] ∧
    (s.debugOpen = false → exec (.debugUnlock true) s = .next { s with debugOpen := true, measurement := s.measurement + 1 }) ∧
    (∀ rail, rail < 64 → rail ∉ s.deadRails → exec (.rilrovPortFailure rail) s = .next { s with deadRails := s.deadRails ++ [rail] }) ∧
    (∃ t, exec (.lossOfFlow true) s = .next t ∧ t.flowLost = true ∧ (∀ d, d < 24 → tget t.rate d 512 = 0)) ∧
    exec (.lossOfFlow false) s = .next { s with flowLost := false } ∧
    (∀ die c, die < 24 → 105 ≤ c → c < 115 → ∃ t, exec (.junctionTemperature die c) s = .next t ∧ tget t.temps die 0 = c ∧
      tget t.rate die 512 = 0 ∧ t.harts = s.harts) ∧
    (∀ die c, die < 24 → 115 ≤ c → ∃ t, exec (.junctionTemperature die c) s = .next t ∧ t.faultLow = true) ∧
    (∀ die c, die < 24 → 95 ≤ c → c < 105 → ∃ t, exec (.junctionTemperature die c) s = .next t ∧ tget t.temps die 0 = c ∧
      tget t.rate die 512 < 512 ∧ tget t.rate die 512 ≤ tget s.rate die 512 ∧ t.harts = s.harts) ∧
    (∀ die c, die < 24 → c < 95 → exec (.junctionTemperature die c) s = .next { s with temps := tset s.temps die c }) ∧
    ∀ port on_, port < 2 → exec (.memEnableControlWrite port on_) s = .next (s.modHub (4 * port) fun u => { u with memEnable := on_ })

/-! Invariants. -/

/-- R230, R231 and the form of the model's memory (log 1): every step, of every instruction and event, keeps memory's list of
cells in canonical form, so that equal memories are equal lists. -/
def Obligations.StepKeepsMemoryCanonical : Prop :=
  ∀ s t : State, s.Inv → step s = .next t → t.Inv

/-- Memory after reset lists nothing, and so is canonical. -/
def Obligations.ResetMemoryCanonical : Prop := State.reset.Inv ∧ State.reset.mem = []
end

