-- ==== Sys2Proof/Laws/State.lean ====
section
/-! SUPPORT. Sys2Proof/Laws/State.lean: what each update of the package or of a hart leaves of each field, true by unfolding one
definition. -/

namespace Sys2Proof.Machine

/-! The package: each update and the fields it leaves. -/

@[simp] theorem State.setHart_cyc (s : State) (h : Nat) (x : Hart) : (s.setHart h x).cyc = s.cyc := rfl
@[simp] theorem State.setHart_mem (s : State) (h : Nat) (x : Hart) : (s.setHart h x).mem = s.mem := rfl
@[simp] theorem State.setHart_poison (s : State) (h : Nat) (x : Hart) : (s.setHart h x).poison = s.poison := rfl
@[simp] theorem State.setHart_lanePoison (s : State) (h : Nat) (x : Hart) : (s.setHart h x).lanePoison = s.lanePoison := rfl
@[simp] theorem State.setHart_hubs (s : State) (h : Nat) (x : Hart) : (s.setHart h x).hubs = s.hubs := rfl
@[simp] theorem State.setHart_cores (s : State) (h : Nat) (x : Hart) : (s.setHart h x).cores = s.cores := rfl
@[simp] theorem State.setHart_clocks (s : State) (h : Nat) (x : Hart) : (s.setHart h x).clocks = s.clocks := rfl
@[simp] theorem State.setHart_rsn (s : State) (h : Nat) (x : Hart) : (s.setHart h x).rsn = s.rsn := rfl
@[simp] theorem State.setHart_removed (s : State) (h : Nat) (x : Hart) : (s.setHart h x).removed = s.removed := rfl
@[simp] theorem State.setHart_resync (s : State) (h : Nat) (x : Hart) : (s.setHart h x).resync = s.resync := rfl
@[simp] theorem State.setHart_lateFence (s : State) (h : Nat) (x : Hart) : (s.setHart h x).lateFence = s.lateFence := rfl
@[simp] theorem State.setHart_imgOut (s : State) (h : Nat) (x : Hart) : (s.setHart h x).imgOut = s.imgOut := rfl
@[simp] theorem State.setHart_arrivals (s : State) (h : Nat) (x : Hart) : (s.setHart h x).arrivals = s.arrivals := rfl
@[simp] theorem State.setHart_fuses (s : State) (h : Nat) (x : Hart) : (s.setHart h x).fuses = s.fuses := rfl
@[simp] theorem State.setHart_places (s : State) (h : Nat) (x : Hart) : (s.setHart h x).places = s.places := rfl
@[simp] theorem State.setHart_resyncAt (s : State) (h : Nat) (x : Hart) : (s.setHart h x).resyncAt = s.resyncAt := rfl
@[simp] theorem State.setHart_grants (s : State) (h : Nat) (x : Hart) : (s.setHart h x).grants = s.grants := rfl
@[simp] theorem State.setHart_badCopies (s : State) (h : Nat) (x : Hart) : (s.setHart h x).badCopies = s.badCopies := rfl
@[simp] theorem State.setHart_goodCopies (s : State) (h : Nat) (x : Hart) : (s.setHart h x).goodCopies = s.goodCopies := rfl
@[simp] theorem State.setHart_ueOut (s : State) (h : Nat) (x : Hart) : (s.setHart h x).ueOut = s.ueOut := rfl
@[simp] theorem State.setHart_hostHeld (s : State) (h : Nat) (x : Hart) : (s.setHart h x).hostHeld = s.hostHeld := rfl
@[simp] theorem State.setHart_lineReqs (s : State) (h : Nat) (x : Hart) : (s.setHart h x).lineReqs = s.lineReqs := rfl
@[simp] theorem State.setHart_unsent (s : State) (h : Nat) (x : Hart) : (s.setHart h x).unsent = s.unsent := rfl
@[simp] theorem State.setHart_flight (s : State) (h : Nat) (x : Hart) : (s.setHart h x).flight = s.flight := rfl
@[simp] theorem State.setHart_quadBar (s : State) (h : Nat) (x : Hart) : (s.setHart h x).quadBar = s.quadBar := rfl
@[simp] theorem State.setHart_dieBar (s : State) (h : Nat) (x : Hart) : (s.setHart h x).dieBar = s.dieBar := rfl
@[simp] theorem State.setHart_dir (s : State) (h : Nat) (x : Hart) : (s.setHart h x).dir = s.dir := rfl
@[simp] theorem State.setHart_dirty (s : State) (h : Nat) (x : Hart) : (s.setHart h x).dirty = s.dirty := rfl
@[simp] theorem State.setHart_holds (s : State) (h : Nat) (x : Hart) : (s.setHart h x).holds = s.holds := rfl
@[simp] theorem State.setHart_tags (s : State) (h : Nat) (x : Hart) : (s.setHart h x).tags = s.tags := rfl
@[simp] theorem State.setHart_victims (s : State) (h : Nat) (x : Hart) : (s.setHart h x).victims = s.victims := rfl
@[simp] theorem State.setHart_fills (s : State) (h : Nat) (x : Hart) : (s.setHart h x).fills = s.fills := rfl
@[simp] theorem State.setHart_engines (s : State) (h : Nat) (x : Hart) : (s.setHart h x).engines = s.engines := rfl
@[simp] theorem State.setHart_tasks (s : State) (h : Nat) (x : Hart) : (s.setHart h x).tasks = s.tasks := rfl
@[simp] theorem State.setHart_devHeld (s : State) (h : Nat) (x : Hart) : (s.setHart h x).devHeld = s.devHeld := rfl
@[simp] theorem State.setHart_regs (s : State) (h : Nat) (x : Hart) : (s.setHart h x).regs = s.regs := rfl
@[simp] theorem State.setHart_nextReg (s : State) (h : Nat) (x : Hart) : (s.setHart h x).nextReg = s.nextReg := rfl
@[simp] theorem State.setHart_blocks (s : State) (h : Nat) (x : Hart) : (s.setHart h x).blocks = s.blocks := rfl
@[simp] theorem State.setHart_blockSnaps (s : State) (h : Nat) (x : Hart) : (s.setHart h x).blockSnaps = s.blockSnaps := rfl
@[simp] theorem State.setHart_frecSnaps (s : State) (h : Nat) (x : Hart) : (s.setHart h x).frecSnaps = s.frecSnaps := rfl
@[simp] theorem State.setHart_posted (s : State) (h : Nat) (x : Hart) : (s.setHart h x).posted = s.posted := rfl
@[simp] theorem State.setHart_rows (s : State) (h : Nat) (x : Hart) : (s.setHart h x).rows = s.rows := rfl
@[simp] theorem State.setHart_deadRails (s : State) (h : Nat) (x : Hart) : (s.setHart h x).deadRails = s.deadRails := rfl
@[simp] theorem State.setHart_hostBias (s : State) (h : Nat) (x : Hart) : (s.setHart h x).hostBias = s.hostBias := rfl
@[simp] theorem State.setHart_hostGot (s : State) (h : Nat) (x : Hart) : (s.setHart h x).hostGot = s.hostGot := rfl
@[simp] theorem State.setHart_flips (s : State) (h : Nat) (x : Hart) : (s.setHart h x).flips = s.flips := rfl
@[simp] theorem State.setHart_rate (s : State) (h : Nat) (x : Hart) : (s.setHart h x).rate = s.rate := rfl
@[simp] theorem State.setHart_temps (s : State) (h : Nat) (x : Hart) : (s.setHart h x).temps = s.temps := rfl
@[simp] theorem State.setHart_flowLost (s : State) (h : Nat) (x : Hart) : (s.setHart h x).flowLost = s.flowLost := rfl
@[simp] theorem State.setHart_debugOpen (s : State) (h : Nat) (x : Hart) : (s.setHart h x).debugOpen = s.debugOpen := rfl
@[simp] theorem State.setHart_measurement (s : State) (h : Nat) (x : Hart) : (s.setHart h x).measurement = s.measurement := rfl
@[simp] theorem State.setHart_faultLow (s : State) (h : Nat) (x : Hart) : (s.setHart h x).faultLow = s.faultLow := rfl
@[simp] theorem State.setHart_mgmtOut (s : State) (h : Nat) (x : Hart) : (s.setHart h x).mgmtOut = s.mgmtOut := rfl
@[simp] theorem State.setHart_hostOut (s : State) (h : Nat) (x : Hart) : (s.setHart h x).hostOut = s.hostOut := rfl
@[simp] theorem State.setHart_userBound (s : State) (h : Nat) (x : Hart) : (s.setHart h x).userBound = s.userBound := rfl
@[simp] theorem State.setHart_sched (s : State) (h : Nat) (x : Hart) : (s.setHart h x).sched = s.sched := rfl
@[simp] theorem State.setHart_cur (s : State) (h : Nat) (x : Hart) : (s.setHart h x).cur = s.cur := rfl
@[simp] theorem State.setHart_lead (s : State) (h : Nat) (x : Hart) : (s.setHart h x).lead = s.lead := rfl
@[simp] theorem State.setHart_fresh (s : State) (h : Nat) (x : Hart) : (s.setHart h x).fresh = s.fresh := rfl
@[simp] theorem State.setHart_order (s : State) (h : Nat) (x : Hart) : (s.setHart h x).order = s.order := rfl
@[simp] theorem State.modHart_cyc (s : State) (h : Nat) (f : Hart → Hart) : (s.modHart h f).cyc = s.cyc := rfl
@[simp] theorem State.modHart_mem (s : State) (h : Nat) (f : Hart → Hart) : (s.modHart h f).mem = s.mem := rfl
@[simp] theorem State.modHart_poison (s : State) (h : Nat) (f : Hart → Hart) : (s.modHart h f).poison = s.poison := rfl
@[simp] theorem State.modHart_lanePoison (s : State) (h : Nat) (f : Hart → Hart) : (s.modHart h f).lanePoison = s.lanePoison := rfl
@[simp] theorem State.modHart_hubs (s : State) (h : Nat) (f : Hart → Hart) : (s.modHart h f).hubs = s.hubs := rfl
@[simp] theorem State.modHart_cores (s : State) (h : Nat) (f : Hart → Hart) : (s.modHart h f).cores = s.cores := rfl
@[simp] theorem State.modHart_clocks (s : State) (h : Nat) (f : Hart → Hart) : (s.modHart h f).clocks = s.clocks := rfl
@[simp] theorem State.modHart_rsn (s : State) (h : Nat) (f : Hart → Hart) : (s.modHart h f).rsn = s.rsn := rfl
@[simp] theorem State.modHart_removed (s : State) (h : Nat) (f : Hart → Hart) : (s.modHart h f).removed = s.removed := rfl
@[simp] theorem State.modHart_resync (s : State) (h : Nat) (f : Hart → Hart) : (s.modHart h f).resync = s.resync := rfl
@[simp] theorem State.modHart_lateFence (s : State) (h : Nat) (f : Hart → Hart) : (s.modHart h f).lateFence = s.lateFence := rfl
@[simp] theorem State.modHart_imgOut (s : State) (h : Nat) (f : Hart → Hart) : (s.modHart h f).imgOut = s.imgOut := rfl
@[simp] theorem State.modHart_arrivals (s : State) (h : Nat) (f : Hart → Hart) : (s.modHart h f).arrivals = s.arrivals := rfl
@[simp] theorem State.modHart_fuses (s : State) (h : Nat) (f : Hart → Hart) : (s.modHart h f).fuses = s.fuses := rfl
@[simp] theorem State.modHart_places (s : State) (h : Nat) (f : Hart → Hart) : (s.modHart h f).places = s.places := rfl
@[simp] theorem State.modHart_resyncAt (s : State) (h : Nat) (f : Hart → Hart) : (s.modHart h f).resyncAt = s.resyncAt := rfl
@[simp] theorem State.modHart_grants (s : State) (h : Nat) (f : Hart → Hart) : (s.modHart h f).grants = s.grants := rfl
@[simp] theorem State.modHart_badCopies (s : State) (h : Nat) (f : Hart → Hart) : (s.modHart h f).badCopies = s.badCopies := rfl
@[simp] theorem State.modHart_goodCopies (s : State) (h : Nat) (f : Hart → Hart) : (s.modHart h f).goodCopies = s.goodCopies := rfl
@[simp] theorem State.modHart_ueOut (s : State) (h : Nat) (f : Hart → Hart) : (s.modHart h f).ueOut = s.ueOut := rfl
@[simp] theorem State.modHart_hostHeld (s : State) (h : Nat) (f : Hart → Hart) : (s.modHart h f).hostHeld = s.hostHeld := rfl
@[simp] theorem State.modHart_lineReqs (s : State) (h : Nat) (f : Hart → Hart) : (s.modHart h f).lineReqs = s.lineReqs := rfl
@[simp] theorem State.modHart_unsent (s : State) (h : Nat) (f : Hart → Hart) : (s.modHart h f).unsent = s.unsent := rfl
@[simp] theorem State.modHart_flight (s : State) (h : Nat) (f : Hart → Hart) : (s.modHart h f).flight = s.flight := rfl
@[simp] theorem State.modHart_quadBar (s : State) (h : Nat) (f : Hart → Hart) : (s.modHart h f).quadBar = s.quadBar := rfl
@[simp] theorem State.modHart_dieBar (s : State) (h : Nat) (f : Hart → Hart) : (s.modHart h f).dieBar = s.dieBar := rfl
@[simp] theorem State.modHart_dir (s : State) (h : Nat) (f : Hart → Hart) : (s.modHart h f).dir = s.dir := rfl
@[simp] theorem State.modHart_dirty (s : State) (h : Nat) (f : Hart → Hart) : (s.modHart h f).dirty = s.dirty := rfl
@[simp] theorem State.modHart_holds (s : State) (h : Nat) (f : Hart → Hart) : (s.modHart h f).holds = s.holds := rfl
@[simp] theorem State.modHart_tags (s : State) (h : Nat) (f : Hart → Hart) : (s.modHart h f).tags = s.tags := rfl
@[simp] theorem State.modHart_victims (s : State) (h : Nat) (f : Hart → Hart) : (s.modHart h f).victims = s.victims := rfl
@[simp] theorem State.modHart_fills (s : State) (h : Nat) (f : Hart → Hart) : (s.modHart h f).fills = s.fills := rfl
@[simp] theorem State.modHart_engines (s : State) (h : Nat) (f : Hart → Hart) : (s.modHart h f).engines = s.engines := rfl
@[simp] theorem State.modHart_tasks (s : State) (h : Nat) (f : Hart → Hart) : (s.modHart h f).tasks = s.tasks := rfl
@[simp] theorem State.modHart_devHeld (s : State) (h : Nat) (f : Hart → Hart) : (s.modHart h f).devHeld = s.devHeld := rfl
@[simp] theorem State.modHart_regs (s : State) (h : Nat) (f : Hart → Hart) : (s.modHart h f).regs = s.regs := rfl
@[simp] theorem State.modHart_nextReg (s : State) (h : Nat) (f : Hart → Hart) : (s.modHart h f).nextReg = s.nextReg := rfl
@[simp] theorem State.modHart_blocks (s : State) (h : Nat) (f : Hart → Hart) : (s.modHart h f).blocks = s.blocks := rfl
@[simp] theorem State.modHart_blockSnaps (s : State) (h : Nat) (f : Hart → Hart) : (s.modHart h f).blockSnaps = s.blockSnaps := rfl
@[simp] theorem State.modHart_frecSnaps (s : State) (h : Nat) (f : Hart → Hart) : (s.modHart h f).frecSnaps = s.frecSnaps := rfl
@[simp] theorem State.modHart_posted (s : State) (h : Nat) (f : Hart → Hart) : (s.modHart h f).posted = s.posted := rfl
@[simp] theorem State.modHart_rows (s : State) (h : Nat) (f : Hart → Hart) : (s.modHart h f).rows = s.rows := rfl
@[simp] theorem State.modHart_deadRails (s : State) (h : Nat) (f : Hart → Hart) : (s.modHart h f).deadRails = s.deadRails := rfl
@[simp] theorem State.modHart_hostBias (s : State) (h : Nat) (f : Hart → Hart) : (s.modHart h f).hostBias = s.hostBias := rfl
@[simp] theorem State.modHart_hostGot (s : State) (h : Nat) (f : Hart → Hart) : (s.modHart h f).hostGot = s.hostGot := rfl
@[simp] theorem State.modHart_flips (s : State) (h : Nat) (f : Hart → Hart) : (s.modHart h f).flips = s.flips := rfl
@[simp] theorem State.modHart_rate (s : State) (h : Nat) (f : Hart → Hart) : (s.modHart h f).rate = s.rate := rfl
@[simp] theorem State.modHart_temps (s : State) (h : Nat) (f : Hart → Hart) : (s.modHart h f).temps = s.temps := rfl
@[simp] theorem State.modHart_flowLost (s : State) (h : Nat) (f : Hart → Hart) : (s.modHart h f).flowLost = s.flowLost := rfl
@[simp] theorem State.modHart_debugOpen (s : State) (h : Nat) (f : Hart → Hart) : (s.modHart h f).debugOpen = s.debugOpen := rfl
@[simp] theorem State.modHart_measurement (s : State) (h : Nat) (f : Hart → Hart) : (s.modHart h f).measurement = s.measurement := rfl
@[simp] theorem State.modHart_faultLow (s : State) (h : Nat) (f : Hart → Hart) : (s.modHart h f).faultLow = s.faultLow := rfl
@[simp] theorem State.modHart_mgmtOut (s : State) (h : Nat) (f : Hart → Hart) : (s.modHart h f).mgmtOut = s.mgmtOut := rfl
@[simp] theorem State.modHart_hostOut (s : State) (h : Nat) (f : Hart → Hart) : (s.modHart h f).hostOut = s.hostOut := rfl
@[simp] theorem State.modHart_userBound (s : State) (h : Nat) (f : Hart → Hart) : (s.modHart h f).userBound = s.userBound := rfl
@[simp] theorem State.modHart_sched (s : State) (h : Nat) (f : Hart → Hart) : (s.modHart h f).sched = s.sched := rfl
@[simp] theorem State.modHart_cur (s : State) (h : Nat) (f : Hart → Hart) : (s.modHart h f).cur = s.cur := rfl
@[simp] theorem State.modHart_lead (s : State) (h : Nat) (f : Hart → Hart) : (s.modHart h f).lead = s.lead := rfl
@[simp] theorem State.modHart_fresh (s : State) (h : Nat) (f : Hart → Hart) : (s.modHart h f).fresh = s.fresh := rfl
@[simp] theorem State.modHart_order (s : State) (h : Nat) (f : Hart → Hart) : (s.modHart h f).order = s.order := rfl
@[simp] theorem State.setHub_cyc (s : State) (n : Nat) (u : Hub) : (s.setHub n u).cyc = s.cyc := rfl
@[simp] theorem State.setHub_harts (s : State) (n : Nat) (u : Hub) : (s.setHub n u).harts = s.harts := rfl
@[simp] theorem State.setHub_mem (s : State) (n : Nat) (u : Hub) : (s.setHub n u).mem = s.mem := rfl
@[simp] theorem State.setHub_poison (s : State) (n : Nat) (u : Hub) : (s.setHub n u).poison = s.poison := rfl
@[simp] theorem State.setHub_lanePoison (s : State) (n : Nat) (u : Hub) : (s.setHub n u).lanePoison = s.lanePoison := rfl
@[simp] theorem State.setHub_cores (s : State) (n : Nat) (u : Hub) : (s.setHub n u).cores = s.cores := rfl
@[simp] theorem State.setHub_clocks (s : State) (n : Nat) (u : Hub) : (s.setHub n u).clocks = s.clocks := rfl
@[simp] theorem State.setHub_rsn (s : State) (n : Nat) (u : Hub) : (s.setHub n u).rsn = s.rsn := rfl
@[simp] theorem State.setHub_removed (s : State) (n : Nat) (u : Hub) : (s.setHub n u).removed = s.removed := rfl
@[simp] theorem State.setHub_resync (s : State) (n : Nat) (u : Hub) : (s.setHub n u).resync = s.resync := rfl
@[simp] theorem State.setHub_lateFence (s : State) (n : Nat) (u : Hub) : (s.setHub n u).lateFence = s.lateFence := rfl
@[simp] theorem State.setHub_imgOut (s : State) (n : Nat) (u : Hub) : (s.setHub n u).imgOut = s.imgOut := rfl
@[simp] theorem State.setHub_arrivals (s : State) (n : Nat) (u : Hub) : (s.setHub n u).arrivals = s.arrivals := rfl
@[simp] theorem State.setHub_fuses (s : State) (n : Nat) (u : Hub) : (s.setHub n u).fuses = s.fuses := rfl
@[simp] theorem State.setHub_places (s : State) (n : Nat) (u : Hub) : (s.setHub n u).places = s.places := rfl
@[simp] theorem State.setHub_resyncAt (s : State) (n : Nat) (u : Hub) : (s.setHub n u).resyncAt = s.resyncAt := rfl
@[simp] theorem State.setHub_grants (s : State) (n : Nat) (u : Hub) : (s.setHub n u).grants = s.grants := rfl
@[simp] theorem State.setHub_badCopies (s : State) (n : Nat) (u : Hub) : (s.setHub n u).badCopies = s.badCopies := rfl
@[simp] theorem State.setHub_goodCopies (s : State) (n : Nat) (u : Hub) : (s.setHub n u).goodCopies = s.goodCopies := rfl
@[simp] theorem State.setHub_ueOut (s : State) (n : Nat) (u : Hub) : (s.setHub n u).ueOut = s.ueOut := rfl
@[simp] theorem State.setHub_hostHeld (s : State) (n : Nat) (u : Hub) : (s.setHub n u).hostHeld = s.hostHeld := rfl
@[simp] theorem State.setHub_lineReqs (s : State) (n : Nat) (u : Hub) : (s.setHub n u).lineReqs = s.lineReqs := rfl
@[simp] theorem State.setHub_unsent (s : State) (n : Nat) (u : Hub) : (s.setHub n u).unsent = s.unsent := rfl
@[simp] theorem State.setHub_flight (s : State) (n : Nat) (u : Hub) : (s.setHub n u).flight = s.flight := rfl
@[simp] theorem State.setHub_quadBar (s : State) (n : Nat) (u : Hub) : (s.setHub n u).quadBar = s.quadBar := rfl
@[simp] theorem State.setHub_dieBar (s : State) (n : Nat) (u : Hub) : (s.setHub n u).dieBar = s.dieBar := rfl
@[simp] theorem State.setHub_dir (s : State) (n : Nat) (u : Hub) : (s.setHub n u).dir = s.dir := rfl
@[simp] theorem State.setHub_dirty (s : State) (n : Nat) (u : Hub) : (s.setHub n u).dirty = s.dirty := rfl
@[simp] theorem State.setHub_holds (s : State) (n : Nat) (u : Hub) : (s.setHub n u).holds = s.holds := rfl
@[simp] theorem State.setHub_tags (s : State) (n : Nat) (u : Hub) : (s.setHub n u).tags = s.tags := rfl
@[simp] theorem State.setHub_victims (s : State) (n : Nat) (u : Hub) : (s.setHub n u).victims = s.victims := rfl
@[simp] theorem State.setHub_fills (s : State) (n : Nat) (u : Hub) : (s.setHub n u).fills = s.fills := rfl
@[simp] theorem State.setHub_engines (s : State) (n : Nat) (u : Hub) : (s.setHub n u).engines = s.engines := rfl
@[simp] theorem State.setHub_tasks (s : State) (n : Nat) (u : Hub) : (s.setHub n u).tasks = s.tasks := rfl
@[simp] theorem State.setHub_devHeld (s : State) (n : Nat) (u : Hub) : (s.setHub n u).devHeld = s.devHeld := rfl
@[simp] theorem State.setHub_regs (s : State) (n : Nat) (u : Hub) : (s.setHub n u).regs = s.regs := rfl
@[simp] theorem State.setHub_nextReg (s : State) (n : Nat) (u : Hub) : (s.setHub n u).nextReg = s.nextReg := rfl
@[simp] theorem State.setHub_blocks (s : State) (n : Nat) (u : Hub) : (s.setHub n u).blocks = s.blocks := rfl
@[simp] theorem State.setHub_blockSnaps (s : State) (n : Nat) (u : Hub) : (s.setHub n u).blockSnaps = s.blockSnaps := rfl
@[simp] theorem State.setHub_frecSnaps (s : State) (n : Nat) (u : Hub) : (s.setHub n u).frecSnaps = s.frecSnaps := rfl
@[simp] theorem State.setHub_posted (s : State) (n : Nat) (u : Hub) : (s.setHub n u).posted = s.posted := rfl
@[simp] theorem State.setHub_rows (s : State) (n : Nat) (u : Hub) : (s.setHub n u).rows = s.rows := rfl
@[simp] theorem State.setHub_deadRails (s : State) (n : Nat) (u : Hub) : (s.setHub n u).deadRails = s.deadRails := rfl
@[simp] theorem State.setHub_hostBias (s : State) (n : Nat) (u : Hub) : (s.setHub n u).hostBias = s.hostBias := rfl
@[simp] theorem State.setHub_hostGot (s : State) (n : Nat) (u : Hub) : (s.setHub n u).hostGot = s.hostGot := rfl
@[simp] theorem State.setHub_flips (s : State) (n : Nat) (u : Hub) : (s.setHub n u).flips = s.flips := rfl
@[simp] theorem State.setHub_rate (s : State) (n : Nat) (u : Hub) : (s.setHub n u).rate = s.rate := rfl
@[simp] theorem State.setHub_temps (s : State) (n : Nat) (u : Hub) : (s.setHub n u).temps = s.temps := rfl
@[simp] theorem State.setHub_flowLost (s : State) (n : Nat) (u : Hub) : (s.setHub n u).flowLost = s.flowLost := rfl
@[simp] theorem State.setHub_debugOpen (s : State) (n : Nat) (u : Hub) : (s.setHub n u).debugOpen = s.debugOpen := rfl
@[simp] theorem State.setHub_measurement (s : State) (n : Nat) (u : Hub) : (s.setHub n u).measurement = s.measurement := rfl
@[simp] theorem State.setHub_faultLow (s : State) (n : Nat) (u : Hub) : (s.setHub n u).faultLow = s.faultLow := rfl
@[simp] theorem State.setHub_mgmtOut (s : State) (n : Nat) (u : Hub) : (s.setHub n u).mgmtOut = s.mgmtOut := rfl
@[simp] theorem State.setHub_hostOut (s : State) (n : Nat) (u : Hub) : (s.setHub n u).hostOut = s.hostOut := rfl
@[simp] theorem State.setHub_userBound (s : State) (n : Nat) (u : Hub) : (s.setHub n u).userBound = s.userBound := rfl
@[simp] theorem State.setHub_sched (s : State) (n : Nat) (u : Hub) : (s.setHub n u).sched = s.sched := rfl
@[simp] theorem State.setHub_cur (s : State) (n : Nat) (u : Hub) : (s.setHub n u).cur = s.cur := rfl
@[simp] theorem State.setHub_lead (s : State) (n : Nat) (u : Hub) : (s.setHub n u).lead = s.lead := rfl
@[simp] theorem State.setHub_fresh (s : State) (n : Nat) (u : Hub) : (s.setHub n u).fresh = s.fresh := rfl
@[simp] theorem State.setHub_order (s : State) (n : Nat) (u : Hub) : (s.setHub n u).order = s.order := rfl
@[simp] theorem State.modHub_cyc (s : State) (n : Nat) (f : Hub → Hub) : (s.modHub n f).cyc = s.cyc := rfl
@[simp] theorem State.modHub_harts (s : State) (n : Nat) (f : Hub → Hub) : (s.modHub n f).harts = s.harts := rfl
@[simp] theorem State.modHub_mem (s : State) (n : Nat) (f : Hub → Hub) : (s.modHub n f).mem = s.mem := rfl
@[simp] theorem State.modHub_poison (s : State) (n : Nat) (f : Hub → Hub) : (s.modHub n f).poison = s.poison := rfl
@[simp] theorem State.modHub_lanePoison (s : State) (n : Nat) (f : Hub → Hub) : (s.modHub n f).lanePoison = s.lanePoison := rfl
@[simp] theorem State.modHub_cores (s : State) (n : Nat) (f : Hub → Hub) : (s.modHub n f).cores = s.cores := rfl
@[simp] theorem State.modHub_clocks (s : State) (n : Nat) (f : Hub → Hub) : (s.modHub n f).clocks = s.clocks := rfl
@[simp] theorem State.modHub_rsn (s : State) (n : Nat) (f : Hub → Hub) : (s.modHub n f).rsn = s.rsn := rfl
@[simp] theorem State.modHub_removed (s : State) (n : Nat) (f : Hub → Hub) : (s.modHub n f).removed = s.removed := rfl
@[simp] theorem State.modHub_resync (s : State) (n : Nat) (f : Hub → Hub) : (s.modHub n f).resync = s.resync := rfl
@[simp] theorem State.modHub_lateFence (s : State) (n : Nat) (f : Hub → Hub) : (s.modHub n f).lateFence = s.lateFence := rfl
@[simp] theorem State.modHub_imgOut (s : State) (n : Nat) (f : Hub → Hub) : (s.modHub n f).imgOut = s.imgOut := rfl
@[simp] theorem State.modHub_arrivals (s : State) (n : Nat) (f : Hub → Hub) : (s.modHub n f).arrivals = s.arrivals := rfl
@[simp] theorem State.modHub_fuses (s : State) (n : Nat) (f : Hub → Hub) : (s.modHub n f).fuses = s.fuses := rfl
@[simp] theorem State.modHub_places (s : State) (n : Nat) (f : Hub → Hub) : (s.modHub n f).places = s.places := rfl
@[simp] theorem State.modHub_resyncAt (s : State) (n : Nat) (f : Hub → Hub) : (s.modHub n f).resyncAt = s.resyncAt := rfl
@[simp] theorem State.modHub_grants (s : State) (n : Nat) (f : Hub → Hub) : (s.modHub n f).grants = s.grants := rfl
@[simp] theorem State.modHub_badCopies (s : State) (n : Nat) (f : Hub → Hub) : (s.modHub n f).badCopies = s.badCopies := rfl
@[simp] theorem State.modHub_goodCopies (s : State) (n : Nat) (f : Hub → Hub) : (s.modHub n f).goodCopies = s.goodCopies := rfl
@[simp] theorem State.modHub_ueOut (s : State) (n : Nat) (f : Hub → Hub) : (s.modHub n f).ueOut = s.ueOut := rfl
@[simp] theorem State.modHub_hostHeld (s : State) (n : Nat) (f : Hub → Hub) : (s.modHub n f).hostHeld = s.hostHeld := rfl
@[simp] theorem State.modHub_lineReqs (s : State) (n : Nat) (f : Hub → Hub) : (s.modHub n f).lineReqs = s.lineReqs := rfl
@[simp] theorem State.modHub_unsent (s : State) (n : Nat) (f : Hub → Hub) : (s.modHub n f).unsent = s.unsent := rfl
@[simp] theorem State.modHub_flight (s : State) (n : Nat) (f : Hub → Hub) : (s.modHub n f).flight = s.flight := rfl
@[simp] theorem State.modHub_quadBar (s : State) (n : Nat) (f : Hub → Hub) : (s.modHub n f).quadBar = s.quadBar := rfl
@[simp] theorem State.modHub_dieBar (s : State) (n : Nat) (f : Hub → Hub) : (s.modHub n f).dieBar = s.dieBar := rfl
@[simp] theorem State.modHub_dir (s : State) (n : Nat) (f : Hub → Hub) : (s.modHub n f).dir = s.dir := rfl
@[simp] theorem State.modHub_dirty (s : State) (n : Nat) (f : Hub → Hub) : (s.modHub n f).dirty = s.dirty := rfl
@[simp] theorem State.modHub_holds (s : State) (n : Nat) (f : Hub → Hub) : (s.modHub n f).holds = s.holds := rfl
@[simp] theorem State.modHub_tags (s : State) (n : Nat) (f : Hub → Hub) : (s.modHub n f).tags = s.tags := rfl
@[simp] theorem State.modHub_victims (s : State) (n : Nat) (f : Hub → Hub) : (s.modHub n f).victims = s.victims := rfl
@[simp] theorem State.modHub_fills (s : State) (n : Nat) (f : Hub → Hub) : (s.modHub n f).fills = s.fills := rfl
@[simp] theorem State.modHub_engines (s : State) (n : Nat) (f : Hub → Hub) : (s.modHub n f).engines = s.engines := rfl
@[simp] theorem State.modHub_tasks (s : State) (n : Nat) (f : Hub → Hub) : (s.modHub n f).tasks = s.tasks := rfl
@[simp] theorem State.modHub_devHeld (s : State) (n : Nat) (f : Hub → Hub) : (s.modHub n f).devHeld = s.devHeld := rfl
@[simp] theorem State.modHub_regs (s : State) (n : Nat) (f : Hub → Hub) : (s.modHub n f).regs = s.regs := rfl
@[simp] theorem State.modHub_nextReg (s : State) (n : Nat) (f : Hub → Hub) : (s.modHub n f).nextReg = s.nextReg := rfl
@[simp] theorem State.modHub_blocks (s : State) (n : Nat) (f : Hub → Hub) : (s.modHub n f).blocks = s.blocks := rfl
@[simp] theorem State.modHub_blockSnaps (s : State) (n : Nat) (f : Hub → Hub) : (s.modHub n f).blockSnaps = s.blockSnaps := rfl
@[simp] theorem State.modHub_frecSnaps (s : State) (n : Nat) (f : Hub → Hub) : (s.modHub n f).frecSnaps = s.frecSnaps := rfl
@[simp] theorem State.modHub_posted (s : State) (n : Nat) (f : Hub → Hub) : (s.modHub n f).posted = s.posted := rfl
@[simp] theorem State.modHub_rows (s : State) (n : Nat) (f : Hub → Hub) : (s.modHub n f).rows = s.rows := rfl
@[simp] theorem State.modHub_deadRails (s : State) (n : Nat) (f : Hub → Hub) : (s.modHub n f).deadRails = s.deadRails := rfl
@[simp] theorem State.modHub_hostBias (s : State) (n : Nat) (f : Hub → Hub) : (s.modHub n f).hostBias = s.hostBias := rfl
@[simp] theorem State.modHub_hostGot (s : State) (n : Nat) (f : Hub → Hub) : (s.modHub n f).hostGot = s.hostGot := rfl
@[simp] theorem State.modHub_flips (s : State) (n : Nat) (f : Hub → Hub) : (s.modHub n f).flips = s.flips := rfl
@[simp] theorem State.modHub_rate (s : State) (n : Nat) (f : Hub → Hub) : (s.modHub n f).rate = s.rate := rfl
@[simp] theorem State.modHub_temps (s : State) (n : Nat) (f : Hub → Hub) : (s.modHub n f).temps = s.temps := rfl
@[simp] theorem State.modHub_flowLost (s : State) (n : Nat) (f : Hub → Hub) : (s.modHub n f).flowLost = s.flowLost := rfl
@[simp] theorem State.modHub_debugOpen (s : State) (n : Nat) (f : Hub → Hub) : (s.modHub n f).debugOpen = s.debugOpen := rfl
@[simp] theorem State.modHub_measurement (s : State) (n : Nat) (f : Hub → Hub) : (s.modHub n f).measurement = s.measurement := rfl
@[simp] theorem State.modHub_faultLow (s : State) (n : Nat) (f : Hub → Hub) : (s.modHub n f).faultLow = s.faultLow := rfl
@[simp] theorem State.modHub_mgmtOut (s : State) (n : Nat) (f : Hub → Hub) : (s.modHub n f).mgmtOut = s.mgmtOut := rfl
@[simp] theorem State.modHub_hostOut (s : State) (n : Nat) (f : Hub → Hub) : (s.modHub n f).hostOut = s.hostOut := rfl
@[simp] theorem State.modHub_userBound (s : State) (n : Nat) (f : Hub → Hub) : (s.modHub n f).userBound = s.userBound := rfl
@[simp] theorem State.modHub_sched (s : State) (n : Nat) (f : Hub → Hub) : (s.modHub n f).sched = s.sched := rfl
@[simp] theorem State.modHub_cur (s : State) (n : Nat) (f : Hub → Hub) : (s.modHub n f).cur = s.cur := rfl
@[simp] theorem State.modHub_lead (s : State) (n : Nat) (f : Hub → Hub) : (s.modHub n f).lead = s.lead := rfl
@[simp] theorem State.modHub_fresh (s : State) (n : Nat) (f : Hub → Hub) : (s.modHub n f).fresh = s.fresh := rfl
@[simp] theorem State.modHub_order (s : State) (n : Nat) (f : Hub → Hub) : (s.modHub n f).order = s.order := rfl
@[simp] theorem State.setCore_cyc (s : State) (c : Nat) (x : Core) : (s.setCore c x).cyc = s.cyc := rfl
@[simp] theorem State.setCore_harts (s : State) (c : Nat) (x : Core) : (s.setCore c x).harts = s.harts := rfl
@[simp] theorem State.setCore_mem (s : State) (c : Nat) (x : Core) : (s.setCore c x).mem = s.mem := rfl
@[simp] theorem State.setCore_poison (s : State) (c : Nat) (x : Core) : (s.setCore c x).poison = s.poison := rfl
@[simp] theorem State.setCore_lanePoison (s : State) (c : Nat) (x : Core) : (s.setCore c x).lanePoison = s.lanePoison := rfl
@[simp] theorem State.setCore_hubs (s : State) (c : Nat) (x : Core) : (s.setCore c x).hubs = s.hubs := rfl
@[simp] theorem State.setCore_clocks (s : State) (c : Nat) (x : Core) : (s.setCore c x).clocks = s.clocks := rfl
@[simp] theorem State.setCore_rsn (s : State) (c : Nat) (x : Core) : (s.setCore c x).rsn = s.rsn := rfl
@[simp] theorem State.setCore_removed (s : State) (c : Nat) (x : Core) : (s.setCore c x).removed = s.removed := rfl
@[simp] theorem State.setCore_resync (s : State) (c : Nat) (x : Core) : (s.setCore c x).resync = s.resync := rfl
@[simp] theorem State.setCore_lateFence (s : State) (c : Nat) (x : Core) : (s.setCore c x).lateFence = s.lateFence := rfl
@[simp] theorem State.setCore_imgOut (s : State) (c : Nat) (x : Core) : (s.setCore c x).imgOut = s.imgOut := rfl
@[simp] theorem State.setCore_arrivals (s : State) (c : Nat) (x : Core) : (s.setCore c x).arrivals = s.arrivals := rfl
@[simp] theorem State.setCore_fuses (s : State) (c : Nat) (x : Core) : (s.setCore c x).fuses = s.fuses := rfl
@[simp] theorem State.setCore_places (s : State) (c : Nat) (x : Core) : (s.setCore c x).places = s.places := rfl
@[simp] theorem State.setCore_resyncAt (s : State) (c : Nat) (x : Core) : (s.setCore c x).resyncAt = s.resyncAt := rfl
@[simp] theorem State.setCore_grants (s : State) (c : Nat) (x : Core) : (s.setCore c x).grants = s.grants := rfl
@[simp] theorem State.setCore_badCopies (s : State) (c : Nat) (x : Core) : (s.setCore c x).badCopies = s.badCopies := rfl
@[simp] theorem State.setCore_goodCopies (s : State) (c : Nat) (x : Core) : (s.setCore c x).goodCopies = s.goodCopies := rfl
@[simp] theorem State.setCore_ueOut (s : State) (c : Nat) (x : Core) : (s.setCore c x).ueOut = s.ueOut := rfl
@[simp] theorem State.setCore_hostHeld (s : State) (c : Nat) (x : Core) : (s.setCore c x).hostHeld = s.hostHeld := rfl
@[simp] theorem State.setCore_lineReqs (s : State) (c : Nat) (x : Core) : (s.setCore c x).lineReqs = s.lineReqs := rfl
@[simp] theorem State.setCore_unsent (s : State) (c : Nat) (x : Core) : (s.setCore c x).unsent = s.unsent := rfl
@[simp] theorem State.setCore_flight (s : State) (c : Nat) (x : Core) : (s.setCore c x).flight = s.flight := rfl
@[simp] theorem State.setCore_quadBar (s : State) (c : Nat) (x : Core) : (s.setCore c x).quadBar = s.quadBar := rfl
@[simp] theorem State.setCore_dieBar (s : State) (c : Nat) (x : Core) : (s.setCore c x).dieBar = s.dieBar := rfl
@[simp] theorem State.setCore_dir (s : State) (c : Nat) (x : Core) : (s.setCore c x).dir = s.dir := rfl
@[simp] theorem State.setCore_dirty (s : State) (c : Nat) (x : Core) : (s.setCore c x).dirty = s.dirty := rfl
@[simp] theorem State.setCore_holds (s : State) (c : Nat) (x : Core) : (s.setCore c x).holds = s.holds := rfl
@[simp] theorem State.setCore_tags (s : State) (c : Nat) (x : Core) : (s.setCore c x).tags = s.tags := rfl
@[simp] theorem State.setCore_victims (s : State) (c : Nat) (x : Core) : (s.setCore c x).victims = s.victims := rfl
@[simp] theorem State.setCore_fills (s : State) (c : Nat) (x : Core) : (s.setCore c x).fills = s.fills := rfl
@[simp] theorem State.setCore_engines (s : State) (c : Nat) (x : Core) : (s.setCore c x).engines = s.engines := rfl
@[simp] theorem State.setCore_tasks (s : State) (c : Nat) (x : Core) : (s.setCore c x).tasks = s.tasks := rfl
@[simp] theorem State.setCore_devHeld (s : State) (c : Nat) (x : Core) : (s.setCore c x).devHeld = s.devHeld := rfl
@[simp] theorem State.setCore_regs (s : State) (c : Nat) (x : Core) : (s.setCore c x).regs = s.regs := rfl
@[simp] theorem State.setCore_nextReg (s : State) (c : Nat) (x : Core) : (s.setCore c x).nextReg = s.nextReg := rfl
@[simp] theorem State.setCore_blocks (s : State) (c : Nat) (x : Core) : (s.setCore c x).blocks = s.blocks := rfl
@[simp] theorem State.setCore_blockSnaps (s : State) (c : Nat) (x : Core) : (s.setCore c x).blockSnaps = s.blockSnaps := rfl
@[simp] theorem State.setCore_frecSnaps (s : State) (c : Nat) (x : Core) : (s.setCore c x).frecSnaps = s.frecSnaps := rfl
@[simp] theorem State.setCore_posted (s : State) (c : Nat) (x : Core) : (s.setCore c x).posted = s.posted := rfl
@[simp] theorem State.setCore_rows (s : State) (c : Nat) (x : Core) : (s.setCore c x).rows = s.rows := rfl
@[simp] theorem State.setCore_deadRails (s : State) (c : Nat) (x : Core) : (s.setCore c x).deadRails = s.deadRails := rfl
@[simp] theorem State.setCore_hostBias (s : State) (c : Nat) (x : Core) : (s.setCore c x).hostBias = s.hostBias := rfl
@[simp] theorem State.setCore_hostGot (s : State) (c : Nat) (x : Core) : (s.setCore c x).hostGot = s.hostGot := rfl
@[simp] theorem State.setCore_flips (s : State) (c : Nat) (x : Core) : (s.setCore c x).flips = s.flips := rfl
@[simp] theorem State.setCore_rate (s : State) (c : Nat) (x : Core) : (s.setCore c x).rate = s.rate := rfl
@[simp] theorem State.setCore_temps (s : State) (c : Nat) (x : Core) : (s.setCore c x).temps = s.temps := rfl
@[simp] theorem State.setCore_flowLost (s : State) (c : Nat) (x : Core) : (s.setCore c x).flowLost = s.flowLost := rfl
@[simp] theorem State.setCore_debugOpen (s : State) (c : Nat) (x : Core) : (s.setCore c x).debugOpen = s.debugOpen := rfl
@[simp] theorem State.setCore_measurement (s : State) (c : Nat) (x : Core) : (s.setCore c x).measurement = s.measurement := rfl
@[simp] theorem State.setCore_faultLow (s : State) (c : Nat) (x : Core) : (s.setCore c x).faultLow = s.faultLow := rfl
@[simp] theorem State.setCore_mgmtOut (s : State) (c : Nat) (x : Core) : (s.setCore c x).mgmtOut = s.mgmtOut := rfl
@[simp] theorem State.setCore_hostOut (s : State) (c : Nat) (x : Core) : (s.setCore c x).hostOut = s.hostOut := rfl
@[simp] theorem State.setCore_userBound (s : State) (c : Nat) (x : Core) : (s.setCore c x).userBound = s.userBound := rfl
@[simp] theorem State.setCore_sched (s : State) (c : Nat) (x : Core) : (s.setCore c x).sched = s.sched := rfl
@[simp] theorem State.setCore_cur (s : State) (c : Nat) (x : Core) : (s.setCore c x).cur = s.cur := rfl
@[simp] theorem State.setCore_lead (s : State) (c : Nat) (x : Core) : (s.setCore c x).lead = s.lead := rfl
@[simp] theorem State.setCore_fresh (s : State) (c : Nat) (x : Core) : (s.setCore c x).fresh = s.fresh := rfl
@[simp] theorem State.setCore_order (s : State) (c : Nat) (x : Core) : (s.setCore c x).order = s.order := rfl
@[simp] theorem State.modCore_cyc (s : State) (c : Nat) (f : Core → Core) : (s.modCore c f).cyc = s.cyc := rfl
@[simp] theorem State.modCore_harts (s : State) (c : Nat) (f : Core → Core) : (s.modCore c f).harts = s.harts := rfl
@[simp] theorem State.modCore_mem (s : State) (c : Nat) (f : Core → Core) : (s.modCore c f).mem = s.mem := rfl
@[simp] theorem State.modCore_poison (s : State) (c : Nat) (f : Core → Core) : (s.modCore c f).poison = s.poison := rfl
@[simp] theorem State.modCore_lanePoison (s : State) (c : Nat) (f : Core → Core) : (s.modCore c f).lanePoison = s.lanePoison := rfl
@[simp] theorem State.modCore_hubs (s : State) (c : Nat) (f : Core → Core) : (s.modCore c f).hubs = s.hubs := rfl
@[simp] theorem State.modCore_clocks (s : State) (c : Nat) (f : Core → Core) : (s.modCore c f).clocks = s.clocks := rfl
@[simp] theorem State.modCore_rsn (s : State) (c : Nat) (f : Core → Core) : (s.modCore c f).rsn = s.rsn := rfl
@[simp] theorem State.modCore_removed (s : State) (c : Nat) (f : Core → Core) : (s.modCore c f).removed = s.removed := rfl
@[simp] theorem State.modCore_resync (s : State) (c : Nat) (f : Core → Core) : (s.modCore c f).resync = s.resync := rfl
@[simp] theorem State.modCore_lateFence (s : State) (c : Nat) (f : Core → Core) : (s.modCore c f).lateFence = s.lateFence := rfl
@[simp] theorem State.modCore_imgOut (s : State) (c : Nat) (f : Core → Core) : (s.modCore c f).imgOut = s.imgOut := rfl
@[simp] theorem State.modCore_arrivals (s : State) (c : Nat) (f : Core → Core) : (s.modCore c f).arrivals = s.arrivals := rfl
@[simp] theorem State.modCore_fuses (s : State) (c : Nat) (f : Core → Core) : (s.modCore c f).fuses = s.fuses := rfl
@[simp] theorem State.modCore_places (s : State) (c : Nat) (f : Core → Core) : (s.modCore c f).places = s.places := rfl
@[simp] theorem State.modCore_resyncAt (s : State) (c : Nat) (f : Core → Core) : (s.modCore c f).resyncAt = s.resyncAt := rfl
@[simp] theorem State.modCore_grants (s : State) (c : Nat) (f : Core → Core) : (s.modCore c f).grants = s.grants := rfl
@[simp] theorem State.modCore_badCopies (s : State) (c : Nat) (f : Core → Core) : (s.modCore c f).badCopies = s.badCopies := rfl
@[simp] theorem State.modCore_goodCopies (s : State) (c : Nat) (f : Core → Core) : (s.modCore c f).goodCopies = s.goodCopies := rfl
@[simp] theorem State.modCore_ueOut (s : State) (c : Nat) (f : Core → Core) : (s.modCore c f).ueOut = s.ueOut := rfl
@[simp] theorem State.modCore_hostHeld (s : State) (c : Nat) (f : Core → Core) : (s.modCore c f).hostHeld = s.hostHeld := rfl
@[simp] theorem State.modCore_lineReqs (s : State) (c : Nat) (f : Core → Core) : (s.modCore c f).lineReqs = s.lineReqs := rfl
@[simp] theorem State.modCore_unsent (s : State) (c : Nat) (f : Core → Core) : (s.modCore c f).unsent = s.unsent := rfl
@[simp] theorem State.modCore_flight (s : State) (c : Nat) (f : Core → Core) : (s.modCore c f).flight = s.flight := rfl
@[simp] theorem State.modCore_quadBar (s : State) (c : Nat) (f : Core → Core) : (s.modCore c f).quadBar = s.quadBar := rfl
@[simp] theorem State.modCore_dieBar (s : State) (c : Nat) (f : Core → Core) : (s.modCore c f).dieBar = s.dieBar := rfl
@[simp] theorem State.modCore_dir (s : State) (c : Nat) (f : Core → Core) : (s.modCore c f).dir = s.dir := rfl
@[simp] theorem State.modCore_dirty (s : State) (c : Nat) (f : Core → Core) : (s.modCore c f).dirty = s.dirty := rfl
@[simp] theorem State.modCore_holds (s : State) (c : Nat) (f : Core → Core) : (s.modCore c f).holds = s.holds := rfl
@[simp] theorem State.modCore_tags (s : State) (c : Nat) (f : Core → Core) : (s.modCore c f).tags = s.tags := rfl
@[simp] theorem State.modCore_victims (s : State) (c : Nat) (f : Core → Core) : (s.modCore c f).victims = s.victims := rfl
@[simp] theorem State.modCore_fills (s : State) (c : Nat) (f : Core → Core) : (s.modCore c f).fills = s.fills := rfl
@[simp] theorem State.modCore_engines (s : State) (c : Nat) (f : Core → Core) : (s.modCore c f).engines = s.engines := rfl
@[simp] theorem State.modCore_tasks (s : State) (c : Nat) (f : Core → Core) : (s.modCore c f).tasks = s.tasks := rfl
@[simp] theorem State.modCore_devHeld (s : State) (c : Nat) (f : Core → Core) : (s.modCore c f).devHeld = s.devHeld := rfl
@[simp] theorem State.modCore_regs (s : State) (c : Nat) (f : Core → Core) : (s.modCore c f).regs = s.regs := rfl
@[simp] theorem State.modCore_nextReg (s : State) (c : Nat) (f : Core → Core) : (s.modCore c f).nextReg = s.nextReg := rfl
@[simp] theorem State.modCore_blocks (s : State) (c : Nat) (f : Core → Core) : (s.modCore c f).blocks = s.blocks := rfl
@[simp] theorem State.modCore_blockSnaps (s : State) (c : Nat) (f : Core → Core) : (s.modCore c f).blockSnaps = s.blockSnaps := rfl
@[simp] theorem State.modCore_frecSnaps (s : State) (c : Nat) (f : Core → Core) : (s.modCore c f).frecSnaps = s.frecSnaps := rfl
@[simp] theorem State.modCore_posted (s : State) (c : Nat) (f : Core → Core) : (s.modCore c f).posted = s.posted := rfl
@[simp] theorem State.modCore_rows (s : State) (c : Nat) (f : Core → Core) : (s.modCore c f).rows = s.rows := rfl
@[simp] theorem State.modCore_deadRails (s : State) (c : Nat) (f : Core → Core) : (s.modCore c f).deadRails = s.deadRails := rfl
@[simp] theorem State.modCore_hostBias (s : State) (c : Nat) (f : Core → Core) : (s.modCore c f).hostBias = s.hostBias := rfl
@[simp] theorem State.modCore_hostGot (s : State) (c : Nat) (f : Core → Core) : (s.modCore c f).hostGot = s.hostGot := rfl
@[simp] theorem State.modCore_flips (s : State) (c : Nat) (f : Core → Core) : (s.modCore c f).flips = s.flips := rfl
@[simp] theorem State.modCore_rate (s : State) (c : Nat) (f : Core → Core) : (s.modCore c f).rate = s.rate := rfl
@[simp] theorem State.modCore_temps (s : State) (c : Nat) (f : Core → Core) : (s.modCore c f).temps = s.temps := rfl
@[simp] theorem State.modCore_flowLost (s : State) (c : Nat) (f : Core → Core) : (s.modCore c f).flowLost = s.flowLost := rfl
@[simp] theorem State.modCore_debugOpen (s : State) (c : Nat) (f : Core → Core) : (s.modCore c f).debugOpen = s.debugOpen := rfl
@[simp] theorem State.modCore_measurement (s : State) (c : Nat) (f : Core → Core) : (s.modCore c f).measurement = s.measurement := rfl
@[simp] theorem State.modCore_faultLow (s : State) (c : Nat) (f : Core → Core) : (s.modCore c f).faultLow = s.faultLow := rfl
@[simp] theorem State.modCore_mgmtOut (s : State) (c : Nat) (f : Core → Core) : (s.modCore c f).mgmtOut = s.mgmtOut := rfl
@[simp] theorem State.modCore_hostOut (s : State) (c : Nat) (f : Core → Core) : (s.modCore c f).hostOut = s.hostOut := rfl
@[simp] theorem State.modCore_userBound (s : State) (c : Nat) (f : Core → Core) : (s.modCore c f).userBound = s.userBound := rfl
@[simp] theorem State.modCore_sched (s : State) (c : Nat) (f : Core → Core) : (s.modCore c f).sched = s.sched := rfl
@[simp] theorem State.modCore_cur (s : State) (c : Nat) (f : Core → Core) : (s.modCore c f).cur = s.cur := rfl
@[simp] theorem State.modCore_lead (s : State) (c : Nat) (f : Core → Core) : (s.modCore c f).lead = s.lead := rfl
@[simp] theorem State.modCore_fresh (s : State) (c : Nat) (f : Core → Core) : (s.modCore c f).fresh = s.fresh := rfl
@[simp] theorem State.modCore_order (s : State) (c : Nat) (f : Core → Core) : (s.modCore c f).order = s.order := rfl
@[simp] theorem State.setClock_cyc (s : State) (a : Nat) (k : Clock) : (s.setClock a k).cyc = s.cyc := rfl
@[simp] theorem State.setClock_harts (s : State) (a : Nat) (k : Clock) : (s.setClock a k).harts = s.harts := rfl
@[simp] theorem State.setClock_mem (s : State) (a : Nat) (k : Clock) : (s.setClock a k).mem = s.mem := rfl
@[simp] theorem State.setClock_poison (s : State) (a : Nat) (k : Clock) : (s.setClock a k).poison = s.poison := rfl
@[simp] theorem State.setClock_lanePoison (s : State) (a : Nat) (k : Clock) : (s.setClock a k).lanePoison = s.lanePoison := rfl
@[simp] theorem State.setClock_hubs (s : State) (a : Nat) (k : Clock) : (s.setClock a k).hubs = s.hubs := rfl
@[simp] theorem State.setClock_cores (s : State) (a : Nat) (k : Clock) : (s.setClock a k).cores = s.cores := rfl
@[simp] theorem State.setClock_rsn (s : State) (a : Nat) (k : Clock) : (s.setClock a k).rsn = s.rsn := rfl
@[simp] theorem State.setClock_removed (s : State) (a : Nat) (k : Clock) : (s.setClock a k).removed = s.removed := rfl
@[simp] theorem State.setClock_resync (s : State) (a : Nat) (k : Clock) : (s.setClock a k).resync = s.resync := rfl
@[simp] theorem State.setClock_lateFence (s : State) (a : Nat) (k : Clock) : (s.setClock a k).lateFence = s.lateFence := rfl
@[simp] theorem State.setClock_imgOut (s : State) (a : Nat) (k : Clock) : (s.setClock a k).imgOut = s.imgOut := rfl
@[simp] theorem State.setClock_arrivals (s : State) (a : Nat) (k : Clock) : (s.setClock a k).arrivals = s.arrivals := rfl
@[simp] theorem State.setClock_fuses (s : State) (a : Nat) (k : Clock) : (s.setClock a k).fuses = s.fuses := rfl
@[simp] theorem State.setClock_places (s : State) (a : Nat) (k : Clock) : (s.setClock a k).places = s.places := rfl
@[simp] theorem State.setClock_resyncAt (s : State) (a : Nat) (k : Clock) : (s.setClock a k).resyncAt = s.resyncAt := rfl
@[simp] theorem State.setClock_grants (s : State) (a : Nat) (k : Clock) : (s.setClock a k).grants = s.grants := rfl
@[simp] theorem State.setClock_badCopies (s : State) (a : Nat) (k : Clock) : (s.setClock a k).badCopies = s.badCopies := rfl
@[simp] theorem State.setClock_goodCopies (s : State) (a : Nat) (k : Clock) : (s.setClock a k).goodCopies = s.goodCopies := rfl
@[simp] theorem State.setClock_ueOut (s : State) (a : Nat) (k : Clock) : (s.setClock a k).ueOut = s.ueOut := rfl
@[simp] theorem State.setClock_hostHeld (s : State) (a : Nat) (k : Clock) : (s.setClock a k).hostHeld = s.hostHeld := rfl
@[simp] theorem State.setClock_lineReqs (s : State) (a : Nat) (k : Clock) : (s.setClock a k).lineReqs = s.lineReqs := rfl
@[simp] theorem State.setClock_unsent (s : State) (a : Nat) (k : Clock) : (s.setClock a k).unsent = s.unsent := rfl
@[simp] theorem State.setClock_flight (s : State) (a : Nat) (k : Clock) : (s.setClock a k).flight = s.flight := rfl
@[simp] theorem State.setClock_quadBar (s : State) (a : Nat) (k : Clock) : (s.setClock a k).quadBar = s.quadBar := rfl
@[simp] theorem State.setClock_dieBar (s : State) (a : Nat) (k : Clock) : (s.setClock a k).dieBar = s.dieBar := rfl
@[simp] theorem State.setClock_dir (s : State) (a : Nat) (k : Clock) : (s.setClock a k).dir = s.dir := rfl
@[simp] theorem State.setClock_dirty (s : State) (a : Nat) (k : Clock) : (s.setClock a k).dirty = s.dirty := rfl
@[simp] theorem State.setClock_holds (s : State) (a : Nat) (k : Clock) : (s.setClock a k).holds = s.holds := rfl
@[simp] theorem State.setClock_tags (s : State) (a : Nat) (k : Clock) : (s.setClock a k).tags = s.tags := rfl
@[simp] theorem State.setClock_victims (s : State) (a : Nat) (k : Clock) : (s.setClock a k).victims = s.victims := rfl
@[simp] theorem State.setClock_fills (s : State) (a : Nat) (k : Clock) : (s.setClock a k).fills = s.fills := rfl
@[simp] theorem State.setClock_engines (s : State) (a : Nat) (k : Clock) : (s.setClock a k).engines = s.engines := rfl
@[simp] theorem State.setClock_tasks (s : State) (a : Nat) (k : Clock) : (s.setClock a k).tasks = s.tasks := rfl
@[simp] theorem State.setClock_devHeld (s : State) (a : Nat) (k : Clock) : (s.setClock a k).devHeld = s.devHeld := rfl
@[simp] theorem State.setClock_regs (s : State) (a : Nat) (k : Clock) : (s.setClock a k).regs = s.regs := rfl
@[simp] theorem State.setClock_nextReg (s : State) (a : Nat) (k : Clock) : (s.setClock a k).nextReg = s.nextReg := rfl
@[simp] theorem State.setClock_blocks (s : State) (a : Nat) (k : Clock) : (s.setClock a k).blocks = s.blocks := rfl
@[simp] theorem State.setClock_blockSnaps (s : State) (a : Nat) (k : Clock) : (s.setClock a k).blockSnaps = s.blockSnaps := rfl
@[simp] theorem State.setClock_frecSnaps (s : State) (a : Nat) (k : Clock) : (s.setClock a k).frecSnaps = s.frecSnaps := rfl
@[simp] theorem State.setClock_posted (s : State) (a : Nat) (k : Clock) : (s.setClock a k).posted = s.posted := rfl
@[simp] theorem State.setClock_rows (s : State) (a : Nat) (k : Clock) : (s.setClock a k).rows = s.rows := rfl
@[simp] theorem State.setClock_deadRails (s : State) (a : Nat) (k : Clock) : (s.setClock a k).deadRails = s.deadRails := rfl
@[simp] theorem State.setClock_hostBias (s : State) (a : Nat) (k : Clock) : (s.setClock a k).hostBias = s.hostBias := rfl
@[simp] theorem State.setClock_hostGot (s : State) (a : Nat) (k : Clock) : (s.setClock a k).hostGot = s.hostGot := rfl
@[simp] theorem State.setClock_flips (s : State) (a : Nat) (k : Clock) : (s.setClock a k).flips = s.flips := rfl
@[simp] theorem State.setClock_rate (s : State) (a : Nat) (k : Clock) : (s.setClock a k).rate = s.rate := rfl
@[simp] theorem State.setClock_temps (s : State) (a : Nat) (k : Clock) : (s.setClock a k).temps = s.temps := rfl
@[simp] theorem State.setClock_flowLost (s : State) (a : Nat) (k : Clock) : (s.setClock a k).flowLost = s.flowLost := rfl
@[simp] theorem State.setClock_debugOpen (s : State) (a : Nat) (k : Clock) : (s.setClock a k).debugOpen = s.debugOpen := rfl
@[simp] theorem State.setClock_measurement (s : State) (a : Nat) (k : Clock) : (s.setClock a k).measurement = s.measurement := rfl
@[simp] theorem State.setClock_faultLow (s : State) (a : Nat) (k : Clock) : (s.setClock a k).faultLow = s.faultLow := rfl
@[simp] theorem State.setClock_mgmtOut (s : State) (a : Nat) (k : Clock) : (s.setClock a k).mgmtOut = s.mgmtOut := rfl
@[simp] theorem State.setClock_hostOut (s : State) (a : Nat) (k : Clock) : (s.setClock a k).hostOut = s.hostOut := rfl
@[simp] theorem State.setClock_userBound (s : State) (a : Nat) (k : Clock) : (s.setClock a k).userBound = s.userBound := rfl
@[simp] theorem State.setClock_sched (s : State) (a : Nat) (k : Clock) : (s.setClock a k).sched = s.sched := rfl
@[simp] theorem State.setClock_cur (s : State) (a : Nat) (k : Clock) : (s.setClock a k).cur = s.cur := rfl
@[simp] theorem State.setClock_lead (s : State) (a : Nat) (k : Clock) : (s.setClock a k).lead = s.lead := rfl
@[simp] theorem State.setClock_fresh (s : State) (a : Nat) (k : Clock) : (s.setClock a k).fresh = s.fresh := rfl
@[simp] theorem State.setClock_order (s : State) (a : Nat) (k : Clock) : (s.setClock a k).order = s.order := rfl
@[simp] theorem State.setEngine_cyc (s : State) (a e : Nat) (x : Engine) : (s.setEngine a e x).cyc = s.cyc := rfl
@[simp] theorem State.setEngine_harts (s : State) (a e : Nat) (x : Engine) : (s.setEngine a e x).harts = s.harts := rfl
@[simp] theorem State.setEngine_mem (s : State) (a e : Nat) (x : Engine) : (s.setEngine a e x).mem = s.mem := rfl
@[simp] theorem State.setEngine_poison (s : State) (a e : Nat) (x : Engine) : (s.setEngine a e x).poison = s.poison := rfl
@[simp] theorem State.setEngine_lanePoison (s : State) (a e : Nat) (x : Engine) : (s.setEngine a e x).lanePoison = s.lanePoison := rfl
@[simp] theorem State.setEngine_hubs (s : State) (a e : Nat) (x : Engine) : (s.setEngine a e x).hubs = s.hubs := rfl
@[simp] theorem State.setEngine_cores (s : State) (a e : Nat) (x : Engine) : (s.setEngine a e x).cores = s.cores := rfl
@[simp] theorem State.setEngine_clocks (s : State) (a e : Nat) (x : Engine) : (s.setEngine a e x).clocks = s.clocks := rfl
@[simp] theorem State.setEngine_rsn (s : State) (a e : Nat) (x : Engine) : (s.setEngine a e x).rsn = s.rsn := rfl
@[simp] theorem State.setEngine_removed (s : State) (a e : Nat) (x : Engine) : (s.setEngine a e x).removed = s.removed := rfl
@[simp] theorem State.setEngine_resync (s : State) (a e : Nat) (x : Engine) : (s.setEngine a e x).resync = s.resync := rfl
@[simp] theorem State.setEngine_lateFence (s : State) (a e : Nat) (x : Engine) : (s.setEngine a e x).lateFence = s.lateFence := rfl
@[simp] theorem State.setEngine_imgOut (s : State) (a e : Nat) (x : Engine) : (s.setEngine a e x).imgOut = s.imgOut := rfl
@[simp] theorem State.setEngine_arrivals (s : State) (a e : Nat) (x : Engine) : (s.setEngine a e x).arrivals = s.arrivals := rfl
@[simp] theorem State.setEngine_fuses (s : State) (a e : Nat) (x : Engine) : (s.setEngine a e x).fuses = s.fuses := rfl
@[simp] theorem State.setEngine_places (s : State) (a e : Nat) (x : Engine) : (s.setEngine a e x).places = s.places := rfl
@[simp] theorem State.setEngine_resyncAt (s : State) (a e : Nat) (x : Engine) : (s.setEngine a e x).resyncAt = s.resyncAt := rfl
@[simp] theorem State.setEngine_grants (s : State) (a e : Nat) (x : Engine) : (s.setEngine a e x).grants = s.grants := rfl
@[simp] theorem State.setEngine_badCopies (s : State) (a e : Nat) (x : Engine) : (s.setEngine a e x).badCopies = s.badCopies := rfl
@[simp] theorem State.setEngine_goodCopies (s : State) (a e : Nat) (x : Engine) : (s.setEngine a e x).goodCopies = s.goodCopies := rfl
@[simp] theorem State.setEngine_ueOut (s : State) (a e : Nat) (x : Engine) : (s.setEngine a e x).ueOut = s.ueOut := rfl
@[simp] theorem State.setEngine_hostHeld (s : State) (a e : Nat) (x : Engine) : (s.setEngine a e x).hostHeld = s.hostHeld := rfl
@[simp] theorem State.setEngine_lineReqs (s : State) (a e : Nat) (x : Engine) : (s.setEngine a e x).lineReqs = s.lineReqs := rfl
@[simp] theorem State.setEngine_unsent (s : State) (a e : Nat) (x : Engine) : (s.setEngine a e x).unsent = s.unsent := rfl
@[simp] theorem State.setEngine_flight (s : State) (a e : Nat) (x : Engine) : (s.setEngine a e x).flight = s.flight := rfl
@[simp] theorem State.setEngine_quadBar (s : State) (a e : Nat) (x : Engine) : (s.setEngine a e x).quadBar = s.quadBar := rfl
@[simp] theorem State.setEngine_dieBar (s : State) (a e : Nat) (x : Engine) : (s.setEngine a e x).dieBar = s.dieBar := rfl
@[simp] theorem State.setEngine_dir (s : State) (a e : Nat) (x : Engine) : (s.setEngine a e x).dir = s.dir := rfl
@[simp] theorem State.setEngine_dirty (s : State) (a e : Nat) (x : Engine) : (s.setEngine a e x).dirty = s.dirty := rfl
@[simp] theorem State.setEngine_holds (s : State) (a e : Nat) (x : Engine) : (s.setEngine a e x).holds = s.holds := rfl
@[simp] theorem State.setEngine_tags (s : State) (a e : Nat) (x : Engine) : (s.setEngine a e x).tags = s.tags := rfl
@[simp] theorem State.setEngine_victims (s : State) (a e : Nat) (x : Engine) : (s.setEngine a e x).victims = s.victims := rfl
@[simp] theorem State.setEngine_fills (s : State) (a e : Nat) (x : Engine) : (s.setEngine a e x).fills = s.fills := rfl
@[simp] theorem State.setEngine_tasks (s : State) (a e : Nat) (x : Engine) : (s.setEngine a e x).tasks = s.tasks := rfl
@[simp] theorem State.setEngine_devHeld (s : State) (a e : Nat) (x : Engine) : (s.setEngine a e x).devHeld = s.devHeld := rfl
@[simp] theorem State.setEngine_regs (s : State) (a e : Nat) (x : Engine) : (s.setEngine a e x).regs = s.regs := rfl
@[simp] theorem State.setEngine_nextReg (s : State) (a e : Nat) (x : Engine) : (s.setEngine a e x).nextReg = s.nextReg := rfl
@[simp] theorem State.setEngine_blocks (s : State) (a e : Nat) (x : Engine) : (s.setEngine a e x).blocks = s.blocks := rfl
@[simp] theorem State.setEngine_blockSnaps (s : State) (a e : Nat) (x : Engine) : (s.setEngine a e x).blockSnaps = s.blockSnaps := rfl
@[simp] theorem State.setEngine_frecSnaps (s : State) (a e : Nat) (x : Engine) : (s.setEngine a e x).frecSnaps = s.frecSnaps := rfl
@[simp] theorem State.setEngine_posted (s : State) (a e : Nat) (x : Engine) : (s.setEngine a e x).posted = s.posted := rfl
@[simp] theorem State.setEngine_rows (s : State) (a e : Nat) (x : Engine) : (s.setEngine a e x).rows = s.rows := rfl
@[simp] theorem State.setEngine_deadRails (s : State) (a e : Nat) (x : Engine) : (s.setEngine a e x).deadRails = s.deadRails := rfl
@[simp] theorem State.setEngine_hostBias (s : State) (a e : Nat) (x : Engine) : (s.setEngine a e x).hostBias = s.hostBias := rfl
@[simp] theorem State.setEngine_hostGot (s : State) (a e : Nat) (x : Engine) : (s.setEngine a e x).hostGot = s.hostGot := rfl
@[simp] theorem State.setEngine_flips (s : State) (a e : Nat) (x : Engine) : (s.setEngine a e x).flips = s.flips := rfl
@[simp] theorem State.setEngine_rate (s : State) (a e : Nat) (x : Engine) : (s.setEngine a e x).rate = s.rate := rfl
@[simp] theorem State.setEngine_temps (s : State) (a e : Nat) (x : Engine) : (s.setEngine a e x).temps = s.temps := rfl
@[simp] theorem State.setEngine_flowLost (s : State) (a e : Nat) (x : Engine) : (s.setEngine a e x).flowLost = s.flowLost := rfl
@[simp] theorem State.setEngine_debugOpen (s : State) (a e : Nat) (x : Engine) : (s.setEngine a e x).debugOpen = s.debugOpen := rfl
@[simp] theorem State.setEngine_measurement (s : State) (a e : Nat) (x : Engine) : (s.setEngine a e x).measurement = s.measurement := rfl
@[simp] theorem State.setEngine_faultLow (s : State) (a e : Nat) (x : Engine) : (s.setEngine a e x).faultLow = s.faultLow := rfl
@[simp] theorem State.setEngine_mgmtOut (s : State) (a e : Nat) (x : Engine) : (s.setEngine a e x).mgmtOut = s.mgmtOut := rfl
@[simp] theorem State.setEngine_hostOut (s : State) (a e : Nat) (x : Engine) : (s.setEngine a e x).hostOut = s.hostOut := rfl
@[simp] theorem State.setEngine_userBound (s : State) (a e : Nat) (x : Engine) : (s.setEngine a e x).userBound = s.userBound := rfl
@[simp] theorem State.setEngine_sched (s : State) (a e : Nat) (x : Engine) : (s.setEngine a e x).sched = s.sched := rfl
@[simp] theorem State.setEngine_cur (s : State) (a e : Nat) (x : Engine) : (s.setEngine a e x).cur = s.cur := rfl
@[simp] theorem State.setEngine_lead (s : State) (a e : Nat) (x : Engine) : (s.setEngine a e x).lead = s.lead := rfl
@[simp] theorem State.setEngine_fresh (s : State) (a e : Nat) (x : Engine) : (s.setEngine a e x).fresh = s.fresh := rfl
@[simp] theorem State.setEngine_order (s : State) (a e : Nat) (x : Engine) : (s.setEngine a e x).order = s.order := rfl
@[simp] theorem State.setBlock_cyc (s : State) (r b : Nat) (x : ViewBlock) : (s.setBlock r b x).cyc = s.cyc := rfl
@[simp] theorem State.setBlock_harts (s : State) (r b : Nat) (x : ViewBlock) : (s.setBlock r b x).harts = s.harts := rfl
@[simp] theorem State.setBlock_mem (s : State) (r b : Nat) (x : ViewBlock) : (s.setBlock r b x).mem = s.mem := rfl
@[simp] theorem State.setBlock_poison (s : State) (r b : Nat) (x : ViewBlock) : (s.setBlock r b x).poison = s.poison := rfl
@[simp] theorem State.setBlock_lanePoison (s : State) (r b : Nat) (x : ViewBlock) : (s.setBlock r b x).lanePoison = s.lanePoison := rfl
@[simp] theorem State.setBlock_hubs (s : State) (r b : Nat) (x : ViewBlock) : (s.setBlock r b x).hubs = s.hubs := rfl
@[simp] theorem State.setBlock_cores (s : State) (r b : Nat) (x : ViewBlock) : (s.setBlock r b x).cores = s.cores := rfl
@[simp] theorem State.setBlock_clocks (s : State) (r b : Nat) (x : ViewBlock) : (s.setBlock r b x).clocks = s.clocks := rfl
@[simp] theorem State.setBlock_rsn (s : State) (r b : Nat) (x : ViewBlock) : (s.setBlock r b x).rsn = s.rsn := rfl
@[simp] theorem State.setBlock_removed (s : State) (r b : Nat) (x : ViewBlock) : (s.setBlock r b x).removed = s.removed := rfl
@[simp] theorem State.setBlock_resync (s : State) (r b : Nat) (x : ViewBlock) : (s.setBlock r b x).resync = s.resync := rfl
@[simp] theorem State.setBlock_lateFence (s : State) (r b : Nat) (x : ViewBlock) : (s.setBlock r b x).lateFence = s.lateFence := rfl
@[simp] theorem State.setBlock_imgOut (s : State) (r b : Nat) (x : ViewBlock) : (s.setBlock r b x).imgOut = s.imgOut := rfl
@[simp] theorem State.setBlock_arrivals (s : State) (r b : Nat) (x : ViewBlock) : (s.setBlock r b x).arrivals = s.arrivals := rfl
@[simp] theorem State.setBlock_fuses (s : State) (r b : Nat) (x : ViewBlock) : (s.setBlock r b x).fuses = s.fuses := rfl
@[simp] theorem State.setBlock_places (s : State) (r b : Nat) (x : ViewBlock) : (s.setBlock r b x).places = s.places := rfl
@[simp] theorem State.setBlock_resyncAt (s : State) (r b : Nat) (x : ViewBlock) : (s.setBlock r b x).resyncAt = s.resyncAt := rfl
@[simp] theorem State.setBlock_grants (s : State) (r b : Nat) (x : ViewBlock) : (s.setBlock r b x).grants = s.grants := rfl
@[simp] theorem State.setBlock_badCopies (s : State) (r b : Nat) (x : ViewBlock) : (s.setBlock r b x).badCopies = s.badCopies := rfl
@[simp] theorem State.setBlock_goodCopies (s : State) (r b : Nat) (x : ViewBlock) : (s.setBlock r b x).goodCopies = s.goodCopies := rfl
@[simp] theorem State.setBlock_ueOut (s : State) (r b : Nat) (x : ViewBlock) : (s.setBlock r b x).ueOut = s.ueOut := rfl
@[simp] theorem State.setBlock_hostHeld (s : State) (r b : Nat) (x : ViewBlock) : (s.setBlock r b x).hostHeld = s.hostHeld := rfl
@[simp] theorem State.setBlock_lineReqs (s : State) (r b : Nat) (x : ViewBlock) : (s.setBlock r b x).lineReqs = s.lineReqs := rfl
@[simp] theorem State.setBlock_unsent (s : State) (r b : Nat) (x : ViewBlock) : (s.setBlock r b x).unsent = s.unsent := rfl
@[simp] theorem State.setBlock_flight (s : State) (r b : Nat) (x : ViewBlock) : (s.setBlock r b x).flight = s.flight := rfl
@[simp] theorem State.setBlock_quadBar (s : State) (r b : Nat) (x : ViewBlock) : (s.setBlock r b x).quadBar = s.quadBar := rfl
@[simp] theorem State.setBlock_dieBar (s : State) (r b : Nat) (x : ViewBlock) : (s.setBlock r b x).dieBar = s.dieBar := rfl
@[simp] theorem State.setBlock_dir (s : State) (r b : Nat) (x : ViewBlock) : (s.setBlock r b x).dir = s.dir := rfl
@[simp] theorem State.setBlock_dirty (s : State) (r b : Nat) (x : ViewBlock) : (s.setBlock r b x).dirty = s.dirty := rfl
@[simp] theorem State.setBlock_holds (s : State) (r b : Nat) (x : ViewBlock) : (s.setBlock r b x).holds = s.holds := rfl
@[simp] theorem State.setBlock_tags (s : State) (r b : Nat) (x : ViewBlock) : (s.setBlock r b x).tags = s.tags := rfl
@[simp] theorem State.setBlock_victims (s : State) (r b : Nat) (x : ViewBlock) : (s.setBlock r b x).victims = s.victims := rfl
@[simp] theorem State.setBlock_fills (s : State) (r b : Nat) (x : ViewBlock) : (s.setBlock r b x).fills = s.fills := rfl
@[simp] theorem State.setBlock_engines (s : State) (r b : Nat) (x : ViewBlock) : (s.setBlock r b x).engines = s.engines := rfl
@[simp] theorem State.setBlock_tasks (s : State) (r b : Nat) (x : ViewBlock) : (s.setBlock r b x).tasks = s.tasks := rfl
@[simp] theorem State.setBlock_devHeld (s : State) (r b : Nat) (x : ViewBlock) : (s.setBlock r b x).devHeld = s.devHeld := rfl
@[simp] theorem State.setBlock_regs (s : State) (r b : Nat) (x : ViewBlock) : (s.setBlock r b x).regs = s.regs := rfl
@[simp] theorem State.setBlock_nextReg (s : State) (r b : Nat) (x : ViewBlock) : (s.setBlock r b x).nextReg = s.nextReg := rfl
@[simp] theorem State.setBlock_blockSnaps (s : State) (r b : Nat) (x : ViewBlock) : (s.setBlock r b x).blockSnaps = s.blockSnaps := rfl
@[simp] theorem State.setBlock_frecSnaps (s : State) (r b : Nat) (x : ViewBlock) : (s.setBlock r b x).frecSnaps = s.frecSnaps := rfl
@[simp] theorem State.setBlock_posted (s : State) (r b : Nat) (x : ViewBlock) : (s.setBlock r b x).posted = s.posted := rfl
@[simp] theorem State.setBlock_rows (s : State) (r b : Nat) (x : ViewBlock) : (s.setBlock r b x).rows = s.rows := rfl
@[simp] theorem State.setBlock_deadRails (s : State) (r b : Nat) (x : ViewBlock) : (s.setBlock r b x).deadRails = s.deadRails := rfl
@[simp] theorem State.setBlock_hostBias (s : State) (r b : Nat) (x : ViewBlock) : (s.setBlock r b x).hostBias = s.hostBias := rfl
@[simp] theorem State.setBlock_hostGot (s : State) (r b : Nat) (x : ViewBlock) : (s.setBlock r b x).hostGot = s.hostGot := rfl
@[simp] theorem State.setBlock_flips (s : State) (r b : Nat) (x : ViewBlock) : (s.setBlock r b x).flips = s.flips := rfl
@[simp] theorem State.setBlock_rate (s : State) (r b : Nat) (x : ViewBlock) : (s.setBlock r b x).rate = s.rate := rfl
@[simp] theorem State.setBlock_temps (s : State) (r b : Nat) (x : ViewBlock) : (s.setBlock r b x).temps = s.temps := rfl
@[simp] theorem State.setBlock_flowLost (s : State) (r b : Nat) (x : ViewBlock) : (s.setBlock r b x).flowLost = s.flowLost := rfl
@[simp] theorem State.setBlock_debugOpen (s : State) (r b : Nat) (x : ViewBlock) : (s.setBlock r b x).debugOpen = s.debugOpen := rfl
@[simp] theorem State.setBlock_measurement (s : State) (r b : Nat) (x : ViewBlock) : (s.setBlock r b x).measurement = s.measurement := rfl
@[simp] theorem State.setBlock_faultLow (s : State) (r b : Nat) (x : ViewBlock) : (s.setBlock r b x).faultLow = s.faultLow := rfl
@[simp] theorem State.setBlock_mgmtOut (s : State) (r b : Nat) (x : ViewBlock) : (s.setBlock r b x).mgmtOut = s.mgmtOut := rfl
@[simp] theorem State.setBlock_hostOut (s : State) (r b : Nat) (x : ViewBlock) : (s.setBlock r b x).hostOut = s.hostOut := rfl
@[simp] theorem State.setBlock_userBound (s : State) (r b : Nat) (x : ViewBlock) : (s.setBlock r b x).userBound = s.userBound := rfl
@[simp] theorem State.setBlock_sched (s : State) (r b : Nat) (x : ViewBlock) : (s.setBlock r b x).sched = s.sched := rfl
@[simp] theorem State.setBlock_cur (s : State) (r b : Nat) (x : ViewBlock) : (s.setBlock r b x).cur = s.cur := rfl
@[simp] theorem State.setBlock_lead (s : State) (r b : Nat) (x : ViewBlock) : (s.setBlock r b x).lead = s.lead := rfl
@[simp] theorem State.setBlock_fresh (s : State) (r b : Nat) (x : ViewBlock) : (s.setBlock r b x).fresh = s.fresh := rfl
@[simp] theorem State.setBlock_order (s : State) (r b : Nat) (x : ViewBlock) : (s.setBlock r b x).order = s.order := rfl
@[simp] theorem State.modTask_cyc (s : State) (k : Nat) (f : Task → Task) : (s.modTask k f).cyc = s.cyc := rfl
@[simp] theorem State.modTask_harts (s : State) (k : Nat) (f : Task → Task) : (s.modTask k f).harts = s.harts := rfl
@[simp] theorem State.modTask_mem (s : State) (k : Nat) (f : Task → Task) : (s.modTask k f).mem = s.mem := rfl
@[simp] theorem State.modTask_poison (s : State) (k : Nat) (f : Task → Task) : (s.modTask k f).poison = s.poison := rfl
@[simp] theorem State.modTask_lanePoison (s : State) (k : Nat) (f : Task → Task) : (s.modTask k f).lanePoison = s.lanePoison := rfl
@[simp] theorem State.modTask_hubs (s : State) (k : Nat) (f : Task → Task) : (s.modTask k f).hubs = s.hubs := rfl
@[simp] theorem State.modTask_cores (s : State) (k : Nat) (f : Task → Task) : (s.modTask k f).cores = s.cores := rfl
@[simp] theorem State.modTask_clocks (s : State) (k : Nat) (f : Task → Task) : (s.modTask k f).clocks = s.clocks := rfl
@[simp] theorem State.modTask_rsn (s : State) (k : Nat) (f : Task → Task) : (s.modTask k f).rsn = s.rsn := rfl
@[simp] theorem State.modTask_removed (s : State) (k : Nat) (f : Task → Task) : (s.modTask k f).removed = s.removed := rfl
@[simp] theorem State.modTask_resync (s : State) (k : Nat) (f : Task → Task) : (s.modTask k f).resync = s.resync := rfl
@[simp] theorem State.modTask_lateFence (s : State) (k : Nat) (f : Task → Task) : (s.modTask k f).lateFence = s.lateFence := rfl
@[simp] theorem State.modTask_imgOut (s : State) (k : Nat) (f : Task → Task) : (s.modTask k f).imgOut = s.imgOut := rfl
@[simp] theorem State.modTask_arrivals (s : State) (k : Nat) (f : Task → Task) : (s.modTask k f).arrivals = s.arrivals := rfl
@[simp] theorem State.modTask_fuses (s : State) (k : Nat) (f : Task → Task) : (s.modTask k f).fuses = s.fuses := rfl
@[simp] theorem State.modTask_places (s : State) (k : Nat) (f : Task → Task) : (s.modTask k f).places = s.places := rfl
@[simp] theorem State.modTask_resyncAt (s : State) (k : Nat) (f : Task → Task) : (s.modTask k f).resyncAt = s.resyncAt := rfl
@[simp] theorem State.modTask_grants (s : State) (k : Nat) (f : Task → Task) : (s.modTask k f).grants = s.grants := rfl
@[simp] theorem State.modTask_badCopies (s : State) (k : Nat) (f : Task → Task) : (s.modTask k f).badCopies = s.badCopies := rfl
@[simp] theorem State.modTask_goodCopies (s : State) (k : Nat) (f : Task → Task) : (s.modTask k f).goodCopies = s.goodCopies := rfl
@[simp] theorem State.modTask_ueOut (s : State) (k : Nat) (f : Task → Task) : (s.modTask k f).ueOut = s.ueOut := rfl
@[simp] theorem State.modTask_hostHeld (s : State) (k : Nat) (f : Task → Task) : (s.modTask k f).hostHeld = s.hostHeld := rfl
@[simp] theorem State.modTask_lineReqs (s : State) (k : Nat) (f : Task → Task) : (s.modTask k f).lineReqs = s.lineReqs := rfl
@[simp] theorem State.modTask_unsent (s : State) (k : Nat) (f : Task → Task) : (s.modTask k f).unsent = s.unsent := rfl
@[simp] theorem State.modTask_flight (s : State) (k : Nat) (f : Task → Task) : (s.modTask k f).flight = s.flight := rfl
@[simp] theorem State.modTask_quadBar (s : State) (k : Nat) (f : Task → Task) : (s.modTask k f).quadBar = s.quadBar := rfl
@[simp] theorem State.modTask_dieBar (s : State) (k : Nat) (f : Task → Task) : (s.modTask k f).dieBar = s.dieBar := rfl
@[simp] theorem State.modTask_dir (s : State) (k : Nat) (f : Task → Task) : (s.modTask k f).dir = s.dir := rfl
@[simp] theorem State.modTask_dirty (s : State) (k : Nat) (f : Task → Task) : (s.modTask k f).dirty = s.dirty := rfl
@[simp] theorem State.modTask_holds (s : State) (k : Nat) (f : Task → Task) : (s.modTask k f).holds = s.holds := rfl
@[simp] theorem State.modTask_tags (s : State) (k : Nat) (f : Task → Task) : (s.modTask k f).tags = s.tags := rfl
@[simp] theorem State.modTask_victims (s : State) (k : Nat) (f : Task → Task) : (s.modTask k f).victims = s.victims := rfl
@[simp] theorem State.modTask_fills (s : State) (k : Nat) (f : Task → Task) : (s.modTask k f).fills = s.fills := rfl
@[simp] theorem State.modTask_engines (s : State) (k : Nat) (f : Task → Task) : (s.modTask k f).engines = s.engines := rfl
@[simp] theorem State.modTask_devHeld (s : State) (k : Nat) (f : Task → Task) : (s.modTask k f).devHeld = s.devHeld := rfl
@[simp] theorem State.modTask_regs (s : State) (k : Nat) (f : Task → Task) : (s.modTask k f).regs = s.regs := rfl
@[simp] theorem State.modTask_nextReg (s : State) (k : Nat) (f : Task → Task) : (s.modTask k f).nextReg = s.nextReg := rfl
@[simp] theorem State.modTask_blocks (s : State) (k : Nat) (f : Task → Task) : (s.modTask k f).blocks = s.blocks := rfl
@[simp] theorem State.modTask_blockSnaps (s : State) (k : Nat) (f : Task → Task) : (s.modTask k f).blockSnaps = s.blockSnaps := rfl
@[simp] theorem State.modTask_frecSnaps (s : State) (k : Nat) (f : Task → Task) : (s.modTask k f).frecSnaps = s.frecSnaps := rfl
@[simp] theorem State.modTask_posted (s : State) (k : Nat) (f : Task → Task) : (s.modTask k f).posted = s.posted := rfl
@[simp] theorem State.modTask_rows (s : State) (k : Nat) (f : Task → Task) : (s.modTask k f).rows = s.rows := rfl
@[simp] theorem State.modTask_deadRails (s : State) (k : Nat) (f : Task → Task) : (s.modTask k f).deadRails = s.deadRails := rfl
@[simp] theorem State.modTask_hostBias (s : State) (k : Nat) (f : Task → Task) : (s.modTask k f).hostBias = s.hostBias := rfl
@[simp] theorem State.modTask_hostGot (s : State) (k : Nat) (f : Task → Task) : (s.modTask k f).hostGot = s.hostGot := rfl
@[simp] theorem State.modTask_flips (s : State) (k : Nat) (f : Task → Task) : (s.modTask k f).flips = s.flips := rfl
@[simp] theorem State.modTask_rate (s : State) (k : Nat) (f : Task → Task) : (s.modTask k f).rate = s.rate := rfl
@[simp] theorem State.modTask_temps (s : State) (k : Nat) (f : Task → Task) : (s.modTask k f).temps = s.temps := rfl
@[simp] theorem State.modTask_flowLost (s : State) (k : Nat) (f : Task → Task) : (s.modTask k f).flowLost = s.flowLost := rfl
@[simp] theorem State.modTask_debugOpen (s : State) (k : Nat) (f : Task → Task) : (s.modTask k f).debugOpen = s.debugOpen := rfl
@[simp] theorem State.modTask_measurement (s : State) (k : Nat) (f : Task → Task) : (s.modTask k f).measurement = s.measurement := rfl
@[simp] theorem State.modTask_faultLow (s : State) (k : Nat) (f : Task → Task) : (s.modTask k f).faultLow = s.faultLow := rfl
@[simp] theorem State.modTask_mgmtOut (s : State) (k : Nat) (f : Task → Task) : (s.modTask k f).mgmtOut = s.mgmtOut := rfl
@[simp] theorem State.modTask_hostOut (s : State) (k : Nat) (f : Task → Task) : (s.modTask k f).hostOut = s.hostOut := rfl
@[simp] theorem State.modTask_userBound (s : State) (k : Nat) (f : Task → Task) : (s.modTask k f).userBound = s.userBound := rfl
@[simp] theorem State.modTask_sched (s : State) (k : Nat) (f : Task → Task) : (s.modTask k f).sched = s.sched := rfl
@[simp] theorem State.modTask_cur (s : State) (k : Nat) (f : Task → Task) : (s.modTask k f).cur = s.cur := rfl
@[simp] theorem State.modTask_lead (s : State) (k : Nat) (f : Task → Task) : (s.modTask k f).lead = s.lead := rfl
@[simp] theorem State.modTask_fresh (s : State) (k : Nat) (f : Task → Task) : (s.modTask k f).fresh = s.fresh := rfl
@[simp] theorem State.modTask_order (s : State) (k : Nat) (f : Task → Task) : (s.modTask k f).order = s.order := rfl
@[simp] theorem State.poke_cyc (s : State) (pa : Nat) (bs : List Byte) : (s.poke pa bs).cyc = s.cyc := rfl
@[simp] theorem State.poke_harts (s : State) (pa : Nat) (bs : List Byte) : (s.poke pa bs).harts = s.harts := rfl
@[simp] theorem State.poke_poison (s : State) (pa : Nat) (bs : List Byte) : (s.poke pa bs).poison = s.poison := rfl
@[simp] theorem State.poke_lanePoison (s : State) (pa : Nat) (bs : List Byte) : (s.poke pa bs).lanePoison = s.lanePoison := rfl
@[simp] theorem State.poke_hubs (s : State) (pa : Nat) (bs : List Byte) : (s.poke pa bs).hubs = s.hubs := rfl
@[simp] theorem State.poke_cores (s : State) (pa : Nat) (bs : List Byte) : (s.poke pa bs).cores = s.cores := rfl
@[simp] theorem State.poke_clocks (s : State) (pa : Nat) (bs : List Byte) : (s.poke pa bs).clocks = s.clocks := rfl
@[simp] theorem State.poke_rsn (s : State) (pa : Nat) (bs : List Byte) : (s.poke pa bs).rsn = s.rsn := rfl
@[simp] theorem State.poke_removed (s : State) (pa : Nat) (bs : List Byte) : (s.poke pa bs).removed = s.removed := rfl
@[simp] theorem State.poke_resync (s : State) (pa : Nat) (bs : List Byte) : (s.poke pa bs).resync = s.resync := rfl
@[simp] theorem State.poke_lateFence (s : State) (pa : Nat) (bs : List Byte) : (s.poke pa bs).lateFence = s.lateFence := rfl
@[simp] theorem State.poke_imgOut (s : State) (pa : Nat) (bs : List Byte) : (s.poke pa bs).imgOut = s.imgOut := rfl
@[simp] theorem State.poke_arrivals (s : State) (pa : Nat) (bs : List Byte) : (s.poke pa bs).arrivals = s.arrivals := rfl
@[simp] theorem State.poke_fuses (s : State) (pa : Nat) (bs : List Byte) : (s.poke pa bs).fuses = s.fuses := rfl
@[simp] theorem State.poke_places (s : State) (pa : Nat) (bs : List Byte) : (s.poke pa bs).places = s.places := rfl
@[simp] theorem State.poke_resyncAt (s : State) (pa : Nat) (bs : List Byte) : (s.poke pa bs).resyncAt = s.resyncAt := rfl
@[simp] theorem State.poke_grants (s : State) (pa : Nat) (bs : List Byte) : (s.poke pa bs).grants = s.grants := rfl
@[simp] theorem State.poke_badCopies (s : State) (pa : Nat) (bs : List Byte) : (s.poke pa bs).badCopies = s.badCopies := rfl
@[simp] theorem State.poke_goodCopies (s : State) (pa : Nat) (bs : List Byte) : (s.poke pa bs).goodCopies = s.goodCopies := rfl
@[simp] theorem State.poke_ueOut (s : State) (pa : Nat) (bs : List Byte) : (s.poke pa bs).ueOut = s.ueOut := rfl
@[simp] theorem State.poke_hostHeld (s : State) (pa : Nat) (bs : List Byte) : (s.poke pa bs).hostHeld = s.hostHeld := rfl
@[simp] theorem State.poke_lineReqs (s : State) (pa : Nat) (bs : List Byte) : (s.poke pa bs).lineReqs = s.lineReqs := rfl
@[simp] theorem State.poke_unsent (s : State) (pa : Nat) (bs : List Byte) : (s.poke pa bs).unsent = s.unsent := rfl
@[simp] theorem State.poke_flight (s : State) (pa : Nat) (bs : List Byte) : (s.poke pa bs).flight = s.flight := rfl
@[simp] theorem State.poke_quadBar (s : State) (pa : Nat) (bs : List Byte) : (s.poke pa bs).quadBar = s.quadBar := rfl
@[simp] theorem State.poke_dieBar (s : State) (pa : Nat) (bs : List Byte) : (s.poke pa bs).dieBar = s.dieBar := rfl
@[simp] theorem State.poke_dir (s : State) (pa : Nat) (bs : List Byte) : (s.poke pa bs).dir = s.dir := rfl
@[simp] theorem State.poke_dirty (s : State) (pa : Nat) (bs : List Byte) : (s.poke pa bs).dirty = s.dirty := rfl
@[simp] theorem State.poke_holds (s : State) (pa : Nat) (bs : List Byte) : (s.poke pa bs).holds = s.holds := rfl
@[simp] theorem State.poke_tags (s : State) (pa : Nat) (bs : List Byte) : (s.poke pa bs).tags = s.tags := rfl
@[simp] theorem State.poke_victims (s : State) (pa : Nat) (bs : List Byte) : (s.poke pa bs).victims = s.victims := rfl
@[simp] theorem State.poke_fills (s : State) (pa : Nat) (bs : List Byte) : (s.poke pa bs).fills = s.fills := rfl
@[simp] theorem State.poke_engines (s : State) (pa : Nat) (bs : List Byte) : (s.poke pa bs).engines = s.engines := rfl
@[simp] theorem State.poke_tasks (s : State) (pa : Nat) (bs : List Byte) : (s.poke pa bs).tasks = s.tasks := rfl
@[simp] theorem State.poke_devHeld (s : State) (pa : Nat) (bs : List Byte) : (s.poke pa bs).devHeld = s.devHeld := rfl
@[simp] theorem State.poke_regs (s : State) (pa : Nat) (bs : List Byte) : (s.poke pa bs).regs = s.regs := rfl
@[simp] theorem State.poke_nextReg (s : State) (pa : Nat) (bs : List Byte) : (s.poke pa bs).nextReg = s.nextReg := rfl
@[simp] theorem State.poke_blocks (s : State) (pa : Nat) (bs : List Byte) : (s.poke pa bs).blocks = s.blocks := rfl
@[simp] theorem State.poke_blockSnaps (s : State) (pa : Nat) (bs : List Byte) : (s.poke pa bs).blockSnaps = s.blockSnaps := rfl
@[simp] theorem State.poke_frecSnaps (s : State) (pa : Nat) (bs : List Byte) : (s.poke pa bs).frecSnaps = s.frecSnaps := rfl
@[simp] theorem State.poke_posted (s : State) (pa : Nat) (bs : List Byte) : (s.poke pa bs).posted = s.posted := rfl
@[simp] theorem State.poke_rows (s : State) (pa : Nat) (bs : List Byte) : (s.poke pa bs).rows = s.rows := rfl
@[simp] theorem State.poke_deadRails (s : State) (pa : Nat) (bs : List Byte) : (s.poke pa bs).deadRails = s.deadRails := rfl
@[simp] theorem State.poke_hostBias (s : State) (pa : Nat) (bs : List Byte) : (s.poke pa bs).hostBias = s.hostBias := rfl
@[simp] theorem State.poke_hostGot (s : State) (pa : Nat) (bs : List Byte) : (s.poke pa bs).hostGot = s.hostGot := rfl
@[simp] theorem State.poke_flips (s : State) (pa : Nat) (bs : List Byte) : (s.poke pa bs).flips = s.flips := rfl
@[simp] theorem State.poke_rate (s : State) (pa : Nat) (bs : List Byte) : (s.poke pa bs).rate = s.rate := rfl
@[simp] theorem State.poke_temps (s : State) (pa : Nat) (bs : List Byte) : (s.poke pa bs).temps = s.temps := rfl
@[simp] theorem State.poke_flowLost (s : State) (pa : Nat) (bs : List Byte) : (s.poke pa bs).flowLost = s.flowLost := rfl
@[simp] theorem State.poke_debugOpen (s : State) (pa : Nat) (bs : List Byte) : (s.poke pa bs).debugOpen = s.debugOpen := rfl
@[simp] theorem State.poke_measurement (s : State) (pa : Nat) (bs : List Byte) : (s.poke pa bs).measurement = s.measurement := rfl
@[simp] theorem State.poke_faultLow (s : State) (pa : Nat) (bs : List Byte) : (s.poke pa bs).faultLow = s.faultLow := rfl
@[simp] theorem State.poke_mgmtOut (s : State) (pa : Nat) (bs : List Byte) : (s.poke pa bs).mgmtOut = s.mgmtOut := rfl
@[simp] theorem State.poke_hostOut (s : State) (pa : Nat) (bs : List Byte) : (s.poke pa bs).hostOut = s.hostOut := rfl
@[simp] theorem State.poke_userBound (s : State) (pa : Nat) (bs : List Byte) : (s.poke pa bs).userBound = s.userBound := rfl
@[simp] theorem State.poke_sched (s : State) (pa : Nat) (bs : List Byte) : (s.poke pa bs).sched = s.sched := rfl
@[simp] theorem State.poke_cur (s : State) (pa : Nat) (bs : List Byte) : (s.poke pa bs).cur = s.cur := rfl
@[simp] theorem State.poke_lead (s : State) (pa : Nat) (bs : List Byte) : (s.poke pa bs).lead = s.lead := rfl
@[simp] theorem State.poke_fresh (s : State) (pa : Nat) (bs : List Byte) : (s.poke pa bs).fresh = s.fresh := rfl
@[simp] theorem State.poke_order (s : State) (pa : Nat) (bs : List Byte) : (s.poke pa bs).order = s.order := rfl

/-- A frame's tag record goes alone. -/
theorem State.freeTag_rest (s : State) (f : Nat) : s.freeTag f = { s with tags := (s.freeTag f).tags } := by
  unfold State.freeTag
  split <;> rfl
@[simp] theorem State.freeTag_dir (s : State) (f : Nat) : (s.freeTag f).dir = s.dir := by rw [s.freeTag_rest f]
@[simp] theorem State.freeTag_dirty (s : State) (f : Nat) : (s.freeTag f).dirty = s.dirty := by rw [s.freeTag_rest f]
/-- What a change of a line's directory state touches. -/
theorem State.setDir_rest (s : State) (l : Nat) (d : DirSt) : s.setDir l d = 
    { s with dir := (s.setDir l d).dir, dirty := (s.setDir l d).dirty, tags := (s.setDir l d).tags } := by
  unfold State.setDir
  by_cases h : ((s.dirOf l).heldByDie && !d.heldByDie) = true
  · simp only [h, if_true, State.freeTag_dir, State.freeTag_dirty]
    exact State.freeTag_rest _ _
  · simp only [h]
    rfl
@[simp] theorem State.countCore_cyc (s : State) (c k n : Nat) : (s.countCore c k n).cyc = s.cyc := rfl
@[simp] theorem State.countCore_harts (s : State) (c k n : Nat) : (s.countCore c k n).harts = s.harts := rfl
@[simp] theorem State.countCore_mem (s : State) (c k n : Nat) : (s.countCore c k n).mem = s.mem := rfl
@[simp] theorem State.countCore_poison (s : State) (c k n : Nat) : (s.countCore c k n).poison = s.poison := rfl
@[simp] theorem State.countCore_lanePoison (s : State) (c k n : Nat) : (s.countCore c k n).lanePoison = s.lanePoison := rfl
@[simp] theorem State.countCore_hubs (s : State) (c k n : Nat) : (s.countCore c k n).hubs = s.hubs := rfl
@[simp] theorem State.countCore_clocks (s : State) (c k n : Nat) : (s.countCore c k n).clocks = s.clocks := rfl
@[simp] theorem State.countCore_rsn (s : State) (c k n : Nat) : (s.countCore c k n).rsn = s.rsn := rfl
@[simp] theorem State.countCore_removed (s : State) (c k n : Nat) : (s.countCore c k n).removed = s.removed := rfl
@[simp] theorem State.countCore_resync (s : State) (c k n : Nat) : (s.countCore c k n).resync = s.resync := rfl
@[simp] theorem State.countCore_lateFence (s : State) (c k n : Nat) : (s.countCore c k n).lateFence = s.lateFence := rfl
@[simp] theorem State.countCore_imgOut (s : State) (c k n : Nat) : (s.countCore c k n).imgOut = s.imgOut := rfl
@[simp] theorem State.countCore_arrivals (s : State) (c k n : Nat) : (s.countCore c k n).arrivals = s.arrivals := rfl
@[simp] theorem State.countCore_fuses (s : State) (c k n : Nat) : (s.countCore c k n).fuses = s.fuses := rfl
@[simp] theorem State.countCore_places (s : State) (c k n : Nat) : (s.countCore c k n).places = s.places := rfl
@[simp] theorem State.countCore_resyncAt (s : State) (c k n : Nat) : (s.countCore c k n).resyncAt = s.resyncAt := rfl
@[simp] theorem State.countCore_grants (s : State) (c k n : Nat) : (s.countCore c k n).grants = s.grants := rfl
@[simp] theorem State.countCore_badCopies (s : State) (c k n : Nat) : (s.countCore c k n).badCopies = s.badCopies := rfl
@[simp] theorem State.countCore_goodCopies (s : State) (c k n : Nat) : (s.countCore c k n).goodCopies = s.goodCopies := rfl
@[simp] theorem State.countCore_ueOut (s : State) (c k n : Nat) : (s.countCore c k n).ueOut = s.ueOut := rfl
@[simp] theorem State.countCore_hostHeld (s : State) (c k n : Nat) : (s.countCore c k n).hostHeld = s.hostHeld := rfl
@[simp] theorem State.countCore_lineReqs (s : State) (c k n : Nat) : (s.countCore c k n).lineReqs = s.lineReqs := rfl
@[simp] theorem State.countCore_unsent (s : State) (c k n : Nat) : (s.countCore c k n).unsent = s.unsent := rfl
@[simp] theorem State.countCore_flight (s : State) (c k n : Nat) : (s.countCore c k n).flight = s.flight := rfl
@[simp] theorem State.countCore_quadBar (s : State) (c k n : Nat) : (s.countCore c k n).quadBar = s.quadBar := rfl
@[simp] theorem State.countCore_dieBar (s : State) (c k n : Nat) : (s.countCore c k n).dieBar = s.dieBar := rfl
@[simp] theorem State.countCore_dir (s : State) (c k n : Nat) : (s.countCore c k n).dir = s.dir := rfl
@[simp] theorem State.countCore_dirty (s : State) (c k n : Nat) : (s.countCore c k n).dirty = s.dirty := rfl
@[simp] theorem State.countCore_holds (s : State) (c k n : Nat) : (s.countCore c k n).holds = s.holds := rfl
@[simp] theorem State.countCore_tags (s : State) (c k n : Nat) : (s.countCore c k n).tags = s.tags := rfl
@[simp] theorem State.countCore_victims (s : State) (c k n : Nat) : (s.countCore c k n).victims = s.victims := rfl
@[simp] theorem State.countCore_fills (s : State) (c k n : Nat) : (s.countCore c k n).fills = s.fills := rfl
@[simp] theorem State.countCore_engines (s : State) (c k n : Nat) : (s.countCore c k n).engines = s.engines := rfl
@[simp] theorem State.countCore_tasks (s : State) (c k n : Nat) : (s.countCore c k n).tasks = s.tasks := rfl
@[simp] theorem State.countCore_devHeld (s : State) (c k n : Nat) : (s.countCore c k n).devHeld = s.devHeld := rfl
@[simp] theorem State.countCore_regs (s : State) (c k n : Nat) : (s.countCore c k n).regs = s.regs := rfl
@[simp] theorem State.countCore_nextReg (s : State) (c k n : Nat) : (s.countCore c k n).nextReg = s.nextReg := rfl
@[simp] theorem State.countCore_blocks (s : State) (c k n : Nat) : (s.countCore c k n).blocks = s.blocks := rfl
@[simp] theorem State.countCore_blockSnaps (s : State) (c k n : Nat) : (s.countCore c k n).blockSnaps = s.blockSnaps := rfl
@[simp] theorem State.countCore_frecSnaps (s : State) (c k n : Nat) : (s.countCore c k n).frecSnaps = s.frecSnaps := rfl
@[simp] theorem State.countCore_posted (s : State) (c k n : Nat) : (s.countCore c k n).posted = s.posted := rfl
@[simp] theorem State.countCore_rows (s : State) (c k n : Nat) : (s.countCore c k n).rows = s.rows := rfl
@[simp] theorem State.countCore_deadRails (s : State) (c k n : Nat) : (s.countCore c k n).deadRails = s.deadRails := rfl
@[simp] theorem State.countCore_hostBias (s : State) (c k n : Nat) : (s.countCore c k n).hostBias = s.hostBias := rfl
@[simp] theorem State.countCore_hostGot (s : State) (c k n : Nat) : (s.countCore c k n).hostGot = s.hostGot := rfl
@[simp] theorem State.countCore_flips (s : State) (c k n : Nat) : (s.countCore c k n).flips = s.flips := rfl
@[simp] theorem State.countCore_rate (s : State) (c k n : Nat) : (s.countCore c k n).rate = s.rate := rfl
@[simp] theorem State.countCore_temps (s : State) (c k n : Nat) : (s.countCore c k n).temps = s.temps := rfl
@[simp] theorem State.countCore_flowLost (s : State) (c k n : Nat) : (s.countCore c k n).flowLost = s.flowLost := rfl
@[simp] theorem State.countCore_debugOpen (s : State) (c k n : Nat) : (s.countCore c k n).debugOpen = s.debugOpen := rfl
@[simp] theorem State.countCore_measurement (s : State) (c k n : Nat) : (s.countCore c k n).measurement = s.measurement := rfl
@[simp] theorem State.countCore_faultLow (s : State) (c k n : Nat) : (s.countCore c k n).faultLow = s.faultLow := rfl
@[simp] theorem State.countCore_mgmtOut (s : State) (c k n : Nat) : (s.countCore c k n).mgmtOut = s.mgmtOut := rfl
@[simp] theorem State.countCore_hostOut (s : State) (c k n : Nat) : (s.countCore c k n).hostOut = s.hostOut := rfl
@[simp] theorem State.countCore_userBound (s : State) (c k n : Nat) : (s.countCore c k n).userBound = s.userBound := rfl
@[simp] theorem State.countCore_sched (s : State) (c k n : Nat) : (s.countCore c k n).sched = s.sched := rfl
@[simp] theorem State.countCore_cur (s : State) (c k n : Nat) : (s.countCore c k n).cur = s.cur := rfl
@[simp] theorem State.countCore_lead (s : State) (c k n : Nat) : (s.countCore c k n).lead = s.lead := rfl
@[simp] theorem State.countCore_fresh (s : State) (c k n : Nat) : (s.countCore c k n).fresh = s.fresh := rfl
@[simp] theorem State.countCore_order (s : State) (c k n : Nat) : (s.countCore c k n).order = s.order := rfl
@[simp] theorem State.countHub_cyc (s : State) (b k n : Nat) : (s.countHub b k n).cyc = s.cyc := rfl
@[simp] theorem State.countHub_harts (s : State) (b k n : Nat) : (s.countHub b k n).harts = s.harts := rfl
@[simp] theorem State.countHub_mem (s : State) (b k n : Nat) : (s.countHub b k n).mem = s.mem := rfl
@[simp] theorem State.countHub_poison (s : State) (b k n : Nat) : (s.countHub b k n).poison = s.poison := rfl
@[simp] theorem State.countHub_lanePoison (s : State) (b k n : Nat) : (s.countHub b k n).lanePoison = s.lanePoison := rfl
@[simp] theorem State.countHub_cores (s : State) (b k n : Nat) : (s.countHub b k n).cores = s.cores := rfl
@[simp] theorem State.countHub_clocks (s : State) (b k n : Nat) : (s.countHub b k n).clocks = s.clocks := rfl
@[simp] theorem State.countHub_rsn (s : State) (b k n : Nat) : (s.countHub b k n).rsn = s.rsn := rfl
@[simp] theorem State.countHub_removed (s : State) (b k n : Nat) : (s.countHub b k n).removed = s.removed := rfl
@[simp] theorem State.countHub_resync (s : State) (b k n : Nat) : (s.countHub b k n).resync = s.resync := rfl
@[simp] theorem State.countHub_lateFence (s : State) (b k n : Nat) : (s.countHub b k n).lateFence = s.lateFence := rfl
@[simp] theorem State.countHub_imgOut (s : State) (b k n : Nat) : (s.countHub b k n).imgOut = s.imgOut := rfl
@[simp] theorem State.countHub_arrivals (s : State) (b k n : Nat) : (s.countHub b k n).arrivals = s.arrivals := rfl
@[simp] theorem State.countHub_fuses (s : State) (b k n : Nat) : (s.countHub b k n).fuses = s.fuses := rfl
@[simp] theorem State.countHub_places (s : State) (b k n : Nat) : (s.countHub b k n).places = s.places := rfl
@[simp] theorem State.countHub_resyncAt (s : State) (b k n : Nat) : (s.countHub b k n).resyncAt = s.resyncAt := rfl
@[simp] theorem State.countHub_grants (s : State) (b k n : Nat) : (s.countHub b k n).grants = s.grants := rfl
@[simp] theorem State.countHub_badCopies (s : State) (b k n : Nat) : (s.countHub b k n).badCopies = s.badCopies := rfl
@[simp] theorem State.countHub_goodCopies (s : State) (b k n : Nat) : (s.countHub b k n).goodCopies = s.goodCopies := rfl
@[simp] theorem State.countHub_ueOut (s : State) (b k n : Nat) : (s.countHub b k n).ueOut = s.ueOut := rfl
@[simp] theorem State.countHub_hostHeld (s : State) (b k n : Nat) : (s.countHub b k n).hostHeld = s.hostHeld := rfl
@[simp] theorem State.countHub_lineReqs (s : State) (b k n : Nat) : (s.countHub b k n).lineReqs = s.lineReqs := rfl
@[simp] theorem State.countHub_unsent (s : State) (b k n : Nat) : (s.countHub b k n).unsent = s.unsent := rfl
@[simp] theorem State.countHub_flight (s : State) (b k n : Nat) : (s.countHub b k n).flight = s.flight := rfl
@[simp] theorem State.countHub_quadBar (s : State) (b k n : Nat) : (s.countHub b k n).quadBar = s.quadBar := rfl
@[simp] theorem State.countHub_dieBar (s : State) (b k n : Nat) : (s.countHub b k n).dieBar = s.dieBar := rfl
@[simp] theorem State.countHub_dir (s : State) (b k n : Nat) : (s.countHub b k n).dir = s.dir := rfl
@[simp] theorem State.countHub_dirty (s : State) (b k n : Nat) : (s.countHub b k n).dirty = s.dirty := rfl
@[simp] theorem State.countHub_holds (s : State) (b k n : Nat) : (s.countHub b k n).holds = s.holds := rfl
@[simp] theorem State.countHub_tags (s : State) (b k n : Nat) : (s.countHub b k n).tags = s.tags := rfl
@[simp] theorem State.countHub_victims (s : State) (b k n : Nat) : (s.countHub b k n).victims = s.victims := rfl
@[simp] theorem State.countHub_fills (s : State) (b k n : Nat) : (s.countHub b k n).fills = s.fills := rfl
@[simp] theorem State.countHub_engines (s : State) (b k n : Nat) : (s.countHub b k n).engines = s.engines := rfl
@[simp] theorem State.countHub_tasks (s : State) (b k n : Nat) : (s.countHub b k n).tasks = s.tasks := rfl
@[simp] theorem State.countHub_devHeld (s : State) (b k n : Nat) : (s.countHub b k n).devHeld = s.devHeld := rfl
@[simp] theorem State.countHub_regs (s : State) (b k n : Nat) : (s.countHub b k n).regs = s.regs := rfl
@[simp] theorem State.countHub_nextReg (s : State) (b k n : Nat) : (s.countHub b k n).nextReg = s.nextReg := rfl
@[simp] theorem State.countHub_blocks (s : State) (b k n : Nat) : (s.countHub b k n).blocks = s.blocks := rfl
@[simp] theorem State.countHub_blockSnaps (s : State) (b k n : Nat) : (s.countHub b k n).blockSnaps = s.blockSnaps := rfl
@[simp] theorem State.countHub_frecSnaps (s : State) (b k n : Nat) : (s.countHub b k n).frecSnaps = s.frecSnaps := rfl
@[simp] theorem State.countHub_posted (s : State) (b k n : Nat) : (s.countHub b k n).posted = s.posted := rfl
@[simp] theorem State.countHub_rows (s : State) (b k n : Nat) : (s.countHub b k n).rows = s.rows := rfl
@[simp] theorem State.countHub_deadRails (s : State) (b k n : Nat) : (s.countHub b k n).deadRails = s.deadRails := rfl
@[simp] theorem State.countHub_hostBias (s : State) (b k n : Nat) : (s.countHub b k n).hostBias = s.hostBias := rfl
@[simp] theorem State.countHub_hostGot (s : State) (b k n : Nat) : (s.countHub b k n).hostGot = s.hostGot := rfl
@[simp] theorem State.countHub_flips (s : State) (b k n : Nat) : (s.countHub b k n).flips = s.flips := rfl
@[simp] theorem State.countHub_rate (s : State) (b k n : Nat) : (s.countHub b k n).rate = s.rate := rfl
@[simp] theorem State.countHub_temps (s : State) (b k n : Nat) : (s.countHub b k n).temps = s.temps := rfl
@[simp] theorem State.countHub_flowLost (s : State) (b k n : Nat) : (s.countHub b k n).flowLost = s.flowLost := rfl
@[simp] theorem State.countHub_debugOpen (s : State) (b k n : Nat) : (s.countHub b k n).debugOpen = s.debugOpen := rfl
@[simp] theorem State.countHub_measurement (s : State) (b k n : Nat) : (s.countHub b k n).measurement = s.measurement := rfl
@[simp] theorem State.countHub_faultLow (s : State) (b k n : Nat) : (s.countHub b k n).faultLow = s.faultLow := rfl
@[simp] theorem State.countHub_mgmtOut (s : State) (b k n : Nat) : (s.countHub b k n).mgmtOut = s.mgmtOut := rfl
@[simp] theorem State.countHub_hostOut (s : State) (b k n : Nat) : (s.countHub b k n).hostOut = s.hostOut := rfl
@[simp] theorem State.countHub_userBound (s : State) (b k n : Nat) : (s.countHub b k n).userBound = s.userBound := rfl
@[simp] theorem State.countHub_sched (s : State) (b k n : Nat) : (s.countHub b k n).sched = s.sched := rfl
@[simp] theorem State.countHub_cur (s : State) (b k n : Nat) : (s.countHub b k n).cur = s.cur := rfl
@[simp] theorem State.countHub_lead (s : State) (b k n : Nat) : (s.countHub b k n).lead = s.lead := rfl
@[simp] theorem State.countHub_fresh (s : State) (b k n : Nat) : (s.countHub b k n).fresh = s.fresh := rfl
@[simp] theorem State.countHub_order (s : State) (b k n : Nat) : (s.countHub b k n).order = s.order := rfl

/-! Harts of the package. -/

@[simp] theorem State.hart_setHart (s : State) (h : Nat) (x : Hart) (hh : h < s.harts.length) : (s.setHart h x).hart h = x := by
  simp [State.hart, State.setHart, hh]

theorem State.hart_setHart_ne (s : State) (h k : Nat) (x : Hart) (hk : k ≠ h) : (s.setHart h x).hart k = s.hart k := by
  simp [State.hart, State.setHart, List.getElem?_set_ne (Ne.symm hk)]

@[simp] theorem State.hart_modHart (s : State) (h : Nat) (f : Hart → Hart) (hh : h < s.harts.length) :
    (s.modHart h f).hart h = f (s.hart h) := by
  simp [State.modHart, hh]

theorem State.hart_modHart_ne (s : State) (h k : Nat) (f : Hart → Hart) (hk : k ≠ h) : (s.modHart h f).hart k = s.hart k :=
  s.hart_setHart_ne h k _ hk

@[simp] theorem State.setHart_length (s : State) (h : Nat) (x : Hart) : (s.setHart h x).harts.length = s.harts.length := by
  simp [State.setHart]

@[simp] theorem State.modHart_length (s : State) (h : Nat) (f : Hart → Hart) : (s.modHart h f).harts.length = s.harts.length := by
  simp [State.modHart]

@[simp] theorem State.setHart_setHart (s : State) (h : Nat) (x y : Hart) : (s.setHart h x).setHart h y = s.setHart h y := by
  simp [State.setHart]

@[simp] theorem State.countCore_hart (s : State) (c k n h : Nat) : (s.countCore c k n).hart h = s.hart h := by
  simp [State.hart]

@[simp] theorem State.countHub_hart (s : State) (b k n h : Nat) : (s.countHub b k n).hart h = s.hart h := rfl

@[simp] theorem State.setCore_hart (s : State) (c : Nat) (x : Core) (h : Nat) : (s.setCore c x).hart h = s.hart h := rfl

@[simp] theorem State.setHub_hart (s : State) (n : Nat) (u : Hub) (h : Nat) : (s.setHub n u).hart h = s.hart h := rfl

/-! A hart: each update and the fields it leaves. -/

@[simp] theorem Hart.setVreg_pc (x : Hart) (n : Nat) (y : VReg) : (x.setVreg n y).pc = x.pc := rfl
@[simp] theorem Hart.setVreg_s (x : Hart) (n : Nat) (y : VReg) : (x.setVreg n y).s = x.s := rfl
@[simp] theorem Hart.setVreg_p (x : Hart) (n : Nat) (y : VReg) : (x.setVreg n y).p = x.p := rfl
@[simp] theorem Hart.setVreg_m (x : Hart) (n : Nat) (y : VReg) : (x.setVreg n y).m = x.m := rfl
@[simp] theorem Hart.setVreg_fib (x : Hart) (n : Nat) (y : VReg) : (x.setVreg n y).fib = x.fib := rfl
@[simp] theorem Hart.setVreg_q (x : Hart) (n : Nat) (y : VReg) : (x.setVreg n y).q = x.q := rfl
@[simp] theorem Hart.setVreg_vsegCount (x : Hart) (n : Nat) (y : VReg) : (x.setVreg n y).vsegCount = x.vsegCount := rfl
@[simp] theorem Hart.setVreg_vsegOff (x : Hart) (n : Nat) (y : VReg) : (x.setVreg n y).vsegOff = x.vsegOff := rfl
@[simp] theorem Hart.setVreg_fmask (x : Hart) (n : Nat) (y : VReg) : (x.setVreg n y).fmask = x.fmask := rfl
@[simp] theorem Hart.setVreg_vl (x : Hart) (n : Nat) (y : VReg) : (x.setVreg n y).vl = x.vl := rfl
@[simp] theorem Hart.setVreg_vtype (x : Hart) (n : Nat) (y : VReg) : (x.setVreg n y).vtype = x.vtype := rfl
@[simp] theorem Hart.setVreg_vlPush (x : Hart) (n : Nat) (y : VReg) : (x.setVreg n y).vlPush = x.vlPush := rfl
@[simp] theorem Hart.setVreg_vtPush (x : Hart) (n : Nat) (y : VReg) : (x.setVreg n y).vtPush = x.vtPush := rfl
@[simp] theorem Hart.setVreg_vstart (x : Hart) (n : Nat) (y : VReg) : (x.setVreg n y).vstart = x.vstart := rfl
@[simp] theorem Hart.setVreg_vprog (x : Hart) (n : Nat) (y : VReg) : (x.setVreg n y).vprog = x.vprog := rfl
@[simp] theorem Hart.setVreg_fcsr (x : Hart) (n : Nat) (y : VReg) : (x.setVreg n y).fcsr = x.fcsr := rfl
@[simp] theorem Hart.setVreg_vcp (x : Hart) (n : Nat) (y : VReg) : (x.setVreg n y).vcp = x.vcp := rfl
@[simp] theorem Hart.setVreg_vqtail (x : Hart) (n : Nat) (y : VReg) : (x.setVreg n y).vqtail = x.vqtail := rfl
@[simp] theorem Hart.setVreg_taskid (x : Hart) (n : Nat) (y : VReg) : (x.setVreg n y).taskid = x.taskid := rfl
@[simp] theorem Hart.setVreg_stripbase (x : Hart) (n : Nat) (y : VReg) : (x.setVreg n y).stripbase = x.stripbase := rfl
@[simp] theorem Hart.setVreg_striplen (x : Hart) (n : Nat) (y : VReg) : (x.setVreg n y).striplen = x.striplen := rfl
@[simp] theorem Hart.setVreg_tcause (x : Hart) (n : Nat) (y : VReg) : (x.setVreg n y).tcause = x.tcause := rfl
@[simp] theorem Hart.setVreg_tpc (x : Hart) (n : Nat) (y : VReg) : (x.setVreg n y).tpc = x.tpc := rfl
@[simp] theorem Hart.setVreg_tvqpPos (x : Hart) (n : Nat) (y : VReg) : (x.setVreg n y).tvqpPos = x.tvqpPos := rfl
@[simp] theorem Hart.setVreg_tvqpV (x : Hart) (n : Nat) (y : VReg) : (x.setVreg n y).tvqpV = x.tvqpV := rfl
@[simp] theorem Hart.setVreg_taddr (x : Hart) (n : Nat) (y : VReg) : (x.setVreg n y).taddr = x.taddr := rfl
@[simp] theorem Hart.setVreg_taddr2 (x : Hart) (n : Nat) (y : VReg) : (x.setVreg n y).taddr2 = x.taddr2 := rfl
@[simp] theorem Hart.setVreg_tinfo (x : Hart) (n : Nat) (y : VReg) : (x.setVreg n y).tinfo = x.tinfo := rfl
@[simp] theorem Hart.setVreg_tvec (x : Hart) (n : Nat) (y : VReg) : (x.setVreg n y).tvec = x.tvec := rfl
@[simp] theorem Hart.setVreg_tstatus (x : Hart) (n : Nat) (y : VReg) : (x.setVreg n y).tstatus = x.tstatus := rfl
@[simp] theorem Hart.setVreg_tscr (x : Hart) (n : Nat) (y : VReg) : (x.setVreg n y).tscr = x.tscr := rfl
@[simp] theorem Hart.setVreg_asn (x : Hart) (n : Nat) (y : VReg) : (x.setVreg n y).asn = x.asn := rfl
@[simp] theorem Hart.setVreg_imgbase (x : Hart) (n : Nat) (y : VReg) : (x.setVreg n y).imgbase = x.imgbase := rfl
@[simp] theorem Hart.setVreg_fb (x : Hart) (n : Nat) (y : VReg) : (x.setVreg n y).fb = x.fb := rfl
@[simp] theorem Hart.setVreg_fbn (x : Hart) (n : Nat) (y : VReg) : (x.setVreg n y).fbn = x.fbn := rfl
@[simp] theorem Hart.setVreg_pbuf (x : Hart) (n : Nat) (y : VReg) : (x.setVreg n y).pbuf = x.pbuf := rfl
@[simp] theorem Hart.setVreg_pspec (x : Hart) (n : Nat) (y : VReg) : (x.setVreg n y).pspec = x.pspec := rfl
@[simp] theorem Hart.setVreg_sup (x : Hart) (n : Nat) (y : VReg) : (x.setVreg n y).sup = x.sup := rfl
@[simp] theorem Hart.setVreg_waiting (x : Hart) (n : Nat) (y : VReg) : (x.setVreg n y).waiting = x.waiting := rfl
@[simp] theorem Hart.setVreg_bound (x : Hart) (n : Nat) (y : VReg) : (x.setVreg n y).bound = x.bound := rfl
@[simp] theorem Hart.setVreg_ending (x : Hart) (n : Nat) (y : VReg) : (x.setVreg n y).ending = x.ending := rfl
@[simp] theorem Hart.setVreg_wake (x : Hart) (n : Nat) (y : VReg) : (x.setVreg n y).wake = x.wake := rfl
@[simp] theorem Hart.setVreg_stopped (x : Hart) (n : Nat) (y : VReg) : (x.setVreg n y).stopped = x.stopped := rfl
@[simp] theorem Hart.setVreg_die (x : Hart) (n : Nat) (y : VReg) : (x.setVreg n y).die = x.die := rfl
@[simp] theorem Hart.setVreg_core (x : Hart) (n : Nat) (y : VReg) : (x.setVreg n y).core = x.core := rfl
@[simp] theorem Hart.setVreg_slot (x : Hart) (n : Nat) (y : VReg) : (x.setVreg n y).slot = x.slot := rfl
@[simp] theorem Hart.setVreg_queue (x : Hart) (n : Nat) (y : VReg) : (x.setVreg n y).queue = x.queue := rfl
@[simp] theorem Hart.setVreg_saved (x : Hart) (n : Nat) (y : VReg) : (x.setVreg n y).saved = x.saved := rfl
@[simp] theorem Hart.setVreg_replayed (x : Hart) (n : Nat) (y : VReg) : (x.setVreg n y).replayed = x.replayed := rfl
@[simp] theorem Hart.setVreg_replaying (x : Hart) (n : Nat) (y : VReg) : (x.setVreg n y).replaying = x.replaying := rfl
@[simp] theorem Hart.setVreg_traps (x : Hart) (n : Nat) (y : VReg) : (x.setVreg n y).traps = x.traps := rfl
@[simp] theorem Hart.setVreg_heldTrap (x : Hart) (n : Nat) (y : VReg) : (x.setVreg n y).heldTrap = x.heldTrap := rfl
@[simp] theorem Hart.setVreg_pend (x : Hart) (n : Nat) (y : VReg) : (x.setVreg n y).pend = x.pend := rfl
@[simp] theorem Hart.setVreg_entries (x : Hart) (n : Nat) (y : VReg) : (x.setVreg n y).entries = x.entries := rfl
@[simp] theorem Hart.setVreg_held (x : Hart) (n : Nat) (y : VReg) : (x.setVreg n y).held = x.held := rfl
@[simp] theorem Hart.setVreg_heldPush (x : Hart) (n : Nat) (y : VReg) : (x.setVreg n y).heldPush = x.heldPush := rfl
@[simp] theorem Hart.setVreg_waitFrom (x : Hart) (n : Nat) (y : VReg) : (x.setVreg n y).waitFrom = x.waitFrom := rfl
@[simp] theorem Hart.setVreg_waitQuad (x : Hart) (n : Nat) (y : VReg) : (x.setVreg n y).waitQuad = x.waitQuad := rfl
@[simp] theorem Hart.setVreg_syncOn (x : Hart) (n : Nat) (y : VReg) : (x.setVreg n y).syncOn = x.syncOn := rfl
@[simp] theorem Hart.setVreg_heldReads (x : Hart) (n : Nat) (y : VReg) : (x.setVreg n y).heldReads = x.heldReads := rfl
@[simp] theorem Hart.setVreg_preempt (x : Hart) (n : Nat) (y : VReg) : (x.setVreg n y).preempt = x.preempt := rfl
@[simp] theorem Hart.setVreg_preempted (x : Hart) (n : Nat) (y : VReg) : (x.setVreg n y).preempted = x.preempted := rfl
@[simp] theorem Hart.setVreg_yieldTo (x : Hart) (n : Nat) (y : VReg) : (x.setVreg n y).yieldTo = x.yieldTo := rfl
@[simp] theorem Hart.setVreg_leftAt (x : Hart) (n : Nat) (y : VReg) : (x.setVreg n y).leftAt = x.leftAt := rfl
@[simp] theorem Hart.setVreg_gaveUp (x : Hart) (n : Nat) (y : VReg) : (x.setVreg n y).gaveUp = x.gaveUp := rfl
@[simp] theorem Hart.setVreg_outcnt (x : Hart) (n : Nat) (y : VReg) : (x.setVreg n y).outcnt = x.outcnt := rfl
@[simp] theorem Hart.setVreg_lost (x : Hart) (n : Nat) (y : VReg) : (x.setVreg n y).lost = x.lost := rfl
@[simp] theorem Hart.setVreg_task (x : Hart) (n : Nat) (y : VReg) : (x.setVreg n y).task = x.task := rfl
@[simp] theorem Hart.setVreg_ordinal (x : Hart) (n : Nat) (y : VReg) : (x.setVreg n y).ordinal = x.ordinal := rfl
@[simp] theorem Hart.setVreg_boundAt (x : Hart) (n : Nat) (y : VReg) : (x.setVreg n y).boundAt = x.boundAt := rfl
@[simp] theorem Hart.setVreg_strips (x : Hart) (n : Nat) (y : VReg) : (x.setVreg n y).strips = x.strips := rfl
@[simp] theorem Hart.setVreg_lastbu (x : Hart) (n : Nat) (y : VReg) : (x.setVreg n y).lastbu = x.lastbu := rfl
@[simp] theorem Hart.setVreg_rsPoison (x : Hart) (n : Nat) (y : VReg) : (x.setVreg n y).rsPoison = x.rsPoison := rfl
@[simp] theorem Hart.setMreg_pc (x : Hart) (n : Nat) (y : MReg) : (x.setMreg n y).pc = x.pc := rfl
@[simp] theorem Hart.setMreg_s (x : Hart) (n : Nat) (y : MReg) : (x.setMreg n y).s = x.s := rfl
@[simp] theorem Hart.setMreg_p (x : Hart) (n : Nat) (y : MReg) : (x.setMreg n y).p = x.p := rfl
@[simp] theorem Hart.setMreg_v (x : Hart) (n : Nat) (y : MReg) : (x.setMreg n y).v = x.v := rfl
@[simp] theorem Hart.setMreg_fib (x : Hart) (n : Nat) (y : MReg) : (x.setMreg n y).fib = x.fib := rfl
@[simp] theorem Hart.setMreg_q (x : Hart) (n : Nat) (y : MReg) : (x.setMreg n y).q = x.q := rfl
@[simp] theorem Hart.setMreg_vsegCount (x : Hart) (n : Nat) (y : MReg) : (x.setMreg n y).vsegCount = x.vsegCount := rfl
@[simp] theorem Hart.setMreg_vsegOff (x : Hart) (n : Nat) (y : MReg) : (x.setMreg n y).vsegOff = x.vsegOff := rfl
@[simp] theorem Hart.setMreg_fmask (x : Hart) (n : Nat) (y : MReg) : (x.setMreg n y).fmask = x.fmask := rfl
@[simp] theorem Hart.setMreg_vl (x : Hart) (n : Nat) (y : MReg) : (x.setMreg n y).vl = x.vl := rfl
@[simp] theorem Hart.setMreg_vtype (x : Hart) (n : Nat) (y : MReg) : (x.setMreg n y).vtype = x.vtype := rfl
@[simp] theorem Hart.setMreg_vlPush (x : Hart) (n : Nat) (y : MReg) : (x.setMreg n y).vlPush = x.vlPush := rfl
@[simp] theorem Hart.setMreg_vtPush (x : Hart) (n : Nat) (y : MReg) : (x.setMreg n y).vtPush = x.vtPush := rfl
@[simp] theorem Hart.setMreg_vstart (x : Hart) (n : Nat) (y : MReg) : (x.setMreg n y).vstart = x.vstart := rfl
@[simp] theorem Hart.setMreg_vprog (x : Hart) (n : Nat) (y : MReg) : (x.setMreg n y).vprog = x.vprog := rfl
@[simp] theorem Hart.setMreg_fcsr (x : Hart) (n : Nat) (y : MReg) : (x.setMreg n y).fcsr = x.fcsr := rfl
@[simp] theorem Hart.setMreg_vcp (x : Hart) (n : Nat) (y : MReg) : (x.setMreg n y).vcp = x.vcp := rfl
@[simp] theorem Hart.setMreg_vqtail (x : Hart) (n : Nat) (y : MReg) : (x.setMreg n y).vqtail = x.vqtail := rfl
@[simp] theorem Hart.setMreg_taskid (x : Hart) (n : Nat) (y : MReg) : (x.setMreg n y).taskid = x.taskid := rfl
@[simp] theorem Hart.setMreg_stripbase (x : Hart) (n : Nat) (y : MReg) : (x.setMreg n y).stripbase = x.stripbase := rfl
@[simp] theorem Hart.setMreg_striplen (x : Hart) (n : Nat) (y : MReg) : (x.setMreg n y).striplen = x.striplen := rfl
@[simp] theorem Hart.setMreg_tcause (x : Hart) (n : Nat) (y : MReg) : (x.setMreg n y).tcause = x.tcause := rfl
@[simp] theorem Hart.setMreg_tpc (x : Hart) (n : Nat) (y : MReg) : (x.setMreg n y).tpc = x.tpc := rfl
@[simp] theorem Hart.setMreg_tvqpPos (x : Hart) (n : Nat) (y : MReg) : (x.setMreg n y).tvqpPos = x.tvqpPos := rfl
@[simp] theorem Hart.setMreg_tvqpV (x : Hart) (n : Nat) (y : MReg) : (x.setMreg n y).tvqpV = x.tvqpV := rfl
@[simp] theorem Hart.setMreg_taddr (x : Hart) (n : Nat) (y : MReg) : (x.setMreg n y).taddr = x.taddr := rfl
@[simp] theorem Hart.setMreg_taddr2 (x : Hart) (n : Nat) (y : MReg) : (x.setMreg n y).taddr2 = x.taddr2 := rfl
@[simp] theorem Hart.setMreg_tinfo (x : Hart) (n : Nat) (y : MReg) : (x.setMreg n y).tinfo = x.tinfo := rfl
@[simp] theorem Hart.setMreg_tvec (x : Hart) (n : Nat) (y : MReg) : (x.setMreg n y).tvec = x.tvec := rfl
@[simp] theorem Hart.setMreg_tstatus (x : Hart) (n : Nat) (y : MReg) : (x.setMreg n y).tstatus = x.tstatus := rfl
@[simp] theorem Hart.setMreg_tscr (x : Hart) (n : Nat) (y : MReg) : (x.setMreg n y).tscr = x.tscr := rfl
@[simp] theorem Hart.setMreg_asn (x : Hart) (n : Nat) (y : MReg) : (x.setMreg n y).asn = x.asn := rfl
@[simp] theorem Hart.setMreg_imgbase (x : Hart) (n : Nat) (y : MReg) : (x.setMreg n y).imgbase = x.imgbase := rfl
@[simp] theorem Hart.setMreg_fb (x : Hart) (n : Nat) (y : MReg) : (x.setMreg n y).fb = x.fb := rfl
@[simp] theorem Hart.setMreg_fbn (x : Hart) (n : Nat) (y : MReg) : (x.setMreg n y).fbn = x.fbn := rfl
@[simp] theorem Hart.setMreg_pbuf (x : Hart) (n : Nat) (y : MReg) : (x.setMreg n y).pbuf = x.pbuf := rfl
@[simp] theorem Hart.setMreg_pspec (x : Hart) (n : Nat) (y : MReg) : (x.setMreg n y).pspec = x.pspec := rfl
@[simp] theorem Hart.setMreg_sup (x : Hart) (n : Nat) (y : MReg) : (x.setMreg n y).sup = x.sup := rfl
@[simp] theorem Hart.setMreg_waiting (x : Hart) (n : Nat) (y : MReg) : (x.setMreg n y).waiting = x.waiting := rfl
@[simp] theorem Hart.setMreg_bound (x : Hart) (n : Nat) (y : MReg) : (x.setMreg n y).bound = x.bound := rfl
@[simp] theorem Hart.setMreg_ending (x : Hart) (n : Nat) (y : MReg) : (x.setMreg n y).ending = x.ending := rfl
@[simp] theorem Hart.setMreg_wake (x : Hart) (n : Nat) (y : MReg) : (x.setMreg n y).wake = x.wake := rfl
@[simp] theorem Hart.setMreg_stopped (x : Hart) (n : Nat) (y : MReg) : (x.setMreg n y).stopped = x.stopped := rfl
@[simp] theorem Hart.setMreg_die (x : Hart) (n : Nat) (y : MReg) : (x.setMreg n y).die = x.die := rfl
@[simp] theorem Hart.setMreg_core (x : Hart) (n : Nat) (y : MReg) : (x.setMreg n y).core = x.core := rfl
@[simp] theorem Hart.setMreg_slot (x : Hart) (n : Nat) (y : MReg) : (x.setMreg n y).slot = x.slot := rfl
@[simp] theorem Hart.setMreg_queue (x : Hart) (n : Nat) (y : MReg) : (x.setMreg n y).queue = x.queue := rfl
@[simp] theorem Hart.setMreg_saved (x : Hart) (n : Nat) (y : MReg) : (x.setMreg n y).saved = x.saved := rfl
@[simp] theorem Hart.setMreg_replayed (x : Hart) (n : Nat) (y : MReg) : (x.setMreg n y).replayed = x.replayed := rfl
@[simp] theorem Hart.setMreg_replaying (x : Hart) (n : Nat) (y : MReg) : (x.setMreg n y).replaying = x.replaying := rfl
@[simp] theorem Hart.setMreg_traps (x : Hart) (n : Nat) (y : MReg) : (x.setMreg n y).traps = x.traps := rfl
@[simp] theorem Hart.setMreg_heldTrap (x : Hart) (n : Nat) (y : MReg) : (x.setMreg n y).heldTrap = x.heldTrap := rfl
@[simp] theorem Hart.setMreg_pend (x : Hart) (n : Nat) (y : MReg) : (x.setMreg n y).pend = x.pend := rfl
@[simp] theorem Hart.setMreg_entries (x : Hart) (n : Nat) (y : MReg) : (x.setMreg n y).entries = x.entries := rfl
@[simp] theorem Hart.setMreg_held (x : Hart) (n : Nat) (y : MReg) : (x.setMreg n y).held = x.held := rfl
@[simp] theorem Hart.setMreg_heldPush (x : Hart) (n : Nat) (y : MReg) : (x.setMreg n y).heldPush = x.heldPush := rfl
@[simp] theorem Hart.setMreg_waitFrom (x : Hart) (n : Nat) (y : MReg) : (x.setMreg n y).waitFrom = x.waitFrom := rfl
@[simp] theorem Hart.setMreg_waitQuad (x : Hart) (n : Nat) (y : MReg) : (x.setMreg n y).waitQuad = x.waitQuad := rfl
@[simp] theorem Hart.setMreg_syncOn (x : Hart) (n : Nat) (y : MReg) : (x.setMreg n y).syncOn = x.syncOn := rfl
@[simp] theorem Hart.setMreg_heldReads (x : Hart) (n : Nat) (y : MReg) : (x.setMreg n y).heldReads = x.heldReads := rfl
@[simp] theorem Hart.setMreg_preempt (x : Hart) (n : Nat) (y : MReg) : (x.setMreg n y).preempt = x.preempt := rfl
@[simp] theorem Hart.setMreg_preempted (x : Hart) (n : Nat) (y : MReg) : (x.setMreg n y).preempted = x.preempted := rfl
@[simp] theorem Hart.setMreg_yieldTo (x : Hart) (n : Nat) (y : MReg) : (x.setMreg n y).yieldTo = x.yieldTo := rfl
@[simp] theorem Hart.setMreg_leftAt (x : Hart) (n : Nat) (y : MReg) : (x.setMreg n y).leftAt = x.leftAt := rfl
@[simp] theorem Hart.setMreg_gaveUp (x : Hart) (n : Nat) (y : MReg) : (x.setMreg n y).gaveUp = x.gaveUp := rfl
@[simp] theorem Hart.setMreg_outcnt (x : Hart) (n : Nat) (y : MReg) : (x.setMreg n y).outcnt = x.outcnt := rfl
@[simp] theorem Hart.setMreg_lost (x : Hart) (n : Nat) (y : MReg) : (x.setMreg n y).lost = x.lost := rfl
@[simp] theorem Hart.setMreg_task (x : Hart) (n : Nat) (y : MReg) : (x.setMreg n y).task = x.task := rfl
@[simp] theorem Hart.setMreg_ordinal (x : Hart) (n : Nat) (y : MReg) : (x.setMreg n y).ordinal = x.ordinal := rfl
@[simp] theorem Hart.setMreg_boundAt (x : Hart) (n : Nat) (y : MReg) : (x.setMreg n y).boundAt = x.boundAt := rfl
@[simp] theorem Hart.setMreg_strips (x : Hart) (n : Nat) (y : MReg) : (x.setMreg n y).strips = x.strips := rfl
@[simp] theorem Hart.setMreg_lastbu (x : Hart) (n : Nat) (y : MReg) : (x.setMreg n y).lastbu = x.lastbu := rfl
@[simp] theorem Hart.setMreg_rsPoison (x : Hart) (n : Nat) (y : MReg) : (x.setMreg n y).rsPoison = x.rsPoison := rfl
@[simp] theorem Hart.setFibre_pc (x : Hart) (n : Nat) (y : Fibre) : (x.setFibre n y).pc = x.pc := rfl
@[simp] theorem Hart.setFibre_s (x : Hart) (n : Nat) (y : Fibre) : (x.setFibre n y).s = x.s := rfl
@[simp] theorem Hart.setFibre_p (x : Hart) (n : Nat) (y : Fibre) : (x.setFibre n y).p = x.p := rfl
@[simp] theorem Hart.setFibre_v (x : Hart) (n : Nat) (y : Fibre) : (x.setFibre n y).v = x.v := rfl
@[simp] theorem Hart.setFibre_m (x : Hart) (n : Nat) (y : Fibre) : (x.setFibre n y).m = x.m := rfl
@[simp] theorem Hart.setFibre_q (x : Hart) (n : Nat) (y : Fibre) : (x.setFibre n y).q = x.q := rfl
@[simp] theorem Hart.setFibre_vsegCount (x : Hart) (n : Nat) (y : Fibre) : (x.setFibre n y).vsegCount = x.vsegCount := rfl
@[simp] theorem Hart.setFibre_vsegOff (x : Hart) (n : Nat) (y : Fibre) : (x.setFibre n y).vsegOff = x.vsegOff := rfl
@[simp] theorem Hart.setFibre_fmask (x : Hart) (n : Nat) (y : Fibre) : (x.setFibre n y).fmask = x.fmask := rfl
@[simp] theorem Hart.setFibre_vl (x : Hart) (n : Nat) (y : Fibre) : (x.setFibre n y).vl = x.vl := rfl
@[simp] theorem Hart.setFibre_vtype (x : Hart) (n : Nat) (y : Fibre) : (x.setFibre n y).vtype = x.vtype := rfl
@[simp] theorem Hart.setFibre_vlPush (x : Hart) (n : Nat) (y : Fibre) : (x.setFibre n y).vlPush = x.vlPush := rfl
@[simp] theorem Hart.setFibre_vtPush (x : Hart) (n : Nat) (y : Fibre) : (x.setFibre n y).vtPush = x.vtPush := rfl
@[simp] theorem Hart.setFibre_vstart (x : Hart) (n : Nat) (y : Fibre) : (x.setFibre n y).vstart = x.vstart := rfl
@[simp] theorem Hart.setFibre_vprog (x : Hart) (n : Nat) (y : Fibre) : (x.setFibre n y).vprog = x.vprog := rfl
@[simp] theorem Hart.setFibre_fcsr (x : Hart) (n : Nat) (y : Fibre) : (x.setFibre n y).fcsr = x.fcsr := rfl
@[simp] theorem Hart.setFibre_vcp (x : Hart) (n : Nat) (y : Fibre) : (x.setFibre n y).vcp = x.vcp := rfl
@[simp] theorem Hart.setFibre_vqtail (x : Hart) (n : Nat) (y : Fibre) : (x.setFibre n y).vqtail = x.vqtail := rfl
@[simp] theorem Hart.setFibre_taskid (x : Hart) (n : Nat) (y : Fibre) : (x.setFibre n y).taskid = x.taskid := rfl
@[simp] theorem Hart.setFibre_stripbase (x : Hart) (n : Nat) (y : Fibre) : (x.setFibre n y).stripbase = x.stripbase := rfl
@[simp] theorem Hart.setFibre_striplen (x : Hart) (n : Nat) (y : Fibre) : (x.setFibre n y).striplen = x.striplen := rfl
@[simp] theorem Hart.setFibre_tcause (x : Hart) (n : Nat) (y : Fibre) : (x.setFibre n y).tcause = x.tcause := rfl
@[simp] theorem Hart.setFibre_tpc (x : Hart) (n : Nat) (y : Fibre) : (x.setFibre n y).tpc = x.tpc := rfl
@[simp] theorem Hart.setFibre_tvqpPos (x : Hart) (n : Nat) (y : Fibre) : (x.setFibre n y).tvqpPos = x.tvqpPos := rfl
@[simp] theorem Hart.setFibre_tvqpV (x : Hart) (n : Nat) (y : Fibre) : (x.setFibre n y).tvqpV = x.tvqpV := rfl
@[simp] theorem Hart.setFibre_taddr (x : Hart) (n : Nat) (y : Fibre) : (x.setFibre n y).taddr = x.taddr := rfl
@[simp] theorem Hart.setFibre_taddr2 (x : Hart) (n : Nat) (y : Fibre) : (x.setFibre n y).taddr2 = x.taddr2 := rfl
@[simp] theorem Hart.setFibre_tinfo (x : Hart) (n : Nat) (y : Fibre) : (x.setFibre n y).tinfo = x.tinfo := rfl
@[simp] theorem Hart.setFibre_tvec (x : Hart) (n : Nat) (y : Fibre) : (x.setFibre n y).tvec = x.tvec := rfl
@[simp] theorem Hart.setFibre_tstatus (x : Hart) (n : Nat) (y : Fibre) : (x.setFibre n y).tstatus = x.tstatus := rfl
@[simp] theorem Hart.setFibre_tscr (x : Hart) (n : Nat) (y : Fibre) : (x.setFibre n y).tscr = x.tscr := rfl
@[simp] theorem Hart.setFibre_asn (x : Hart) (n : Nat) (y : Fibre) : (x.setFibre n y).asn = x.asn := rfl
@[simp] theorem Hart.setFibre_imgbase (x : Hart) (n : Nat) (y : Fibre) : (x.setFibre n y).imgbase = x.imgbase := rfl
@[simp] theorem Hart.setFibre_fb (x : Hart) (n : Nat) (y : Fibre) : (x.setFibre n y).fb = x.fb := rfl
@[simp] theorem Hart.setFibre_fbn (x : Hart) (n : Nat) (y : Fibre) : (x.setFibre n y).fbn = x.fbn := rfl
@[simp] theorem Hart.setFibre_pbuf (x : Hart) (n : Nat) (y : Fibre) : (x.setFibre n y).pbuf = x.pbuf := rfl
@[simp] theorem Hart.setFibre_pspec (x : Hart) (n : Nat) (y : Fibre) : (x.setFibre n y).pspec = x.pspec := rfl
@[simp] theorem Hart.setFibre_sup (x : Hart) (n : Nat) (y : Fibre) : (x.setFibre n y).sup = x.sup := rfl
@[simp] theorem Hart.setFibre_waiting (x : Hart) (n : Nat) (y : Fibre) : (x.setFibre n y).waiting = x.waiting := rfl
@[simp] theorem Hart.setFibre_bound (x : Hart) (n : Nat) (y : Fibre) : (x.setFibre n y).bound = x.bound := rfl
@[simp] theorem Hart.setFibre_ending (x : Hart) (n : Nat) (y : Fibre) : (x.setFibre n y).ending = x.ending := rfl
@[simp] theorem Hart.setFibre_wake (x : Hart) (n : Nat) (y : Fibre) : (x.setFibre n y).wake = x.wake := rfl
@[simp] theorem Hart.setFibre_stopped (x : Hart) (n : Nat) (y : Fibre) : (x.setFibre n y).stopped = x.stopped := rfl
@[simp] theorem Hart.setFibre_die (x : Hart) (n : Nat) (y : Fibre) : (x.setFibre n y).die = x.die := rfl
@[simp] theorem Hart.setFibre_core (x : Hart) (n : Nat) (y : Fibre) : (x.setFibre n y).core = x.core := rfl
@[simp] theorem Hart.setFibre_slot (x : Hart) (n : Nat) (y : Fibre) : (x.setFibre n y).slot = x.slot := rfl
@[simp] theorem Hart.setFibre_queue (x : Hart) (n : Nat) (y : Fibre) : (x.setFibre n y).queue = x.queue := rfl
@[simp] theorem Hart.setFibre_saved (x : Hart) (n : Nat) (y : Fibre) : (x.setFibre n y).saved = x.saved := rfl
@[simp] theorem Hart.setFibre_replayed (x : Hart) (n : Nat) (y : Fibre) : (x.setFibre n y).replayed = x.replayed := rfl
@[simp] theorem Hart.setFibre_replaying (x : Hart) (n : Nat) (y : Fibre) : (x.setFibre n y).replaying = x.replaying := rfl
@[simp] theorem Hart.setFibre_traps (x : Hart) (n : Nat) (y : Fibre) : (x.setFibre n y).traps = x.traps := rfl
@[simp] theorem Hart.setFibre_heldTrap (x : Hart) (n : Nat) (y : Fibre) : (x.setFibre n y).heldTrap = x.heldTrap := rfl
@[simp] theorem Hart.setFibre_pend (x : Hart) (n : Nat) (y : Fibre) : (x.setFibre n y).pend = x.pend := rfl
@[simp] theorem Hart.setFibre_entries (x : Hart) (n : Nat) (y : Fibre) : (x.setFibre n y).entries = x.entries := rfl
@[simp] theorem Hart.setFibre_held (x : Hart) (n : Nat) (y : Fibre) : (x.setFibre n y).held = x.held := rfl
@[simp] theorem Hart.setFibre_heldPush (x : Hart) (n : Nat) (y : Fibre) : (x.setFibre n y).heldPush = x.heldPush := rfl
@[simp] theorem Hart.setFibre_waitFrom (x : Hart) (n : Nat) (y : Fibre) : (x.setFibre n y).waitFrom = x.waitFrom := rfl
@[simp] theorem Hart.setFibre_waitQuad (x : Hart) (n : Nat) (y : Fibre) : (x.setFibre n y).waitQuad = x.waitQuad := rfl
@[simp] theorem Hart.setFibre_syncOn (x : Hart) (n : Nat) (y : Fibre) : (x.setFibre n y).syncOn = x.syncOn := rfl
@[simp] theorem Hart.setFibre_heldReads (x : Hart) (n : Nat) (y : Fibre) : (x.setFibre n y).heldReads = x.heldReads := rfl
@[simp] theorem Hart.setFibre_preempt (x : Hart) (n : Nat) (y : Fibre) : (x.setFibre n y).preempt = x.preempt := rfl
@[simp] theorem Hart.setFibre_preempted (x : Hart) (n : Nat) (y : Fibre) : (x.setFibre n y).preempted = x.preempted := rfl
@[simp] theorem Hart.setFibre_yieldTo (x : Hart) (n : Nat) (y : Fibre) : (x.setFibre n y).yieldTo = x.yieldTo := rfl
@[simp] theorem Hart.setFibre_leftAt (x : Hart) (n : Nat) (y : Fibre) : (x.setFibre n y).leftAt = x.leftAt := rfl
@[simp] theorem Hart.setFibre_gaveUp (x : Hart) (n : Nat) (y : Fibre) : (x.setFibre n y).gaveUp = x.gaveUp := rfl
@[simp] theorem Hart.setFibre_outcnt (x : Hart) (n : Nat) (y : Fibre) : (x.setFibre n y).outcnt = x.outcnt := rfl
@[simp] theorem Hart.setFibre_lost (x : Hart) (n : Nat) (y : Fibre) : (x.setFibre n y).lost = x.lost := rfl
@[simp] theorem Hart.setFibre_task (x : Hart) (n : Nat) (y : Fibre) : (x.setFibre n y).task = x.task := rfl
@[simp] theorem Hart.setFibre_ordinal (x : Hart) (n : Nat) (y : Fibre) : (x.setFibre n y).ordinal = x.ordinal := rfl
@[simp] theorem Hart.setFibre_boundAt (x : Hart) (n : Nat) (y : Fibre) : (x.setFibre n y).boundAt = x.boundAt := rfl
@[simp] theorem Hart.setFibre_strips (x : Hart) (n : Nat) (y : Fibre) : (x.setFibre n y).strips = x.strips := rfl
@[simp] theorem Hart.setFibre_lastbu (x : Hart) (n : Nat) (y : Fibre) : (x.setFibre n y).lastbu = x.lastbu := rfl
@[simp] theorem Hart.setFibre_rsPoison (x : Hart) (n : Nat) (y : Fibre) : (x.setFibre n y).rsPoison = x.rsPoison := rfl
@[simp] theorem Hart.setStream_pc (x : Hart) (n : Nat) (y : Stream) : (x.setStream n y).pc = x.pc := rfl
@[simp] theorem Hart.setStream_s (x : Hart) (n : Nat) (y : Stream) : (x.setStream n y).s = x.s := rfl
@[simp] theorem Hart.setStream_p (x : Hart) (n : Nat) (y : Stream) : (x.setStream n y).p = x.p := rfl
@[simp] theorem Hart.setStream_v (x : Hart) (n : Nat) (y : Stream) : (x.setStream n y).v = x.v := rfl
@[simp] theorem Hart.setStream_m (x : Hart) (n : Nat) (y : Stream) : (x.setStream n y).m = x.m := rfl
@[simp] theorem Hart.setStream_fib (x : Hart) (n : Nat) (y : Stream) : (x.setStream n y).fib = x.fib := rfl
@[simp] theorem Hart.setStream_vsegCount (x : Hart) (n : Nat) (y : Stream) : (x.setStream n y).vsegCount = x.vsegCount := rfl
@[simp] theorem Hart.setStream_vsegOff (x : Hart) (n : Nat) (y : Stream) : (x.setStream n y).vsegOff = x.vsegOff := rfl
@[simp] theorem Hart.setStream_fmask (x : Hart) (n : Nat) (y : Stream) : (x.setStream n y).fmask = x.fmask := rfl
@[simp] theorem Hart.setStream_vl (x : Hart) (n : Nat) (y : Stream) : (x.setStream n y).vl = x.vl := rfl
@[simp] theorem Hart.setStream_vtype (x : Hart) (n : Nat) (y : Stream) : (x.setStream n y).vtype = x.vtype := rfl
@[simp] theorem Hart.setStream_vlPush (x : Hart) (n : Nat) (y : Stream) : (x.setStream n y).vlPush = x.vlPush := rfl
@[simp] theorem Hart.setStream_vtPush (x : Hart) (n : Nat) (y : Stream) : (x.setStream n y).vtPush = x.vtPush := rfl
@[simp] theorem Hart.setStream_vstart (x : Hart) (n : Nat) (y : Stream) : (x.setStream n y).vstart = x.vstart := rfl
@[simp] theorem Hart.setStream_vprog (x : Hart) (n : Nat) (y : Stream) : (x.setStream n y).vprog = x.vprog := rfl
@[simp] theorem Hart.setStream_fcsr (x : Hart) (n : Nat) (y : Stream) : (x.setStream n y).fcsr = x.fcsr := rfl
@[simp] theorem Hart.setStream_vcp (x : Hart) (n : Nat) (y : Stream) : (x.setStream n y).vcp = x.vcp := rfl
@[simp] theorem Hart.setStream_vqtail (x : Hart) (n : Nat) (y : Stream) : (x.setStream n y).vqtail = x.vqtail := rfl
@[simp] theorem Hart.setStream_taskid (x : Hart) (n : Nat) (y : Stream) : (x.setStream n y).taskid = x.taskid := rfl
@[simp] theorem Hart.setStream_stripbase (x : Hart) (n : Nat) (y : Stream) : (x.setStream n y).stripbase = x.stripbase := rfl
@[simp] theorem Hart.setStream_striplen (x : Hart) (n : Nat) (y : Stream) : (x.setStream n y).striplen = x.striplen := rfl
@[simp] theorem Hart.setStream_tcause (x : Hart) (n : Nat) (y : Stream) : (x.setStream n y).tcause = x.tcause := rfl
@[simp] theorem Hart.setStream_tpc (x : Hart) (n : Nat) (y : Stream) : (x.setStream n y).tpc = x.tpc := rfl
@[simp] theorem Hart.setStream_tvqpPos (x : Hart) (n : Nat) (y : Stream) : (x.setStream n y).tvqpPos = x.tvqpPos := rfl
@[simp] theorem Hart.setStream_tvqpV (x : Hart) (n : Nat) (y : Stream) : (x.setStream n y).tvqpV = x.tvqpV := rfl
@[simp] theorem Hart.setStream_taddr (x : Hart) (n : Nat) (y : Stream) : (x.setStream n y).taddr = x.taddr := rfl
@[simp] theorem Hart.setStream_taddr2 (x : Hart) (n : Nat) (y : Stream) : (x.setStream n y).taddr2 = x.taddr2 := rfl
@[simp] theorem Hart.setStream_tinfo (x : Hart) (n : Nat) (y : Stream) : (x.setStream n y).tinfo = x.tinfo := rfl
@[simp] theorem Hart.setStream_tvec (x : Hart) (n : Nat) (y : Stream) : (x.setStream n y).tvec = x.tvec := rfl
@[simp] theorem Hart.setStream_tstatus (x : Hart) (n : Nat) (y : Stream) : (x.setStream n y).tstatus = x.tstatus := rfl
@[simp] theorem Hart.setStream_tscr (x : Hart) (n : Nat) (y : Stream) : (x.setStream n y).tscr = x.tscr := rfl
@[simp] theorem Hart.setStream_asn (x : Hart) (n : Nat) (y : Stream) : (x.setStream n y).asn = x.asn := rfl
@[simp] theorem Hart.setStream_imgbase (x : Hart) (n : Nat) (y : Stream) : (x.setStream n y).imgbase = x.imgbase := rfl
@[simp] theorem Hart.setStream_fb (x : Hart) (n : Nat) (y : Stream) : (x.setStream n y).fb = x.fb := rfl
@[simp] theorem Hart.setStream_fbn (x : Hart) (n : Nat) (y : Stream) : (x.setStream n y).fbn = x.fbn := rfl
@[simp] theorem Hart.setStream_pbuf (x : Hart) (n : Nat) (y : Stream) : (x.setStream n y).pbuf = x.pbuf := rfl
@[simp] theorem Hart.setStream_pspec (x : Hart) (n : Nat) (y : Stream) : (x.setStream n y).pspec = x.pspec := rfl
@[simp] theorem Hart.setStream_sup (x : Hart) (n : Nat) (y : Stream) : (x.setStream n y).sup = x.sup := rfl
@[simp] theorem Hart.setStream_waiting (x : Hart) (n : Nat) (y : Stream) : (x.setStream n y).waiting = x.waiting := rfl
@[simp] theorem Hart.setStream_bound (x : Hart) (n : Nat) (y : Stream) : (x.setStream n y).bound = x.bound := rfl
@[simp] theorem Hart.setStream_ending (x : Hart) (n : Nat) (y : Stream) : (x.setStream n y).ending = x.ending := rfl
@[simp] theorem Hart.setStream_wake (x : Hart) (n : Nat) (y : Stream) : (x.setStream n y).wake = x.wake := rfl
@[simp] theorem Hart.setStream_stopped (x : Hart) (n : Nat) (y : Stream) : (x.setStream n y).stopped = x.stopped := rfl
@[simp] theorem Hart.setStream_die (x : Hart) (n : Nat) (y : Stream) : (x.setStream n y).die = x.die := rfl
@[simp] theorem Hart.setStream_core (x : Hart) (n : Nat) (y : Stream) : (x.setStream n y).core = x.core := rfl
@[simp] theorem Hart.setStream_slot (x : Hart) (n : Nat) (y : Stream) : (x.setStream n y).slot = x.slot := rfl
@[simp] theorem Hart.setStream_queue (x : Hart) (n : Nat) (y : Stream) : (x.setStream n y).queue = x.queue := rfl
@[simp] theorem Hart.setStream_saved (x : Hart) (n : Nat) (y : Stream) : (x.setStream n y).saved = x.saved := rfl
@[simp] theorem Hart.setStream_replayed (x : Hart) (n : Nat) (y : Stream) : (x.setStream n y).replayed = x.replayed := rfl
@[simp] theorem Hart.setStream_replaying (x : Hart) (n : Nat) (y : Stream) : (x.setStream n y).replaying = x.replaying := rfl
@[simp] theorem Hart.setStream_traps (x : Hart) (n : Nat) (y : Stream) : (x.setStream n y).traps = x.traps := rfl
@[simp] theorem Hart.setStream_heldTrap (x : Hart) (n : Nat) (y : Stream) : (x.setStream n y).heldTrap = x.heldTrap := rfl
@[simp] theorem Hart.setStream_pend (x : Hart) (n : Nat) (y : Stream) : (x.setStream n y).pend = x.pend := rfl
@[simp] theorem Hart.setStream_entries (x : Hart) (n : Nat) (y : Stream) : (x.setStream n y).entries = x.entries := rfl
@[simp] theorem Hart.setStream_held (x : Hart) (n : Nat) (y : Stream) : (x.setStream n y).held = x.held := rfl
@[simp] theorem Hart.setStream_heldPush (x : Hart) (n : Nat) (y : Stream) : (x.setStream n y).heldPush = x.heldPush := rfl
@[simp] theorem Hart.setStream_waitFrom (x : Hart) (n : Nat) (y : Stream) : (x.setStream n y).waitFrom = x.waitFrom := rfl
@[simp] theorem Hart.setStream_waitQuad (x : Hart) (n : Nat) (y : Stream) : (x.setStream n y).waitQuad = x.waitQuad := rfl
@[simp] theorem Hart.setStream_syncOn (x : Hart) (n : Nat) (y : Stream) : (x.setStream n y).syncOn = x.syncOn := rfl
@[simp] theorem Hart.setStream_heldReads (x : Hart) (n : Nat) (y : Stream) : (x.setStream n y).heldReads = x.heldReads := rfl
@[simp] theorem Hart.setStream_preempt (x : Hart) (n : Nat) (y : Stream) : (x.setStream n y).preempt = x.preempt := rfl
@[simp] theorem Hart.setStream_preempted (x : Hart) (n : Nat) (y : Stream) : (x.setStream n y).preempted = x.preempted := rfl
@[simp] theorem Hart.setStream_yieldTo (x : Hart) (n : Nat) (y : Stream) : (x.setStream n y).yieldTo = x.yieldTo := rfl
@[simp] theorem Hart.setStream_leftAt (x : Hart) (n : Nat) (y : Stream) : (x.setStream n y).leftAt = x.leftAt := rfl
@[simp] theorem Hart.setStream_gaveUp (x : Hart) (n : Nat) (y : Stream) : (x.setStream n y).gaveUp = x.gaveUp := rfl
@[simp] theorem Hart.setStream_outcnt (x : Hart) (n : Nat) (y : Stream) : (x.setStream n y).outcnt = x.outcnt := rfl
@[simp] theorem Hart.setStream_lost (x : Hart) (n : Nat) (y : Stream) : (x.setStream n y).lost = x.lost := rfl
@[simp] theorem Hart.setStream_task (x : Hart) (n : Nat) (y : Stream) : (x.setStream n y).task = x.task := rfl
@[simp] theorem Hart.setStream_ordinal (x : Hart) (n : Nat) (y : Stream) : (x.setStream n y).ordinal = x.ordinal := rfl
@[simp] theorem Hart.setStream_boundAt (x : Hart) (n : Nat) (y : Stream) : (x.setStream n y).boundAt = x.boundAt := rfl
@[simp] theorem Hart.setStream_strips (x : Hart) (n : Nat) (y : Stream) : (x.setStream n y).strips = x.strips := rfl
@[simp] theorem Hart.setStream_lastbu (x : Hart) (n : Nat) (y : Stream) : (x.setStream n y).lastbu = x.lastbu := rfl
@[simp] theorem Hart.setStream_rsPoison (x : Hart) (n : Nat) (y : Stream) : (x.setStream n y).rsPoison = x.rsPoison := rfl
@[simp] theorem Hart.orFlags_pc (x : Hart) (f : BitVec 8) : (x.orFlags f).pc = x.pc := rfl
@[simp] theorem Hart.orFlags_s (x : Hart) (f : BitVec 8) : (x.orFlags f).s = x.s := rfl
@[simp] theorem Hart.orFlags_p (x : Hart) (f : BitVec 8) : (x.orFlags f).p = x.p := rfl
@[simp] theorem Hart.orFlags_v (x : Hart) (f : BitVec 8) : (x.orFlags f).v = x.v := rfl
@[simp] theorem Hart.orFlags_m (x : Hart) (f : BitVec 8) : (x.orFlags f).m = x.m := rfl
@[simp] theorem Hart.orFlags_fib (x : Hart) (f : BitVec 8) : (x.orFlags f).fib = x.fib := rfl
@[simp] theorem Hart.orFlags_q (x : Hart) (f : BitVec 8) : (x.orFlags f).q = x.q := rfl
@[simp] theorem Hart.orFlags_vsegCount (x : Hart) (f : BitVec 8) : (x.orFlags f).vsegCount = x.vsegCount := rfl
@[simp] theorem Hart.orFlags_vsegOff (x : Hart) (f : BitVec 8) : (x.orFlags f).vsegOff = x.vsegOff := rfl
@[simp] theorem Hart.orFlags_fmask (x : Hart) (f : BitVec 8) : (x.orFlags f).fmask = x.fmask := rfl
@[simp] theorem Hart.orFlags_vl (x : Hart) (f : BitVec 8) : (x.orFlags f).vl = x.vl := rfl
@[simp] theorem Hart.orFlags_vtype (x : Hart) (f : BitVec 8) : (x.orFlags f).vtype = x.vtype := rfl
@[simp] theorem Hart.orFlags_vlPush (x : Hart) (f : BitVec 8) : (x.orFlags f).vlPush = x.vlPush := rfl
@[simp] theorem Hart.orFlags_vtPush (x : Hart) (f : BitVec 8) : (x.orFlags f).vtPush = x.vtPush := rfl
@[simp] theorem Hart.orFlags_vstart (x : Hart) (f : BitVec 8) : (x.orFlags f).vstart = x.vstart := rfl
@[simp] theorem Hart.orFlags_vprog (x : Hart) (f : BitVec 8) : (x.orFlags f).vprog = x.vprog := rfl
@[simp] theorem Hart.orFlags_vcp (x : Hart) (f : BitVec 8) : (x.orFlags f).vcp = x.vcp := rfl
@[simp] theorem Hart.orFlags_vqtail (x : Hart) (f : BitVec 8) : (x.orFlags f).vqtail = x.vqtail := rfl
@[simp] theorem Hart.orFlags_taskid (x : Hart) (f : BitVec 8) : (x.orFlags f).taskid = x.taskid := rfl
@[simp] theorem Hart.orFlags_stripbase (x : Hart) (f : BitVec 8) : (x.orFlags f).stripbase = x.stripbase := rfl
@[simp] theorem Hart.orFlags_striplen (x : Hart) (f : BitVec 8) : (x.orFlags f).striplen = x.striplen := rfl
@[simp] theorem Hart.orFlags_tcause (x : Hart) (f : BitVec 8) : (x.orFlags f).tcause = x.tcause := rfl
@[simp] theorem Hart.orFlags_tpc (x : Hart) (f : BitVec 8) : (x.orFlags f).tpc = x.tpc := rfl
@[simp] theorem Hart.orFlags_tvqpPos (x : Hart) (f : BitVec 8) : (x.orFlags f).tvqpPos = x.tvqpPos := rfl
@[simp] theorem Hart.orFlags_tvqpV (x : Hart) (f : BitVec 8) : (x.orFlags f).tvqpV = x.tvqpV := rfl
@[simp] theorem Hart.orFlags_taddr (x : Hart) (f : BitVec 8) : (x.orFlags f).taddr = x.taddr := rfl
@[simp] theorem Hart.orFlags_taddr2 (x : Hart) (f : BitVec 8) : (x.orFlags f).taddr2 = x.taddr2 := rfl
@[simp] theorem Hart.orFlags_tinfo (x : Hart) (f : BitVec 8) : (x.orFlags f).tinfo = x.tinfo := rfl
@[simp] theorem Hart.orFlags_tvec (x : Hart) (f : BitVec 8) : (x.orFlags f).tvec = x.tvec := rfl
@[simp] theorem Hart.orFlags_tstatus (x : Hart) (f : BitVec 8) : (x.orFlags f).tstatus = x.tstatus := rfl
@[simp] theorem Hart.orFlags_tscr (x : Hart) (f : BitVec 8) : (x.orFlags f).tscr = x.tscr := rfl
@[simp] theorem Hart.orFlags_asn (x : Hart) (f : BitVec 8) : (x.orFlags f).asn = x.asn := rfl
@[simp] theorem Hart.orFlags_imgbase (x : Hart) (f : BitVec 8) : (x.orFlags f).imgbase = x.imgbase := rfl
@[simp] theorem Hart.orFlags_fb (x : Hart) (f : BitVec 8) : (x.orFlags f).fb = x.fb := rfl
@[simp] theorem Hart.orFlags_fbn (x : Hart) (f : BitVec 8) : (x.orFlags f).fbn = x.fbn := rfl
@[simp] theorem Hart.orFlags_pbuf (x : Hart) (f : BitVec 8) : (x.orFlags f).pbuf = x.pbuf := rfl
@[simp] theorem Hart.orFlags_pspec (x : Hart) (f : BitVec 8) : (x.orFlags f).pspec = x.pspec := rfl
@[simp] theorem Hart.orFlags_sup (x : Hart) (f : BitVec 8) : (x.orFlags f).sup = x.sup := rfl
@[simp] theorem Hart.orFlags_waiting (x : Hart) (f : BitVec 8) : (x.orFlags f).waiting = x.waiting := rfl
@[simp] theorem Hart.orFlags_bound (x : Hart) (f : BitVec 8) : (x.orFlags f).bound = x.bound := rfl
@[simp] theorem Hart.orFlags_ending (x : Hart) (f : BitVec 8) : (x.orFlags f).ending = x.ending := rfl
@[simp] theorem Hart.orFlags_wake (x : Hart) (f : BitVec 8) : (x.orFlags f).wake = x.wake := rfl
@[simp] theorem Hart.orFlags_stopped (x : Hart) (f : BitVec 8) : (x.orFlags f).stopped = x.stopped := rfl
@[simp] theorem Hart.orFlags_die (x : Hart) (f : BitVec 8) : (x.orFlags f).die = x.die := rfl
@[simp] theorem Hart.orFlags_core (x : Hart) (f : BitVec 8) : (x.orFlags f).core = x.core := rfl
@[simp] theorem Hart.orFlags_slot (x : Hart) (f : BitVec 8) : (x.orFlags f).slot = x.slot := rfl
@[simp] theorem Hart.orFlags_queue (x : Hart) (f : BitVec 8) : (x.orFlags f).queue = x.queue := rfl
@[simp] theorem Hart.orFlags_saved (x : Hart) (f : BitVec 8) : (x.orFlags f).saved = x.saved := rfl
@[simp] theorem Hart.orFlags_replayed (x : Hart) (f : BitVec 8) : (x.orFlags f).replayed = x.replayed := rfl
@[simp] theorem Hart.orFlags_replaying (x : Hart) (f : BitVec 8) : (x.orFlags f).replaying = x.replaying := rfl
@[simp] theorem Hart.orFlags_traps (x : Hart) (f : BitVec 8) : (x.orFlags f).traps = x.traps := rfl
@[simp] theorem Hart.orFlags_heldTrap (x : Hart) (f : BitVec 8) : (x.orFlags f).heldTrap = x.heldTrap := rfl
@[simp] theorem Hart.orFlags_pend (x : Hart) (f : BitVec 8) : (x.orFlags f).pend = x.pend := rfl
@[simp] theorem Hart.orFlags_entries (x : Hart) (f : BitVec 8) : (x.orFlags f).entries = x.entries := rfl
@[simp] theorem Hart.orFlags_held (x : Hart) (f : BitVec 8) : (x.orFlags f).held = x.held := rfl
@[simp] theorem Hart.orFlags_heldPush (x : Hart) (f : BitVec 8) : (x.orFlags f).heldPush = x.heldPush := rfl
@[simp] theorem Hart.orFlags_waitFrom (x : Hart) (f : BitVec 8) : (x.orFlags f).waitFrom = x.waitFrom := rfl
@[simp] theorem Hart.orFlags_waitQuad (x : Hart) (f : BitVec 8) : (x.orFlags f).waitQuad = x.waitQuad := rfl
@[simp] theorem Hart.orFlags_syncOn (x : Hart) (f : BitVec 8) : (x.orFlags f).syncOn = x.syncOn := rfl
@[simp] theorem Hart.orFlags_heldReads (x : Hart) (f : BitVec 8) : (x.orFlags f).heldReads = x.heldReads := rfl
@[simp] theorem Hart.orFlags_preempt (x : Hart) (f : BitVec 8) : (x.orFlags f).preempt = x.preempt := rfl
@[simp] theorem Hart.orFlags_preempted (x : Hart) (f : BitVec 8) : (x.orFlags f).preempted = x.preempted := rfl
@[simp] theorem Hart.orFlags_yieldTo (x : Hart) (f : BitVec 8) : (x.orFlags f).yieldTo = x.yieldTo := rfl
@[simp] theorem Hart.orFlags_leftAt (x : Hart) (f : BitVec 8) : (x.orFlags f).leftAt = x.leftAt := rfl
@[simp] theorem Hart.orFlags_gaveUp (x : Hart) (f : BitVec 8) : (x.orFlags f).gaveUp = x.gaveUp := rfl
@[simp] theorem Hart.orFlags_outcnt (x : Hart) (f : BitVec 8) : (x.orFlags f).outcnt = x.outcnt := rfl
@[simp] theorem Hart.orFlags_lost (x : Hart) (f : BitVec 8) : (x.orFlags f).lost = x.lost := rfl
@[simp] theorem Hart.orFlags_task (x : Hart) (f : BitVec 8) : (x.orFlags f).task = x.task := rfl
@[simp] theorem Hart.orFlags_ordinal (x : Hart) (f : BitVec 8) : (x.orFlags f).ordinal = x.ordinal := rfl
@[simp] theorem Hart.orFlags_boundAt (x : Hart) (f : BitVec 8) : (x.orFlags f).boundAt = x.boundAt := rfl
@[simp] theorem Hart.orFlags_strips (x : Hart) (f : BitVec 8) : (x.orFlags f).strips = x.strips := rfl
@[simp] theorem Hart.orFlags_lastbu (x : Hart) (f : BitVec 8) : (x.orFlags f).lastbu = x.lastbu := rfl
@[simp] theorem Hart.orFlags_rsPoison (x : Hart) (f : BitVec 8) : (x.orFlags f).rsPoison = x.rsPoison := rfl
@[simp] theorem Hart.issueWrite_pc (x : Hart) (p : Bool) (n : Nat) (v : Word) (f : BitVec 8) (L : Nat) (flt : Bool) : (x.issueWrite p n v f L flt).pc = x.pc := rfl
@[simp] theorem Hart.issueWrite_s (x : Hart) (p : Bool) (n : Nat) (v : Word) (f : BitVec 8) (L : Nat) (flt : Bool) : (x.issueWrite p n v f L flt).s = x.s := rfl
@[simp] theorem Hart.issueWrite_p (x : Hart) (p : Bool) (n : Nat) (v : Word) (f : BitVec 8) (L : Nat) (flt : Bool) : (x.issueWrite p n v f L flt).p = x.p := rfl
@[simp] theorem Hart.issueWrite_v (x : Hart) (p : Bool) (n : Nat) (v : Word) (f : BitVec 8) (L : Nat) (flt : Bool) : (x.issueWrite p n v f L flt).v = x.v := rfl
@[simp] theorem Hart.issueWrite_m (x : Hart) (p : Bool) (n : Nat) (v : Word) (f : BitVec 8) (L : Nat) (flt : Bool) : (x.issueWrite p n v f L flt).m = x.m := rfl
@[simp] theorem Hart.issueWrite_fib (x : Hart) (p : Bool) (n : Nat) (v : Word) (f : BitVec 8) (L : Nat) (flt : Bool) : (x.issueWrite p n v f L flt).fib = x.fib := rfl
@[simp] theorem Hart.issueWrite_q (x : Hart) (p : Bool) (n : Nat) (v : Word) (f : BitVec 8) (L : Nat) (flt : Bool) : (x.issueWrite p n v f L flt).q = x.q := rfl
@[simp] theorem Hart.issueWrite_vsegCount (x : Hart) (p : Bool) (n : Nat) (v : Word) (f : BitVec 8) (L : Nat) (flt : Bool) : (x.issueWrite p n v f L flt).vsegCount = x.vsegCount := rfl
@[simp] theorem Hart.issueWrite_vsegOff (x : Hart) (p : Bool) (n : Nat) (v : Word) (f : BitVec 8) (L : Nat) (flt : Bool) : (x.issueWrite p n v f L flt).vsegOff = x.vsegOff := rfl
@[simp] theorem Hart.issueWrite_fmask (x : Hart) (p : Bool) (n : Nat) (v : Word) (f : BitVec 8) (L : Nat) (flt : Bool) : (x.issueWrite p n v f L flt).fmask = x.fmask := rfl
@[simp] theorem Hart.issueWrite_vl (x : Hart) (p : Bool) (n : Nat) (v : Word) (f : BitVec 8) (L : Nat) (flt : Bool) : (x.issueWrite p n v f L flt).vl = x.vl := rfl
@[simp] theorem Hart.issueWrite_vtype (x : Hart) (p : Bool) (n : Nat) (v : Word) (f : BitVec 8) (L : Nat) (flt : Bool) : (x.issueWrite p n v f L flt).vtype = x.vtype := rfl
@[simp] theorem Hart.issueWrite_vlPush (x : Hart) (p : Bool) (n : Nat) (v : Word) (f : BitVec 8) (L : Nat) (flt : Bool) : (x.issueWrite p n v f L flt).vlPush = x.vlPush := rfl
@[simp] theorem Hart.issueWrite_vtPush (x : Hart) (p : Bool) (n : Nat) (v : Word) (f : BitVec 8) (L : Nat) (flt : Bool) : (x.issueWrite p n v f L flt).vtPush = x.vtPush := rfl
@[simp] theorem Hart.issueWrite_vstart (x : Hart) (p : Bool) (n : Nat) (v : Word) (f : BitVec 8) (L : Nat) (flt : Bool) : (x.issueWrite p n v f L flt).vstart = x.vstart := rfl
@[simp] theorem Hart.issueWrite_vprog (x : Hart) (p : Bool) (n : Nat) (v : Word) (f : BitVec 8) (L : Nat) (flt : Bool) : (x.issueWrite p n v f L flt).vprog = x.vprog := rfl
@[simp] theorem Hart.issueWrite_fcsr (x : Hart) (p : Bool) (n : Nat) (v : Word) (f : BitVec 8) (L : Nat) (flt : Bool) : (x.issueWrite p n v f L flt).fcsr = x.fcsr := rfl
@[simp] theorem Hart.issueWrite_vcp (x : Hart) (p : Bool) (n : Nat) (v : Word) (f : BitVec 8) (L : Nat) (flt : Bool) : (x.issueWrite p n v f L flt).vcp = x.vcp := rfl
@[simp] theorem Hart.issueWrite_vqtail (x : Hart) (p : Bool) (n : Nat) (v : Word) (f : BitVec 8) (L : Nat) (flt : Bool) : (x.issueWrite p n v f L flt).vqtail = x.vqtail := rfl
@[simp] theorem Hart.issueWrite_taskid (x : Hart) (p : Bool) (n : Nat) (v : Word) (f : BitVec 8) (L : Nat) (flt : Bool) : (x.issueWrite p n v f L flt).taskid = x.taskid := rfl
@[simp] theorem Hart.issueWrite_stripbase (x : Hart) (p : Bool) (n : Nat) (v : Word) (f : BitVec 8) (L : Nat) (flt : Bool) : (x.issueWrite p n v f L flt).stripbase = x.stripbase := rfl
@[simp] theorem Hart.issueWrite_striplen (x : Hart) (p : Bool) (n : Nat) (v : Word) (f : BitVec 8) (L : Nat) (flt : Bool) : (x.issueWrite p n v f L flt).striplen = x.striplen := rfl
@[simp] theorem Hart.issueWrite_tcause (x : Hart) (p : Bool) (n : Nat) (v : Word) (f : BitVec 8) (L : Nat) (flt : Bool) : (x.issueWrite p n v f L flt).tcause = x.tcause := rfl
@[simp] theorem Hart.issueWrite_tpc (x : Hart) (p : Bool) (n : Nat) (v : Word) (f : BitVec 8) (L : Nat) (flt : Bool) : (x.issueWrite p n v f L flt).tpc = x.tpc := rfl
@[simp] theorem Hart.issueWrite_tvqpPos (x : Hart) (p : Bool) (n : Nat) (v : Word) (f : BitVec 8) (L : Nat) (flt : Bool) : (x.issueWrite p n v f L flt).tvqpPos = x.tvqpPos := rfl
@[simp] theorem Hart.issueWrite_tvqpV (x : Hart) (p : Bool) (n : Nat) (v : Word) (f : BitVec 8) (L : Nat) (flt : Bool) : (x.issueWrite p n v f L flt).tvqpV = x.tvqpV := rfl
@[simp] theorem Hart.issueWrite_taddr (x : Hart) (p : Bool) (n : Nat) (v : Word) (f : BitVec 8) (L : Nat) (flt : Bool) : (x.issueWrite p n v f L flt).taddr = x.taddr := rfl
@[simp] theorem Hart.issueWrite_taddr2 (x : Hart) (p : Bool) (n : Nat) (v : Word) (f : BitVec 8) (L : Nat) (flt : Bool) : (x.issueWrite p n v f L flt).taddr2 = x.taddr2 := rfl
@[simp] theorem Hart.issueWrite_tinfo (x : Hart) (p : Bool) (n : Nat) (v : Word) (f : BitVec 8) (L : Nat) (flt : Bool) : (x.issueWrite p n v f L flt).tinfo = x.tinfo := rfl
@[simp] theorem Hart.issueWrite_tvec (x : Hart) (p : Bool) (n : Nat) (v : Word) (f : BitVec 8) (L : Nat) (flt : Bool) : (x.issueWrite p n v f L flt).tvec = x.tvec := rfl
@[simp] theorem Hart.issueWrite_tstatus (x : Hart) (p : Bool) (n : Nat) (v : Word) (f : BitVec 8) (L : Nat) (flt : Bool) : (x.issueWrite p n v f L flt).tstatus = x.tstatus := rfl
@[simp] theorem Hart.issueWrite_tscr (x : Hart) (p : Bool) (n : Nat) (v : Word) (f : BitVec 8) (L : Nat) (flt : Bool) : (x.issueWrite p n v f L flt).tscr = x.tscr := rfl
@[simp] theorem Hart.issueWrite_asn (x : Hart) (p : Bool) (n : Nat) (v : Word) (f : BitVec 8) (L : Nat) (flt : Bool) : (x.issueWrite p n v f L flt).asn = x.asn := rfl
@[simp] theorem Hart.issueWrite_imgbase (x : Hart) (p : Bool) (n : Nat) (v : Word) (f : BitVec 8) (L : Nat) (flt : Bool) : (x.issueWrite p n v f L flt).imgbase = x.imgbase := rfl
@[simp] theorem Hart.issueWrite_fb (x : Hart) (p : Bool) (n : Nat) (v : Word) (f : BitVec 8) (L : Nat) (flt : Bool) : (x.issueWrite p n v f L flt).fb = x.fb := rfl
@[simp] theorem Hart.issueWrite_fbn (x : Hart) (p : Bool) (n : Nat) (v : Word) (f : BitVec 8) (L : Nat) (flt : Bool) : (x.issueWrite p n v f L flt).fbn = x.fbn := rfl
@[simp] theorem Hart.issueWrite_pbuf (x : Hart) (p : Bool) (n : Nat) (v : Word) (f : BitVec 8) (L : Nat) (flt : Bool) : (x.issueWrite p n v f L flt).pbuf = x.pbuf := rfl
@[simp] theorem Hart.issueWrite_pspec (x : Hart) (p : Bool) (n : Nat) (v : Word) (f : BitVec 8) (L : Nat) (flt : Bool) : (x.issueWrite p n v f L flt).pspec = x.pspec := rfl
@[simp] theorem Hart.issueWrite_sup (x : Hart) (p : Bool) (n : Nat) (v : Word) (f : BitVec 8) (L : Nat) (flt : Bool) : (x.issueWrite p n v f L flt).sup = x.sup := rfl
@[simp] theorem Hart.issueWrite_waiting (x : Hart) (p : Bool) (n : Nat) (v : Word) (f : BitVec 8) (L : Nat) (flt : Bool) : (x.issueWrite p n v f L flt).waiting = x.waiting := rfl
@[simp] theorem Hart.issueWrite_bound (x : Hart) (p : Bool) (n : Nat) (v : Word) (f : BitVec 8) (L : Nat) (flt : Bool) : (x.issueWrite p n v f L flt).bound = x.bound := rfl
@[simp] theorem Hart.issueWrite_ending (x : Hart) (p : Bool) (n : Nat) (v : Word) (f : BitVec 8) (L : Nat) (flt : Bool) : (x.issueWrite p n v f L flt).ending = x.ending := rfl
@[simp] theorem Hart.issueWrite_wake (x : Hart) (p : Bool) (n : Nat) (v : Word) (f : BitVec 8) (L : Nat) (flt : Bool) : (x.issueWrite p n v f L flt).wake = x.wake := rfl
@[simp] theorem Hart.issueWrite_stopped (x : Hart) (p : Bool) (n : Nat) (v : Word) (f : BitVec 8) (L : Nat) (flt : Bool) : (x.issueWrite p n v f L flt).stopped = x.stopped := rfl
@[simp] theorem Hart.issueWrite_die (x : Hart) (p : Bool) (n : Nat) (v : Word) (f : BitVec 8) (L : Nat) (flt : Bool) : (x.issueWrite p n v f L flt).die = x.die := rfl
@[simp] theorem Hart.issueWrite_core (x : Hart) (p : Bool) (n : Nat) (v : Word) (f : BitVec 8) (L : Nat) (flt : Bool) : (x.issueWrite p n v f L flt).core = x.core := rfl
@[simp] theorem Hart.issueWrite_slot (x : Hart) (p : Bool) (n : Nat) (v : Word) (f : BitVec 8) (L : Nat) (flt : Bool) : (x.issueWrite p n v f L flt).slot = x.slot := rfl
@[simp] theorem Hart.issueWrite_queue (x : Hart) (p : Bool) (n : Nat) (v : Word) (f : BitVec 8) (L : Nat) (flt : Bool) : (x.issueWrite p n v f L flt).queue = x.queue := rfl
@[simp] theorem Hart.issueWrite_saved (x : Hart) (p : Bool) (n : Nat) (v : Word) (f : BitVec 8) (L : Nat) (flt : Bool) : (x.issueWrite p n v f L flt).saved = x.saved := rfl
@[simp] theorem Hart.issueWrite_replayed (x : Hart) (p : Bool) (n : Nat) (v : Word) (f : BitVec 8) (L : Nat) (flt : Bool) : (x.issueWrite p n v f L flt).replayed = x.replayed := rfl
@[simp] theorem Hart.issueWrite_replaying (x : Hart) (p : Bool) (n : Nat) (v : Word) (f : BitVec 8) (L : Nat) (flt : Bool) : (x.issueWrite p n v f L flt).replaying = x.replaying := rfl
@[simp] theorem Hart.issueWrite_traps (x : Hart) (p : Bool) (n : Nat) (v : Word) (f : BitVec 8) (L : Nat) (flt : Bool) : (x.issueWrite p n v f L flt).traps = x.traps := rfl
@[simp] theorem Hart.issueWrite_heldTrap (x : Hart) (p : Bool) (n : Nat) (v : Word) (f : BitVec 8) (L : Nat) (flt : Bool) : (x.issueWrite p n v f L flt).heldTrap = x.heldTrap := rfl
@[simp] theorem Hart.issueWrite_entries (x : Hart) (p : Bool) (n : Nat) (v : Word) (f : BitVec 8) (L : Nat) (flt : Bool) : (x.issueWrite p n v f L flt).entries = x.entries := rfl
@[simp] theorem Hart.issueWrite_held (x : Hart) (p : Bool) (n : Nat) (v : Word) (f : BitVec 8) (L : Nat) (flt : Bool) : (x.issueWrite p n v f L flt).held = x.held := rfl
@[simp] theorem Hart.issueWrite_heldPush (x : Hart) (p : Bool) (n : Nat) (v : Word) (f : BitVec 8) (L : Nat) (flt : Bool) : (x.issueWrite p n v f L flt).heldPush = x.heldPush := rfl
@[simp] theorem Hart.issueWrite_waitFrom (x : Hart) (p : Bool) (n : Nat) (v : Word) (f : BitVec 8) (L : Nat) (flt : Bool) : (x.issueWrite p n v f L flt).waitFrom = x.waitFrom := rfl
@[simp] theorem Hart.issueWrite_waitQuad (x : Hart) (p : Bool) (n : Nat) (v : Word) (f : BitVec 8) (L : Nat) (flt : Bool) : (x.issueWrite p n v f L flt).waitQuad = x.waitQuad := rfl
@[simp] theorem Hart.issueWrite_syncOn (x : Hart) (p : Bool) (n : Nat) (v : Word) (f : BitVec 8) (L : Nat) (flt : Bool) : (x.issueWrite p n v f L flt).syncOn = x.syncOn := rfl
@[simp] theorem Hart.issueWrite_heldReads (x : Hart) (p : Bool) (n : Nat) (v : Word) (f : BitVec 8) (L : Nat) (flt : Bool) : (x.issueWrite p n v f L flt).heldReads = x.heldReads := rfl
@[simp] theorem Hart.issueWrite_preempt (x : Hart) (p : Bool) (n : Nat) (v : Word) (f : BitVec 8) (L : Nat) (flt : Bool) : (x.issueWrite p n v f L flt).preempt = x.preempt := rfl
@[simp] theorem Hart.issueWrite_preempted (x : Hart) (p : Bool) (n : Nat) (v : Word) (f : BitVec 8) (L : Nat) (flt : Bool) : (x.issueWrite p n v f L flt).preempted = x.preempted := rfl
@[simp] theorem Hart.issueWrite_yieldTo (x : Hart) (p : Bool) (n : Nat) (v : Word) (f : BitVec 8) (L : Nat) (flt : Bool) : (x.issueWrite p n v f L flt).yieldTo = x.yieldTo := rfl
@[simp] theorem Hart.issueWrite_leftAt (x : Hart) (p : Bool) (n : Nat) (v : Word) (f : BitVec 8) (L : Nat) (flt : Bool) : (x.issueWrite p n v f L flt).leftAt = x.leftAt := rfl
@[simp] theorem Hart.issueWrite_gaveUp (x : Hart) (p : Bool) (n : Nat) (v : Word) (f : BitVec 8) (L : Nat) (flt : Bool) : (x.issueWrite p n v f L flt).gaveUp = x.gaveUp := rfl
@[simp] theorem Hart.issueWrite_outcnt (x : Hart) (p : Bool) (n : Nat) (v : Word) (f : BitVec 8) (L : Nat) (flt : Bool) : (x.issueWrite p n v f L flt).outcnt = x.outcnt := rfl
@[simp] theorem Hart.issueWrite_lost (x : Hart) (p : Bool) (n : Nat) (v : Word) (f : BitVec 8) (L : Nat) (flt : Bool) : (x.issueWrite p n v f L flt).lost = x.lost := rfl
@[simp] theorem Hart.issueWrite_task (x : Hart) (p : Bool) (n : Nat) (v : Word) (f : BitVec 8) (L : Nat) (flt : Bool) : (x.issueWrite p n v f L flt).task = x.task := rfl
@[simp] theorem Hart.issueWrite_ordinal (x : Hart) (p : Bool) (n : Nat) (v : Word) (f : BitVec 8) (L : Nat) (flt : Bool) : (x.issueWrite p n v f L flt).ordinal = x.ordinal := rfl
@[simp] theorem Hart.issueWrite_boundAt (x : Hart) (p : Bool) (n : Nat) (v : Word) (f : BitVec 8) (L : Nat) (flt : Bool) : (x.issueWrite p n v f L flt).boundAt = x.boundAt := rfl
@[simp] theorem Hart.issueWrite_strips (x : Hart) (p : Bool) (n : Nat) (v : Word) (f : BitVec 8) (L : Nat) (flt : Bool) : (x.issueWrite p n v f L flt).strips = x.strips := rfl
@[simp] theorem Hart.issueWrite_lastbu (x : Hart) (p : Bool) (n : Nat) (v : Word) (f : BitVec 8) (L : Nat) (flt : Bool) : (x.issueWrite p n v f L flt).lastbu = x.lastbu := rfl
@[simp] theorem Hart.issueWrite_rsPoison (x : Hart) (p : Bool) (n : Nat) (v : Word) (f : BitVec 8) (L : Nat) (flt : Bool) : (x.issueWrite p n v f L flt).rsPoison = x.rsPoison := rfl
@[simp] theorem Hart.setReg_pc (x : Hart) (n : Nat) (v : Word) : (x.setReg n v).pc = x.pc := by
  unfold Hart.setReg; split <;> rfl
@[simp] theorem Hart.setReg_p (x : Hart) (n : Nat) (v : Word) : (x.setReg n v).p = x.p := by
  unfold Hart.setReg; split <;> rfl
@[simp] theorem Hart.setReg_v (x : Hart) (n : Nat) (v : Word) : (x.setReg n v).v = x.v := by
  unfold Hart.setReg; split <;> rfl
@[simp] theorem Hart.setReg_m (x : Hart) (n : Nat) (v : Word) : (x.setReg n v).m = x.m := by
  unfold Hart.setReg; split <;> rfl
@[simp] theorem Hart.setReg_fib (x : Hart) (n : Nat) (v : Word) : (x.setReg n v).fib = x.fib := by
  unfold Hart.setReg; split <;> rfl
@[simp] theorem Hart.setReg_q (x : Hart) (n : Nat) (v : Word) : (x.setReg n v).q = x.q := by
  unfold Hart.setReg; split <;> rfl
@[simp] theorem Hart.setReg_vsegCount (x : Hart) (n : Nat) (v : Word) : (x.setReg n v).vsegCount = x.vsegCount := by
  unfold Hart.setReg; split <;> rfl
@[simp] theorem Hart.setReg_vsegOff (x : Hart) (n : Nat) (v : Word) : (x.setReg n v).vsegOff = x.vsegOff := by
  unfold Hart.setReg; split <;> rfl
@[simp] theorem Hart.setReg_fmask (x : Hart) (n : Nat) (v : Word) : (x.setReg n v).fmask = x.fmask := by
  unfold Hart.setReg; split <;> rfl
@[simp] theorem Hart.setReg_vl (x : Hart) (n : Nat) (v : Word) : (x.setReg n v).vl = x.vl := by
  unfold Hart.setReg; split <;> rfl
@[simp] theorem Hart.setReg_vtype (x : Hart) (n : Nat) (v : Word) : (x.setReg n v).vtype = x.vtype := by
  unfold Hart.setReg; split <;> rfl
@[simp] theorem Hart.setReg_vlPush (x : Hart) (n : Nat) (v : Word) : (x.setReg n v).vlPush = x.vlPush := by
  unfold Hart.setReg; split <;> rfl
@[simp] theorem Hart.setReg_vtPush (x : Hart) (n : Nat) (v : Word) : (x.setReg n v).vtPush = x.vtPush := by
  unfold Hart.setReg; split <;> rfl
@[simp] theorem Hart.setReg_vstart (x : Hart) (n : Nat) (v : Word) : (x.setReg n v).vstart = x.vstart := by
  unfold Hart.setReg; split <;> rfl
@[simp] theorem Hart.setReg_vprog (x : Hart) (n : Nat) (v : Word) : (x.setReg n v).vprog = x.vprog := by
  unfold Hart.setReg; split <;> rfl
@[simp] theorem Hart.setReg_fcsr (x : Hart) (n : Nat) (v : Word) : (x.setReg n v).fcsr = x.fcsr := by
  unfold Hart.setReg; split <;> rfl
@[simp] theorem Hart.setReg_vcp (x : Hart) (n : Nat) (v : Word) : (x.setReg n v).vcp = x.vcp := by
  unfold Hart.setReg; split <;> rfl
@[simp] theorem Hart.setReg_vqtail (x : Hart) (n : Nat) (v : Word) : (x.setReg n v).vqtail = x.vqtail := by
  unfold Hart.setReg; split <;> rfl
@[simp] theorem Hart.setReg_taskid (x : Hart) (n : Nat) (v : Word) : (x.setReg n v).taskid = x.taskid := by
  unfold Hart.setReg; split <;> rfl
@[simp] theorem Hart.setReg_stripbase (x : Hart) (n : Nat) (v : Word) : (x.setReg n v).stripbase = x.stripbase := by
  unfold Hart.setReg; split <;> rfl
@[simp] theorem Hart.setReg_striplen (x : Hart) (n : Nat) (v : Word) : (x.setReg n v).striplen = x.striplen := by
  unfold Hart.setReg; split <;> rfl
@[simp] theorem Hart.setReg_tcause (x : Hart) (n : Nat) (v : Word) : (x.setReg n v).tcause = x.tcause := by
  unfold Hart.setReg; split <;> rfl
@[simp] theorem Hart.setReg_tpc (x : Hart) (n : Nat) (v : Word) : (x.setReg n v).tpc = x.tpc := by
  unfold Hart.setReg; split <;> rfl
@[simp] theorem Hart.setReg_tvqpPos (x : Hart) (n : Nat) (v : Word) : (x.setReg n v).tvqpPos = x.tvqpPos := by
  unfold Hart.setReg; split <;> rfl
@[simp] theorem Hart.setReg_tvqpV (x : Hart) (n : Nat) (v : Word) : (x.setReg n v).tvqpV = x.tvqpV := by
  unfold Hart.setReg; split <;> rfl
@[simp] theorem Hart.setReg_taddr (x : Hart) (n : Nat) (v : Word) : (x.setReg n v).taddr = x.taddr := by
  unfold Hart.setReg; split <;> rfl
@[simp] theorem Hart.setReg_taddr2 (x : Hart) (n : Nat) (v : Word) : (x.setReg n v).taddr2 = x.taddr2 := by
  unfold Hart.setReg; split <;> rfl
@[simp] theorem Hart.setReg_tinfo (x : Hart) (n : Nat) (v : Word) : (x.setReg n v).tinfo = x.tinfo := by
  unfold Hart.setReg; split <;> rfl
@[simp] theorem Hart.setReg_tvec (x : Hart) (n : Nat) (v : Word) : (x.setReg n v).tvec = x.tvec := by
  unfold Hart.setReg; split <;> rfl
@[simp] theorem Hart.setReg_tstatus (x : Hart) (n : Nat) (v : Word) : (x.setReg n v).tstatus = x.tstatus := by
  unfold Hart.setReg; split <;> rfl
@[simp] theorem Hart.setReg_tscr (x : Hart) (n : Nat) (v : Word) : (x.setReg n v).tscr = x.tscr := by
  unfold Hart.setReg; split <;> rfl
@[simp] theorem Hart.setReg_asn (x : Hart) (n : Nat) (v : Word) : (x.setReg n v).asn = x.asn := by
  unfold Hart.setReg; split <;> rfl
@[simp] theorem Hart.setReg_imgbase (x : Hart) (n : Nat) (v : Word) : (x.setReg n v).imgbase = x.imgbase := by
  unfold Hart.setReg; split <;> rfl
@[simp] theorem Hart.setReg_fb (x : Hart) (n : Nat) (v : Word) : (x.setReg n v).fb = x.fb := by
  unfold Hart.setReg; split <;> rfl
@[simp] theorem Hart.setReg_fbn (x : Hart) (n : Nat) (v : Word) : (x.setReg n v).fbn = x.fbn := by
  unfold Hart.setReg; split <;> rfl
@[simp] theorem Hart.setReg_pbuf (x : Hart) (n : Nat) (v : Word) : (x.setReg n v).pbuf = x.pbuf := by
  unfold Hart.setReg; split <;> rfl
@[simp] theorem Hart.setReg_pspec (x : Hart) (n : Nat) (v : Word) : (x.setReg n v).pspec = x.pspec := by
  unfold Hart.setReg; split <;> rfl
@[simp] theorem Hart.setReg_sup (x : Hart) (n : Nat) (v : Word) : (x.setReg n v).sup = x.sup := by
  unfold Hart.setReg; split <;> rfl
@[simp] theorem Hart.setReg_waiting (x : Hart) (n : Nat) (v : Word) : (x.setReg n v).waiting = x.waiting := by
  unfold Hart.setReg; split <;> rfl
@[simp] theorem Hart.setReg_bound (x : Hart) (n : Nat) (v : Word) : (x.setReg n v).bound = x.bound := by
  unfold Hart.setReg; split <;> rfl
@[simp] theorem Hart.setReg_ending (x : Hart) (n : Nat) (v : Word) : (x.setReg n v).ending = x.ending := by
  unfold Hart.setReg; split <;> rfl
@[simp] theorem Hart.setReg_wake (x : Hart) (n : Nat) (v : Word) : (x.setReg n v).wake = x.wake := by
  unfold Hart.setReg; split <;> rfl
@[simp] theorem Hart.setReg_stopped (x : Hart) (n : Nat) (v : Word) : (x.setReg n v).stopped = x.stopped := by
  unfold Hart.setReg; split <;> rfl
@[simp] theorem Hart.setReg_die (x : Hart) (n : Nat) (v : Word) : (x.setReg n v).die = x.die := by
  unfold Hart.setReg; split <;> rfl
@[simp] theorem Hart.setReg_core (x : Hart) (n : Nat) (v : Word) : (x.setReg n v).core = x.core := by
  unfold Hart.setReg; split <;> rfl
@[simp] theorem Hart.setReg_slot (x : Hart) (n : Nat) (v : Word) : (x.setReg n v).slot = x.slot := by
  unfold Hart.setReg; split <;> rfl
@[simp] theorem Hart.setReg_queue (x : Hart) (n : Nat) (v : Word) : (x.setReg n v).queue = x.queue := by
  unfold Hart.setReg; split <;> rfl
@[simp] theorem Hart.setReg_saved (x : Hart) (n : Nat) (v : Word) : (x.setReg n v).saved = x.saved := by
  unfold Hart.setReg; split <;> rfl
@[simp] theorem Hart.setReg_replayed (x : Hart) (n : Nat) (v : Word) : (x.setReg n v).replayed = x.replayed := by
  unfold Hart.setReg; split <;> rfl
@[simp] theorem Hart.setReg_replaying (x : Hart) (n : Nat) (v : Word) : (x.setReg n v).replaying = x.replaying := by
  unfold Hart.setReg; split <;> rfl
@[simp] theorem Hart.setReg_traps (x : Hart) (n : Nat) (v : Word) : (x.setReg n v).traps = x.traps := by
  unfold Hart.setReg; split <;> rfl
@[simp] theorem Hart.setReg_heldTrap (x : Hart) (n : Nat) (v : Word) : (x.setReg n v).heldTrap = x.heldTrap := by
  unfold Hart.setReg; split <;> rfl
@[simp] theorem Hart.setReg_pend (x : Hart) (n : Nat) (v : Word) : (x.setReg n v).pend = x.pend := by
  unfold Hart.setReg; split <;> rfl
@[simp] theorem Hart.setReg_entries (x : Hart) (n : Nat) (v : Word) : (x.setReg n v).entries = x.entries := by
  unfold Hart.setReg; split <;> rfl
@[simp] theorem Hart.setReg_held (x : Hart) (n : Nat) (v : Word) : (x.setReg n v).held = x.held := by
  unfold Hart.setReg; split <;> rfl
@[simp] theorem Hart.setReg_heldPush (x : Hart) (n : Nat) (v : Word) : (x.setReg n v).heldPush = x.heldPush := by
  unfold Hart.setReg; split <;> rfl
@[simp] theorem Hart.setReg_waitFrom (x : Hart) (n : Nat) (v : Word) : (x.setReg n v).waitFrom = x.waitFrom := by
  unfold Hart.setReg; split <;> rfl
@[simp] theorem Hart.setReg_waitQuad (x : Hart) (n : Nat) (v : Word) : (x.setReg n v).waitQuad = x.waitQuad := by
  unfold Hart.setReg; split <;> rfl
@[simp] theorem Hart.setReg_syncOn (x : Hart) (n : Nat) (v : Word) : (x.setReg n v).syncOn = x.syncOn := by
  unfold Hart.setReg; split <;> rfl
@[simp] theorem Hart.setReg_heldReads (x : Hart) (n : Nat) (v : Word) : (x.setReg n v).heldReads = x.heldReads := by
  unfold Hart.setReg; split <;> rfl
@[simp] theorem Hart.setReg_preempt (x : Hart) (n : Nat) (v : Word) : (x.setReg n v).preempt = x.preempt := by
  unfold Hart.setReg; split <;> rfl
@[simp] theorem Hart.setReg_preempted (x : Hart) (n : Nat) (v : Word) : (x.setReg n v).preempted = x.preempted := by
  unfold Hart.setReg; split <;> rfl
@[simp] theorem Hart.setReg_yieldTo (x : Hart) (n : Nat) (v : Word) : (x.setReg n v).yieldTo = x.yieldTo := by
  unfold Hart.setReg; split <;> rfl
@[simp] theorem Hart.setReg_leftAt (x : Hart) (n : Nat) (v : Word) : (x.setReg n v).leftAt = x.leftAt := by
  unfold Hart.setReg; split <;> rfl
@[simp] theorem Hart.setReg_gaveUp (x : Hart) (n : Nat) (v : Word) : (x.setReg n v).gaveUp = x.gaveUp := by
  unfold Hart.setReg; split <;> rfl
@[simp] theorem Hart.setReg_outcnt (x : Hart) (n : Nat) (v : Word) : (x.setReg n v).outcnt = x.outcnt := by
  unfold Hart.setReg; split <;> rfl
@[simp] theorem Hart.setReg_lost (x : Hart) (n : Nat) (v : Word) : (x.setReg n v).lost = x.lost := by
  unfold Hart.setReg; split <;> rfl
@[simp] theorem Hart.setReg_task (x : Hart) (n : Nat) (v : Word) : (x.setReg n v).task = x.task := by
  unfold Hart.setReg; split <;> rfl
@[simp] theorem Hart.setReg_ordinal (x : Hart) (n : Nat) (v : Word) : (x.setReg n v).ordinal = x.ordinal := by
  unfold Hart.setReg; split <;> rfl
@[simp] theorem Hart.setReg_boundAt (x : Hart) (n : Nat) (v : Word) : (x.setReg n v).boundAt = x.boundAt := by
  unfold Hart.setReg; split <;> rfl
@[simp] theorem Hart.setReg_strips (x : Hart) (n : Nat) (v : Word) : (x.setReg n v).strips = x.strips := by
  unfold Hart.setReg; split <;> rfl
@[simp] theorem Hart.setReg_lastbu (x : Hart) (n : Nat) (v : Word) : (x.setReg n v).lastbu = x.lastbu := by
  unfold Hart.setReg; split <;> rfl
@[simp] theorem Hart.setReg_rsPoison (x : Hart) (n : Nat) (v : Word) : (x.setReg n v).rsPoison = x.rsPoison := by
  unfold Hart.setReg; split <;> rfl
@[simp] theorem Hart.setPred_pc (x : Hart) (n : Nat) (b : Bool) : (x.setPred n b).pc = x.pc := by
  unfold Hart.setPred; split <;> rfl
@[simp] theorem Hart.setPred_s (x : Hart) (n : Nat) (b : Bool) : (x.setPred n b).s = x.s := by
  unfold Hart.setPred; split <;> rfl
@[simp] theorem Hart.setPred_v (x : Hart) (n : Nat) (b : Bool) : (x.setPred n b).v = x.v := by
  unfold Hart.setPred; split <;> rfl
@[simp] theorem Hart.setPred_m (x : Hart) (n : Nat) (b : Bool) : (x.setPred n b).m = x.m := by
  unfold Hart.setPred; split <;> rfl
@[simp] theorem Hart.setPred_fib (x : Hart) (n : Nat) (b : Bool) : (x.setPred n b).fib = x.fib := by
  unfold Hart.setPred; split <;> rfl
@[simp] theorem Hart.setPred_q (x : Hart) (n : Nat) (b : Bool) : (x.setPred n b).q = x.q := by
  unfold Hart.setPred; split <;> rfl
@[simp] theorem Hart.setPred_vsegCount (x : Hart) (n : Nat) (b : Bool) : (x.setPred n b).vsegCount = x.vsegCount := by
  unfold Hart.setPred; split <;> rfl
@[simp] theorem Hart.setPred_vsegOff (x : Hart) (n : Nat) (b : Bool) : (x.setPred n b).vsegOff = x.vsegOff := by
  unfold Hart.setPred; split <;> rfl
@[simp] theorem Hart.setPred_fmask (x : Hart) (n : Nat) (b : Bool) : (x.setPred n b).fmask = x.fmask := by
  unfold Hart.setPred; split <;> rfl
@[simp] theorem Hart.setPred_vl (x : Hart) (n : Nat) (b : Bool) : (x.setPred n b).vl = x.vl := by
  unfold Hart.setPred; split <;> rfl
@[simp] theorem Hart.setPred_vtype (x : Hart) (n : Nat) (b : Bool) : (x.setPred n b).vtype = x.vtype := by
  unfold Hart.setPred; split <;> rfl
@[simp] theorem Hart.setPred_vlPush (x : Hart) (n : Nat) (b : Bool) : (x.setPred n b).vlPush = x.vlPush := by
  unfold Hart.setPred; split <;> rfl
@[simp] theorem Hart.setPred_vtPush (x : Hart) (n : Nat) (b : Bool) : (x.setPred n b).vtPush = x.vtPush := by
  unfold Hart.setPred; split <;> rfl
@[simp] theorem Hart.setPred_vstart (x : Hart) (n : Nat) (b : Bool) : (x.setPred n b).vstart = x.vstart := by
  unfold Hart.setPred; split <;> rfl
@[simp] theorem Hart.setPred_vprog (x : Hart) (n : Nat) (b : Bool) : (x.setPred n b).vprog = x.vprog := by
  unfold Hart.setPred; split <;> rfl
@[simp] theorem Hart.setPred_fcsr (x : Hart) (n : Nat) (b : Bool) : (x.setPred n b).fcsr = x.fcsr := by
  unfold Hart.setPred; split <;> rfl
@[simp] theorem Hart.setPred_vcp (x : Hart) (n : Nat) (b : Bool) : (x.setPred n b).vcp = x.vcp := by
  unfold Hart.setPred; split <;> rfl
@[simp] theorem Hart.setPred_vqtail (x : Hart) (n : Nat) (b : Bool) : (x.setPred n b).vqtail = x.vqtail := by
  unfold Hart.setPred; split <;> rfl
@[simp] theorem Hart.setPred_taskid (x : Hart) (n : Nat) (b : Bool) : (x.setPred n b).taskid = x.taskid := by
  unfold Hart.setPred; split <;> rfl
@[simp] theorem Hart.setPred_stripbase (x : Hart) (n : Nat) (b : Bool) : (x.setPred n b).stripbase = x.stripbase := by
  unfold Hart.setPred; split <;> rfl
@[simp] theorem Hart.setPred_striplen (x : Hart) (n : Nat) (b : Bool) : (x.setPred n b).striplen = x.striplen := by
  unfold Hart.setPred; split <;> rfl
@[simp] theorem Hart.setPred_tcause (x : Hart) (n : Nat) (b : Bool) : (x.setPred n b).tcause = x.tcause := by
  unfold Hart.setPred; split <;> rfl
@[simp] theorem Hart.setPred_tpc (x : Hart) (n : Nat) (b : Bool) : (x.setPred n b).tpc = x.tpc := by
  unfold Hart.setPred; split <;> rfl
@[simp] theorem Hart.setPred_tvqpPos (x : Hart) (n : Nat) (b : Bool) : (x.setPred n b).tvqpPos = x.tvqpPos := by
  unfold Hart.setPred; split <;> rfl
@[simp] theorem Hart.setPred_tvqpV (x : Hart) (n : Nat) (b : Bool) : (x.setPred n b).tvqpV = x.tvqpV := by
  unfold Hart.setPred; split <;> rfl
@[simp] theorem Hart.setPred_taddr (x : Hart) (n : Nat) (b : Bool) : (x.setPred n b).taddr = x.taddr := by
  unfold Hart.setPred; split <;> rfl
@[simp] theorem Hart.setPred_taddr2 (x : Hart) (n : Nat) (b : Bool) : (x.setPred n b).taddr2 = x.taddr2 := by
  unfold Hart.setPred; split <;> rfl
@[simp] theorem Hart.setPred_tinfo (x : Hart) (n : Nat) (b : Bool) : (x.setPred n b).tinfo = x.tinfo := by
  unfold Hart.setPred; split <;> rfl
@[simp] theorem Hart.setPred_tvec (x : Hart) (n : Nat) (b : Bool) : (x.setPred n b).tvec = x.tvec := by
  unfold Hart.setPred; split <;> rfl
@[simp] theorem Hart.setPred_tstatus (x : Hart) (n : Nat) (b : Bool) : (x.setPred n b).tstatus = x.tstatus := by
  unfold Hart.setPred; split <;> rfl
@[simp] theorem Hart.setPred_tscr (x : Hart) (n : Nat) (b : Bool) : (x.setPred n b).tscr = x.tscr := by
  unfold Hart.setPred; split <;> rfl
@[simp] theorem Hart.setPred_asn (x : Hart) (n : Nat) (b : Bool) : (x.setPred n b).asn = x.asn := by
  unfold Hart.setPred; split <;> rfl
@[simp] theorem Hart.setPred_imgbase (x : Hart) (n : Nat) (b : Bool) : (x.setPred n b).imgbase = x.imgbase := by
  unfold Hart.setPred; split <;> rfl
@[simp] theorem Hart.setPred_fb (x : Hart) (n : Nat) (b : Bool) : (x.setPred n b).fb = x.fb := by
  unfold Hart.setPred; split <;> rfl
@[simp] theorem Hart.setPred_fbn (x : Hart) (n : Nat) (b : Bool) : (x.setPred n b).fbn = x.fbn := by
  unfold Hart.setPred; split <;> rfl
@[simp] theorem Hart.setPred_pbuf (x : Hart) (n : Nat) (b : Bool) : (x.setPred n b).pbuf = x.pbuf := by
  unfold Hart.setPred; split <;> rfl
@[simp] theorem Hart.setPred_pspec (x : Hart) (n : Nat) (b : Bool) : (x.setPred n b).pspec = x.pspec := by
  unfold Hart.setPred; split <;> rfl
@[simp] theorem Hart.setPred_sup (x : Hart) (n : Nat) (b : Bool) : (x.setPred n b).sup = x.sup := by
  unfold Hart.setPred; split <;> rfl
@[simp] theorem Hart.setPred_waiting (x : Hart) (n : Nat) (b : Bool) : (x.setPred n b).waiting = x.waiting := by
  unfold Hart.setPred; split <;> rfl
@[simp] theorem Hart.setPred_bound (x : Hart) (n : Nat) (b : Bool) : (x.setPred n b).bound = x.bound := by
  unfold Hart.setPred; split <;> rfl
@[simp] theorem Hart.setPred_ending (x : Hart) (n : Nat) (b : Bool) : (x.setPred n b).ending = x.ending := by
  unfold Hart.setPred; split <;> rfl
@[simp] theorem Hart.setPred_wake (x : Hart) (n : Nat) (b : Bool) : (x.setPred n b).wake = x.wake := by
  unfold Hart.setPred; split <;> rfl
@[simp] theorem Hart.setPred_stopped (x : Hart) (n : Nat) (b : Bool) : (x.setPred n b).stopped = x.stopped := by
  unfold Hart.setPred; split <;> rfl
@[simp] theorem Hart.setPred_die (x : Hart) (n : Nat) (b : Bool) : (x.setPred n b).die = x.die := by
  unfold Hart.setPred; split <;> rfl
@[simp] theorem Hart.setPred_core (x : Hart) (n : Nat) (b : Bool) : (x.setPred n b).core = x.core := by
  unfold Hart.setPred; split <;> rfl
@[simp] theorem Hart.setPred_slot (x : Hart) (n : Nat) (b : Bool) : (x.setPred n b).slot = x.slot := by
  unfold Hart.setPred; split <;> rfl
@[simp] theorem Hart.setPred_queue (x : Hart) (n : Nat) (b : Bool) : (x.setPred n b).queue = x.queue := by
  unfold Hart.setPred; split <;> rfl
@[simp] theorem Hart.setPred_saved (x : Hart) (n : Nat) (b : Bool) : (x.setPred n b).saved = x.saved := by
  unfold Hart.setPred; split <;> rfl
@[simp] theorem Hart.setPred_replayed (x : Hart) (n : Nat) (b : Bool) : (x.setPred n b).replayed = x.replayed := by
  unfold Hart.setPred; split <;> rfl
@[simp] theorem Hart.setPred_replaying (x : Hart) (n : Nat) (b : Bool) : (x.setPred n b).replaying = x.replaying := by
  unfold Hart.setPred; split <;> rfl
@[simp] theorem Hart.setPred_traps (x : Hart) (n : Nat) (b : Bool) : (x.setPred n b).traps = x.traps := by
  unfold Hart.setPred; split <;> rfl
@[simp] theorem Hart.setPred_heldTrap (x : Hart) (n : Nat) (b : Bool) : (x.setPred n b).heldTrap = x.heldTrap := by
  unfold Hart.setPred; split <;> rfl
@[simp] theorem Hart.setPred_pend (x : Hart) (n : Nat) (b : Bool) : (x.setPred n b).pend = x.pend := by
  unfold Hart.setPred; split <;> rfl
@[simp] theorem Hart.setPred_entries (x : Hart) (n : Nat) (b : Bool) : (x.setPred n b).entries = x.entries := by
  unfold Hart.setPred; split <;> rfl
@[simp] theorem Hart.setPred_held (x : Hart) (n : Nat) (b : Bool) : (x.setPred n b).held = x.held := by
  unfold Hart.setPred; split <;> rfl
@[simp] theorem Hart.setPred_heldPush (x : Hart) (n : Nat) (b : Bool) : (x.setPred n b).heldPush = x.heldPush := by
  unfold Hart.setPred; split <;> rfl
@[simp] theorem Hart.setPred_waitFrom (x : Hart) (n : Nat) (b : Bool) : (x.setPred n b).waitFrom = x.waitFrom := by
  unfold Hart.setPred; split <;> rfl
@[simp] theorem Hart.setPred_waitQuad (x : Hart) (n : Nat) (b : Bool) : (x.setPred n b).waitQuad = x.waitQuad := by
  unfold Hart.setPred; split <;> rfl
@[simp] theorem Hart.setPred_syncOn (x : Hart) (n : Nat) (b : Bool) : (x.setPred n b).syncOn = x.syncOn := by
  unfold Hart.setPred; split <;> rfl
@[simp] theorem Hart.setPred_heldReads (x : Hart) (n : Nat) (b : Bool) : (x.setPred n b).heldReads = x.heldReads := by
  unfold Hart.setPred; split <;> rfl
@[simp] theorem Hart.setPred_preempt (x : Hart) (n : Nat) (b : Bool) : (x.setPred n b).preempt = x.preempt := by
  unfold Hart.setPred; split <;> rfl
@[simp] theorem Hart.setPred_preempted (x : Hart) (n : Nat) (b : Bool) : (x.setPred n b).preempted = x.preempted := by
  unfold Hart.setPred; split <;> rfl
@[simp] theorem Hart.setPred_yieldTo (x : Hart) (n : Nat) (b : Bool) : (x.setPred n b).yieldTo = x.yieldTo := by
  unfold Hart.setPred; split <;> rfl
@[simp] theorem Hart.setPred_leftAt (x : Hart) (n : Nat) (b : Bool) : (x.setPred n b).leftAt = x.leftAt := by
  unfold Hart.setPred; split <;> rfl
@[simp] theorem Hart.setPred_gaveUp (x : Hart) (n : Nat) (b : Bool) : (x.setPred n b).gaveUp = x.gaveUp := by
  unfold Hart.setPred; split <;> rfl
@[simp] theorem Hart.setPred_outcnt (x : Hart) (n : Nat) (b : Bool) : (x.setPred n b).outcnt = x.outcnt := by
  unfold Hart.setPred; split <;> rfl
@[simp] theorem Hart.setPred_lost (x : Hart) (n : Nat) (b : Bool) : (x.setPred n b).lost = x.lost := by
  unfold Hart.setPred; split <;> rfl
@[simp] theorem Hart.setPred_task (x : Hart) (n : Nat) (b : Bool) : (x.setPred n b).task = x.task := by
  unfold Hart.setPred; split <;> rfl
@[simp] theorem Hart.setPred_ordinal (x : Hart) (n : Nat) (b : Bool) : (x.setPred n b).ordinal = x.ordinal := by
  unfold Hart.setPred; split <;> rfl
@[simp] theorem Hart.setPred_boundAt (x : Hart) (n : Nat) (b : Bool) : (x.setPred n b).boundAt = x.boundAt := by
  unfold Hart.setPred; split <;> rfl
@[simp] theorem Hart.setPred_strips (x : Hart) (n : Nat) (b : Bool) : (x.setPred n b).strips = x.strips := by
  unfold Hart.setPred; split <;> rfl
@[simp] theorem Hart.setPred_lastbu (x : Hart) (n : Nat) (b : Bool) : (x.setPred n b).lastbu = x.lastbu := by
  unfold Hart.setPred; split <;> rfl
@[simp] theorem Hart.setPred_rsPoison (x : Hart) (n : Nat) (b : Bool) : (x.setPred n b).rsPoison = x.rsPoison := by
  unfold Hart.setPred; split <;> rfl

/-! The fabric: a packet's journey leaves everything but clocks, the packets in flight and counts. -/

@[simp] theorem State.transmit_cyc (s : State) (a d c : Nat) (n : Option (BitVec 16)) : (s.transmit a d c n).cyc = s.cyc := by
  unfold State.transmit; split <;> rfl
@[simp] theorem State.transmit_harts (s : State) (a d c : Nat) (n : Option (BitVec 16)) : (s.transmit a d c n).harts = s.harts := by
  unfold State.transmit; split <;> rfl
@[simp] theorem State.transmit_mem (s : State) (a d c : Nat) (n : Option (BitVec 16)) : (s.transmit a d c n).mem = s.mem := by
  unfold State.transmit; split <;> rfl
@[simp] theorem State.transmit_poison (s : State) (a d c : Nat) (n : Option (BitVec 16)) : (s.transmit a d c n).poison = s.poison := by
  unfold State.transmit; split <;> rfl
@[simp] theorem State.transmit_lanePoison (s : State) (a d c : Nat) (n : Option (BitVec 16)) : (s.transmit a d c n).lanePoison = s.lanePoison := by
  unfold State.transmit; split <;> rfl
@[simp] theorem State.transmit_rsn (s : State) (a d c : Nat) (n : Option (BitVec 16)) : (s.transmit a d c n).rsn = s.rsn := by
  unfold State.transmit; split <;> rfl
@[simp] theorem State.transmit_removed (s : State) (a d c : Nat) (n : Option (BitVec 16)) : (s.transmit a d c n).removed = s.removed := by
  unfold State.transmit; split <;> rfl
@[simp] theorem State.transmit_resync (s : State) (a d c : Nat) (n : Option (BitVec 16)) : (s.transmit a d c n).resync = s.resync := by
  unfold State.transmit; split <;> rfl
@[simp] theorem State.transmit_dir (s : State) (a d c : Nat) (n : Option (BitVec 16)) : (s.transmit a d c n).dir = s.dir := by
  unfold State.transmit; split <;> rfl
@[simp] theorem State.transmit_dirty (s : State) (a d c : Nat) (n : Option (BitVec 16)) : (s.transmit a d c n).dirty = s.dirty := by
  unfold State.transmit; split <;> rfl
@[simp] theorem State.transmit_holds (s : State) (a d c : Nat) (n : Option (BitVec 16)) : (s.transmit a d c n).holds = s.holds := by
  unfold State.transmit; split <;> rfl
@[simp] theorem State.transmit_tags (s : State) (a d c : Nat) (n : Option (BitVec 16)) : (s.transmit a d c n).tags = s.tags := by
  unfold State.transmit; split <;> rfl
@[simp] theorem State.transmit_grants (s : State) (a d c : Nat) (n : Option (BitVec 16)) : (s.transmit a d c n).grants = s.grants := by
  unfold State.transmit; split <;> rfl
@[simp] theorem State.transmit_badCopies (s : State) (a d c : Nat) (n : Option (BitVec 16)) : (s.transmit a d c n).badCopies = s.badCopies := by
  unfold State.transmit; split <;> rfl
@[simp] theorem State.transmit_goodCopies (s : State) (a d c : Nat) (n : Option (BitVec 16)) : (s.transmit a d c n).goodCopies = s.goodCopies := by
  unfold State.transmit; split <;> rfl
@[simp] theorem State.transmit_resyncAt (s : State) (a d c : Nat) (n : Option (BitVec 16)) : (s.transmit a d c n).resyncAt = s.resyncAt := by
  unfold State.transmit; split <;> rfl
@[simp] theorem State.transmit_lateFence (s : State) (a d c : Nat) (n : Option (BitVec 16)) : (s.transmit a d c n).lateFence = s.lateFence := by
  unfold State.transmit; split <;> rfl
@[simp] theorem State.transmit_imgOut (s : State) (a d c : Nat) (n : Option (BitVec 16)) : (s.transmit a d c n).imgOut = s.imgOut := by
  unfold State.transmit; split <;> rfl
@[simp] theorem State.transmit_arrivals (s : State) (a d c : Nat) (n : Option (BitVec 16)) : (s.transmit a d c n).arrivals = s.arrivals := by
  unfold State.transmit; split <;> rfl
@[simp] theorem State.transmit_fuses (s : State) (a d c : Nat) (n : Option (BitVec 16)) : (s.transmit a d c n).fuses = s.fuses := by
  unfold State.transmit; split <;> rfl
@[simp] theorem State.transmit_places (s : State) (a d c : Nat) (n : Option (BitVec 16)) : (s.transmit a d c n).places = s.places := by
  unfold State.transmit; split <;> rfl
@[simp] theorem State.transmit_victims (s : State) (a d c : Nat) (n : Option (BitVec 16)) : (s.transmit a d c n).victims = s.victims := by
  unfold State.transmit; split <;> rfl
@[simp] theorem State.transmit_fills (s : State) (a d c : Nat) (n : Option (BitVec 16)) : (s.transmit a d c n).fills = s.fills := by
  unfold State.transmit; split <;> rfl
@[simp] theorem State.transmit_engines (s : State) (a d c : Nat) (n : Option (BitVec 16)) : (s.transmit a d c n).engines = s.engines := by
  unfold State.transmit; split <;> rfl
@[simp] theorem State.transmit_tasks (s : State) (a d c : Nat) (n : Option (BitVec 16)) : (s.transmit a d c n).tasks = s.tasks := by
  unfold State.transmit; split <;> rfl
@[simp] theorem State.transmit_regs (s : State) (a d c : Nat) (n : Option (BitVec 16)) : (s.transmit a d c n).regs = s.regs := by
  unfold State.transmit; split <;> rfl
@[simp] theorem State.transmit_blocks (s : State) (a d c : Nat) (n : Option (BitVec 16)) : (s.transmit a d c n).blocks = s.blocks := by
  unfold State.transmit; split <;> rfl
@[simp] theorem State.transmit_posted (s : State) (a d c : Nat) (n : Option (BitVec 16)) : (s.transmit a d c n).posted = s.posted := by
  unfold State.transmit; split <;> rfl
@[simp] theorem State.transmit_rows (s : State) (a d c : Nat) (n : Option (BitVec 16)) : (s.transmit a d c n).rows = s.rows := by
  unfold State.transmit; split <;> rfl
@[simp] theorem State.transmit_hostBias (s : State) (a d c : Nat) (n : Option (BitVec 16)) : (s.transmit a d c n).hostBias = s.hostBias := by
  unfold State.transmit; split <;> rfl
@[simp] theorem State.transmit_hostGot (s : State) (a d c : Nat) (n : Option (BitVec 16)) : (s.transmit a d c n).hostGot = s.hostGot := by
  unfold State.transmit; split <;> rfl
@[simp] theorem State.transmit_flips (s : State) (a d c : Nat) (n : Option (BitVec 16)) : (s.transmit a d c n).flips = s.flips := by
  unfold State.transmit; split <;> rfl
@[simp] theorem State.transmit_sched (s : State) (a d c : Nat) (n : Option (BitVec 16)) : (s.transmit a d c n).sched = s.sched := by
  unfold State.transmit; split <;> rfl
@[simp] theorem State.transmit_cur (s : State) (a d c : Nat) (n : Option (BitVec 16)) : (s.transmit a d c n).cur = s.cur := by
  unfold State.transmit; split <;> rfl
@[simp] theorem State.transmit_lead (s : State) (a d c : Nat) (n : Option (BitVec 16)) : (s.transmit a d c n).lead = s.lead := by
  unfold State.transmit; split <;> rfl
@[simp] theorem State.transmit_fresh (s : State) (a d c : Nat) (n : Option (BitVec 16)) : (s.transmit a d c n).fresh = s.fresh := by
  unfold State.transmit; split <;> rfl
@[simp] theorem State.transmit_order (s : State) (a d c : Nat) (n : Option (BitVec 16)) : (s.transmit a d c n).order = s.order := by
  unfold State.transmit; split <;> rfl

end Sys2Proof.Machine
end

