-- ==== Sys2Proof/Laws/Issue.lean ====
section
/-! SUPPORT. Sys2Proof/Laws/Issue.lean: what `issue`, `finish`, `issued` and a push do for a hart at rest. -/

namespace Sys2Proof.Machine

variable {s : State} {i : Instr} {o : Fields}

@[simp] theorem State.begun_cur (s : State) : s.begun.cur = s.cur := rfl

theorem State.begun_me (h : s.AtRest) : s.begun.hart s.cur = s.me.advanced := by
  simp [State.begun, h.here]

theorem Hart.interlocked_empty (x : Hart) (hq : x.queue = []) : x.interlocked i o = false := by
  simp [Hart.interlocked, hq]

theorem Hart.tooEarly_settled (x : Hart) (hp : x.pend = []) (p : Bool) (n : Nat) : x.tooEarly p n = false := by
  simp [Hart.tooEarly, Hart.pendOf, hp]

theorem Hart.stallTrap_settled (x : Hart) (hp : x.pend = []) : x.stallTrap i o = none := by
  unfold Hart.stallTrap
  split
  · rfl
  · have hn : ∀ (p : Bool) (l : List Nat), (l.find? fun n => x.tooEarly p n) = none := fun p l => by
      simp [x.tooEarly_settled hp]
    simp only [hn]
    rfl

theorem Hart.guard_settled (x : Hart) (hp : x.pend = []) (hc : x.rsPoison = []) :
    x.guard o = if x.pred o.gp.toNat ≠ o.gn then .run else .skip := by
  simp [Hart.guard, x.tooEarly_settled hp, Hart.poisonedLine, hc]

/-- Nothing stands between the guard and the effect for a hart with an empty queue and no outstanding result. -/
theorem sources_rest (body : State → Res) (h : Nat) (t : State) (hq : (t.hart h).queue = []) (hp : (t.hart h).pend = [])
    (hc : (t.hart h).rsPoison = []) (hl : (t.hart h).replaying = false) : sources h i o body t = body t := by
  simp [sources, hl, (t.hart h).interlocked_empty hq, (t.hart h).stallTrap_settled hp, Hart.poisonTrap, hc]

/-- An instruction that runs on a hart at rest is its effect on the begun state, and its end. -/
theorem issue_run (h : s.CanRun i o) (body : State → Res) :
    issue i o body s = finish s.cur i o s.me.pc (body s.begun) := by
  have hg := s.me.guard_settled (o := o) h.settled h.clean
  have hs : (needsSupervisor i o && !s.me.sup) = false := by
    cases hn : needsSupervisor i o with
    | false => rfl
    | true => simp [h.allowed hn]
  have hb : sources s.cur i o body s.begun = body s.begun := by
    apply sources_rest <;> rw [State.begun_me h.toAtRest] <;> simp [Hart.advanced, h.empty, h.settled, h.clean, h.live]
  have hf : (s.hart s.cur).heldTrap.isSome = false := by
    have : s.me.heldTrap = none := h.free
    rw [this]; rfl
  unfold issue
  simp only [hs, Bool.false_eq_true, if_false, hf, Bool.false_and]
  rw [show (s.hart s.cur).guard o = .run from hg.trans (if_pos h.runs)]
  exact congrArg (finish s.cur i o (s.hart s.cur).pc) hb

/-- The end of an effect that leaves the queue empty. -/
theorem finish_ok (h : Nat) (pc : BitVec 48) (u : State) (hq : (u.issued h i o |>.hart h).queue = []) :
    finish h i o pc (.ok u) = .next (u.issued h i o) := by
  simp [finish, State.settle, hq]

/-- A hart with an empty queue waits for no join, and enters its handler at once (R68). -/
theorem State.raise_empty {u : State} {h : Nat} (pc : BitVec 48) (enter : State → State) (hq : (u.hart h).queue = []) :
    u.raise h pc enter = .next (enter u) := by
  simp [State.raise, Hart.joinsOut, Hart.joinDests, Hart.headFaulted, hq]

theorem State.passed_hart (t : State) (h : Nat) (hh : h < t.harts.length) :
    (t.passed h i o).hart h = (t.hart h).pass (1 + o.stall.toNat) := by
  unfold State.passed State.countIssue
  rw [State.countCore_hart, State.hart_modHart _ _ _ hh]

theorem finish_trap (h : Nat) (pc : BitVec 48) (u : State) (t : Trap) (hq : (u.hart h).queue = []) :
    finish h i o pc (.trap u t) = .next (u.takeTrap h t pc) := by
  unfold finish
  exact State.raise_empty pc _ hq

theorem finish_trapNext (h : Nat) (pc : BitVec 48) (u : State) (t : Trap) (hq : (u.hart h).queue = []) :
    finish h i o pc (.trapNext u t) = .next ((u.issued h i o).takeTrap h t (nextPc pc)) := by
  unfold finish
  exact State.raise_empty pc _ hq

theorem Hart.pass_settled (x : Hart) (n : Nat) (hp : x.pend = []) : x.pass n = x := by
  cases x
  simp_all [Hart.pass]

theorem State.modHart_self (t : State) (h : Nat) (f : Hart → Hart) (hf : f (t.hart h) = t.hart h) : t.modHart h f = t := by
  have : t.harts.set h (t.hart h) = t.harts := by
    apply List.ext_getElem (by simp)
    intro k h1 h2
    rw [List.getElem_set]
    split
    · subst h
      simp [State.hart, h2]
    · rfl
  simp only [State.modHart, State.setHart, hf, this]

/-- With nothing outstanding, what remains of the end of an instruction is a count. -/
theorem State.issued_settled (t : State) (h : Nat) (hp : (t.hart h).pend = []) (hc : (t.hart h).rsPoison = []) :
    t.issued h i o = t.countIssue (t.hart h).coreNo i := by
  have : (t.modHart h fun x =>
      let y := x.pass (1 + o.stall.toNat)
      if x.rsPoison.isEmpty then y else (scalarBytes i o).foldl (fun y p => y.cleanBytes p.1 p.2) y) = t := by
    apply State.modHart_self
    simp [hc, Hart.pass_settled _ _ hp]
  unfold State.issued
  simp only [this]

end Sys2Proof.Machine
end

