-- ==== Sys2Proof/Laws/Complete.lean ====
section
/-! SUPPORT. Sys2Proof/Laws/Complete.lean: how an instruction completes: its results land, and nothing but its hart and
event counts changes. -/

namespace Sys2Proof.Machine

theorem Hart.landOne_pend (x : Hart) (w : PendWrite) : (x.landOne w).pend = x.pend := by
  unfold Hart.landOne; split
  · rfl
  · simp only [Hart.orFlags]; split <;> simp [Hart.setReg_pend, Hart.setPred_pend]
theorem Hart.landOne_left (x : Hart) (w : PendWrite) (n : Nat) : x.landOne { w with left := n } = x.landOne w := rfl
theorem Hart.landFold_pend (l : List PendWrite) (x : Hart) : (l.foldl Hart.landOne x).pend = x.pend := by
  induction l generalizing x with
  | nil => rfl
  | cons w r ih => simp [ih, Hart.landOne_pend]
theorem Hart.landFold_left (l : List PendWrite) (d : Nat) (x : Hart) :
    (l.map fun w => { w with left := w.left - d }).foldl Hart.landOne x = l.foldl Hart.landOne x := by
  induction l generalizing x with
  | nil => rfl
  | cons w r ih => simp only [List.map_cons, List.foldl_cons, Hart.landOne_left]; exact ih _
theorem Hart.landAll_nil (x : Hart) (h : x.pend = []) : x.landAll = x := by
  unfold Hart.landAll; rw [h]
  show ({ x with pend := [] } : Hart) = x
  rw [← h]

/-- Results of one latency land together: a distance that covers it lands them all, and one that does not lands none. -/
theorem Hart.pass_uniform (x : Hart) (d L : Nat) (h : ∀ w ∈ x.pend, w.left = L) :
    (x.pass d).landAll = x.landAll ∧ (L ≤ d → (x.pass d).pend = []) := by
  by_cases hd : L ≤ d
  · have h1 : (x.pend.filter fun w => decide (w.left ≤ d)) = x.pend := List.filter_eq_self.2 fun w hw => by simp [h w hw, hd]
    have h2 : (x.pend.filter fun w => decide (d < w.left)) = [] := List.filter_eq_nil_iff.2 fun w hw => by simp [h w hw]; omega
    have h3 : x.pass d = x.landAll := by unfold Hart.pass Hart.landAll; rw [h1, h2]; rfl
    have h4 : x.landAll.pend = [] := by unfold Hart.landAll; rw [Hart.landFold_pend]
    rw [h3]
    exact ⟨Hart.landAll_nil _ h4, fun _ => h4⟩
  · have h1 : (x.pend.filter fun w => decide (w.left ≤ d)) = [] := List.filter_eq_nil_iff.2 fun w hw => by simp [h w hw]; omega
    have h2 : (x.pend.filter fun w => decide (d < w.left)) = x.pend := List.filter_eq_self.2 fun w hw => by simp [h w hw]; omega
    refine ⟨?_, fun hc => absurd hc hd⟩
    unfold Hart.pass Hart.landAll; rw [h1, h2]
    exact Hart.landFold_left x.pend d _

theorem tset_get {α : Type} (t : Table α) (k : Nat) (x d : α) : tget (tset t k x) k d = x := by
  induction t with
  | nil => simp [tset, tget]
  | cons p r ih => obtain ⟨j, y⟩ := p; unfold tset; split <;> simp_all [tget]
theorem tset_get_ne {α : Type} (t : Table α) (k j : Nat) (x d : α) (h : j ≠ k) : tget (tset t k x) j d = tget t j d := by
  induction t with
  | nil => simp [tset, tget, Ne.symm h]
  | cons p r ih =>
    obtain ⟨i, y⟩ := p; unfold tset; split
    · subst_vars; simp [tget, Ne.symm h]
    · simp only [tget]; split <;> simp_all
theorem tget_tfind {α : Type} (t : Table α) (k : Nat) (d : α) : tget t k d = (tfind t k).getD d := by
  induction t with
  | nil => rfl
  | cons p r ih => obtain ⟨i, y⟩ := p; simp only [tget, tfind]; split <;> simp_all

theorem State.setCore_core (s : State) (c : Nat) (x : Core) : (s.setCore c x).core c = x := tset_get _ _ _ _
theorem State.setCore_core_ne (s : State) (c d : Nat) (x : Core) (h : d ≠ c) : (s.setCore c x).core d = s.core d :=
  tset_get_ne _ _ _ _ _ h

/-- Counting changes one core's counters and nothing else. -/
theorem State.countCore_eq (s : State) (c code n : Nat) : s.countCore c code n = { s with cores := (s.countCore c code n).cores } := rfl
theorem State.countCore_core (s : State) (c code n d : Nat) :
    (s.countCore c code n).core d = { s.core d with counters := ((s.countCore c code n).core d).counters } := by
  cases h : tfind s.cores c with
  | none => simp only [State.countCore, State.core, h]
  | some x =>
    have e : s.countCore c code n = s.setCore c { x with counters := x.counters.map (EvCounter.bump code n) } := by
      simp only [State.countCore, State.setCore, h]
    rw [e]
    by_cases hd : d = c
    · subst hd
      rw [State.setCore_core]
      have : s.core d = x := by simp [State.core, tget_tfind, h]
      rw [this]
    · rw [State.setCore_core_ne _ _ _ _ hd]

theorem State.setHart_hart (s : State) (h : Nat) (x : Hart) (hh : h < s.harts.length) : (s.setHart h x).hart h = x := by
  simp [State.setHart, State.hart, hh]
theorem State.setHart_hart_ne (s : State) (h k : Nat) (x : Hart) (hk : k ≠ h) : (s.setHart h x).hart k = s.hart k := by
  simp [State.setHart, State.hart, Ne.symm hk]

/-- What remains of the end of an instruction on a hart whose registers are clean. -/
theorem State.issued_clean (i : Instr) (o : Fields) (t : State) (h : Nat) (hc : (t.hart h).rsPoison = []) :
    t.issued h i o = (t.modHart h fun x => x.pass (1 + o.stall.toNat)).countIssue (t.hart h).coreNo i := by
  unfold State.issued
  have : (fun (x : Hart) => let y := x.pass (1 + o.stall.toNat)
      if x.rsPoison.isEmpty then y else (scalarBytes i o).foldl (fun y p => y.cleanBytes p.1 p.2) y) (t.hart h) =
      (t.hart h).pass (1 + o.stall.toNat) := by simp [hc]
  simp only [State.modHart]
  simp only at this
  rw [this]

theorem SameOutside.of {s : State} (z : Hart) (c code n : Nat) :
    s.SameOutside ((s.setHart s.cur z).countCore c code n) where
  rest := by rw [State.countCore_eq]; rfl
  number := by rw [State.countCore_harts, State.setHart_length]
  others k hk := by rw [State.countCore_hart, State.setHart_hart_ne _ _ _ _ hk]
  core c' := by rw [State.countCore_core]; rfl
  bytes a := by rw [State.countCore_eq]; rfl

theorem Hart.pass_queue (x : Hart) (d : Nat) : (x.pass d).queue = x.queue := by
  unfold Hart.pass
  generalize (x.pend.filter fun w => decide (w.left ≤ d)) = l
  have : ∀ (l : List PendWrite) (y : Hart), (l.foldl Hart.landOne y).queue = y.queue := by
    intro l; induction l with
    | nil => intro; rfl
    | cons w r ih =>
      intro y; simp only [List.foldl_cons, ih]
      unfold Hart.landOne; split
      · rfl
      · simp only [Hart.orFlags]; split <;> simp
  rw [this]

/-- An effect on the hart alone, of uniform latency. -/
theorem completes_of {s : State} {i : Instr} {o : Fields} {L : Nat} {f : Hart → Hart} (body : State → Res) (z : Hart) (h : s.CanRun i o)
    (hx : exec i s = issue i o body s) (hb : body s.begun = .ok (s.begun.setHart s.cur z))
    (hq : z.queue = []) (hc : z.rsPoison = []) (hp : ∀ w ∈ z.pend, w.left = L) (hf : z.landAll = f s.me.advanced) :
    Completes i o s L f := by
  have he : s.begun.setHart s.cur z = s.setHart s.cur z := by rw [State.begun, State.setHart_setHart]
  have hz : (s.setHart s.cur z).hart s.cur = z := State.setHart_hart _ _ _ h.here
  have hi : (s.setHart s.cur z).issued s.cur i o =
      (s.setHart s.cur (z.pass (1 + o.stall.toNat))).countIssue z.coreNo i := by
    rw [State.issued_clean _ _ _ _ (by rw [hz]; exact hc), State.modHart, hz, State.setHart_setHart]
  have hm : ((s.setHart s.cur (z.pass (1 + o.stall.toNat))).countIssue z.coreNo i).hart s.cur = z.pass (1 + o.stall.toNat) := by
    rw [State.countIssue, State.countCore_hart, State.setHart_hart _ _ _ h.here]
  refine ⟨(s.setHart s.cur (z.pass (1 + o.stall.toNat))).countIssue z.coreNo i, ?_, ?_, ?_, SameOutside.of _ _ _ _⟩
  · rw [hx, issue_run h, hb, he, ← hi]
    apply finish_ok
    rw [hi, hm, Hart.pass_queue, hq]
  · show (State.hart _ _).landAll = _
    rw [State.countIssue, State.countCore_cur, State.setHart_cur, ← State.countIssue, hm, (Hart.pass_uniform z _ L hp).1, hf]
  · intro hl
    show (State.hart _ _).pend = _
    rw [State.countIssue, State.countCore_cur, State.setHart_cur, ← State.countIssue, hm]
    exact (Hart.pass_uniform z _ L hp).2 hl

/-- The special case of an instruction of the scalar unit. -/
theorem completes_scalar {s : State} {i : Instr} {o : Fields} {L : Nat} {f : Hart → Hart} (g : Hart → Hart) (h : s.CanRun i o)
    (hx : exec i s = scalarIssue i o g s)
    (hg : ∀ x : Hart, x.queue = [] → x.rsPoison = [] → x.pend = [] → (g x).queue = [] ∧ (g x).rsPoison = [] ∧
      (∀ w ∈ (g x).pend, w.left = L)) (hf : (g s.me.advanced).landAll = f s.me.advanced) : Completes i o s L f := by
  have := hg s.me.advanced h.empty h.clean h.settled
  refine completes_of _ (g s.me.advanced) h hx ?_ this.1 this.2.1 this.2.2 hf
  simp only [State.modHart, State.begun_cur, State.begun_me h.toAtRest]

/-- A scalar result of latency L lands as a write of its register and its flags. -/
theorem Hart.scalarResult_lands (x : Hart) (hp : x.pend = []) (n : Nat) (v : Word) (f : BitVec 8) (L : Nat) :
    (x.scalarResult n v f L).landAll = (x.setReg n v).orFlags f := by
  have : (x.scalarResult n v f L).landAll = Hart.landOne { x with pend := [] } ⟨false, n, v, f, L, false, false⟩ := by
    simp [Hart.scalarResult, Hart.issueWrite, hp, Hart.landAll]
  rw [this, show ({ x with pend := [] } : Hart) = x by rw [← hp]]
  simp [Hart.landOne]
theorem Hart.predResult_lands (x : Hart) (hp : x.pend = []) (n : Nat) (b : Bool) (f : BitVec 8) (L : Nat) :
    (x.predResult n b f L).landAll = (x.setPred n b).orFlags f := by
  have : (x.predResult n b f L).landAll = Hart.landOne { x with pend := [] } ⟨true, n, if b then 1 else 0, f, L, false, false⟩ := by
    simp [Hart.predResult, Hart.issueWrite, hp, Hart.landAll]
  rw [this, show ({ x with pend := [] } : Hart) = x by rw [← hp]]
  cases b <;> simp [Hart.landOne]
theorem Hart.varResult_lands (x : Hart) (hp : x.pend = []) (n : Nat) (v : Word) : x.varResult n v = x.setReg n v := by
  simp only [Hart.varResult, hp, List.map_nil]
  rw [show ({ x with pend := [] } : Hart) = x by rw [← hp]]
theorem Hart.orFlags_zero (x : Hart) : x.orFlags 0 = x := by simp [Hart.orFlags]

theorem completes_result {s : State} {i : Instr} {o : Fields} {L : Nat} (v : Hart → Word) (fl : Hart → BitVec 8) (n : Nat) (h : s.CanRun i o)
    (hx : exec i s = scalarIssue i o (fun x => x.scalarResult n (v x) (fl x) L) s) :
    Completes i o s L fun x => (x.setReg n (v s.me.advanced)).orFlags (fl s.me.advanced) := by
  refine completes_scalar _ h hx (fun x a b c => ⟨a, b, ?_⟩) (Hart.scalarResult_lands s.me.advanced h.settled _ _ _ _)
  simp [Hart.scalarResult, Hart.issueWrite, c]
theorem completes_pred {s : State} {i : Instr} {o : Fields} {L : Nat} (v : Hart → Bool) (fl : Hart → BitVec 8) (n : Nat) (h : s.CanRun i o)
    (hx : exec i s = scalarIssue i o (fun x => x.predResult n (v x) (fl x) L) s) :
    Completes i o s L fun x => (x.setPred n (v s.me.advanced)).orFlags (fl s.me.advanced) := by
  refine completes_scalar _ h hx (fun x a b c => ⟨a, b, ?_⟩) (Hart.predResult_lands s.me.advanced h.settled _ _ _ _)
  simp [Hart.predResult, Hart.issueWrite, c]
theorem completes_var {s : State} {i : Instr} {o : Fields} (v : Hart → Word) (n : Nat) (h : s.CanRun i o)
    (hx : exec i s = scalarIssue i o (fun x => x.varResult n (v x)) s) :
    Completes i o s 0 fun x => x.setReg n (v s.me.advanced) := by
  refine completes_scalar _ h hx (fun x a b c => ?_) ?_
  · rw [Hart.varResult_lands _ c]; simp [a, b, c]
  · rw [Hart.varResult_lands s.me.advanced h.settled, Hart.landAll_nil]; rw [Hart.setReg_pend]; exact h.settled
theorem Completes.congr {s : State} {i : Instr} {o : Fields} {L : Nat} {f g : Hart → Hart} (h : Completes i o s L f)
    (e : f s.me.advanced = g s.me.advanced) : Completes i o s L g := by
  obtain ⟨t, a, b, c, d⟩ := h; exact ⟨t, a, b.trans e, c, d⟩

/-- Every instruction of the table goes through the checks of an issue. -/
theorem exec_issue {i : Instr} {g op : Nat} {o : Fields} (h : i.parts = some (g, op, o)) :
    ∃ body, ∀ s, exec i s = issue i o body s := by
  cases i
  all_goals first
    | (simp only [Instr.parts, Option.some.injEq, Prod.mk.injEq] at h; obtain ⟨-, -, rfl⟩ := h; exact ⟨_, fun s => rfl⟩)
    | (simp [Instr.parts] at h)

/-- An instruction whose guard is 0 ends at once. -/
theorem issue_skip {s : State} {i : Instr} {o : Fields} (h : s.AtRest) (hg : s.me.pred o.gp.toNat = o.gn)
    (ha : needsSupervisor i o = true → s.me.sup = true) (body : State → Res) :
    issue i o body s = .next (s.begun.passed s.cur i o) := by
  have hs : (needsSupervisor i o && !s.me.sup) = false := by
    cases hn : needsSupervisor i o with
    | false => rfl
    | true => simp [ha hn]
  unfold issue
  simp only [hs, Bool.false_eq_true, if_false]
  rw [show (s.hart s.cur).guard o = .skip from (s.me.guard_settled h.settled h.clean).trans (if_neg (by simp [hg]))]
  have hq : ((s.begun.passed s.cur i o).hart s.cur).queue = [] := by
    rw [State.passed_hart _ _ (by simpa [State.begun] using h.here), State.begun_me h, Hart.pass_queue]
    exact h.empty
  show Host.Outcome.next ((s.begun.passed s.cur i o).settle s.cur) = _
  rw [State.settle, hq]

/-- An instruction that its privilege forbids traps before its guard is read. -/
theorem issue_priv {s : State} {i : Instr} {o : Fields} (hn : needsSupervisor i o = true) (hs : s.me.sup = false)
    (body : State → Res) : issue i o body s = finish s.cur i o s.me.pc (.trap s.begun trapPriv) := by
  have hs : (needsSupervisor i o && !s.me.sup) = true := by simp [hn, hs]
  unfold issue
  simp only [hs, if_true]
  rfl

end Sys2Proof.Machine
end

