-- ==== Sys2Proof/Laws/Elems.lean ====
section
/-! SUPPORT. Sys2Proof/Laws/Elems.lean: what the elements of a memory instruction do where each passes its checks. -/

namespace Sys2Proof.Machine

/-- Elements do the same wherever what they loaded and their flags are gathered. -/
theorem runElems_acc (f : State → Nat → Eff) (l : List Nat) (s : State) (v : Table Nat) (g : BitVec 8) :
    runElems f l s v g = match runElems f l s [] 0 with
      | .ok t w h => .ok t (v ++ w) (g ||| h)
      | x => x := by
  induction l generalizing s v g with
  | nil => simp [runElems]
  | cons i l ih =>
    simp only [runElems]
    cases f s i with
    | ok u y k =>
      simp only
      rw [ih u (v ++ [(i, y)]) (g ||| k), ih u ([] ++ [(i, y)]) (0 ||| k)]
      cases runElems f l u [] 0 <;> simp [BitVec.or_assoc]
    | _ => rfl

/-- Elements one after another: those of the first list, then those of the second. -/
theorem runElems_append (f : State → Nat → Eff) (l r : List Nat) (s : State) (v : Table Nat) (g : BitVec 8) :
    runElems f (l ++ r) s v g = match runElems f l s v g with
      | .ok t w h => runElems f r t w h
      | x => x := by
  induction l generalizing s v g with
  | nil => rfl
  | cons i l ih =>
    simp only [List.cons_append, runElems]
    cases f s i with
    | ok t w h => exact ih _ _ _
    | _ => rfl

/-- FMASK groups whose elements all pass have done what these do one after another. -/
theorem runGroups_flat (f : State → Nat → Eff) (gs : List (Nat × List Nat)) (b : Batch) {t : State} {vals : Table Nat}
    {fl : BitVec 8} (h : runElems f (gs.flatMap Prod.snd) b.s [] 0 = .ok t vals fl) :
    runGroups f gs b = .ok { b with s := t, vals := b.vals ++ vals, f := b.f ||| fl } := by
  induction gs generalizing b vals fl with
  | nil =>
    simp only [List.flatMap_nil, runElems, GroupEnd.ok.injEq] at h
    obtain ⟨rfl, rfl, rfl⟩ := h
    simp [runGroups]
  | cons p gs ih =>
    rw [List.flatMap_cons, runElems_append] at h
    unfold runGroups
    cases hl : runElems f p.2 b.s [] 0 with
    | ok u w k =>
      simp only [hl] at h ⊢
      rw [runElems_acc] at h
      cases hr : runElems f (gs.flatMap Prod.snd) u [] 0 with
      | ok t2 v2 f2 =>
        simp only [hr, GroupEnd.ok.injEq] at h
        obtain ⟨rfl, rfl, rfl⟩ := h
        rw [ih { b with s := u, vals := b.vals ++ w, f := b.f ||| k } hr]
        simp [BitVec.or_assoc]
      | _ => simp only [hr] at h; cases h
    | _ => simp only [hl] at h; cases h

/-- The least of an ascending list stands first among those that differ. -/
theorem dedup_least (a : Nat) (m : List Nat) (hm : m.Pairwise (· ≤ ·)) (ha : a ∈ m) (hle : ∀ b ∈ m, a ≤ b) :
    ∃ r, m.dedup = a :: r ∧ a ∉ r := by
  induction m with
  | nil => simp at ha
  | cons b m ih =>
    have hp := List.pairwise_cons.mp hm
    by_cases hb : b ∈ m
    · rw [List.dedup_cons_of_mem hb]
      refine ih hp.2 ?_ fun c hc => hle c (List.mem_cons_of_mem _ hc)
      rcases List.mem_cons.mp ha with rfl | h
      · exact hb
      · exact h
    · rw [List.dedup_cons_of_notMem hb]
      rcases List.mem_cons.mp ha with rfl | h
      · exact ⟨_, rfl, fun hr => hb (List.mem_dedup.mp hr)⟩
      · exact absurd (Nat.le_antisymm (hp.1 a h) (hle b (List.mem_cons_self ..)) ▸ h) hb

/-- Elements in ascending order, cut into FMASK groups and put together again, are as they were. -/
theorem groupsOf_flat (g : Nat) (l : List Nat) (h : l.Pairwise (· < ·)) : (groupsOf g l).flatMap Prod.snd = l := by
  unfold groupsOf
  rw [List.flatMap_map]
  induction l with
  | nil => rfl
  | cons i l ih =>
    have hl := List.pairwise_cons.mp h
    have hi := ih hl.2
    have other : ∀ r : List Nat, i / g ∉ r →
        r.flatMap (fun j => (i :: l).filter fun k => k / g = j) = r.flatMap fun j => l.filter fun k => k / g = j := by
      intro r hr
      refine List.flatMap_congr fun j hj => ?_
      have : i / g ≠ j := fun e => hr (e ▸ hj)
      simp [this]
    rw [List.map_cons]
    by_cases hm : i / g ∈ l.map (· / g)
    · rw [List.dedup_cons_of_mem hm]
      obtain ⟨r, hr, hn⟩ := dedup_least (i / g) (l.map (· / g))
        (List.Pairwise.map _ (fun a b hab => Nat.div_le_div_right (Nat.le_of_lt hab)) hl.2) hm
        (by simp only [List.mem_map]; rintro b ⟨k, hk, rfl⟩; exact Nat.div_le_div_right (Nat.le_of_lt (hl.1 k hk)))
      rw [hr, List.flatMap_cons] at hi ⊢
      simp only [other r hn]
      simp only [List.filter_cons, decide_true, if_true, List.cons_append, hi]
    · rw [List.dedup_cons_of_notMem hm, List.flatMap_cons]
      have hn : i / g ∉ (l.map (· / g)).dedup := fun hr => hm (List.mem_dedup.mp hr)
      have hf : (l.filter fun k => k / g = i / g) = [] := by
        rw [List.filter_eq_nil_iff]
        intro k hk
        simp only [decide_eq_true_eq]
        exact fun e => hm (List.mem_map.mpr ⟨k, hk, e⟩)
      simp only [other _ hn]
      rw [hi]
      simp [hf]

/-- A memory instruction each of whose elements passes its checks has done what these do one after another. -/
theorem runGroups_ok (f : State → Nat → Eff) (g : Nat) (l : List Nat) (s : State) {t : State} {vals : Table Nat}
    {fl : BitVec 8} (hl : l.Pairwise (· < ·)) (h : runElems f l s [] 0 = .ok t vals fl) :
    runGroups f (groupsOf g l) { s := s } = .ok { s := t, vals := vals, f := fl } := by
  have := runGroups_flat f (groupsOf g l) { s := s } (t := t) (vals := vals) (fl := fl) (by rw [groupsOf_flat g l hl]; exact h)
  simpa using this

/-- The elements of an entry stand in ascending order. -/
theorem dueElems_sorted (e : QEntry) (o : Fields) (x : Hart) : (dueElems e o x).Pairwise (· < ·) :=
  List.Pairwise.filter _ List.pairwise_lt_range

end Sys2Proof.Machine
end

