-- ==== Sys2Proof/Laws/Memory.lean ====
section
/-! SUPPORT. Sys2Proof/Laws/Memory.lean: the laws of the cell list: what a write leaves and what a read finds, and that every write
keeps the canonical form. -/

namespace Sys2Proof.Machine

theorem Memory.wfFrom_mono {m : List Host.Cell} {a b : Nat} (h : a ≤ b) (w : Memory.wfFrom b m = true) :
    Memory.wfFrom a m = true := by
  cases m with
  | nil => rfl
  | cons c r =>
    simp only [Memory.wfFrom, Bool.and_eq_true, decide_eq_true_eq] at *
    exact ⟨⟨le_trans h w.1.1, w.1.2⟩, w.2⟩

theorem memSet_wfFrom {m : List Host.Cell} {lo a : Nat} (v : Byte) (w : Memory.wfFrom lo m = true) (h : lo ≤ a) :
    Memory.wfFrom lo (memSet m a v) = true := by
  induction m generalizing lo with
  | nil =>
    unfold memSet
    split
    · rfl
    · simp only [Memory.wfFrom, Bool.and_eq_true, decide_eq_true_eq]
      exact ⟨⟨h, by assumption⟩, trivial⟩
  | cons c r ih =>
    obtain ⟨b, x⟩ := c
    simp only [Memory.wfFrom, Bool.and_eq_true, decide_eq_true_eq] at w
    unfold memSet
    split
    · simp only [Memory.wfFrom, Bool.and_eq_true, decide_eq_true_eq]
      exact ⟨w.1, ih w.2 (by omega)⟩
    · split
      · split
        · exact Memory.wfFrom_mono (by omega) w.2
        · subst b
          simp only [Memory.wfFrom, Bool.and_eq_true, decide_eq_true_eq]
          exact ⟨⟨h, by assumption⟩, w.2⟩
      · split
        · simp only [Memory.wfFrom, Bool.and_eq_true, decide_eq_true_eq]
          exact w
        · simp only [Memory.wfFrom, Bool.and_eq_true, decide_eq_true_eq]
          exact ⟨⟨h, by assumption⟩, ⟨by omega, w.1.2⟩, w.2⟩

theorem memSet_wf {m : List Host.Cell} (a : Nat) (v : Byte) (w : Memory.wf m = true) : Memory.wf (memSet m a v) = true :=
  memSet_wfFrom v w (Nat.zero_le a)

theorem memPut_wf (bs : List Byte) : ∀ {m : List Host.Cell} (a : Nat), Memory.wf m = true → Memory.wf (memPut m a bs) = true := by
  induction bs with
  | nil => intro m a w; exact w
  | cons b r ih => intro m a w; exact ih (a + 1) (memSet_wf a b w)

/-- Cells picked from a canonical list form a canonical list. -/
theorem filter_wf (p : Host.Cell → Bool) : ∀ {m : List Host.Cell} {lo : Nat}, Memory.wfFrom lo m = true →
    Memory.wfFrom lo (m.filter p) = true := by
  intro m
  induction m with
  | nil => intro lo w; exact w
  | cons c r ih =>
    intro lo w
    obtain ⟨b, x⟩ := c
    simp only [Memory.wfFrom, Bool.and_eq_true, decide_eq_true_eq] at w
    simp only [List.filter]
    split
    · simp only [Memory.wfFrom, Bool.and_eq_true, decide_eq_true_eq]
      exact ⟨w.1, ih w.2⟩
    · exact Memory.wfFrom_mono (by omega) (ih w.2)

theorem copyCells_wf {m : List Host.Cell} (src dst n : Nat) (w : Memory.wf m = true) :
    Memory.wf (copyCells m src dst n) = true := by
  unfold copyCells
  generalize (m.filter fun c => decide (src ≤ c.1) && decide (c.1 < src + n)) = l
  have h0 : Memory.wf (m.filter fun c => !(decide (dst ≤ c.1) && decide (c.1 < dst + n))) = true := filter_wf _ w
  generalize (m.filter fun c => !(decide (dst ≤ c.1) && decide (c.1 < dst + n))) = k at h0
  induction l generalizing k with
  | nil => exact h0
  | cons c r ih => exact ih _ (memSet_wf _ _ h0)

/-- A canonical list names nothing below its start. -/
theorem memGet_below {m : List Host.Cell} {lo a : Nat} (w : Memory.wfFrom lo m = true) (h : a < lo) : memGet m a = 0 := by
  induction m generalizing lo with
  | nil => rfl
  | cons c r ih =>
    obtain ⟨b, x⟩ := c
    simp only [Memory.wfFrom, Bool.and_eq_true, decide_eq_true_eq] at w
    have : b ≠ a := by omega
    simp only [memGet, if_neg this]
    exact ih w.2 (by omega)

theorem memGet_memSet_self {m : List Host.Cell} {lo : Nat} (a : Nat) (v : Byte) (w : Memory.wfFrom lo m = true) :
    memGet (memSet m a v) a = v := by
  induction m generalizing lo with
  | nil =>
    unfold memSet
    split
    · exact Eq.symm ‹_›
    · exact if_pos rfl
  | cons c r ih =>
    obtain ⟨b, x⟩ := c
    simp only [Memory.wfFrom, Bool.and_eq_true, decide_eq_true_eq] at w
    unfold memSet
    split
    · have : b ≠ a := by omega
      simp only [memGet, if_neg this]
      exact ih w.2
    · split
      · split
        · rename_i h1 h2 h3
          rw [h3]
          exact memGet_below w.2 (by omega)
        · simp [memGet]
      · split
        · rename_i h1 h2 h3
          rw [h3]
          have : b ≠ a := h2
          simp only [memGet, if_neg this]
          exact memGet_below w.2 (by omega)
        · simp [memGet]

theorem memGet_memSet_ne (m : List Host.Cell) (a k : Nat) (v : Byte) (h : k ≠ a) : memGet (memSet m a v) k = memGet m k := by
  induction m with
  | nil =>
    unfold memSet
    split
    · rfl
    · exact if_neg (Ne.symm h)
  | cons c r ih =>
    obtain ⟨b, x⟩ := c
    unfold memSet
    split
    · simp only [memGet, ih]
    · split
      · rename_i h2
        subst h2
        split
        · simp only [memGet, if_neg (Ne.symm h)]
        · simp only [memGet, if_neg (Ne.symm h)]
      · split
        · rfl
        · simp only [memGet, if_neg (Ne.symm h)]

/-- A byte outside the bytes written reads as before. -/
theorem memGet_memPut_out (bs : List Byte) : ∀ (m : List Host.Cell) (a k : Nat), (k < a ∨ a + bs.length ≤ k) →
    memGet (memPut m a bs) k = memGet m k := by
  induction bs with
  | nil => intro m a k _; rfl
  | cons b r ih =>
    intro m a k h
    simp only [List.length_cons] at h
    rw [memPut, ih _ _ _ (by omega), memGet_memSet_ne _ _ _ _ (by omega)]

/-- A byte written reads as written. -/
theorem memGet_memPut_in (bs : List Byte) : ∀ (m : List Host.Cell) (a j : Nat), Memory.wf m = true → (hj : j < bs.length) →
    memGet (memPut m a bs) (a + j) = bs[j] := by
  induction bs with
  | nil => intro m a j _ hj; simp at hj
  | cons b r ih =>
    intro m a j w hj
    cases j with
    | zero =>
      rw [memPut, Nat.add_zero, memGet_memPut_out _ _ _ _ (by omega)]
      exact memGet_memSet_self a b w
    | succ n =>
      have := ih (memSet m a b) (a + 1) n (memSet_wf a b w) (by simpa using hj)
      rw [memPut, show a + (n + 1) = a + 1 + n by omega]
      simpa using this

end Sys2Proof.Machine
end

