-- ==== Sys2Proof/Laws/PerInstr.lean ====
section
/-! SUPPORT. Sys2Proof/Laws/PerInstr.lean: one lemma for each constructor of Instr, about its place in the opcode map. -/

namespace Sys2Proof.Laws

/-- An instruction that has a word has it at a group and an opcode of the map, and the map gives back an instruction with the
same group, opcode and fields (R73). -/
def OpMap.Statement (i : Instr) : Prop :=
  ∀ g op o, i.parts = some (g, op, o) → g < 13 ∧ op < 64 ∧ ∃ j, mkInstr g op o = some j ∧ j.parts = some (g, op, o)

/-- What the map and `parts` agree on is the statement. -/
theorem OpMap.of_eq {i j : Instr} {g op : Nat} {o : Fields} (hg : g < 13) (hop : op < 64) (h : i.parts = some (g, op, o))
    (hm : mkInstr g op o = some j) (hj : j.parts = some (g, op, o)) : OpMap.Statement i := by
  intro g2 op2 o2 h2
  rw [h] at h2
  cases h2
  exact ⟨hg, hop, j, hm, hj⟩

/-- An event has no word. -/
theorem OpMap.of_none {i : Instr} (h : i.parts = none) : OpMap.Statement i := by
  intro g op o h2
  rw [h] at h2
  cases h2

theorem OpMap.add (o : Fields) : OpMap.Statement (.add o) := OpMap.of_eq (by decide) (by decide) rfl rfl rfl
theorem OpMap.sub (o : Fields) : OpMap.Statement (.sub o) := OpMap.of_eq (by decide) (by decide) rfl rfl rfl
theorem OpMap.mul (o : Fields) : OpMap.Statement (.mul o) := OpMap.of_eq (by decide) (by decide) rfl rfl rfl
theorem OpMap.mulh (o : Fields) : OpMap.Statement (.mulh o) := OpMap.of_eq (by decide) (by decide) rfl rfl rfl
theorem OpMap.div (o : Fields) : OpMap.Statement (.div o) := OpMap.of_eq (by decide) (by decide) rfl rfl rfl
theorem OpMap.rem (o : Fields) : OpMap.Statement (.rem o) := OpMap.of_eq (by decide) (by decide) rfl rfl rfl
theorem OpMap.and (o : Fields) : OpMap.Statement (.and o) := OpMap.of_eq (by decide) (by decide) rfl rfl rfl
theorem OpMap.or (o : Fields) : OpMap.Statement (.or o) := OpMap.of_eq (by decide) (by decide) rfl rfl rfl
theorem OpMap.xor (o : Fields) : OpMap.Statement (.xor o) := OpMap.of_eq (by decide) (by decide) rfl rfl rfl
theorem OpMap.andn (o : Fields) : OpMap.Statement (.andn o) := OpMap.of_eq (by decide) (by decide) rfl rfl rfl
theorem OpMap.shl (o : Fields) : OpMap.Statement (.shl o) := OpMap.of_eq (by decide) (by decide) rfl rfl rfl
theorem OpMap.shr (o : Fields) : OpMap.Statement (.shr o) := OpMap.of_eq (by decide) (by decide) rfl rfl rfl
theorem OpMap.sra (o : Fields) : OpMap.Statement (.sra o) := OpMap.of_eq (by decide) (by decide) rfl rfl rfl
theorem OpMap.rotr (o : Fields) : OpMap.Statement (.rotr o) := OpMap.of_eq (by decide) (by decide) rfl rfl rfl
theorem OpMap.min (o : Fields) : OpMap.Statement (.min o) := OpMap.of_eq (by decide) (by decide) rfl rfl rfl
theorem OpMap.max (o : Fields) : OpMap.Statement (.max o) := OpMap.of_eq (by decide) (by decide) rfl rfl rfl
theorem OpMap.clz (o : Fields) : OpMap.Statement (.clz o) := OpMap.of_eq (by decide) (by decide) rfl rfl rfl
theorem OpMap.ctz (o : Fields) : OpMap.Statement (.ctz o) := OpMap.of_eq (by decide) (by decide) rfl rfl rfl
theorem OpMap.popc (o : Fields) : OpMap.Statement (.popc o) := OpMap.of_eq (by decide) (by decide) rfl rfl rfl
theorem OpMap.brev (o : Fields) : OpMap.Statement (.brev o) := OpMap.of_eq (by decide) (by decide) rfl rfl rfl
theorem OpMap.ext (o : Fields) : OpMap.Statement (.ext o) := OpMap.of_eq (by decide) (by decide) rfl rfl rfl
theorem OpMap.bfx (o : Fields) : OpMap.Statement (.bfx o) := OpMap.of_eq (by decide) (by decide) rfl rfl rfl
theorem OpMap.bfi (o : Fields) : OpMap.Statement (.bfi o) := OpMap.of_eq (by decide) (by decide) rfl rfl rfl
theorem OpMap.mov (o : Fields) : OpMap.Statement (.mov o) := OpMap.of_eq (by decide) (by decide) rfl rfl rfl
theorem OpMap.lih (o : Fields) : OpMap.Statement (.lih o) := OpMap.of_eq (by decide) (by decide) rfl rfl rfl
theorem OpMap.sel (o : Fields) : OpMap.Statement (.sel o) := OpMap.of_eq (by decide) (by decide) rfl rfl rfl
theorem OpMap.cmp (o : Fields) : OpMap.Statement (.cmp o) := OpMap.of_eq (by decide) (by decide) rfl rfl rfl
theorem OpMap.fadd (o : Fields) : OpMap.Statement (.fadd o) := OpMap.of_eq (by decide) (by decide) rfl rfl rfl
theorem OpMap.fsub (o : Fields) : OpMap.Statement (.fsub o) := OpMap.of_eq (by decide) (by decide) rfl rfl rfl
theorem OpMap.fmul (o : Fields) : OpMap.Statement (.fmul o) := OpMap.of_eq (by decide) (by decide) rfl rfl rfl
theorem OpMap.ffma (o : Fields) : OpMap.Statement (.ffma o) := OpMap.of_eq (by decide) (by decide) rfl rfl rfl
theorem OpMap.fdiv (o : Fields) : OpMap.Statement (.fdiv o) := OpMap.of_eq (by decide) (by decide) rfl rfl rfl
theorem OpMap.fsqrt (o : Fields) : OpMap.Statement (.fsqrt o) := OpMap.of_eq (by decide) (by decide) rfl rfl rfl
theorem OpMap.fmin (o : Fields) : OpMap.Statement (.fmin o) := OpMap.of_eq (by decide) (by decide) rfl rfl rfl
theorem OpMap.fmax (o : Fields) : OpMap.Statement (.fmax o) := OpMap.of_eq (by decide) (by decide) rfl rfl rfl
theorem OpMap.fcmp (o : Fields) : OpMap.Statement (.fcmp o) := OpMap.of_eq (by decide) (by decide) rfl rfl rfl
theorem OpMap.fcvt (o : Fields) : OpMap.Statement (.fcvt o) := OpMap.of_eq (by decide) (by decide) rfl rfl rfl
theorem OpMap.plog (o : Fields) : OpMap.Statement (.plog o) := OpMap.of_eq (by decide) (by decide) rfl rfl rfl
theorem OpMap.pmov (o : Fields) : OpMap.Statement (.pmov o) := by
  refine OpMap.of_eq (j := formPmov o) (by decide) (by decide) rfl rfl ?_
  unfold formPmov; repeat' split
  all_goals rfl
theorem OpMap.pmovScalar (o : Fields) : OpMap.Statement (.pmovScalar o) := by
  refine OpMap.of_eq (j := formPmov o) (by decide) (by decide) rfl rfl ?_
  unfold formPmov; repeat' split
  all_goals rfl
theorem OpMap.pmovAll (o : Fields) : OpMap.Statement (.pmovAll o) := by
  refine OpMap.of_eq (j := formPmov o) (by decide) (by decide) rfl rfl ?_
  unfold formPmov; repeat' split
  all_goals rfl
theorem OpMap.bra (o : Fields) : OpMap.Statement (.bra o) := OpMap.of_eq (by decide) (by decide) rfl rfl rfl
theorem OpMap.jmp (o : Fields) : OpMap.Statement (.jmp o) := OpMap.of_eq (by decide) (by decide) rfl rfl rfl
theorem OpMap.call (o : Fields) : OpMap.Statement (.call o) := by
  refine OpMap.of_eq (j := formCall o) (by decide) (by decide) rfl rfl ?_
  unfold formCall; repeat' split
  all_goals rfl
theorem OpMap.callReg (o : Fields) : OpMap.Statement (.callReg o) := by
  refine OpMap.of_eq (j := formCall o) (by decide) (by decide) rfl rfl ?_
  unfold formCall; repeat' split
  all_goals rfl
theorem OpMap.ret (o : Fields) : OpMap.Statement (.ret o) := OpMap.of_eq (by decide) (by decide) rfl rfl rfl
theorem OpMap.loop (o : Fields) : OpMap.Statement (.loop o) := OpMap.of_eq (by decide) (by decide) rfl rfl rfl
theorem OpMap.setvl (o : Fields) : OpMap.Statement (.setvl o) := OpMap.of_eq (by decide) (by decide) rfl rfl rfl
theorem OpMap.trap (o : Fields) : OpMap.Statement (.trap o) := OpMap.of_eq (by decide) (by decide) rfl rfl rfl
theorem OpMap.eret (o : Fields) : OpMap.Statement (.eret o) := OpMap.of_eq (by decide) (by decide) rfl rfl rfl
theorem OpMap.mfs (o : Fields) : OpMap.Statement (.mfs o) := OpMap.of_eq (by decide) (by decide) rfl rfl rfl
theorem OpMap.mts (o : Fields) : OpMap.Statement (.mts o) := OpMap.of_eq (by decide) (by decide) rfl rfl rfl
theorem OpMap.endI (o : Fields) : OpMap.Statement (.endI o) := OpMap.of_eq (by decide) (by decide) rfl rfl rfl
theorem OpMap.yield (o : Fields) : OpMap.Statement (.yield o) := by
  refine OpMap.of_eq (j := formYield o) (by decide) (by decide) rfl rfl ?_
  unfold formYield; repeat' split
  all_goals rfl
theorem OpMap.yieldRel (o : Fields) : OpMap.Statement (.yieldRel o) := by
  refine OpMap.of_eq (j := formYield o) (by decide) (by decide) rfl rfl ?_
  unfold formYield; repeat' split
  all_goals rfl
theorem OpMap.nop (o : Fields) : OpMap.Statement (.nop o) := OpMap.of_eq (by decide) (by decide) rfl rfl rfl
theorem OpMap.tfence (o : Fields) : OpMap.Statement (.tfence o) := OpMap.of_eq (by decide) (by decide) rfl rfl rfl
theorem OpMap.vadd (o : Fields) : OpMap.Statement (.vadd o) := OpMap.of_eq (by decide) (by decide) rfl rfl rfl
theorem OpMap.vsub (o : Fields) : OpMap.Statement (.vsub o) := OpMap.of_eq (by decide) (by decide) rfl rfl rfl
theorem OpMap.vmul (o : Fields) : OpMap.Statement (.vmul o) := OpMap.of_eq (by decide) (by decide) rfl rfl rfl
theorem OpMap.vmulh (o : Fields) : OpMap.Statement (.vmulh o) := OpMap.of_eq (by decide) (by decide) rfl rfl rfl
theorem OpMap.vmadd (o : Fields) : OpMap.Statement (.vmadd o) := OpMap.of_eq (by decide) (by decide) rfl rfl rfl
theorem OpMap.vdiv (o : Fields) : OpMap.Statement (.vdiv o) := OpMap.of_eq (by decide) (by decide) rfl rfl rfl
theorem OpMap.vrem (o : Fields) : OpMap.Statement (.vrem o) := OpMap.of_eq (by decide) (by decide) rfl rfl rfl
theorem OpMap.vand (o : Fields) : OpMap.Statement (.vand o) := OpMap.of_eq (by decide) (by decide) rfl rfl rfl
theorem OpMap.vor (o : Fields) : OpMap.Statement (.vor o) := OpMap.of_eq (by decide) (by decide) rfl rfl rfl
theorem OpMap.vxor (o : Fields) : OpMap.Statement (.vxor o) := OpMap.of_eq (by decide) (by decide) rfl rfl rfl
theorem OpMap.vshl (o : Fields) : OpMap.Statement (.vshl o) := OpMap.of_eq (by decide) (by decide) rfl rfl rfl
theorem OpMap.vshr (o : Fields) : OpMap.Statement (.vshr o) := OpMap.of_eq (by decide) (by decide) rfl rfl rfl
theorem OpMap.vsra (o : Fields) : OpMap.Statement (.vsra o) := OpMap.of_eq (by decide) (by decide) rfl rfl rfl
theorem OpMap.vmin (o : Fields) : OpMap.Statement (.vmin o) := OpMap.of_eq (by decide) (by decide) rfl rfl rfl
theorem OpMap.vmax (o : Fields) : OpMap.Statement (.vmax o) := OpMap.of_eq (by decide) (by decide) rfl rfl rfl
theorem OpMap.vabsd (o : Fields) : OpMap.Statement (.vabsd o) := OpMap.of_eq (by decide) (by decide) rfl rfl rfl
theorem OpMap.vsadd (o : Fields) : OpMap.Statement (.vsadd o) := OpMap.of_eq (by decide) (by decide) rfl rfl rfl
theorem OpMap.vssub (o : Fields) : OpMap.Statement (.vssub o) := OpMap.of_eq (by decide) (by decide) rfl rfl rfl
theorem OpMap.vcmp (o : Fields) : OpMap.Statement (.vcmp o) := OpMap.of_eq (by decide) (by decide) rfl rfl rfl
theorem OpMap.vsel (o : Fields) : OpMap.Statement (.vsel o) := OpMap.of_eq (by decide) (by decide) rfl rfl rfl
theorem OpMap.vwadd (o : Fields) : OpMap.Statement (.vwadd o) := OpMap.of_eq (by decide) (by decide) rfl rfl rfl
theorem OpMap.vwmul (o : Fields) : OpMap.Statement (.vwmul o) := OpMap.of_eq (by decide) (by decide) rfl rfl rfl
theorem OpMap.vnshr (o : Fields) : OpMap.Statement (.vnshr o) := OpMap.of_eq (by decide) (by decide) rfl rfl rfl
theorem OpMap.vid (o : Fields) : OpMap.Statement (.vid o) := OpMap.of_eq (by decide) (by decide) rfl rfl rfl
theorem OpMap.viota (o : Fields) : OpMap.Statement (.viota o) := OpMap.of_eq (by decide) (by decide) rfl rfl rfl
theorem OpMap.vfadd (o : Fields) : OpMap.Statement (.vfadd o) := OpMap.of_eq (by decide) (by decide) rfl rfl rfl
theorem OpMap.vfsub (o : Fields) : OpMap.Statement (.vfsub o) := OpMap.of_eq (by decide) (by decide) rfl rfl rfl
theorem OpMap.vfmul (o : Fields) : OpMap.Statement (.vfmul o) := OpMap.of_eq (by decide) (by decide) rfl rfl rfl
theorem OpMap.vfma (o : Fields) : OpMap.Statement (.vfma o) := OpMap.of_eq (by decide) (by decide) rfl rfl rfl
theorem OpMap.vfnma (o : Fields) : OpMap.Statement (.vfnma o) := OpMap.of_eq (by decide) (by decide) rfl rfl rfl
theorem OpMap.vfdiv (o : Fields) : OpMap.Statement (.vfdiv o) := OpMap.of_eq (by decide) (by decide) rfl rfl rfl
theorem OpMap.vfsqrt (o : Fields) : OpMap.Statement (.vfsqrt o) := OpMap.of_eq (by decide) (by decide) rfl rfl rfl
theorem OpMap.vfexp (o : Fields) : OpMap.Statement (.vfexp o) := OpMap.of_eq (by decide) (by decide) rfl rfl rfl
theorem OpMap.vfmin (o : Fields) : OpMap.Statement (.vfmin o) := OpMap.of_eq (by decide) (by decide) rfl rfl rfl
theorem OpMap.vfmax (o : Fields) : OpMap.Statement (.vfmax o) := OpMap.of_eq (by decide) (by decide) rfl rfl rfl
theorem OpMap.vfcmp (o : Fields) : OpMap.Statement (.vfcmp o) := OpMap.of_eq (by decide) (by decide) rfl rfl rfl
theorem OpMap.vfclass (o : Fields) : OpMap.Statement (.vfclass o) := OpMap.of_eq (by decide) (by decide) rfl rfl rfl
theorem OpMap.vfcvt (o : Fields) : OpMap.Statement (.vfcvt o) := OpMap.of_eq (by decide) (by decide) rfl rfl rfl
theorem OpMap.vfscale (o : Fields) : OpMap.Statement (.vfscale o) := OpMap.of_eq (by decide) (by decide) rfl rfl rfl
theorem OpMap.vfsgn (o : Fields) : OpMap.Statement (.vfsgn o) := OpMap.of_eq (by decide) (by decide) rfl rfl rfl
theorem OpMap.vfqnt (o : Fields) : OpMap.Statement (.vfqnt o) := OpMap.of_eq (by decide) (by decide) rfl rfl rfl
theorem OpMap.vfdqnt (o : Fields) : OpMap.Statement (.vfdqnt o) := OpMap.of_eq (by decide) (by decide) rfl rfl rfl
theorem OpMap.vfamax (o : Fields) : OpMap.Statement (.vfamax o) := OpMap.of_eq (by decide) (by decide) rfl rfl rfl
theorem OpMap.vslideup (o : Fields) : OpMap.Statement (.vslideup o) := OpMap.of_eq (by decide) (by decide) rfl rfl rfl
theorem OpMap.vslidedn (o : Fields) : OpMap.Statement (.vslidedn o) := OpMap.of_eq (by decide) (by decide) rfl rfl rfl
theorem OpMap.vslideinUp (o : Fields) : OpMap.Statement (.vslideinUp o) := by
  refine OpMap.of_eq (j := formVslidein o) (by decide) (by decide) rfl rfl ?_
  unfold formVslidein; repeat' split
  all_goals rfl
theorem OpMap.vslideinDn (o : Fields) : OpMap.Statement (.vslideinDn o) := by
  refine OpMap.of_eq (j := formVslidein o) (by decide) (by decide) rfl rfl ?_
  unfold formVslidein; repeat' split
  all_goals rfl
theorem OpMap.vperm (o : Fields) : OpMap.Statement (.vperm o) := OpMap.of_eq (by decide) (by decide) rfl rfl rfl
theorem OpMap.vxch (o : Fields) : OpMap.Statement (.vxch o) := OpMap.of_eq (by decide) (by decide) rfl rfl rfl
theorem OpMap.vcompress (o : Fields) : OpMap.Statement (.vcompress o) := OpMap.of_eq (by decide) (by decide) rfl rfl rfl
theorem OpMap.vexpand (o : Fields) : OpMap.Statement (.vexpand o) := OpMap.of_eq (by decide) (by decide) rfl rfl rfl
theorem OpMap.vbcast (o : Fields) : OpMap.Statement (.vbcast o) := OpMap.of_eq (by decide) (by decide) rfl rfl rfl
theorem OpMap.vmvsx (o : Fields) : OpMap.Statement (.vmvsx o) := OpMap.of_eq (by decide) (by decide) rfl rfl rfl
theorem OpMap.vmvxs (o : Fields) : OpMap.Statement (.vmvxs o) := OpMap.of_eq (by decide) (by decide) rfl rfl rfl
theorem OpMap.vred (o : Fields) : OpMap.Statement (.vred o) := by
  refine OpMap.of_eq (j := formVred o) (by decide) (by decide) rfl rfl ?_
  unfold formVred; repeat' split
  all_goals rfl
theorem OpMap.vredX (o : Fields) : OpMap.Statement (.vredX o) := by
  refine OpMap.of_eq (j := formVred o) (by decide) (by decide) rfl rfl ?_
  unfold formVred; repeat' split
  all_goals rfl
theorem OpMap.vfredo (o : Fields) : OpMap.Statement (.vfredo o) := OpMap.of_eq (by decide) (by decide) rfl rfl rfl
theorem OpMap.vfredt (o : Fields) : OpMap.Statement (.vfredt o) := OpMap.of_eq (by decide) (by decide) rfl rfl rfl
theorem OpMap.vfredmx (o : Fields) : OpMap.Statement (.vfredmx o) := OpMap.of_eq (by decide) (by decide) rfl rfl rfl
theorem OpMap.mlog (o : Fields) : OpMap.Statement (.mlog o) := OpMap.of_eq (by decide) (by decide) rfl rfl rfl
theorem OpMap.mpopc (o : Fields) : OpMap.Statement (.mpopc o) := OpMap.of_eq (by decide) (by decide) rfl rfl rfl
theorem OpMap.mfirst (o : Fields) : OpMap.Statement (.mfirst o) := OpMap.of_eq (by decide) (by decide) rfl rfl rfl
theorem OpMap.mset (o : Fields) : OpMap.Statement (.mset o) := OpMap.of_eq (by decide) (by decide) rfl rfl rfl
theorem OpMap.vsortk (o : Fields) : OpMap.Statement (.vsortk o) := OpMap.of_eq (by decide) (by decide) rfl rfl rfl
theorem OpMap.vmergek (o : Fields) : OpMap.Statement (.vmergek o) := OpMap.of_eq (by decide) (by decide) rfl rfl rfl
theorem OpMap.vsegred (o : Fields) : OpMap.Statement (.vsegred o) := OpMap.of_eq (by decide) (by decide) rfl rfl rfl
theorem OpMap.vsegnorm (o : Fields) : OpMap.Statement (.vsegnorm o) := OpMap.of_eq (by decide) (by decide) rfl rfl rfl
theorem OpMap.vsegscan (o : Fields) : OpMap.Statement (.vsegscan o) := OpMap.of_eq (by decide) (by decide) rfl rfl rfl
theorem OpMap.vsetseg (o : Fields) : OpMap.Statement (.vsetseg o) := OpMap.of_eq (by decide) (by decide) rfl rfl rfl
theorem OpMap.vgetseg (o : Fields) : OpMap.Statement (.vgetseg o) := OpMap.of_eq (by decide) (by decide) rfl rfl rfl
theorem OpMap.fbuild (o : Fields) : OpMap.Statement (.fbuild o) := OpMap.of_eq (by decide) (by decide) rfl rfl rfl
theorem OpMap.fsplit (o : Fields) : OpMap.Statement (.fsplit o) := OpMap.of_eq (by decide) (by decide) rfl rfl rfl
theorem OpMap.fisect (o : Fields) : OpMap.Statement (.fisect o) := OpMap.of_eq (by decide) (by decide) rfl rfl rfl
theorem OpMap.funion (o : Fields) : OpMap.Statement (.funion o) := OpMap.of_eq (by decide) (by decide) rfl rfl rfl
theorem OpMap.fmerge (o : Fields) : OpMap.Statement (.fmerge o) := OpMap.of_eq (by decide) (by decide) rfl rfl rfl
theorem OpMap.fcompact (o : Fields) : OpMap.Statement (.fcompact o) := OpMap.of_eq (by decide) (by decide) rfl rfl rfl
theorem OpMap.fexpand (o : Fields) : OpMap.Statement (.fexpand o) := OpMap.of_eq (by decide) (by decide) rfl rfl rfl
theorem OpMap.fgather (o : Fields) : OpMap.Statement (.fgather o) := OpMap.of_eq (by decide) (by decide) rfl rfl rfl
theorem OpMap.fmulFibre (o : Fields) : OpMap.Statement (.fmulFibre o) := OpMap.of_eq (by decide) (by decide) rfl rfl rfl
theorem OpMap.fdot (o : Fields) : OpMap.Statement (.fdot o) := OpMap.of_eq (by decide) (by decide) rfl rfl rfl
theorem OpMap.fscale (o : Fields) : OpMap.Statement (.fscale o) := OpMap.of_eq (by decide) (by decide) rfl rfl rfl
theorem OpMap.focc (o : Fields) : OpMap.Statement (.focc o) := OpMap.of_eq (by decide) (by decide) rfl rfl rfl
theorem OpMap.fshift (o : Fields) : OpMap.Statement (.fshift o) := OpMap.of_eq (by decide) (by decide) rfl rfl rfl
theorem OpMap.fsort (o : Fields) : OpMap.Statement (.fsort o) := OpMap.of_eq (by decide) (by decide) rfl rfl rfl
theorem OpMap.fred (o : Fields) : OpMap.Statement (.fred o) := OpMap.of_eq (by decide) (by decide) rfl rfl rfl
theorem OpMap.fclear (o : Fields) : OpMap.Statement (.fclear o) := by
  refine OpMap.of_eq (j := formFclear o) (by decide) (by decide) rfl rfl ?_
  unfold formFclear; repeat' split
  all_goals rfl
theorem OpMap.fclearPair (o : Fields) : OpMap.Statement (.fclearPair o) := by
  refine OpMap.of_eq (j := formFclear o) (by decide) (by decide) rfl rfl ?_
  unfold formFclear; repeat' split
  all_goals rfl
theorem OpMap.mma (o : Fields) : OpMap.Statement (.mma o) := OpMap.of_eq (by decide) (by decide) rfl rfl rfl
theorem OpMap.mmas (o : Fields) : OpMap.Statement (.mmas o) := OpMap.of_eq (by decide) (by decide) rfl rfl rfl
theorem OpMap.mmag (o : Fields) : OpMap.Statement (.mmag o) := OpMap.of_eq (by decide) (by decide) rfl rfl rfl
theorem OpMap.mprom (o : Fields) : OpMap.Statement (.mprom o) := OpMap.of_eq (by decide) (by decide) rfl rfl rfl
theorem OpMap.mzero (o : Fields) : OpMap.Statement (.mzero o) := by
  refine OpMap.of_eq (j := formMzero o) (by decide) (by decide) rfl rfl ?_
  unfold formMzero; repeat' split
  all_goals rfl
theorem OpMap.mzeroC (o : Fields) : OpMap.Statement (.mzeroC o) := by
  refine OpMap.of_eq (j := formMzero o) (by decide) (by decide) rfl rfl ?_
  unfold formMzero; repeat' split
  all_goals rfl
theorem OpMap.mdrain (o : Fields) : OpMap.Statement (.mdrain o) := OpMap.of_eq (by decide) (by decide) rfl rfl rfl
theorem OpMap.mfill (o : Fields) : OpMap.Statement (.mfill o) := OpMap.of_eq (by decide) (by decide) rfl rfl rfl
theorem OpMap.mstat (o : Fields) : OpMap.Statement (.mstat o) := OpMap.of_eq (by decide) (by decide) rfl rfl rfl
theorem OpMap.ld (o : Fields) : OpMap.Statement (.ld o) := OpMap.of_eq (by decide) (by decide) rfl rfl rfl
theorem OpMap.st (o : Fields) : OpMap.Statement (.st o) := OpMap.of_eq (by decide) (by decide) rfl rfl rfl
theorem OpMap.vld (o : Fields) : OpMap.Statement (.vld o) := OpMap.of_eq (by decide) (by decide) rfl rfl rfl
theorem OpMap.vst (o : Fields) : OpMap.Statement (.vst o) := OpMap.of_eq (by decide) (by decide) rfl rfl rfl
theorem OpMap.vlds (o : Fields) : OpMap.Statement (.vlds o) := OpMap.of_eq (by decide) (by decide) rfl rfl rfl
theorem OpMap.vsts (o : Fields) : OpMap.Statement (.vsts o) := OpMap.of_eq (by decide) (by decide) rfl rfl rfl
theorem OpMap.vldx (o : Fields) : OpMap.Statement (.vldx o) := OpMap.of_eq (by decide) (by decide) rfl rfl rfl
theorem OpMap.vstx (o : Fields) : OpMap.Statement (.vstx o) := OpMap.of_eq (by decide) (by decide) rfl rfl rfl
theorem OpMap.vldf (o : Fields) : OpMap.Statement (.vldf o) := OpMap.of_eq (by decide) (by decide) rfl rfl rfl
theorem OpMap.vstf (o : Fields) : OpMap.Statement (.vstf o) := OpMap.of_eq (by decide) (by decide) rfl rfl rfl
theorem OpMap.vldp (o : Fields) : OpMap.Statement (.vldp o) := OpMap.of_eq (by decide) (by decide) rfl rfl rfl
theorem OpMap.vstp (o : Fields) : OpMap.Statement (.vstp o) := OpMap.of_eq (by decide) (by decide) rfl rfl rfl
theorem OpMap.pref (o : Fields) : OpMap.Statement (.pref o) := OpMap.of_eq (by decide) (by decide) rfl rfl rfl
theorem OpMap.cbinvWb (o : Fields) : OpMap.Statement (.cbinvWb o) := by
  refine OpMap.of_eq (j := formCbinv o) (by decide) (by decide) rfl rfl ?_
  unfold formCbinv; repeat' split
  all_goals rfl
theorem OpMap.cbinvWbi (o : Fields) : OpMap.Statement (.cbinvWbi o) := by
  refine OpMap.of_eq (j := formCbinv o) (by decide) (by decide) rfl rfl ?_
  unfold formCbinv; repeat' split
  all_goals rfl
theorem OpMap.cbinvDisc (o : Fields) : OpMap.Statement (.cbinvDisc o) := by
  refine OpMap.of_eq (j := formCbinv o) (by decide) (by decide) rfl rfl ?_
  unfold formCbinv; repeat' split
  all_goals rfl
theorem OpMap.fence (o : Fields) : OpMap.Statement (.fence o) := by
  refine OpMap.of_eq (j := formFence o) (by decide) (by decide) rfl rfl ?_
  unfold formFence; repeat' split
  all_goals rfl
theorem OpMap.fenceI (o : Fields) : OpMap.Statement (.fenceI o) := by
  refine OpMap.of_eq (j := formFence o) (by decide) (by decide) rfl rfl ?_
  unfold formFence; repeat' split
  all_goals rfl
theorem OpMap.amo (o : Fields) : OpMap.Statement (.amo o) := OpMap.of_eq (by decide) (by decide) rfl rfl rfl
theorem OpMap.cas (o : Fields) : OpMap.Statement (.cas o) := OpMap.of_eq (by decide) (by decide) rfl rfl rfl
theorem OpMap.vamo (o : Fields) : OpMap.Statement (.vamo o) := OpMap.of_eq (by decide) (by decide) rfl rfl rfl
theorem OpMap.vldc (o : Fields) : OpMap.Statement (.vldc o) := OpMap.of_eq (by decide) (by decide) rfl rfl rfl
theorem OpMap.vstc (o : Fields) : OpMap.Statement (.vstc o) := OpMap.of_eq (by decide) (by decide) rfl rfl rfl
theorem OpMap.vamoc (o : Fields) : OpMap.Statement (.vamoc o) := OpMap.of_eq (by decide) (by decide) rfl rfl rfl
theorem OpMap.fld (o : Fields) : OpMap.Statement (.fld o) := OpMap.of_eq (by decide) (by decide) rfl rfl rfl
theorem OpMap.fst (o : Fields) : OpMap.Statement (.fst o) := OpMap.of_eq (by decide) (by decide) rfl rfl rfl
theorem OpMap.fwalk (o : Fields) : OpMap.Statement (.fwalk o) := OpMap.of_eq (by decide) (by decide) rfl rfl rfl
theorem OpMap.vqsync (o : Fields) : OpMap.Statement (.vqsync o) := OpMap.of_eq (by decide) (by decide) rfl rfl rfl
theorem OpMap.vqreplay (o : Fields) : OpMap.Statement (.vqreplay o) := OpMap.of_eq (by decide) (by decide) rfl rfl rfl
theorem OpMap.qbind (o : Fields) : OpMap.Statement (.qbind o) := OpMap.of_eq (by decide) (by decide) rfl rfl rfl
theorem OpMap.qrd (o : Fields) : OpMap.Statement (.qrd o) := OpMap.of_eq (by decide) (by decide) rfl rfl rfl
theorem OpMap.fldq (o : Fields) : OpMap.Statement (.fldq o) := OpMap.of_eq (by decide) (by decide) rfl rfl rfl
theorem OpMap.qrel (o : Fields) : OpMap.Statement (.qrel o) := OpMap.of_eq (by decide) (by decide) rfl rfl rfl
theorem OpMap.acopy (o : Fields) : OpMap.Statement (.acopy o) := OpMap.of_eq (by decide) (by decide) rfl rfl rfl
theorem OpMap.acopy2 (o : Fields) : OpMap.Statement (.acopy2 o) := OpMap.of_eq (by decide) (by decide) rfl rfl rfl
theorem OpMap.waitt (o : Fields) : OpMap.Statement (.waitt o) := OpMap.of_eq (by decide) (by decide) rfl rfl rfl
theorem OpMap.collArsum (o : Fields) : OpMap.Statement (.collArsum o) := by
  refine OpMap.of_eq (j := formColl o) (by decide) (by decide) rfl rfl ?_
  unfold formColl; repeat' split
  all_goals rfl
theorem OpMap.collArmax (o : Fields) : OpMap.Statement (.collArmax o) := by
  refine OpMap.of_eq (j := formColl o) (by decide) (by decide) rfl rfl ?_
  unfold formColl; repeat' split
  all_goals rfl
theorem OpMap.collAg (o : Fields) : OpMap.Statement (.collAg o) := by
  refine OpMap.of_eq (j := formColl o) (by decide) (by decide) rfl rfl ?_
  unfold formColl; repeat' split
  all_goals rfl
theorem OpMap.collRssum (o : Fields) : OpMap.Statement (.collRssum o) := by
  refine OpMap.of_eq (j := formColl o) (by decide) (by decide) rfl rfl ?_
  unfold formColl; repeat' split
  all_goals rfl
theorem OpMap.collRsmax (o : Fields) : OpMap.Statement (.collRsmax o) := by
  refine OpMap.of_eq (j := formColl o) (by decide) (by decide) rfl rfl ?_
  unfold formColl; repeat' split
  all_goals rfl
theorem OpMap.toksend (o : Fields) : OpMap.Statement (.toksend o) := OpMap.of_eq (by decide) (by decide) rfl rfl rfl
theorem OpMap.taskpub (o : Fields) : OpMap.Statement (.taskpub o) := OpMap.of_eq (by decide) (by decide) rfl rfl rfl
theorem OpMap.taskcan (o : Fields) : OpMap.Statement (.taskcan o) := OpMap.of_eq (by decide) (by decide) rfl rfl rfl
theorem OpMap.arrive (o : Fields) : OpMap.Statement (.arrive o) := OpMap.of_eq (by decide) (by decide) rfl rfl rfl
theorem OpMap.waitb (o : Fields) : OpMap.Statement (.waitb o) := OpMap.of_eq (by decide) (by decide) rfl rfl rfl
theorem OpMap.sleep (o : Fields) : OpMap.Statement (.sleep o) := OpMap.of_eq (by decide) (by decide) rfl rfl rfl
theorem OpMap.wake (o : Fields) : OpMap.Statement (.wake o) := OpMap.of_eq (by decide) (by decide) rfl rfl rfl
theorem OpMap.clbinv (o : Fields) : OpMap.Statement (.clbinv o) := by
  refine OpMap.of_eq (j := formClbinv o) (by decide) (by decide) rfl rfl ?_
  unfold formClbinv; repeat' split
  all_goals rfl
theorem OpMap.clbinvAll (o : Fields) : OpMap.Statement (.clbinvAll o) := by
  refine OpMap.of_eq (j := formClbinv o) (by decide) (by decide) rfl rfl ?_
  unfold formClbinv; repeat' split
  all_goals rfl
theorem OpMap.viewreg (o : Fields) : OpMap.Statement (.viewreg o) := OpMap.of_eq (by decide) (by decide) rfl rfl rfl
theorem OpMap.viewdel (o : Fields) : OpMap.Statement (.viewdel o) := OpMap.of_eq (by decide) (by decide) rfl rfl rfl
theorem OpMap.viewsync (o : Fields) : OpMap.Statement (.viewsync o) := by
  refine OpMap.of_eq (j := formViewsync o) (by decide) (by decide) rfl rfl ?_
  unfold formViewsync; repeat' split
  all_goals rfl
theorem OpMap.viewsyncTw (o : Fields) : OpMap.Statement (.viewsyncTw o) := by
  refine OpMap.of_eq (j := formViewsync o) (by decide) (by decide) rfl rfl ?_
  unfold formViewsync; repeat' split
  all_goals rfl
theorem OpMap.viewstat (o : Fields) : OpMap.Statement (.viewstat o) := by
  refine OpMap.of_eq (j := formViewstat o) (by decide) (by decide) rfl rfl ?_
  unfold formViewstat; repeat' split
  all_goals rfl
theorem OpMap.viewstatD (o : Fields) : OpMap.Statement (.viewstatD o) := by
  refine OpMap.of_eq (j := formViewstat o) (by decide) (by decide) rfl rfl ?_
  unfold formViewstat; repeat' split
  all_goals rfl
theorem OpMap.mtlbinvPage (o : Fields) : OpMap.Statement (.mtlbinvPage o) := by
  refine OpMap.of_eq (j := formMtlbinv o) (by decide) (by decide) rfl rfl ?_
  unfold formMtlbinv; repeat' split
  all_goals rfl
theorem OpMap.mtlbinvAsn (o : Fields) : OpMap.Statement (.mtlbinvAsn o) := by
  refine OpMap.of_eq (j := formMtlbinv o) (by decide) (by decide) rfl rfl ?_
  unfold formMtlbinv; repeat' split
  all_goals rfl
theorem OpMap.mtlbinvAll (o : Fields) : OpMap.Statement (.mtlbinvAll o) := by
  refine OpMap.of_eq (j := formMtlbinv o) (by decide) (by decide) rfl rfl ?_
  unfold formMtlbinv; repeat' split
  all_goals rfl
theorem OpMap.pmig (o : Fields) : OpMap.Statement (.pmig o) := OpMap.of_eq (by decide) (by decide) rfl rfl rfl
theorem OpMap.biassetHost (o : Fields) : OpMap.Statement (.biassetHost o) := by
  refine OpMap.of_eq (j := formBiasset o) (by decide) (by decide) rfl rfl ?_
  unfold formBiasset; repeat' split
  all_goals rfl
theorem OpMap.biassetDev (o : Fields) : OpMap.Statement (.biassetDev o) := by
  refine OpMap.of_eq (j := formBiasset o) (by decide) (by decide) rfl rfl ?_
  unfold formBiasset; repeat' split
  all_goals rfl
theorem OpMap.frecinv (o : Fields) : OpMap.Statement (.frecinv o) := by
  refine OpMap.of_eq (j := formFrecinv o) (by decide) (by decide) rfl rfl ?_
  unfold formFrecinv; repeat' split
  all_goals rfl
theorem OpMap.frecinvAll (o : Fields) : OpMap.Statement (.frecinvAll o) := by
  refine OpMap.of_eq (j := formFrecinv o) (by decide) (by decide) rfl rfl ?_
  unfold formFrecinv; repeat' split
  all_goals rfl
theorem OpMap.rdcyc (o : Fields) : OpMap.Statement (.rdcyc o) := OpMap.of_eq (by decide) (by decide) rfl rfl rfl
theorem OpMap.rdseq (o : Fields) : OpMap.Statement (.rdseq o) := OpMap.of_eq (by decide) (by decide) rfl rfl rfl
theorem OpMap.waitseq (o : Fields) : OpMap.Statement (.waitseq o) := OpMap.of_eq (by decide) (by decide) rfl rfl rfl
theorem OpMap.rdclk (o : Fields) : OpMap.Statement (.rdclk o) := OpMap.of_eq (by decide) (by decide) rfl rfl rfl
theorem OpMap.cresync (o : Fields) : OpMap.Statement (.cresync o) := OpMap.of_eq (by decide) (by decide) rfl rfl rfl
theorem OpMap.evsel (o : Fields) : OpMap.Statement (.evsel o) := OpMap.of_eq (by decide) (by decide) rfl rfl rfl
theorem OpMap.evrd (o : Fields) : OpMap.Statement (.evrd o) := OpMap.of_eq (by decide) (by decide) rfl rfl rfl
theorem OpMap.outcnt (o : Fields) : OpMap.Statement (.outcnt o) := OpMap.of_eq (by decide) (by decide) rfl rfl rfl
theorem OpMap.budrd (o : Fields) : OpMap.Statement (.budrd o) := OpMap.of_eq (by decide) (by decide) rfl rfl rfl
theorem OpMap.packageReset (selfTestFail : BitVec 24) (linkFail : Bool) (images : BootImages) : OpMap.Statement (.packageReset selfTestFail linkFail images) := OpMap.of_none rfl
theorem OpMap.cycleTick : OpMap.Statement (.cycleTick) := OpMap.of_none rfl
theorem OpMap.scalarWriteLand (h : Nat) : OpMap.Statement (.scalarWriteLand h) := OpMap.of_none rfl
theorem OpMap.joinRelease (h : Nat) : OpMap.Statement (.joinRelease h) := OpMap.of_none rfl
theorem OpMap.queuePushResume (h : Nat) : OpMap.Statement (.queuePushResume h) := OpMap.of_none rfl
theorem OpMap.queueEntryStart (core : Nat) (steps : Nat) : OpMap.Statement (.queueEntryStart core steps) := OpMap.of_none rfl
theorem OpMap.queueEntryComplete (h : Nat) : OpMap.Statement (.queueEntryComplete h) := OpMap.of_none rfl
theorem OpMap.vectorFault (h : Nat) : OpMap.Statement (.vectorFault h) := OpMap.of_none rfl
theorem OpMap.queueFault (h : Nat) : OpMap.Statement (.queueFault h) := OpMap.of_none rfl
theorem OpMap.interrupt (h : Nat) : OpMap.Statement (.interrupt h) := OpMap.of_none rfl
theorem OpMap.preempt (h : Nat) (requester : Nat) : OpMap.Statement (.preempt h requester) := OpMap.of_none rfl
theorem OpMap.regstoreFill (h : Nat) (line : Nat) : OpMap.Statement (.regstoreFill h line) := OpMap.of_none rfl
theorem OpMap.budgetCharge (h : Nat) : OpMap.Statement (.budgetCharge h) := OpMap.of_none rfl
theorem OpMap.budgetRefill : OpMap.Statement (.budgetRefill) := OpMap.of_none rfl
theorem OpMap.governorUpdate (die : Nat) (rate : BitVec 12) : OpMap.Statement (.governorUpdate die rate) := OpMap.of_none rfl
theorem OpMap.streamPrefetch (h : Nat) (q : Nat) (n : Nat) : OpMap.Statement (.streamPrefetch h q n) := OpMap.of_none rfl
theorem OpMap.requestHeaderRefused (h : Nat) : OpMap.Statement (.requestHeaderRefused h) := OpMap.of_none rfl
theorem OpMap.l2Fill (die : Nat) (line : Nat) : OpMap.Statement (.l2Fill die line) := OpMap.of_none rfl
theorem OpMap.dirRead (line : Nat) (die : Nat) : OpMap.Statement (.dirRead line die) := OpMap.of_none rfl
theorem OpMap.dirOwnership (line : Nat) (die : Nat) : OpMap.Statement (.dirOwnership line die) := OpMap.of_none rfl
theorem OpMap.writebackRequest (line : Nat) (die : Nat) : OpMap.Statement (.writebackRequest line die) := OpMap.of_none rfl
theorem OpMap.writebackGrant (line : Nat) (die : Nat) : OpMap.Statement (.writebackGrant line die) := OpMap.of_none rfl
theorem OpMap.synonymSwitch (frame : Nat) (asn : BitVec 16) (granule : Nat) : OpMap.Statement (.synonymSwitch frame asn granule) := OpMap.of_none rfl
theorem OpMap.engineLineFinish (agent : Nat) (eng : Nat) : OpMap.Statement (.engineLineFinish agent eng) := OpMap.of_none rfl
theorem OpMap.copyOpComplete (agent : Nat) (eng : Nat) : OpMap.Statement (.copyOpComplete agent eng) := OpMap.of_none rfl
theorem OpMap.collComplete (agent : Nat) (peers : List CollShare) : OpMap.Statement (.collComplete agent peers) := OpMap.of_none rfl
theorem OpMap.toksendRowPlace (k : Nat) : OpMap.Statement (.toksendRowPlace k) := OpMap.of_none rfl
theorem OpMap.postedStoreAck (h : Nat) : OpMap.Statement (.postedStoreAck h) := OpMap.of_none rfl
theorem OpMap.domainTimeout (h : Nat) : OpMap.Statement (.domainTimeout h) := OpMap.of_none rfl
theorem OpMap.promiseMissed (h : Nat) : OpMap.Statement (.promiseMissed h) := OpMap.of_none rfl
theorem OpMap.viewsyncTimeout (h : Nat) : OpMap.Statement (.viewsyncTimeout h) := OpMap.of_none rfl
theorem OpMap.sleepTimeout (h : Nat) : OpMap.Statement (.sleepTimeout h) := OpMap.of_none rfl
theorem OpMap.migration (hub : Nat) : OpMap.Statement (.migration hub) := OpMap.of_none rfl
theorem OpMap.migrationComplete (hub : Nat) : OpMap.Statement (.migrationComplete hub) := OpMap.of_none rfl
theorem OpMap.holdQueueRetry (hub : Nat) : OpMap.Statement (.holdQueueRetry hub) := OpMap.of_none rfl
theorem OpMap.biasFlipStep (granule : Nat) : OpMap.Statement (.biasFlipStep granule) := OpMap.of_none rfl
theorem OpMap.hostCxlMemRead (a : HostAddr) (own : Bool) : OpMap.Statement (.hostCxlMemRead a own) := OpMap.of_none rfl
theorem OpMap.hostCxlMemWrite (a : HostAddr) (data : List Byte) : OpMap.Statement (.hostCxlMemWrite a data) := OpMap.of_none rfl
theorem OpMap.doorbellWrite (hub : Nat) (mask : BitVec 16) : OpMap.Statement (.doorbellWrite hub mask) := OpMap.of_none rfl
theorem OpMap.publishWrite (value : Word) : OpMap.Statement (.publishWrite value) := OpMap.of_none rfl
theorem OpMap.hostPublication : OpMap.Statement (.hostPublication) := OpMap.of_none rfl
theorem OpMap.fencereqWrite (value : Word) : OpMap.Statement (.fencereqWrite value) := OpMap.of_none rfl
theorem OpMap.dieLevelError (die : Nat) : OpMap.Statement (.dieLevelError die) := OpMap.of_none rfl
theorem OpMap.hubLoss : OpMap.Statement (.hubLoss) := OpMap.of_none rfl
theorem OpMap.uncontainedAsnFault (hub : Nat) (asn : BitVec 16) : OpMap.Statement (.uncontainedAsnFault hub asn) := OpMap.of_none rfl
theorem OpMap.uncorrectableError (e : ErrorSite) : OpMap.Statement (.uncorrectableError e) := OpMap.of_none rfl
theorem OpMap.packetArrival (dst : Nat) (p : Packet) : OpMap.Statement (.packetArrival dst p) := OpMap.of_none rfl
theorem OpMap.quarantineDelivery (dst : Nat) : OpMap.Statement (.quarantineDelivery dst) := OpMap.of_none rfl
theorem OpMap.horizonBeat (dst : Nat) (b : Beat) : OpMap.Statement (.horizonBeat dst b) := OpMap.of_none rfl
theorem OpMap.idleBeat (src : Nat) (dst : Nat) : OpMap.Statement (.idleBeat src dst) := OpMap.of_none rfl
theorem OpMap.windowStall (agent : Nat) : OpMap.Statement (.windowStall agent) := OpMap.of_none rfl
theorem OpMap.resyncDrainTimeout : OpMap.Statement (.resyncDrainTimeout) := OpMap.of_none rfl
theorem OpMap.watchBeat (viewHome : Nat) (masterHome : Nat) : OpMap.Statement (.watchBeat viewHome masterHome) := OpMap.of_none rfl
theorem OpMap.staleNotice (reg : Nat) (block : Nat) : OpMap.Statement (.staleNotice reg block) := OpMap.of_none rfl
theorem OpMap.derivationStart (hub : Nat) : OpMap.Statement (.derivationStart hub) := OpMap.of_none rfl
theorem OpMap.derivationPublish (hub : Nat) : OpMap.Statement (.derivationPublish hub) := OpMap.of_none rfl
theorem OpMap.viewRead (h : Nat) : OpMap.Statement (.viewRead h) := OpMap.of_none rfl
theorem OpMap.poolPush (asn : BitVec 16) (pool : Word) (block : Word) : OpMap.Statement (.poolPush asn pool block) := OpMap.of_none rfl
theorem OpMap.clbDropAck (core : Nat) (asn : BitVec 16) (root : Option Word) : OpMap.Statement (.clbDropAck core asn root) := OpMap.of_none rfl
theorem OpMap.predecessorEvent (asn : BitVec 16) (tcb : Word) (ending : PredEnd) : OpMap.Statement (.predecessorEvent asn tcb ending) := OpMap.of_none rfl
theorem OpMap.dispatchClaim : OpMap.Statement (.dispatchClaim) := OpMap.of_none rfl
theorem OpMap.readyListAging (k : Nat) : OpMap.Statement (.readyListAging k) := OpMap.of_none rfl
theorem OpMap.level0Preempt : OpMap.Statement (.level0Preempt) := OpMap.of_none rfl
theorem OpMap.taskRetirement (k : Nat) : OpMap.Statement (.taskRetirement k) := OpMap.of_none rfl
theorem OpMap.taskFailure (k : Nat) (status : Nat) : OpMap.Statement (.taskFailure k status) := OpMap.of_none rfl
theorem OpMap.waitUnbind (h : Nat) : OpMap.Statement (.waitUnbind h) := OpMap.of_none rfl
theorem OpMap.waitRebind (h : Nat) : OpMap.Statement (.waitRebind h) := OpMap.of_none rfl
theorem OpMap.irqsetWrite (hub : Nat) : OpMap.Statement (.irqsetWrite hub) := OpMap.of_none rfl
theorem OpMap.memrdyWrite (hub : Nat) : OpMap.Statement (.memrdyWrite hub) := OpMap.of_none rfl
theorem OpMap.configRegWrite (hub : Nat) (off : Nat) (n : Nat) (value : Word) : OpMap.Statement (.configRegWrite hub off n value) := OpMap.of_none rfl
theorem OpMap.managementMessage (m : MgmtMessage) : OpMap.Statement (.managementMessage m) := OpMap.of_none rfl
theorem OpMap.debugUnlock (signed : Bool) : OpMap.Statement (.debugUnlock signed) := OpMap.of_none rfl
theorem OpMap.rilrovPortFailure (rail : Nat) : OpMap.Statement (.rilrovPortFailure rail) := OpMap.of_none rfl
theorem OpMap.lossOfFlow (on : Bool) : OpMap.Statement (.lossOfFlow on) := OpMap.of_none rfl
theorem OpMap.junctionTemperature (die : Nat) (celsius : Nat) : OpMap.Statement (.junctionTemperature die celsius) := OpMap.of_none rfl
theorem OpMap.memEnableControlWrite (port : Nat) (on : Bool) : OpMap.Statement (.memEnableControlWrite port on) := OpMap.of_none rfl
theorem OpMap.rilrovIngress (pa : Nat) (data : List Byte) : OpMap.Statement (.rilrovIngress pa data) := OpMap.of_none rfl
theorem OpMap.ethernetIngress (pa : Nat) (data : List Byte) : OpMap.Statement (.ethernetIngress pa data) := OpMap.of_none rfl
theorem OpMap.hostCxlResponse (half : Nat) (data : List Byte) : OpMap.Statement (.hostCxlResponse half data) := OpMap.of_none rfl
theorem OpMap.mtlbinvAcknowledge (agent : Nat) (scope : InvScope) : OpMap.Statement (.mtlbinvAcknowledge agent scope) := OpMap.of_none rfl

end Sys2Proof.Laws
end

