-- ==== Sys2Proof/Laws/Push.lean ====
section
/-! SUPPORT. Sys2Proof/Laws/Push.lean: one queued instruction from its push to its completion, where the vector unit works
at once. -/

namespace Sys2Proof.Machine

theorem captures_length (i : Instr) (o : Fields) (x : Hart) : (captures i o x).length ≤ 4 := by
  have hstd : ((if (shape i).a = .scalar then [x.reg o.a.toNat] else []) ++
      (if (shape i).b = .scalar ∧ !o.i then [x.reg o.b.toNat] else [])).length ≤ 4 := by
    split <;> split <;> simp
  unfold captures
  dsimp only
  split <;> first | exact hstd | (split <;> simp) | simp

theorem State.SameOutside.start (s : State) : s.SameOutside s.begun where
  rest := rfl
  number := by simp [State.begun]
  others k hk := by rw [State.begun, State.setHart_hart_ne _ _ _ _ hk]
  core c' := rfl
  bytes a := rfl
theorem State.SameOutside.order {s t : State} (h : s.SameOutside t) (n : Nat) : s.SameOutside { t with order := n } where
  rest := by have := h.rest; rw [this]
  number := h.number
  others := h.others
  core := h.core
  bytes := h.bytes
theorem State.SameOutside.setHart {s t : State} (h : s.SameOutside t) (z : Hart) : s.SameOutside (t.setHart s.cur z) where
  rest := by have := h.rest; rw [this]; rfl
  number := by rw [State.setHart_length]; exact h.number
  others k hk := by rw [State.setHart_hart_ne _ _ _ _ hk]; exact h.others k hk
  core := h.core
  bytes := h.bytes
theorem State.SameOutside.countCore {s t : State} (h : s.SameOutside t) (c k n : Nat) : s.SameOutside (t.countCore c k n) where
  rest := by rw [State.countCore_eq]; have := h.rest; rw [this]
  number := by rw [State.countCore_harts]; exact h.number
  others j hj := by rw [State.countCore_hart]; exact h.others j hj
  core d := by rw [State.countCore_core]; have := h.core d; rw [this]
  bytes a := by rw [State.countCore_eq]; exact h.bytes a

/-- An entry takes one to four positions. -/
theorem newEntry_size (x : Hart) (i : Instr) (o : Fields) (y : Hart) (n : Nat) :
    1 ≤ (newEntry x i o (captures i o y) n).size ∧ (newEntry x i o (captures i o y) n).size ≤ 4 := by
  have := captures_length i o y
  simp only [newEntry]; omega

theorem State.pushedNow_hart {s : State} (h : s.AtRest) (i : Instr) (o : Fields) :
    (s.pushedNow i o).hart s.cur = { s.me.advanced with
      queue := [s.entry i o], vqtail := s.me.vqtail + BitVec.ofNat 16 (s.entry i o).size } := by
  rw [State.pushedNow, State.pushEntry, State.countCore_hart, State.modHart]
  rw [State.setHart_hart _ _ _ (by simpa [State.begun] using h.here)]
  have : ({ s.begun with order := s.begun.order + 1 } : State).hart s.cur = s.me.advanced := State.begun_me h
  rw [this]
  rw [show s.me.advanced.queue = [] from h.empty]
  rfl

/-- The scalar unit's part of a push on a hart at rest. -/
theorem push_body {s : State} {i : Instr} {o : Fields} {check : Fields → Hart → Option PushIll} (h : s.CanPush i o check)
    (atIssue : State → State) :
    pushBody i o check (captures i o) atIssue s.begun =
      match drainQ s.cur 0 drainFuel (atIssue (s.pushedNow i o)) with
      | .stop f => .stop f
      | .ok u => .ok u := by
  have hm := State.begun_me h.toAtRest
  have hw : (s.begun.hart s.cur).pushWaits (max 1 (captures i o (s.begun.hart s.cur)).length) = false := by
    have := captures_length i o (s.begun.hart s.cur)
    rw [hm] at this ⊢
    simp only [Hart.pushWaits, Hart.occupancy, show s.me.advanced.queue = [] from h.empty,
      show s.me.advanced.vqtail = s.me.advanced.vcp from h.level, List.any_nil, Bool.or_false, decide_eq_false_iff_not]
    simp
    omega
  have hl : s.begun.lead = 0 := h.prompt
  unfold pushBody
  simp only [State.begun_cur, hw, Bool.false_eq_true, if_false]
  rw [hm, h.checked]
  simp only [hl]
  rfl

/-- The head of the queue performed. -/
theorem performHead_done {t u : State} {h : Nat} {e : QEntry} {f : BitVec 8} {v : Option Word} (limit : Option Nat)
    (hq : (t.hart h).queue = [e]) (hs : e.stage = .waiting) (hr : (t.hart h).replaying = false)
    (hd : performInstr limit e h t = .done u f v) :
    t.performHead h limit = .ok (u.modHart h fun y => y.setHead fun q =>
      { q with stage := .performed f (v.map fun w => ((fieldsOfInstr e.instr).d.toNat, w)) }) := by
  have hk : (t.hart h).headParking e = false := by simp [Hart.headParking, hs]
  unfold State.performHead
  simp only [hq, hr, hk, Bool.or_false, Bool.false_eq_true, if_false, hs, hd, PRes.headStage]

/-- A performed entry that is alone in its queue completes. -/
theorem completeHead_done {u : State} {h : Nat} {e : QEntry} {f : BitVec 8} {v : Option Word} (hu : (u.hart h).queue = [e])
    (hh : h < u.harts.length) (hp : e.part = false) (hi : ∀ o, e.instr ≠ .endI o) :
    (u.modHart h fun y => y.setHead fun q =>
      { q with stage := .performed f (v.map fun w => ((fieldsOfInstr e.instr).d.toNat, w)) }).completeHead h =
      u.modHart h fun y => y.retired e f v := by
  have hx : (u.modHart h fun y => y.setHead fun q =>
      { q with stage := .performed f (v.map fun w => ((fieldsOfInstr e.instr).d.toNat, w)) }).hart h =
      { u.hart h with queue := [{ e with stage := .performed f (v.map fun w => ((fieldsOfInstr e.instr).d.toNat, w)) }] } := by
    rw [State.modHart, State.setHart_hart _ _ _ hh]
    simp only [Hart.setHead, hu]
  unfold State.completeHead
  simp only [hx]
  cases v
  all_goals
    dsimp only [Option.map_none, Option.map_some]
    rw [if_neg (by simp [hp])]
    simp only [State.modHart, State.setHart_setHart]
    rfl

theorem filter_range_one (p : Nat → Bool) (n h : Nat) (hh : h < n) (hp : p h = true) (hn : ∀ k, k ≠ h → p k = false) :
    (List.range n).filter p = [h] := by
  induction n with
  | zero => omega
  | succ n ih =>
    rw [List.range_succ, List.filter_append]
    by_cases hk : h = n
    · subst hk
      have : (List.range h).filter p = [] := by
        rw [List.filter_eq_nil_iff]
        intro k hm
        simp [hn k (by simp at hm; omega)]
      simp [this, hp]
    · simp [ih (by omega), hn n (Ne.symm hk)]

/-- No other hart of the core has entries: the vector unit takes the hart's own. -/
theorem pick_alone {t : State} {h : Nat} {e : QEntry} (hq : (t.hart h).queue = [e]) (hs : e.stage = .waiting)
    (hr : (t.hart h).replaying = false) (hh : h < t.harts.length)
    (ha : ∀ k, k ≠ h → (t.hart k).coreNo = (t.hart h).coreNo → (t.hart k).queue = []) :
    t.readyHarts (t.hart h).coreNo (some h) [] = [h] := by
  refine filter_range_one _ _ _ hh ?_ ?_
  · have hf : ∀ j, ((j != h && ((t.hart j).coreNo == (t.hart h).coreNo)) && (t.hart j).onFibrePipe) = false := by
      intro j
      by_cases hj : j = h
      · simp [hj]
      · by_cases hc : (t.hart j).coreNo = (t.hart h).coreNo
        · simp [Hart.onFibrePipe, ha j hj hc]
        · simp [hc]
    simp only [Hart.readyHead, hr, hq, hs, hf]
    simp
  · intro k hk
    by_cases hc : (t.hart k).coreNo = (t.hart h).coreNo
    · simp [Hart.readyHead, ha k hk hc]
    · simp [hc]

/-- The one hart that is ready is taken. -/
theorem chooseHart_one (t : State) (core h : Nat) : t.chooseHart core [h] = some h := by
  unfold State.chooseHart
  have one : ∀ p : Nat → Bool, (if ([h].filter p).isEmpty then [h] else [h].filter p) = [h] := by
    intro p
    cases hp : p h <;> simp [List.filter, hp]
  simp only [one, leastBy, List.foldl_cons, List.foldl_nil, Option.bind_some]
  cases hc : (decide ((t.core core).level < lowWater) && (t.headEstimate h).isSome)
  · simp
  · have he := (Bool.and_eq_true _ _ ▸ hc).2
    simp [List.filter, he]

/-- An entry that its unit performs to the end completes in the same step. -/
theorem drain_one {t u : State} {h : Nat} {e : QEntry} {f : BitVec 8} {v : Option Word} (hq : (t.hart h).queue = [e])
    (hs : e.stage = .waiting) (hr : (t.hart h).replaying = false) (ho : (t.hart h).occupancy ≠ 0) (hp : e.part = false)
    (hi : ∀ o, e.instr ≠ .endI o) (hd : performInstr none e h t = .done u f v) (hu : (u.hart h).queue = [e])
    (hh : h < u.harts.length) (ht : h < t.harts.length)
    (ha : ∀ k, k ≠ h → (t.hart k).coreNo = (t.hart h).coreNo → (t.hart k).queue = [])
    (hv : (t.core (t.hart h).coreNo).vuRun = 0) :
    drainQ h 0 drainFuel t = .ok (u.modHart h fun y => y.retired e f v) := by
  have hz : ((u.modHart h fun y => y.retired e f v).hart h).queue = [] := by
    rw [State.modHart, State.setHart_hart _ _ _ hh]
    unfold Hart.retired
    cases v <;> simp [Hart.varResult]
  have hk := pick_alone hq hs hr ht ha
  show drainFrom h 0 (519 + 1 + 1) [] t = _
  rw [drainFrom]
  rw [if_neg (by simp [hq, ho])]
  simp only [State.pickEntry, hk, chooseHart_one]
  have hw : ¬ ((!(t.hart h).headWaits) = true) := by simp [Hart.headWaits, hq, hs]
  rw [State.noteTaken, if_neg hw, hk, if_pos (by simp), if_pos hv, performHead_done none hq hs hr hd]
  simp only [Drive.bind, completeHead_done hu hh hp hi, hz, hq, List.length_nil, List.length_singleton, Nat.zero_lt_one, if_true]
  rw [drainFrom, if_pos (by simp [hz])]

theorem entry_facts (s : State) (i : Instr) (o : Fields) :
    (s.entry i o).instr = i ∧ (s.entry i o).stage = .waiting ∧ (s.entry i o).part = false := ⟨rfl, rfl, rfl⟩

theorem pushed_occupancy {s : State} (h : s.AtRest) (i : Instr) (o : Fields) :
    ((s.pushedNow i o).hart s.cur).occupancy ≠ 0 := by
  rw [State.pushedNow_hart h]
  have := newEntry_size s.me.advanced i o s.me.advanced s.order
  have hs : 1 ≤ (s.entry i o).size ∧ (s.entry i o).size ≤ 4 := this
  have hl : s.me.vqtail = s.me.vcp := h.level
  show (s.me.vqtail + BitVec.ofNat 16 (s.entry i o).size - s.me.vcp).toNat ≠ 0
  rw [hl]
  generalize (s.entry i o).size = n at hs
  rw [show s.me.vcp + BitVec.ofNat 16 n - s.me.vcp = BitVec.ofNat 16 n by abel_nf; simp]
  rw [BitVec.toNat_ofNat]
  omega

theorem issued_queue (i : Instr) (o : Fields) (t : State) (h : Nat) : ((t.issued h i o).hart h).queue = (t.hart h).queue := by
  unfold State.issued State.countIssue
  rw [State.countCore_hart]
  by_cases ht : h < t.harts.length
  · rw [State.modHart, State.setHart_hart _ _ _ ht]
    split
    · rw [Hart.pass_queue]
    · have : ∀ (l : List (Nat × Nat)) (y : Hart), (l.foldl (fun y p => y.cleanBytes p.1 p.2) y).queue = y.queue := by
        intro l; induction l with
        | nil => intro; rfl
        | cons n r ih => intro y; simp only [List.foldl_cons, ih]; rfl
      rw [this, Hart.pass_queue]
  · simp [State.hart, State.modHart, State.setHart, ht]

theorem pushedNow_here {s : State} (h : s.AtRest) (i : Instr) (o : Fields) : s.cur < (s.pushedNow i o).harts.length := by
  rw [State.pushedNow, State.pushEntry, State.countCore_harts]
  simpa [State.modHart, State.begun] using h.here

theorem pushedNow_alone {s : State} {i : Instr} {o : Fields} {check : Fields → Hart → Option PushIll} (h : s.CanPush i o check)
    (k : Nat) (hk : k ≠ s.cur) (hc : ((s.pushedNow i o).hart k).coreNo = ((s.pushedNow i o).hart s.cur).coreNo) :
    ((s.pushedNow i o).hart k).queue = [] := by
  have he : (s.pushedNow i o).hart k = s.hart k := by
    rw [State.pushedNow, State.pushEntry, State.countCore_hart, State.modHart, State.setHart_hart_ne _ _ _ _ hk]
    exact State.setHart_hart_ne s s.cur k _ hk
  rw [he] at hc ⊢
  rw [State.pushedNow_hart h.toAtRest] at hc
  exact h.alone k hk hc

theorem pushedNow_calm {s : State} {i : Instr} {o : Fields} {check : Fields → Hart → Option PushIll} (h : s.CanPush i o check) :
    ((s.pushedNow i o).core ((s.pushedNow i o).hart s.cur).coreNo).vuRun = 0 := by
  have hn := State.pushedNow_hart h.toAtRest i o
  have hc : ((s.pushedNow i o).hart s.cur).coreNo = s.me.coreNo := by rw [hn]; rfl
  rw [hc, State.pushedNow, State.pushEntry, State.countCore_core]
  exact h.calm

/-- An instruction that pushes one entry, which its unit performs to the end, completes in the same step. -/
theorem retires_of {s u : State} {i : Instr} {o : Fields} {check : Fields → Hart → Option PushIll} {f : BitVec 8} {v : Option Word}
    (h : s.CanPush i o check) (hx : exec i s = issue i o (pushBody i o check (captures i o) id) s) (hi : ∀ o, i ≠ .endI o)
    (hd : performInstr none (s.entry i o) s.cur (s.pushedNow i o) = .done u f v)
    (hu : (u.hart s.cur).queue = [s.entry i o]) (hh : s.cur < u.harts.length) :
    CompletesAs i o s (u.modHart s.cur fun y => y.retired (s.entry i o) f v) := by
  have hn := State.pushedNow_hart h.toAtRest i o
  have hz : ((u.modHart s.cur fun y => y.retired (s.entry i o) f v).hart s.cur).queue = [] := by
    rw [State.modHart, State.setHart_hart _ _ _ hh]
    unfold Hart.retired
    cases v <;> simp [Hart.varResult]
  rw [CompletesAs, hx, issue_run h.toCanRun, push_body h]
  simp only [id]
  rw [drain_one (by rw [hn]) rfl (by rw [hn]; exact h.live) (pushed_occupancy h.toAtRest i o) rfl hi hd hu hh
    (pushedNow_here h.toAtRest i o) (pushedNow_alone h) (pushedNow_calm h)]
  apply finish_ok
  rw [issued_queue, hz]

/-- Counting beats and matches changes one core's counters and nothing else. -/
theorem State.countPipes_hart (t : State) (e : QEntry) (x y : Hart) (b : Bool) (k : Nat) :
    (t.countPipes e x y b).hart k = t.hart k := by
  unfold State.countPipes
  split <;> (try split) <;> simp only [State.countCore_hart]
theorem State.countPipes_harts (t : State) (e : QEntry) (x y : Hart) (b : Bool) : (t.countPipes e x y b).harts = t.harts := by
  unfold State.countPipes
  split <;> (try split) <;> simp only [State.countCore_harts]
theorem State.countPipes_cur (t : State) (e : QEntry) (x y : Hart) (b : Bool) : (t.countPipes e x y b).cur = t.cur := by
  unfold State.countPipes
  split <;> (try split) <;> simp only [State.countCore_cur]
theorem State.SameOutside.countPipes {s t : State} (h : s.SameOutside t) (e : QEntry) (x y : Hart) (b : Bool) :
    s.SameOutside (t.countPipes e x y b) := by
  unfold State.countPipes
  split <;> (try split) <;> first | exact h.countCore _ _ _ | exact (h.countCore _ _ _).countCore _ _ _ | exact h

/-- What the vector unit counts beside a performance. -/
def PRes.counted (r : PRes) (e : QEntry) (x : Hart) (h : Nat) : PRes :=
  match r with
  | .done t f v => .done (t.countPipes e x (t.hart h) true) f v
  | .part t f acc => .part (t.countPipes e x (t.hart h) false) f acc
  | .fault t f tr p pages => .fault (t.countPipes e x (t.hart h) false) f tr p pages
  | r => r

/-- From a register store without poison, an entry that retires with VL = 0 aside, the vector unit does what `performRaw`
says, and counts it. -/
theorem performInstr_clean {e : QEntry} {h : Nat} {t : State} (limit : Option Nat) (hc : (t.hart h).rsPoison = [])
    (hv : retiresEmpty e.instr = false ∨ e.vl ≠ 0) :
    performInstr limit e h t = (performRaw limit e h t).counted e (t.hart h) h := by
  have h0 : ¬ (e.vl = 0 ∧ retiresEmpty e.instr = true) := by
    rcases hv with hv | hv
    · simp [hv]
    · simp [hv]
  unfold performInstr
  rw [if_neg h0]
  simp only [Hart.poisonedLine, hc, List.isEmpty_nil, if_true]
  unfold PRes.counted
  split <;> simp_all

/-- What a performance on the hart's registers leaves alone: the queue, outstanding results and poison. -/
def HRes.Keeps (r : HRes) (x : Hart) : Prop := ∀ y f v, r = .done y f v → y.queue = x.queue ∧ y.pend = x.pend ∧ y.rsPoison = x.rsPoison

/-- A queued instruction that changes only its hart completes where its performance is done. -/
theorem performsIfDone_of {s : State} {i : Instr} {o : Fields} {check : Fields → Hart → Option PushIll}
    {perf : QEntry → Fields → Hart → HRes} (hx : exec i s = issue i o (pushBody i o check (captures i o) id) s)
    (hi : ∀ o, i ≠ .endI o) (hv : retiresEmpty i = false)
    (hr : performRaw none (s.entry i o) s.cur (s.pushedNow i o) = (perf (s.entry i o) o ((s.pushedNow i o).hart s.cur)).lift (s.pushedNow i o) s.cur)
    (hk : ∀ x, (perf (s.entry i o) o x).Keeps x) : PerformsIfDone i o s check perf := by
  intro h hd
  obtain ⟨y, f, v, hy⟩ := hd
  have hn := State.pushedNow_hart h.toAtRest i o
  have hk' := hk _ y f v hy
  have hl : s.cur < (s.pushedNow i o).harts.length := by
    rw [State.pushedNow, State.pushEntry, State.countCore_harts]; simpa [State.modHart, State.begun] using h.here
  have hyh : ((s.pushedNow i o).setHart s.cur y).hart s.cur = y := State.setHart_hart _ _ _ hl
  obtain ⟨u, hu⟩ : ∃ u, u = ((s.pushedNow i o).setHart s.cur y).countPipes (s.entry i o) ((s.pushedNow i o).hart s.cur) y true := ⟨_, rfl⟩
  have huh : u.hart s.cur = y := by rw [hu, State.countPipes_hart, hyh]
  have hul : s.cur < u.harts.length := by rw [hu, State.countPipes_harts, State.setHart_length]; exact hl
  have huc : u.cur = s.cur := by
    rw [hu, State.countPipes_cur, State.setHart_cur, State.pushedNow, State.pushEntry, State.countCore_cur]; rfl
  have huo : s.SameOutside u := by
    rw [hu]
    exact ((((State.SameOutside.start s).order _).setHart _).countCore _ _ _ |>.setHart _).countPipes _ _ _ _
  have hp : performInstr none (s.entry i o) s.cur (s.pushedNow i o) = .done u f v := by
    rw [performInstr_clean none (by rw [hn]; exact h.clean) (.inl hv), hr]
    rw [show perf (s.entry i o) o ((s.pushedNow i o).hart s.cur) = .done y f v by rw [hn]; exact hy]
    show PRes.counted (.done _ _ _) _ _ _ = _
    rw [PRes.counted, hyh, hu]
  have hc := retires_of h hx hi hp (by rw [huh]; exact hk'.1) hul
  have he : u.modHart s.cur (fun z => z.retired (s.entry i o) f v) = u.setHart s.cur (y.retired (s.entry i o) f v) := by
    rw [State.modHart, huh]
  rw [CompletesAs, he] at hc
  have hz : (u.setHart s.cur (y.retired (s.entry i o) f v)).hart s.cur = y.retired (s.entry i o) f v :=
    State.setHart_hart _ _ _ hul
  have hpd : (y.retired (s.entry i o) f v).pend = [] := by
    have : y.pend = [] := hk'.2.1.trans h.settled
    unfold Hart.retired; cases v <;> simp [Hart.varResult, this]
  have hrs : (y.retired (s.entry i o) f v).rsPoison = [] := by
    have : y.rsPoison = [] := hk'.2.2.trans h.clean
    unfold Hart.retired; cases v <;> simp [Hart.varResult, this]
  have hi' := State.issued_settled (i := i) (o := o) (u.setHart s.cur (y.retired (s.entry i o) f v)) s.cur
    (by rw [hz]; exact hpd) (by rw [hz]; exact hrs)
  have hq : s.queued i o perf s.me.advanced = y.retired (s.entry i o) f v := by
    unfold State.queued; dsimp only at hy ⊢; rw [hy]
  refine ⟨_, hc, ?_, ?_, ?_⟩
  · show (State.hart _ _).landAll = _
    rw [hi', State.countIssue, State.countCore_cur, State.setHart_cur, huc, State.countCore_hart, hz, hq, Hart.landAll_nil _ hpd]
  · intro _
    show (State.hart _ _).pend = _
    rw [hi', State.countIssue, State.countCore_cur, State.setHart_cur, huc, State.countCore_hart, hz, hpd]
  · rw [hi', State.countIssue]
    exact (huo.setHart _).countCore _ _ _

end Sys2Proof.Machine
end

