-- ==== Sys2Proof/Tests/Slice0.lean ====
section
/-! SUPPORT. Sys2Proof/Tests/Slice0.lean: tests on fixed values, and a witness for the hypotheses of each statement. -/

namespace Sys2Proof.Tests

open Sys2Proof Sys2Proof.Machine

set_option Elab.async false

/-! Ill-formed terms, one for each check of R62 that an instruction's fields can fail. -/

theorem wf_add : WellFormed (.add { d := 3, a := 1, b := 2, w := 3 }) := by decide
theorem illformed_guard : ¬ WellFormed (.add { gn := true, gp := 15, w := 3 }) := by decide
theorem illformed_d : ¬ WellFormed (.add { d := 200, w := 3 }) := by decide
theorem illformed_a : ¬ WellFormed (.vadd { a := 64, w := 3 }) := by decide
theorem illformed_b : ¬ WellFormed (.mov { b := 1 }) := by decide
theorem illformed_b_replaced : ¬ WellFormed (.add { b := 1, w := 3, i := true }) := by decide
theorem illformed_mask : ¬ WellFormed (.vadd { mskM := 2, w := 3 }) := by decide
theorem illformed_w : ¬ WellFormed (.add { w := 12 }) := by decide
theorem illformed_hint : ¬ WellFormed (.add { w := 3, hintL := true }) := by decide
theorem illformed_f : ¬ WellFormed (.add { w := 3, f := 1 }) := by decide
theorem illformed_i : ¬ WellFormed (.cas { w := 3, i := true }) := by decide
theorem illformed_imm : ¬ WellFormed (.add { w := 3, imm := 1 }) := by decide
theorem illformed_combo : ¬ WellFormed (.bfx { w := 3, imm := 63 + 64 * 1 }) := by decide
theorem illformed_form : ¬ WellFormed (.call { f := 1 }) := by decide
theorem illformed_event : ¬ WellFormed .cycleTick := by decide

/-! Words of each group of the opcode map, as the chapters work them out or written from R51's table. -/

theorem decode_cmp : decode 0x069E0204000E000900000000 = .ok (.cmp { d := 1, a := 2, w := 7, f := 4, i := true }) := by
  decide +kernel

/-- FADD.F32 s3, s1, s2 at distance 4: GRP 1, OP 0, GP 15, D 3, A 1, B 2, W 12, STALL 3. -/
theorem decode_fadd :
    decode (0b0001#4 ++ 0b000000#6 ++ 0b0#1 ++ 0b1111#4 ++ 0b00000011#8 ++ 0b00000001#8 ++ 0b00000010#8 ++ 0b0#1 ++ 0b000#3 ++
      0b1100#4 ++ 0b0011#4 ++ 0b0#1 ++ 0b0#1 ++ 0b00#2 ++ 0b00000000#8 ++ 0b0#1 ++ 0x00000000#32) =
      .ok (.fadd { d := 3, a := 1, b := 2, w := 12, stall := 3 }) := by decide +kernel

theorem decode_setvl : decode 0x215E0C040018000600000000 = .ok (.setvl { d := 6, a := 2, w := 12, f := 3 }) := by decide +kernel
theorem decode_tfence : decode 0x235E00000000000000000000 = .ok (.tfence {}) := by decide +kernel

/-- VADD.S32 v4, v5, v6 under mask m1: GRP 3, OP 0, D 4, A 5, B 6, MSK.E 1, MSK.M 1, W 2. -/
theorem decode_vadd :
    decode (0b0011#4 ++ 0b000000#6 ++ 0b0#1 ++ 0b1111#4 ++ 0b00000100#8 ++ 0b00000101#8 ++ 0b00000110#8 ++ 0b1#1 ++ 0b001#3 ++
      0b0010#4 ++ 0b0000#4 ++ 0b0#1 ++ 0b0#1 ++ 0b00#2 ++ 0b00000000#8 ++ 0b0#1 ++ 0x00000000#32) =
      .ok (.vadd { d := 4, a := 5, b := 6, mskE := true, mskM := 1, w := 2 }) := by decide +kernel

theorem decode_vfadd : decode 0x401E08101958200000000000 =
    .ok (.vfadd { d := 4, a := 8, b := 12, mskE := true, mskM := 2, w := 12, stall := 1 }) := by decide +kernel

theorem decode_add : decode 0x001E0A0600060001FFFFFFF0 = .ok (.add { d := 5, a := 3, w := 3, i := true, imm := 0xFFFFFFF0 }) := by
  decide +kernel

/-- A word that fails check 8: GRP 4, OP 0 and W = 3. -/
theorem decode_vfadd_w3 : decode 0x401E00000006000000000000 = .error ⟨7, some 3⟩ := by decide +kernel

theorem decode_vsortk : decode 0x549E08100018000600000000 = .ok (.vsortk { d := 4, a := 8, w := 12, f := 3 }) := by decide +kernel
theorem decode_fisect : decode 0x609E08000418000000000000 = .ok (.fisect { d := 4, a := 0, b := 2, w := 12 }) := by decide +kernel
theorem decode_mma : decode 0x701E0010201000200000090C = .ok (.mma { d := 0, a := 8, b := 16, w := 8, f := 16, imm := 0x90C }) := by
  decide +kernel

/-- VQSYNC: GRP 10, OP 0. -/
theorem decode_vqsync : decode (0b1010#4 ++ 0b000000#6 ++ 0b0#1 ++ 0b1111#4 ++ 0#81) = .ok (.vqsync {}) := by decide +kernel

/-- LD.S64 s5, [s6 + 8]: GRP 8, OP 0, D 5, A 6, W 3, IMM 8; F names the memory. -/
theorem decode_ld :
    decode (0b1000#4 ++ 0b000000#6 ++ 0b0#1 ++ 0b1111#4 ++ 0b00000101#8 ++ 0b00000110#8 ++ 0b00000000#8 ++ 0b0#1 ++ 0b000#3 ++
      0b0011#4 ++ 0b0000#4 ++ 0b0#1 ++ 0b0#1 ++ 0b00#2 ++ 0b00000000#8 ++ 0b0#1 ++ 0x00000008#32) =
      .ok (.ld { d := 5, a := 6, w := 3, imm := 8 }) := by decide +kernel

theorem decode_amo : decode 0x901E08060A0E000800000021 = .ok (.amo { d := 4, a := 3, b := 5, w := 7, f := 4, imm := 0x21 }) := by
  decide +kernel
theorem decode_taskpub : decode 0xA2DE00060000000000000000 = .ok (.taskpub { a := 3 }) := by decide +kernel
theorem decode_taskcan : decode 0xA31E12060000000000000000 = .ok (.taskcan { d := 9, a := 3 }) := by decide +kernel

/-- VIEWDEL [s7]: GRP 11, OP 2, A 7. -/
theorem decode_viewdel :
    decode (0b1011#4 ++ 0b000010#6 ++ 0b0#1 ++ 0b1111#4 ++ 0b00000000#8 ++ 0b00000111#8 ++ 0#65) = .ok (.viewdel { a := 7 }) := by
  decide +kernel
theorem decode_rdcyc : decode 0xC01E12000000000000000000 = .ok (.rdcyc { d := 9 }) := by decide +kernel
theorem decode_group13 : decode 0xD01E00000000000000000000 = .error ⟨0, some 13⟩ := by decide +kernel
theorem decode_unassigned : decode 0x06DE00000000000000000000 = .error ⟨1, some 0x1B⟩ := by decide +kernel
theorem decode_viewreg_field : decode 0xB05E02080000000000000000 = .error ⟨9, some 1⟩ := by decide +kernel
theorem encode_cmp : encode (.cmp { d := 1, a := 2, w := 7, f := 4, i := true }) = some 0x069E0204000E000900000000 := by
  decide +kernel
/-! One step on a small state. -/

/-- Reset with scalar registers. -/
def scal (l : List (Nat × Word)) : State :=
  { State.reset with harts := [l.foldl (fun x p => x.setReg p.1 p.2) Hart.stobry] }

/-- Reset with VL and VTYPE, the vector registers of `l` holding elements of n bits from element 0 on. -/
def vect (n vl sew lmul : Nat) (l : List (Nat × List Nat)) : State :=
  let t : Vtype := ⟨BitVec.ofNat 2 sew, BitVec.ofNat 2 lmul⟩
  let x : Hart := { Hart.stobry with vl := vl, vtype := t, vlPush := vl, vtPush := t }
  { State.reset with harts := [l.foldl (fun x p => x.setElems p.1 n p.2.length fun i => p.2[i]?) x] }

/-- The current hart after an instruction, once its results have landed. -/
def after (i : Instr) (s : State) : Hart :=
  match exec i s with
  | .next t => t.me.landAll
  | _ => {}

/-- The first k elements of v(r). -/
def elems (x : Hart) (r n k : Nat) : List Nat := (List.range k).map fun i => x.velem r n i

/-- R113, the table of worked results. -/
theorem test_div : (after (.div { d := 3, a := 1, b := 2, w := 2 }) (scal [(1, 0xFFFFFFF9), (2, 2)])).reg 3 = 0xFFFFFFFFFFFFFFFD := by
  decide +kernel
theorem test_rem : (after (.rem { d := 3, a := 1, b := 2, w := 2 }) (scal [(1, 0xFFFFFFF9), (2, 2)])).reg 3 = 0xFFFFFFFFFFFFFFFF := by
  decide +kernel
theorem test_div_unsigned : (after (.div { d := 3, a := 1, b := 2, w := 6 }) (scal [(1, 0xFFFFFFF9), (2, 2)])).reg 3 = 0x7FFFFFFC := by
  decide +kernel
theorem test_div_least : (after (.div { d := 3, a := 1, b := 2, w := 2 }) (scal [(1, 0x80000000), (2, 0xFFFFFFFF)])).reg 3 =
    0xFFFFFFFF80000000 := by decide +kernel
theorem test_div_zero : (after (.div { d := 3, a := 1, b := 2, w := 4 }) (scal [(1, 0x2A)])).reg 3 = 0xFF := by decide +kernel
theorem test_sra : (after (.sra { d := 3, a := 1, b := 2, w := 4 }) (scal [(1, 0x90), (2, 3)])).reg 3 = 0xF2 := by decide +kernel
theorem test_add_wraps : (after (.add { d := 3, a := 1, w := 2, i := true, imm := 1 }) (scal [(1, 0x7FFFFFFF)])).reg 3 =
    0xFFFFFFFF80000000 := by decide +kernel

/-- R115, the worked constant. -/
theorem test_mov : (after (.mov { d := 9, i := true, imm := 0x89ABCDEF }) (scal [])).reg 9 = 0xFFFFFFFF89ABCDEF := by decide +kernel
theorem test_lih : (after (.lih { d := 9, a := 9, imm := 0x01234567 }) (scal [(9, 0xFFFFFFFF89ABCDEF)])).reg 9 =
    0x0123456789ABCDEF := by decide +kernel
theorem test_cmp : (after (.cmp { d := 1, a := 2, w := 7, f := 4, i := true }) (scal [(2, 1)])).pred 1 = true := by decide +kernel

/-- R38, the table of worked conversions. -/
theorem test_fcvt_nan : (after (.fcvt { d := 3, a := 1, w := 8, f := 0xC0 }) (scal [(1, 0x43FA0000)])).reg 3 = 0x7F := by decide +kernel
theorem test_fcvt_sat :
    let x := after (.fcvt { d := 3, a := 1, w := 8, f := 0xC8 }) (scal [(1, 0x43FA0000)])
    x.reg 3 = 0x7E ∧ x.fcsr.flags = 0x34#8 := by decide +kernel
theorem test_fcvt_int : (after (.fcvt { d := 3, a := 1, w := 0, f := 0xC0 }) (scal [(1, 0x43960000)])).reg 3 = 0x7F := by decide +kernel

/-- R122 and R126: a call writes the return address, a loop counts down, ERET goes to TPC. -/
theorem test_call : let x := after (.call { imm := 5 }) (scal []); x.pc = 20 ∧ x.reg 62 = 12 := by decide +kernel
theorem test_loop_falls : let x := after (.loop { d := 4, imm := 0xFFFFFFFF }) (scal [(4, 1)]); x.pc = 12 ∧ x.reg 4 = 0 := by
  decide +kernel
theorem test_trap : let x := after (.trap { imm := 7 }) (scal []); x.tcause = causeSOFTWARE ∧ x.tinfo = 7 ∧ x.tpc = 12 := by
  decide +kernel

/-- R128, the worked write of FCSR. -/
theorem test_mts_fcsr : (after (.mfs { d := 5, imm := 4 })
    { State.reset with harts := [after (.mts { a := 1, imm := 4 }) (scal [(1, 0x10307)])] }).reg 5 = 0x10300 := by decide +kernel

/-- R130: VL is the least of the request and VLMAX, 1,024 for 32-bit elements in groups of 8. -/
theorem test_setvl : let x := after (.setvl { d := 6, a := 2, w := 12, f := 3 }) (scal [(2, 5000)]); x.reg 6 = 1024 ∧ x.vl = 1024 := by
  decide +kernel

theorem test_vadd_wraps : elems (after (.vadd { d := 4, a := 2, b := 3, w := 0 }) (vect 8 2 0 0 [(2, [0x7F, 1]), (3, [1, 2]), (4, [9, 9, 9])]))
    4 8 3 = [0x80, 3, 9] := by decide +kernel
theorem test_vfadd : elems (after (.vfadd { d := 4, a := 2, b := 3, w := 12 }) (vect 32 1 2 0 [(2, [0x3F800000]), (3, [0x3F800000])])) 4 32 1 =
    [0x40000000] := by decide +kernel

/-- R169, the worked sort. -/
theorem test_vsortk : elems (after (.vsortk { d := 4, a := 8, w := 12, f := 1 }) (vect 32 8 2 0
    [(8, [0x3F000000, 0x40000000, 0x7FC00000, 0x40000000, 0x80000000, 0x3F800000, 0, 0xC0400000]), (9, [0, 1, 2, 3, 4, 5, 6, 7])])) 5 32 8 =
    [1, 0, 3, 2, 5, 4, 6, 7] := by decide +kernel

/-- The fibre of some pairs. -/
def fibreOf (l : List (Nat × Nat)) : Fibre :=
  ⟨l.length, BitVec.ofNat 16384 ((l.zipIdx.map fun p => (p.1.1 + p.1.2 * 2 ^ 32) * 2 ^ (64 * p.2)).sum)⟩

/-- R183, the worked walk. -/
theorem test_fdot : (after (.fdot { d := 9, a := 0, b := 1, w := 12 }) { State.reset with harts := [{ Hart.stobry with
    fib := (Hart.stobry.fib.setIfInBounds 0 (fibreOf [(1, 0x40000000), (4, 0x3FC00000), (9, 0xBF800000)])).setIfInBounds 1
      (fibreOf [(4, 0x3F000000), (6, 0x40400000), (9, 0x3F800000)]) }] }).reg 9 = 0xBE800000 := by decide +kernel

/-- R240, R215: a store to lane memory and the load that follows it. -/
theorem test_lane_memory : (after (.ld { d := 3, a := 1, w := 0, f := 0x40 }) (match exec (.st { d := 2, a := 1, w := 1, f := 0x40 })
    (scal [(1, 0x100), (2, 0x8081)]) with
    | .next t => t
    | _ => State.reset)).reg 3 = 0xFFFFFFFFFFFFFF81 := by decide +kernel

/-- R62: the bytes of an unassigned opcode at the PC raise ILLEGAL at that PC. -/
theorem test_step_illegal : (match step (State.reset.withFetchWord 96 0x06DE00000000000000000000) with
    | .next t => (t.hart 0).tcause == causeILLEGAL && (t.hart 0).tinfo == 0x1B01 && (t.hart 0).tpc == 0
    | _ => false) = true := by decide +kernel
theorem test_step_add : (match step (State.reset.withFetchWord 96 0x001E0A0600060001FFFFFFF0) with
    | .next t => (t.hart 0).reg 5 == BitVec.ofInt 64 (-16) && (t.hart 0).pc == 12
    | _ => false) = true := by decide +kernel

/-! Witnesses: states and operands that meet the hypotheses of each statement. `runOk` and `pushOk` decide `CanRun` and
`CanPush`. -/

def restOk (s : State) : Bool :=
  decide (s.cur < s.harts.length) && s.me.queue.isEmpty && s.me.vqtail == s.me.vcp && s.me.pend.isEmpty && s.me.rsPoison.isEmpty &&
    s.me.heldTrap.isNone && !s.me.replaying

def runOk (s : State) (i : Instr) (o : Fields) : Bool :=
  restOk s && s.me.pred o.gp.toNat != o.gn && (!needsSupervisor i o || s.me.sup)

def pushOk (s : State) (i : Instr) (o : Fields) (check : Fields → Hart → Option PushIll) : Bool :=
  runOk s i o && (check o s.me.advanced).isNone && s.lead == 0 && (s.harts.zipIdx.all fun p =>
    decide (p.2 = s.cur) || p.1.coreNo != s.me.coreNo || p.1.queue.isEmpty) && (s.core s.me.coreNo).vuRun == 0

theorem atRest_of {s : State} (h : restOk s = true) : s.AtRest := by
  simp only [restOk, Bool.and_eq_true, decide_eq_true_eq, List.isEmpty_iff, beq_iff_eq, Option.isNone_iff_eq_none,
    Bool.not_eq_true'] at h
  obtain ⟨⟨⟨⟨⟨⟨a, b⟩, c⟩, d⟩, e⟩, f⟩, g⟩ := h
  exact ⟨a, b, c, d, e, f, g⟩

theorem canRun_of {s : State} {i : Instr} {o : Fields} (h : runOk s i o = true) : s.CanRun i o := by
  simp only [runOk, Bool.and_eq_true, bne_iff_ne, ne_eq, Bool.or_eq_true, Bool.not_eq_true'] at h
  obtain ⟨⟨a, b⟩, c⟩ := h
  exact { atRest_of a with
    runs := b
    allowed := fun hn => by rcases c with c | c
                            · rw [hn] at c; cases c
                            · exact c }

theorem canPush_of {s : State} {i : Instr} {o : Fields} {check : Fields → Hart → Option PushIll}
    (h : pushOk s i o check = true) : s.CanPush i o check := by
  simp only [pushOk, Bool.and_eq_true, Option.isNone_iff_eq_none, beq_iff_eq] at h
  obtain ⟨⟨⟨⟨a, b⟩, c⟩, d⟩, e⟩ := h
  exact { canRun_of a with
    checked := b
    prompt := c
    calm := e
    alone := fun k hk hc => by
      by_cases hl : k < s.harts.length
      · have := List.all_eq_true.mp d (s.harts[k], k) (List.mem_zipIdx_iff_getElem?.mpr (List.getElem?_eq_getElem hl))
        have hh : s.hart k = s.harts[k] := by simp [State.hart, hl]
        rw [hh] at hc ⊢
        simpa [hk, hc] using this
      · simp [State.hart, List.getElem?_eq_none (Nat.le_of_not_lt hl)] }

/-- Every instruction can run at reset, with whatever operands, under the guard p15: the witness of the statements that ask
for `CanRun` alone (IntegerArithmetic, IntegerPatterns, FieldsAndMoves, PredicateResults, ScalarFloat, RelativeTransfers,
SpecialRegisters, and clauses of others). -/
theorem witness_canRun (i : Instr) (o : Fields) (hp : o.gp = 15) (hn : o.gn = false) : State.reset.CanRun i o := by
  refine { atRest_of (s := State.reset) (by decide +kernel) with runs := ?_, allowed := fun _ => rfl }
  rw [hp, hn]
  decide +kernel

theorem witness_UnassignedRefused : 13 ≤ grpOf 0xD01E00000000000000000000 ∧ grpOf 0x06DE00000000000000000000 ≤ 12 ∧
    mkInstr (grpOf 0x06DE00000000000000000000) (opOf 0x06DE00000000000000000000) (fieldsOf 0x06DE00000000000000000000) = none := by
  decide +kernel

/-- The word that a hart fetches. -/
def fetched (s : State) (h : Nat) : Option (BitVec 96) :=
  match s.fetch h with
  | .ok _ x => some x
  | _ => none

theorem witness_IllegalWordTraps :
    fetched (State.reset.withFetchWord 96 0x06DE00000000000000000000) 0 = some 0x06DE00000000000000000000 ∧
    State.reset.me.joinsOut = false ∧ State.reset.me.headFaulted = false ∧
    decode 0x06DE00000000000000000000 = .error ⟨1, some 0x1B⟩ := by decide +kernel

/-- The hypotheses of StepRunsDecoded, as one test. -/
def stepMeets (s : State) (h : Nat) (i : Instr) : Bool :=
  match s.sched with
  | .issue k :: r => decide (k = h) && (s.hart h).bound && !(s.hart h).stopped && !(s.hart h).idle &&
    let s0 := (({ s with sched := r } : State).beginTurn h).bringLines h
    match drainQ h s0.lead drainFuel s0 with
    | .ok s1 =>
      let z := s1.settle h
      decide ((z.hart h).entries = (s.hart h).entries) && !(z.hart h).stopped && !(z.hart h).idle && (z.boundary h).isNone &&
        decide (((fetched z h).map decode).map Except.toOption = some (some i))
    | .stop _ => false
  | _ => false

theorem witness_StepRunsDecoded : stepMeets (State.reset.withFetchWord 96 0x001E0A0600060001FFFFFFF0) 0
    (.add { d := 5, a := 3, w := 3, i := true, imm := 0xFFFFFFF0 }) = true := by decide +kernel

/-- A hart at user privilege. -/
def userState : State := { State.reset with harts := [{ Hart.stobry with sup := false }] }

theorem witness_GuardedOff : (Instr.add { gp := 0, w := 3 }).parts = some (0, 0, { gp := 0, w := 3 }) ∧
    restOk State.reset = true ∧ State.reset.me.pred 0 = false := by decide +kernel
theorem witness_PrivilegeTraps : (Instr.eret {}).parts = some (2, 7, {}) ∧ restOk userState = true ∧
    needsSupervisor (.eret {}) {} = true ∧ userState.me.sup = false ∧
    needsSupervisor (.mts { imm := 0x26 }) { imm := 0x26 } = true := by decide +kernel
/-- R68, R124: a write that is outstanding at the trap lands in its entry. -/
theorem witness_TrapEntryEffect :
    let s : State := { State.reset with harts := [{ Hart.stobry with pend := [⟨false, 3, 7, 0, 2, false, false⟩] }] }
    0 < s.harts.length ∧ (s.hart 0).pend.length = 1 ∧ ((s.takeTrap 0 ⟨causeSOFTWARE, 0, 0, 0⟩ 0).hart 0).reg 3 = 7 := by decide +kernel
theorem witness_TrapAndReturn : runOk State.reset (.trap {}) {} = true ∧ State.reset.me.tstatus.vfrz = false ∧
    runOk { State.reset with harts := [{ Hart.stobry with tstatus := { vfrz := true } }] } (.eret {}) {} = true := by decide +kernel

/-- Both outcomes of a register transfer: targets 8 and 2. -/
theorem witness_RegisterTransfers :
    runOk (scal [(1, 8)]) (.jmp { a := 1 }) { a := 1 } = true ∧ ((scal [(1, 8)]).me.reg 1).toNat % 4 = 0 ∧
    runOk (scal [(1, 2)]) (.jmp { a := 1 }) { a := 1 } = true ∧ ((scal [(1, 2)]).me.reg 1).toNat % 4 ≠ 0 := by decide +kernel

theorem witness_QueueControl :
    runOk State.reset (.tfence {}) {} = true ∧ State.reset.me.fcsr.flags &&& State.reset.me.fcsr.en = 0 ∧
    runOk { State.reset with harts := [{ Hart.stobry with fcsr := { flags := 1, en := 1 } }] } (.tfence {}) {} = true ∧
    runOk (scal [(1, 0x400000)]) (.vqreplay { a := 1 }) { a := 1 } = true ∧
    ((scal [(1, 0x400000)]).me.reg 1).toNat / 2 ^ 16 % 2 ^ 7 = 64 ∧ ((scal [(1, 0x410000)]).me.reg 1).toNat / 2 ^ 16 % 2 ^ 7 = 65 := by
  decide +kernel

/-- VL 4 under SEW 8, 16, 32 or 64 (codes 0 to 3) and LMUL 1. -/
def v (sew : Nat) : State := vect 8 4 sew 0 []

theorem witness_PushCaptures : runOk { v 2 with lead := 64 } (.vadd { d := 4, a := 2, b := 3, w := 2 }) { d := 4, a := 2, b := 3, w := 2 } = true ∧
    (check2 { d := 4, a := 2, b := 3, w := 2 } (v 2).me.advanced).isNone = true ∧
    (captures (.vadd { d := 4, a := 2, b := 3, w := 2 }) { d := 4, a := 2, b := 3, w := 2 } (v 2).me.advanced).length ≤ 4 := by
  decide +kernel
theorem witness_SetvlEffect : pushOk State.reset (.setvl { d := 6, a := 2, w := 12, f := 3 }) { d := 6, a := 2, w := 12, f := 3 }
    (fun _ _ => none) = true := by decide +kernel
theorem witness_FinalEnd : pushOk State.reset (.endI {}) {} (fun _ _ => none) = true ∧ State.reset.me.task = none ∧
    State.reset.me.ending = false := by decide +kernel
theorem witness_VectorElements : 64 ∈ [8, 16, 32, 64] ∧ 56 + (64 * 512 + 4095) / 4096 ≤ 64 := by decide

theorem witness_VectorInteger :
    let o : Fields := { d := 4, a := 2, b := 3, w := 2 }
    let wide : Fields := { d := 4, a := 2, b := 3, w := 2 }
    ([.vadd o, .vsub o, .vmul o, .vmulh o, .vmadd o, .vdiv o, .vrem o, .vmin o, .vmax o, .vabsd o, .vand o, .vor o, .vxor o, .vshl o,
      .vshr o, .vsra o] : List Instr).all (fun i => pushOk (v 2) i o check2) = true ∧
    pushOk (v 2) (.vwadd wide) wide checkVwide = true ∧ pushOk (v 2) (.vwmul wide) wide checkVwide = true ∧
    pushOk (v 2) (.vid { d := 4, w := 6 }) { d := 4, w := 6 } checkVid = true ∧
    pushOk (v 2) (.viota { d := 4, a := 1, w := 6 }) { d := 4, a := 1, w := 6 } checkViota = true := by decide +kernel
theorem witness_VectorNarrowing :
    let o : Fields := { d := 4, a := 2, b := 3, w := 2 }
    ([.vsadd o, .vssub o, .vsel o] : List Instr).all (fun i => pushOk (v 2) i o check2) = true ∧
    pushOk (v 2) (.vnshr { d := 5, a := 2, b := 4, w := 2 }) { d := 5, a := 2, b := 4, w := 2 } checkVnshr = true ∧
    pushOk (v 2) (.vcmp { d := 1, a := 2, b := 3, w := 2 }) { d := 1, a := 2, b := 3, w := 2 } checkCmp = true ∧
    pushOk (v 0) (.vfqnt { d := 8, a := 4, b := 9, w := 8 }) { d := 8, a := 4, b := 9, w := 8 } checkVfqnt = true ∧
    pushOk (v 0) (.vfdqnt { d := 4, a := 8, b := 9, w := 8 }) { d := 4, a := 8, b := 9, w := 8 } checkVfdqnt = true ∧
    pushOk (v 0) (.vfdqnt { d := 4, a := 8, b := 9, w := 14 }) { d := 4, a := 8, b := 9, w := 14 } checkVfdqnt = true ∧
    vfdqntStop ((v 0).entry (.vfdqnt { d := 4, a := 8, b := 9, w := 14 }) { d := 4, a := 8, b := 9, w := 14 })
      { d := 4, a := 8, b := 9, w := 14 } (v 0).me = none ∧ (v 2).me.vstart.toNat < 4 ∧
    4 ≤ ({ (v 2).me with vstart := 4 } : Hart).vstart.toNat ∧ 1 + (4 + 511) / 512 ≤ 8 := by decide +kernel
theorem witness_VectorFloat :
    let o : Fields := { d := 4, a := 2, b := 3, w := 12 }
    ([.vfadd o, .vfsub o, .vfmul o, .vfma o, .vfnma o, .vfdiv o, .vfmin o, .vfmax o, .vfamax o, .vfscale o, .vfsgn o] : List Instr).all
      (fun i => pushOk (v 2) i o check2) = true ∧
    ([.vfsqrt o, .vfexp o, .vfclass o] : List Instr).all (fun i => pushOk (v 2) i o check1) = true ∧
    pushOk (v 2) (.vfcvt { d := 4, a := 2, w := 12, f := 0xC0 }) { d := 4, a := 2, w := 12, f := 0xC0 } checkVfcvt = true ∧
    pushOk (v 2) (.vfcmp { d := 1, a := 2, b := 3, w := 12 }) { d := 1, a := 2, b := 3, w := 12 } checkCmp = true := by decide +kernel
theorem witness_VectorPermute :
    let o : Fields := { d := 4, a := 2, b := 6, w := 2 }
    let p : Fields := { d := 1, a := 2, b := 3 }
    ([.vslideup o, .vslidedn o, .vslideinUp o, .vslideinDn o, .vxch o, .vcompress o, .vexpand o, .vbcast o, .vsegred o, .vsegnorm o,
      .vsegscan o] : List Instr).all (fun i => pushOk (v 2) i o check1) = true ∧
    pushOk (v 2) (.vperm o) o checkVperm = true ∧ pushOk (v 2) (.vmvsx o) o checkVmvsx = true ∧
    pushOk (v 2) (.vmvxs o) o checkVmvxs = true ∧ pushOk (v 2) (.vredX o) o checkVredX = true ∧
    ([.vred o, .vfredo o, .vfredt o, .vfredmx o] : List Instr).all (fun i => pushOk (v 2) i o checkRed) = true ∧
    pushOk (v 2) (.mlog p) p checkMlog = true ∧ pushOk (v 2) (.mpopc p) p checkMpopc = true ∧
    pushOk (v 2) (.mfirst p) p checkMpopc = true ∧ pushOk (v 2) (.mset p) p checkMset = true ∧
    pushOk (v 2) (.vsortk { d := 4, a := 8, w := 12, f := 3 }) { d := 4, a := 8, w := 12, f := 3 } checkVsortk = true ∧
    pushOk (v 2) (.vmergek { d := 4, a := 8, w := 12, f := 7 }) { d := 4, a := 8, w := 12, f := 7 } checkVmergek = true ∧
    pushOk (v 2) (.vsetseg o) o checkVsetseg = true ∧ pushOk (v 2) (.vgetseg o) o checkVgetseg = true := by decide +kernel

/-- Fibres f0 and f1 of the worked walk, and coordinates 1, 4, 9, 12 in v2. -/
def fibres : State :=
  let s := vect 32 4 2 0 [(2, [1, 4, 9, 12])]
  let f0 := fibreOf [(1, 0x40000000), (4, 0x3FC00000), (9, 0xBF800000)]
  let f1 := fibreOf [(4, 0x3F000000), (6, 0x40400000), (9, 0x3F800000)]
  { s with harts := s.harts.map fun (x : Hart) => { x with fib := (x.fib.setIfInBounds 0 f0).setIfInBounds 1 f1 } }

/-- The performance of an entry on the hart is done. -/
def hartDone (s : State) (i : Instr) (o : Fields) (perf : QEntry → Fields → Hart → HRes) : Bool :=
  let e := s.entry i o
  match perf e o { s.me.advanced with queue := [e], vqtail := s.me.advanced.vqtail + BitVec.ofNat 16 e.size } with
  | .done _ _ _ => true
  | _ => false

theorem witness_FibreInstructions :
    let o : Fields := { d := 4, a := 0, b := 1, w := 12 }
    let pr : Fields := { d := 4, a := 2, w := 12 }
    ([.fmulFibre o, .fscale o, .focc o, .fshift o, .fred o, .fclear o, .fdot o] : List Instr).all
      (fun i => pushOk fibres i o checkNone) = true ∧
    pushOk fibres (.fsplit pr) pr checkFsplit = true ∧ pushOk fibres (.fexpand o) o checkFexpand = true ∧
    pushOk fibres (.fgather { d := 4, a := 0, b := 1, w := 2 }) { d := 4, a := 0, b := 1, w := 2 } checkFgather = true ∧
    pushOk fibres (.fclearPair o) o checkNone = true ∧
    pushOk fibres (.fbuild pr) pr checkFbuild = true ∧ hartDone fibres (.fbuild pr) pr perfFbuild = true ∧
    pushOk fibres (.fisect o) o checkNone = true ∧ hartDone fibres (.fisect o) o (perfFisect none) = true ∧
    pushOk fibres (.funion o) o checkNone = true ∧ hartDone fibres (.funion o) o (perfFunion none) = true ∧
    pushOk fibres (.fmerge o) o checkNone = true ∧ hartDone fibres (.fmerge o) o (perfFmerge none) = true ∧
    pushOk fibres (.fcompact o) o checkNone = true ∧ hartDone fibres (.fcompact o) o (perfFcompact none) = true ∧
    pushOk fibres (.fsort pr) pr checkFbuild = true ∧ hartDone fibres (.fsort pr) pr (perfFsort none) = true := by decide +kernel
theorem witness_FibreInstructions_order :
    let e := fibres.entry (.fbuild { d := 4, a := 2, w := 12 }) { d := 4, a := 2, w := 12 }
    fibres.me.vstart = 0 ∧ e.vl ≤ 256 ∧ ∀ i < 4, ∀ j < 4, i < j → fibres.me.velem e.va 32 i < fibres.me.velem e.va 32 j := by
  decide +kernel

/-! States with memory. Pages 3 and 4 of ASN 0 map to the frames of the same address, of the same colour (R221); page 3
has FMT 1 and FREC 0 (R227). -/

/-- The leaf of page n, with A and D set. -/
def pageLeaf (n fmt : Nat) : TlbEntry := ⟨0, false, 4096 * n, 12, BitVec.ofNat 64 (4096 * n + 0x807 + 256 * fmt + 2 ^ 63), 0⟩

/-- The pages are in the translators of their hubs. -/
def mapped (s : State) (l : List (Nat × Nat)) : State :=
  l.foldl (fun s p => s.setHub (hubOf (4096 * p.1)) { s.hub (hubOf (4096 * p.1)) with
    tlb := (s.hub (hubOf (4096 * p.1))).tlb ++ [pageLeaf p.1 p.2], asnSnaps := [(0, 1)] }) s

/-- Words of 8 bytes in memory. -/
def holds (s : State) (l : List (Nat × Nat)) : State := l.foldl (fun s p => s.pokeNat p.1 8 p.2) s

/-- A format record of E4M3-A128 with DBASE 0x3000, SBASE 0x4000 and SSTRIDE 4; a one-level volume of 16 words at
0x4100; a segment of one entry; stream descriptors; and a task control block at 0x4700 for die 0. -/
def world (s : State) : State :=
  holds (mapped s [(3, 1), (4, 0)]) [
    (0x4000, 0x0001000400000048), (0x4008, 16), (0x4020, 0x4080), (0x4080, 0x4100), (0x4100, 0x0000000500000007),
    (0x4200, 0x0000000100000000), (0x4300, 5), (0x4400, 0x3F800000),
    (0x4500, 0x61), (0x4508, 0x4000), (0x4520, 4), (0x4728, 1),
    (0, 1 + 4 * 2 ^ 32), (8, 0x3000), (16, 0x4000), (24, 0x2F * 2 ^ 56)]

/-- Scalar registers set in a state. -/
def withRegs (s : State) (l : List (Nat × Word)) : State :=
  { s with harts := s.harts.map fun x => l.foldl (fun x p => x.setReg p.1 p.2) x }

/-- The performance of an entry at the head of the queue is done. -/
def entryDone (s : State) (i : Instr) (o : Fields) : Bool :=
  match performInstr none (s.entry i o) s.cur (s.pushedNow i o) with
  | .done _ _ _ => true
  | _ => false

def matO : Fields := { d := 4, a := 8, b := 16, w := 8 }
def matM : Fields := { d := 4, a := 8, b := 16, w := 14, imm := 0x0D0C }

theorem witness_MatrixInstructions :
    pushOk (v 2) (.mma matO) matO checkMma = true ∧ pushOk (v 2) (.mmas matO) matO checkMmas = true ∧
    pushOk (v 2) (.mma matM) matM checkMma = true ∧
    ((v 2).core 0).charge 0 ((v 2).me.vreg 8) (matTile (v 2).me 16) (some 16) ≤ ((v 2).core 0).level ∧
    tget (v 2).rate 0 512 ≠ 0 ∧ (v 2).me.core < 32 := by decide +kernel
theorem findBelow_none {p : Nat → Bool} (n : Nat) (h : ∀ k, p k = false) : findBelow n p = none :=
  List.find?_eq_none.mpr fun k _ => by rw [h k]; exact Bool.false_ne_true
theorem elem_zero (n i : Nat) : elem n 0 i = 0 := by unfold elem; rw [Nat.zero_div, Nat.zero_mod]
theorem vreg_toNat {x : Hart} (h : ∀ r, x.vreg r = 0) (r : Nat) : (x.vreg r).toNat = 0 := by
  rw [h]; simp only [BitVec.ofNat_eq_ofNat, BitVec.toNat_zero]
theorem velem_zero {x : Hart} (h : ∀ r, x.vreg r = 0) (r n i : Nat) : x.velem r n i = 0 := by
  unfold Hart.velem; rw [vreg_toNat h]; exact elem_zero _ _
theorem mxReserved_zero {x : Hart} (h : ∀ r, x.vreg r = 0) (o : Fields) (a b : Nat) :
    mxReserved x o ⟨matA x 14 a, matB x 14 b⟩ = none := by
  have ha : ∀ k, (matA x 14 a (k / 64) (k % 64) % 256 == 0x80) = false := fun k => by
    unfold matA; rw [vreg_toNat h, elem_zero]; rfl
  have hb : ∀ k, (matB x 14 b (k / 64) (k % 64) % 256 == 0x80) = false := fun k => by
    unfold matB; rw [velem_zero h]; rfl
  have hs : ∀ r k, (x.velem r 8 k == 0xFF) = false := fun r k => by rw [velem_zero h]; rfl
  unfold mxReserved
  rw [findBelow_none 512 ha, findBelow_none 4096 hb, findBelow_none 16 (hs _), findBelow_none 128 (hs _)]
  rfl
theorem v_zero (n r : Nat) : (v n).me.vreg r = 0 := by
  have : (v n).me.v = Vector.replicate 64 0 := rfl
  unfold Hart.vreg; rw [this, Vector.getElem?_replicate]; split <;> rfl
theorem witness_MatrixInstructions_codes : mxReserved (v 2).me matM ⟨matA (v 2).me 14 8, matB (v 2).me 14 16⟩ = none :=
  mxReserved_zero (v_zero 2) _ _ _
theorem witness_MatrixInstructions_others :
    let o : Fields := { d := 4, a := 8 }
    pushOk (v 2) (.mprom o) o checkMprom = true ∧ pushOk (v 2) (.mzero o) o checkMzero = true ∧
    pushOk (v 2) (.mzeroC o) o checkMzeroC = true ∧ pushOk (v 2) (.mdrain o) o checkMdrain = true ∧
    pushOk (v 2) (.mfill o) o checkMfill = true ∧ pushOk (v 2) (.mstat o) o checkNone = true := by decide +kernel
theorem witness_MatrixInstructions_gather :
    let o : Fields := { d := 0, a := 8, b := 16, w := 8 }
    pushOk (v 2) (.mmag o) o checkMmag = true ∧ gatherTrap (v 2) 0 ((v 2).entry (.mmag o) o) 8 = none ∧
    ((v 2).core 0).charge 0 ((v 2).me.vreg 8) (gatherTile (v 2) 0 ((v 2).entry (.mmag o) o) 8) none ≤ ((v 2).core 0).level := by
  decide +kernel

/-- The last 16 bytes of lane memory, with offsets in v6. -/
def lane : State := withRegs (vect 32 4 2 0 [(6, [0, 1, 2, 3])]) [(1, 0xFFFF0), (2, 4)]

/-- The hypotheses of LaneMemoryLoads and LaneMemoryStores. -/
def laneMeets (s : State) (i : Instr) (o : Fields) (check : Fields → Hart → Option PushIll) (straight : QEntry → Bool)
    (place : QEntry → Nat → Nat × Word) : Bool :=
  let e := s.entry i o
  let n := e.vt.bits / 8
  pushOk s i o check && decide (0 < e.vl) && decide (e.vl ≤ e.vt.vlmax) && straight e && (List.range e.vl).all fun k =>
    activeAt e o s.me k && aligned (place e k).2 n && decide ((place e k).2.toNat < laneSize) &&
      !s.lanePoisoned (place e k).1 (place e k).2.toNat n

theorem witness_LaneMemory :
    let o : Fields := { d := 4, a := 1, w := 2, f := 0x40 }
    let ost : Fields := { o with b := 2 }
    let ox : Fields := { o with b := 6 }
    let straight (o : Fields) (e : QEntry) : Bool := aligned (baseOf e o) (e.vt.bits / 8)
    lmBit o = true ∧ Memory.wf lane.mem = true ∧
    laneMeets lane (.vld o) o checkDense (straight o) (fun e k => (0, unitAddr e o k)) = true ∧
    laneMeets lane (.vst o) o checkDense (straight o) (fun e k => (0, unitAddr e o k)) = true ∧
    laneMeets lane (.vlds ost) ost checkDense (fun e => !strideBad e ost) (fun e k => (0, strideAddr e ost k)) = true ∧
    laneMeets lane (.vsts ost) ost checkDense (fun e => !strideBad e ost) (fun e k => (0, strideAddr e ost k)) = true ∧
    laneMeets lane (.vldx ox) ox checkVldx (fun _ => true) (fun e k => (0, indexAddr e ox lane.me k)) = true ∧
    laneMeets lane (.vstx ox) ox checkVstx (fun _ => true) (fun e k => (0, indexAddr e ox lane.me k)) = true := by decide +kernel
theorem witness_LaneMemory_peer :
    let o : Fields := { d := 4, a := 6, w := 2 }
    let place (e : QEntry) (k : Nat) := peerPlace (lane.who 0 true true 0) (lane.me.velem e.va e.vt.bits k % 2 ^ 32) (e.vt.bits / 8)
    laneMeets lane (.vldp o) o checkVldp (fun _ => true) place = true ∧
    laneMeets lane (.vstp o) o checkVstp (fun _ => true) place = true := by decide +kernel

/-- A state in which an entry is performed to the end. -/
def retires (s : State) (i : Instr) (o : Fields) (check : Fields → Hart → Option PushIll) : Bool :=
  pushOk s i o check && entryDone s i o

theorem witness_QueuedAccesses_dense :
    let o : Fields := { d := 4, a := 1, b := 6, w := 2 }
    let s := world (withRegs (vect 32 4 2 0 [(6, [0, 1, 2, 3])]) [(1, 0x4100), (6, 4)])
    retires s (.vld o) o checkDense = true ∧ retires s (.vst o) o checkDense = true ∧ retires s (.vlds o) o checkDense = true ∧
    retires s (.vsts o) o checkDense = true ∧ retires s (.vldx o) o checkVldx = true ∧ retires s (.vstx o) o checkVstx = true ∧
    retires s (.vamo o) o checkVamo = true ∧ retires lane (.vldp { o with a := 6 }) { o with a := 6 } checkVldp = true ∧
    retires lane (.vstp { o with a := 6 }) { o with a := 6 } checkVstp = true := by decide +kernel
theorem witness_QueuedAccesses_formatted :
    let o : Fields := { d := 4, a := 1, b := 8, w := 8 }
    let s := world (withRegs (v 0) [(1, 0x3000)])
    retires s (.vldf o) o checkVldf = true ∧ retires s (.vstf o) o checkVstf = true := by decide +kernel
theorem witness_QueuedAccesses_coordinates :
    let o : Fields := { d := 4, a := 1, b := 6, w := 6 }
    let s := world (withRegs (vect 32 4 2 0 [(6, [0, 1, 2, 3])]) [(1, 0x4000)])
    retires s (.vldc o) o checkVldc = true ∧ retires s (.vstc o) o checkVstc = true ∧ retires s (.vamoc o) o checkVldc = true := by
  decide +kernel
theorem witness_QueuedAccesses_fibres :
    let o : Fields := { d := 2, a := 1, b := 2 }
    let s := world (withRegs (v 2) [(1, 0x4100), (2, 1)])
    let walk : Fields := { d := 2, a := 4, b := 7, w := 12 }
    retires s (.fld o) o checkNone = true ∧ retires s (.fst o) o checkNone = true ∧
    retires (world (withRegs (v 2) [(4, 0x4200), (5, 0x4300), (6, 0x4400)])) (.fwalk walk) walk checkNone = true := by decide +kernel

/-- Streams q1 of words at 0x4100 and q2 of one segment. -/
def streams : State :=
  let s := world (withRegs (v 2) [(1, 0x4500)])
  let q1 : Stream := { kind := 1, w := 6, base := 0x4100, count := 4 }
  let q2 : Stream := { kind := 4, w := 12, base := 0x4200, stride := 0x4300, vbase := 0x4400, count := 1 }
  { s with harts := s.harts.map fun (x : Hart) => (x.setStream 1 q1).setStream 2 q2 }

theorem witness_QueuedAccesses_streams :
    let o : Fields := { d := 3, a := 1 }
    let rd : Fields := { d := 4, a := 1, w := 6 }
    let ld : Fields := { d := 2, a := 2, w := 12 }
    retires streams (.qbind o) o checkNone = true ∧ retires streams (.qrd rd) rd checkDense = true ∧
    retires streams (.fldq ld) ld checkNone = true ∧ retires streams (.qrel o) o checkNone = true := by decide +kernel
theorem witness_QueuedAccesses_rows :
    let o : Fields := { d := 8, a := 2, w := 7, imm := 16 }
    let s := world (vect 64 1 3 0 [(2, [0x4600]), (3, [0x4680])])
    let p : Fields := { a := 1 }
    retires s (.toksend o) o checkToksend = true ∧
    retires (world (withRegs (v 2) [(1, 0x4700)])) (.taskpub p) p checkNone = true := by decide +kernel
theorem witness_QueuedAccesses_empty :
    let o : Fields := { d := 4, a := 1, b := 6, w := 2 }
    let s := vect 8 0 2 0 []
    pushOk s (.vld o) o checkDense = true ∧ pushOk s (.vldx o) o checkVldx = true ∧ s.me.vlPush = 0 := by decide +kernel

theorem witness_ArriveWakeRelease :
    let o : Fields := { a := 1 }
    let x : Hart := { (scal [(1, 1)]).me with task := some 0 }
    let s : State := { State.reset with harts := [x, { x with ordinal := 1 }] }
    pushOk (scal [(1, 1)]) (.arrive o) o checkArrive = true ∧ pushOk s (.wake o) o checkNone = true ∧ s.me.task.isSome = true ∧
    (s.hart 1).task = s.me.task ∧ (s.hart 1).stopped = false ∧ (s.hart 1).ordinal = (s.me.reg 1).toNat % 2 ^ 32 ∧
    (s.hart 0).ordinal ≠ (s.hart 1).ordinal ∧
    pushOk streams (.qrel o) o checkNone = true ∧ (streams.me.stream 1).capt = false := by decide +kernel

/-- Scalar accesses at the last word of lane memory, at a misaligned address, and in a mapped page. -/
theorem witness_ScalarLaneMemory :
    let o : Fields := { d := 3, a := 1, b := 2, w := 3, f := 0x40 }
    let s := scal [(1, 0xFFFF8)]
    runOk s (.ld o) o = true ∧ runOk s (.amo o) o = true ∧ Memory.wf s.mem = true ∧ lmBit o = true ∧ aligned (scalarAddr o s.me) 8 = true ∧
    (scalarAddr o s.me).toNat < laneSize ∧ s.lanePoisoned 0 0xFFFF8 8 = false ∧ s.me.outcnt = 0 := by decide +kernel
theorem witness_ScalarMisaligned :
    let o : Fields := { d := 3, a := 1, w := 3 }
    runOk (scal [(1, 4)]) (.ld o) o = true ∧ (scalarAddr o (scal [(1, 4)]).me).toNat % 8 ≠ 0 := by decide +kernel

def effOk : Eff → Bool
  | .ok _ _ _ => true
  | _ => false

def transOk : Trans → Bool
  | .ok _ _ _ => true
  | _ => false

theorem witness_ScalarGlobalMemory :
    let o : Fields := { d := 3, a := 1, b := 2, w := 3 }
    let s := world (scal [(1, 0x4100)])
    let w := s.who 0 true false 0x4100
    runOk s (.ld o) o = true ∧ runOk s (.st o) o = true ∧ runOk s (.amo o) o = true ∧ runOk s (.cas o) o = true ∧
    aligned (scalarAddr o s.me) 8 = true ∧ s.me.outcnt = 0 ∧ effOk (s.begun.loadEl w false 0x4100 8) = true ∧
    effOk (s.begun.storeEl w 0x4100 8 1) = true ∧ effOk (s.begun.atomicEl w 0x4100 8 false (atomicStep 1 3 5)) = true ∧
    effOk (s.begun.atomicEl w 0x4100 8 false (casStep 1 5)) = true := by decide +kernel
theorem witness_ScalarMemoryFrame :
    let o : Fields := { d := 3, a := 1, w := 3 }
    let s := world (scal [(1, 0x4100)])
    let finds (acc : Access) : Bool := match s.begun.hitOrPage (scalarWho o s.begun 0x4100) acc 0x4100 with
      | .ok u pa _ => decide (u.mem = s.mem) && decide (spaceOf pa ≠ 3)
      | _ => false
    runOk s (.ld o) o = true ∧ runOk s (.st o) o = true ∧ lmBit o = false ∧ finds .load = true ∧ finds .store = true ∧
    (match exec (.ld o) s with | .next _ => true | _ => false) = true ∧
    (match exec (.st o) s with | .next _ => true | _ => false) = true := by decide +kernel
theorem witness_CacheInstructions :
    let o : Fields := { a := 1 }
    let s := world (scal [(1, 0x4100)])
    runOk s (.fence o) o = true ∧ runOk s (.cbinvWb o) o = true ∧ (scalarAddr o s.me).toNat < 2 ^ 48 ∧ s.me.outcnt = 0 ∧
    transOk (s.begun.translate 0 true .load 0x4100) = true ∧ transOk (s.begun.translate 0 true .store 0x4100) = true := by
  decide +kernel

/-- Two pairs of ascending coordinates in the last 16 bytes of lane memory, and one occupied pair in f2. -/
def laneFibre : State :=
  let s := withRegs (v 2) [(1, 0xFFFF0), (2, 2)]
  let t : State := { s with harts := s.harts.map fun (x : Hart) => x.setFibre 2 ((x.fibreReg 2).fill [(7, 9)]) }
  holds t [(laneAt (0, 0xFFFF0), 0x0000000100000003), (laneAt (0, 0xFFFF8), 0x0000000200000005)]

theorem witness_LaneMemory_fibre :
    let o : Fields := { d := 2, a := 1, b := 2, f := 0x40 }
    let p := laneAt (0, 0xFFFF0)
    pushOk laneFibre (.fld o) o checkNone = true ∧ pushOk laneFibre (.fst o) o checkNone = true ∧ laneFibre.me.vstart = 0 ∧
    min ((laneFibre.entry (.fld o) o).cap 1).toNat 256 = 2 ∧ baseOf (laneFibre.entry (.fld o) o) o = 0xFFFF0 ∧
    baseOf (laneFibre.entry (.fst o) o) o = 0xFFFF0 ∧ (laneFibre.me.fibreReg 2).occ = 1 ∧
    memNat laneFibre.mem p 4 < memNat laneFibre.mem (p + 8) 4 ∧ laneFibre.lanePoisoned 0 0xFFFF0 16 = false ∧
    Memory.wf laneFibre.mem = true := by decide +kernel
/-- What elements that pass their checks one after another give. -/
def elemsOk : GroupEnd → Bool
  | .ok _ _ _ => true
  | _ => false

/-- The hypotheses about VAMO, in lane memory, in a peer's and in a mapped page. -/
theorem witness_QueuedAccesses_atomics :
    let at_ (s : State) (o : Fields) : Bool :=
      let e := s.entry (.vamo o) o
      let u := s.pushedNow (.vamo o) o
      let x := u.hart 0
      pushOk s (.vamo o) o checkVamo && ((dueElems e o x).all fun k => o.f.getLsbD 5 || aligned (vamoAddr e x k) (e.vt.bits / 8)) &&
        elemsOk (runElems (vamoEl e o x (vamoWho e o 0 u)) (dueElems e o x) u [] 0)
    let o : Fields := { d := 4, a := 1, b := 6, w := 2 }
    at_ lane { o with f := 0x40 } = true ∧ at_ lane { o with f := 0x20 } = true ∧
    at_ (world (withRegs (vect 32 4 2 0 [(6, [0, 1, 2, 3])]) [(1, 0x4100)])) o = true ∧ lane.me.outcnt = 0 ∧
    lane.lanePoison = [] ∧ (vamoAddr (lane.entry (.vamo { o with f := 0x40 }) o) lane.me 3).toNat < laneSize := by decide +kernel
/-- The hypotheses about VLDF and VSTF, of a block in a formatted page. -/
theorem witness_QueuedAccesses_blocks :
    let o : Fields := { d := 4, a := 1, b := 8, w := 8 }
    let s := world (withRegs (v 0) [(1, 0x3000)])
    let e := s.entry (.vldf o) o
    let u := s.pushedNow (.vldf o) o
    let due := dueElems e o (u.hart 0)
    let p (store : Bool) := snapRecords { entryWho u 0 e o with pick := u.drawPick.1 } store (blockStarts (baseOf e o) 32 due) u.drawPick.2
    pushOk s (.vldf o) o checkVldf = true ∧ pushOk s (.vstf o) o checkVstf = true ∧ due = [0, 1, 2, 3] ∧
    blockMisaligned (p false).1 (p false).2 false 8 due = false ∧ blockMisaligned (p true).1 (p true).2 true 8 due = false ∧
    elemsOk (runElems (vldfCode (p false).2 8 (blockSize 8)) due (p false).1 [] 0) = true ∧
    elemsOk (runElems (vstfCode e o (u.hart 0) (p true).2) due (p true).1 [] 0) = true ∧
    effOk (vstfScales e o (u.hart 0) (p true).2 [0] (p true).1) = true := by decide +kernel
/-- The hypotheses about VLDC, VSTC and VAMOC: one active element, whose tile is found. -/
theorem witness_QueuedAccesses_volume :
    let o : Fields := { d := 4, a := 1, b := 6, w := 6 }
    let s := world (withRegs (vect 32 1 2 0 [(6, [2])]) [(1, 0x4000)])
    let e := s.entry (.vldc o) o
    let u := s.pushedNow (.vldc o) o
    let x := u.hart 0
    let w := coordWho e o 0 u
    pushOk s (.vldc o) o checkVldc = true ∧ pushOk s (.vstc o) o checkVstc = true ∧ pushOk s (.vamoc o) o checkVldc = true ∧
    dueElems e o x = [0] ∧ aligned w.base 128 = true ∧ s.me.outcnt = 0 ∧
    (match u.readBlock w w.base with
      | .ok s1 d _ =>
        let y := volumeOf d
        !coordBad o w d && y.dims == 1 && decide (coordOf e x 0 0 < y.extent 0) && y.wr &&
        (match lookTile w y (y.tile (coordOf e x 0)) s1 with
          | .present s2 t =>
            let a := some (t + BitVec.ofNat 64 (y.off (coordOf e x 0)))
            effOk (vldcEl o y w a s2 0) && effOk (vstcEl e o x y w a s2 0) && effOk (vamocEl e o x y w a s2 0)
          | _ => false) &&
        (match coordGroups (coordFind e o x w d false) (vldcEl o y w) (groupsOf (groupSize e.vt) [0]) {} { s := s1 } with
          | .ok b => b.first.isNone
          | _ => false)
      | _ => false) = true := by decide +kernel
/-- The hypotheses about QRD, FLDQ and TOKSEND. -/
theorem witness_QueuedAccesses_reads :
    let rd : Fields := { d := 4, a := 1, w := 6 }
    let ld : Fields := { d := 2, a := 2, w := 12 }
    let e := streams.entry (.qrd rd) rd
    let u := streams.pushedNow (.qrd rd) rd
    let x := u.hart 0
    let k := streams.pushedNow (.fldq ld) ld
    pushOk streams (.qrd rd) rd checkDense = true ∧ 0 < e.vl ∧ qrdOk (x.stream 1) 6 = true ∧
    elemsOk (runElems (fun t j => streamElem 0 e.prv 1 t ((x.stream 1).pos.toNat + j)) (dueElems e rd x) u [] 0) = true ∧
    pushOk streams (.fldq ld) ld checkNone = true ∧ (x.stream 2).kind = 4 ∧ (x.stream 2).pos.toNat < (x.stream 2).count.toNat ∧
    (match levelElem 0 true 2 0 0 k with
      | .ok s1 lo _ => (match levelElem 0 true 2 0 1 s1 with
        | .ok s2 hi _ => (match fldqLoads 0 true 2 (min (hi - lo) 256) lo [] s2 with
          | (.ok _ _ _, l) => decide (min (hi - lo) 256 ≤ ascending l)
          | _ => false)
        | _ => false)
      | _ => false) = true := by decide +kernel
theorem witness_QueuedAccesses_send :
    let o : Fields := { d := 8, a := 2, w := 7, imm := 16 }
    let s := world (vect 64 1 3 0 [(2, [0x4600]), (3, [0x4680])])
    let e := s.entry (.toksend o) o
    let u := s.pushedNow (.toksend o) o
    let x := u.hart 0
    pushOk s (.toksend o) o checkToksend = true ∧ e.vl = 1 ∧ aligned (rowSlot e x 0) 16 = true ∧ aligned (rowWord e x 0) 8 = true ∧
    elemsOk (runElems (sendRow (u.who 0 e.prv false 0) 16 (rowBytes e o x) (rowSlot e x) (rowWord e x)) (dueElems e o x) u [] 0) = true := by
  decide +kernel
theorem witness_QueuedAccesses_bind :
    let o : Fields := { d := 3, a := 1 }
    let e := streams.entry (.qbind o) o
    let u := streams.pushedNow (.qbind o) o
    pushOk streams (.qbind o) o checkNone = true ∧ (streams.me.stream 3).capt = false ∧
    (match u.readBlock (u.who 0 true false (baseOf e o)) (baseOf e o) with
      | .ok _ d _ => !streamIll streams.me 3 d (baseOf e o)
      | _ => false) = true := by decide +kernel
theorem witness_QueuedAccesses_publish :
    let o : Fields := { a := 1 }
    let s := world (withRegs (v 2) [(1, 0x4700)])
    let u := s.pushedNow (.taskpub o) o
    pushOk s (.taskpub o) o checkNone = true ∧ (s.entry (.taskpub o) o).cap 0 = 0x4700 ∧
    (match u.translate 0 true .store 0x4700 with
      | .ok s1 pa pte => decide (spaceOf pa = 0) && !s1.poisoned pa 128 && s1.canWriteMaster pa 128 &&
        (match s1.accessLines (u.who 0 true false 0x4700) .store pte 0x4700 pa 128 .home with
          | .ok s2 => decide (s2.tcbState pa = 0) && !s2.tcbIll pa
          | _ => false)
      | _ => false) = true := by decide +kernel
theorem witness_QueuedAccesses_walk :
    let o : Fields := { d := 2, a := 4, b := 7, w := 12 }
    let s := world (withRegs (v 2) [(4, 0x4600), (5, 0x4300), (6, 0x4400)])
    let e := s.entry (.fwalk o) o
    let u := s.pushedNow (.fwalk o) o
    let u0 := u.setHart 0 { (u.hart 0).setFibre 2 { (u.hart 0).fibreReg 2 with occ := 0 } with vprog := {} }
    pushOk s (.fwalk o) o checkNone = true ∧ s.me.vprog.v = false ∧
    (match walkLoad u0 0 o true (e.cap 0) (e.cap 3).toNat 4 with
      | .ok s1 lo _ => (match walkLoad s1 0 o true (e.cap 0) ((e.cap 3).toNat + 1) 4 with
        | .ok _ hi _ => decide (hi ≤ lo)
        | _ => false)
      | _ => false) = true := by decide +kernel

/-! Engines, waits, tasks, views and tables. -/

/-- What an engine's acceptance gives. -/
def accepts (s : State) (agent eng room cost : Nat) (op : EngOp) : Bool := (s.accept agent eng room cost op).isSome

def copyOp : EngOp := .copy 0 true 0 false false 0x4100 0x4200 64

theorem witness_EngineAcceptance :
    let s := world State.reset
    let t : State := { s with dir := [(0x4100 / 128, .g 1 1)] }
    (s.engine 0 0).ops.length < 64 ∧ s.destLines copyOp.writer 0x4100 64 = [.take 0x4100 (0x4100 / 128)] ∧ s.resync = false ∧
    t.destLines copyOp.writer 0x4100 64 = [.wait (0x4100 / 128)] := by decide +kernel
theorem witness_EngineInstructions :
    let o : Fields := { d := 2, a := 4 }
    let s := world (scal [(4, 0x4100), (5, 0x4200), (6, 64), (7, 0x0001000100000040)])
    runOk s (.acopy o) o = true ∧ runOk s (.acopy2 o) o = true ∧ accepts (s.begun.exchange 0 0 (some 0)) 0 (s.begun.copyEngine o 0) 64 4 copyOp = true ∧
    accepts (s.begun.exchange 0 0 (some 0)) 0 (s.begun.copyEngine o 0) 64 4 (.gather 0 true 0 false 0x4100 0x4200 64 64 1 1) = true := by decide +kernel
theorem witness_EngineInstructions_collective :
    let o : Fields := { d := 2, a := 4, w := 12 }
    let s := holds (world (scal [(4, 0x4100), (5, 0x4200), (6, 16), (7, 0x4680)])) [(0x4680, 2 ^ 16)]
    runOk s (.collArsum o) o = true ∧
    (match s.begun.readBlock (s.who 0 true false 0x4680) 0x4680 with
      | .ok u d _ => !collIll d (u.hub 0).pkgid.toNat && !u.resync &&
        accepts (u.exchange 0 24 (some 0)) 24 4 256 16 (.coll 0 true 0 0 12 false 0x4100 0x4200 16 1 0)
      | _ => false) = true := by decide +kernel

/-- Tickets 1 of engine 0 of die 0, complete and not. -/
theorem witness_Waits :
    let o : Fields := { a := 4 }
    let s := scal [(4, 100), (5, 1)]
    let t : State := { s with engines := [(0, { seq := 1 })] }
    runOk s (.waitt o) o = true ∧ t.ticketDone 1 = true ∧ s.ticketDone 1 = false ∧ s.inService 0 = true ∧ s.cyc.toNat < 100 ∧
    selectorIll (s.me.reg 5) = false ∧ s.engineLost 1 = false := by decide +kernel
theorem witness_Waits_others :
    let o : Fields := { a := 4 }
    let s : State := { scal [(4, 5)] with dieBar := [(0, ⟨6, 0, 0⟩)] }
    runOk s (.waitb o) o = true ∧ ((s.barrier s.me false 0).phase - (s.me.reg 4).setWidth 16).toNat = 1 ∧
    (((scal [(4, 0x8000)]).barrier (scal [(4, 0x8000)]).me false 0).phase - ((scal [(4, 0x8000)]).me.reg 4).setWidth 16).toNat = 2 ^ 15 ∧
    runOk (scal [(4, 0x8000)]) (.waitb o) o = true ∧ runOk (scal [(4, 0x7FFF)]) (.waitb o) o = true ∧
    2 ^ 15 < (((scal [(4, 0x7FFF)]).barrier (scal [(4, 0x7FFF)]).me false 0).phase - ((scal [(4, 0x7FFF)]).me.reg 4).setWidth 16).toNat ∧
    ((s.barrier s.me false 0).phase - 6).toNat = 0 ∧ s.me.wake = false ∧
    (s.cyc - s.me.waitFrom.getD s.cyc).toNat < (s.me.reg 4).toNat := by decide +kernel

/-- The steps of TASKCAN on a TCB, up to the state of its task. -/
def cancels (s : State) (a : Nat) : Option Nat :=
  let w := s.begun.who 0 true false (BitVec.ofNat 64 a)
  match s.begun.accessPage w .store a with
  | .ok s1 pa pte => if spaceOf pa = 0 ∧ s1.canWriteMaster pa 128 = true then
      match s1.accessLines w .store pte a pa 128 .home with
      | .ok s2 => if s2.poisoned pa 128 then none else some ((s2.endHolds 0).tcbState pa)
      | _ => none
    else none
  | _ => none

theorem witness_TaskCancel :
    let o : Fields := { d := 3, a := 1 }
    let s := world (scal [(1, 0x4700)])
    runOk s (.taskcan o) o = true ∧ cancels s 0x4700 = some 0 ∧ cancels (s.pokeNat 0x4700 1 2) 0x4700 = some 2 ∧
    cancels (s.pokeNat 0x4700 1 3) 0x4700 = some 3 := by decide +kernel

/-- The catalogue: a SHARD view of 128 bytes at 0x5000 in space 2, of the master at 0x4000. -/
def shard : State :=
  let s := holds (world (scal [(1, 0x4600)])) [(0x4600, 0x0000000100000002), (0x4608, 128), (0x4610, 0x4000), (0x4618, 128),
    (0x4620, 0x5000), (0x4628, 128), (0x4630, 0x5100)]
  s.setHub 5 { s.hub 5 with asnSnaps := [(0, 1)], tlb := [⟨0, false, 0x5000, 12, BitVec.ofNat 64 (2 ^ 55 + 0x807 + 2 ^ 63), 0⟩] }

def bodyOk : Res → Bool
  | .ok _ => true
  | _ => false

/-- A LAYOUT view of the bytes at 0x4000, registered with its one block fresh. -/
def viewed : State :=
  let r : ViewReg := { asn := 0, desc := 0x4600, rel := 0, fmt := 1, policy := 0, l2es := 2, rows := 1, cols := 128, mbase := 0x3000, mstride := 512, vbase := 0x4000, vstride := 128, tbase := 0, dbase := 0x4000, sbase := 0x4800, sstride := 4, log2row := 0, frames := [(3, 3), (4, 4)] }
  { world (scal [(1, 0x4000), (2, 7)]) with regs := [(0, r)], nextReg := 1, blocks := [(0, { ver := 7, tag := 7, st := .fresh, published := true })] }

theorem witness_ViewInstructions :
    let o : Fields := { d := 3, a := 1, b := 2 }
    runOk shard (.viewreg o) o = true ∧ bodyOk (viewregBody o shard.begun) = true ∧
    runOk viewed (.viewsync o) o = true ∧ transOk (viewed.begun.translate 0 true .load 0x4000) = true ∧
    viewed.viewBlockOf 0x4000 = some (0, 0) ∧ (viewed.block 0 0).st = .fresh ∧ covers (viewed.block 0 0).tag 7 = true ∧
    (viewed.block 0 0).p = false ∧ (viewed.regOf 0 0x4600).isSome = true ∧ viewed.derives 0 = false ∧ viewed.resync = false ∧
    effOk (viewed.begun.atomicEl (viewed.who 0 true false 0x4100) 0x4100 8 false fun _ => (none, 0)) = true ∧
    covers (BitVec.ofNat 16 7) 7 = true := by decide +kernel

theorem witness_BiasAndMigration :
    let o : Fields := { d := 3, a := 4 }
    let s : State := scal [(4, 0x3000), (6, 0x4000)]
    let t : State := s.setHub 3 { s.hub 3 with hdmsize := 0x10000 }
    runOk s (.biassetHost o) o = true ∧ s.inWindow 0x3000 = false ∧ t.inWindow 0x3000 = true ∧ t.flips = [] ∧
    t.migrating 0x3000 = false ∧ t.hostBias.contains 3 = false ∧ runOk s (.pmig o) o = true ∧
    (pmigTrap s 0x3000 0 0x4000 0).isSome = true := by decide +kernel
theorem witness_BiasAndMigration_accepted :
    let s := mapped (scal []) [(3, 0)]
    pmigTrap s 0x3000 0 0x80003000 0 = some ⟨causePROTECT, 64, 0x3000, 0⟩ ∧ pmigTrap s 0x3000 0 0x13000 0 = none ∧
    (s.engine 27 5).ops.length < 16 ∧ (match s.findLeaf 0 0x3000 with | .leaf _ _ _ => true | _ => false) = true := by decide +kernel

theorem witness_CounterInstructions :
    let s := scal [(1, 2), (2, 0x322)]
    selectorIll (s.me.reg 1) = false ∧ s.engineLost (s.me.reg 1) = false ∧ counterAt (s.me.reg 1) = some (false, 0, 2) ∧
    bitsOf (s.me.reg 1).toNat 8 3 < 4 ∧ s.drained = true ∧ s.me.waitFrom = none := by decide +kernel

/-! Events. -/

theorem witness_TimeEvents :
    let w : PendWrite := { pred := false, reg := 63, value := 5, left := 2 }
    let s : State := { State.reset with harts := [{ Hart.stobry with pend := [w] }] }
    0 < s.harts.length ∧ (s.hart 0).pend = [w] ∧ w.landed = false ∧ w.pred = false ∧ 1 ≤ w.reg ∧ w.reg < 64 := by decide +kernel

/-- A hart whose queue holds one entry of an instruction at a stage. -/
def queueOf (i : Instr) (st : Stage) (frz : Bool) : State :=
  { State.reset with harts := [{ Hart.stobry with
      vqtail := 1, vl := 4, queue := [{ instr := i, stage := st, frz := frz, vl := 4, vd := 4, va := 8, vb := 16 }] }] }

def queueAt (st : Stage) (frz : Bool) : State := queueOf (.vadd { d := 4, a := 8, b := 16, w := 2 }) st frz

def driven (d : Drive) : Bool :=
  match d with
  | .ok _ => true
  | .stop _ => false

/-- The hart is the only one of its core with entries, and may go on with them. -/
def aloneOk (s : State) : Bool :=
  s.me.bound && !s.me.stopped && !s.me.replaying && decide (s.harts.length = 1)

theorem witness_QueueEvents :
    (queueAt .waiting false).pickEntry 0 none [] = some 0 ∧
    driven (((queueAt .waiting false).noteTaken 0 0 none []).performHead 0 (some 1)) = true ∧
    aloneOk (queueAt .waiting false) = true ∧ (queueAt .waiting false).me.rsPoison = [] ∧
    driven ((queueAt .waiting false).drainAll 0) = true ∧ (queueAt (.performed 0 none) false).me.queue.length = 1 ∧
    ((queueAt (.performed 0 none) false).me.queue.map QEntry.size) = [1] ∧ (queueAt (.performed 0 none) false).me.vcp = 0 ∧
    (queueAt (.faulted ⟨causeDATA_POISON, 0, 0, 0⟩ []) false).me.depth = 0 ∧ State.reset.me.queue = [] ∧
    ({ Hart.stobry with heldReads := [⟨0, 0, 0, none⟩] } : Hart).heldReads ≠ [] ∧
    (queueAt (.faulted ⟨causeDATA_POISON, 0, 0, 0⟩ []) false).me.pend = [] ∧
    ((queueAt (.faulted ⟨causeDATA_POISON, 0, 0, 0⟩ []) true).me.queue.all fun e => e.frz) = true := by decide +kernel
theorem witness_QueueEvents_charge :
    let s := queueOf (.mma matO) .waiting false
    matO.w.toNat ≠ 14 ∧ aloneOk s = true ∧ groupOf (.mma matO) = 7 ∧ s.pickEntry 0 none [] = some 0 ∧
    driven ((s.noteTaken 0 0 none []).performHead 0 none) = true ∧
    (s.core 0).charge 0 (s.me.vreg 8) (matTile s.me 16) (some 16) ≤ (s.core 0).level ∧ tget s.rate 0 512 ≠ 0 := by decide +kernel

/-- Stobry's hart waits at address 0, where the instruction of a word stands. -/
def waits (w : Nat) : State :=
  let s := State.reset.withFetchWord 96 w
  { s with cyc := 70000, harts := s.harts.map fun (x : Hart) => { x with waiting := true, waitFrom := some 0 } }

/-- The same at user words of scalar registers. -/
def waitsWith (w : Nat) (l : List (Nat × Word)) : State :=
  { waits w with harts := (waits w).harts.map fun x => l.foldl (fun x p => x.setReg p.1 p.2) x }

theorem witness_HartEvents :
    (waits 0).me.bound = true ∧ 607 < 608 ∧ (waits 0).linesHeld 0 < storeLines ∧ (waits 0).poisoned 0 1 = false ∧
    ((waits 0).modCore 0 fun c => { c with store := [⟨0, 607, true, none⟩] }).lineState 0 607 = .absent ∧ 65536 < (waits 0).waited 0 ∧
    (waits 0xA21E00080000000000000000).instrAt 0 = some (.waitt { a := 4 }) ∧
    (waits 0xA3DE00080000000000000000).instrAt 0 = some (.sleep { a := 4 }) ∧
    (waits 0xB0DE00080A00000000000000).instrAt 0 = some (.viewsync { a := 4, b := 5 }) ∧
    (waits 0xB0DE00080A00000200000000).instrAt 0 = some (.viewsyncTw { a := 4, b := 5, f := 1 }) := by decide +kernel
theorem witness_HartEvents_waitt :
    let o : Fields := { a := 4 }
    let late := waitsWith 0xA21E00080000000000000000 [(4, 100), (5, 1)]
    let done : State := { late with engines := [(0, { seq := 1 })] }
    runOk late (.waitt o) o = true ∧ runOk done (.waitt o) o = true ∧ ticketAgent 1 < 24 ∧ ticketEng 1 < 4 ∧
    done.ticketDone 1 = true ∧ (done.engine 0 0).unraised 1 = none ∧ late.ticketDone 1 = false ∧ late.inService 0 = true ∧
    100 ≤ late.cyc.toNat := by decide +kernel
theorem witness_HartEvents_sleep :
    let o : Fields := { a := 4 }
    let s := waitsWith 0xA3DE00080000000000000000 [(4, 100)]
    runOk s (.sleep o) o = true ∧ 100 ≤ s.waited 0 ∧ s.me.bound = true ∧ s.me.waiting = true := by decide +kernel

/-- Stobry's hart waits in a VIEWSYNC of the block of `viewed`, for a version with a timeout of 100 cycles. -/
def viewWaits (w : Nat) (a ver : Nat) : State :=
  { viewed.withFetchWord 96 w with
    cyc := 70000
    harts := [{ (Hart.stobry.setReg 4 (BitVec.ofNat 64 a)).setReg 5 (BitVec.ofNat 64 (ver + 100 * 2 ^ 16)) with waitFrom := some 0 }] }

theorem witness_HartEvents_viewsync :
    let o : Fields := { a := 4, b := 5 }
    let s (ver : Nat) := viewWaits 0xB0DE00080A00000000000000 0x4000 ver
    let x := s 7
    let y := s 8
    x.instrAt 0 = some (.viewsync o) ∧ runOk x (.viewsync o) o = true ∧ runOk y (.viewsync o) o = true ∧
    (match y.begun.accessPage (y.begun.who 0 true false 0x4000) .load 0x4000 with
      | .ok u pa _ => decide (lowestDie (u.taint 0) = none) && !u.resync && decide (spaceOf pa = 0) &&
        u.viewBlockOf pa == some (0, 0) && decide ((u.block 0 0).st = .fresh) && covers (u.block 0 0).tag 7 && !(u.block 0 0).p &&
        !covers (u.block 0 0).tag 8 && decide (100 ≤ u.waited 0)
      | _ => false) = true := by decide +kernel
theorem witness_HartEvents_viewsyncTw :
    let o : Fields := { a := 4, b := 5, f := 1 }
    let x := viewWaits 0xB0DE00080A00000200000000 0x4100 7
    x.instrAt 0 = some (.viewsyncTw o) ∧ runOk x (.viewsyncTw o) o = true ∧
    (match x.begun.atomicEl (x.begun.who 0 true false 0x4100) 0x4100 8 false (fun _ => (none, 0)) with
      | .ok u v _ => covers (BitVec.ofNat 16 v) 7 && !bitOf v 16 && !covers (BitVec.ofNat 16 v) 8 && decide (100 ≤ u.waited 0)
      | _ => false) = true := by decide +kernel
theorem witness_HartEvents_poison :
    let o : Fields := { a := 4, b := 5 }
    let s := viewWaits 0xB0DE00080A00000000000000 0x4000 7
    let y : State := { s with blocks := [(0, { ver := 7, tag := 7, st := .stale, p := true, published := true })] }
    y.instrAt 0 = some (.viewsync o) ∧ runOk y (.viewsync o) o = true ∧ (y.block 0 0).p = true ∧ bitOf 0x10007 16 = true := by
  decide +kernel
theorem witness_HartEvents_rebind :
    let s : State := { State.reset with harts := [{ Hart.stobry with bound := false }] }
    s.me.waiting = false ∧ (s.rebind 0).isSome = true := by decide +kernel
theorem witness_HartEvents_interrupt :
    let s : State := { userState with hubs := userState.hubs.set 7 { doorbell := 1, notice := true, irqen := true } }
    (s.hart 0).takesIrq = true ∧ s.pendingIrq 0 = some (4, 7) ∧ (s.hart 0).preempt = none ∧ 65535 < 2 ^ 16 := by decide +kernel
theorem witness_HartEvents_parking :
    let s : State := { queueAt .waiting false with harts := (queueAt .waiting false).harts.map fun x => { x with sup := false } }
    (s.hart 0).takesIrq = true ∧ (s.hart 0).headBusy = false ∧ s.pendingIrq 0 = none ∧ (s.hart 0).pend = [] ∧
    (s.hart 0).queue.length = 1 := by decide +kernel

theorem witness_DirectoryEvents :
    let s : State := { world State.reset with dir := [(0x4780 / 128, .em 0)], tags := [(4, ⟨0, false, 4⟩)] }
    let l := 0x4780 / 128
    s.lineReqs = [] ∧ s.inService 0 = true ∧ s.inService 1 = true ∧ 128 * l < 2 ^ 55 ∧ s.fillRefused 1 l = false ∧ s.resync = false ∧
    tfind s.tags (l / 32) = some ⟨0, false, 4⟩ ∧ lowestDie (s.taint 0) = none ∧ s.pageTurn s.newPlace 0 0x4780 = none ∧
    (match s.translate 0 true .load 0x4780 with
      | .ok u pa pte => lineOf pa == l && !pteNC pte && !pteVC pte && !u.flipHolds 0x4780 && !u.atHost l (lineHalves l) &&
        !u.waitsTurn s.newPlace l && ((u.confirmLine 1 pte l).toOption.isSome) && (Want.next .read 1 (u.watched l) (u.dirOf l)).isSome &&
        (Want.next .own 1 (u.watched l) (u.dirOf l)).isSome
      | _ => false) = true ∧
    s.dirOf l = .em 0 ∧ (s.victims.filter fun v => v.die = 0).length < 16 ∧ s.quiet 0 32 = true ∧
    (s.transmit 0 (24 + s.lineHub l) 0 none).victimWaits (s.transmit 0 (24 + s.lineHub l) 0 none).newPlace l = false := by decide +kernel
theorem witness_DirectoryEvents_waits :
    let s : State := { world State.reset with dir := [(0x4780 / 128, .g 0 0)], tags := [(4, ⟨0, false, 4⟩)] }
    s.lineServe ⟨0x4780 / 128, 1, true, s.newPlace⟩ = .wait (0x4780 / 128) := by decide +kernel

def engStepOk : EngStep → Bool
  | .ok _ => true
  | _ => false

theorem witness_UnitEvents :
    let s : State := { world State.reset with engines := [(0, { ops := [copyOp] })] }
    (match (s.engine 0 0).ops.head? with | some (.coll ..) => false | _ => true) = true ∧
    ((s.engNext 0 0).map engStepOk) = some true ∧ engStepOk (s.copyComplete 0 0) = true := by decide +kernel
theorem witness_UnitEvents_collective :
    let op : EngOp := .coll 0 true 0 0 12 false 0x4100 0x4200 4 1 0
    let s : State := { world State.reset with engines := [(engKey 24 4, { ops := [op] })] }
    engStepOk (s.collComplete 24 []) = true := by decide +kernel
theorem witness_UnitEvents_others :
    let row : TokRow := ⟨0, 0, [1, 2], [(0, 2, .pa 0x4600)], .pa 0x4680, 0⟩
    let s : State := { State.reset with rows := [row], posted := [⟨0, 2 ^ 55⟩], flips := [⟨4, true, 0, [], false⟩] }
    (s.placeRow 0).isSome = true ∧ s.posted.length = 1 ∧ 0 < s.harts.length ∧ s.quiet (32 * 4) 32 = true ∧
    s.resync = false ∧ viewed.canNotice 0 0 = true ∧ viewed.resync = false := by decide +kernel

/-- CXL.mem is enabled on port 0, over 64 KiB from 0. -/
def cxl : State := State.reset.setHub 0 { State.reset.hub 0 with hdmsize := 0x10000, memEnable := true, memrdy := true }

theorem witness_OutsideAccesses :
    let s : State := { cxl with hostBias := [3], dir := [(0x4000 / 128, .h 1 0 0)] }
    let u := s.hostAsks (.window 0 0x3000) (lineOf 0x3000)
    s.hostAccess (hostHalf (.window 0 0x3001)) = .at_ 0x3000 ∧ u.untracked 0x3000 = true ∧ s.hostHeld = [] ∧
    u.hostWaits s.newPlace 0x3000 = none ∧ (u.confirmAll (u.agentOf s.newPlace) (u.viewBlocksAt 0x3000 64)).toOption.isSome = true ∧ u.poisoned 0x3000 64 = false ∧ u.canWriteMaster 0x3000 64 = true ∧
    s.hostAccess (hostHalf (.bar 1 0x1A)) = .register 4 0x18 ∧ s.hostAccess (.bar 0 0x50) = .register 0 0x50 ∧ s.hostAccess (hostHalf (.window 0 0x10000)) = .answer false true ∧
    s.hostAccess (.window 1 0) = .silent ∧ s.dirOf (0x4000 / 64 / 2) = .h 1 0 0 ∧
    s.canWriteMaster 0x4000 0 = true ∧ (s.placeBytes s.newPlace (24 + placeHub 0x5000) 0x5000 [1]).isSome = true ∧ s.migOf 5 = none := by decide +kernel
/-- R424: a host write through the BAR of port 1 ORs the byte it covers into DOORBELL of hub 4. -/
theorem test_bar_doorbell :
    (match execHostCxlMemWrite (.bar 1 0x19) [5] State.reset with
      | .next t => (t.hub 4).doorbell == 0x500 && (t.hub 0).doorbell == 0
      | _ => false) = true := by decide +kernel
theorem witness_OutsideAccesses_tracked :
    let s : State := { cxl with hostBias := [3], dir := [(0x5000 / 128, .em 0)] }
    let u := s.hostAsks (.window 0 0x5000) (lineOf 0x5000)
    s.hostAccess (hostHalf (.window 0 0x5000)) = .at_ 0x5000 ∧ u.untracked 0x5000 = false ∧ u.hostWaits s.newPlace 0x5000 = none ∧
    (hostTake (halfBit 0x5000) true (u.dirOf (lineOf 0x5000))).isSome = true ∧
    (hostGive (halfBit 0x5000) (u.dirOf (lineOf 0x5000))).isSome = true ∧ u.canWriteMaster 0x5000 64 = true ∧ s.flips = [] ∧
    s.hostAccess (.memory (2 ^ 54)) = .at_ (2 ^ 54) ∧ s.untracked (2 ^ 54) = true ∧
    1024 * 5 < 2 ^ 41 ∧ s.migOf 40 = none := by decide +kernel
theorem witness_OutsideAccesses_copies :
    let s : State := { State.reset with cores := [(0, { l1 := [(5, false)], coords := [(5, false)] })], dir := [(5, .s 1)] }
    (tfind (s.core 0).l1 5).isSome = true ∧ (tfind (s.core 0).coords 5).isSome = true ∧ hitState 0 false (s.dirOf 5) = true ∧
    s.dirOf 5 ≠ .em 0 := by decide +kernel
theorem witness_OutsideAccesses_cacheLine :
    ((State.reset.modCore 0 fun c => { c with icache := [⟨0, false, 0, 0, [], false⟩] }).core 0).icache.length = 1 := by decide +kernel
theorem witness_OutsideAccesses_pool :
    let s := world State.reset
    (match s.translate 0 true .store 0x4000 with
      | .ok t pa _ => !t.poisoned pa 16 && ((t.askHomes (hubOf 0x4000) [homeHub (hubOf 0x4000) (lineOf pa)]).pushPool pa 0x9000).isSome
      | _ => false) = true := by decide +kernel

/-- A published task of die 0 that is READY at level 0 and has been for a while. -/
def readyTask : Task :=
  { tcb := 0x4700, pa := 0x4700, asn := 0, tid := 1, st := .ready, level := 0, readyAt := 0, aged := 0, entry := 0, lo := 0, hi := 0, strip := 0, harts := 1, idem := false, farm := false, dies := 1, args := 0, rank := 0, cursor := 0, reissue := [], out := [], master := none, shadow := none, nextOrd := 0, ended := false, lostPost := false }

theorem witness_FinalEnd_strip :
    let k : Task := { readyTask with st := .running, farm := true, hi := 10, strip := 4 }
    let s : State := { State.reset with tasks := [k], harts := [{ Hart.stobry with task := some 0 }] }
    pushOk s (.endI {}) {} (fun _ _ => none) = true ∧ k.handOut.map (fun q => (q.1, q.2.1)) = some (0, 4) := by decide +kernel

theorem witness_TaskEvents :
    let s : State := { world State.reset with tasks := [readyTask, { readyTask with level := 3 }], cyc := 2 ^ 20 }
    let t : State := { s with harts := [{ Hart.stobry with task := some 1 }] }
    s.tasks ≠ [] ∧ s.nextReady = some 0 ∧ s.dispatch.isSome = true ∧ s.nextRebind = none ∧ s.ageDue 1 = true ∧ t.level0Due = some 0 ∧ 0 < t.harts.length := by decide +kernel
theorem witness_TaskEvents_publication :
    let s := (world State.reset).setHub 0 { (world State.reset).hub 0 with pubReq := some 0x4700 }
    let held : State := { s with dir := [(0x4700 / 128, .g 0 0)] }
    (s.hub 0).pubReq = some 0x4700 ∧ s.pubWaits 0x4700 = none ∧ held.pubWaits 0x4700 = some (0x4700 / 128) := by decide +kernel
theorem witness_TaskEvents_failure :
    let s : State := { State.reset with tasks := [{ readyTask with st := .running }] }
    (s.tasks.head?.map fun t => (t.ended, t.st)) = some (false, .running) ∧ s.tasks.length = 1 ∧
    (s.harts.all fun x => x.task != some 0 || x.queue.isEmpty) = true ∧ s.imagesOut 0 = false := by decide +kernel

theorem witness_FabricEvents :
    let w : Waiter := { src := 0, cls := 0, num := 1, deps := [], asn := none }
    let s : State := { State.reset with clocks := [(31, { hor := [(0, 1), (1, 1), (2, 1), (3, 1)], quar := [w] })], resync := true }
    (s.clock 31).nextOut s.removed = some w ∧ s.removed.getLsbD 0 = false ∧ s.drained = false ∧ s.resync = true ∧
    2 ^ 24 ≤ ({ s with cyc := 2 ^ 24 }.cyc - s.resyncAt).toNat ∧ (s.clock 31).beatInOrder ⟨0, 5, [0, 0, 0, 0], 0⟩ = true ∧
    4096 ≤ ({ s with cyc := 4096 }.cyc - tget (s.clock 0).sentAt 1 0).toNat ∧
    (State.reset.watch 0 1 (State.reset.clock 24).f).isSome = true := by decide +kernel
theorem witness_FabricEvents_window :
    let s : State := { State.reset with clocks := [(5, { s := 2 ^ 15 })] }
    s.windowOpen 5 = false := by decide +kernel

/-- Firmware that the fuses accept exists whatever they hold (R431). -/
theorem witness_PackageEvents_boots (f : Config.Fuses) :
    let i : Firmware := { keyHash := f.keyHash, signed := true, version := f.counter }
    i.keyHash = f.keyHash ∧ i.signed = true ∧ f.counter ≤ i.version := ⟨rfl, rfl, Nat.le_refl _⟩
theorem witness_DirectoryEvents_grant :
    let s : State := { State.reset with victims := [⟨0, 5, false, none⟩] }
    s.resync = false ∧ s.victims.length = 1 := by decide +kernel
theorem witness_PackageEvents :
    State.reset.inService 23 = true ∧ State.reset.debugOpen = false ∧ 63 ∉ State.reset.deadRails ∧ 0xFF8 % 8 = 0 := by decide +kernel

theorem witness_StepKeepsMemoryCanonical : State.reset.Inv ∧ (match step State.reset with | .next _ => true | _ => false) = true :=
  ⟨by unfold State.Inv; decide +kernel, by decide +kernel⟩

end Sys2Proof.Tests
end

namespace Sys2Proof.Machine

/-! PROOFS of the family 01_device: reset, the configuration registers, management, links, cooling and the loss of a part
(R18 to R21, R320, R326, R424 to R433). -/

/-! Folds over parts of the package, and the hubs. -/

/-- What a step of a fold makes true of the part it names, and no step undoes, holds at the end of every part that was named. -/
theorem foldl_marks {σ : Type} {f : σ → Nat → σ} {P : σ → Nat → Prop} (hit : ∀ s k, P (f s k) k)
    (keep : ∀ s k j, P s j → P (f s k) j) (l : List Nat) (k : Nat) (s : σ) (h : k ∈ l ∨ P s k) : P (l.foldl f s) k := by
  induction l generalizing s with
  | nil => exact h.resolve_left (by simp)
  | cons j r ih =>
    refine ih _ ?_
    rcases h with h | h
    · rcases List.mem_cons.1 h with rfl | h
      · exact .inr (hit s k)
      · exact .inl h
    · exact .inr (keep s j k h)

theorem State.hub_setHub (s : State) (n : Nat) (u : Hub) (hn : n < 8) : (s.setHub n u).hub n = u := by
  simp [State.hub, State.setHub, hn]

theorem State.hub_setHub_ne (s : State) (n k : Nat) (u : Hub) (hk : k ≠ n) : (s.setHub n u).hub k = s.hub k := by
  simp [State.hub, State.setHub, Vector.getElem?_setIfInBounds_ne (Ne.symm hk)]

theorem State.reset_hub (n : Nat) : State.reset.hub n = {} := by
  simp [State.hub, State.reset, Vector.getElem?_replicate]
  split <;> rfl

theorem State.reset_clock (a : Nat) : State.reset.clock a = {} := rfl

/-! Reset. -/

/-- Settles O7: every field is read off `State.reset`, and each hub and each clock is the default one. -/
theorem resetState : Obligations.ResetState := by
  unfold Obligations.ResetState
  exact ⟨rfl, rfl, rfl, rfl, rfl, rfl, rfl, fun n _ => by rw [State.reset_hub], fun _ => rfl, rfl, rfl, rfl, State.reset_clock⟩

/-! A hart that stops. -/

@[simp] theorem State.deliverOut_harts (s : State) (dst n : Nat) : (s.deliverOut dst n).harts = s.harts := by
  induction n generalizing s with
  | zero => rfl
  | succ n ih =>
    simp only [State.deliverOut]
    split
    · rfl
    · rw [ih, State.setClock_harts]

@[simp] theorem State.unread_harts (s : State) (r : Nat) : (s.unread r).harts = s.harts := by
  unfold State.unread
  refine List.foldlRecOn (motive := fun t : State => t.harts = s.harts) _ _ rfl fun t ht p _ => ?_
  rw [State.deliverOut_harts, State.setClock_harts, ht]

@[simp] theorem State.unread_hart (s : State) (r h : Nat) : (s.unread r).hart h = s.hart h := by
  rw [State.hart, State.unread_harts, State.hart]

theorem State.forgetLines_hart (s : State) (h : Nat) (hh : h < s.harts.length) :
    (s.forgetLines h).hart h = { s.hart h with leftAt := none } :=
  s.hart_modHart h (fun x => { x with leftAt := none }) hh

theorem State.forgetLines_hart_ne (s : State) (h k : Nat) (hk : k ≠ h) : (s.forgetLines h).hart k = s.hart k :=
  s.hart_modHart_ne h k (fun x => { x with leftAt := none }) hk

@[simp] theorem State.forgetLines_length (s : State) (h : Nat) : (s.forgetLines h).harts.length = s.harts.length :=
  s.modHart_length h fun x => { x with leftAt := none }

@[simp] theorem State.stopHart_length (s : State) (h : Nat) : (s.stopHart h false).harts.length = s.harts.length := by
  simp [State.stopHart]

theorem State.stopHart_hart (s : State) (h : Nat) (hh : h < s.harts.length) :
    (s.stopHart h false).hart h = { (s.hart h).halt with leftAt := none } := by
  change (((s.modHart h Hart.halt).unread h).forgetLines h).hart h = _
  rw [State.forgetLines_hart _ h (by simpa), State.unread_hart, State.hart_modHart _ _ _ hh]

theorem State.stopHart_hart_ne (s : State) (h k : Nat) (hk : k ≠ h) : (s.stopHart h false).hart k = s.hart k := by
  change (((s.modHart h Hart.halt).unread h).forgetLines h).hart k = _
  rw [State.forgetLines_hart_ne _ h k hk, State.unread_hart, State.hart_modHart_ne _ _ _ _ hk]

/-- Harts that stop one after another all end stopped. -/
theorem State.stopHarts_stopped (s : State) (l : List Nat) (k : Nat) (hl : k ∈ l) (hk : k < s.harts.length) :
    ((l.foldl (fun s h => s.stopHart h false) s).hart k).stopped = true := by
  refine foldl_marks (P := fun t k => k < t.harts.length → (t.hart k).stopped = true) ?_ ?_ l k s (.inl hl) ?_
  · intro t k hk
    rw [t.stopHart_hart k (by simpa using hk)]; rfl
  · intro t k j hj hlen
    rw [State.stopHart_length] at hlen
    by_cases e : j = k
    · subst e; rw [t.stopHart_hart j hlen]; rfl
    · rw [t.stopHart_hart_ne k j e]; exact hj hlen
  · exact List.foldlRecOn (motive := fun t : State => k < t.harts.length) _ _ hk fun t ht h _ => by simpa using ht

/-! The uncontained state (R21). -/

@[simp] theorem State.sendReport_hart (s : State) (h : Nat) : s.sendReport.hart h = s.hart h := rfl
@[simp] theorem State.sendReport_hub (s : State) (n : Nat) : s.sendReport.hub n = s.hub n := rfl

theorem State.faultLow_hart (s : State) (b : Bool) (h : Nat) : ({ s with faultLow := b } : State).hart h = s.hart h := rfl
theorem State.faultLow_hub (s : State) (b : Bool) (n : Nat) : ({ s with faultLow := b } : State).hub n = s.hub n := rfl

theorem State.goFatal_faultLow (s : State) : s.goFatal.faultLow = true := rfl

/-- All harts stop, and no image is written back. -/
def State.stopAll (s : State) : State := (List.range s.harts.length).foldl (fun s h => s.stopHart h false) s

/-- Every hub raises FATAL. -/
def State.raiseFatal (s : State) : State := (List.range 8).foldl (fun s h => s.modHub h fun u => { u with fatal := true }) s

theorem State.goFatal_eq (s : State) : s.goFatal = { s.stopAll.raiseFatal.sendReport with faultLow := true } := rfl

theorem State.raiseFatal_hart (s : State) (h : Nat) : s.raiseFatal.hart h = s.hart h :=
  List.foldlRecOn (motive := fun t : State => t.hart h = s.hart h) _ _ rfl fun _ ht _ _ => ht

theorem State.raiseFatal_fatal (s : State) (n : Nat) (hn : n < 8) : (s.raiseFatal.hub n).fatal = true := by
  refine foldl_marks (P := fun (t : State) n => n < 8 → (t.hub n).fatal = true) ?_ ?_ _ n s (.inl (List.mem_range.2 hn)) hn
  · intro t k hk
    rw [State.modHub, t.hub_setHub k _ hk]
  · intro t k j hj hlt
    by_cases e : j = k
    · subst e; rw [State.modHub, t.hub_setHub j _ hlt]
    · rw [State.modHub, t.hub_setHub_ne k j _ e]; exact hj hlt

theorem State.goFatal_stopped (s : State) (h : Nat) (hh : h < s.harts.length) : (s.goFatal.hart h).stopped = true := by
  rw [s.goFatal_eq, State.faultLow_hart, State.sendReport_hart, State.raiseFatal_hart]
  exact s.stopHarts_stopped _ h (List.mem_range.2 hh) hh

theorem State.goFatal_fatal (s : State) (n : Nat) (hn : n < 8) : (s.goFatal.hub n).fatal = true := by
  rw [s.goFatal_eq, State.faultLow_hub, State.sendReport_hub]
  exact s.stopAll.raiseFatal_fatal n hn

/-! The events of reset, of the configuration blocks and of the parts of the package. -/

section Events
variable (s : State)

theorem bootAccepts_iff (f : Config.Fuses) (i : Firmware) :
    bootAccepts f i = true ↔ i.keyHash = f.keyHash ∧ i.signed = true ∧ f.counter ≤ i.version := by
  simp [bootAccepts, and_assoc]

/-- R431, R432: with links that work and images that the boot ROMs take, the package is usable. -/
theorem exec_packageReset_usable (failed : BitVec 24) (images : BootImages) (hs : bootAccepts s.fuses images.stobry = true)
    (hf : bootAccepts s.fuses images.hubFirmware = true) :
    exec (.packageReset failed false images) s = .next (s.afterReset failed) := by
  change execPackageReset failed false images s = _
  simp [execPackageReset, hs, hf]

theorem State.afterReset_fuses (failed : BitVec 24) : (s.afterReset failed).fuses = s.fuses := by
  unfold State.afterReset
  split <;> rfl

/-- R18, R431: else it is fatal and releases no hart. -/
theorem exec_packageReset_unusable (failed : BitVec 24) (linkFail : Bool) (images : BootImages)
    (h : linkFail = true ∨ ¬ bootAccepts s.fuses images.stobry = true ∨ ¬ bootAccepts s.fuses images.hubFirmware = true) :
    ∃ t, exec (.packageReset failed linkFail images) s = .next t ∧ t.harts = [] ∧ t.faultLow = true ∧ t.fuses = s.fuses := by
  have hc : (linkFail || !bootAccepts s.fuses images.stobry || !bootAccepts s.fuses images.hubFirmware) = true := by
    simpa [or_assoc] using h
  refine ⟨_, if_pos hc, rfl, rfl, ?_⟩
  exact s.afterReset_fuses failed

theorem State.blockWrite_eq (hub off n : Nat) (value : Word) (hh : hub < 8) (ho : off < 4096)
    (hn : n = 1 ∨ n = 2 ∨ n = 4 ∨ n = 8) (ha : off % n = 0) : s.blockWrite hub off n value = s.cfgWrite hub off n value.toNat :=
  if_pos ⟨hh, ho, hn, ha⟩

theorem exec_doorbellWrite (hub : Nat) (mask : BitVec 16) (h : hub = 0 ∨ hub = 4) :
    exec (.doorbellWrite hub mask) s = .next (s.modHub hub fun u => { u with doorbell := u.doorbell ||| mask }) :=
  congrArg _ (if_pos h)

theorem exec_configRegWrite (hub off n : Nat) (value : Word) (hh : hub < 8) (ho : off < 4096)
    (hn : n = 1 ∨ n = 2 ∨ n = 4 ∨ n = 8) (ha : off % n = 0) :
    exec (.configRegWrite hub off n value) s = .next (s.cfgWrite hub off n value.toNat) :=
  congrArg _ (s.blockWrite_eq hub off n value hh ho hn ha)

theorem exec_irqsetWrite (hub : Nat) (h : hub < 8) :
    exec (.irqsetWrite hub) s = .next (s.setHub hub { s.hub hub with notice := true }) :=
  congrArg _ (s.blockWrite_eq hub 0x070 8 0x10 h (by decide) (by decide) (by decide))

theorem exec_memrdyWrite (hub : Nat) (h : hub = 0 ∨ hub = 4) :
    exec (.memrdyWrite hub) s = .next (s.setHub hub { s.hub hub with memrdy := true }) := by
  have e := s.blockWrite_eq hub 0x080 8 1 (by omega) (by decide) (by decide) (by decide)
  refine congrArg _ (e.trans ?_)
  rcases h with rfl | rfl <;> rfl

theorem exec_dieLevelError (die : Nat) (h : s.inService die = true) : exec (.dieLevelError die) s = .next (s.fenceDie die) :=
  congrArg _ (if_pos h)

theorem exec_uncontainedAsnFault (hub : Nat) (asn : BitVec 16) (h : hub < 8) :
    exec (.uncontainedAsnFault hub asn) s = .next (s.asnFault hub asn) :=
  congrArg _ (if_pos h)

theorem exec_debugUnlock (h : s.debugOpen = false) :
    exec (.debugUnlock true) s = .next { s with debugOpen := true, measurement := s.measurement + 1 } :=
  congrArg _ (if_pos (by rw [h]; rfl))

theorem exec_rilrovPortFailure (rail : Nat) (hr : rail < 64) (hd : rail ∉ s.deadRails) :
    exec (.rilrovPortFailure rail) s = .next { s with deadRails := s.deadRails ++ [rail] } :=
  congrArg _ (if_neg (by simp [hd]; omega))

theorem exec_memEnableControlWrite (port : Nat) (on_ : Bool) (h : port < 2) :
    exec (.memEnableControlWrite port on_) s = .next (s.modHub (4 * port) fun u => { u with memEnable := on_ }) :=
  congrArg _ (if_pos h)

/-! Power and cooling (R433). -/

theorem State.stopBudget_rate (die : Nat) : tget (s.stopBudget die).rate die 512 = 0 := tset_get _ _ _ _

theorem State.stopBudget_rate_ne (die d : Nat) (h : d ≠ die) : tget (s.stopBudget die).rate d 512 = tget s.rate d 512 :=
  tset_get_ne _ _ _ _ _ h

theorem State.throttle_rate (die : Nat) :
    tget (s.throttle die).rate die 512 = min (tget s.rate die 512) ((Config.freeValue s.fresh).toNat % 512) := tset_get _ _ _ _

theorem State.stopBudgets_rate (l : List Nat) (d : Nat) (hd : d ∈ l) : tget (l.foldl State.stopBudget s).rate d 512 = 0 := by
  refine foldl_marks (P := fun t d => tget t.rate d 512 = 0) State.stopBudget_rate ?_ l d s (.inl hd)
  intro t k j hj
  by_cases e : j = k
  · subst e; exact t.stopBudget_rate j
  · rw [t.stopBudget_rate_ne k j e, hj]

theorem State.stopBudgets_flowLost (l : List Nat) : (l.foldl State.stopBudget s).flowLost = s.flowLost :=
  List.foldlRecOn (motive := fun t : State => t.flowLost = s.flowLost) _ _ rfl fun _ ht _ _ => ht

theorem exec_lossOfFlow_on :
    ∃ t, exec (.lossOfFlow true) s = .next t ∧ t.flowLost = true ∧ ∀ d, d < 24 → tget t.rate d 512 = 0 :=
  ⟨_, rfl, State.stopBudgets_flowLost _ _, fun d hd => State.stopBudgets_rate _ _ d (List.mem_range.2 hd)⟩

/-- What a temperature of a die does, by its four ranges. -/
theorem exec_junctionTemperature (die c : Nat) (hd : die < 24) :
    let t : State := { s with temps := tset s.temps die c }
    exec (.junctionTemperature die c) s = .next (if 115 ≤ c then (t.stopBudget die).goFatal else
      if 105 ≤ c then t.stopBudget die else if 95 ≤ c then t.throttle die else t) :=
  if_neg (by omega)

theorem exec_junctionTemperature_fatal (die c : Nat) (hd : die < 24) (hc : 115 ≤ c) :
    ∃ t, exec (.junctionTemperature die c) s = .next t ∧ t.faultLow = true := by
  refine ⟨_, exec_junctionTemperature s die c hd, ?_⟩
  rw [if_pos hc]; exact State.goFatal_faultLow _

theorem exec_junctionTemperature_stops (die c : Nat) (hd : die < 24) (h1 : 105 ≤ c) (h2 : c < 115) :
    ∃ t, exec (.junctionTemperature die c) s = .next t ∧ tget t.temps die 0 = c ∧ tget t.rate die 512 = 0 ∧ t.harts = s.harts := by
  refine ⟨_, exec_junctionTemperature s die c hd, ?_⟩
  rw [if_neg (by omega), if_pos h1]
  exact ⟨tset_get _ _ _ _, State.stopBudget_rate _ _, rfl⟩

theorem exec_junctionTemperature_throttles (die c : Nat) (hd : die < 24) (h1 : 95 ≤ c) (h2 : c < 105) :
    ∃ t, exec (.junctionTemperature die c) s = .next t ∧ tget t.temps die 0 = c ∧ tget t.rate die 512 < 512 ∧
      tget t.rate die 512 ≤ tget s.rate die 512 ∧ t.harts = s.harts := by
  refine ⟨_, exec_junctionTemperature s die c hd, ?_⟩
  rw [if_neg (by omega), if_neg (by omega), if_pos h1, State.throttle_rate]
  exact ⟨tset_get _ _ _ _, by omega, Nat.min_le_left _ _, rfl⟩

theorem exec_junctionTemperature_cool (die c : Nat) (hd : die < 24) (hc : c < 95) :
    exec (.junctionTemperature die c) s = .next { s with temps := tset s.temps die c } := by
  rw [exec_junctionTemperature s die c hd, if_neg (by omega), if_neg (by omega), if_neg (by omega)]

end Events

/-- Settles O58: one lemma for each event whose outcome turns on a condition; the others hold by what `exec` is. -/
theorem packageEvents : Obligations.PackageEvents := by
  unfold Obligations.PackageEvents
  intro s
  simp only [← bootAccepts_iff]
  exact ⟨exec_packageReset_usable s, exec_packageReset_unusable s, exec_doorbellWrite s, fun _ => rfl, fun _ => rfl,
    exec_configRegWrite s, exec_irqsetWrite s, exec_memrdyWrite s, exec_dieLevelError s,
    ⟨_, rfl, s.goFatal_faultLow, s.goFatal_stopped, s.goFatal_fatal⟩, exec_uncontainedAsnFault s,
    rfl, rfl, rfl, rfl, rfl, rfl, exec_debugUnlock s, exec_rilrovPortFailure s, exec_lossOfFlow_on s, rfl,
    exec_junctionTemperature_stops s, exec_junctionTemperature_fatal s, exec_junctionTemperature_throttles s,
    exec_junctionTemperature_cool s, exec_memEnableControlWrite s⟩

end Sys2Proof.Machine

namespace Sys2Proof.Machine

/-! PROOFS of the family 02_formats: scalar floating point, vector floating point, and the saturating, narrowing, comparing,
selecting and quantising vector instructions (R30, R31, R98, R116 to R119, R133, R140 to R150). -/

/-! Scalar floating results: the write lands with its flags. -/

/-- A result marked as floating lands as any result does: the mark is read by `landFloats` alone. -/
theorem Hart.scalarResult_float_lands (x : Hart) (n : Nat) (v : Word) (f : BitVec 8) (L : Nat) :
    (x.scalarResult n v f L true).landAll = (x.scalarResult n v f L).landAll := by
  simp only [Hart.scalarResult, Hart.issueWrite, Hart.landAll, List.foldl_append, List.foldl_cons, List.foldl_nil]
  rfl

/-- A fixed-latency floating result completes as a write of its register and its flags. -/
theorem completes_float {s : State} {i : Instr} {o : Fields} {L : Nat} (v : Hart → Word) (fl : Hart → BitVec 8) (n : Nat)
    (h : s.CanRun i o) (hx : exec i s = scalarIssue i o (fun x => x.scalarResult n (v x) (fl x) L true) s) :
    Completes i o s L fun x => (x.setReg n (v s.me.advanced)).orFlags (fl s.me.advanced) := by
  refine completes_scalar _ h hx (fun x hq hc hp => ⟨hq, hc, ?_⟩) ?_
  · simp [Hart.scalarResult, Hart.issueWrite, hp]
  · rw [Hart.scalarResult_float_lands, Hart.scalarResult_lands s.me.advanced h.settled]

/-- A variable-latency floating result is written at once, and its flags with it. -/
theorem completes_floatVar {s : State} {i : Instr} {o : Fields} (v : Hart → Word) (fl : Hart → BitVec 8) (n : Nat)
    (h : s.CanRun i o) (hx : exec i s = scalarIssue i o (fun x => (x.varResult n (v x)).orFlags (fl x)) s) :
    Completes i o s 0 fun x => (x.setReg n (v s.me.advanced)).orFlags (fl s.me.advanced) := by
  refine completes_scalar _ h hx (fun x hq hc hp => ?_) ?_
  · rw [Hart.varResult_lands x hp]; simp [hq, hc, hp]
  · rw [Hart.varResult_lands s.me.advanced h.settled, Hart.landAll_nil]
    rw [Hart.orFlags_pend, Hart.setReg_pend]; exact h.settled

/-- Settles O17: each instruction issues one floating result, of a fixed latency or, for FDIV and FSQRT, of a variable one; the
issue advances the PC alone, so its sources and FCSR.RM are those of the hart before it. -/
theorem scalarFloat : Obligations.ScalarFloat := by
  unfold Obligations.ScalarFloat
  intro s o
  refine ⟨?fadd, ?fsub, ?fmul, ?ffma, ?fdiv, ?fsqrt, ?fmin, ?fmax, ?fcvt⟩
  case fdiv | fsqrt => exact fun h => completes_floatVar _ _ _ h rfl
  all_goals exact fun h => completes_float _ _ _ h rfl

/-! What a vector or mask result leaves of the hart. -/

/-- A vector result changes the vector registers alone (R88). -/
theorem Hart.setElems_eq (x : Hart) (k n vl : Nat) (f : Nat → Option Nat) :
    x.setElems k n vl f = { x with v := (x.setElems k n vl f).v } := by
  unfold Hart.setElems
  exact List.foldlRecOn _ _ (motive := fun y : Hart => y = { x with v := y.v }) rfl fun y hy j _ => by rw [hy]; rfl

/-- A mask result changes the mask registers alone (R89). -/
theorem Hart.setMaskBits_eq (x : Hart) (k vl : Nat) (f : Nat → Bool) :
    x.setMaskBits k vl f = { x with m := (x.setMaskBits k vl f).m } := by
  unfold Hart.setMaskBits
  exact List.foldlRecOn _ _ (motive := fun y : Hart => y = { x with m := y.m }) rfl fun y hy j _ => by rw [hy]; rfl

/-! Performances on the hart's registers that are done. -/

/-- A performance on the hart's registers that ends without a fault or a stop and leaves the queue, outstanding results and
poison. -/
def HRes.DoneOn (r : HRes) (x : Hart) : Prop := (∃ y f v, r = .done y f v) ∧ r.Keeps x

/-- A performance that changes vector and mask registers alone. -/
theorem HRes.DoneOn.of_eq {x y : Hart} (h : ∃ v m, y = { x with v := v, m := m }) (f : BitVec 8) (r : Option Word) :
    (HRes.done y f r).DoneOn x := by
  obtain ⟨v, m, rfl⟩ := h
  refine ⟨⟨_, _, _, rfl⟩, fun z f' v' hz => ?_⟩
  cases hz
  exact ⟨rfl, rfl, rfl⟩

theorem setElems_doneOn (x : Hart) (k n vl : Nat) (g : Nat → Option Nat) (f : BitVec 8) :
    (HRes.done (x.setElems k n vl g) f none).DoneOn x := .of_eq ⟨_, _, x.setElems_eq k n vl g⟩ f none

theorem mapElems_doneOn (e : QEntry) (o : Fields) (x : Hart) (n : Nat) (f : Nat → FRes) : (mapElems e o x n f).DoneOn x :=
  setElems_doneOn ..

/-- A comparison writes a mask group, or nothing where VSTART is at or above VL (R96, R141). -/
theorem setMaskBits_doneOn (c : Prop) [Decidable c] (x : Hart) (k vl : Nat) (g : Nat → Bool) (f : BitVec 8) :
    (if c then HRes.done x 0 none else .done (x.setMaskBits k vl g) f none).DoneOn x := by
  split
  · exact .of_eq ⟨_, _, rfl⟩ 0 none
  · exact .of_eq ⟨_, _, x.setMaskBits_eq k vl g⟩ f none

/-- VFQNT writes the codes and, unless they are given, the scales: two writes of vector registers (R148). -/
theorem perfVfqnt_doneOn (e : QEntry) (o : Fields) (x : Hart) : (perfVfqnt e o x).DoneOn x := by
  unfold perfVfqnt
  dsimp only
  refine .of_eq ?_ _ _
  split
  · exact ⟨_, _, x.setElems_eq ..⟩
  · rw [Hart.setElems_eq, x.setElems_eq]
    exact ⟨_, _, rfl⟩

/-- Where VFDQNT meets no reserved code it is element-wise (R149). -/
theorem perfVfdqnt_of_none {e : QEntry} {o : Fields} {x : Hart} (h : vfdqntStop e o x = none) :
    perfVfdqnt e o x = mapElems e o x 32 fun i =>
      dequant o.w.toNat (x.velem e.vb (scaleBits o.w.toNat) (i / blockSize o.w.toNat)) (x.velem e.va 8 i) := by
  simp only [perfVfdqnt, h]

/-- Only MXI8 has reserved codes (R30). -/
theorem vfdqntStop_of_ne {o : Fields} (h : o.w.toNat ≠ 14) (e : QEntry) (x : Hart) : vfdqntStop e o x = none := by
  rw [vfdqntStop, if_neg h]

theorem perfVfdqnt_keeps (e : QEntry) (o : Fields) (x : Hart) : (perfVfdqnt e o x).Keeps x := by
  cases h : vfdqntStop e o x with
  | none => rw [perfVfdqnt_of_none h]; exact (mapElems_doneOn ..).2
  | some p =>
    intro y f v hy
    simp only [perfVfdqnt, h] at hy
    cases hy

/-! Queued instructions whose performance is always done. -/

/-- A queued instruction that changes only its hart completes where its performance is done on every hart. -/
theorem performs_of {s : State} {i : Instr} {o : Fields} {check : Fields → Hart → Option PushIll}
    {perf : QEntry → Fields → Hart → HRes} (hx : exec i s = vecIssue i o check s) (hi : ∀ o, i ≠ .endI o)
    (hv : retiresEmpty i = false)
    (hr : ∀ t, performRaw none (s.entry i o) s.cur t = (perf (s.entry i o) o (t.hart s.cur)).lift t s.cur)
    (hd : ∀ e x, (perf e o x).DoneOn x) : Performs i o s check perf := fun h =>
  have hdone : s.isDone i o perf := (hd _ _).1
  ⟨hdone, performsIfDone_of hx hi hv (hr _) (fun x => (hd _ x).2) h hdone⟩

/-- An element-wise instruction completes. -/
theorem performs_elems {s : State} {i : Instr} {o : Fields} {check : Fields → Hart → Option PushIll} {n : Nat}
    {y : QEntry → Hart → Nat → FRes} (hx : exec i s = vecIssue i o check s) (hi : ∀ o, i ≠ .endI o)
    (hv : retiresEmpty i = false)
    (hr : ∀ t, performRaw none (s.entry i o) s.cur t =
      (mapElems (s.entry i o) o (t.hart s.cur) n (y (s.entry i o) (t.hart s.cur))).lift t s.cur) :
    Performs i o s check fun e o x => mapElems e o x n (y e x) :=
  performs_of hx hi hv hr fun e x => mapElems_doneOn e o x n (y e x)

/-- Settles O28: every instruction but VFCMP is element-wise, and VFCMP writes a mask group. -/
theorem vectorFloat : Obligations.VectorFloat := by
  unfold Obligations.VectorFloat
  intro s o
  refine ⟨?vfadd, ?vfsub, ?vfmul, ?vfma, ?vfnma, ?vfdiv, ?vfsqrt, ?vfexp, ?vfmin, ?vfmax, ?vfclass, ?vfamax, ?vfcvt, ?vfscale,
    ?vfsgn, ?vfcmp⟩
  case vfscale | vfsgn => exact performs_of rfl nofun rfl (fun _ => rfl) fun e x => mapElems_doneOn ..
  case vfcmp => exact performs_of rfl nofun rfl (fun _ => rfl) fun e x => setMaskBits_doneOn ..
  all_goals exact performs_elems rfl nofun rfl fun _ => rfl

/-! Elements of a wide value, and the bits of a mask group. -/

/-- Element i of a list of elements below a remainder r. -/
theorem elem_packElems (n : Nat) (l : List Nat) (r i : Nat) (hi : i < l.length) :
    elem n (packElems n l + 2 ^ (n * l.length) * r) i = l[i] % 2 ^ n := by
  induction l generalizing i with
  | nil => simp at hi
  | cons x xs ih =>
    have hs : packElems n (x :: xs) + 2 ^ (n * (x :: xs).length) * r =
        x % 2 ^ n + 2 ^ n * (packElems n xs + 2 ^ (n * xs.length) * r) := by
      simp only [packElems, List.length_cons]; ring
    rw [hs, elem]
    cases i with
    | zero => simp
    | succ i =>
      have hdiv : (x % 2 ^ n + 2 ^ n * (packElems n xs + 2 ^ (n * xs.length) * r)) / 2 ^ n =
          packElems n xs + 2 ^ (n * xs.length) * r := by
        rw [Nat.add_mul_div_left _ _ (by positivity), Nat.div_eq_of_lt (Nat.mod_lt _ (by positivity)), Nat.zero_add]
      rw [show n * (i + 1) = n + n * i by ring, pow_add, ← Nat.div_div_eq_div_mul, hdiv]
      exact ih i (by simpa using hi)

/-- An updated element is what f gives, and the old one where it gives none. -/
theorem elem_updateElems (n vl old : Nat) (f : Nat → Option Nat) (i : Nat) (hi : i < vl) :
    elem n (updateElems n vl old f) i = (f i).getD (elem n old i) % 2 ^ n := by
  have h := elem_packElems n ((List.range vl).map fun i => (f i).getD (elem n old i)) (old / 2 ^ (n * vl)) i (by simpa using hi)
  simpa [updateElems] using h

theorem testBit_eq_elem (z i : Nat) : z.testBit i = decide (elem 1 z i = 1) := by
  rw [Nat.testBit_eq_decide_div_mod_eq, elem, Nat.one_mul, pow_one]

theorem Hart.setMreg_mreg (x : Hart) (n : Nat) (y : MReg) (hn : n < 8) : (x.setMreg n y).mreg n = y := by
  simp [Hart.mreg, Hart.setMreg, hn]

theorem Hart.setMreg_mreg_ne (x : Hart) (n k : Nat) (y : MReg) (hk : k ≠ n) : (x.setMreg n y).mreg k = x.mreg k := by
  simp [Hart.mreg, Hart.setMreg, Vector.getElem?_setIfInBounds_ne (Ne.symm hk)]

/-- Register j of the mask group at k once bits 0 to vl - 1 of the group are written from f. -/
def Hart.maskWritten (x : Hart) (k vl : Nat) (f : Nat → Bool) (j : Nat) : MReg :=
  BitVec.ofNat 512 (updateElems 1 (min 512 (vl - 512 * j)) (x.mreg (k + j)).toNat fun i =>
    some (if f (512 * j + i) then 1 else 0))

/-- Every register of the group that holds bits below vl is written. -/
theorem Hart.setMaskBits_mreg (x : Hart) (k vl : Nat) (f : Nat → Bool) (j : Nat) (hj : j < (vl + 511) / 512) (hk : k + j < 8) :
    (x.setMaskBits k vl f).mreg (k + j) = x.maskWritten k vl f j := by
  refine foldl_marks (f := fun y j => y.setMreg (k + j) (x.maskWritten k vl f j))
    (P := fun y j => k + j < 8 → y.mreg (k + j) = x.maskWritten k vl f j)
    (fun y j hk => ?hit) (fun y j l hl hk => ?keep) _ j x (.inl (List.mem_range.2 hj)) hk
  case hit => exact Hart.setMreg_mreg y _ _ hk
  case keep =>
    by_cases hjl : j = l
    · subst hjl
      exact Hart.setMreg_mreg y _ _ hk
    · rw [Hart.setMreg_mreg_ne y _ _ _ (by omega)]
      exact hl hk

/-- A written bit is what f gives. -/
theorem Hart.maskWritten_getLsbD (x : Hart) (k vl : Nat) (f : Nat → Bool) (j i : Nat) (hi : i < 512) (hv : 512 * j + i < vl) :
    (x.maskWritten k vl f j).getLsbD i = f (512 * j + i) := by
  rw [Hart.maskWritten, BitVec.getLsbD_ofNat, testBit_eq_elem, elem_updateElems _ _ _ _ _ (by omega)]
  cases f (512 * j + i) <;> simp [hi]

/-- A bit of a mask group below vl is what f gives (R89, R141). -/
theorem Hart.setMaskBits_maskBit (x : Hart) (k vl : Nat) (f : Nat → Bool) (hk : k + (vl + 511) / 512 ≤ 8) (i : Nat) (hi : i < vl) :
    (x.setMaskBits k vl f).maskBit k i = f i := by
  rw [Hart.maskBit, x.setMaskBits_mreg k vl f _ (by omega) (by omega),
    x.maskWritten_getLsbD k vl f _ _ (Nat.mod_lt _ (by decide)) (by omega), Nat.div_add_mod]

/-! Comparison and quantisation. -/

/-- VCMP with VSTART at or above VL has no effect (R96). -/
theorem perfVcmp_of_le {e : QEntry} {x : Hart} (o : Fields) (h : e.vl ≤ x.vstart.toNat) : perfVcmp e o x = .done x 0 none := by
  simp only [perfVcmp, if_pos h]

/-- VCMP writes bit i of its mask group with the condition of an active element, and 0 for an inactive one (R141). -/
theorem perfVcmp_maskBit {e : QEntry} {o : Fields} {x y : Hart} {f : BitVec 8} {v : Option Word} (hs : x.vstart.toNat < e.vl)
    (hm : o.d.toNat + (e.vl + 511) / 512 ≤ 8) (i : Nat) (hi : i < e.vl) (h : perfVcmp e o x = .done y f v) :
    f = 0 ∧ v = none ∧ y.maskBit o.d.toNat i = (activeAt e o x i &&
      intCond (o.f.toNat % 16) (intVal o.w.toNat (x.velem e.va (typeBits o.w.toNat) i))
        (intVal o.w.toNat (srcbAt e o x o.w.toNat (typeBits o.w.toNat) i))) := by
  simp only [perfVcmp, if_neg (Nat.not_le.2 hs)] at h
  cases h
  exact ⟨rfl, rfl, x.setMaskBits_maskBit _ _ _ hm i hi⟩

/-- VFDQNT completes wherever no active element meets a reserved code. -/
theorem vfdqnt_performsIfDone (s : State) (o : Fields) : PerformsIfDone (.vfdqnt o) o s checkVfdqnt perfVfdqnt :=
  performsIfDone_of rfl nofun rfl rfl (perfVfdqnt_keeps _ o)

/-- VFDQNT of a format without reserved codes is element-wise and completes always. -/
theorem vfdqnt_performs (s : State) (o : Fields) (hw : o.w.toNat ≠ 14) :
    Performs (.vfdqnt o) o s checkVfdqnt perfVfdqnt :=
  performs_of rfl nofun rfl (fun _ => rfl) fun e x => by
    rw [perfVfdqnt_of_none (vfdqntStop_of_ne hw e x)]; exact mapElems_doneOn ..

/-- Settles O27: VSADD, VSSUB and VNSHR are element-wise, VSEL and VFQNT write vector registers and VCMP a mask group, and
VFDQNT is element-wise where no reserved code stops it. -/
theorem vectorNarrowing : Obligations.VectorNarrowing := by
  unfold Obligations.VectorNarrowing
  refine ⟨fun s o => ⟨?vsadd, ?vssub, ?vnshr, ?vcmp, ?vsel, ?noEffect, ?bits⟩,
    fun s o => ⟨?vfqnt, vfdqnt_performsIfDone s o, vfdqnt_performs s o, ?unstopped⟩⟩
  case vsadd | vssub | vnshr => exact performs_of rfl nofun rfl (fun _ => rfl) fun e x => mapElems_doneOn ..
  case vcmp => exact performs_of rfl nofun rfl (fun _ => rfl) fun e x => setMaskBits_doneOn ..
  case vsel => exact performs_of rfl nofun rfl (fun _ => rfl) fun e x => setElems_doneOn ..
  case noEffect => exact fun e x h => perfVcmp_of_le o h
  case bits => exact fun e x hs _ hm i hi y f v h => perfVcmp_maskBit hs hm i hi h
  case vfqnt => exact performs_of rfl nofun rfl (fun _ => rfl) fun e x => perfVfqnt_doneOn e o x
  case unstopped => exact fun e x h => ⟨_, _, perfVfdqnt_of_none h⟩

end Sys2Proof.Machine


namespace Sys2Proof

/-! PROOFS of the family 03_encoding: the word and its fields, the checks at issue, traps, and the scalar instructions that only
move bits (R51, R55, R61 to R72, R112 to R126). -/

/-! The word and its fields (R51). -/

theorem grpOf_packWord {g : Nat} (op : Nat) (o : Fields) (hg : g < 16) : grpOf (packWord g op o) = g := by
  have h : (packWord g op o).extractLsb' 92 4 = BitVec.ofNat 4 g := by
    simp (disch := decide) only [packWord, BitVec.extractLsb'_append_eq_of_le, Nat.reduceSub, BitVec.extractLsb'_eq_self]
  rw [grpOf, h, BitVec.toNat_ofNat, Nat.mod_eq_of_lt (by omega)]

theorem opOf_packWord (g : Nat) {op : Nat} (o : Fields) (hop : op < 64) : opOf (packWord g op o) = op := by
  have h : (packWord g op o).extractLsb' 86 6 = BitVec.ofNat 6 op := by
    simp (disch := decide) only [packWord, BitVec.extractLsb'_append_eq_of_le, BitVec.extractLsb'_append_eq_of_add_le,
      Nat.reduceSub, BitVec.extractLsb'_eq_self]
  rw [opOf, h, BitVec.toNat_ofNat, Nat.mod_eq_of_lt (by omega)]

/-- A field of one bit is read as a field of width 1. -/
theorem ofBool_getLsbD_eq_extractLsb' (x : BitVec 96) (k : Nat) : BitVec.ofBool (x.getLsbD k) = x.extractLsb' k 1 := by
  ext i hi
  obtain rfl : i = 0 := by omega
  simp

theorem fieldsOf_packWord (g op : Nat) (o : Fields) : fieldsOf (packWord g op o) = o := by
  simp (disch := decide) only [fieldsOf, packWord, BitVec.getLsbD_append, BitVec.extractLsb'_append_eq_of_le,
    BitVec.extractLsb'_append_eq_of_add_le, Nat.reduceSub, BitVec.extractLsb'_eq_self, Nat.reduceLT, if_false, if_true]
  simp

/-- The fields of a word, side by side, are the word. -/
theorem packWord_fieldsOf (x : BitVec 96) : packWord (grpOf x) (opOf x) (fieldsOf x) = x := by
  simp (disch := decide) only [packWord, grpOf, opOf, fieldsOf, BitVec.ofNat_toNat, BitVec.setWidth_eq,
    ofBool_getLsbD_eq_extractLsb', BitVec.extractLsb'_append_extractLsb'_eq_extractLsb', BitVec.extractLsb'_eq_self]

/-! The opcode map and the instruction's own place in it (R73). -/

section Forms
variable (o : Fields)

theorem formPmov_parts : (formPmov o).parts = some (1, 11, o) := by unfold formPmov; (repeat' split) <;> rfl
theorem formCall_parts : (formCall o).parts = some (2, 2, o) := by unfold formCall; (repeat' split) <;> rfl
theorem formYield_parts : (formYield o).parts = some (2, 11, o) := by unfold formYield; (repeat' split) <;> rfl
theorem formVslidein_parts : (formVslidein o).parts = some (5, 2, o) := by unfold formVslidein; (repeat' split) <;> rfl
theorem formVred_parts : (formVred o).parts = some (5, 10, o) := by unfold formVred; (repeat' split) <;> rfl
theorem formFclear_parts : (formFclear o).parts = some (6, 15, o) := by unfold formFclear; (repeat' split) <;> rfl
theorem formMzero_parts : (formMzero o).parts = some (7, 4, o) := by unfold formMzero; (repeat' split) <;> rfl
theorem formCbinv_parts : (formCbinv o).parts = some (8, 13, o) := by unfold formCbinv; (repeat' split) <;> rfl
theorem formFence_parts : (formFence o).parts = some (8, 14, o) := by unfold formFence; (repeat' split) <;> rfl
theorem formColl_parts : (formColl o).parts = some (10, 9, o) := by unfold formColl; (repeat' split) <;> rfl
theorem formClbinv_parts : (formClbinv o).parts = some (11, 0, o) := by unfold formClbinv; (repeat' split) <;> rfl
theorem formViewsync_parts : (formViewsync o).parts = some (11, 3, o) := by unfold formViewsync; (repeat' split) <;> rfl
theorem formViewstat_parts : (formViewstat o).parts = some (11, 4, o) := by unfold formViewstat; (repeat' split) <;> rfl
theorem formMtlbinv_parts : (formMtlbinv o).parts = some (11, 5, o) := by unfold formMtlbinv; (repeat' split) <;> rfl
theorem formBiasset_parts : (formBiasset o).parts = some (11, 7, o) := by unfold formBiasset; (repeat' split) <;> rfl
theorem formFrecinv_parts : (formFrecinv o).parts = some (11, 8, o) := by unfold formFrecinv; (repeat' split) <;> rfl

/-- The entries of the opcode map, group by group, make instructions of their own GRP and OP. -/
theorem opGroups_parts : opGroups.map (List.map fun f => (f o).parts) =
    [27, 12, 14, 25, 18, 25, 16, 8, 15, 9, 17, 9, 9].zipIdx.map fun p => (List.range p.1).map fun op => some (p.2, op, o) := by
  simp only [opGroups, opGroupFloat, opGroupControl, opGroupPermute, opGroupFibre, opGroupMatrix, opGroupMemory, opGroupQueue,
    opGroupTable, List.map_cons, formPmov_parts, formCall_parts, formYield_parts, formVslidein_parts, formVred_parts, formFclear_parts, formMzero_parts, formCbinv_parts, formFence_parts, formColl_parts, formClbinv_parts, formViewsync_parts, formViewstat_parts, formMtlbinv_parts, formBiasset_parts, formFrecinv_parts]
  rfl

end Forms

theorem parts_of_mkInstr {g op : Nat} {o : Fields} {i : Instr} (h : mkInstr g op o = some i) : i.parts = some (g, op, o) := by
  unfold mkInstr at h
  split at h
  · next ops hg =>
    obtain ⟨f, hf, rfl⟩ := Option.map_eq_some_iff.1 h
    have hp := congrArg (fun l => l[g]?.bind (·[op]?)) (opGroups_parts o)
    simp only [List.getElem?_map, List.getElem?_zipIdx, hg, hf, Option.map_some, Option.bind_some, Option.map_map] at hp
    obtain ⟨l, hl, hk⟩ := Option.bind_eq_some_iff.1 hp.symm
    obtain ⟨n, -, rfl⟩ := Option.map_eq_some_iff.1 hl
    obtain ⟨k, hr, hv⟩ := Option.map_eq_some_iff.1 ((List.getElem?_map ..).symm.trans hk)
    obtain ⟨_, rfl⟩ := List.getElem?_eq_some_iff.1 hr
    rw [← hv, List.getElem_range, Nat.zero_add]
  · cases h

theorem grp_lt_of_mkInstr {g op : Nat} {o : Fields} {i : Instr} (h : mkInstr g op o = some i) : g < 13 := by
  by_contra hg
  rw [mkInstr, List.getElem?_eq_none (Nat.not_lt.1 hg)] at h
  cases h

theorem length_le_of_mem_opGroups : ∀ ops ∈ opGroups, ops.length ≤ 64 := by decide

theorem op_lt_of_mkInstr {g op : Nat} {o : Fields} {i : Instr} (h : mkInstr g op o = some i) : op < 64 := by
  unfold mkInstr at h
  split at h
  · next ops hg =>
    obtain ⟨f, hf, -⟩ := Option.map_eq_some_iff.1 h
    obtain ⟨hop, -⟩ := List.getElem?_eq_some_iff.1 hf
    exact hop.trans_le (length_le_of_mem_opGroups ops (List.mem_of_getElem? hg))
  · cases h

/-! Decoding and encoding (R62, R64). -/

theorem wellFormed_iff {i : Instr} :
    WellFormed i ↔ ∃ g op o, i.parts = some (g, op, o) ∧ mkInstr g op o = some i ∧ (shape i).fail o = none := by
  unfold WellFormed Instr.wf
  rcases i.parts with - | ⟨g, op, o⟩
  · simp
  · simp [and_comm]

/-- A word decodes to the instruction that the map gives for it and that passes checks 3 to 13. -/
theorem decode_ok_iff {x : BitVec 96} {i : Instr} :
    decode x = .ok i ↔ mkInstr (grpOf x) (opOf x) (fieldsOf x) = some i ∧ (shape i).fail (fieldsOf x) = none := by
  unfold decode
  split
  · next hg => exact ⟨nofun, fun h => absurd (grp_lt_of_mkInstr h.1) (Nat.not_lt.2 hg)⟩
  · split
    · next hm => simp [hm]
    · next j hm =>
      rw [hm]
      split
      · next e hf => exact ⟨nofun, by rintro ⟨⟨⟩, h⟩; simp [h] at hf⟩
      · next hf => exact ⟨fun h => by cases h; exact ⟨rfl, hf⟩, fun h => by cases h.1; rfl⟩

/-- Settles O1: the fields of the packed word are those packed, and the map gives back the instruction from them. -/
theorem decodeEncode : Obligations.DecodeEncode := by
  unfold Obligations.DecodeEncode
  intro i hi
  obtain ⟨g, op, o, hp, hm, hf⟩ := wellFormed_iff.1 hi
  refine ⟨packWord g op o, by rw [encode, hp]; rfl, decode_ok_iff.2 ?_⟩
  rw [grpOf_packWord op o (by have := grp_lt_of_mkInstr hm; omega), opOf_packWord g o (op_lt_of_mkInstr hm), fieldsOf_packWord]
  exact ⟨hm, hf⟩

/-- Settles O2: the map's instruction has the word's own GRP, OP and fields, which pack to the word. -/
theorem encodeDecode : Obligations.EncodeDecode := by
  unfold Obligations.EncodeDecode
  intro x i hx
  obtain ⟨hm, hf⟩ := decode_ok_iff.1 hx
  have hp := parts_of_mkInstr hm
  refine ⟨wellFormed_iff.2 ⟨_, _, _, hp, hm, hf⟩, ?_⟩
  rw [encode, hp, Option.map_some, packWord_fieldsOf]

/-- Settles O3: checks 1 and 2 come first, on GRP and OP alone. -/
theorem unassignedRefused : Obligations.UnassignedRefused := by
  unfold Obligations.UnassignedRefused
  intro x
  refine ⟨fun hg => if_pos hg, fun hg hm => ?_⟩
  rw [decode, if_neg (show ¬ opGroups.length ≤ grpOf x from Nat.not_le.2 (Nat.lt_succ_of_le hg)), hm]

/-- Settles O4. -/
theorem specWordsDecode : Obligations.SpecWordsDecode := by
  unfold Obligations.SpecWordsDecode
  decide

end Sys2Proof

namespace Sys2Proof.Machine

/-! What an instruction meets before its effect: an illegal word, its privilege and its guard (R55, R62, R63). -/

/-- Settles O5: with no join outstanding and no vector fault at the head of the queue, the handler is entered at once. -/
theorem illegalWordTraps : Obligations.IllegalWordTraps := by
  unfold Obligations.IllegalWordTraps
  intro s t h x f v hf hd hj hq
  have he : t.raise h (s.hart h).pc (fun u => u.takeTrap h ⟨causeILLEGAL, BitVec.ofNat 64 (f + 256 * v.toNat), 0, 0⟩ (s.hart h).pc) =
      .next (t.takeTrap h ⟨causeILLEGAL, BitVec.ofNat 64 (f + 256 * v.toNat), 0, 0⟩ (s.hart h).pc) := by
    simp [State.raise, hj, hq]
  simpa [State.runInstr, hf, hd, State.illegal] using he

/-- A guarded-off instruction leaves the begun state, but for a count. -/
theorem State.passed_settled (t : State) (h : Nat) (i : Instr) (o : Fields) (hp : (t.hart h).pend = []) :
    t.passed h i o = t.countIssue (t.hart h).coreNo i := by
  rw [State.passed, State.modHart_self _ _ _ (Hart.pass_settled _ _ hp)]

theorem State.countIssue_hart (t : State) (c : Nat) (i : Instr) (k : Nat) : (t.countIssue c i).hart k = t.hart k :=
  State.countCore_hart ..

/-- Settles O9: an issue with its guard 0 advances the PC and counts. -/
theorem guardedOff : Obligations.GuardedOff := by
  unfold Obligations.GuardedOff
  intro i g op o s hi h hg ha
  obtain ⟨body, hx⟩ := exec_issue hi
  have hp : (s.begun.hart s.cur).pend = [] := by rw [State.begun_me h]; exact h.settled
  have hm : (s.begun.passed s.cur i o).me = s.me.advanced := by
    rw [State.passed_settled _ _ _ _ hp]
    exact (State.countIssue_hart ..).trans (State.begun_me h)
  refine ⟨_, (hx s).trans (issue_skip h hg ha body), ?_, fun _ => ?_, ?_⟩
  · rw [hm, Hart.landAll_nil s.me.advanced h.settled]; rfl
  · rw [hm]; exact h.settled
  · rw [State.passed_settled _ _ _ _ hp]
    exact (State.SameOutside.start s).countCore _ _ _

/-- Settles O10: the privilege is checked before the guard is read, and the handler is entered at once from an empty queue. -/
theorem privilegeTraps : Obligations.PrivilegeTraps := by
  unfold Obligations.PrivilegeTraps
  intro i g op o s hi h hn hs
  obtain ⟨body, hx⟩ := exec_issue hi
  rw [TrapsWith, hx, issue_priv hn hs, finish_trap _ _ _ _ (by rw [State.begun_me h]; exact h.empty)]
  rfl

/-! Trap entry (R124). What a hub does for an access changes no hart and no byte of memory. -/

/-- t has the harts and the memory of s. -/
structure State.SameStore (s t : State) : Prop where
  harts : t.harts = s.harts
  mem : t.mem = s.mem

namespace State.SameStore
variable {s t u : State}

theorem refl (s : State) : s.SameStore s := ⟨rfl, rfl⟩
theorem trans (h : s.SameStore t) (k : t.SameStore u) : s.SameStore u := ⟨k.harts.trans h.harts, k.mem.trans h.mem⟩

theorem foldl {α : Type} {f : State → α → State} (hf : ∀ (t : State) a, t.SameStore (f t a)) (l : List α) (s : State) :
    s.SameStore (l.foldl f s) :=
  List.foldlRecOn l f (motive := s.SameStore) (refl s) fun t ht a _ => ht.trans (hf t a)

theorem hart (h : s.SameStore t) (k : Nat) : t.hart k = s.hart k := by rw [State.hart, h.harts, State.hart]

theorem exchange (s : State) (a d : Nat) (asn : Option (BitVec 16)) : s.SameStore (s.exchange a d asn) :=
  ⟨by simp [State.exchange], by simp [State.exchange]⟩

theorem askHomes (s : State) (hub : Nat) (homes : List Nat) : s.SameStore (s.askHomes hub homes) :=
  foldl (fun t _ => exchange t _ _ _) _ s

theorem hbmUse (s : State) (hub : Nat) : s.SameStore (s.hbmUse hub) := by
  unfold State.hbmUse; split <;> exact ⟨rfl, rfl⟩

theorem leaveHolds (s : State) (r : Nat) (keys : List Nat) : s.SameStore (s.leaveHolds r keys) := by
  unfold State.leaveHolds; split <;> exact ⟨rfl, rfl⟩

theorem countHub (s : State) (hub code n : Nat) : s.SameStore (s.countHub hub code n) := ⟨rfl, rfl⟩

theorem keepAsn (s : State) (hub : Nat) (asn : BitVec 16) (x : Nat) : s.SameStore (s.keepAsn hub asn x) := by
  unfold State.keepAsn; dsimp only; split <;> exact ⟨rfl, rfl⟩

theorem noteAsn (s : State) (asn : BitVec 16) (va : Nat) : s.SameStore (s.noteAsn asn va) := by
  unfold State.noteAsn
  split
  · exact keepAsn ..
  · exact refl _

theorem noteWalk (s : State) (asn : BitVec 16) (va : Nat) : s.SameStore (s.noteWalk asn va) := by
  unfold State.noteWalk
  dsimp only
  refine .trans ?_ (noteAsn ..)
  have reads (hub : Nat) (homes : List Nat) (r : Nat) (keys : List Nat) :
      s.SameStore ((homes.foldl State.hbmUse (s.askHomes hub homes)).leaveHolds r keys) :=
    ((askHomes s hub homes).trans (foldl hbmUse homes _)).trans (leaveHolds ..)
  split
  · exact reads ..
  · exact (reads ..).trans (countHub ..)

theorem noteFault (s : State) (w : FaultBy) (t : Trap) (pages : List FaultPage) : s.SameStore (s.noteFault w t pages) := by
  have note (u : State) (a : Nat) : u.SameStore (if a < 2 ^ 48 then u.noteWalk w.asn a else u) := by
    split
    · exact noteWalk ..
    · exact refl _
  unfold State.noteFault
  dsimp only
  refine .trans ?_ (foldl (fun u p => note u _) _ _)
  split
  · exact note ..
  · split
    · exact note ..
    · exact refl _

theorem setClock (s : State) (a : Nat) (k : Clock) : s.SameStore (s.setClock a k) := ⟨rfl, rfl⟩

theorem deliverOut (s : State) (dst n : Nat) : s.SameStore (s.deliverOut dst n) := by
  induction n generalizing s with
  | zero => exact refl _
  | succ n ih =>
    simp only [State.deliverOut]
    split
    · exact refl _
    · exact (setClock s _ _).trans (ih _)

theorem unread (s : State) (r : Nat) : s.SameStore (s.unread r) :=
  foldl (fun t _ => (setClock t _ _).trans (deliverOut ..)) _ s

end State.SameStore

theorem State.endHolds_hart (s : State) (h : Nat) (hh : h < s.harts.length) :
    (s.endHolds h).hart h = { s.hart h with heldReads := [] } := by
  unfold State.endHolds
  split
  · next he =>
    rw [State.unread_hart]
    have hr : (s.hart h).heldReads = [] := List.isEmpty_iff.1 (Bool.and_eq_true_iff.1 he).1
    rw [← hr]
  · rw [State.unread_hart]
    exact s.hart_modHart h (fun x => { x with heldReads := [] }) hh

theorem State.endHolds_hart_ne (s : State) (h k : Nat) (hk : k ≠ h) : (s.endHolds h).hart k = s.hart k := by
  unfold State.endHolds
  split
  · rw [State.unread_hart]
  · rw [State.unread_hart]
    exact s.hart_modHart_ne h k (fun x => { x with heldReads := [] }) hk

theorem State.endHolds_length (s : State) (h : Nat) : (s.endHolds h).harts.length = s.harts.length := by
  unfold State.endHolds
  split <;> simp

theorem State.endHolds_mem (s : State) (h : Nat) : (s.endHolds h).mem = s.mem := by
  unfold State.endHolds
  split <;> rw [(SameStore.unread ..).mem]
  rfl

/-- The other harts at a trap. -/
theorem State.takeTrap_hart_ne (s : State) (h k : Nat) (t : Trap) (pc : BitVec 48) (hk : k ≠ h) :
    (s.takeTrap h t pc).hart k = s.hart k := by
  rw [State.takeTrap, State.countCore_hart, State.hart_modHart_ne _ _ _ _ hk, (SameStore.noteFault ..).hart,
    s.endHolds_hart_ne h k hk]

theorem State.takeTrap_hart (s : State) (h : Nat) (t : Trap) (pc : BitVec 48) (hh : h < s.harts.length) :
    (s.takeTrap h t pc).hart h = ({ s.hart h with heldReads := [] } : Hart).scalarTrap t pc := by
  have hn := SameStore.noteFault (s.endHolds h) (s.faulter h) t []
  rw [State.takeTrap, State.countCore_hart, State.hart_modHart _ _ _ (by rw [hn.harts, s.endHolds_length]; exact hh), hn.hart,
    s.endHolds_hart h hh]

theorem State.takeTrap_mem (s : State) (h : Nat) (t : Trap) (pc : BitVec 48) : (s.takeTrap h t pc).mem = s.mem := by
  rw [State.takeTrap, State.countCore_mem, State.modHart_mem, (SameStore.noteFault ..).mem, s.endHolds_mem]

/-- The same hart, holding nothing that its access read at a home. -/
def Hart.dropReads (x : Hart) : Hart := { x with heldReads := [] }

theorem Hart.landOne_dropReads (x : Hart) (w : PendWrite) : x.dropReads.landOne w = (x.landOne w).dropReads := by
  unfold Hart.landOne Hart.setPred Hart.setReg
  split_ifs <;> rfl

theorem Hart.landAll_dropReads (x : Hart) : x.dropReads.landAll = x.landAll.dropReads := by
  unfold Hart.landAll
  exact List.foldl_hom Hart.dropReads (init := { x with pend := [] }) fun y w => y.landOne_dropReads w

theorem Hart.landAll_pend (x : Hart) : x.landAll.pend = [] := Hart.landFold_pend ..

theorem Hart.landOne_traps (x : Hart) (w : PendWrite) : (x.landOne w).traps = x.traps := by
  unfold Hart.landOne Hart.setPred Hart.setReg
  split_ifs <;> rfl

theorem Hart.landAll_traps (x : Hart) : x.landAll.traps = x.traps :=
  List.foldlRecOn _ _ (motive := fun y : Hart => y.traps = x.traps) rfl fun y hy w _ => (y.landOne_traps w).trans hy

/-- Settles O11: the hart lands its writes and takes the trap registers' contents; a hub may note the walk of the address, and
no other hart and no byte of memory changes. -/
theorem trapEntryEffect : Obligations.TrapEntryEffect := by
  unfold Obligations.TrapEntryEffect
  intro s h t pc hh
  have hy : (s.takeTrap h t pc).hart h = (s.hart h).dropReads.scalarTrap t pc := s.takeTrap_hart h t pc hh
  have ht : (s.hart h).dropReads.traps = (s.hart h).landAll.traps := (s.hart h).landAll_traps.symm
  rw [Hart.scalarTrap, Hart.trapEntry, Hart.landAll_dropReads, ht] at hy
  have hp := (s.hart h).landAll_pend
  refine ⟨?contents, ?frame, fun k hk => s.takeTrap_hart_ne h k t pc hk, fun a => by rw [s.takeTrap_mem]⟩
  all_goals rw [hy]; generalize (s.hart h).landAll = x at hp ⊢
  case contents => exact ⟨rfl, rfl, rfl, rfl, rfl, rfl, rfl, rfl, rfl, rfl, rfl, rfl, hp⟩
  case frame => rfl

end Sys2Proof.Machine

namespace Sys2Proof.Machine

/-! Scalar instructions that write a register or a predicate (R112, R113, R115, R118, R120, R121). -/

section Completes
variable {s : State} {i : Instr} {o : Fields} {L : Nat}

/-- A result without flags completes as a write of its register. -/
theorem completes_setReg (v : Hart → Word) (n : Nat) (h : s.CanRun i o)
    (hx : exec i s = scalarIssue i o (fun x => x.scalarResult n (v x) 0 L) s) :
    Completes i o s L fun x => x.setReg n (v s.me.advanced) :=
  (completes_result v (fun _ => 0) n h hx).congr (Hart.orFlags_zero _)

/-- A predicate result without flags completes as a write of its predicate. -/
theorem completes_setPred (v : Hart → Bool) (n : Nat) (h : s.CanRun i o)
    (hx : exec i s = scalarIssue i o (fun x => x.predResult n (v x) 0 L) s) :
    Completes i o s L fun x => x.setPred n (v s.me.advanced) :=
  (completes_pred v (fun _ => 0) n h hx).congr (Hart.orFlags_zero _)

/-- A predicate result marked as floating lands as any result does. -/
theorem Hart.predResult_float_lands (x : Hart) (n : Nat) (b : Bool) (f : BitVec 8) (L : Nat) :
    (x.predResult n b f L true).landAll = (x.predResult n b f L).landAll := by
  simp only [Hart.predResult, Hart.issueWrite, Hart.landAll, List.foldl_append, List.foldl_cons, List.foldl_nil]
  rfl

theorem completes_floatPred (v : Hart → Bool) (fl : Hart → BitVec 8) (n : Nat) (h : s.CanRun i o)
    (hx : exec i s = scalarIssue i o (fun x => x.predResult n (v x) (fl x) L true) s) :
    Completes i o s L fun x => (x.setPred n (v s.me.advanced)).orFlags (fl s.me.advanced) := by
  refine completes_scalar _ h hx (fun x hq hc hp => ⟨hq, hc, ?_⟩) ?_
  · simp [Hart.predResult, Hart.issueWrite, hp]
  · rw [Hart.predResult_float_lands, Hart.predResult_lands s.me.advanced h.settled]

end Completes

/-- Reducing to W twice is reducing once. -/
theorem extWord_wrapNat (w : Nat) (y : Int) : extWord w (wrapNat (typeBits w) y : Nat) = extWord w y := by
  have h : 0 ≤ y % (2 ^ typeBits w : Nat) := Int.emod_nonneg _ (by positivity)
  rw [extWord, extWord, wrapNat, wrapNat, Int.toNat_of_nonneg h, Int.emod_emod_of_dvd _ (dvd_refl _)]

theorem rotateRight_mod (n x k : Nat) :
    rotateRight n (x % 2 ^ n) k = x % 2 ^ n / 2 ^ k + x % 2 ^ n % 2 ^ k * 2 ^ (n - k) := by
  rw [rotateRight, Nat.mod_mod]

/-- Settles O14: each instruction issues one result of latency 1; SRA's, already reduced to W, is what its quotient reduces to. -/
theorem integerPatterns : Obligations.IntegerPatterns := by
  unfold Obligations.IntegerPatterns
  intro s o
  refine ⟨?and, ?or, ?xor, ?andn, ?shl, ?shr, ?sra, ?rotr, ?clz, ?ctz, ?popc, ?brev, ?ext⟩
  case sra => exact fun h => (completes_setReg _ _ h rfl).congr (congrArg _ (extWord_wrapNat ..))
  case rotr =>
    exact fun h => (completes_setReg _ _ h rfl).congr (congrArg (fun y : Nat => s.me.advanced.setReg o.d.toNat (extWord o.w.toNat y)) (rotateRight_mod ..))
  all_goals exact fun h => completes_setReg _ _ h rfl

/-- Settles O15: each instruction issues one result of latency 1. -/
theorem fieldsAndMoves : Obligations.FieldsAndMoves := by
  unfold Obligations.FieldsAndMoves
  intro s o
  refine ⟨?bfx, ?bfi, ?mov, ?lih, ?sel⟩
  all_goals exact fun h => completes_setReg _ _ h rfl

/-- The outstanding write that PMOV.ALL issues for a predicate (R121). -/
def predWrite (v : Nat → Bool) (n : Nat) : PendWrite := ⟨true, n, if v n then 1 else 0, 0, 1, false, false⟩

theorem Hart.landOne_predWrite (x : Hart) (v : Nat → Bool) (n : Nat) : x.landOne (predWrite v n) = x.setPred n (v n) := by
  have hb : (if v n = true then 1 else 0 : Word).getLsbD 0 = v n := by cases v n <;> rfl
  simp only [Hart.landOne, predWrite, hb]
  exact Hart.orFlags_zero _

/-- Predicate results of latency 1, one after another, discard none that is due by then. -/
theorem Hart.predResults_eq (v : Nat → Bool) (l : List Nat) (x : Hart) (h : ∀ w ∈ x.pend, w.left = 1) :
    l.foldl (fun y n => y.predResult n (v n) 0 1) x = { x with pend := x.pend ++ l.map (predWrite v) } := by
  induction l generalizing x with
  | nil => simp
  | cons n r ih =>
    have hk : x.pend.map (discardLater true n 1) = x.pend :=
      (List.map_congr_left fun w hw => by simp [discardLater, h w hw]).trans (List.map_id _)
    have hn : x.predResult n (v n) 0 1 = { x with pend := x.pend ++ [predWrite v n] } := by
      simp only [Hart.predResult, Hart.issueWrite, hk]; rfl
    rw [List.foldl_cons, hn, ih]
    · simp
    · intro w hw
      rcases List.mem_append.1 hw with hw | hw
      · exact h w hw
      · rw [List.mem_singleton.1 hw]; rfl

theorem Hart.predResults_lands (v : Nat → Bool) (l : List Nat) (x : Hart) (hp : x.pend = []) :
    (l.foldl (fun y n => y.predResult n (v n) 0 1) x).landAll = l.foldl (fun y n => y.setPred n (v n)) x := by
  rw [Hart.predResults_eq v l x (by simp [hp]), Hart.landAll, hp, List.nil_append, List.foldl_map,
    show ({ x with pend := [] } : Hart) = x by rw [← hp]]
  simp only [Hart.landOne_predWrite]

/-- Settles O16: each instruction issues one predicate result, FCMP's with its flags, and PMOV.ALL fifteen. -/
theorem predicateResults : Obligations.PredicateResults := by
  unfold Obligations.PredicateResults
  intro s o
  refine ⟨?cmp, ?fcmp, ?plog, ?pmov, ?pmovScalar, ?pmovAll⟩
  case fcmp => exact fun h => completes_floatPred _ _ _ h rfl
  case pmovAll =>
    refine fun h => completes_scalar (pmovAllResult o) h rfl (fun x hq hc hp => ?_) (Hart.predResults_lands _ _ _ h.settled)
    rw [pmovAllResult, Hart.predResults_eq _ _ x (by simp [hp])]
    exact ⟨hq, hc, by simp [hp, predWrite]⟩
  all_goals exact fun h => completes_setPred _ _ h rfl

/-! Control transfers (R122, R123). -/

/-- The same hart at another PC. -/
def Hart.goTo (x : Hart) (pc : BitVec 48) : Hart := { x with pc := pc }

theorem Hart.landOne_goTo (x : Hart) (pc : BitVec 48) (w : PendWrite) : (x.goTo pc).landOne w = (x.landOne w).goTo pc := by
  unfold Hart.landOne Hart.setPred Hart.setReg
  split_ifs <;> rfl

/-- A transfer has no part in the writes that land. -/
theorem Hart.landAll_goTo (x : Hart) (pc : BitVec 48) : (x.goTo pc).landAll = x.landAll.goTo pc := by
  unfold Hart.landAll
  exact List.foldl_hom (fun y : Hart => y.goTo pc) (init := { x with pend := [] }) fun y w => y.landOne_goTo pc w

/-- The PC before the one that an instruction goes on at is its own. -/
theorem nextPc_sub (pc : BitVec 48) : nextPc pc - 12 = pc := BitVec.add_sub_cancel ..

theorem relTarget_nextPc (pc : BitVec 48) (o : Fields) : relTarget (nextPc pc) o = pc + BitVec.ofInt 48 (4 * o.imm.toInt) := by
  rw [relTarget, nextPc_sub]

/-- The register that CALL writes. -/
theorem Hart.linkResult_lands (x : Hart) (hp : x.pend = []) :
    (linkResult x.advanced).landAll = x.advanced.setReg 62 (x.pc.setWidth 64 + 12) := by
  have hpc : x.advanced.pc - 12 = x.pc := nextPc_sub x.pc
  rw [linkResult, Hart.scalarResult_lands x.advanced hp, Hart.orFlags_zero, hpc]

theorem Hart.scalarResult_left (x : Hart) (hp : x.pend = []) (n : Nat) (v : Word) (f : BitVec 8) (L : Nat) :
    ∀ w ∈ (x.scalarResult n v f L).pend, w.left = L := by
  simp [Hart.scalarResult, Hart.issueWrite, hp]

/-- LOOP issues the count, and goes on at the next instruction or at its target. -/
theorem loopResult_eq (o : Fields) (x : Hart) : loopResult o x =
    (x.scalarResult o.d.toNat (x.reg o.d.toNat - 1) 0 1).goTo (if x.reg o.d.toNat - 1 = 0 then x.pc else relTarget x.pc o) := by
  unfold loopResult
  dsimp only
  rw [ite_not]
  split_ifs <;> rfl

/-- Settles O18: the target is reckoned from the instruction's own PC, and the link or the count lands with latency 1. -/
theorem relativeTransfers : Obligations.RelativeTransfers := by
  unfold Obligations.RelativeTransfers
  intro s o
  refine ⟨fun h => ?bra, fun h => ?call, fun h => ?loop, fun h => ?nop⟩
  case bra =>
    refine completes_scalar _ h rfl (fun x hq hc hp => ⟨hq, hc, by simp [hp]⟩) ?_
    refine (Hart.landAll_nil (s.me.advanced.goTo _) h.settled).trans ?_
    exact congrArg s.me.advanced.goTo (relTarget_nextPc ..)
  case call =>
    refine completes_scalar _ h rfl (fun x hq hc hp => ⟨hq, hc, x.scalarResult_left hp _ _ _ _⟩) ?_
    refine ((linkResult s.me.advanced).landAll_goTo _).trans ?_
    rw [Hart.linkResult_lands _ h.settled]
    exact congrArg (Hart.goTo _) (relTarget_nextPc ..)
  case loop =>
    refine completes_scalar _ h rfl (fun x hq hc hp => ?_) ?_
    · rw [loopResult_eq]
      exact ⟨hq, hc, x.scalarResult_left hp _ _ _ _⟩
    · rw [loopResult_eq, Hart.landAll_goTo, Hart.scalarResult_lands s.me.advanced h.settled, Hart.orFlags_zero]
      rw [show relTarget s.me.advanced.pc o = _ from relTarget_nextPc s.me.pc o]
      rfl
  case nop => exact completes_scalar id h rfl (fun x hq hc hp => ⟨hq, hc, by simp [hp]⟩) (Hart.landAll_nil s.me.advanced h.settled)

/-- A transfer to a register target completes where the target is aligned, and traps at the instruction where it is not (R71). -/
theorem jumps_of {s : State} {i : Instr} {o : Fields} {L : Nat} {f g : Hart → Hart} (target : Hart → BitVec 48) (h : s.CanRun i o)
    (hx : exec i s = issue i o (fun t => jumpTo (target (t.hart t.cur)) g t) s)
    (hg : ∀ x : Hart, x.queue = [] → x.rsPoison = [] → x.pend = [] → (g x).queue = [] ∧ (g x).rsPoison = [] ∧
      (∀ w ∈ (g x).pend, w.left = L)) (hf : (g s.me.advanced).landAll = f s.me.advanced) :
    ((target s.me.advanced).toNat % 4 = 0 →
      Completes i o s L fun x => (f x).goTo (target s.me.advanced)) ∧
    ((target s.me.advanced).toNat % 4 ≠ 0 → TrapsWith i s (trapTarget (target s.me.advanced))) := by
  have hm : s.begun.hart s.begun.cur = s.me.advanced := State.begun_me h.toAtRest
  obtain ⟨hq, hc, hp⟩ := hg s.me.advanced h.empty h.clean h.settled
  constructor
  · intro ha
    refine completes_of _ ((g s.me.advanced).goTo (target s.me.advanced)) h hx ?_ hq hc hp ?_
    · rw [hm, jumpTo, if_neg (not_not.2 ha), State.modHart, hm]
      rfl
    · rw [Hart.landAll_goTo, hf]
  · intro ha
    rw [TrapsWith, hx, issue_run h, hm, jumpTo, if_pos ha]
    exact finish_trap _ _ _ _ ((congrArg Hart.queue hm).trans h.empty)

/-- Settles O19: the three are transfers to a register target, CALL with its link. -/
theorem registerTransfers : Obligations.RegisterTransfers := by
  unfold Obligations.RegisterTransfers
  intro s o
  refine ⟨fun h => ?jmp, fun h => ?ret, fun h => ?callReg⟩
  case jmp =>
    exact jumps_of (f := id) (fun x => regTarget x o) h rfl (fun x hq hc hp => ⟨hq, hc, by simp [hp]⟩)
      (Hart.landAll_nil s.me.advanced h.settled)
  case ret =>
    exact jumps_of (f := id) (fun x => (x.reg o.a.toNat).setWidth 48) h rfl (fun x hq hc hp => ⟨hq, hc, by simp [hp]⟩)
      (Hart.landAll_nil s.me.advanced h.settled)
  case callReg =>
    exact jumps_of (fun x => regTarget x o) h rfl (fun x hq hc hp => ⟨hq, hc, x.scalarResult_left hp _ _ _ _⟩)
      (Hart.linkResult_lands s.me h.settled)

end Sys2Proof.Machine

namespace Sys2Proof.Machine

/-! The issue turn (R62, R70, R110). -/

/-- What O6 says of the issue turn of hart h, as a computation: where its premises hold and the word's instruction ends in a
next state, the state that it gives the step. -/
def State.decodedTurn (s : State) (h : Nat) : Option State :=
  let s0 := (({ s with sched := [] } : State).beginTurn h).bringLines h
  match drainQ h s0.lead drainFuel s0 with
  | .stop _ => none
  | .ok s1 =>
    let z := s1.settle h
    if (s.hart h).bound = true ∧ (s.hart h).stopped = false ∧ (s.hart h).idle = false ∧ (z.hart h).entries = (s.hart h).entries ∧
        (z.hart h).stopped = false ∧ (z.hart h).idle = false ∧ z.boundary h = none then
      match z.fetch h with
      | .ok t x => match decode x with
        | .ok i => match exec i t with
          | .next u => some ((u.giveUp h (t.hart h).entries i).tick
              (if (u.hart h).entries ≠ (s.hart h).entries ∨ (u.hart h).held = true then 1 else 1 + (fieldsOfInstr i).stall.toNat))
          | _ => none
        | .error _ => none
      | _ => none
    else none

theorem step_of_decodedTurn (hO : Obligations.StepRunsDecoded) {s v : State} {h : Nat} (hs : s.sched = [.issue h])
    (hv : s.decodedTurn h = some v) : step s = .next v := by
  unfold State.decodedTurn at hv
  dsimp only at hv
  split at hv
  · cases hv
  · next s1 hd =>
    split_ifs at hv with hc
    obtain ⟨hb, hst, hi, he, hzs, hzi, hzb⟩ := hc
    split at hv
    · next t x hf =>
      split at hv
      · next i hx =>
        split at hv
        · next u hu =>
          cases hv
          exact (hO s s1 t h [] x i hs hb hst hi hd he hzs hzi hzb hf hx).1 u hu
        · cases hv
      · cases hv
    · cases hv

/-- Reset with ADD s5, s3, -16 at PC 0 in the instruction cache, where line 0 of the hart's image is absent and has to wait
behind a write of that line (R110). -/
def fillWaiting : State :=
  { State.reset with
    cores := [(0, { icache := [⟨0, true, 0, 4, leBytes 12 0x001E0A0600060001FFFFFFF0, false⟩], store := [⟨0, 0, true, none⟩] })]
    imgOut := [⟨0, 0, 0, Config.stobryImage, none, false⟩]
    sched := [.issue 0] }

/-- The PC of hart 0 after a move. -/
def pcAfter (r : Out) : Option (BitVec 48) :=
  match r with
  | .next t => some (t.hart 0).pc
  | _ => none

theorem fillWaiting_decodedTurn : ((fillWaiting.decodedTurn 0).map fun t => (t.hart 0).pc) = some 12 := by decide +kernel

theorem fillWaiting_step : pcAfter (step fillWaiting) = some 0 := by decide +kernel

/-- Refutes O6: no premise says that the lines of the hart's image have come in. In `fillWaiting` one waits at its home, so the
turn issues nothing and the PC stays, although the word at the PC can be fetched and decoded. -/
theorem not_stepRunsDecoded : ¬ Obligations.StepRunsDecoded := by
  intro hO
  obtain ⟨v, hv, hpc⟩ := Option.map_eq_some_iff.1 fillWaiting_decodedTurn
  have hstep := fillWaiting_step
  rw [step_of_decodedTurn hO rfl hv] at hstep
  have h0 : (v.hart 0).pc = 0 := Option.some.inj hstep
  rw [hpc] at h0
  exact absurd h0 (by decide)

end Sys2Proof.Machine

namespace Sys2Proof.Machine

/-! CBINV at the scope of the issuing die, of a line that the die owns (R251, R271). -/

/-- What O41 says of CBINV.WBI at the scope of the issuing die, as a computation: where the address translates, and not to
space 3, the state that the instruction leaves. -/
def State.cbinvHere (s : State) (o : Fields) : Option State :=
  let a := scalarAddr o s.me
  match s.begun.accessPage (s.begun.who s.cur s.me.sup false a) .load a.toNat with
  | .ok s1 pa _ =>
    if spaceOf pa = 3 then none
    else some ((((s1.cleanLine .wbi (s.me.coreNo / 32) false (lineOf pa)).endHolds s.cur).modHart s.cur fun y => y.orFlags 0).issued
      s.cur (.cbinvWbi o) o)
  | _ => none

theorem exec_of_cbinvHere (hO : Obligations.CacheInstructions) {s v : State} {o : Fields} (h : s.CanRun (.cbinvWbi o) o)
    (ha : (scalarAddr o s.me).toNat < 2 ^ 48) (hf : o.f.toNat % 8 ≠ 4) (hv : s.cbinvHere o = some v) :
    exec (.cbinvWbi o) s = .next v := by
  obtain ⟨-, -, -, -, hwbi, -⟩ := hO s o
  unfold State.cbinvHere at hv
  dsimp only at hv
  split at hv
  · next s1 pa pte hp =>
    split at hv
    · cases hv
    · next h3 =>
      cases hv
      obtain ⟨-, here, -⟩ := hwbi h ha s1 pa pte hp
      exact (here h3 hf).1
  · cases hv

/-- CBINV.WBI of the line at address 0, at the scope of the issuing die. -/
def wbiHere : Fields := { f := 0x13 }

/-- Reset with page 0 mapped to the frame at 0 (R219, R352), whose line 0 die 0 owns. -/
def ownedLine : State :=
  { State.reset.setHub 0 { tlb := [⟨0, true, 0, 12, 0x8000000000000803, 0⟩], asnSnaps := [(0, 1)] } with dir := [(0, .em 0)] }

/-- How many packets agent 0, the die of the hart, has sent. -/
def packetsSent (r : Out) : Option (BitVec 32) :=
  match r with
  | .next t => some (t.clock 0).s
  | _ => none

theorem ownedLine_canRun : ownedLine.CanRun (.cbinvWbi wbiHere) wbiHere where
  here := by decide
  empty := rfl
  level := rfl
  settled := rfl
  clean := rfl
  free := rfl
  live := rfl
  runs := by decide +kernel
  allowed := by decide +kernel

theorem ownedLine_cbinvHere : (ownedLine.cbinvHere wbiHere).map (fun t => (t.clock 0).s) = some 0 := by decide +kernel

theorem ownedLine_exec : packetsSent (exec (.cbinvWbi wbiHere) ownedLine) = some 1 := by decide +kernel

/-- Refutes O41: a die that owns the line tells the line's home, in a packet, that it drops it (R251), so CBINV.WBI at the scope
of the die leaves more than `cleanLine` does: agent 0 has sent one packet. -/
theorem not_cacheInstructions : ¬ Obligations.CacheInstructions := by
  intro hO
  obtain ⟨v, hv, hs⟩ := Option.map_eq_some_iff.1 ownedLine_cbinvHere
  have hx := ownedLine_exec
  rw [exec_of_cbinvHere hO ownedLine_canRun (by decide +kernel) (by decide +kernel) hv] at hx
  have h1 : (v.clock 0).s = 1 := Option.some.inj hx
  rw [hs] at h1
  exact absurd h1 (by decide)

end Sys2Proof.Machine

namespace Sys2Proof.Machine

/-! What passes with time (R65, R386, R400, R401): counting leaves a core's budget, a refill raises it, and an outstanding result
lands. -/

/-! Tables under a key set and under a change of every value. -/

theorem tfind_tset {α : Type} (t : Table α) (k j : Nat) (x : α) :
    tfind (tset t k x) j = if j = k then some x else tfind t j := by
  induction t with
  | nil => simp [tset, tfind, eq_comm]
  | cons p r ih =>
    obtain ⟨i, y⟩ := p
    by_cases hi : i = k
    · simp only [tset, tfind, hi, if_true, eq_comm (a := j)]
      split <;> rfl
    · simp only [tset, tfind, if_neg hi, ih]
      by_cases hj : j = k
      · rw [if_pos hj, if_pos hj, if_neg (hj ▸ hi)]
      · simp only [if_neg hj]

theorem tfind_map {α β : Type} (t : Table α) (f : Nat → α → β) (k : Nat) :
    tfind (t.map fun p => (p.1, f p.1 p.2)) k = (tfind t k).map (f k) := by
  induction t with
  | nil => rfl
  | cons p r ih =>
    obtain ⟨i, y⟩ := p
    by_cases hi : i = k
    · simp [tfind, hi]
    · simpa only [List.map_cons, tfind, if_neg hi] using ih

/-! A core's budget level (R400), where a core is listed. -/

/-- The budget level of a core that the state lists. -/
def State.levelOf (s : State) (c : Nat) : Option Nat := (tfind s.cores c).map Core.level

theorem State.core_level {s : State} {c n : Nat} (h : s.levelOf c = some n) : (s.core c).level = n := by
  obtain ⟨x, hx, rfl⟩ := Option.map_eq_some_iff.1 h
  simp [State.core, tget_tfind, hx]

theorem State.countCore_levelOf (s : State) (k code n c : Nat) : (s.countCore k code n).levelOf c = s.levelOf c := by
  cases hk : tfind s.cores k with
  | none => simp only [State.levelOf, State.countCore, hk]
  | some x =>
    simp only [State.levelOf, State.countCore, hk, tfind_tset]
    by_cases hc : c = k
    · subst hc; simp [hk]
    · rw [if_neg hc]

theorem State.countCycles_levelOf (s : State) (n c : Nat) : (s.countCycles n).levelOf c = s.levelOf c := by
  show ((List.foldl _ s s.cores : State)).levelOf c = s.levelOf c
  refine List.foldlRecOn s.cores _ (motive := fun t : State => t.levelOf c = s.levelOf c) rfl fun t ht p _ => ?_
  dsimp only
  split <;> split <;> simp only [State.countCore_levelOf, ht]

theorem State.refill_levelOf (s : State) (n c : Nat) :
    (s.refill n).levelOf c = (s.levelOf c).map fun l => min 65535 (l + n * tget s.rate (c / 32) 512) := by
  simp only [State.levelOf, State.refill,
    tfind_map s.cores fun k x => { x with level := min 65535 (x.level + n * tget s.rate (k / 32) 512) }, Option.map_map]
  rfl

/-- Time changes CYC and the cores, and nothing else. -/
theorem State.tick_eq (s : State) (n : Nat) :
    s.tick n = { s with cyc := s.cyc + BitVec.ofNat 64 n, cores := (s.tick n).cores } := by
  unfold State.tick
  dsimp only
  split <;> rfl

/-- Up to the next multiple of 64 there is one refill (R400). -/
theorem State.tick_to_refill (s : State) :
    s.tick (64 - s.cyc.toNat % 64) =
      ({ s.countCycles (64 - s.cyc.toNat % 64) with cyc := s.cyc + BitVec.ofNat 64 (64 - s.cyc.toNat % 64) } : State).refill 1 := by
  have hk : (s.cyc.toNat % 64 + (64 - s.cyc.toNat % 64)) / 64 = 1 := by omega
  simp only [State.tick, hk, if_neg Nat.one_ne_zero]

theorem State.level_after_refill (s : State) (c : Nat) :
    ((s.tick (64 - s.cyc.toNat % 64)).core c).level = min 65535 ((s.core c).level + tget s.rate (c / 32) 512) ∨
      tfind s.cores c = none := by
  cases hc : tfind s.cores c with
  | none => exact .inr rfl
  | some x =>
    have hs : s.levelOf c = some (s.core c).level := by simp [State.levelOf, State.core, tget_tfind, hc]
    refine .inl (State.core_level ?_)
    rw [State.tick_to_refill, State.refill_levelOf]
    have ht := (s.countCycles_levelOf (64 - s.cyc.toNat % 64) c).trans hs
    simp only [State.levelOf] at ht ⊢
    rw [ht, Option.map_some, Nat.one_mul]
    rfl

/-! The governor (R400, R433). -/

theorem State.min_rateCap (s : State) (die : Nat) (rate : BitVec 12) :
    min (s.rateCap die) rate.toNat = if s.flowLost = true ∨ 105 ≤ tget s.temps die 0 then 0
      else if 95 ≤ tget s.temps die 0 then min 511 rate.toNat else rate.toNat := by
  have hr : rate.toNat ≤ 4095 := Nat.le_of_lt_succ rate.isLt
  unfold State.rateCap
  split
  · exact Nat.zero_min _
  · split
    · rfl
    · exact Nat.min_eq_right hr

theorem execGovernorUpdate_of_lt (s : State) {die : Nat} (rate : BitVec 12) (h : die < 24) :
    execGovernorUpdate die rate s = .next { s with rate := tset s.rate die (min (s.rateCap die) rate.toNat) } :=
  if_neg (Nat.not_le.2 h)

theorem execRequestHeaderRefused_eq (h : Nat) (s : State) :
    ∃ t, execRequestHeaderRefused h s = .next t ∧ t = { s with cores := t.cores } := by
  refine ⟨_, rfl, ?_⟩
  split
  · exact s.countCore_eq _ _ _
  · rfl

/-! An outstanding result lands (R65). -/

theorem Hart.reg_setReg_same (x : Hart) {n : Nat} (v : Word) (h1 : 1 ≤ n) (h64 : n < 64) : (x.setReg n v).reg n = v := by
  have h0 : n ≠ 0 := Nat.ne_of_gt h1
  simp [Hart.reg, Hart.setReg, h0, h64]

theorem Hart.reg_setReg_ne (x : Hart) {n k : Nat} (v : Word) (h : k ≠ n) : (x.setReg n v).reg k = x.reg k := by
  unfold Hart.setReg
  split
  · rfl
  · simp [Hart.reg, Vector.getElem?_setIfInBounds_ne (Ne.symm h)]

/-- The one outstanding write is the one that lands. -/
theorem Hart.landNow_one {x : Hart} {w : PendWrite} (hp : x.pend = [w]) (hl : w.landed = false) :
    x.landNow = { x.landOne w with pend := [{ w with landed := true, flags := 0 }] } := by
  simp [Hart.landNow, hp, hl, modAt]

theorem Hart.landOne_reg (x : Hart) {w : PendWrite} (hl : w.landed = false) (hp : w.pred = false) :
    x.landOne w = (x.setReg w.reg w.value).orFlags w.flags := by
  simp [Hart.landOne, hl, hp]

/-- Settles O50: time changes CYC and the cores only, whose levels counting keeps and a refill raises; the rest is what each event
writes. -/
theorem timeEvents : Obligations.TimeEvents := by
  intro s
  refine ⟨⟨s.tick 1, rfl, ?_⟩, ⟨s.tick (64 - s.cyc.toNat % 64), rfl, ?_⟩, ?_, fun h => execRequestHeaderRefused_eq h s, ?_⟩
  · rw [s.tick_eq]
    exact ⟨rfl, rfl, rfl⟩
  · have hcyc : (s.tick (64 - s.cyc.toNat % 64)).cyc = s.cyc + BitVec.ofNat 64 (64 - s.cyc.toNat % 64) := by rw [s.tick_eq]
    exact ⟨hcyc, hcyc ▸ s.tick_eq _, s.level_after_refill⟩
  · intro die rate hdie
    exact ⟨_, execGovernorUpdate_of_lt s rate hdie, rfl, (tset_get _ _ _ _).trans (s.min_rateCap die rate),
      fun d hd => tset_get_ne _ _ _ _ _ hd⟩
  · intro h w hh hp hl hpred h1 h64
    refine ⟨s.modHart h Hart.landNow, rfl, ?_, ?_, ?_, fun k hk => s.hart_modHart_ne h k _ hk⟩
    all_goals rw [s.hart_modHart h _ hh, Hart.landNow_one hp hl, Hart.landOne_reg _ hl hpred]
    · exact Hart.reg_setReg_same _ _ h1 h64
    · exact fun n hn => Hart.reg_setReg_ne _ _ hn
    · exact congrArg (· ||| w.flags) (congrArg _ (Hart.setReg_fcsr _ _ _))

end Sys2Proof.Machine

namespace Sys2Proof.Machine

/-! PROOFS of the family 05_registers: the registers of a hart and its special registers (R87, R93 to R104, R127, R128). -/

theorem Hart.pred_setPred_same (x : Hart) {n : Nat} (b : Bool) (hn : n < 15) : (x.setPred n b).pred n = b := by
  have h15 : n ≠ 15 := Nat.ne_of_lt hn
  cases b <;> simp [Hart.pred, Hart.setPred, h15, show n < 16 by omega]

theorem Hart.pred_setPred_ne (x : Hart) {n k : Nat} (b : Bool) (hk : k < 16) (h : k ≠ n) :
    (x.setPred n b).pred k = x.pred k := by
  unfold Hart.setPred
  split
  · rfl
  · rcases Nat.lt_or_gt_of_ne h with hkn | hkn
    · cases b <;> simp [Hart.pred, hk, hkn]
    · have h0 : k - n ≠ 0 := Nat.sub_ne_zero_of_lt hkn
      cases b <;> simp [Hart.pred, hk, h0]

/-- Settles O8: a read after a write, register by register, and CALL's link by O18. -/
theorem hardwiredRegisters : Obligations.HardwiredRegisters := by
  unfold Obligations.HardwiredRegisters
  intro x v b
  refine ⟨rfl, rfl, rfl, rfl, fun n h1 h64 => x.reg_setReg_same v h1 h64, fun n k h => x.reg_setReg_ne v h,
    fun n hn => x.pred_setPred_same b hn, fun n k _ hk h => x.pred_setPred_ne b hk h, fun s o h => ?call⟩
  obtain ⟨-, hcall, -⟩ := relativeTransfers s o
  obtain ⟨t, hx, hland, -⟩ := hcall h
  exact ⟨t, hx, by rw [hland]; exact Hart.reg_setReg_same _ _ (by decide) (by decide)⟩

/-! Waiting for an empty queue (R288). -/

theorem State.waitUntil_empty {s : State} {h : Nat} (blocks : State → QEntry → List QEntry → Bool) (go : State → Res)
    (hq : (s.hart h).queue = []) : s.waitUntil h blocks go = go s := by
  rw [State.waitUntil, hq]
  rfl

theorem Hart.landFloats_settled (x : Hart) (hp : x.pend = []) : x.landFloats = x := by
  cases x
  simp_all [Hart.landFloats]

/-- The begun state of a hart at rest has its results in (R94). -/
theorem State.begun_landFloats {s : State} (h : s.AtRest) : s.begun.modHart s.cur Hart.landFloats = s.begun := by
  refine State.modHart_self _ _ _ ?_
  rw [State.begun_me h]
  exact Hart.landFloats_settled _ h.settled

theorem specialWait_rest {s : State} (h : s.AtRest) (o : Fields) (go : State → Res) : specialWait o s.begun go = go s.begun := by
  unfold specialWait
  split
  · have hq : (s.begun.hart s.cur).queue = [] := by rw [State.begun_me h]; exact h.empty
    exact (State.waitUntil_empty _ _ hq).trans (congrArg go (State.begun_landFloats h))
  · rfl

/-- No special register shows the PC or what holds a hart. -/
theorem State.special_begun {s : State} (h : s.AtRest) (idx : Nat) : s.begun.special s.cur idx = s.special s.cur idx := by
  unfold State.special
  rw [State.begun_me h]
  rfl

/-- What completes at once leaves nothing outstanding. -/
theorem Completes.now {s : State} {i : Instr} {o : Fields} {f : Hart → Hart} (h : Completes i o s 0 f) :
    ∃ t, exec i s = .next t ∧ t.me = f s.me.advanced ∧ s.SameOutside t := by
  obtain ⟨t, hx, hland, hpend, hout⟩ := h
  exact ⟨t, hx, by rw [← hland, Hart.landAll_nil _ (hpend (Nat.zero_le _))], hout⟩

/-- An effect of no latency on the hart alone, after a wait that ends at once. -/
theorem completes_now {s : State} {i : Instr} {o : Fields} {f : Hart → Hart} (body : State → Res) (h : s.CanRun i o)
    (hx : exec i s = issue i o body s) (hb : body s.begun = .ok (s.begun.setHart s.cur (f s.me.advanced)))
    (hq : (f s.me.advanced).queue = []) (hc : (f s.me.advanced).rsPoison = []) (hp : (f s.me.advanced).pend = []) :
    Completes i o s 0 f :=
  completes_of body _ h hx hb hq hc (by simp [hp]) (Hart.landAll_nil _ hp)

/-! Special registers (R93 to R104, R127, R128). -/

/-- MTS reaches neither the queue, nor outstanding results, nor poison. -/
theorem Hart.setSpecial_frame (x : Hart) (idx : Nat) (v : Word) :
    (x.setSpecial idx v).queue = x.queue ∧ (x.setSpecial idx v).pend = x.pend ∧ (x.setSpecial idx v).rsPoison = x.rsPoison := by
  unfold Hart.setSpecial
  split <;> exact ⟨rfl, rfl, rfl⟩

theorem Hart.setSpecial_other (x : Hart) {idx : Nat} (v : Word)
    (h : idx ∉ [0x002, 0x003, 0x004, 0x021, 0x026, 0x027, 0x028, 0x029, 0x02A, 0x02B, 0x030]) : x.setSpecial idx v = x := by
  unfold Hart.setSpecial
  split
  case h_12 => rfl
  all_goals exact absurd h (by decide)

/-- FCSR as MTS writes it, by its bits. -/
theorem fcsrOf_toNat (v : Word) : fcsrOf v.toNat = {
    rm := if 5 ≤ v.toNat % 8 then 0 else v.setWidth 3, flags := v.extractLsb' 8 8, en := v.extractLsb' 16 8 } := by
  have field (k : Nat) : BitVec.ofNat 8 (v.toNat / 2 ^ k) = v.extractLsb' k 8 := by
    rw [BitVec.extractLsb', Nat.shiftRight_eq_div_pow]
  simp only [fcsrOf, ← field]
  rfl

theorem Hart.setSpecial_tscr (x : Hart) (n : Nat) (h : n < 4) (v : Word) :
    x.setSpecial (0x028 + n) v = { x with tscr := x.tscr.set n v h } := by
  match n, h with
  | 0, _ => rfl
  | 1, _ => rfl
  | 2, _ => rfl
  | 3, _ => rfl

theorem mfs_completes {s : State} {o : Fields} (h : s.CanRun (.mfs o) o) :
    Completes (.mfs o) o s 0 fun x => x.setReg o.d.toNat (s.special s.cur (msrIndex o)) := by
  refine completes_now _ h rfl ?_ ?_ ?_ ?_
  · refine (specialWait_rest h.toAtRest o _).trans ?_
    simp only [State.modHart, State.begun_cur, State.begun_me h.toAtRest, State.special_begun h.toAtRest,
      Hart.varResult_lands s.me.advanced h.settled]
  · exact (Hart.setReg_queue ..).trans h.empty
  · exact (Hart.setReg_rsPoison ..).trans h.clean
  · exact (Hart.setReg_pend ..).trans h.settled

theorem mts_completes {s : State} {o : Fields} (h : s.CanRun (.mts o) o) :
    Completes (.mts o) o s 0 fun x => x.setSpecial (msrIndex o) (s.me.reg o.a.toNat) := by
  obtain ⟨hq, hp, hc⟩ := s.me.advanced.setSpecial_frame (msrIndex o) (s.me.reg o.a.toNat)
  refine completes_now _ h rfl ?_ (hq.trans h.empty) (hc.trans h.clean) (hp.trans h.settled)
  refine (specialWait_rest h.toAtRest o _).trans ?_
  simp only [State.modHart, State.begun_cur, State.begun_me h.toAtRest]
  rfl

/-- Settles O20: MFS and MTS go on at once from an empty queue with every result in; the rest is `setSpecial`, index by index. -/
theorem specialRegisters : Obligations.SpecialRegisters := by
  unfold Obligations.SpecialRegisters
  refine ⟨fun s o h => (mfs_completes h).now, fun s o h => (mts_completes h).now, fun x v => ?_⟩
  refine ⟨rfl, rfl, ?fcsr, rfl, rfl, rfl, fun n h => x.setSpecial_tscr n h v, rfl, fun idx h => x.setSpecial_other v h⟩
  exact congrArg (fun f => { x with fcsr := f }) (fcsrOf_toNat v)

/-! The queue's control (R298 to R301, R304, R324). -/

/-- Without a vector fault at its head, a queue goes on. -/
theorem State.settle_unfaulted {s : State} {h : Nat} (hf : (s.hart h).headFaulted = false) : s.settle h = s := by
  unfold Hart.headFaulted at hf
  unfold State.settle
  split
  · next e r hq =>
    rw [hq] at hf
    split
    · next hs => simp [hs] at hf
    · rfl
  · rfl

theorem Hart.headFaulted_empty {x : Hart} (hq : x.queue = []) : x.headFaulted = false := by
  rw [Hart.headFaulted, hq]

theorem State.SameMemory.begun (s : State) : s.SameMemory s.begun :=
  ⟨rfl, fun _ hk => State.setHart_hart_ne _ _ _ _ hk, fun _ => rfl⟩

theorem State.SameMemory.modHart {s t : State} (h : s.SameMemory t) (f : Hart → Hart) : s.SameMemory (t.modHart s.cur f) := by
  obtain ⟨hcur, hother, hmem⟩ := h
  exact ⟨hcur, fun k hk => (t.hart_modHart_ne _ k f hk).trans (hother k hk), hmem⟩

theorem State.SameMemory.countCore {s t : State} (h : s.SameMemory t) (c k n : Nat) : s.SameMemory (t.countCore c k n) := by
  obtain ⟨hcur, hother, hmem⟩ := h
  exact ⟨hcur, fun j hj => (t.countCore_hart ..).trans (hother j hj), hmem⟩

/-- An effect that leaves no result outstanding and no vector fault: the instruction's end counts it, and no more. -/
theorem givesHart_of {s u : State} {i : Instr} {o : Fields} {f : Hart → Hart} (body : State → Res) (h : s.CanRun i o)
    (hx : exec i s = issue i o body s) (hb : body s.begun = .ok u) (hm : u.hart s.cur = f s.me.advanced)
    (hp : (f s.me.advanced).pend = []) (hc : (f s.me.advanced).rsPoison = []) (hf : (f s.me.advanced).headFaulted = false)
    (hs : s.SameMemory u) : GivesHart i s f := by
  have hi := State.issued_settled (i := i) (o := o) u s.cur (by rw [hm, hp]) (by rw [hm, hc])
  have hme : (u.issued s.cur i o).hart s.cur = f s.me.advanced := by rw [hi, State.countIssue_hart, hm]
  have hsame : s.SameMemory (u.issued s.cur i o) := by rw [hi]; exact hs.countCore _ _ _
  refine ⟨u.issued s.cur i o, ?_, ?_, hsame⟩
  · rw [hx, issue_run h, hb]
    exact congrArg _ (State.settle_unfaulted (by rw [hme, hf]))
  · rw [State.me, hsame.1, hme]

/-- A trap of the scalar unit at an instruction that a hart at rest has begun. -/
theorem trapsWith_of {s : State} {i : Instr} {o : Fields} {k : Trap} (body : State → Res) (h : s.CanRun i o)
    (hx : exec i s = issue i o body s) (hb : body s.begun = .trap s.begun k) : TrapsWith i s k := by
  rw [TrapsWith, hx, issue_run h, hb]
  exact finish_trap _ _ _ _ (by rw [State.begun_me h.toAtRest]; exact h.empty)

theorem State.begun_waitQueue {s : State} (h : s.AtRest) (go : State → Res) : s.begun.waitQueue s.cur go = go s.begun :=
  State.waitUntil_empty _ _ (by rw [State.begun_me h]; exact h.empty)

/-- TFENCE looks at the flags that are enabled (R298). -/
theorem tfenceBody_rest {s : State} (h : s.AtRest) : tfenceBody s.begun =
    if s.me.fcsr.flags &&& s.me.fcsr.en = 0 then .ok s.begun
    else .trapNext s.begun ⟨causeARITH, (s.me.fcsr.flags &&& s.me.fcsr.en).setWidth 64, 0, 0⟩ := by
  refine (State.begun_waitQueue h _).trans ?_
  simp only [State.begun_cur, State.begun_landFloats h, State.begun_me h]
  rfl

theorem tfence_unflagged {s : State} {o : Fields} (h : s.CanRun (.tfence o) o) (he : s.me.fcsr.flags &&& s.me.fcsr.en = 0) :
    Completes (.tfence o) o s 0 id := by
  refine completes_now tfenceBody h rfl ?_ h.empty h.clean h.settled
  rw [tfenceBody_rest h.toAtRest, if_pos he]
  exact congrArg _ (State.modHart_self _ _ (fun _ => s.me.advanced) (State.begun_me h.toAtRest).symm).symm

theorem tfence_flagged {s : State} {o : Fields} (h : s.CanRun (.tfence o) o) (he : s.me.fcsr.flags &&& s.me.fcsr.en ≠ 0) :
    exec (.tfence o) s = .next ((s.begun.issued s.cur (.tfence o) o).takeTrap s.cur
      ⟨causeARITH, (s.me.fcsr.flags &&& s.me.fcsr.en).setWidth 64, 0, 0⟩ (nextPc s.me.pc)) := by
  rw [show exec (.tfence o) s = issue (.tfence o) o tfenceBody s from rfl, issue_run h, tfenceBody_rest h.toAtRest, if_neg he]
  exact finish_trapNext _ _ _ _ (by rw [State.begun_me h.toAtRest]; exact h.empty)

theorem State.begun_setHart_me {s : State} (h : s.AtRest) : s.begun.setHart s.cur s.me.advanced = s.begun :=
  State.modHart_self _ _ (fun _ => s.me.advanced) (State.begun_me h).symm

/-- A hart with an empty queue holds no fibre pipe (R191). -/
theorem Hart.leavePipe_empty {x : Hart} (hq : x.queue = []) : x.leavePipe = x := by
  simp [Hart.leavePipe, Hart.onFibrePipe, hq]

/-- What a hart that leaves its slot shows of it. -/
def Hart.unbound (x : Hart) (cyc : Word) : Hart := { x with bound := false, preempted := false, lastbu := 0, leftAt := some cyc }

theorem State.unbind_harts {s : State} {h : Nat} (hq : (s.hart h).queue = []) :
    (s.unbind h).harts = (s.modHart h fun x => x.unbound s.cyc).harts := by
  have he : (s.modHart h fun x => { x.leavePipe with bound := false, preempted := false, lastbu := 0, leftAt := some s.cyc }) =
      s.modHart h fun x => x.unbound s.cyc := by
    simp only [State.modHart, Hart.leavePipe_empty hq]
    rfl
  unfold State.unbind
  simp only [he]
  split <;> rfl

theorem State.unbind_rest (s : State) (h : Nat) : (s.unbind h).mem = s.mem ∧ (s.unbind h).cur = s.cur := by
  unfold State.unbind
  dsimp only
  split <;> exact ⟨rfl, rfl⟩

theorem State.unbind_hart {s : State} {h : Nat} (hq : (s.hart h).queue = []) (k : Nat) :
    (s.unbind h).hart k = (s.modHart h fun x => x.unbound s.cyc).hart k := by
  rw [State.hart, State.unbind_harts hq, State.hart]

theorem yieldRel_gives {s : State} {o : Fields} (h : s.CanRun (.yieldRel o) o) :
    GivesHart (.yieldRel o) s fun x => x.unbound s.cyc := by
  have hm := State.begun_me h.toAtRest
  have hq : (s.begun.hart s.cur).queue = [] := by rw [hm]; exact h.empty
  have ho : (s.begun.hart s.cur).occupancy = 0 := by
    rw [hm, Hart.occupancy, show s.me.advanced.vqtail = s.me.advanced.vcp from h.level, BitVec.sub_self]
    rfl
  obtain ⟨hmem, hcur⟩ := s.begun.unbind_rest s.cur
  refine givesHart_of _ h rfl (if_neg (not_not.2 ho)) ?_ h.settled h.clean (Hart.headFaulted_empty h.empty) ⟨hcur, ?_, ?_⟩
  · rw [State.begun_cur, State.unbind_hart hq, State.hart_modHart _ _ _ (by simpa [State.begun] using h.here), hm]
    rfl
  · intro k hk
    rw [State.begun_cur, State.unbind_hart hq, State.hart_modHart_ne _ _ _ _ hk]
    exact State.setHart_hart_ne _ _ _ _ hk
  · intro a
    rw [State.begun_cur, hmem]
    rfl

/-- The entries that VQREPLAY puts back wait to start (R301). -/
theorem savedEntries_waiting (saved : Table SavedSlot) (p n : Nat) : ∀ e ∈ savedEntries saved p n, e.stage = .waiting := by
  intro e he
  obtain ⟨_, -, hk⟩ := List.mem_filterMap.1 he
  split at hk
  · cases hk; rfl
  · cases hk

theorem Hart.headFaulted_waiting {x : Hart} (h : ∀ e ∈ x.queue, e.stage = .waiting) : x.headFaulted = false := by
  unfold Hart.headFaulted
  split
  · next e r hq => rw [h e (by simp [hq])]
  · rfl

/-- VQREPLAY on a hart at rest: an operand that R301 forbids traps, and another puts the saved entries back. -/
theorem vqreplayBody_rest {s : State} (h : s.AtRest) (o : Fields) :
    let a := (s.me.reg o.a.toNat).toNat
    vqreplayBody o s.begun = if 64 < bitsOf a 16 7 ∨ (0 < bitsOf a 16 7 ∧ !s.me.tstatus.vfrz) then
        .trap s.begun (trapIllegal 5 false)
      else .ok (s.begun.modHart s.cur (vqreplayResult (bitsOf a 0 16) (bitsOf a 16 7))) := by
  have hland : s.begun.modHart s.cur Hart.landAll = s.begun := by
    refine State.modHart_self _ _ _ ?_
    rw [State.begun_me h]
    exact Hart.landAll_nil _ h.settled
  have hp (l : List Nat) : s.me.advanced.poisonedLine l = none := if_pos (by rw [show s.me.advanced.rsPoison = [] from h.clean]; rfl)
  refine (State.begun_waitQueue h _).trans ?_
  simp only [State.begun_cur, hland, State.begun_me h, hp, Option.isSome_none, Bool.false_eq_true, if_false]
  rfl

theorem vqreplay_gives {s : State} {o : Fields} (h : s.CanRun (.vqreplay o) o) :
    let a := (s.me.reg o.a.toNat).toNat
    ¬ (64 < bitsOf a 16 7 ∨ (0 < bitsOf a 16 7 ∧ !s.me.tstatus.vfrz)) →
    GivesHart (.vqreplay o) s (vqreplayResult (bitsOf a 0 16) (bitsOf a 16 7)) := by
  intro a hn
  refine givesHart_of (vqreplayBody o) h rfl ((vqreplayBody_rest h.toAtRest o).trans (if_neg hn)) ?_ h.settled h.clean
    (Hart.headFaulted_waiting ?_) (.modHart (.begun s) _)
  · rw [State.hart_modHart _ _ _ (by simpa [State.begun] using h.here), State.begun_me h.toAtRest]
  · rw [vqreplayResult, show s.me.advanced.queue = [] from h.empty]
    exact savedEntries_waiting _ _ _

/-- Settles O21: each is its effect on a hart whose queue is empty; of VQREPLAY's operand the count decides. -/
theorem queueControl : Obligations.QueueControl := by
  unfold Obligations.QueueControl
  refine ⟨fun s o h => ⟨tfence_unflagged h, tfence_flagged h⟩, fun s o => ⟨fun h => ?vqsync, fun h => ?yield, yieldRel_gives,
    fun h => ⟨fun hn hv => ?replay, fun hn => ?refused⟩⟩⟩
  case vqsync =>
    refine completes_now _ h rfl ((State.begun_waitQueue h.toAtRest _).trans ?_) h.empty h.clean h.settled
    exact congrArg _ (State.begun_setHart_me h.toAtRest).symm
  case yield =>
    refine completes_now _ h rfl ?_ h.empty h.clean h.settled
    simp only [State.modHart, State.begun_cur, State.begun_me h.toAtRest]
  case replay =>
    obtain ⟨t, hx, hm, hs⟩ := vqreplay_gives h (by
      rintro (hgt | ⟨hpos, hfrz⟩)
      · exact absurd hn (Nat.not_le.2 hgt)
      · rcases hv with h0 | h1
        · exact absurd h0 (Nat.ne_of_gt hpos)
        · simp [h1] at hfrz)
    refine ⟨t, hx, ?_, hs⟩
    rw [hm, vqreplayResult, show s.me.advanced.queue = [] from h.empty, show s.me.advanced.replaying = false from h.live]
    simp only [Bool.or_false, List.nil_append, bitsOf, pow_zero, Nat.div_one]
    rfl
  case refused =>
    refine trapsWith_of (vqreplayBody o) h rfl ((vqreplayBody_rest h.toAtRest o).trans (if_pos ?_))
    simpa [bitsOf] using hn

end Sys2Proof.Machine

namespace Sys2Proof.Machine

/-! Vector groups (R88, R133). -/

theorem packElems_lt (n : Nat) (l : List Nat) : packElems n l < 2 ^ (n * l.length) := by
  induction l with
  | nil => simp [packElems]
  | cons x xs ih =>
    have hx : x % 2 ^ n < 2 ^ n := Nat.mod_lt _ (by positivity)
    calc packElems n (x :: xs) = x % 2 ^ n + 2 ^ n * packElems n xs := rfl
      _ < 2 ^ n + 2 ^ n * packElems n xs := by omega
      _ = 2 ^ n * (packElems n xs + 1) := by ring
      _ ≤ 2 ^ n * 2 ^ (n * xs.length) := Nat.mul_le_mul_left _ ih
      _ = 2 ^ (n * (x :: xs).length) := by rw [← pow_add, List.length_cons]; ring_nf

/-- An element above those updated is the old one. -/
theorem elem_updateElems_above (n vl old : Nat) (f : Nat → Option Nat) (i : Nat) (hi : vl ≤ i) :
    elem n (updateElems n vl old f) i = elem n old i := by
  have hlt : packElems n ((List.range vl).map fun i => (f i).getD (elem n old i)) < 2 ^ (n * vl) := by
    simpa using packElems_lt n ((List.range vl).map fun i => (f i).getD (elem n old i))
  have hdiv : updateElems n vl old f / 2 ^ (n * vl) = old / 2 ^ (n * vl) := by
    rw [updateElems, Nat.add_mul_div_left _ _ (by positivity), Nat.div_eq_of_lt hlt, Nat.zero_add]
  obtain ⟨k, rfl⟩ := Nat.exists_eq_add_of_le hi
  rw [elem, elem, Nat.mul_add, pow_add, ← Nat.div_div_eq_div_mul, ← Nat.div_div_eq_div_mul, hdiv]

/-- An element inside a register's m bits. -/
theorem elem_ofNat {m : Nat} (n z i : Nat) (h : n * i + n ≤ m) : elem n (BitVec.ofNat m z).toNat i = elem n z i := by
  have hd : 2 ^ (n * i) * 2 ^ n ∣ 2 ^ m := by rw [← pow_add]; exact pow_dvd_pow 2 h
  rw [BitVec.toNat_ofNat, elem, elem, ← Nat.mod_mul_right_div_self, Nat.mod_mod_of_dvd _ hd, Nat.mod_mul_right_div_self]

theorem elem_mod (n z i : Nat) : elem n z i % 2 ^ n = elem n z i := Nat.mod_mod _ _

theorem Hart.setVreg_vreg (x : Hart) (n : Nat) (y : VReg) (hn : n < 64) : (x.setVreg n y).vreg n = y := by
  simp [Hart.vreg, Hart.setVreg, hn]

theorem Hart.setVreg_vreg_ne (x : Hart) (n k : Nat) (y : VReg) (hk : k ≠ n) : (x.setVreg n y).vreg k = x.vreg k := by
  simp [Hart.vreg, Hart.setVreg, Vector.getElem?_setIfInBounds_ne (Ne.symm hk)]

/-- Register j of the group at k once elements 0 to vl - 1 of the group are written from f. -/
def Hart.elemsWritten (x : Hart) (k n vl : Nat) (f : Nat → Option Nat) (j : Nat) : VReg :=
  BitVec.ofNat 4096 (updateElems n (min (4096 / n) (vl - 4096 / n * j)) (x.vreg (k + j)).toNat fun i => f (4096 / n * j + i))

/-- Every register of the group that holds elements below vl is written. -/
theorem Hart.setElems_vreg (x : Hart) (k n vl : Nat) (f : Nat → Option Nat) (j : Nat) (hj : j < (n * vl + 4095) / 4096)
    (hk : k + j < 64) : (x.setElems k n vl f).vreg (k + j) = x.elemsWritten k n vl f j := by
  refine foldl_marks (f := fun y j => y.setVreg (k + j) (x.elemsWritten k n vl f j))
    (P := fun y j => k + j < 64 → y.vreg (k + j) = x.elemsWritten k n vl f j)
    (fun y j hk => ?hit) (fun y j l hl hk => ?keep) _ j x (.inl (List.mem_range.2 hj)) hk
  case hit => exact Hart.setVreg_vreg y _ _ hk
  case keep =>
    by_cases hjl : j = l
    · subst hjl
      exact Hart.setVreg_vreg y _ _ hk
    · rw [Hart.setVreg_vreg_ne y _ _ _ (by omega)]
      exact hl hk

/-- No other register is. -/
theorem Hart.setElems_vreg_ne (x : Hart) (k n vl : Nat) (f : Nat → Option Nat) (j : Nat)
    (hj : j < k ∨ k + (n * vl + 4095) / 4096 ≤ j) : (x.setElems k n vl f).vreg j = x.vreg j := by
  unfold Hart.setElems
  refine List.foldlRecOn _ _ (motive := fun y : Hart => y.vreg j = x.vreg j) rfl fun y hy l hl => ?_
  rw [Hart.setVreg_vreg_ne y _ _ _ (by have := List.mem_range.1 hl; omega), hy]

/-- The element sizes divide a register. -/
theorem perReg {n : Nat} (hn : n ∈ [8, 16, 32, 64]) : ∃ per, 0 < per ∧ 0 < n ∧ n * per = 4096 ∧ 4096 / n = per := by
  simp only [List.mem_cons, List.not_mem_nil, or_false] at hn
  rcases hn with rfl | rfl | rfl | rfl <;> exact ⟨_, by decide, by decide, by decide, rfl⟩

theorem mul_div_reg {n per : Nat} (h : n * per = 4096) (hn : 0 < n) (i : Nat) : n * i / 4096 = i / per := by
  rw [← h, Nat.mul_div_mul_left _ _ hn]

/-- An element of the group after the write, where its register is one of those written. -/
theorem Hart.setElems_velem_written {n : Nat} (hn : n ∈ [8, 16, 32, 64]) (x : Hart) (k vl : Nat) (f : Nat → Option Nat) (i : Nat)
    (hj : n * i / 4096 < (n * vl + 4095) / 4096) (hk : k + n * i / 4096 < 64) :
    (x.setElems k n vl f).velem k n i = if i < vl then ((f i).map (· % 2 ^ n)).getD (x.velem k n i) else x.velem k n i := by
  obtain ⟨per, hper, hn0, hmul, hdiv⟩ := perReg hn
  have hi : per * (i / per) + i % per = i := Nat.div_add_mod ..
  have hmod : i % per < per := Nat.mod_lt _ hper
  have hfit : n * (i % per) + n ≤ 4096 := by
    calc n * (i % per) + n = n * (i % per + 1) := by ring
      _ ≤ n * per := Nat.mul_le_mul_left _ hmod
      _ = 4096 := hmul
  have hq := mul_div_reg hmul hn0 i
  rw [Hart.velem, Hart.velem, x.setElems_vreg k n vl f _ hj hk, Hart.elemsWritten, elem_ofNat _ _ _ (by rw [hdiv]; exact hfit)]
  simp only [hdiv, hq]
  split
  · next hlt =>
    rw [elem_updateElems _ _ _ _ _ (by omega), hi]
    cases f i with
    | none => exact elem_mod ..
    | some v => rfl
  · next hge => exact elem_updateElems_above _ _ _ _ _ (by omega)

/-- The registers below those that hold elements below vl. -/
theorem reg_lt_of_lt {n : Nat} (hn : n ∈ [8, 16, 32, 64]) {i vl : Nat} (h : i < vl) : n * i / 4096 < (n * vl + 4095) / 4096 := by
  simp only [List.mem_cons, List.not_mem_nil, or_false] at hn
  rcases hn with rfl | rfl | rfl | rfl <;> omega

/-- Settles O25: register by register of the group. -/
theorem vectorElements : Obligations.VectorElements := by
  unfold Obligations.VectorElements
  intro x k n vl f hn hk
  refine ⟨fun i hi => ?below, fun i hi h64 => ?above, fun j hj => x.setElems_vreg_ne k n vl f j hj, x.setElems_eq k n vl f⟩
  case below =>
    have hr := reg_lt_of_lt hn hi
    rw [x.setElems_velem_written hn k vl f i hr (by omega), if_pos hi]
  case above =>
    by_cases hr : n * i / 4096 < (n * vl + 4095) / 4096
    · rw [x.setElems_velem_written hn k vl f i hr h64, if_neg (Nat.not_lt.2 hi)]
    · rw [Hart.velem, x.setElems_vreg_ne k n vl f _ (.inr (by omega)), Hart.velem]

/-! Pushes (R99, R287). -/

/-- An effect outside of which nothing differs, and which leaves no result outstanding and no vector fault. -/
theorem completes_body {s u : State} {i : Instr} {o : Fields} {f : Hart → Hart} (body : State → Res) (h : s.CanRun i o)
    (hx : exec i s = issue i o body s) (hb : body s.begun = .ok u) (hs : s.SameOutside u)
    (hm : u.hart s.cur = f s.me.advanced) (hp : (f s.me.advanced).pend = []) (hc : (f s.me.advanced).rsPoison = [])
    (hf : (f s.me.advanced).headFaulted = false) : Completes i o s 0 f := by
  have hi := State.issued_settled (i := i) (o := o) u s.cur (by rw [hm, hp]) (by rw [hm, hc])
  have hme : (u.issued s.cur i o).hart s.cur = f s.me.advanced := by rw [hi, State.countIssue_hart, hm]
  have hsame : s.SameOutside (u.issued s.cur i o) := by rw [hi]; exact hs.countCore _ _ _
  have hcur : (u.issued s.cur i o).cur = s.cur := by rw [hsame.rest]
  refine ⟨u.issued s.cur i o, ?_, ?_, fun _ => ?_, hsame⟩
  · rw [hx, issue_run h, hb]
    exact congrArg _ (State.settle_unfaulted (by rw [hme, hf]))
  · rw [State.me, hcur, hme, Hart.landAll_nil _ hp]
  · rw [State.me, hcur, hme, hp]

/-- A hart at rest has room for an entry of at most four positions. -/
theorem Hart.pushWaits_rest {s : State} (h : s.AtRest) {n : Nat} (hn : n ≤ 4) : s.me.advanced.pushWaits n = false := by
  have ho : s.me.advanced.occupancy = 0 := by
    rw [Hart.occupancy, show s.me.advanced.vqtail = s.me.advanced.vcp from h.level, BitVec.sub_self]; rfl
  rw [Hart.pushWaits, ho, show s.me.advanced.queue = [] from h.empty]
  simp only [List.any_nil, Bool.or_false, decide_eq_false_iff_not]
  omega

/-- How the vector unit's work on the queue ends a push. -/
def Drive.res : Drive → Res
  | .ok u => .ok u
  | .stop f => .stop f

/-- A push on a hart at rest, up to the vector unit's work on the queue. -/
theorem pushBody_rest {s : State} {i : Instr} {o : Fields} {check : Fields → Hart → Option PushIll} {caps : Hart → List Word}
    {atIssue : State → State} (h : s.AtRest) (hcheck : check o s.me.advanced = none) (hcaps : (caps s.me.advanced).length ≤ 4) :
    pushBody i o check caps atIssue s.begun =
      (drainQ s.cur s.lead drainFuel
        (atIssue (s.begun.pushEntry s.cur (newEntry s.me.advanced i o (caps s.me.advanced) s.order)))).res := by
  have hw := Hart.pushWaits_rest h (n := max 1 (caps s.me.advanced).length) (by omega)
  unfold pushBody
  simp only [State.begun_cur, State.begun_me h, hw, Bool.false_eq_true, if_false, hcheck]
  change (match drainQ s.cur s.lead drainFuel
      (atIssue (s.begun.pushEntry s.cur (newEntry s.me.advanced i o (caps s.me.advanced) s.order))) with
    | .stop f => Res.stop f
    | .ok u => .ok u) = _
  cases drainQ s.cur s.lead drainFuel _ <;> rfl

theorem State.SameOutside.pushEntry {s t : State} (h : s.SameOutside t) (e : QEntry) : s.SameOutside (t.pushEntry s.cur e) :=
  ((h.order _).setHart _).countCore _ _ _

/-- The vector unit leaves a queue that is no longer than the scalar unit's lead (log 4). -/
theorem drainQ_short {t : State} {h n : Nat} (ho : (t.hart h).occupancy ≤ n) : drainQ h n drainFuel t = .ok t := by
  show drainFrom h n (520 + 1) [] t = _
  rw [drainFrom, if_pos (.inr ho)]

/-- An entry alone in its queue occupies at most its positions. -/
theorem pushedNow_occupancy_le {s : State} (h : s.AtRest) (i : Instr) (o : Fields) : ((s.pushedNow i o).hart s.cur).occupancy ≤ 4 := by
  obtain ⟨-, hsize⟩ : 1 ≤ (s.entry i o).size ∧ (s.entry i o).size ≤ 4 := newEntry_size s.me.advanced i o s.me.advanced s.order
  have hl : s.me.vqtail = s.me.vcp := h.level
  rw [State.pushedNow_hart h]
  show (s.me.vqtail + BitVec.ofNat 16 (s.entry i o).size - s.me.vcp).toNat ≤ 4
  rw [hl, add_sub_cancel_left, BitVec.toNat_ofNat]
  exact (Nat.mod_le _ _).trans hsize

/-- Settles O22: the entry is the one that `newEntry` makes of the begun hart, and the vector unit leaves it in the queue. -/
theorem pushCaptures : Obligations.PushCaptures := by
  unfold Obligations.PushCaptures
  intro s i o check h hcheck hcaps hlead hx
  refine ⟨⟨rfl, rfl, rfl, rfl, rfl, rfl, rfl, rfl, rfl⟩, ?_⟩
  refine completes_body (u := s.pushedNow i o) _ h (hx s) ?_ (.pushEntry (.start s) _) (State.pushedNow_hart h.toAtRest i o)
    h.settled h.clean (Hart.headFaulted_waiting ?_)
  · rw [pushBody_rest h.toAtRest hcheck hcaps]
    have hshort := (pushedNow_occupancy_le h.toAtRest i o).trans (show 4 ≤ s.lead by omega)
    exact congrArg Drive.res (drainQ_short hshort)
  · rintro e he
    rw [List.mem_singleton.1 he]
    rfl

end Sys2Proof.Machine

namespace Sys2Proof.Machine

/-! One entry that waits to start, alone on its core (R287). -/

/-- Entry e waits to start at the head of hart h's queue, alone there, and no other hart of the core has entries. -/
structure State.Lone (t : State) (h : Nat) (e : QEntry) : Prop where
  here : h < t.harts.length
  queue : (t.hart h).queue = [e]
  waits : e.stage = .waiting
  live : (t.hart h).replaying = false
  alone : ∀ k, k ≠ h → (t.hart k).coreNo = (t.hart h).coreNo → (t.hart k).queue = []
  calm : (t.core (t.hart h).coreNo).vuRun = 0

theorem State.pushEntry_begun_hart {s : State} (h : s.AtRest) (e : QEntry) :
    (s.begun.pushEntry s.cur e).hart s.cur =
      { s.me.advanced with queue := [e], vqtail := s.me.vqtail + BitVec.ofNat 16 e.size } := by
  have hm : ({ s.begun with order := s.begun.order + 1 } : State).hart s.cur = s.me.advanced := State.begun_me h
  rw [State.pushEntry, State.countCore_hart, State.hart_modHart _ _ _ (by simpa [State.begun] using h.here), hm,
    show s.me.advanced.queue = [] from h.empty]
  rfl

theorem State.pushEntry_begun_hart_ne (s : State) (e : QEntry) {k : Nat} (hk : k ≠ s.cur) :
    (s.begun.pushEntry s.cur e).hart k = s.hart k := by
  rw [State.pushEntry, State.countCore_hart, State.hart_modHart_ne _ _ _ _ hk]
  exact State.setHart_hart_ne s s.cur k _ hk

/-- A push on a hart at rest, whose core has no other entries. -/
theorem State.CanPush.lone {s : State} {i : Instr} {o : Fields} {check : Fields → Hart → Option PushIll} (h : s.CanPush i o check)
    {e : QEntry} (he : e.stage = .waiting) : (s.begun.pushEntry s.cur e).Lone s.cur e := by
  have hm := State.pushEntry_begun_hart h.toAtRest e
  have hc : ((s.begun.pushEntry s.cur e).hart s.cur).coreNo = s.me.coreNo := by rw [hm]; rfl
  refine ⟨?_, by rw [hm], he, by rw [hm]; exact h.live, fun k hk hkc => ?_, ?_⟩
  · simpa [State.pushEntry, State.begun] using h.here
  · rw [s.pushEntry_begun_hart_ne e hk] at hkc ⊢
    exact h.alone k hk (hkc.trans hc)
  · rw [hc, State.pushEntry, State.countCore_core]
    exact h.calm

/-- A change of the hart that leaves its queue and its place. -/
theorem State.Lone.modHart {t : State} {h : Nat} {e : QEntry} (l : t.Lone h e) (f : Hart → Hart)
    (hq : (f (t.hart h)).queue = (t.hart h).queue) (hr : (f (t.hart h)).replaying = (t.hart h).replaying)
    (hc : (f (t.hart h)).coreNo = (t.hart h).coreNo) : (t.modHart h f).Lone h e := by
  have hm := t.hart_modHart h f l.here
  refine ⟨by simpa using l.here, by rw [hm, hq, l.queue], l.waits, by rw [hm, hr, l.live], fun k hk hkc => ?_, ?_⟩
  · rw [t.hart_modHart_ne h k f hk] at hkc ⊢
    exact l.alone k hk (by rw [hkc, hm, hc])
  · rw [hm, hc]
    exact l.calm

/-- The head of the queue, performed. -/
def State.headDone (u : State) (h : Nat) (e : QEntry) (f : BitVec 8) (v : Option Word) : State :=
  u.modHart h fun y => y.setHead fun q =>
    { q with stage := .performed f (v.map fun w => ((fieldsOfInstr e.instr).d.toNat, w)) }

/-- A lone entry that its unit performs to the end completes in the same step, END's marker too. -/
theorem drain_lone {t u : State} {h : Nat} {e : QEntry} {f : BitVec 8} {v : Option Word} (l : t.Lone h e)
    (ho : (t.hart h).occupancy ≠ 0) (hd : performInstr none e h t = .done u f v)
    (hz : (((u.headDone h e f v).completeHead h).hart h).queue = []) :
    drainQ h 0 drainFuel t = .ok ((u.headDone h e f v).completeHead h) := by
  have hk := pick_alone l.queue l.waits l.live l.here l.alone
  have hp : t.performHead h none = .ok (u.headDone h e f v) := performHead_done none l.queue l.waits l.live hd
  have hw : ¬ ((!(t.hart h).headWaits) = true) := by simp [Hart.headWaits, l.queue, l.waits]
  show drainFrom h 0 (519 + 1 + 1) [] t = _
  rw [drainFrom, if_neg (by simp [l.queue, ho])]
  simp only [State.pickEntry, hk, chooseHart_one]
  rw [State.noteTaken, if_neg hw, hk, if_pos (by simp), if_pos l.calm, hp]
  simp only [Drive.bind, hz, l.queue, List.length_nil, List.length_singleton, Nat.zero_lt_one, if_true]
  rw [drainFrom, if_pos (by simp [hz])]

/-- The state that the head of a queue of one leaves where it completes (R96, R98, R99). -/
theorem State.headDone_hart {u : State} {h : Nat} {e : QEntry} (hh : h < u.harts.length) (hu : (u.hart h).queue = [e])
    (f : BitVec 8) (v : Option Word) : (u.headDone h e f v).hart h = { u.hart h with
      queue := [{ e with stage := .performed f (v.map fun w => ((fieldsOfInstr e.instr).d.toNat, w)) }] } := by
  rw [State.headDone, State.hart_modHart _ _ _ hh, Hart.setHead, hu]

/-- A hart at rest with a push of one to four positions. -/
theorem occupancy_pushed {s : State} (h : s.AtRest) {e : QEntry} (h1 : 1 ≤ e.size) (h4 : e.size ≤ 4) :
    ((s.begun.pushEntry s.cur e).hart s.cur).occupancy ≠ 0 := by
  have hl : s.me.vqtail = s.me.vcp := h.level
  rw [State.pushEntry_begun_hart h]
  show (s.me.vqtail + BitVec.ofNat 16 e.size - s.me.vcp).toNat ≠ 0
  rw [hl, add_sub_cancel_left, BitVec.toNat_ofNat]
  omega

/-! SETVL (R130, R131). -/

theorem typeBits_cases (w : Nat) : typeBits w = 8 ∨ typeBits w = 16 ∨ typeBits w = 32 ∨ typeBits w = 64 := by
  unfold typeBits
  split <;> simp

/-- The code of a width names it again. -/
theorem sewBits_widthCode (w : Nat) : 8 * 2 ^ (BitVec.ofNat 2 (widthCode (typeBits w))).toNat = typeBits w := by
  rcases typeBits_cases w with h | h | h | h <;> rw [h] <;> rfl

theorem setvlType_vlmax (o : Fields) :
    (setvlType o).vlmax = 2 ^ (o.f.extractLsb' 0 2).toNat * 512 / (typeBits o.w.toNat / 8) := by
  rw [Vtype.vlmax, Vtype.regs, Vtype.bits, setvlType, sewBits_widthCode]

theorem setvlLen_le (o : Fields) (x : Hart) : setvlLen o x ≤ 4096 := by
  refine (Nat.min_le_right _ _).trans ?_
  have hm : 2 ^ (o.f.extractLsb' 0 2).toNat ≤ 2 ^ 3 := Nat.pow_le_pow_right (by decide) (Nat.le_of_lt_succ (o.f.extractLsb' 0 2).isLt)
  rw [setvlType_vlmax]
  rcases typeBits_cases o.w.toNat with h | h | h | h <;> rw [h] <;> omega

/-- The capture of SETVL holds its length and its type. -/
theorem setvlCapture_fields {n : Nat} (hn : n ≤ 4096) (t : Vtype) :
    bitsOf (setvlCapture n t).toNat 0 13 = n ∧
      (⟨BitVec.ofNat 2 (bitsOf (setvlCapture n t).toNat 16 2), BitVec.ofNat 2 (bitsOf (setvlCapture n t).toNat 20 2)⟩ : Vtype) = t := by
  have hs : t.sew.toNat < 4 := t.sew.isLt
  have hl : t.lmul.toNat < 4 := t.lmul.isLt
  have hc : (setvlCapture n t).toNat = n + 65536 * (t.sew.toNat + 16 * t.lmul.toNat) := by
    rw [setvlCapture, BitVec.toNat_ofNat]; omega
  have h16 : bitsOf (setvlCapture n t).toNat 16 2 = t.sew.toNat := by rw [bitsOf, hc]; omega
  have h20 : bitsOf (setvlCapture n t).toNat 20 2 = t.lmul.toNat := by rw [bitsOf, hc]; omega
  refine ⟨by rw [bitsOf, hc]; omega, ?_⟩
  rw [h16, h20, BitVec.ofNat_toNat, BitVec.ofNat_toNat, BitVec.setWidth_eq, BitVec.setWidth_eq]

/-- A write of a scalar register changes the scalar registers alone. -/
theorem Hart.setReg_eq (x : Hart) (n : Nat) (v : Word) :
    x.setReg n v = { x with s := if n = 0 then x.s else x.s.setIfInBounds n v } := by
  unfold Hart.setReg
  split <;> rfl

/-- What SETVL leaves, in its own terms. -/
def Hart.afterSetvl (x : Hart) (o : Fields) (n : Nat) : Hart :=
  { x.setReg o.d.toNat (BitVec.ofNat 64 n) with
    vl := n, vtype := setvlType o, vlPush := n, vtPush := setvlType o, vqtail := x.vqtail + 1, vcp := x.vcp + 1, vstart := 0 }

/-- The entry that SETVL pushes. -/
def setvlEntry (s : State) (o : Fields) : QEntry :=
  newEntry s.me.advanced (.setvl o) o [setvlCapture (setvlLen o s.me) (setvlType o)] s.order

/-- The hart once SETVL is pushed. -/
def setvlPushed (s : State) (o : Fields) : Hart :=
  { s.me.advanced.setReg o.d.toNat (BitVec.ofNat 64 (setvlLen o s.me)) with
    vlPush := setvlLen o s.me, vtPush := setvlType o, queue := [setvlEntry s o], vqtail := s.me.vqtail + 1 }

/-- The state in which SETVL's entry stands in the queue. -/
def State.setvlStart (s : State) (o : Fields) : State :=
  (s.begun.pushEntry s.cur (setvlEntry s o)).modHart s.cur (setvlIssue o (setvlLen o s.me))

theorem setvlIssue_eq (o : Fields) (n : Nat) {x : Hart} (hp : x.pend = []) :
    setvlIssue o n x = { x.setReg o.d.toNat (BitVec.ofNat 64 n) with vlPush := n, vtPush := setvlType o } := by
  rw [setvlIssue, Hart.varResult_lands x hp]

theorem setvlIssue_pushed {s : State} (h : s.AtRest) (o : Fields) :
    setvlIssue o (setvlLen o s.me) ((s.begun.pushEntry s.cur (setvlEntry s o)).hart s.cur) = setvlPushed s o := by
  rw [State.pushEntry_begun_hart h, setvlIssue_eq o _ (by exact h.settled), setvlPushed, Hart.setReg_eq, Hart.setReg_eq]
  rfl

theorem State.setvlStart_lone {s : State} {o : Fields} (h : s.CanPush (.setvl o) o (fun _ _ => none)) :
    (s.setvlStart o).Lone s.cur (setvlEntry s o) := by
  refine State.Lone.modHart (h.lone rfl) _ ?_ ?_ ?_ <;>
    rw [setvlIssue_pushed h.toAtRest, setvlPushed, Hart.setReg_eq, State.pushEntry_begun_hart h.toAtRest]
  rfl

theorem State.setvlStart_hart {s : State} {o : Fields} (h : s.CanPush (.setvl o) o (fun _ _ => none)) :
    (s.setvlStart o).hart s.cur = setvlPushed s o :=
  (State.hart_modHart _ _ _ (h.lone (e := setvlEntry s o) rfl).here).trans (setvlIssue_pushed h.toAtRest o)

/-- The hart with VL and VTYPE as its performed SETVL sets them. -/
def setvlPerformed (s : State) (o : Fields) : Hart := { setvlPushed s o with vl := setvlLen o s.me, vtype := setvlType o }

theorem setvl_performed {s : State} {o : Fields} (h : s.CanPush (.setvl o) o (fun _ _ => none)) :
    performInstr none (setvlEntry s o) s.cur (s.setvlStart o) = .done ((s.setvlStart o).setHart s.cur (setvlPerformed s o)) 0 none := by
  have hm := State.setvlStart_hart h
  obtain ⟨hvl, hvt⟩ := setvlCapture_fields (setvlLen_le o s.me) (setvlType o)
  have hcap : (setvlEntry s o).cap 0 = setvlCapture (setvlLen o s.me) (setvlType o) := rfl
  have hraw : performRaw none (setvlEntry s o) s.cur (s.setvlStart o) =
      .done ((s.setvlStart o).setHart s.cur (setvlPerformed s o)) 0 none := by
    show memSetvl _ o _ _ = _
    rw [memSetvl, State.modHart, hm, hcap]
    simp only [hvl, hvt]
    rfl
  have hclean : ((s.setvlStart o).hart s.cur).rsPoison = [] := by
    rw [hm, setvlPushed, Hart.setReg_eq]
    exact h.clean
  rw [performInstr_clean none hclean (.inl rfl), hraw]
  rfl

theorem Hart.with_queue_empty {x : Hart} (hq : x.queue = []) : { x with queue := [] } = x := by
  rw [← hq]

/-- The performed SETVL completes. -/
theorem setvlPerformed_retired {s : State} (h : s.AtRest) (o : Fields) :
    (setvlPerformed s o).retired (setvlEntry s o) 0 none = s.me.advanced.afterSetvl o (setvlLen o s.me) := by
  have hq : (s.me.advanced.afterSetvl o (setvlLen o s.me)).queue = [] := by rw [Hart.afterSetvl, Hart.setReg_eq]; exact h.empty
  refine (Hart.orFlags_zero _).trans (Eq.trans ?_ (Hart.with_queue_empty hq))
  simp only [Hart.afterSetvl, setvlPerformed, setvlPushed, Hart.setReg_eq]
  rfl

theorem setvl_completes {s : State} {o : Fields} (h : s.CanPush (.setvl o) o (fun _ _ => none)) :
    Completes (.setvl o) o s 0 fun x => x.afterSetvl o (setvlLen o s.me) := by
  have l := State.setvlStart_lone h
  have hy := State.hart_setHart (s.setvlStart o) s.cur (setvlPerformed s o) l.here
  have hlen : s.cur < ((s.setvlStart o).setHart s.cur (setvlPerformed s o)).harts.length := by simpa using l.here
  have ho : ((s.setvlStart o).hart s.cur).occupancy ≠ 0 := by
    have hp := occupancy_pushed h.toAtRest (e := setvlEntry s o) (le_refl 1) (show 1 ≤ 4 by decide)
    rw [State.pushEntry_begun_hart h.toAtRest] at hp
    rw [State.setvlStart_hart h, setvlPushed, Hart.setReg_eq]
    exact hp
  have hdrain := drain_one l.queue l.waits l.live ho rfl nofun (setvl_performed h) (by rw [hy]; rfl) hlen l.here l.alone l.calm
  have hend : s.SameOutside (((s.setvlStart o).setHart s.cur (setvlPerformed s o)).modHart s.cur fun y => y.retired (setvlEntry s o) 0 none) :=
    ((((State.SameOutside.start s).pushEntry _).setHart _).setHart _).setHart _
  refine completes_body (setvlBody o) h.toCanRun rfl ?_ hend ?_ ?_ ?_ ?_
  · rw [setvlBody, State.begun_cur, State.begun_me h.toAtRest]
    refine (pushBody_rest h.toAtRest rfl (by simp)).trans ?_
    rw [h.prompt]
    exact congrArg Drive.res hdrain
  · rw [State.hart_modHart _ _ _ hlen, hy, setvlPerformed_retired h.toAtRest]
  · rw [Hart.afterSetvl, Hart.setReg_eq]; exact h.settled
  · rw [Hart.afterSetvl, Hart.setReg_eq]; exact h.clean
  · rw [Hart.afterSetvl, Hart.setReg_eq]; exact Hart.headFaulted_empty h.empty

/-- Settles O23: SETVL's length and type are those of its capture, which its entry puts in force. -/
theorem setvlEffect : Obligations.SetvlEffect := by
  unfold Obligations.SetvlEffect
  intro s o h
  refine (setvl_completes h).congr ?_
  rw [setvlLen, setvlType_vlmax]
  rfl

end Sys2Proof.Machine

namespace Sys2Proof.Machine

/-! END (R315, R316, R323). -/

/-- The strip that END takes, with the task after it: of a farm that runs and has one left. -/
def State.nextStrip (s : State) (task : Option Nat) : Option (Nat × Nat × Task) :=
  task.bind fun k => (s.tasks[k]?).bind fun t => if !t.farm || t.ended || t.st ≠ .running then none else t.handOut

/-- The hart that has come to its final END. -/
def Hart.toEnd (x : Hart) : Hart := { x with ending := true, pc := x.pc - 12 }

theorem endIssue_final {t : State} (h : t.nextStrip (t.hart t.cur).task = none) : endIssue t = t.modHart t.cur Hart.toEnd := by
  unfold State.nextStrip at h
  unfold endIssue
  dsimp only
  cases hk : (t.hart t.cur).task with
  | none => rfl
  | some k =>
    cases ht : t.tasks[k]? with
    | none => simp only [ht]; rfl
    | some a =>
      simp only [hk, ht, Option.bind_some] at h ⊢
      split at h
      · next hc => rw [if_pos hc]; rfl
      · next hc => rw [if_neg hc, h]; rfl

/-- The hart with the strip from b to e. -/
def Hart.takeStrip (x : Hart) (b e : Nat) : Hart :=
  { ((x.varResult 1 (BitVec.ofNat 64 b)).varResult 2 (BitVec.ofNat 64 (e - b))) with
    stripbase := BitVec.ofNat 64 b, striplen := BitVec.ofNat 32 (e - b), strips := x.strips ++ [(b, e)] }

theorem endIssue_strip {t : State} {b e : Nat} {a : Task} (h : t.nextStrip (t.hart t.cur).task = some (b, e, a)) :
    ∃ k f, (t.hart t.cur).task = some k ∧ endIssue t = (t.modHart t.cur fun x => x.takeStrip b e).modTask k f := by
  unfold State.nextStrip at h
  unfold endIssue
  dsimp only
  cases hk : (t.hart t.cur).task with
  | none => rw [hk] at h; cases h
  | some k =>
    cases ht : t.tasks[k]? with
    | none => simp only [hk, ht, Option.bind_some] at h; cases h
    | some c =>
      simp only [hk, ht, Option.bind_some] at h ⊢
      split at h
      · cases h
      · next hc =>
        rw [if_neg hc, h]
        exact ⟨k, _, rfl, rfl⟩

/-- END's marker completes: its strip is done, and a final END ends the hart. -/
theorem completeHead_end {u : State} {h : Nat} {e : QEntry} {o : Fields} (hh : h < u.harts.length) (hu : (u.hart h).queue = [e])
    (hp : e.part = false) (hi : e.instr = .endI o) :
    (u.headDone h e 0 none).completeHead h = (u.modHart h fun y => y.retired e 0 none).endDone h := by
  have hx := State.headDone_hart hh hu 0 none
  unfold State.completeHead
  simp only [hx, hi]
  dsimp only [Option.map_none]
  rw [if_neg (by simp [hp])]
  simp only [State.headDone, State.modHart, State.setHart_setHart]
  rfl

/-- The hart with its outstanding strips. -/
def Hart.withStrips (x : Hart) (l : List (Nat × Nat)) : Hart := { x with strips := l }

/-- The package with its tasks. -/
def State.withTasks (t : State) (ts : List Task) : State := { t with tasks := ts }

@[simp] theorem State.withTasks_hart (t : State) (ts : List Task) (h : Nat) : (t.withTasks ts).hart h = t.hart h := rfl

theorem State.withTasks_modHart (t : State) (ts : List Task) (h : Nat) (f : Hart → Hart) :
    (t.withTasks ts).modHart h f = (t.modHart h f).withTasks ts := rfl

theorem State.modHart_modHart (t : State) {h : Nat} (f g : Hart → Hart) (hh : h < t.harts.length) :
    (t.modHart h f).modHart h g = t.modHart h fun x => g (f x) := by
  rw [State.modHart, State.hart_modHart _ _ _ hh, State.modHart, State.setHart_setHart]
  rfl

/-- A strip that is done changes the hart's strips and its task, and no more. -/
theorem State.stripDone_eq (t : State) (h : Nat) :
    ∃ l ts, t.stripDone h = (t.modHart h fun x => x.withStrips l).withTasks ts ∧
      ((t.hart h).task.isSome → l = (t.hart h).strips.tail) := by
  unfold State.stripDone
  dsimp only
  split
  · next p r k hs hk => exact ⟨r, _, rfl, fun _ => by rw [hs]; rfl⟩
  · next hno =>
    refine ⟨(t.hart h).strips, t.tasks, ?_, fun hk => ?_⟩
    · rw [State.modHart_self t h _ rfl]; rfl
    · obtain ⟨k, hk⟩ := Option.isSome_iff_exists.1 hk
      cases hs : (t.hart h).strips with
      | nil => rfl
      | cons p r => exact absurd hk (hno p r k hs)

/-- The hart that stops for good with its results in and its queue empty. -/
theorem Hart.halt_rest {x : Hart} (hq : x.queue = []) (hp : x.pend = []) : x.halt = { x with
    queue := [], vcp := x.vqtail, bound := false, stopped := true, waiting := false, held := false, heldPush := false
    leftAt := none } := by
  rw [Hart.halt, show x.endStarted = x by rw [Hart.endStarted, hq], Hart.landAll_nil x hp]

/-- The entry that END pushes. -/
def endEntry (s : State) (o : Fields) : QEntry := newEntry s.me.advanced (.endI o) o [] s.order

/-- END's marker reaches no unit. -/
theorem end_performed {t : State} {h : Nat} {e : QEntry} {o : Fields} (hi : e.instr = .endI o) (hc : (t.hart h).rsPoison = []) :
    performInstr none e h t = .done t 0 none := by
  have hraw : performRaw none e h t = .done t 0 none := by rw [performRaw, hi]
  have hcount : t.countPipes e (t.hart h) (t.hart h) true = t := by
    rw [State.countPipes, hi]
    rfl
  rw [performInstr_clean none hc (.inl (by rw [hi]; rfl)), hraw]
  exact congrArg (fun u => PRes.done u 0 none) hcount

/-- The hart that a final END leaves, of the hart at its marker's completion. -/
def Hart.ended (x : Hart) (l : List (Nat × Nat)) (cyc : Word) : Hart :=
  { x with strips := l, queue := [], vcp := x.vqtail, bound := false, stopped := true, waiting := false, held := false
           heldPush := false, leftAt := some cyc }

theorem State.endDone_final {t : State} {h : Nat} (hh : h < t.harts.length) (he : (t.hart h).ending = true)
    (hq : (t.hart h).queue = []) (hp : (t.hart h).pend = []) :
    ∃ l ts, t.endDone h = (t.setHart h ((t.hart h).ended l t.cyc)).withTasks ts := by
  obtain ⟨l, ts, hs, -⟩ := t.stripDone_eq h
  have hc : ((t.hart h).ending && (t.hart h).queue.isEmpty) = true := by rw [he, hq]; rfl
  have hx : { ((t.hart h).withStrips l).halt with leftAt := some t.cyc } = (t.hart h).ended l t.cyc := by
    rw [Hart.halt_rest (x := (t.hart h).withStrips l) hq hp]
    rfl
  refine ⟨l, ts, ?_⟩
  rw [State.endDone, if_pos hc, State.endHart, hs, State.withTasks_modHart, State.modHart_modHart t _ _ hh]
  exact congrArg (fun x => (t.setHart h x).withTasks ts) hx

theorem State.endDone_strip {t : State} {h : Nat} (he : (t.hart h).ending = false) (hk : (t.hart h).task.isSome) :
    ∃ ts, t.endDone h = (t.setHart h ((t.hart h).withStrips (t.hart h).strips.tail)).withTasks ts := by
  obtain ⟨l, ts, hs, hl⟩ := t.stripDone_eq h
  refine ⟨ts, ?_⟩
  rw [State.endDone, he, Bool.false_and, if_neg (by decide), hs, hl hk]
  rfl

/-- The hart at a pushed END. -/
def endPushed (s : State) (o : Fields) : Hart :=
  { s.me.advanced with queue := [endEntry s o], vqtail := s.me.vqtail + 1 }

theorem endPushed_hart {s : State} (h : s.AtRest) (o : Fields) :
    (s.begun.pushEntry s.cur (endEntry s o)).hart s.cur = endPushed s o := State.pushEntry_begun_hart h _

theorem endPushed_occupancy {s : State} (h : s.AtRest) (o : Fields) : (endPushed s o).occupancy ≠ 0 := by
  rw [← endPushed_hart h]
  exact occupancy_pushed h (le_refl 1) (show 1 ≤ 4 by decide)

theorem nextStrip_pushed {s : State} (h : s.AtRest) (o : Fields) :
    let t := s.begun.pushEntry s.cur (endEntry s o)
    t.nextStrip (t.hart t.cur).task = s.nextStrip s.me.task := by
  show s.nextStrip ((s.begun.pushEntry s.cur (endEntry s o)).hart s.cur).task = _
  rw [endPushed_hart h]
  rfl

/-- The marker's hart completes. -/
theorem Hart.retired_end {x : Hart} (e : QEntry) : x.retired e 0 none =
    { x with queue := [], vcp := x.vcp + BitVec.ofNat 16 e.size, vstart := 0 } := Hart.orFlags_zero _

/-- y has the queue, the outstanding results, the poison and the place of x. -/
structure Hart.SameQueue (x y : Hart) : Prop where
  queue : y.queue = x.queue
  pend : y.pend = x.pend
  rsPoison : y.rsPoison = x.rsPoison
  replaying : y.replaying = x.replaying
  coreNo : y.coreNo = x.coreNo
  occupancy : y.occupancy = x.occupancy

theorem State.SameMemory.pushed (s : State) (e : QEntry) : s.SameMemory (s.begun.pushEntry s.cur e) :=
  ⟨rfl, fun _ hk => s.pushEntry_begun_hart_ne e hk, fun _ => rfl⟩

theorem State.SameMemory.withTasks {s t : State} (h : s.SameMemory t) (ts : List Task) : s.SameMemory (t.withTasks ts) := h

/-- END on a hart at rest, where its issue leaves the hart y, and its marker's completion one of which P holds. -/
theorem exec_end {s : State} {o : Fields} {g : Hart → Hart} {t1 : List Task} {y : Hart} {P : Hart → Prop}
    (h : s.CanPush (.endI o) o (fun _ _ => none))
    (hissue : endIssue (s.begun.pushEntry s.cur (endEntry s o)) = ((s.begun.pushEntry s.cur (endEntry s o)).modHart s.cur g).withTasks t1)
    (hy : g (endPushed s o) = y) (hg : (endPushed s o).SameQueue y)
    (hdone : ∀ u : State, s.cur < u.harts.length → u.hart s.cur = y.retired (endEntry s o) 0 none → u.cyc = s.cyc →
      ∃ z ts, u.endDone s.cur = (u.setHart s.cur z).withTasks ts ∧ P z)
    (hP : ∀ z, P z → z.queue = [] ∧ z.pend = [] ∧ z.rsPoison = []) :
    ∃ t, exec (.endI o) s = .next t ∧ s.SameMemory t ∧ (∀ c, (t.core c).store = (s.core c).store) ∧ P t.me := by
  let e := endEntry s o
  let p := s.begun.pushEntry s.cur e
  have l0 : p.Lone s.cur e := h.lone rfl
  have hpush : p.hart s.cur = endPushed s o := endPushed_hart h.toAtRest o
  have l : ((p.modHart s.cur g).withTasks t1).Lone s.cur e := by
    obtain ⟨here, queue, waits, live, alone, calm⟩ := l0.modHart g (by rw [hpush, hy, hg.queue]) (by rw [hpush, hy, hg.replaying])
      (by rw [hpush, hy, hg.coreNo])
    exact ⟨here, queue, waits, live, alone, calm⟩
  have hyt : ((p.modHart s.cur g).withTasks t1).hart s.cur = y := by
    rw [State.withTasks_hart, State.hart_modHart _ _ _ l0.here, hpush, hy]
  let u := ((p.modHart s.cur g).withTasks t1).modHart s.cur fun y => y.retired e 0 none
  have hlen : s.cur < u.harts.length := by simpa [u] using l.here
  have hu : u.hart s.cur = y.retired e 0 none := by rw [State.hart_modHart _ _ _ l.here, hyt]
  obtain ⟨z, ts, hend, hPz⟩ := hdone u hlen hu rfl
  obtain ⟨hq, hp, hc⟩ := hP z hPz
  have hz : (u.endDone s.cur).hart s.cur = z := by
    rw [hend, State.withTasks_hart, State.hart_setHart _ _ _ hlen]
  have hcomp := completeHead_end l.here l.queue (o := o) rfl rfl
  have hdrain := drain_lone l (by rw [hyt, hg.occupancy]; exact endPushed_occupancy h.toAtRest o)
    (end_performed rfl (by rw [hyt, hg.rsPoison]; exact h.clean)) (by rw [hcomp]; exact (congrArg Hart.queue hz).trans hq)
  rw [hcomp] at hdrain
  have hbody : pushBody (.endI o) o (fun _ _ => none) (fun _ => []) endIssue s.begun = .ok (u.endDone s.cur) := by
    refine (pushBody_rest h.toAtRest rfl (by simp)).trans ?_
    rw [h.prompt]
    exact congrArg Drive.res ((congrArg (drainQ s.cur 0 drainFuel) hissue).trans hdrain)
  have hsame : s.SameMemory (u.endDone s.cur) := by
    rw [hend]
    exact (((State.SameMemory.pushed s e).modHart g).withTasks t1).modHart _ |>.modHart (fun _ => z) |>.withTasks ts
  refine ⟨(u.endDone s.cur).countIssue ((u.endDone s.cur).hart s.cur).coreNo (.endI o), ?_, hsame.countCore _ _ _, fun c => ?_, ?_⟩
  · rw [show exec (.endI o) s = issue (.endI o) o (pushBody (.endI o) o (fun _ _ => none) (fun _ => []) endIssue) s from rfl,
      issue_run h.toCanRun, hbody]
    show Host.Outcome.next _ = _
    rw [State.settle_unfaulted (Hart.headFaulted_empty (by rw [issued_queue, hz, hq])),
      State.issued_settled _ _ (by rw [hz, hp]) (by rw [hz, hc])]
  · rw [State.countIssue, State.countCore_core, hend]
    show (p.core c).store = _
    rw [show p.core c = _ from State.countCore_core ..]
    rfl
  · have hcur : (u.endDone s.cur).cur = s.cur := hsame.1
    rw [State.me, State.countIssue_hart, State.countIssue, State.countCore_cur, hcur, hz]
    exact hPz

/-- A final END ends its hart, which leaves its slot. -/
theorem end_final {s : State} {o : Fields} (h : s.CanPush (.endI o) o (fun _ _ => none)) (hg : s.nextStrip s.me.task = none) :
    ∃ t, exec (.endI o) s = .next t ∧ s.SameMemory t ∧ (∀ c, (t.core c).store = (s.core c).store) ∧
      ∃ l, t.me = ((endPushed s o).toEnd.retired (endEntry s o) 0 none).ended l s.cyc := by
  refine exec_end (g := Hart.toEnd) (P := fun z => ∃ l, z = ((endPushed s o).toEnd.retired (endEntry s o) 0 none).ended l s.cyc) h
    (endIssue_final ((nextStrip_pushed h.toAtRest o).trans hg)) rfl ⟨rfl, rfl, rfl, rfl, rfl, rfl⟩ (fun u hlen hu hcyc => ?_) ?_
  · have hr := hu.trans (Hart.retired_end _)
    obtain ⟨l, ts, hend⟩ := State.endDone_final hlen (by rw [hr]; rfl) (by rw [hr]) (by rw [hr]; exact h.settled)
    exact ⟨_, ts, hend, l, by rw [hu, hcyc]⟩
  · rintro z ⟨l, rfl⟩
    rw [Hart.retired_end]
    exact ⟨rfl, h.settled, h.clean⟩

/-- The hart at a pushed END with its next strip, whose results land at once. -/
theorem Hart.takeStrip_eq {x : Hart} (hp : x.pend = []) (b e : Nat) : x.takeStrip b e = { x with
    s := (x.s.setIfInBounds 1 (BitVec.ofNat 64 b)).setIfInBounds 2 (BitVec.ofNat 64 (e - b))
    stripbase := BitVec.ofNat 64 b, striplen := BitVec.ofNat 32 (e - b), strips := x.strips ++ [(b, e)] } := by
  have h1 : x.varResult 1 (BitVec.ofNat 64 b) = { x with s := x.s.setIfInBounds 1 (BitVec.ofNat 64 b) } :=
    (x.varResult_lands hp ..).trans (x.setReg_eq ..)
  rw [Hart.takeStrip, h1, Hart.varResult_lands _ (by exact hp), Hart.setReg_eq]
  rfl

/-- The hart that goes on behind an END with the strip from b to e, the strip that the END closes done. -/
def afterStrip (s : State) (o : Fields) (b e : Nat) : Hart :=
  (((endPushed s o).takeStrip b e).retired (endEntry s o) 0 none).withStrips (s.me.strips ++ [(b, e)]).tail

theorem end_strip {s : State} {o : Fields} {b e : Nat} {k : Task} (h : s.CanPush (.endI o) o (fun _ _ => none))
    (hnot : s.me.ending = false) (hg : s.nextStrip s.me.task = some (b, e, k)) :
    ∃ t, exec (.endI o) s = .next t ∧ s.SameMemory t ∧ (∀ c, (t.core c).store = (s.core c).store) ∧ t.me = afterStrip s o b e := by
  have hm := Hart.takeStrip_eq (x := endPushed s o) h.settled b e
  obtain ⟨n, f, htask, hissue⟩ := endIssue_strip ((nextStrip_pushed h.toAtRest o).trans hg)
  have htask' : s.me.task = some n := by
    rw [show State.cur (s.begun.pushEntry s.cur (endEntry s o)) = s.cur from rfl, endPushed_hart h.toAtRest] at htask
    exact htask
  refine exec_end (g := fun x => x.takeStrip b e) (P := fun z => z = afterStrip s o b e) h hissue hm
    ⟨rfl, rfl, rfl, rfl, rfl, rfl⟩ (fun u hlen hu hcyc => ?_) ?_
  · rw [← hm] at hu
    have hr := hu.trans (by rw [Hart.retired_end, hm])
    obtain ⟨ts, hend⟩ := State.endDone_strip (t := u) (h := s.cur) (by rw [hr]; exact hnot) (by rw [hr]; exact htask' ▸ rfl)
    refine ⟨_, ts, hend, ?_⟩
    rw [hu, afterStrip, hm, Hart.retired_end]
    rfl
  · rintro z rfl
    rw [afterStrip, hm, Hart.retired_end]
    exact ⟨rfl, h.settled, h.clean⟩

/-- Settles O24: END's marker is alone in the queue and completes in the step that pushes it. -/
theorem finalEnd : Obligations.FinalEnd := by
  unfold Obligations.FinalEnd
  intro s o h hnot given
  have hgiven : given = s.nextStrip s.me.task := rfl
  rw [hgiven]
  refine ⟨?any, fun hg => ?final, fun b e k hg => ?strip⟩
  case any =>
    cases hg : s.nextStrip s.me.task with
    | none =>
      obtain ⟨t, hx, ⟨hcur, hother, -⟩, -⟩ := end_final h hg
      exact ⟨t, hx, hcur, hother⟩
    | some p =>
      obtain ⟨t, hx, ⟨hcur, hother, -⟩, -⟩ := end_strip h hnot hg
      exact ⟨t, hx, hcur, hother⟩
  case final =>
    obtain ⟨t, hx, ⟨-, -, hmem⟩, hstore, l, hme⟩ := end_final h hg
    rw [Hart.retired_end] at hme
    refine ⟨t, hx, ?_⟩
    rw [hme]
    exact ⟨rfl, rfl, rfl, nextPc_sub s.me.pc, rfl, rfl, hstore _, hmem⟩
  case strip =>
    obtain ⟨t, hx, ⟨-, -, hmem⟩, -, hme⟩ := end_strip h hnot hg
    rw [afterStrip, Hart.takeStrip_eq (x := endPushed s o) h.settled, Hart.retired_end] at hme
    refine ⟨t, hx, ?_⟩
    rw [hme]
    refine ⟨?_, ?_, rfl, rfl, rfl, hnot, rfl, rfl, rfl, hmem⟩ <;> simp [Hart.reg, Hart.withStrips]

end Sys2Proof.Machine

namespace Sys2Proof.Machine

/-! Queued accesses that change only their hart (R240, R244, R255). -/

/-- A queued instruction whose unit performs it to the end, with nothing changed outside its hart. -/
theorem completes_performed {s u : State} {i : Instr} {o : Fields} {check : Fields → Hart → Option PushIll} {y : Hart}
    {f : BitVec 8} {v : Option Word} (h : s.CanPush i o check) (hx : exec i s = vecIssue i o check s) (hi : ∀ o, i ≠ .endI o)
    (hd : performInstr none (s.entry i o) s.cur (s.pushedNow i o) = .done u f v) (hu : u.hart s.cur = y) (hs : s.SameOutside u)
    (hq : y.queue = [s.entry i o]) (hp : y.pend = []) (hc : y.rsPoison = []) :
    Completes i o s 0 fun _ => y.retired (s.entry i o) f v := by
  have hlen : s.cur < u.harts.length := by rw [hs.number]; exact h.here
  have hcur : u.cur = s.cur := by rw [hs.rest]
  have hz : (u.modHart s.cur fun y => y.retired (s.entry i o) f v).hart s.cur = y.retired (s.entry i o) f v := by
    rw [State.hart_modHart _ _ _ hlen, hu]
  have hpz : (y.retired (s.entry i o) f v).pend = [] := by
    unfold Hart.retired; cases v <;> simp [Hart.varResult, hp]
  have hcz : (y.retired (s.entry i o) f v).rsPoison = [] := by
    unfold Hart.retired; cases v <;> simp [Hart.varResult, hc]
  have hend := State.issued_settled (i := i) (o := o) (u.modHart s.cur fun y => y.retired (s.entry i o) f v) s.cur
    (by rw [hz, hpz]) (by rw [hz, hcz])
  have hme : ((u.modHart s.cur fun y => y.retired (s.entry i o) f v).issued s.cur i o).me = y.retired (s.entry i o) f v := by
    rw [hend, State.me, State.countIssue_hart, State.countIssue, State.countCore_cur, State.modHart_cur, hcur, hz]
  refine ⟨_, retires_of h hx hi hd (by rw [hu, hq]) hlen, ?_, fun _ => ?_, ?_⟩
  · rw [hme, Hart.landAll_nil _ hpz]
  · rw [hme, hpz]
  · rw [hend]
    exact (hs.setHart _).countCore _ _ _

/-- The hart once its entry stands in its queue. -/
def State.pushedMe (s : State) (i : Instr) (o : Fields) : Hart :=
  { s.me.advanced with queue := [s.entry i o], vqtail := s.me.vqtail + BitVec.ofNat 16 (s.entry i o).size }

/-- An entry of a memory instruction, which no pipe counts, that is performed to the end and leaves the hart y. -/
theorem completes_access {s : State} {i : Instr} {o : Fields} {check : Fields → Hart → Option PushIll} {y : Hart}
    (h : s.CanPush i o check) (hx : exec i s = vecIssue i o check s) (hi : ∀ o, i ≠ .endI o)
    (hv : retiresEmpty i = false ∨ (s.entry i o).vl ≠ 0) (hcount : ∀ (t : State) x z, t.countPipes (s.entry i o) x z true = t)
    (hd : performRaw none (s.entry i o) s.cur (s.pushedNow i o) = .done ((s.pushedNow i o).setHart s.cur y) 0 none)
    (hq : y.queue = [s.entry i o]) (hp : y.pend = []) (hc : y.rsPoison = []) :
    Completes i o s 0 fun _ => y.retired (s.entry i o) 0 none := by
  have hn := State.pushedNow_hart h.toAtRest i o
  refine completes_performed h hx hi (u := (s.pushedNow i o).setHart s.cur y) ?_
    (State.hart_setHart _ _ _ (pushedNow_here h.toAtRest i o)) (((State.SameOutside.start s).pushEntry _).setHart _) hq hp hc
  rw [performInstr_clean none (by rw [hn]; exact h.clean) hv, hd]
  exact congrArg (fun t => PRes.done t 0 none) (hcount _ _ _)

/-- A performed access that wrote vector and fibre registers completes. -/
theorem retired_pushed {s : State} (h : s.AtRest) (i : Instr) (o : Fields) (v : Vector VReg 64) (fib : Vector Fibre 16) :
    ({ s.pushedMe i o with v := v, fib := fib } : Hart).retired (s.entry i o) 0 none = { s.me.advanced with
      v := v, fib := fib, vqtail := s.me.vqtail + BitVec.ofNat 16 (s.entry i o).size
      vcp := s.me.vcp + BitVec.ofNat 16 (s.entry i o).size, vstart := 0 } :=
  (Hart.orFlags_zero _).trans (Hart.with_queue_empty (x := { s.me.advanced with
    v := v, fib := fib, vqtail := s.me.vqtail + BitVec.ofNat 16 (s.entry i o).size
    vcp := s.me.vcp + BitVec.ofNat 16 (s.entry i o).size, vstart := 0 }) h.empty)

/-! Elements that are loaded one by one. -/

/-- Elements that change nothing give what each gives. -/
theorem runElems_loads {f : State → Nat → Eff} {val : Nat → Nat} {s : State} (l : List Nat) (hf : ∀ i ∈ l, f s i = .ok s (val i) 0)
    (v : Table Nat) (g : BitVec 8) : runElems f l s v g = .ok s (v ++ l.map fun i => (i, val i)) g := by
  induction l generalizing v with
  | nil => simp [runElems]
  | cons i l ih =>
    rw [runElems, hf i (by simp)]
    dsimp only
    rw [show g ||| 0 = g from BitVec.or_zero, ih (fun j hj => hf j (by simp [hj]))]
    simp

theorem tfind_pairs (l : List Nat) (val : Nat → Nat) (k : Nat) :
    tfind (l.map fun i => (i, val i)) k = if k ∈ l then some (val k) else none := by
  induction l with
  | nil => rfl
  | cons i l ih =>
    rw [List.map_cons, tfind]
    by_cases hk : i = k
    · subst hk; simp
    · rw [if_neg hk, ih]
      simp [Ne.symm hk]

/-- Of an entry that is not in part every active element is to be performed. -/
theorem mem_dueElems {e : QEntry} (hp : e.part = false) (o : Fields) (x : Hart) (i : Nat) :
    i ∈ dueElems e o x ↔ i < e.vl ∧ activeAt e o x i = true := by
  simp [dueElems, dueAt, hp]

/-- A load does nothing once its elements are through. -/
theorem BatchEnd.stored_same (r : BatchEnd) : (r.stored fun b => .ok b.s 0 0) = r := by
  cases r <;> rfl

/-- A memory instruction whose elements are all loaded. -/
theorem finish_loads {f : State → Nat → Eff} {val : Nat → Nat} {s : State} {h g : Nat} {l : List Nat} {store : Bool}
    (put : Hart → Table Nat → Hart) (hl : l.Pairwise (· < ·)) (hf : ∀ i ∈ l, f s i = .ok s (val i) 0) :
    finishBatch s h f l (runGroups f (groupsOf g l) { s := s }) put store =
      .done (s.setHart h (put (s.hart h) (l.map fun i => (i, val i)))) 0 none := by
  rw [runGroups_ok f g l s hl (runElems_loads l hf [] 0)]
  rfl

theorem leNat_lt (l : List Byte) : leNat l < 256 ^ l.length := by
  induction l with
  | nil => simp [leNat]
  | cons b bs ih =>
    have hb : b.toNat < 256 := b.isLt
    rw [leNat, List.length_cons, pow_succ]
    omega

theorem memBytes_length (m : List Host.Cell) (a n : Nat) : (memBytes m a n).length = n := by
  induction n generalizing a with
  | zero => rfl
  | succ n ih => rw [memBytes, List.length_cons, ih]

theorem memNat_lt (m : List Host.Cell) (a n : Nat) : memNat m a n < 2 ^ (8 * n) := by
  have h := leNat_lt (memBytes m a n)
  rw [memBytes_length] at h
  rw [pow_mul]
  exact h

theorem Vtype.bits_cases (t : Vtype) : t.bits ∈ [8, 16, 32, 64] := by
  have hs := t.sew.isLt
  rw [Vtype.bits]
  rcases (by omega : t.sew.toNat = 0 ∨ t.sew.toNat = 1 ∨ t.sew.toNat = 2 ∨ t.sew.toNat = 3) with h | h | h | h <;> rw [h] <;> decide

theorem Vtype.bits_eq (t : Vtype) : 8 * (t.bits / 8) = t.bits := by
  rw [Vtype.bits, Nat.mul_div_cancel_left _ (by decide)]

/-- A group of at most VLMAX elements fills at most its LMUL registers (R130). -/
theorem Vtype.group_le (t : Vtype) {vl : Nat} (h : vl ≤ t.vlmax) : (t.bits * vl + 4095) / 4096 ≤ t.regs := by
  have hb := t.bits_cases
  rw [Vtype.vlmax] at h
  simp only [List.mem_cons, List.not_mem_nil, or_false] at hb
  rcases hb with hb | hb | hb | hb <;> rw [hb] at h ⊢ <;> omega

theorem alignIll_none {x : Hart} {f : BitVec 8} {g : Nat} (h : alignIll x f g = none) : resolveVec x f + g ≤ 64 := by
  unfold alignIll at h
  dsimp only at h
  split at h
  · cases h
  · next hc => omega

/-! Dense and peer loads from lane memory (R215, R240, R244). -/

theorem State.loadEl_lane {s : State} {w : Who} (hw : w.lm = true) (formatted : Bool) (a : Word) (n : Nat) (ha : a.toNat < laneSize)
    (hp : s.lanePoisoned w.core a.toNat n = false) : s.loadEl w formatted a n = .ok s (memNat s.mem (laneAt (w.core, a)) n) 0 := by
  rw [State.loadEl, if_pos hw, State.laneLoad, if_neg (Nat.not_le.2 ha), hp]
  rfl

theorem State.laneLoad_ok {s : State} (w : Who) (core : Nat) (a : Word) (n : Nat) (ha : a.toNat < laneSize)
    (hp : s.lanePoisoned core a.toNat n = false) : s.laneLoad w core a n = .ok s (memNat s.mem (laneAt (core, a)) n) 0 := by
  rw [State.laneLoad, if_neg (Nat.not_le.2 ha), hp]
  rfl

/-- The hart whose vector group holds what was loaded. -/
def Hart.loaded (x : Hart) (e : QEntry) (o : Fields) (val : Nat → Nat) : Hart :=
  putGroup e e.vd e.vt.bits x ((dueElems e o x).map fun i => (i, val i))

theorem Hart.loaded_eq (x : Hart) (e : QEntry) (o : Fields) (val : Nat → Nat) :
    x.loaded e o val = { x with v := (x.loaded e o val).v } := by
  unfold Hart.loaded putGroup
  split
  · rfl
  · exact Hart.setElems_eq ..

theorem Hart.loaded_velem {x : Hart} {e : QEntry} (hp : e.part = false) (o : Fields) (val : Nat → Nat)
    (hval : ∀ i, val i < 2 ^ e.vt.bits) (hvl : e.vl ≤ e.vt.vlmax) (hreg : e.vd + e.vt.regs ≤ 64) (i : Nat) (hi : i < e.vl) :
    (x.loaded e o val).velem e.vd e.vt.bits i = if activeAt e o x i then val i else x.velem e.vd e.vt.bits i := by
  have hmem := mem_dueElems hp o x i
  have hgroup := e.vt.group_le hvl
  unfold Hart.loaded putGroup
  split
  · next he =>
    have hnot : i ∉ dueElems e o x := by
      rw [List.isEmpty_iff, List.map_eq_nil_iff] at he
      simp [he]
    rw [if_neg fun ha => hnot (hmem.2 ⟨hi, ha⟩)]
  · rw [Hart.setElems_velem_written e.vt.bits_cases _ _ _ _ _ (reg_lt_of_lt e.vt.bits_cases hi)
      (by have := reg_lt_of_lt e.vt.bits_cases hi; omega), if_pos hi, tfind_pairs]
    by_cases ha : activeAt e o x i = true
    · rw [if_pos (hmem.2 ⟨hi, ha⟩), if_pos ha]
      exact Nat.mod_eq_of_lt (hval i)
    · rw [if_neg fun hd => ha (hmem.1 hd).2, if_neg ha]
      rfl

theorem Hart.loaded_vreg (x : Hart) {e : QEntry} (o : Fields) (val : Nat → Nat) (hvl : e.vl ≤ e.vt.vlmax) (j : Nat)
    (hj : j < e.vd ∨ e.vd + e.vt.regs ≤ j) : (x.loaded e o val).vreg j = x.vreg j := by
  have hgroup := e.vt.group_le hvl
  unfold Hart.loaded putGroup
  split
  · rfl
  · exact Hart.setElems_vreg_ne _ _ _ _ _ _ (by omega)

/-- An access to lane memory whose entry is performed with the elements that it loads. -/
def LoadsWith (i : Instr) (o : Fields) (s : State) (val : Nat → Nat) : Prop :=
  performRaw none (s.entry i o) s.cur (s.pushedNow i o) =
    .done ((s.pushedNow i o).setHart s.cur ((s.pushedMe i o).loaded (s.entry i o) o val)) 0 none

/-- What a vector load leaves of its hart, of the elements that it loads. -/
theorem loads_complete {s : State} {i : Instr} {o : Fields} {check : Fields → Hart → Option PushIll} {val : Nat → Nat}
    (h : s.CanPush i o check) (hx : exec i s = vecIssue i o check s) (hi : ∀ o, i ≠ .endI o) (hv : 0 < (s.entry i o).vl)
    (hvl : (s.entry i o).vl ≤ (s.entry i o).vt.vlmax) (hreg : (s.entry i o).vd + (s.entry i o).vt.regs ≤ 64)
    (hcount : ∀ (t : State) x z, t.countPipes (s.entry i o) x z true = t) (hd : LoadsWith i o s val)
    (hval : ∀ k, val k < 2 ^ (s.entry i o).vt.bits) :
    let e := s.entry i o
    ∃ t, exec i s = .next t ∧
      (∀ k < e.vl, t.me.velem e.vd e.vt.bits k = if activeAt e o s.me k then val k else s.me.velem e.vd e.vt.bits k) ∧
      (∀ j, j < e.vd ∨ e.vd + e.vt.regs ≤ j → t.me.vreg j = s.me.vreg j) ∧
      t.me = { s.me.advanced with
        v := t.me.v, vqtail := s.me.vqtail + BitVec.ofNat 16 e.size, vcp := s.me.vcp + BitVec.ofNat 16 e.size, vstart := 0 } ∧
      s.SameOutside t := by
  intro e
  have hy := (s.pushedMe i o).loaded_eq e o val
  have hc := completes_access h hx hi (.inr (Nat.ne_of_gt hv)) hcount hd (by rw [hy]; rfl) (by rw [hy]; exact h.settled)
    (by rw [hy]; exact h.clean)
  obtain ⟨t, ht, hme, hs⟩ := hc.now
  have hret := (congrArg (fun y : Hart => y.retired e 0 none) hy).trans (retired_pushed h.toAtRest i o _ s.me.fib)
  refine ⟨t, ht, fun k hk => ?_, fun j hj => ?_, ?_, hs⟩
  · rw [hme]
    exact Hart.loaded_velem (x := s.pushedMe i o) rfl o val hval hvl hreg k hk
  · rw [hme]
    exact (s.pushedMe i o).loaded_vreg o val hvl j hj
  · rw [hme]
    exact hret

/-- A dense load whose active elements are aligned, inside lane memory and clean. -/
theorem denseMem_loads {t : State} {h : Nat} {e : QEntry} {o : Fields} {bad : Bool} {addr : Nat → Word} (hp : e.part = false)
    (hlm : lmBit o = true) (hbad : bad = false)
    (hok : ∀ k < e.vl, activeAt e o (t.hart h) k = true → aligned (addr k) (e.vt.bits / 8) = true ∧ (addr k).toNat < laneSize ∧
      t.lanePoisoned (t.hart h).coreNo (addr k).toNat (e.vt.bits / 8) = false) :
    denseMem t h e o false bad addr = .done (t.setHart h ((t.hart h).loaded e o fun i =>
      memNat t.mem (laneAt ((t.hart h).coreNo, addr i)) (e.vt.bits / 8))) 0 none := by
  have hfind : (((List.range e.vl).filter fun i => activeAt e o (t.hart h) i).find? fun i => !aligned (addr i) (e.vt.bits / 8)) =
      none := by
    rw [List.find?_eq_none]
    intro i hi
    obtain ⟨hlt, ha⟩ := List.mem_filter.1 hi
    simp [(hok i (List.mem_range.1 hlt) ha).1]
  unfold denseMem
  simp only [hfind, hbad, Bool.false_eq_true, if_false, BatchEnd.stored_same]
  refine finish_loads (f := fun s i => s.loadEl (entryWho t h e o) false (addr i) (e.vt.bits / 8))
    (fun y vals => putGroup e e.vd e.vt.bits y vals) (dueElems_sorted e o _) fun i hi => ?_
  obtain ⟨hlt, ha⟩ := (mem_dueElems hp o _ i).1 hi
  obtain ⟨-, hin, hclean⟩ := hok i hlt ha
  exact State.loadEl_lane hlm false _ _ hin hclean

/-- A peer load whose active elements are inside a lane memory and clean. -/
theorem peerMem_loads {t : State} {h : Nat} {e : QEntry} {o : Fields} (hp : e.part = false)
    (hok : ∀ k < e.vl, activeAt e o (t.hart h) k = true →
      let p := peerPlace (t.who h e.prv true 0) ((t.hart h).velem e.va e.vt.bits k % 2 ^ 32) (e.vt.bits / 8)
      p.2.toNat < laneSize ∧ t.lanePoisoned p.1 p.2.toNat (e.vt.bits / 8) = false) :
    peerMem e o h t false = .done (t.setHart h ((t.hart h).loaded e o fun i => memNat t.mem
      (laneAt (peerPlace (t.who h e.prv true 0) ((t.hart h).velem e.va e.vt.bits i % 2 ^ 32) (e.vt.bits / 8))) (e.vt.bits / 8)))
      0 none := by
  unfold peerMem
  simp only [Bool.false_eq_true, if_false, BatchEnd.stored_same]
  refine finish_loads (f := fun s i => s.laneLoad (t.who h e.prv true 0)
      (peerPlace (t.who h e.prv true 0) ((t.hart h).velem e.va e.vt.bits i % 2 ^ 32) (e.vt.bits / 8)).1
      (peerPlace (t.who h e.prv true 0) ((t.hart h).velem e.va e.vt.bits i % 2 ^ 32) (e.vt.bits / 8)).2 (e.vt.bits / 8))
    (fun y vals => putGroup e e.vd e.vt.bits y vals) (dueElems_sorted e o _) fun i hi => ?_
  obtain ⟨hlt, ha⟩ := (mem_dueElems hp o _ i).1 hi
  obtain ⟨hin, hclean⟩ := hok i hlt ha
  exact State.laneLoad_ok _ _ _ _ hin hclean

theorem firstIll_none {l : List (Option PushIll)} (h : firstIll l = none) : ∀ p ∈ l, p = none := by
  induction l with
  | nil => simp
  | cons p l ih =>
    cases p with
    | some q => cases h
    | none => simpa using ih h

theorem checkDense_group {o : Fields} {x : Hart} (h : checkDense o x = none) : resolveVec x o.d + x.vtPush.regs ≤ 64 :=
  alignIll_none (firstIll_none h _ (by simp))

theorem checkIndexed_group {f : Fields → BitVec 8} {written : Bool} {o : Fields} {x : Hart} (h : checkIndexed f written o x = none) :
    resolveVec x o.d + x.vtPush.regs ≤ 64 :=
  alignIll_none (firstIll_none h (alignIll x o.d x.vtPush.regs) (by simp))

/-- What a vector load from lane memory loads and leaves (R215, R240, R244). -/
def LaneLoad (i : Instr) (o : Fields) (s : State) (check : Fields → Hart → Option PushIll) (straight : QEntry → Prop)
    (place : QEntry → Nat → Nat × Word) : Prop :=
  let e := s.entry i o
  let n := e.vt.bits / 8
  s.CanPush i o check → 0 < e.vl → e.vl ≤ e.vt.vlmax → straight e →
  (∀ k < e.vl, activeAt e o s.me k = true → aligned (place e k).2 n = true ∧ (place e k).2.toNat < laneSize ∧
    s.lanePoisoned (place e k).1 (place e k).2.toNat n = false) →
  ∃ t, exec i s = .next t ∧
    (∀ k < e.vl, t.me.velem e.vd e.vt.bits k =
      if activeAt e o s.me k then memNat s.mem (laneAt (place e k)) n else s.me.velem e.vd e.vt.bits k) ∧
    (∀ j, j < e.vd ∨ e.vd + e.vt.regs ≤ j → t.me.vreg j = s.me.vreg j) ∧
    t.me = { s.me.advanced with
      v := t.me.v, vqtail := s.me.vqtail + BitVec.ofNat 16 e.size, vcp := s.me.vcp + BitVec.ofNat 16 e.size, vstart := 0 } ∧
    s.SameOutside t

/-- A vector load whose elements all pass their checks. -/
theorem laneLoad_of {s : State} {i : Instr} {o : Fields} {check : Fields → Hart → Option PushIll} {straight : QEntry → Prop}
    {place : QEntry → Nat → Nat × Word} (hx : exec i s = vecIssue i o check s) (hi : ∀ o, i ≠ .endI o)
    (hcount : ∀ (t : State) x z, t.countPipes (s.entry i o) x z true = t)
    (hgroup : check o s.me.advanced = none → (s.entry i o).vd + (s.entry i o).vt.regs ≤ 64)
    (hd : straight (s.entry i o) → (∀ k < (s.entry i o).vl, activeAt (s.entry i o) o s.me k = true →
        aligned (place (s.entry i o) k).2 ((s.entry i o).vt.bits / 8) = true ∧ (place (s.entry i o) k).2.toNat < laneSize ∧
        s.lanePoisoned (place (s.entry i o) k).1 (place (s.entry i o) k).2.toNat ((s.entry i o).vt.bits / 8) = false) →
      ((s.pushedNow i o).hart s.cur = s.pushedMe i o) →
      LoadsWith i o s fun k => memNat s.mem (laneAt (place (s.entry i o) k)) ((s.entry i o).vt.bits / 8)) :
    LaneLoad i o s check straight place := fun h hv hvl hst hok =>
  loads_complete h hx hi hv hvl (hgroup h.checked) hcount (hd hst hok (State.pushedNow_hart h.toAtRest i o)) fun k => by
    rw [← (s.entry i o).vt.bits_eq]
    convert memNat_lt s.mem (laneAt (place (s.entry i o) k)) ((s.entry i o).vt.bits / 8) using 2
    rw [Nat.mul_div_cancel_left _ (by decide)]

/-- The three dense loads from lane memory. -/
theorem vld_laneLoad (s : State) (o : Fields) (hlm : lmBit o = true) :
    LaneLoad (.vld o) o s checkDense (fun e => aligned (baseOf e o) (e.vt.bits / 8) = true)
      fun e k => (s.me.coreNo, unitAddr e o k) := by
  refine laneLoad_of rfl nofun (fun _ _ _ => rfl) checkDense_group fun hst hok hm => ?_
  show memVld _ o _ _ = _
  rw [memVld, denseMem_loads rfl hlm (by rw [hst]; rfl) (by rw [hm]; exact hok), hm]
  rfl

theorem vlds_laneLoad (s : State) (o : Fields) (hlm : lmBit o = true) :
    LaneLoad (.vlds o) o s checkDense (fun e => strideBad e o = false) fun e k => (s.me.coreNo, strideAddr e o k) := by
  refine laneLoad_of rfl nofun (fun _ _ _ => rfl) checkDense_group fun hst hok hm => ?_
  show memVlds _ o _ _ = _
  rw [memVlds, denseMem_loads rfl hlm hst (by rw [hm]; exact hok), hm]
  rfl

theorem vldx_laneLoad (s : State) (o : Fields) (hlm : lmBit o = true) :
    LaneLoad (.vldx o) o s checkVldx (fun _ => True) fun e k => (s.me.coreNo, indexAddr e o s.me k) := by
  refine laneLoad_of rfl nofun (fun _ _ _ => rfl) checkIndexed_group fun hst hok hm => ?_
  show memVldx _ o _ _ = _
  rw [memVldx, denseMem_loads rfl hlm rfl (by rw [hm]; exact hok), hm]
  rfl

/-- The load from the lane memories of peers. -/
theorem vldp_laneLoad (s : State) (o : Fields) :
    LaneLoad (.vldp o) o s checkVldp (fun _ => True) fun e k =>
      peerPlace (s.who s.cur s.me.sup true 0) (s.me.velem e.va e.vt.bits k % 2 ^ 32) (e.vt.bits / 8) := by
  refine laneLoad_of rfl nofun (fun _ _ _ => rfl) checkIndexed_group fun hst hok hm => ?_
  have hw : (s.pushedNow (.vldp o) o).who s.cur (s.entry (.vldp o) o).prv true 0 = s.who s.cur s.me.sup true 0 := by
    rw [State.who, hm]
    rfl
  show memVldp _ o _ _ = _
  rw [memVldp, peerMem_loads rfl (by rw [hm, hw]; exact fun k hk ha => (hok k hk ha).2), hm, hw]
  rfl

/-! FLD from lane memory (R90, R255). -/

/-- Pair k of a fibre register, as its 64 bits. -/
def Fibre.pair (f : Fibre) (k : Nat) : Nat := elem 64 f.pairs.toNat k

/-- An element below bit m does not see what stands from there on. -/
theorem elem_mod_pow {m : Nat} (n z i : Nat) (h : n * i + n ≤ m) : elem n (z % 2 ^ m) i = elem n z i := by
  rw [← elem_ofNat n z i h, BitVec.toNat_ofNat]

/-- The replaced element. -/
theorem elem_setElem_same (n x i y : Nat) : elem n (setElem n x i y) i = y % 2 ^ n := by
  rw [elem, setElem, Nat.add_mul_div_left _ _ (by positivity), Nat.div_eq_of_lt (Nat.mod_lt _ (by positivity)), Nat.zero_add,
    Nat.add_mul_mod_self_left, Nat.mod_mod]

/-- An element above another sees what stands above that. -/
theorem elem_above (n x i r : Nat) : elem n x (i + 1 + r) = elem n (x / 2 ^ (n * i) / 2 ^ n) r := by
  rw [elem, elem, Nat.div_div_eq_div_mul, Nat.div_div_eq_div_mul, ← pow_add, ← pow_add]
  ring_nf

/-- The other elements. -/
theorem elem_setElem_ne (n x i y k : Nat) (h : k ≠ i) : elem n (setElem n x i y) k = elem n x k := by
  rcases Nat.lt_or_gt_of_ne h with hk | hk
  · have hle : n * k + n ≤ n * i := by
      rw [← Nat.mul_succ]
      exact Nat.mul_le_mul_left _ hk
    rw [← elem_mod_pow n _ k hle, ← elem_mod_pow n x k hle, setElem, Nat.add_mul_mod_self_left, Nat.mod_mod]
  · obtain ⟨r, rfl⟩ := Nat.exists_eq_add_of_le hk
    have hdiv : setElem n x i y / 2 ^ (n * i) / 2 ^ n = x / 2 ^ (n * i) / 2 ^ n := by
      rw [setElem, Nat.add_mul_div_left _ _ (by positivity), Nat.div_eq_of_lt (Nat.mod_lt _ (by positivity)), Nat.zero_add,
        Nat.add_mul_div_left _ _ (by positivity), Nat.div_eq_of_lt (Nat.mod_lt _ (by positivity)), Nat.zero_add]
    rw [elem_above, elem_above, hdiv]

/-- A pair is written whole. -/
theorem Fibre.setPair_pair_same (f : Fibre) {k v : Nat} (hk : k < 256) (hv : v < 2 ^ 64) :
    (f.setPair k (v % 2 ^ 32) (v / 2 ^ 32)).pair k = v := by
  have hw : v % 2 ^ 32 % 2 ^ 32 + 2 ^ 32 * (v / 2 ^ 32 % 2 ^ 32) = v := by omega
  rw [Fibre.pair, Fibre.setPair, elem_ofNat _ _ _ (by omega), elem_setElem_same, hw, Nat.mod_eq_of_lt hv]

theorem Fibre.setPair_pair_ne (f : Fibre) {k j : Nat} (c v : Nat) (hj : j < 256) (h : j ≠ k) :
    (f.setPair k c v).pair j = f.pair j := by
  rw [Fibre.pair, Fibre.setPair, elem_ofNat _ _ _ (by omega), elem_setElem_ne _ _ _ _ _ h, Fibre.pair]

/-- The fibre with its first n pairs loaded. -/
def Fibre.loadPairs (f : Fibre) (val : Nat → Nat) (n : Nat) : Fibre :=
  ((List.range n).map fun k => (k, val k)).foldl (fun f p => f.setPair p.1 (p.2 % 2 ^ 32) (p.2 / 2 ^ 32)) f

theorem Fibre.loadPairs_pair (f : Fibre) {val : Nat → Nat} (hval : ∀ k, val k < 2 ^ 64) {n : Nat} (hn : n ≤ 256) {k : Nat} (hk : k < n) :
    (f.loadPairs val n).pair k = val k := by
  induction n with
  | zero => omega
  | succ n ih =>
    rw [Fibre.loadPairs, List.range_succ, List.map_append, List.foldl_append, ← Fibre.loadPairs]
    by_cases hkn : k = n
    · subst hkn
      exact Fibre.setPair_pair_same _ (show k < 256 by omega) (hval k)
    · exact (Fibre.setPair_pair_ne _ _ _ (by omega) hkn).trans (ih (by omega) (by omega))

theorem leNat_append (l r : List Byte) : leNat (l ++ r) = leNat l + 256 ^ l.length * leNat r := by
  induction l with
  | nil => simp [leNat]
  | cons b l ih => simp only [List.cons_append, leNat, ih, List.length_cons]; ring

theorem memBytes_add (m : List Host.Cell) (a n k : Nat) : memBytes m a (n + k) = memBytes m a n ++ memBytes m (a + n) k := by
  induction n generalizing a with
  | zero => simp [memBytes]
  | succ n ih => rw [Nat.succ_add, memBytes, ih, memBytes, List.cons_append, Nat.add_assoc, Nat.add_comm 1 n]

/-- A doubleword is its low word and its high word. -/
theorem memNat_eight (m : List Host.Cell) (a : Nat) : memNat m a 8 = memNat m a 4 + 2 ^ 32 * memNat m (a + 4) 4 := by
  rw [memNat, show 8 = 4 + 4 from rfl, memBytes_add, leNat_append, memBytes_length, memNat, memNat]
  norm_num

theorem Hart.setFibre_fibreReg (x : Hart) (n : Nat) (y : Fibre) (hn : n < 16) : (x.setFibre n y).fibreReg n = y := by
  simp [Hart.fibreReg, Hart.setFibre, hn]

theorem Hart.setFibre_fibreReg_ne (x : Hart) (n k : Nat) (y : Fibre) (hk : k ≠ n) : (x.setFibre n y).fibreReg k = x.fibreReg k := by
  simp [Hart.fibreReg, Hart.setFibre, Vector.getElem?_setIfInBounds_ne (Ne.symm hk)]

/-- The hart whose fibre register d holds n pairs loaded from an address in the cell list on. -/
def Hart.fibreLoaded (x : Hart) (d n : Nat) (m : List Host.Cell) (a : Nat) : Hart :=
  x.setFibre d { (x.fibreReg d).loadPairs (fun k => memNat m (a + 8 * k) 8) n with occ := n }

theorem Hart.fibreLoaded_pairs (x : Hart) {d n : Nat} (m : List Host.Cell) (a : Nat) (hd : d < 16) (hn : n ≤ 256) {k : Nat} (hk : k < n) :
    ((x.fibreLoaded d n m a).fibreReg d).coord k = memNat m (a + 8 * k) 4 ∧
      ((x.fibreLoaded d n m a).fibreReg d).val k = memNat m (a + 8 * k + 4) 4 := by
  have hpair : ((x.fibreLoaded d n m a).fibreReg d).pair k = memNat m (a + 8 * k) 8 := by
    rw [Hart.fibreLoaded, Hart.setFibre_fibreReg _ _ _ hd]
    exact Fibre.loadPairs_pair _ (fun k => memNat_lt _ _ _) hn hk
  have hlow : memNat m (a + 8 * k) 4 < 2 ^ 32 := memNat_lt _ _ _
  have height := memNat_eight m (a + 8 * k)
  have hcoord : ((x.fibreLoaded d n m a).fibreReg d).coord k = ((x.fibreLoaded d n m a).fibreReg d).pair k % 2 ^ 32 := rfl
  have hval : ((x.fibreLoaded d n m a).fibreReg d).val k = ((x.fibreLoaded d n m a).fibreReg d).pair k / 2 ^ 32 := rfl
  rw [hcoord, hval, hpair]
  omega

/-- FLD whose pairs are aligned, inside lane memory, clean and ascending. -/
theorem memFld_loads {t : State} {h : Nat} {e : QEntry} {o : Fields} (hp : e.part = false) (hlm : lmBit o = true) (hd : o.d.toNat < 16)
    (hv : (t.hart h).vstart = 0) (hh : h < t.harts.length) (hal : (baseOf e o).toNat % 8 = 0)
    (hin : (baseOf e o).toNat + 8 * min (e.cap 1).toNat 256 ≤ laneSize)
    (hclean : ∀ k < min (e.cap 1).toNat 256, t.lanePoisoned (t.hart h).coreNo ((baseOf e o).toNat + 8 * k) 8 = false)
    (hasc : ∀ k, k + 1 < min (e.cap 1).toNat 256 → memNat t.mem (laneAt ((t.hart h).coreNo, baseOf e o) + 8 * k) 4 <
      memNat t.mem (laneAt ((t.hart h).coreNo, baseOf e o) + 8 * (k + 1)) 4) :
    memFld e o h t = .done (t.setHart h ((t.hart h).fibreLoaded o.d.toNat (min (e.cap 1).toNat 256) t.mem
      (laneAt ((t.hart h).coreNo, baseOf e o)))) 0 none := by
  generalize hn : min (e.cap 1).toNat 256 = n at *
  have hn256 : n ≤ 256 := by omega
  have hdue : ((List.range n).filter fun k => decide ((t.hart h).vstart.toNat ≤ k) &&
      (!e.part || (t.hart h).fmask == 0 || (t.hart h).fmask.getLsbD k)) = List.range n := by
    rw [List.filter_eq_self]
    intro k _
    simp [hv, hp]
  have hload : ∀ k ∈ List.range n, t.loadEl (entryWho t h e o) false ((entryWho t h e o).base + BitVec.ofNat 64 (8 * k)) 8 =
      .ok t (memNat t.mem (laneAt ((t.hart h).coreNo, baseOf e o) + 8 * k) 8) 0 := by
    intro k hk
    have hk := List.mem_range.1 hk
    have hs : laneSize = 1048576 := rfl
    have ha : (baseOf e o + BitVec.ofNat 64 (8 * k)).toNat = (baseOf e o).toNat + 8 * k := by
      rw [BitVec.toNat_add, BitVec.toNat_ofNat]; omega
    have hl : laneAt ((t.hart h).coreNo, baseOf e o + BitVec.ofNat 64 (8 * k)) = laneAt ((t.hart h).coreNo, baseOf e o) + 8 * k := by
      rw [laneAt, laneAt, ha]; exact (Nat.add_assoc ..).symm
    rw [← hl]
    exact State.loadEl_lane hlm false _ _ (by rw [show (entryWho t h e o).base = baseOf e o from rfl, ha]; omega)
      (by rw [show (entryWho t h e o).base = baseOf e o from rfl, ha]; exact hclean k hk)
  have hal' : aligned (entryWho t h e o).base 8 = true := decide_eq_true hal
  have hfind : ((List.range n).find? fun k => decide (1 ≤ k) && decide ((t.hart h).vstart.toNat ≤ k) &&
      decide ((((t.hart h).fibreLoaded o.d.toNat n t.mem (laneAt ((t.hart h).coreNo, baseOf e o))).fibreReg o.d.toNat).coord k ≤
        (((t.hart h).fibreLoaded o.d.toNat n t.mem (laneAt ((t.hart h).coreNo, baseOf e o))).fibreReg o.d.toNat).coord (k - 1))) =
      none := by
    rw [List.find?_eq_none]
    intro k hk
    have hk := List.mem_range.1 hk
    cases k with
    | zero => simp
    | succ k =>
      rw [((t.hart h).fibreLoaded_pairs t.mem _ hd hn256 hk).1, Nat.add_sub_cancel,
        ((t.hart h).fibreLoaded_pairs t.mem _ hd hn256 (by omega : k < n)).1]
      simp [hasc k hk]
  have hfin := finish_loads (f := fun s k => s.loadEl (entryWho t h e o) false ((entryWho t h e o).base + BitVec.ofNat 64 (8 * k)) 8)
    (h := h) (g := 1) (store := false) (fun y vals => y.setFibre o.d.toNat
    { vals.foldl (fun f p => f.setPair p.1 (p.2 % 2 ^ 32) (p.2 / 2 ^ 32)) (y.fibreReg o.d.toNat) with occ := n })
    List.pairwise_lt_range hload
  unfold memFld
  simp only [hn, hdue, hal', Bool.not_true, Bool.false_eq_true, if_false]
  rw [hfin]
  have hput : (t.setHart h ((t.hart h).fibreLoaded o.d.toNat n t.mem (laneAt ((t.hart h).coreNo, baseOf e o)))).hart h =
      (t.hart h).fibreLoaded o.d.toNat n t.mem (laneAt ((t.hart h).coreNo, baseOf e o)) := State.hart_setHart _ _ _ hh
  simp only [Hart.fibreLoaded, Fibre.loadPairs] at hput hfind ⊢
  rw [hput]
  split
  · next => rfl
  · next k hk => exact absurd (hfind.symm.trans hk) nofun

/-- What FLD from lane memory loads and leaves. -/
theorem fld_completes {s : State} {o : Fields} (hlm : lmBit o = true) (h : s.CanPush (.fld o) o checkNone) (hd : o.d.toNat < 16)
    (hv : s.me.vstart = 0) (hal : (baseOf (s.entry (.fld o) o) o).toNat % 8 = 0)
    (hin : (baseOf (s.entry (.fld o) o) o).toNat + 8 * min ((s.entry (.fld o) o).cap 1).toNat 256 ≤ laneSize)
    (hclean : ∀ k < min ((s.entry (.fld o) o).cap 1).toNat 256,
      s.lanePoisoned s.me.coreNo ((baseOf (s.entry (.fld o) o) o).toNat + 8 * k) 8 = false)
    (hasc : ∀ k, k + 1 < min ((s.entry (.fld o) o).cap 1).toNat 256 →
      memNat s.mem (laneAt (s.me.coreNo, baseOf (s.entry (.fld o) o) o) + 8 * k) 4 <
        memNat s.mem (laneAt (s.me.coreNo, baseOf (s.entry (.fld o) o) o) + 8 * (k + 1)) 4) :
    Completes (.fld o) o s 0 fun x => { x with
      fib := (x.fibreLoaded o.d.toNat (min ((s.entry (.fld o) o).cap 1).toNat 256) s.mem
        (laneAt (x.coreNo, baseOf (s.entry (.fld o) o) o))).fib
      vqtail := x.vqtail + BitVec.ofNat 16 (s.entry (.fld o) o).size
      vcp := x.vcp + BitVec.ofNat 16 (s.entry (.fld o) o).size, vstart := 0 } := by
  have hn : (s.pushedNow (.fld o) o).hart s.cur = s.pushedMe (.fld o) o := State.pushedNow_hart h.toAtRest _ _
  have hperf : performRaw none (s.entry (.fld o) o) s.cur (s.pushedNow (.fld o) o) =
      .done ((s.pushedNow (.fld o) o).setHart s.cur ((s.pushedMe (.fld o) o).fibreLoaded o.d.toNat
        (min ((s.entry (.fld o) o).cap 1).toNat 256) s.mem (laneAt (s.me.coreNo, baseOf (s.entry (.fld o) o) o)))) 0 none := by
    have hload := memFld_loads (t := s.pushedNow (.fld o) o) (h := s.cur) (e := s.entry (.fld o) o) (o := o) rfl hlm hd
      (by rw [hn]; exact hv) (pushedNow_here h.toAtRest _ _) hal hin (by rw [hn]; exact hclean) (by rw [hn]; exact hasc)
    rw [hn] at hload
    exact hload
  obtain ⟨t, ht, hme, hs⟩ := completes_access h rfl nofun (.inl rfl) (fun _ _ _ => rfl) hperf rfl h.settled h.clean
  exact ⟨t, ht, hme.trans (retired_pushed h.toAtRest (.fld o) o s.me.v ((s.pushedMe (.fld o) o).fibreLoaded o.d.toNat
    (min ((s.entry (.fld o) o).cap 1).toNat 256) s.mem (laneAt (s.me.coreNo, baseOf (s.entry (.fld o) o) o))).fib), hs⟩

/-- Settles O32: each load is performed with its elements loaded one by one. -/
theorem laneMemoryLoads : Obligations.LaneMemoryLoads := by
  unfold Obligations.LaneMemoryLoads
  intro s o x loads own
  refine ⟨fun hlm => ⟨vld_laneLoad s o hlm, vlds_laneLoad s o hlm, vldx_laneLoad s o hlm⟩, vldp_laneLoad s o, ?_⟩
  intro e n base pair hlm h hd hv hal hin hclean hasc
  obtain ⟨t, ht, hme, hs⟩ := (fld_completes hlm h hd hv hal hin hclean hasc).now
  have hfib : ∀ j, t.me.fibreReg j = (x.fibreLoaded o.d.toNat n s.mem (laneAt (x.coreNo, base))).fibreReg j :=
    fun j => by rw [hme]; rfl
  refine ⟨t, ht, ?_, fun k hk => ?_, fun j hj => ?_, ?_, hs⟩
  · rw [hfib, Hart.fibreLoaded, Hart.setFibre_fibreReg _ _ _ hd]
  · rw [hfib]
    exact x.fibreLoaded_pairs s.mem _ hd (Nat.min_le_right _ _) hk
  · rw [hfib]
    exact Hart.setFibre_fibreReg_ne _ _ _ _ hj
  · rw [hme]
    rfl

end Sys2Proof.Machine

namespace Sys2Proof.Machine

/-! WAKE during a resync (R329, R397): the byte of the woken hart's image waits at its home. -/

/-- A task whose first hart runs and whose other hart holds no slot, while a resync of the package runs. -/
def wakingState : State :=
  { harts := [{ task := some 0, ordinal := 1, bound := true }, { task := some 0 }], resync := true }

theorem wakingState_canPush : wakingState.CanPush (.wake {}) {} checkNone where
  here := by decide
  empty := rfl
  level := rfl
  settled := rfl
  clean := rfl
  free := rfl
  live := rfl
  runs := by decide
  allowed := nofun
  checked := rfl
  prompt := rfl
  alone k hk hcore := by
    match k, hk with
    | 1, _ => rfl
    | k + 2, _ => rfl
  calm := rfl

/-- The byte of the sleeping hart's image at an address, in the state that an outcome gives. -/
def byteAfter (r : Host.Outcome State Fault Refusal) (a : Nat) : Byte :=
  match r with
  | .next t => memGet t.mem a
  | _ => 0

theorem wakingState_byte : byteAfter (exec (.wake {}) wakingState) 0x210 = 0 := by decide

/-- Refutes O35: the hart word's byte of an image that stands in memory alone is not written by WAKE while a resync runs; the
write waits at its home. -/
theorem not_arriveWakeRelease : ¬ Obligations.ArriveWakeRelease := by
  unfold Obligations.ArriveWakeRelease
  intro h
  obtain ⟨-, hwake, -⟩ := h wakingState {}
  obtain ⟨t, ht, -, -, hmem⟩ := hwake wakingState_canPush 1 (by decide) (by decide) rfl rfl rfl rfl fun j hj _ _ => by
    obtain rfl : j = 0 := by omega
    decide
  have hbyte := wakingState_byte
  rw [ht] at hbyte
  have hset := hmem 0x210
  rw [if_pos ⟨by decide, by decide⟩] at hset
  exact absurd (hset.symm.trans hbyte) (by decide)

end Sys2Proof.Machine

namespace Sys2Proof.Machine

/-! A register-store fill during a resync (R110, R397): the line waits at its home. -/

/-- A bound hart whose hart word's line is absent from its register store, while a resync of the package runs. -/
def fillingState : State :=
  { harts := [{ bound := true }], cores := [(0, { store := [⟨0, 4, true, none⟩] })], resync := true }

/-- The fill has taken its place in the queue of the line's home, and the line has not come in. -/
theorem fillingState_absent : (fillingState.bringLine 0 4).lineState 0 4 = .absent := by decide

theorem fillingState_room : fillingState.linesHeld (fillingState.hart 0).coreNo < storeLines := by decide

/-- A fill of a line of the image brings it in. -/
theorem exec_regstoreFill {k : Nat} (s : State) (h : Nat) (hk : k < imageLines) :
    exec (.regstoreFill h k) s = .next (s.bringLine h k) := by
  show execRegstoreFill h k s = _
  rw [execRegstoreFill, if_neg (Nat.not_le.2 hk)]

/-- Refutes O52: the fill of an absent line waits at its home while a resync runs, and the line is absent still. -/
theorem not_hartEvents : ¬ Obligations.HartEvents := by
  unfold Obligations.HartEvents
  intro h
  obtain ⟨hfill, -⟩ := h.1 fillingState 0 (by decide)
  obtain ⟨t, ht, hline⟩ := hfill 4
  have hpinned := (hline rfl (by decide) fillingState_room rfl).1
  obtain rfl : fillingState.bringLine 0 4 = t := Host.Outcome.next.inj ((exec_regstoreFill _ _ (by decide)).symm.trans ht)
  exact absurd (fillingState_absent.symm.trans hpinned) nofun

end Sys2Proof.Machine

namespace Sys2Proof.Machine

/-! A queued store that fences its own die (R20, R309, R424): its hart stops, and its queue is discarded. -/

/-- The position behind a hart's completed entries, in the state that an outcome gives. -/
def vcpAfter (r : Host.Outcome State Fault Refusal) : Option (BitVec 16) :=
  match r with
  | .next t => some t.me.vcp
  | _ => none

/-- A supervisor's hart on die 0 with VL 1 and SEW 64, whose page 5 is the configuration block of hub 0, and s1 the address of
FENCEREQ in it. -/
def fencingState : State :=
  { State.reset.setHub 5 { State.reset.hub 5 with
      tlb := [⟨0, false, 0x5000, 12, BitVec.ofNat 64 (2 ^ 63 + 3 * 2 ^ 54 + 0x807), 0⟩], asnSnaps := [(0, 1)] } with
    harts := [{ Hart.stobry.setReg 1 0x5060 with vlPush := 1, vtPush := ⟨3, 0⟩ }] }

/-- VST of v4, which holds 0, the number of the hart's own die. -/
def fencingStore : Fields := { d := 4, a := 1, w := 3 }

theorem fencingState_canPush : fencingState.CanPush (.vst fencingStore) fencingStore checkDense where
  here := by decide
  empty := rfl
  level := rfl
  settled := rfl
  clean := rfl
  free := rfl
  live := rfl
  runs := by decide
  allowed := nofun
  checked := by decide
  prompt := rfl
  alone k hk hcore := by
    match k, hk with
    | k + 1, _ => rfl
  calm := by decide

/-- Where the entry is performed to the end, the hart that stands after it has not passed it, as a retired hart would have. -/
def fencedUnretired : Bool :=
  match performInstr none (fencingState.entry (.vst fencingStore) fencingStore) fencingState.cur
      (fencingState.pushedNow (.vst fencingStore) fencingStore) with
  | .done u f v =>
    vcpAfter (exec (.vst fencingStore) fencingState) !=
      vcpAfter (.next ((u.modHart fencingState.cur fun y =>
        y.retired (fencingState.entry (.vst fencingStore) fencingStore) f v).issued fencingState.cur (.vst fencingStore) fencingStore))
  | _ => false

theorem fencingState_unretired : fencedUnretired = true := by decide +kernel

/-- Refutes O34: a vector store to FENCEREQ that fences its own die is performed to the end, but its hart has stopped and its
entry is discarded, so VCP does not pass it. -/
theorem not_queuedAccesses : ¬ Obligations.QueuedAccesses := by
  unfold Obligations.QueuedAccesses
  intro h
  have hvst := (h.1 fencingState fencingStore).2.1 fencingState_canPush
  have hun := fencingState_unretired
  unfold fencedUnretired at hun
  split at hun
  · next u f v hdone =>
    have hend := hvst u f v hdone
    rw [CompletesAs] at hend
    rw [hend] at hun
    simp at hun
  · cases hun

end Sys2Proof.Machine

namespace Sys2Proof.Machine

/-! What the homes, the fabric and the device do changes no hart. -/

/-- t has the harts of s. -/
def State.SameHarts (s t : State) : Prop := t.harts = s.harts

/-- A device access that is not held leaves the harts of s. -/
def DevAt.sameHarts (s : State) : DevAt → Prop
  | .ok t _ | .drop t => s.SameHarts t
  | .held _ => True

namespace State.SameHarts
variable {s t u : State}

theorem refl (s : State) : s.SameHarts s := rfl
theorem trans (h : s.SameHarts t) (k : t.SameHarts u) : s.SameHarts u := Eq.trans k h

theorem ofStore (h : s.SameStore t) : s.SameHarts t := h.harts

theorem foldl {α : Type} {f : State → α → State} (hf : ∀ (t : State) a, t.SameHarts (f t a)) (l : List α) (s : State) :
    s.SameHarts (l.foldl f s) :=
  List.foldlRecOn l f (motive := s.SameHarts) (refl s) fun _ ht _ _ => ht.trans (hf _ _)

theorem hart (h : s.SameHarts t) (k : Nat) : t.hart k = s.hart k := congrArg (fun l : List Hart => l[k]?.getD {}) h

theorem ite {c : Prop} [Decidable c] (ht : s.SameHarts t) (hu : s.SameHarts u) : s.SameHarts (if c then t else u) := by
  split
  · exact ht
  · exact hu

theorem transmit (s : State) (a d c : Nat) (asn : Option (BitVec 16)) : s.SameHarts (s.transmit a d c asn) :=
  State.transmit_harts ..

theorem probeDies (s : State) (hub : Nat) (v : BitVec 24) : s.SameHarts (s.probeDies hub v) := by
  unfold State.probeDies
  split
  · rfl
  · refine foldl (fun t d => ?_) _ s
    split
    · exact (transmit t ..).trans (transmit ..)
    · rfl

theorem freeTag (s : State) (frame : Nat) : s.SameHarts (s.freeTag frame) := by
  unfold State.freeTag; split <;> rfl

theorem setDir (s : State) (line : Nat) (x : DirSt) : s.SameHarts (s.setDir line x) := by
  unfold State.setDir
  dsimp only
  split
  · exact freeTag ..
  · rfl

theorem recallLine (s : State) (line : Nat) : s.SameHarts (s.recallLine line) :=
  ((ofStore (.hbmUse s _)).trans (probeDies ..)).trans (setDir ..)

theorem useGot (s : State) (line : Nat) : s.SameHarts (s.useGot line) := by
  unfold State.useGot; split <;> rfl

theorem takeHome (s : State) (pa n : Nat) : s.SameHarts (s.takeHome pa n) :=
  foldl (fun t l => (recallLine t l).trans (useGot ..)) _ s

theorem notice (s : State) (reg b : Nat) : s.SameHarts (s.notice reg b) := by
  unfold State.notice
  split
  · rfl
  · dsimp only
    split
    · split
      · rfl
      · exact foldl recallLine _ _
    · rfl
    · rfl

theorem sendNotice (s : State) (line reg b : Nat) : s.SameHarts (s.sendNotice line reg b) := by
  unfold State.sendNotice
  exact (ite (refl s) (transmit ..)).trans (notice ..)

theorem homeWrite (s : State) (pa : Nat) (bs : List Byte) : s.SameHarts (s.homeWrite pa bs) := by
  have hstart : s.SameHarts ((s.hbmUse (hubOfPa pa)).write pa bs) := (ofStore (.hbmUse s _)).trans rfl
  unfold State.homeWrite
  dsimp only
  split
  · exact hstart
  · exact hstart.trans (.trans rfl (foldl (fun t l => foldl (fun t (p : Nat × Nat) => sendNotice t l p.1 p.2) (s.watchers l) t) _ _))

theorem setPoison (s : State) (line : Nat) (p : Bool) : s.SameHarts (s.setPoison line p) := by
  unfold State.setPoison
  split
  · split <;> rfl
  · rfl

theorem leavePa (s : State) (r pa : Nat) : s.SameHarts (s.leavePa r pa) := by
  unfold State.leavePa; split <;> rfl

theorem leaveAll (s : State) (r : Nat) : s.SameHarts (s.leaveAll r) := by
  unfold State.leaveAll; split <;> rfl

theorem countAgent (s : State) (a c k : Nat) : s.SameHarts (s.countAgent a c k) := by
  unfold State.countAgent; split <;> rfl

theorem holdReader (s : State) (r v agent : Nat) (view : Nat × Nat) : s.SameHarts (s.holdReader r v agent view) := by
  unfold State.holdReader
  dsimp only
  split
  · rfl
  · split
    · exact countAgent ..
    · exact .trans (t := s.setClock _ _) rfl (countAgent ..)

theorem queueAs (s : State) (r agent key : Nat) : s.SameHarts (s.queueAs r agent key) := by
  unfold State.queueAs
  split
  · exact holdReader ..
  · rfl

theorem queueNew (s : State) (agent key : Nat) : s.SameHarts (s.queueNew agent key) := queueAs s _ agent key

theorem imgSend (s : State) (w : ImgWrite) : s.SameHarts (s.imgSend w) := by
  have hwrite := ((((leavePa s w.place w.pa).trans (transmit _ w.die (24 + hubOfPa w.pa) 3 none)).trans
    (transmit _ (24 + hubOfPa w.pa) w.die 1 none)).trans (takeHome _ w.pa (s.imgBytes w).length)).trans (homeWrite _ w.pa (s.imgBytes w))
  unfold State.imgSend
  dsimp only
  split
  · exact hwrite.trans (setPoison ..)
  · exact hwrite

theorem imgWrite (s : State) (h die pa : Nat) (data : Option (List Byte)) (poison : Bool) :
    s.SameHarts (s.imgWrite h die pa data poison) := by
  unfold State.imgWrite
  dsimp only
  split
  · exact queueNew s die _
  · exact imgSend ..

theorem saveImage (s : State) (h : Nat) (word : Instr → Nat) : s.SameHarts (s.saveImage h word) := by
  refine foldl (fun t k => ?_) _ s
  dsimp only
  split
  · exact imgWrite ..
  · rfl

/-! The device at the end of a task (R309, R321). -/

theorem noteLeaf (s : State) (asn : BitVec 16) (acc : Access) (va : Nat) (pte : Word) (n pa : Nat) :
    s.SameHarts (s.noteLeaf asn acc va pte n pa) := by
  unfold State.noteLeaf
  dsimp only
  exact (ite (refl s) (((((ofStore (.askHomes s _ _)).trans (recallLine ..)).trans (useGot ..)).trans
    (ofStore (.leaveHolds ..))).trans (homeWrite ..))).trans rfl

/-- A translation that succeeds. -/
theorem translate {asn : BitVec 16} {sup : Bool} {acc : Access} {va pa : Nat} {pte : Word} (h : s.translate asn sup acc va = .ok t pa pte) :
    s.SameHarts t := by
  unfold State.translate at h
  repeat' split at h
  all_goals cases h
  exact (ofStore (.noteWalk ..)).trans (noteLeaf ..)

theorem deviceStore (s : State) (me : Nat) (asn : BitVec 16) (va : Word) (n hub : Nat) (atomic : Bool) :
    (s.deviceStore me asn va n hub atomic).sameHarts s := by
  have hnote : s.SameHarts (s.noteWalk asn va.toNat) := ofStore (.noteWalk ..)
  unfold State.deviceStore
  split
  · exact refl s
  · split
    · next s1 pa pte htr =>
      split
      · exact hnote
      · split
        · exact hnote
        · split
          · trivial
          · split
            · trivial
            · split
              · exact hnote
              · exact (((translate htr).trans (ofStore (.exchange ..))).trans (recallLine ..)).trans (useGot ..)
    · trivial
    · exact hnote

theorem decPreds (s : State) (hub pa st : Nat) : s.SameHarts (s.decPreds hub pa st) := by
  unfold State.decPreds
  dsimp only
  split
  · rfl
  · exact homeWrite ..

theorem endTcb (s : State) (asn : BitVec 16) (tcb : Word) (pa st status : Nat) (ending : PredEnd) :
    s.SameHarts (s.endTcb asn tcb pa st status ending).1 := by
  have hset : s.SameHarts (s.tcbSet pa st status) := homeWrite ..
  unfold State.endTcb
  dsimp only
  split
  · exact hset
  · exact hset

theorem enterReady (s : State) (pa : Nat) : s.SameHarts (s.enterReady pa) := by
  unfold State.enterReady; split <;> rfl

theorem predAt (s : State) (asn : BitVec 16) (succ : Word) (ending : PredEnd) (pa : Nat) :
    s.SameHarts (s.predAt asn succ ending pa).1 := by
  unfold State.predAt
  dsimp only
  split
  · exact decPreds ..
  · split
    · split
      · exact (decPreds ..).trans (enterReady ..)
      · exact decPreds ..
    · exact endTcb ..

theorem devStep {me : Nat} {p : DevOp} {l : List DevOp} (h : s.devStep me p = .ok t l) : s.SameHarts t := by
  unfold State.devStep at h
  split at h
  · next asn va data hub =>
    have hdev := deviceStore s me asn va 8 hub false
    split at h <;> rename_i hat <;> rw [hat] at hdev <;> cases h
    · exact State.SameHarts.trans hdev (homeWrite ..)
    · exact hdev
  · next asn succ ending hub =>
    have hdev := deviceStore s me asn succ 128 hub true
    split at h <;> rename_i hat <;> rw [hat] at hdev <;> cases h
    · exact State.SameHarts.trans hdev (predAt ..)
    · exact hdev
  · split at h
    · cases h; rfl
    · split at h <;> cases h
      exact (((leavePa ..).trans (ofStore (.askHomes ..))).trans (takeHome ..)).trans (endTcb ..)

theorem devAll (fuel me : Nat) (l : List DevOp) (s : State) : s.SameHarts (State.devAll fuel me l s) := by
  induction fuel generalizing l s with
  | zero => rfl
  | succ fuel ih =>
    cases l with
    | nil => rfl
    | cons p ps =>
      rw [State.devAll]
      split
      · next t l hstep => exact ((devStep hstep).trans (leaveAll ..)).trans (ih ..)
      · exact queueAs ..

theorem finishTask (s : State) (k st status : Nat) (ending : PredEnd) : s.SameHarts (s.finishTask k st status ending) :=
  .trans (t := s.modTask k _) rfl (devAll ..)

end State.SameHarts

end Sys2Proof.Machine

namespace Sys2Proof.Machine

/-! A hart that has stopped and left its slot stays so while its task fails (R295, R309). -/

/-- The hart has stopped and holds no slot. -/
def Hart.Halted (x : Hart) : Prop := x.stopped = true ∧ x.bound = false

theorem Hart.halt_halted (x : Hart) : x.halt.Halted := ⟨rfl, rfl⟩

theorem Hart.landOne_bound (x : Hart) (w : PendWrite) : (x.landOne w).bound = x.bound := by
  unfold Hart.landOne Hart.setPred Hart.setReg
  split_ifs <;> rfl

theorem Hart.landAll_bound (x : Hart) : x.landAll.bound = x.bound :=
  List.foldlRecOn _ _ (motive := fun y : Hart => y.bound = x.bound) rfl fun y hy w _ => (y.landOne_bound w).trans hy

/-- If hart h of s is halted, so is hart h of t. -/
structure State.KeepsHalted (h : Nat) (s t : State) : Prop where
  halted : (s.hart h).Halted → (t.hart h).Halted

namespace State.KeepsHalted
variable {h : Nat} {s t u : State}

theorem refl (s : State) : KeepsHalted h s s := ⟨id⟩
theorem trans (hst : KeepsHalted h s t) (htu : KeepsHalted h t u) : KeepsHalted h s u := ⟨htu.halted ∘ hst.halted⟩

theorem ofHarts (hs : s.SameHarts t) : KeepsHalted h s t := ⟨fun hx => (hs.hart h).symm ▸ hx⟩

theorem foldl {α : Type} {f : State → α → State} (hf : ∀ (t : State) a, KeepsHalted h t (f t a)) (l : List α) (s : State) :
    KeepsHalted h s (l.foldl f s) :=
  List.foldlRecOn l f (motive := KeepsHalted h s) (refl s) fun _ ht _ _ => ht.trans (hf _ _)

theorem modHart (s : State) (k : Nat) {f : Hart → Hart} (hf : ∀ x : Hart, x.Halted → (f x).Halted) : KeepsHalted h s (s.modHart k f) := by
  refine ⟨fun hx => ?_⟩
  by_cases hk : h = k
  · subst hk
    have hlt : h < s.harts.length := by
      by_contra hge
      rw [State.hart, List.getElem?_eq_none (Nat.not_lt.1 hge)] at hx
      exact absurd hx.1 nofun
    rw [State.hart_modHart _ _ _ hlt]
    exact hf _ hx
  · rw [State.hart_modHart_ne _ _ _ _ hk]
    exact hx

theorem forgetLines (s : State) (k : Nat) : KeepsHalted h s (s.forgetLines k) :=
  (modHart (f := fun x => { x with leftAt := none }) s k fun _ hx => hx).trans (ofHarts rfl)

theorem dropLines (s : State) (k : Nat) : KeepsHalted h s (s.dropLines k) :=
  (ofHarts (.saveImage s k _)).trans (forgetLines _ k)

theorem stopHart (s : State) (k : Nat) (save : Bool) : KeepsHalted h s (s.stopHart k save) := by
  have hstart : KeepsHalted h s ((s.modHart k Hart.halt).unread k) :=
    (modHart s k fun x _ => x.halt_halted).trans (ofHarts (.ofStore (.unread ..)))
  unfold State.stopHart
  cases save
  · exact hstart.trans (forgetLines ..)
  · exact hstart.trans (dropLines ..)

theorem haltHart (s : State) (k : Nat) : KeepsHalted h s (s.haltHart k) := by
  unfold State.haltHart
  split
  · exact modHart s k fun x hx => ⟨rfl, x.landAll_bound.trans hx.2⟩
  · exact stopHart ..

theorem failDone (s : State) (k : Nat) : KeepsHalted h s (s.failDone k) := by
  unfold State.failDone
  split
  · exact refl s
  · split
    · split
      · exact refl s
      · have himages : KeepsHalted h s (s.dropImages k) := foldl dropLines _ s
        dsimp only
        split
        · exact himages
        · exact himages.trans (ofHarts (.finishTask ..))
    · exact refl s

theorem failTask (s : State) (k status : Nat) : KeepsHalted h s (s.failTask k status) := by
  unfold State.failTask
  split
  · exact refl s
  · split
    · exact refl s
    · exact ((foldl haltHart (s.taskHarts k) s).trans (ofHarts (t := State.modTask _ k _) rfl)).trans (failDone _ k)

end State.KeepsHalted

/-- A hart that is stopped with its image written back is halted. -/
theorem State.stopHart_halted (s : State) {h : Nat} (hh : h < s.harts.length) : ((s.stopHart h true).hart h).Halted := by
  have hhalt : ((s.modHart h Hart.halt).hart h).Halted := by
    rw [State.hart_modHart _ _ _ hh]
    exact Hart.halt_halted _
  exact ((KeepsHalted.ofHarts (.ofStore (.unread ..))).trans (KeepsHalted.dropLines _ h)).halted hhalt

/-- A queue fault halts its hart. -/
theorem State.queueFaultNow_halted (s : State) {h : Nat} (hh : h < s.harts.length) : ((s.queueFaultNow h).hart h).Halted := by
  have hstop := (s.countCore (s.hart h).coreNo 0x0F 1).stopHart_halted (h := h) hh
  unfold State.queueFaultNow
  dsimp only
  split
  · exact (KeepsHalted.failTask _ _ _).halted hstop
  · exact hstop

end Sys2Proof.Machine

namespace Sys2Proof.Machine

/-! The queue's events on a hart whose core has no other entries (R287). -/

/-- Hart h is bound and runs, and no other hart of its core has entries. -/
structure State.OnlyQueue (s : State) (h : Nat) : Prop where
  here : h < s.harts.length
  bound : (s.hart h).bound = true
  runs : (s.hart h).stopped = false
  live : (s.hart h).replaying = false
  alone : ∀ k, k ≠ h → (s.hart k).coreNo = (s.hart h).coreNo → (s.hart k).queue = []

/-- The vector unit has no other hart's entry to take. -/
theorem State.OnlyQueue.ready {s : State} {h : Nat} (l : s.OnlyQueue h) {me : Option Nat} {e : QEntry}
    (hready : (s.hart h).readyHead me.isSome = some e) : s.readyHarts (s.hart h).coreNo me [] = [h] := by
  refine filter_range_one _ _ _ l.here ?_ fun k hk => ?_
  · have hpipe : ∀ j, ((j != h && ((s.hart j).coreNo == (s.hart h).coreNo)) && (s.hart j).onFibrePipe) = false := by
      intro j
      by_cases hj : j = h
      · simp [hj]
      · by_cases hc : (s.hart j).coreNo = (s.hart h).coreNo
        · simp [Hart.onFibrePipe, l.alone j hj hc]
        · simp [hc]
    simp [hready, hpipe, l.bound, l.runs]
  · by_cases hc : (s.hart k).coreNo = (s.hart h).coreNo
    · simp [Hart.readyHead, l.alone k hk hc]
    · simp [hc]

theorem State.OnlyQueue.pick {s : State} {h : Nat} (l : s.OnlyQueue h) {me : Option Nat} {e : QEntry}
    (hready : (s.hart h).readyHead me.isSome = some e) : s.pickEntry (s.hart h).coreNo me [] = some h := by
  rw [State.pickEntry, l.ready hready, chooseHart_one]

/-- A head entry that waits to start may be taken. -/
theorem Hart.readyHead_waiting {x : Hart} {e : QEntry} {r : List QEntry} (done : Bool) (hq : x.queue = e :: r)
    (hs : e.stage = .waiting) (hl : x.replaying = false) : x.readyHead done = some e := by
  simp [Hart.readyHead, hq, hs, hl]

/-- The state with the core's run of entries noted: neither a hart nor what is charged there changes. -/
structure State.SameCharge (s t : State) : Prop extends s.SameStore t where
  rate : t.rate = s.rate
  level : ∀ c, (t.core c).level = (s.core c).level
  mat : ∀ c, (t.core c).mat = (s.core c).mat

theorem State.SameCharge.modCore (s : State) (c : Nat) {f : Core → Core} (hl : ∀ k, (f k).level = k.level)
    (hm : ∀ k, (f k).mat = k.mat) : s.SameCharge (s.modCore c f) := by
  have hcore : ∀ d, (s.modCore c f).core d = if d = c then f (s.core d) else s.core d := by
    intro d
    by_cases hd : d = c
    · subst hd
      rw [if_pos rfl]
      exact State.setCore_core ..
    · rw [if_neg hd]
      exact State.setCore_core_ne _ _ _ _ hd
  refine ⟨⟨rfl, rfl⟩, rfl, fun d => ?_, fun d => ?_⟩
  · rw [hcore]
    split
    · exact hl _
    · rfl
  · rw [hcore]
    split
    · exact hm _
    · rfl

theorem State.SameCharge.noteTaken (s : State) (core h : Nat) (me : Option Nat) (stuck : List Nat) :
    s.SameCharge (s.noteTaken core h me stuck) := by
  unfold State.noteTaken
  split
  · exact ⟨.refl s, rfl, fun _ => rfl, fun _ => rfl⟩
  · split
    · split
      · exact ⟨.refl s, rfl, fun _ => rfl, fun _ => rfl⟩
      · exact .modCore s core (fun _ => rfl) fun _ => rfl
    · exact .modCore s core (fun _ => rfl) fun _ => rfl

theorem State.SameCharge.refl (s : State) : s.SameCharge s := ⟨.refl s, rfl, fun _ => rfl, fun _ => rfl⟩

theorem State.SameCharge.trans {s t u : State} (h : s.SameCharge t) (k : t.SameCharge u) : s.SameCharge u :=
  ⟨h.toSameStore.trans k.toSameStore, k.rate.trans h.rate, fun c => (k.level c).trans (h.level c), fun c => (k.mat c).trans (h.mat c)⟩

theorem State.SameCharge.countCore (s : State) (c code n : Nat) : s.SameCharge (s.countCore c code n) :=
  ⟨⟨rfl, rfl⟩, rfl, fun d => by rw [State.countCore_core], fun d => by rw [State.countCore_core]⟩

theorem State.SameCharge.countPipes (s : State) (e : QEntry) (x y : Hart) (b : Bool) : s.SameCharge (s.countPipes e x y b) := by
  unfold State.countPipes
  split
  iterate 4 exact countCore ..
  split
  · exact (countCore ..).trans (countCore ..)
  · exact refl s

/-- The head entry is performed where it waits to start. -/
theorem performHead_waiting {s : State} {h : Nat} {e : QEntry} {r : List QEntry} (limit : Option Nat) (hq : (s.hart h).queue = e :: r)
    (hs : e.stage = .waiting) (hl : (s.hart h).replaying = false) :
    s.performHead h limit = (performInstr limit e h s).headStage e h := by
  have hk : (s.hart h).headParking e = false := by simp [Hart.headParking, hs]
  unfold State.performHead
  simp only [hq, hl, hk, hs, Bool.or_false, Bool.false_eq_true, if_false]

/-- The head of hart h's queue marked as performed. -/
theorem headStage_done {u : State} {h : Nat} {e : QEntry} {f : BitVec 8} {v : Option Word} (hs : e.stage = .waiting) :
    (PRes.done u f v).headStage e h = .ok (u.headDone h e f v) := by
  simp only [PRes.headStage, hs, State.headDone]

theorem State.headDone_cons {u : State} {h : Nat} {e : QEntry} {r : List QEntry} (hh : h < u.harts.length)
    (hq : (u.hart h).queue = e :: r) (f : BitVec 8) (v : Option Word) : (u.headDone h e f v).hart h = { u.hart h with
      queue := { e with stage := .performed f (v.map fun w => ((fieldsOfInstr e.instr).d.toNat, w)) } :: r } := by
  rw [State.headDone, State.hart_modHart _ _ _ hh, Hart.setHead, hq]

/-- The hart once its performed head entry has completed (R96, R98, R99, R106, R155). -/
def Hart.passHead (x : Hart) (e : QEntry) (r : List QEntry) (f : BitVec 8) (v : Option (Nat × Word)) : Hart :=
  let z := ({ x with
    queue := r, vcp := x.vcp + BitVec.ofNat 16 e.size, vstart := 0
    fmask := if e.part && usesFmask e.instr then 0 else x.fmask } : Hart).orFlags f
  match v with
  | some (d, w) => z.varResult d w
  | none => z

theorem completeHead_performed {s : State} {h : Nat} {e : QEntry} {r : List QEntry} {f : BitVec 8} {v : Option (Nat × Word)}
    (hq : (s.hart h).queue = e :: r) (hs : e.stage = .performed f v) (hi : ∀ o, e.instr ≠ .endI o) :
    s.completeHead h = s.setHart h ((s.hart h).passHead e r f v) := by
  unfold State.completeHead
  simp only [hq, hs]
  rfl

theorem Hart.varResult_queue (x : Hart) (d : Nat) (w : Word) : (x.varResult d w).queue = x.queue := by
  simp [Hart.varResult]

theorem Hart.passHead_queue (x : Hart) (e : QEntry) (r : List QEntry) (f : BitVec 8) (v : Option (Nat × Word)) :
    (x.passHead e r f v).queue = r := by
  rcases v with _ | ⟨d, w⟩
  · rfl
  · exact Hart.varResult_queue ..

/-- A performed head entry that is alone in its queue completes while the vector unit works for its hart. -/
theorem drainAll_performed {s : State} {h : Nat} {e : QEntry} {f : BitVec 8} {v : Option (Nat × Word)} (l : s.OnlyQueue h)
    (hq : (s.hart h).queue = [e]) (hs : e.stage = .performed f v) (hi : ∀ o, e.instr ≠ .endI o) (ho : (s.hart h).occupancy ≠ 0) :
    s.drainAll h = .ok (s.completeHead h) := by
  have hready : (s.hart h).readyHead true = some e := by simp [Hart.readyHead, hq, hs, l.live]
  have hw : (!(s.hart h).headWaits) = true := by simp [Hart.headWaits, hq, hs]
  have hperf : s.performHead h none = .ok s := by
    unfold State.performHead
    simp [hq, hs]
  have hz : ((s.completeHead h).hart h).queue = [] := by
    rw [completeHead_performed hq hs hi, State.hart_setHart _ _ _ l.here, Hart.passHead_queue]
  show drainFrom h 0 (519 + 1 + 1) [] s = _
  rw [drainFrom, if_neg (by simp [hq, ho])]
  simp only [l.pick (me := some h) hready]
  rw [State.noteTaken, if_pos hw, hperf]
  simp only [Drive.bind, hz, hq, List.length_nil, List.length_singleton, Nat.zero_lt_one, if_true]
  rw [drainFrom, if_pos (by simp [hz])]

/-- JOIN_RELEASE, QUEUE_PUSH_RESUME and VIEW_READ let the queue run and the hart go on. -/
theorem goesOn_of {s u : State} {h : Nat} (hd : s.drainAll h = .ok u) :
    exec (.joinRelease h) s = .next ((u.settle h).release h) ∧ exec (.queuePushResume h) s = .next ((u.settle h).release h) ∧
      ((s.hart h).heldReads ≠ [] → exec (.viewRead h) s = .next ((u.settle h).release h)) := by
  have hout : ((s.drainAll h).bind fun t => .ok ((t.settle h).release h)).out = .next ((u.settle h).release h) := by
    rw [hd]
    rfl
  refine ⟨hout, hout, fun hr => ?_⟩
  show execViewRead h s = _
  rw [execViewRead, if_neg (by simpa using hr), hout]

theorem State.settle_empty {s : State} {h : Nat} (hq : (s.hart h).queue = []) : s.settle h = s := by
  unfold State.settle
  simp only [hq]

theorem drainAll_empty {s : State} {h : Nat} (hq : (s.hart h).queue = []) : s.drainAll h = .ok s := by
  show drainFrom h 0 (520 + 1) [] s = _
  rw [drainFrom, if_pos (by simp [hq])]

/-! A VADD at the head of the queue (R140). -/

theorem performRaw_vadd {e : QEntry} {o : Fields} (hi : e.instr = .vadd o) (limit : Option Nat) (h : Nat) (s : State) :
    performRaw limit e h s = (perfVadd e o (s.hart h)).lift s h := by
  cases e
  cases hi
  rfl

/-- Elements that raise no flags. -/
theorem flagsOver_clear (e : QEntry) (o : Fields) (x : Hart) {f : Nat → FRes} (hf : ∀ i, (f i).flags = 0) : flagsOver e o x f = 0 := by
  refine List.foldlRecOn _ _ (motive := fun a : BitVec 8 => a = 0) rfl fun a ha i _ => ?_
  subst ha
  rw [hf]
  split <;> rfl

theorem mapElems_clear (e : QEntry) (o : Fields) (x : Hart) (n : Nat) {f : Nat → FRes} (hf : ∀ i, (f i).flags = 0) :
    mapElems e o x n f = .done (x.setElems e.vd n e.vl fun i => if activeAt e o x i then some (f i).code else none) 0 none := by
  rw [mapElems, flagsOver_clear e o x hf]

/-- VADD is performed to the end, and leaves the queue. -/
theorem perfVadd_done (e : QEntry) (o : Fields) (x : Hart) : ∃ y, perfVadd e o x = .done y 0 none ∧ y.queue = x.queue :=
  ⟨_, mapElems_clear e o x _ fun _ => rfl, by rw [Hart.setElems_eq]⟩

/-- An entry that is performed on its hart's registers. -/
theorem performInstr_hart {s t : State} {h : Nat} {e : QEntry} {limit : Option Nat} {y : Hart} {f : BitVec 8} {v : Option Word}
    (hc : (s.hart h).rsPoison = []) (hv : retiresEmpty e.instr = false) (hr : performRaw limit e h s = .done (t.setHart h y) f v)
    (hh : h < t.harts.length) :
    performInstr limit e h s = .done ((t.setHart h y).countPipes e (s.hart h) y true) f v := by
  rw [performInstr_clean limit hc (.inl hv), hr, PRes.counted, State.hart_setHart _ _ _ hh]

/-- QUEUE_ENTRY_START performs a VADD that waits at the head. -/
theorem queueEntryStart_vadd {s : State} {h : Nat} {e : QEntry} {r : List QEntry} {o : Fields} (steps : Nat) (l : s.OnlyQueue h)
    (hq : (s.hart h).queue = e :: r) (hi : e.instr = .vadd o) (hs : e.stage = .waiting) (hc : (s.hart h).rsPoison = []) :
    ∃ t y, perfVadd e o (s.hart h) = .done y 0 none ∧ exec (.queueEntryStart (s.hart h).coreNo steps) s = .next t ∧
      t.hart h = { y with queue := { e with stage := .performed 0 none } :: r } ∧ (∀ k, k ≠ h → t.hart k = s.hart k) ∧
      t.mem = s.mem := by
  obtain ⟨y, hy, hyq⟩ := perfVadd_done e o (s.hart h)
  generalize hs1 : s.noteTaken (s.hart h).coreNo h none [] = s1
  have hn : s.SameStore s1 := hs1 ▸ (State.SameCharge.noteTaken ..).toSameStore
  have hx : s1.hart h = s.hart h := hn.hart h
  have hh : h < s1.harts.length := by rw [hn.harts]; exact l.here
  generalize hu : (s1.setHart h y).countPipes e (s1.hart h) y true = u
  have huh : u.hart h = y := by rw [← hu, State.countPipes_hart, State.hart_setHart _ _ _ hh]
  have hperf : performInstr (some steps) e h s1 = .done u 0 none := by
    rw [← hu]
    refine performInstr_hart (by rw [hx]; exact hc) (by rw [hi]; rfl) ?_ hh
    rw [performRaw_vadd hi, hx, hy]
    rfl
  refine ⟨u.headDone h e 0 none, y, hy, ?_, ?_, fun k hk => ?_, ?_⟩
  · show execQueueEntryStart _ _ _ = _
    rw [execQueueEntryStart, l.pick (e := e) (Hart.readyHead_waiting _ hq hs l.live)]
    dsimp only
    rw [hs1, performHead_waiting _ (by rw [hx]; exact hq) hs (by rw [hx]; exact l.live), hperf, headStage_done hs]
    rfl
  · rw [State.headDone_cons (r := r) (by rw [← hu, State.countPipes_harts]; simpa using hh) (by rw [huh, hyq, hq]), huh]
    rfl
  · rw [State.headDone, State.hart_modHart_ne _ _ _ _ hk, ← hu, State.countPipes_hart, State.hart_setHart_ne _ _ _ _ hk, hn.hart]
  · rw [State.headDone, State.modHart_mem, ← hu, (State.SameCharge.countPipes ..).mem]
    exact hn.mem

/-! An MMA at the head of the queue (R198, R211). -/

/-- y is x but for its vector registers and its products. -/
def Hart.OnlyProducts (x y : Hart) : Prop := y = { x with v := y.v, pbuf := y.pbuf, pspec := y.pspec }

theorem Hart.OnlyProducts.trans {x y z : Hart} (h : x.OnlyProducts y) (k : y.OnlyProducts z) : x.OnlyProducts z := by
  rw [Hart.OnlyProducts] at h k ⊢
  rw [k, h]

theorem Hart.setC_onlyProducts (x : Hart) (d : Nat) (l : List FRes) : x.OnlyProducts (x.setC d l) := by
  rw [Hart.OnlyProducts, Hart.setC, Hart.setElems_eq]

theorem Hart.products_onlyProducts (x : Hart) (b : BitVec 40960) (c : BitVec 1024) :
    x.OnlyProducts { x with pbuf := b, pspec := c } := rfl

theorem mmaP_onlyProducts (x : Hart) (w : Nat) (m : MatOps) : x.OnlyProducts (mmaP x w m).1 := by
  unfold mmaP Hart.setP
  exact Hart.products_onlyProducts x _ _

theorem promote_onlyProducts (x : Hart) (d vsa sb : Nat) : x.OnlyProducts (promote x d vsa sb).1 :=
  (Hart.setC_onlyProducts x d _).trans (Hart.products_onlyProducts _ 0 0)

theorem mmaInt_onlyProducts (x : Hart) (w d : Nat) (sat : Bool) (m : MatOps) : x.OnlyProducts (mmaInt x w d sat m).1 :=
  Hart.setC_onlyProducts x d _

theorem mmaHalf_onlyProducts (x : Hart) (w d : Nat) (m : MatOps) : x.OnlyProducts (mmaHalf x w d m).1 :=
  Hart.setC_onlyProducts x d _

/-- MMA of any width but MXI8 is performed to the end. -/
theorem perfMma_done (e : QEntry) (o : Fields) (x : Hart) (hw : o.w.toNat ≠ 14) :
    ∃ y f, perfMma e o x = .done y f none ∧ x.OnlyProducts y := by
  unfold perfMma mmaOn
  dsimp only
  rw [if_neg hw]
  split
  · split
    · exact ⟨_, _, rfl, (mmaP_onlyProducts ..).trans (promote_onlyProducts ..)⟩
    · exact ⟨_, _, rfl, mmaP_onlyProducts ..⟩
  · split
    · exact ⟨_, _, rfl, mmaInt_onlyProducts ..⟩
    · exact ⟨_, _, rfl, mmaHalf_onlyProducts ..⟩

theorem performRaw_mma {e : QEntry} {o : Fields} (hi : e.instr = .mma o) (limit : Option Nat) (h : Nat) (s : State) :
    performRaw limit e h s = memMma e o h s := by
  cases e
  cases hi
  rfl

/-- The engine's core once it has taken a charge and the operands. -/
def Core.charged (k : Core) (h bu : Nat) (a : VReg) (b : BitVec 32768) (latch : Option Nat) : Core :=
  { k with level := k.level - bu, mat := some ⟨h, a, b, latch⟩, budgetWait := k.budgetWait.filter (· ≠ h) }

/-- The state in which the engine has taken an MMA's charge from the core of hart h. -/
def State.charged (s : State) (h bu : Nat) (a : VReg) (b : BitVec 32768) (latch : Option Nat) : State :=
  ((s.setCore (s.hart h).coreNo ((s.core (s.hart h).coreNo).charged h bu a b latch)).countCore (s.hart h).coreNo 0x07 1).modHart h
    fun x => { x with lastbu := bu }

theorem chargeMma_ready {s : State} {h : Nat} {a : VReg} {b : BitVec 32768} {group : Option Nat} (lastb : Bool) (go : State → PRes)
    (hl : (s.core (s.hart h).coreNo).charge h a b group ≤ (s.core (s.hart h).coreNo).level)
    (hr : tget s.rate ((s.hart h).coreNo / 32) 512 ≠ 0) :
    s.chargeMma h a b group lastb go =
      go (s.charged h ((s.core (s.hart h).coreNo).charge h a b group) a b (if lastb then none else group)) := by
  unfold State.chargeMma
  dsimp only
  rw [if_neg (by omega)]
  rfl

theorem State.charged_hart {s : State} {h : Nat} (hh : h < s.harts.length) (bu : Nat) (a : VReg) (b : BitVec 32768) (latch : Option Nat) :
    (s.charged h bu a b latch).hart h = { s.hart h with lastbu := bu } :=
  State.hart_modHart _ _ _ hh

theorem State.charged_hart_ne (s : State) {h k : Nat} (hk : k ≠ h) (bu : Nat) (a : VReg) (b : BitVec 32768) (latch : Option Nat) :
    (s.charged h bu a b latch).hart k = s.hart k :=
  State.hart_modHart_ne _ _ _ _ hk

theorem State.charged_level (s : State) (h bu : Nat) (a : VReg) (b : BitVec 32768) (latch : Option Nat) :
    ((s.charged h bu a b latch).core (s.hart h).coreNo).level = (s.core (s.hart h).coreNo).level - bu := by
  show (State.core (State.countCore _ _ _ _) _).level = _
  rw [State.countCore_core, State.setCore_core]
  rfl

/-- BUDGET_CHARGE performs an MMA that waits alone in its queue, and takes its charge. -/
theorem budgetCharge_mma {s : State} {h : Nat} {e : QEntry} {o : Fields} (l : s.OnlyQueue h) (hq : (s.hart h).queue = [e])
    (hi : e.instr = .mma o) (hw : o.w.toNat ≠ 14) (hs : e.stage = .waiting) (hc : (s.hart h).rsPoison = []) {bu : Nat}
    (hbu : bu = (s.core (s.hart h).coreNo).charge h ((s.hart h).vreg e.va) (matTile (s.hart h) e.vb) (some e.vb))
    (hl : bu ≤ (s.core (s.hart h).coreNo).level) (hr : tget s.rate ((s.hart h).coreNo / 32) 512 ≠ 0) :
    ∃ t y f v, perfMma e o { s.hart h with lastbu := bu } = .done y f v ∧ exec (.budgetCharge h) s = .next t ∧
      (t.core (s.hart h).coreNo).level = (s.core (s.hart h).coreNo).level - bu ∧ (t.hart h).lastbu = bu ∧
      (t.hart h).pbuf = y.pbuf ∧ (t.hart h).queue = [] ∧ (t.hart h).vcp = (s.hart h).vcp + BitVec.ofNat 16 e.size ∧
      (∀ k, k ≠ h → t.hart k = s.hart k) ∧ t.mem = s.mem := by
  obtain ⟨y, f, hy, hyx⟩ := perfMma_done e o { s.hart h with lastbu := bu } hw
  generalize hs1 : s.noteTaken (s.hart h).coreNo h none [] = s1
  have hn : s.SameCharge s1 := hs1 ▸ State.SameCharge.noteTaken ..
  have hx : s1.hart h = s.hart h := hn.hart h
  have hh : h < s1.harts.length := by rw [hn.harts]; exact l.here
  have hcharge : (s1.core (s1.hart h).coreNo).charge h ((s1.hart h).vreg e.va) (matTile (s1.hart h) e.vb) (some e.vb) = bu := by
    rw [hbu, hx, Core.charge, Core.charge, hn.mat]
  generalize ht1 : s1.charged h bu ((s1.hart h).vreg e.va) (matTile (s1.hart h) e.vb) (if o.hintL then none else some e.vb) = t1
  have ht1h : t1.hart h = { s.hart h with lastbu := bu } := by rw [← ht1, State.charged_hart hh, hx]
  have hht : h < t1.harts.length := by
    rw [← ht1]
    simpa [State.charged] using hh
  generalize hu : (t1.setHart h y).countPipes e (s1.hart h) y true = u
  have hcount := State.SameCharge.countPipes (t1.setHart h y) e (s1.hart h) y true
  rw [hu] at hcount
  have huh : u.hart h = y := by rw [hcount.hart, State.hart_setHart _ _ _ hht]
  have hhu : h < u.harts.length := by rw [hcount.harts]; simpa using hht
  have hyq : y.queue = [e] := by rw [hyx]; exact hq
  have hperf : performInstr none e h s1 = .done u f none := by
    rw [← hu]
    refine performInstr_hart (by rw [hx]; exact hc) (by rw [hi]; rfl) ?_ hht
    rw [performRaw_mma hi, memMma, chargeMma_ready _ _ (by rw [hcharge, hx, hn.level]; exact hl) (by rw [hx, hn.rate]; exact hr),
      hcharge, ht1, ht1h, hy]
    rfl
  have hdh := State.headDone_cons (r := []) hhu (by rw [huh, hyq]) f none
  have hdone : (u.headDone h e f none).completeHead h = (u.headDone h e f none).setHart h
      (((u.headDone h e f none).hart h).passHead { e with stage := .performed f none } [] f none) :=
    completeHead_performed (by rw [hdh]; rfl) rfl (by rw [hi]; exact nofun)
  have hend : ((u.headDone h e f none).completeHead h).hart h =
      ({ y with queue := [{ e with stage := .performed f none }] } : Hart).passHead { e with stage := .performed f none } [] f none := by
    rw [hdone, State.hart_setHart _ _ _ (by simpa [State.headDone] using hhu), hdh, huh]
    rfl
  refine ⟨(u.headDone h e f none).completeHead h, y, f, none, hy, ?_, ?_, ?_, ?_, ?_, ?_, fun k hk => ?_, ?_⟩
  · have hpick : s.pickEntry (s.hart h).coreNo none [] = some h := l.pick (e := e) (Hart.readyHead_waiting _ hq hs l.live)
    show execBudgetCharge h s = _
    unfold execBudgetCharge
    simp only [hq]
    rw [if_neg (by simp [hpick, hi, show groupOf (.mma o) = 7 from rfl]), hs1,
      performHead_waiting _ (by rw [hx]; exact hq) hs (by rw [hx]; exact l.live), hperf,
      headStage_done hs]
    rfl
  · rw [hdone]
    show (u.core _).level = _
    rw [hcount.level]
    show (t1.core _).level = _
    rw [← ht1, ← hx, State.charged_level, hn.level]
  · rw [hend, hyx]
    rfl
  · rw [hend]
    rfl
  · rw [hend]
    rfl
  · rw [hend, hyx]
    rfl
  · rw [hdone, State.hart_setHart_ne _ _ _ _ hk, State.headDone, State.hart_modHart_ne _ _ _ _ hk, hcount.hart,
      State.hart_setHart_ne _ _ _ _ hk, ← ht1, State.charged_hart_ne _ hk, hn.hart]
  · rw [hdone]
    show u.mem = _
    rw [hcount.mem]
    show t1.mem = _
    rw [← ht1]
    exact hn.mem

end Sys2Proof.Machine

namespace Sys2Proof.Machine

/-! The faults of a queue's head (R290 to R296), and the queue's events together. -/

/-- VECTOR_FAULT with no scalar-raised trap since the push: the queue is parked and the handler entered. -/
theorem settle_faulted {s : State} {h : Nat} {e : QEntry} {r : List QEntry} {k : Trap} {pages : List FaultPage}
    (hq : (s.hart h).queue = e :: r) (hs : e.stage = .faulted k pages) (hf : e.frz = false) (hd : (s.hart h).depth ≤ e.depth) :
    s.settle h = (s.setHart h ((s.hart h).park.freezingTrap (withNq k (s.hart h).occupancy) (s.hart h).pc (s.hart h).vcp true
      (s.batchPages h k pages))).countCore (s.hart h).coreNo 0x10 1 := by
  unfold State.settle State.takeVectorFault
  simp only [hq, hs, hf]
  rw [if_neg (by decide), if_neg (Nat.not_lt.2 hd)]

/-- A queue whose head has faulted is parked as it is. -/
theorem Hart.stopStarted_faulted {x : Hart} {e : QEntry} {r : List QEntry} {k : Trap} {pages : List FaultPage} (hq : x.queue = e :: r)
    (hs : e.stage = .faulted k pages) : x.stopStarted = x := by
  unfold Hart.stopStarted
  simp only [hq, hs]

/-- The hart in its handler, after a vector fault from which no write was outstanding. -/
theorem Hart.freezingTrap_settled {x : Hart} (hp : x.pend = []) (t : Trap) (pc : BitVec 48) (pos : BitVec 16) (vec : Bool)
    (pages : List FaultPage) : x.freezingTrap t pc pos vec pages = { x with
      tcause := t.cause, tpc := pc &&& 0xFFFFFFFFFFFC, tinfo := t.tinfo, taddr := t.taddr, taddr2 := t.taddr2
      tvqpPos := pos, tvqpV := vec, fbn := pages.length, fb := pages, rsPoison := trapClean x.rsPoison
      tstatus := { x.tstatus with pp := x.sup, pie := x.tstatus.ie, ie := false, mfrz := true }
      sup := true, pc := x.tvec, held := false, heldPush := false, waiting := false, waitFrom := none, waitQuad := none
      heldReads := [], entries := x.entries + 1, traps := false :: x.traps } := by
  rw [Hart.freezingTrap, Hart.trapEntry, Hart.landAll_nil x hp]

/-- QUEUE_FAULT of an entry that was pushed while the vector unit was frozen. -/
theorem settle_frozen {s : State} {h : Nat} {e : QEntry} {r : List QEntry} {k : Trap} {pages : List FaultPage}
    (hq : (s.hart h).queue = e :: r) (hs : e.stage = .faulted k pages) (hf : e.frz = true) : s.settle h = s.queueFaultNow h := by
  unfold State.settle State.takeVectorFault
  simp only [hq, hs, hf]
  rfl

theorem queueFault_stops {s : State} {h : Nat} {e : QEntry} {r : List QEntry} {k : Trap} {pages : List FaultPage}
    (hh : h < s.harts.length) (hq : (s.hart h).queue = e :: r) (hs : e.stage = .faulted k pages) (hf : e.frz = true) :
    ∃ t, exec (.queueFault h) s = .next t ∧ (t.hart h).stopped = true ∧ (t.hart h).bound = false := by
  refine ⟨s.queueFaultNow h, ?_, (s.queueFaultNow_halted hh).1, (s.queueFaultNow_halted hh).2⟩
  show execQueueFault h s = _
  unfold execQueueFault
  simp only [hq, hf, if_true]
  rw [settle_frozen hq hs hf]

/-- The positions of a queue that holds one entry. -/
theorem Hart.occupancy_one {x : Hart} {n : Nat} (h1 : 1 ≤ n) (h64 : n ≤ 64) (hv : x.vqtail = x.vcp + BitVec.ofNat 16 n) :
    x.occupancy ≠ 0 := by
  rw [Hart.occupancy, hv, add_sub_cancel_left, BitVec.toNat_ofNat]
  omega

/-- Settles O51: each event takes the entry that R287 picks, and changes its own hart alone. -/
theorem queueEvents : Obligations.QueueEvents := by
  unfold Obligations.QueueEvents
  intro s h hh x alone unmoved goesOn
  have lone : alone → s.OnlyQueue h := fun ⟨hb, hs, hl, ha⟩ => ⟨hh, hb, hs, hl, ha⟩
  refine ⟨?_, ?_, ?_, ?_, ?_, ?_, ?_, ?_, ?_, ?_⟩
  · intro core steps t hpick hperf
    show execQueueEntryStart core steps s = _
    unfold execQueueEntryStart
    rw [hpick]
    dsimp only
    rw [hperf]
    rfl
  · intro steps o e r hq hi hs ha hc
    exact queueEntryStart_vadd steps (lone ha) hq hi hs hc
  · intro e r f hq hs hi
    have hdone := completeHead_performed hq hs hi
    refine ⟨s.completeHead h, rfl, ?_, fun k hk => ?_, ?_⟩
    · rw [hdone, State.hart_setHart _ _ _ hh]
      rfl
    · rw [hdone, State.hart_setHart_ne _ _ _ _ hk]
    · rw [hdone]
      rfl
  · intro e r k pages hq hs hf hd hp
    have hpark : x.park.pend = [] := by
      rw [Hart.park, Hart.stopStarted_faulted hq hs]
      exact hp
    refine ⟨s.settle h, rfl, ⟨fun j hj => ?_, ?_⟩, ?_⟩
    · rw [settle_faulted hq hs hf hd, State.countCore_hart, State.hart_setHart_ne _ _ _ _ hj]
    · rw [settle_faulted hq hs hf hd]
      rfl
    · rw [settle_faulted hq hs hf hd, State.countCore_hart, State.hart_setHart _ _ _ hh, Hart.freezingTrap_settled hpark, Hart.park,
        Hart.stopStarted_faulted hq hs]
      exact ⟨rfl, rfl, rfl, rfl, rfl, rfl, rfl, rfl, rfl, rfl, rfl, rfl, rfl, rfl, rfl, rfl, rfl, rfl, rfl, rfl, rfl⟩
  · intro e r k pages hq hs hf
    exact queueFault_stops hh hq hs hf
  · intro hq
    have hgo := goesOn_of (drainAll_empty hq)
    rwa [State.settle_empty hq] at hgo
  · intro e f v hq hs hi h1 h64 hv ha
    have hdone := completeHead_performed hq hs hi
    have hz : ((s.completeHead h).hart h).queue = [] := by
      rw [hdone, State.hart_setHart _ _ _ hh, Hart.passHead_queue]
    have hgo := goesOn_of (drainAll_performed (lone ha) hq hs hi (Hart.occupancy_one h1 h64 hv))
    rwa [State.settle_empty hz] at hgo
  · intro u hd
    exact goesOn_of hd
  · intro e r u hq hg hpick hperf
    show execBudgetCharge h s = _
    unfold execBudgetCharge
    have hq' : (s.hart h).queue = e :: r := hq
    simp only [hq']
    rw [if_neg (by simp [hg, show s.pickEntry (s.hart h).coreNo none [] = some h from hpick]),
      show (s.noteTaken (s.hart h).coreNo h none []).performHead h none = .ok u from hperf]
    rfl
  · intro o e hq hi hw hs ha hc bu hl hr
    exact budgetCharge_mma (lone ha) hq hi hw hs hc rfl hl hr

end Sys2Proof.Machine

namespace Sys2Proof.Machine

/-! PROOFS of the family 06_scalar: TRAP and ERET (R125, R126), and the integer arithmetic of group 0x0 (R112 to R114). -/

/-- The return that R126 states: TPC, the saved privilege and IE come back, and the matrix engine is freed. -/
def Hart.returned (x : Hart) : Hart :=
  { x with
    pc := x.tpc, sup := x.tstatus.pp, tstatus := { x.tstatus with ie := x.tstatus.pie, mfrz := false }
    traps := x.traps.tail, replaying := false, replayed := 0, preempted := false }

theorem Hart.eret_settled (x : Hart) (hp : x.pend = []) : x.eret = x.returned := by
  rw [Hart.eret, Hart.landAll_nil x hp]
  rfl

/-- No join is outstanding from an empty queue (R68). -/
theorem Hart.joinsOut_empty {x : Hart} (hq : x.queue = []) : x.joinsOut = false := by
  simp [Hart.joinsOut, Hart.joinDests, hq]

theorem Hart.occupancy_level {x : Hart} (hl : x.vqtail = x.vcp) : x.occupancy = 0 := by
  rw [Hart.occupancy, hl, BitVec.sub_self]
  rfl

/-- ERET on a hart at rest: VFRZ decides between the trap and the return, and neither waits. -/
theorem eretBody_rest {s : State} (h : s.AtRest) : eretBody s.begun =
    if s.me.tstatus.vfrz then .trap s.begun (trapIllegal 4 false) else .ok (s.begun.setHart s.cur s.me.advanced.returned) := by
  have hm := State.begun_me h
  have hj : (s.begun.hart s.cur).joinsOut = false := Hart.joinsOut_empty (by rw [hm]; exact h.empty)
  have he : s.begun.modHart s.cur Hart.eret = s.begun.setHart s.cur s.me.advanced.returned := by
    rw [State.modHart, hm, s.me.advanced.eret_settled h.settled]
  have ho : ((s.begun.setHart s.cur s.me.advanced.returned).hart s.cur).occupancy ≤ s.begun.lead := by
    rw [State.setHart_hart _ _ _ (by simpa [State.begun] using h.here), Hart.occupancy_level (x := s.me.advanced.returned) h.level]
    exact Nat.zero_le _
  unfold eretBody eretWait
  simp only [State.begun_cur, hj, he, drainQ_short ho]
  rw [hm]
  rfl

theorem eret_returns {s : State} {o : Fields} (h : s.CanRun (.eret o) o) (hv : s.me.tstatus.vfrz = false) :
    Completes (.eret o) o s 0 Hart.returned :=
  completes_now eretBody h rfl ((eretBody_rest h.toAtRest).trans (if_neg (by simp [hv]))) h.empty h.clean h.settled

theorem eret_frozen {s : State} {o : Fields} (h : s.CanRun (.eret o) o) (hv : s.me.tstatus.vfrz = true) :
    TrapsWith (.eret o) s (trapIllegal 4 false) :=
  trapsWith_of eretBody h rfl ((eretBody_rest h.toAtRest).trans (if_pos hv))

/-- Settles O12: TRAP's effect is its trap at the next instruction, and of ERET VFRZ decides. -/
theorem trapAndReturn : Obligations.TrapAndReturn := by
  unfold Obligations.TrapAndReturn
  refine ⟨fun s o h => ?trap, fun s o h => ⟨eret_returns h, eret_frozen h⟩⟩
  refine (issue_run h _).trans (finish_trapNext _ _ _ _ ?_)
  rw [State.begun_me h.toAtRest]
  exact h.empty

/-- The quotient of R114, with the signed types named by their codes. -/
theorem intDiv_eq (w : Nat) (a b : Int) :
    intDiv w a b = if b = 0 then (if w ≤ 3 then (-1 : Int) else (2 ^ typeBits w : Nat) - 1) else a.tdiv b := by
  unfold intDiv
  by_cases hw : w ≤ 3
  · have ht : typeSigned w = true := decide_eq_true hw
    simp only [ht, if_pos hw, if_true]
  · have ht : typeSigned w = false := decide_eq_false hw
    simp only [intMax, ht, if_neg hw, Bool.false_eq_true, if_false]

/-- Settles O13: each instruction issues one result, of its latency or, for DIV and REM, of a variable one; DIV's is the quotient
of R114. -/
theorem integerArithmetic : Obligations.IntegerArithmetic := by
  unfold Obligations.IntegerArithmetic
  intro s o w a b gives
  refine ⟨?add, ?sub, ?mul, ?mulh, ?div, ?rem, ?min, ?max⟩
  case div =>
    refine fun h => (completes_var _ _ h rfl).congr ?_
    exact congrArg (fun y => s.me.advanced.setReg o.d.toNat (extWord w y)) (intDiv_eq w a b)
  case rem => exact fun h => completes_var _ _ h rfl
  all_goals exact fun h => completes_setReg _ _ h rfl

end Sys2Proof.Machine

namespace Sys2Proof.Machine

/-! PROOFS of the family 07_vector_arith: the vector integer instructions of group 0x3 (R133, R134, R140, R142 to R144), and the
permutations, reductions, joins, masks, sorting and segments of group 0x5 (R151 to R175). -/

/-! Vector integer instructions. -/

theorem wrapNat_natCast (n a : Nat) : wrapNat n (a : Int) = a % 2 ^ n := by
  rw [wrapNat, ← Int.natCast_emod, Int.toNat_natCast]

/-- A value reduced to n bits stays. -/
theorem wrapNat_mod (n : Nat) (y : Int) : wrapNat n y % 2 ^ n = wrapNat n y := by
  have h : 0 ≤ y % (2 ^ n : Nat) := Int.emod_nonneg _ (by positivity)
  rw [← wrapNat_natCast, wrapNat, wrapNat, Int.toNat_of_nonneg h, Int.emod_emod_of_dvd _ (dvd_refl _)]

/-- VSRA's pattern, already reduced to W, is its quotient reduced to W. -/
theorem perfVsra_eq (e : QEntry) (o : Fields) (x : Hart) :
    perfVsra e o x = mapElems e o x (typeBits o.w.toNat) fun k =>
      ⟨wrapNat (typeBits o.w.toNat) (signedVal (typeBits o.w.toNat) (x.velem e.va (typeBits o.w.toNat) k) /
        (2 ^ (srcbAt e o x o.w.toNat (typeBits o.w.toNat) k % typeBits o.w.toNat) : Nat)), 0⟩ := by
  simp only [perfVsra, patElems, wrapNat_mod]

theorem perfVabsd_eq (e : QEntry) (o : Fields) (x : Hart) : perfVabsd e o x = intElems e o x fun a b => |a - b| := by
  simp only [perfVabsd, Int.abs_eq_natAbs]

/-- An element-wise instruction completes with the integers y reduced to `bits` bits, where these are its codes and it raises
no flags (R133, R140). -/
theorem performs_int {s : State} {i : Instr} {o : Fields} {check : Fields → Hart → Option PushIll} {bits : Nat}
    {y : QEntry → Hart → Nat → Int} (hx : exec i s = vecIssue i o check s) (hi : ∀ o, i ≠ .endI o) (hv : retiresEmpty i = false)
    (hr : ∀ t, performRaw none (s.entry i o) s.cur t = (mapElems (s.entry i o) o (t.hart s.cur) bits fun k =>
      ⟨wrapNat bits (y (s.entry i o) (t.hart s.cur) k), 0⟩).lift t s.cur) :
    Performs i o s check fun e o x =>
      .done (x.setElems e.vd bits e.vl fun k => if activeAt e o x k then some (wrapNat bits (y e x k)) else none) 0 none := by
  refine performs_of hx hi hv (fun t => ?_) fun e x => setElems_doneOn ..
  rw [hr, mapElems_clear _ _ _ _ fun _ => rfl]

/-- An element-wise instruction on bit patterns completes with the low bits of its patterns. -/
theorem performs_pattern {s : State} {i : Instr} {o : Fields} {check : Fields → Hart → Option PushIll} {bits : Nat}
    {c : QEntry → Hart → Nat → Nat} (hx : exec i s = vecIssue i o check s) (hi : ∀ o, i ≠ .endI o) (hv : retiresEmpty i = false)
    (hr : ∀ t, performRaw none (s.entry i o) s.cur t = (mapElems (s.entry i o) o (t.hart s.cur) bits fun k =>
      ⟨c (s.entry i o) (t.hart s.cur) k % 2 ^ bits, 0⟩).lift t s.cur) :
    Performs i o s check fun e o x =>
      .done (x.setElems e.vd bits e.vl fun k => if activeAt e o x k then some (wrapNat bits (c e x k : Nat)) else none) 0 none :=
  performs_int (y := fun e x k => (c e x k : Nat)) hx hi hv (by simpa only [wrapNat_natCast] using hr)

/-- Settles O26: every instruction is element-wise without flags, with the integers of its rule reduced to W; those of the
logical operations, the unsigned shifts, VID and VIOTA are bit patterns. -/
theorem vectorInteger : Obligations.VectorInteger := by
  unfold Obligations.VectorInteger
  intro s o
  refine ⟨?vadd, ?vsub, ?vmul, ?vmulh, ?vmadd, ?vdiv, ?vrem, ?vmin, ?vmax, ?vabsd, ?vand, ?vor, ?vxor, ?vshl, ?vshr, ?vsra,
    ?vwadd, ?vwmul, ?vid, ?viota⟩
  case vand | vor | vxor | vshl | vshr | vid | viota => exact performs_pattern rfl nofun rfl fun _ => rfl
  case vsra => exact performs_int rfl nofun rfl fun t => congrArg (HRes.lift · t s.cur) (perfVsra_eq ..)
  case vabsd => exact performs_int rfl nofun rfl fun t => congrArg (HRes.lift · t s.cur) (perfVabsd_eq ..)
  all_goals exact performs_int rfl nofun rfl fun _ => rfl

/-! What the performances of group 0x5 leave of the hart. -/

theorem setMaskGroup_doneOn (x : Hart) (k vl : Nat) (g : Nat → Bool) : (HRes.done (x.setMaskBits k vl g) 0 none).DoneOn x :=
  .of_eq ⟨_, _, x.setMaskBits_eq k vl g⟩ 0 none

/-- A join writes no register by itself: its scalar is delivered when its entry completes (R155). -/
theorem join_doneOn (x : Hart) (r : Option Word) : (HRes.done x 0 r).DoneOn x := .of_eq ⟨_, _, rfl⟩ 0 r

/-- An instruction that has no effect under a condition, and else writes a vector group (R154, R160, R161). -/
theorem setElemsUnless_doneOn (c : Prop) [Decidable c] (x : Hart) (k n vl : Nat) (g : Nat → Option Nat) (f : BitVec 8) :
    (if c then HRes.done x 0 none else .done (x.setElems k n vl g) f none).DoneOn x := by
  split
  · exact join_doneOn x none
  · exact setElems_doneOn ..

theorem redResult_doneOn (e : QEntry) (o : Fields) (x : Hart) (r : FRes) : (redResult e o x r).DoneOn x :=
  setElemsUnless_doneOn ..

/-- VSORTK and VMERGEK write both groups of a pair: two writes of vector registers (R169, R170). -/
theorem writePair_doneOn (e : QEntry) (x : Hart) (f : Nat → RankEntry) : (HRes.done (writePair e x f) 0 none).DoneOn x := by
  refine .of_eq ?_ 0 none
  rw [writePair, Hart.setElems_eq, x.setElems_eq]
  exact ⟨_, _, rfl⟩

/-- VSETSEG writes the segment registers alone (R171). -/
theorem perfVsetseg_doneOn (e : QEntry) (o : Fields) (x : Hart) : (perfVsetseg e o x).DoneOn x := by
  refine ⟨⟨_, _, _, rfl⟩, fun y f v hy => ?_⟩
  cases hy
  exact ⟨rfl, rfl, rfl⟩

/-- VGETSEG writes one vector register (R171). -/
theorem perfVgetseg_doneOn (e : QEntry) (o : Fields) (x : Hart) : (perfVgetseg e o x).DoneOn x := .of_eq ⟨_, _, rfl⟩ 0 none

/-- Settles O29: every performance of the group is done, and writes vector registers, a mask group or the segment registers, or
delivers a scalar. -/
theorem vectorPermute : Obligations.VectorPermute := by
  unfold Obligations.VectorPermute
  intro s o
  refine ⟨?vslideup, ?vslidedn, ?vslideinUp, ?vslideinDn, ?vperm, ?vxch, ?vcompress, ?vexpand, ?vbcast, ?vmvsx, ?vmvxs, ?vred,
    ?vredX, ?vfredo, ?vfredt, ?vfredmx, ?mlog, ?mpopc, ?mfirst, ?mset, ?vsortk, ?vmergek, ?vsegred, ?vsegnorm, ?vsegscan,
    ?vsetseg, ?vgetseg⟩
  case vslidedn | vslideinUp | vslideinDn | vperm | vxch | vbcast =>
    exact performs_of rfl nofun rfl (fun _ => rfl) fun e x => mapElems_doneOn ..
  case vslideup | vcompress | vexpand | vsegnorm | vsegscan =>
    exact performs_of rfl nofun rfl (fun _ => rfl) fun e x => setElems_doneOn ..
  case vmvsx | vsegred => exact performs_of rfl nofun rfl (fun _ => rfl) fun e x => setElemsUnless_doneOn ..
  case vred | vfredo | vfredt | vfredmx => exact performs_of rfl nofun rfl (fun _ => rfl) fun e x => redResult_doneOn ..
  case vmvxs | vredX | mpopc | mfirst => exact performs_of rfl nofun rfl (fun _ => rfl) fun e x => join_doneOn ..
  case mlog | mset => exact performs_of rfl nofun rfl (fun _ => rfl) fun e x => setMaskGroup_doneOn ..
  case vsortk | vmergek => exact performs_of rfl nofun rfl (fun _ => rfl) fun e x => writePair_doneOn ..
  case vsetseg => exact performs_of rfl nofun rfl (fun _ => rfl) fun e x => perfVsetseg_doneOn e o x
  case vgetseg => exact performs_of rfl nofun rfl (fun _ => rfl) fun e x => perfVgetseg_doneOn e o x

end Sys2Proof.Machine

namespace Sys2Proof.Machine

/-! PROOFS of the family 09_fibre: the fibre instructions of group 0x6 (R176 to R190). -/

/-! What the fibre pipe leaves of the hart (R191). -/

/-- A hart that differs from x in its fibre registers and VPROG alone. -/
def Hart.FibresOnly (x y : Hart) : Prop := y = { x with fib := y.fib, vprog := y.vprog }

theorem Hart.FibresOnly.refl (x : Hart) : x.FibresOnly x := rfl

theorem Hart.FibresOnly.trans {x y z : Hart} (h : x.FibresOnly y) (h' : y.FibresOnly z) : x.FibresOnly z := by
  unfold Hart.FibresOnly at h h' ⊢
  rw [h', h]

theorem Hart.FibresOnly.setFibre {x y : Hart} (h : x.FibresOnly y) (n : Nat) (f : Fibre) : x.FibresOnly (y.setFibre n f) :=
  h.trans rfl

theorem Hart.FibresOnly.setVprog {x y : Hart} (h : x.FibresOnly y) (p : Vprog) : x.FibresOnly { y with vprog := p } :=
  h.trans rfl

theorem clearOuts_fibresOnly (x : Hart) (d : Nat) (two : Bool) : x.FibresOnly (clearOuts x d two) := by
  cases two <;> rfl

/-- A result on fibre registers and VPROG leaves the queue, outstanding results and poison. -/
theorem Hart.FibresOnly.keeps {x y : Hart} (h : x.FibresOnly y) (f : BitVec 8) (r : Option Word) : (HRes.done y f r).Keeps x := by
  intro z g v hz
  cases hz
  rw [h]
  exact ⟨rfl, rfl, rfl⟩

theorem HRes.fault_keeps (x y : Hart) (f : BitVec 8) (t : Trap) : (HRes.fault y f t).Keeps x := fun _ _ _ h => by cases h

theorem HRes.part_keeps (x y : Hart) (f : BitVec 8) (acc : Word) : (HRes.part y f acc).Keeps x := fun _ _ _ h => by cases h

theorem setFibre_doneOn (x : Hart) (n : Nat) (y : Fibre) (f : BitVec 8) : (HRes.done (x.setFibre n y) f none).DoneOn x :=
  ⟨⟨_, _, _, rfl⟩, ((Hart.FibresOnly.refl x).setFibre n y).keeps f none⟩

theorem fibreResult_doneOn (o : Fields) (x : Hart) (l : List (Nat × FRes)) : (fibreResult o x l).DoneOn x :=
  setFibre_doneOn ..

/-- FGATHER without elements changes nothing, and else writes one fibre (R182). -/
theorem perfFgather_doneOn (e : QEntry) (o : Fields) (x : Hart) : (perfFgather e o x).DoneOn x := by
  unfold perfFgather
  dsimp only
  split
  · exact join_doneOn x none
  · exact setFibre_doneOn ..

/-- FSPLIT writes both groups of a pair: two writes of vector registers (R180). -/
theorem perfFsplit_doneOn (e : QEntry) (o : Fields) (x : Hart) : (perfFsplit e o x).DoneOn x := by
  refine .of_eq ?_ 0 none
  rw [Hart.setElems_eq, x.setElems_eq]
  exact ⟨_, _, rfl⟩

theorem clearOuts_doneOn (x : Hart) (d : Nat) (two : Bool) : (HRes.done (clearOuts x d two) 0 none).DoneOn x :=
  ⟨⟨_, _, _, rfl⟩, (clearOuts_fibresOnly x d two).keeps 0 none⟩

/-! The data-dependent instructions, step by step (R183, R184, R186 to R190). -/

/-- What one step can do: it reaches its next boundary with fibre registers changed alone, or stops for want of room or of
order. -/
def StepOf (p : Progress) (r : RunEnd ⊕ Progress) : Prop :=
  (∃ q, r = .inr q ∧ p.x.FibresOnly q.x) ∨ (∃ q, r = .inl (.full q)) ∨ ∃ q c, r = .inl (.order q c)

/-- A step that writes no register. -/
theorem StepOf.of_hart_eq {p q : Progress} (h : q.x = p.x) : StepOf p (.inr q) := .inl ⟨q, rfl, h ▸ Hart.FibresOnly.refl _⟩

/-- An emit that finds room, in order, writes the output fibre, or both (R183). -/
theorem emitPair_fibresOnly {x y : Hart} {d : Nat} {two : Bool} {c v0 v1 : Nat} (h : emitPair x d two c v0 v1 = .ok y) :
    x.FibresOnly y := by
  unfold emitPair at h
  dsimp only at h
  split at h
  · cases h
  split at h
  · cases h
  cases h
  have hfirst := (Hart.FibresOnly.refl x).setFibre d ((x.fibreReg d).push c v0)
  cases two
  · exact hfirst
  · exact hfirst.setFibre ..

theorem stepEmit_stepOf (p : Progress) (d : Nat) (two : Bool) (c v0 v1 pa pb : Nat) (f : BitVec 8) :
    StepOf p (stepEmit p d two c v0 v1 pa pb f) := by
  unfold stepEmit
  split
  · exact .inr (.inl ⟨_, rfl⟩)
  · exact .inr (.inr ⟨_, _, rfl⟩)
  · next y hy => exact .inl ⟨_, rfl, emitPair_fibresOnly hy⟩

/-- A step of a walk, in the column that its two coordinates choose, emits or passes its inputs by. -/
theorem walkStep_stepOf (k : WalkKind) (e : QEntry) (o : Fields) (p : Progress) : StepOf p (walkStep k e o p) := by
  unfold walkStep
  dsimp only
  split
  case isTrue both =>
    cases k with
    | isect | union | merge => exact stepEmit_stepOf ..
    | dot => exact .of_hart_eq rfl
  case isFalse notBoth =>
    split
    case isTrue aOnly =>
      cases k with
      | union | merge => exact stepEmit_stepOf ..
      | isect | dot => exact .of_hart_eq rfl
    case isFalse bOnly =>
      cases k with
      | union | merge => exact stepEmit_stepOf ..
      | isect | dot => exact .of_hart_eq rfl

/-- FDOT emits nothing: each of its steps reaches the next boundary. -/
theorem walkStep_dot (e : QEntry) (o : Fields) (p : Progress) : ∃ q, walkStep .dot e o p = .inr q := by
  unfold walkStep
  dsimp only
  split
  · exact ⟨_, rfl⟩
  split
  · exact ⟨_, rfl⟩
  · exact ⟨_, rfl⟩

/-- FCOMPACT emits the positions that it keeps and passes the others by. -/
theorem compactStep_stepOf (o : Fields) (p : Progress) : StepOf p (compactStep o p) := by
  unfold compactStep
  dsimp only
  split
  · exact stepEmit_stepOf ..
  · exact .of_hart_eq rfl

/-- FSORT inserts an active element where there is room and passes the others by. -/
theorem fsortStep_stepOf (e : QEntry) (o : Fields) (p : Progress) : StepOf p (fsortStep e o p) := by
  unfold fsortStep
  dsimp only
  split
  · split
    · exact .inr (.inl ⟨_, rfl⟩)
    · exact .inl ⟨_, rfl, (Hart.FibresOnly.refl p.x).setFibre ..⟩
  · exact .of_hart_eq rfl

/-- A run of steps that ends at its last boundary has changed fibre registers alone. -/
theorem runSteps_fibresOnly {isOver : Progress → Bool} {step : Progress → RunEnd ⊕ Progress} (hstep : ∀ p, StepOf p (step p))
    {n : Nat} {limit : Option Nat} {p q : Progress} (h : runSteps isOver step n limit p = .done q) : p.x.FibresOnly q.x := by
  induction n generalizing limit p with
  | zero => cases h; exact .refl _
  | succ n ih =>
    rw [runSteps] at h
    split at h
    · cases h; exact .refl _
    split at h
    · cases h
    obtain ⟨r, hr, hx⟩ | ⟨r, hr⟩ | ⟨r, c, hr⟩ := hstep p
    · rw [hr] at h
      exact hx.trans (ih h)
    · rw [hr] at h
      cases h
    · rw [hr] at h
      cases h

/-- A run without a limit whose steps all reach a boundary ends at its last one. -/
theorem runSteps_unlimited {isOver : Progress → Bool} {step : Progress → RunEnd ⊕ Progress} (hstep : ∀ p, ∃ q, step p = .inr q)
    (n : Nat) (p : Progress) : ∃ q, runSteps isOver step n none p = .done q := by
  induction n generalizing p with
  | zero => exact ⟨p, rfl⟩
  | succ n ih =>
    rw [runSteps]
    split
    · exact ⟨p, rfl⟩
    obtain ⟨q, hq⟩ := hstep p
    rw [if_neg nofun, hq]
    exact ih q

theorem startAt_fibresOnly {x fresh : Hart} (h : x.FibresOnly fresh) (e : QEntry) (tag : Nat) :
    x.FibresOnly (startAt e x tag fresh).x := by
  unfold startAt
  split
  · exact .refl x
  · exact h.setVprog {}

/-- Only a run that ends at its last boundary is done, and it clears VPROG (R189). -/
theorem endRun_keeps {x : Hart} (tag d : Nat) (cnt : Progress → Nat) (result : Progress → Option Word) {r : RunEnd}
    (h : ∀ q, r = .done q → x.FibresOnly q.x) : (endRun tag d cnt result r).Keeps x := by
  cases r with
  | done q => exact ((h q rfl).setVprog {}).keeps _ _
  | stop | held => exact HRes.part_keeps _ _ _ _
  | full | order | fault => exact HRes.fault_keeps _ _ _ _

/-- A data-dependent instruction that starts on x, fresh or resumed. -/
theorem endRun_runSteps_keeps {x : Hart} {isOver : Progress → Bool} {step : Progress → RunEnd ⊕ Progress}
    (hstep : ∀ p, StepOf p (step p)) {p : Progress} (hp : x.FibresOnly p.x) (tag d : Nat) (cnt : Progress → Nat)
    (result : Progress → Option Word) (n : Nat) (limit : Option Nat) :
    (endRun tag d cnt result (runSteps isOver step n limit p)).Keeps x :=
  endRun_keeps tag d cnt result fun _ hq => hp.trans (runSteps_fibresOnly hstep hq)

theorem perfWalk_keeps (k : WalkKind) (tag : Nat) (limit : Option Nat) (e : QEntry) (o : Fields) (x : Hart) :
    (perfWalk k tag limit e o x).Keeps x := by
  have hclear := clearOuts_fibresOnly x o.d.toNat
  cases k with
  | dot => exact endRun_runSteps_keeps (walkStep_stepOf _ e o) (startAt_fibresOnly (.refl x) e tag) _ _ _ _ _ _
  | isect | merge => exact endRun_runSteps_keeps (walkStep_stepOf _ e o) (startAt_fibresOnly (hclear true) e tag) _ _ _ _ _ _
  | union => exact endRun_runSteps_keeps (walkStep_stepOf _ e o) (startAt_fibresOnly (hclear false) e tag) _ _ _ _ _ _

theorem perfFdot_doneOn (e : QEntry) (o : Fields) (x : Hart) : (perfFdot none e o x).DoneOn x := by
  obtain ⟨q, hq⟩ := runSteps_unlimited (isOver := walkOver .dot o) (walkStep_dot e o) 520 (startAt e x 0x09 x)
  have hdone : perfFdot none e o x = .done { q.x with vprog := {} } q.flags (some (extCode o.w.toNat q.acc)) :=
    congrArg (endRun 0x09 o.d.toNat Progress.cnt fun p => some (extCode o.w.toNat p.acc)) hq
  exact ⟨⟨_, _, _, hdone⟩, perfWalk_keeps .dot 0x09 none e o x⟩

theorem perfFcompact_keeps (limit : Option Nat) (e : QEntry) (o : Fields) (x : Hart) : (perfFcompact limit e o x).Keeps x := by
  refine endRun_runSteps_keeps (compactStep_stepOf o) ?_ _ _ _ _ _ _
  exact startAt_fibresOnly (clearOuts_fibresOnly x o.d.toNat true) e 0x05

theorem perfFsort_keeps (limit : Option Nat) (e : QEntry) (o : Fields) (x : Hart) : (perfFsort limit e o x).Keeps x := by
  unfold perfFsort
  dsimp only
  split
  · exact (Hart.FibresOnly.refl x).keeps 0 none
  · refine endRun_runSteps_keeps (fsortStep_stepOf e o) ?_ _ _ _ _ _ _
    exact startAt_fibresOnly (clearOuts_fibresOnly x o.d.toNat false) e 0x0D

/-! FBUILD (R179). -/

theorem perfFbuild_keeps (e : QEntry) (o : Fields) (x : Hart) : (perfFbuild e o x).Keeps x := by
  unfold perfFbuild
  dsimp only
  split
  · exact (Hart.FibresOnly.refl x).keeps 0 none
  split
  · exact ((Hart.FibresOnly.refl x).setFibre ..).keeps 0 none
  · exact HRes.fault_keeps _ _ _ _

theorem Hart.velem_lt (x : Hart) (k n i : Nat) : x.velem k n i < 2 ^ n := Nat.mod_lt _ (by positivity)

/-- The coordinate of a pair written in the next free position (R90). -/
theorem Fibre.push_coord {f : Fibre} {c : Nat} (v : Nat) (hf : f.occ < 256) (hc : c < 2 ^ 32) : (f.push c v).coord f.occ = c := by
  rw [Fibre.push, Fibre.coord, Fibre.setPair, elem_ofNat _ _ _ (by omega), elem_setElem_same]
  omega

/-- Elements whose coordinates strictly ascend, and lie above those that the fibre holds, all are taken. -/
theorem buildFrom_ascending (e : QEntry) (o : Fields) (x : Hart) {l : List Nat}
    (hl : l.Pairwise fun i j => x.velem e.va 32 i < x.velem e.va 32 j) {f : Fibre}
    (hf : 0 < f.occ → ∀ i ∈ l, f.coord (f.occ - 1) < x.velem e.va 32 i) : (buildFrom e o x l f).2 = none := by
  induction l generalizing f with
  | nil => rfl
  | cons i l ih =>
    obtain ⟨hi, hl⟩ := List.pairwise_cons.1 hl
    rw [buildFrom]
    rw [if_neg fun ⟨hpos, hle⟩ => absurd (hf hpos i (by simp)) (by omega)]
    split
    · exact ih hl fun hpos j hj => hf hpos j (by simp [hj])
    · next hroom =>
      refine ih hl fun _ j hj => ?_
      show Fibre.coord _ f.occ < _
      rw [Fibre.push_coord _ (by omega) (x.velem_lt ..)]
      exact hi j hj

/-- A fresh FBUILD is done where the coordinates of its active elements strictly ascend. -/
theorem perfFbuild_ascending (e : QEntry) (o : Fields) (x : Hart) (hv : x.vstart = 0)
    (h : ∀ i j, i < j → activeAt e o x i = true → activeAt e o x j = true → x.velem e.va 32 i < x.velem e.va 32 j) :
    ∃ y f v, perfFbuild e o x = .done y f v := by
  have hasc : ((List.range e.vl).filter fun i => activeAt e o x i).Pairwise fun i j => x.velem e.va 32 i < x.velem e.va 32 j :=
    List.pairwise_filter.2 (List.pairwise_lt_range.imp (h _ _))
  have hall := buildFrom_ascending e o x hasc (f := { x.fibreReg o.d.toNat with occ := 0 }) fun hpos => absurd hpos (by simp)
  unfold perfFbuild
  dsimp only
  rw [if_pos hv]
  split
  · exact ⟨_, _, _, rfl⟩
  split
  · exact ⟨_, _, _, rfl⟩
  · next hstop => exact nomatch hall.symm.trans (congrArg Prod.snd hstop)

/-- Settles O30: the members that cannot stop write vector or fibre registers or deliver a scalar, and so does FDOT at the end of
its walk; a data-dependent member that is done has changed fibre registers and VPROG alone; FBUILD stops at a coordinate that does
not ascend and nowhere else. -/
theorem fibreInstructions : Obligations.FibreInstructions := by
  unfold Obligations.FibreInstructions
  intro s o
  refine ⟨?fsplit, ?fexpand, ?fgather, ?fmul, ?fscale, ?focc, ?fshift, ?fred, ?fclear, ?fclearPair, ?fdot, ?fbuild, ?fisect,
    ?funion, ?fmerge, ?fcompact, ?fsort, ?ascending⟩
  case fsplit => exact performs_of rfl nofun rfl (fun _ => rfl) fun e x => perfFsplit_doneOn e o x
  case fexpand => exact performs_of rfl nofun rfl (fun _ => rfl) fun e x => setElems_doneOn ..
  case fgather => exact performs_of rfl nofun rfl (fun _ => rfl) fun e x => perfFgather_doneOn e o x
  case fmul | fscale => exact performs_of rfl nofun rfl (fun _ => rfl) fun e x => fibreResult_doneOn ..
  case focc | fred => exact performs_of rfl nofun rfl (fun _ => rfl) fun e x => .of_eq ⟨_, _, rfl⟩ _ _
  case fshift => exact performs_of rfl nofun rfl (fun _ => rfl) fun e x => setFibre_doneOn ..
  case fclear | fclearPair => exact performs_of rfl nofun rfl (fun _ => rfl) fun e x => clearOuts_doneOn ..
  case fdot => exact performs_of rfl nofun rfl (fun _ => rfl) fun e x => perfFdot_doneOn e o x
  case fbuild => exact performsIfDone_of rfl nofun rfl rfl fun x => perfFbuild_keeps _ o x
  case fisect | funion | fmerge => exact performsIfDone_of rfl nofun rfl rfl fun x => perfWalk_keeps _ _ none _ o x
  case fcompact => exact performsIfDone_of rfl nofun rfl rfl fun x => perfFcompact_keeps none _ o x
  case fsort => exact performsIfDone_of rfl nofun rfl rfl fun x => perfFsort_keeps none _ o x
  case ascending => exact fun e x hv _ h => perfFbuild_ascending e o x hv h

end Sys2Proof.Machine

namespace Sys2Proof.Machine

/-! MPROM on a die whose governor has set RATE 0 (R211, R400): it does not start. -/

/-- Reset with RATE 0 on die 0, as at 105 °C or a loss of flow (R433): the budget of the hart's core is full. -/
def ungovernedState : State := { State.reset with rate := [(0, 0)] }

/-- MPROM into the C group at v4, with its scales in v0 and s0. -/
def promotion : Fields := { d := 4 }

theorem ungovernedState_canPush : ungovernedState.CanPush (.mprom promotion) promotion checkMprom where
  here := by decide
  empty := rfl
  level := rfl
  settled := rfl
  clean := rfl
  free := rfl
  live := rfl
  runs := by decide
  allowed := nofun
  checked := by decide
  prompt := rfl
  alone k hk hcore := by
    match k, hk with
    | k + 1, _ => rfl
  calm := rfl

/-- The budget level of a core, in the state that an outcome gives. -/
def levelAfter (r : Host.Outcome State Fault Refusal) (c : Nat) : Option Nat :=
  match r with
  | .next t => some (t.core c).level
  | _ => none

/-- The engine takes nothing: the entry waits for the governor. -/
theorem ungovernedState_level : levelAfter (exec (.mprom promotion) ungovernedState) 0 = some (ungovernedState.core 0).level := by
  decide +kernel

/-- Refutes O31: MPROM's clause has no premise that RATE is not 0. In `ungovernedState` RATE is 0, so MPROM waits although the
budget covers its charge of 2, and the budget does not fall. -/
theorem not_matrixInstructions : ¬ Obligations.MatrixInstructions := by
  unfold Obligations.MatrixInstructions
  intro h
  obtain ⟨-, -, hmprom, -⟩ := h.1 ungovernedState promotion
  obtain ⟨t, ht, -, hfalls, -⟩ := hmprom ungovernedState_canPush (by decide) nofun (by decide)
  have hstays := ungovernedState_level
  rw [ht] at hstays
  have hlevel := hfalls.symm.trans (Option.some.inj hstays)
  exact absurd hlevel (by decide)

end Sys2Proof.Machine

namespace Sys2Proof.Machine

/-! Memory after reset, and the checks on a leaf (R220, R230). -/

/-- Settles O60. -/
theorem resetMemoryCanonical : Obligations.ResetMemoryCanonical := by
  unfold Obligations.ResetMemoryCanonical
  exact ⟨rfl, rfl⟩

/-- Settles O40: the conditions are those of `checkLeaf`, in its order. -/
theorem pageChecks : Obligations.PageChecks := by
  unfold Obligations.PageChecks
  intro sup acc va pte n frame page c1 c2 c3 c4 c5 c6
  have hcheck : checkLeaf sup acc va pte n =
      if c1 then some (page, 0) else if c2 then some (causePROTECT, 2) else if c3 then some (causePROTECT, 3)
      else if c4 then some (causePROTECT, 1) else if c5 then some (causePROTECT, 4)
      else if c6 then some (causeFORMAT_REC, pteFREC pte) else none := by
    simp [checkLeaf, c1, c2, c3, c4, c5, c6, frame, page]
  rw [hcheck]
  refine ⟨fun h1 => if_pos h1, fun h1 h2 => ?_, fun h1 h2 h3 => ?_, fun h1 h2 h3 h4 => ?_, fun h1 h2 h3 h4 h5 => ?_,
    fun h1 h2 h3 h4 h5 h6 => ?_, fun h1 h2 h3 h4 h5 h6 => ?_⟩
  · rw [if_neg h1, if_pos h2]
  · rw [if_neg h1, if_neg h2, if_pos h3]
  · rw [if_neg h1, if_neg h2, if_neg h3, if_pos h4]
  · rw [if_neg h1, if_neg h2, if_neg h3, if_neg h4, if_pos h5]
  · rw [if_neg h1, if_neg h2, if_neg h3, if_neg h4, if_neg h5, if_pos h6]
  · rw [if_neg h1, if_neg h2, if_neg h3, if_neg h4, if_neg h5, if_neg h6]

end Sys2Proof.Machine

namespace Sys2Proof.Machine

/-! Memory in the operations of homes, hubs and dies: most leave it as it is. -/

@[simp] theorem foldl_mem {α : Type} {f : State → α → State} (hf : ∀ t a, (f t a).mem = t.mem) (l : List α) (s : State) :
    (l.foldl f s).mem = s.mem :=
  List.foldlRecOn l f (motive := fun t => t.mem = s.mem) rfl fun _ ht _ _ => (hf _ _).trans ht

namespace State

variable (s : State)

@[simp] theorem deliverOut_mem (dst n : Nat) : (s.deliverOut dst n).mem = s.mem := (SameStore.deliverOut s dst n).mem
@[simp] theorem unread_mem (r : Nat) : (s.unread r).mem = s.mem := (SameStore.unread s r).mem
@[simp] theorem hbmUse_mem (hub : Nat) : (s.hbmUse hub).mem = s.mem := (SameStore.hbmUse s hub).mem
@[simp] theorem askHomes_mem (hub : Nat) (homes : List Nat) : (s.askHomes hub homes).mem = s.mem := (SameStore.askHomes ..).mem
@[simp] theorem leaveHolds_mem (r : Nat) (keys : List Nat) : (s.leaveHolds r keys).mem = s.mem := (SameStore.leaveHolds ..).mem
@[simp] theorem keepAsn_mem (hub : Nat) (asn : BitVec 16) (x : Nat) : (s.keepAsn hub asn x).mem = s.mem := (SameStore.keepAsn ..).mem
@[simp] theorem noteAsn_mem (asn : BitVec 16) (va : Nat) : (s.noteAsn asn va).mem = s.mem := (SameStore.noteAsn s asn va).mem
@[simp] theorem noteWalk_mem (asn : BitVec 16) (va : Nat) : (s.noteWalk asn va).mem = s.mem := (SameStore.noteWalk s asn va).mem
@[simp] theorem noteFault_mem (w : FaultBy) (t : Trap) (l : List FaultPage) : (s.noteFault w t l).mem = s.mem :=
  (SameStore.noteFault ..).mem

@[simp] theorem setPoison_mem (line : Nat) (p : Bool) : (s.setPoison line p).mem = s.mem := by
  simp [setPoison, apply_ite State.mem]
@[simp] theorem takeFree_mem : s.takeFree.2.mem = s.mem := rfl
@[simp] theorem illegal_mem (n : Nat) (v : Option (BitVec 8)) (ind : Bool) : (s.illegal n v ind).2.mem = s.mem := by
  cases v <;> rfl
@[simp] theorem freeTag_mem (frame : Nat) : (s.freeTag frame).mem = s.mem := by simp [freeTag, apply_ite State.mem]
@[simp] theorem setDir_mem (line : Nat) (x : DirSt) : (s.setDir line x).mem = s.mem := by
  simp only [setDir, apply_ite State.mem, freeTag_mem, ite_self]

/-! The fabric. -/

@[simp] theorem countAgent_mem (a c k : Nat) : (s.countAgent a c k).mem = s.mem := by
  simp [countAgent, apply_ite State.mem]
@[simp] theorem beatNow_mem (j d : Nat) : (s.beatNow j d).mem = s.mem := by simp [beatNow, apply_ite State.mem]
@[simp] theorem hubError_mem (hub bit : Nat) : (s.hubError hub bit).mem = s.mem := rfl
@[simp] theorem dropStale_mem (dst : Nat) : (s.dropStale dst).mem = s.mem := by simp [dropStale]
@[simp] theorem askHorizons_mem (dst : Nat) (w : Waiter) : (s.askHorizons dst w).mem = s.mem := by simp [askHorizons]
@[simp] theorem receive_mem (dst : Nat) (p : Packet) : (s.receive dst p).mem = s.mem := by
  unfold receive
  dsimp only
  split_ifs
  · rfl
  · simp
  · rfl
  · rfl
  · split <;> simp
@[simp] theorem answerBeat_mem (j d : Nat) : (s.answerBeat j d).mem = s.mem := by simp [answerBeat]
@[simp] theorem bring_mem (d : Nat) : (s.bring d).mem = s.mem := by simp [bring]
@[simp] theorem stallCycle_mem (a : Nat) : (s.stallCycle a).mem = s.mem := by
  unfold stallCycle; split <;> simp
@[simp] theorem emit_mem (a d c : Nat) (asn : Option (BitVec 16)) : (s.emit a d c asn).mem = s.mem := rfl
@[simp] theorem holdReader_mem (r v agent : Nat) (view : Nat × Nat) : (s.holdReader r v agent view).mem = s.mem := by
  unfold holdReader
  dsimp only
  split_ifs
  · rfl
  · split <;> simp
@[simp] theorem askHorizon_mem (d j : Nat) : (s.askHorizon d j).mem = s.mem := by simp [askHorizon, apply_ite State.mem]
@[simp] theorem exchange_mem (a d : Nat) (asn : Option (BitVec 16)) : (s.exchange a d asn).mem = s.mem := by simp [exchange]
@[simp] theorem probeDies_mem (hub : Nat) (v : BitVec 24) : (s.probeDies hub v).mem = s.mem := by
  simp [probeDies, apply_ite State.mem]
@[simp] theorem resyncDone_mem : s.resyncDone.mem = s.mem := by
  unfold resyncDone
  rw [foldl_mem]
  intro t a
  simp

theorem broadcast_mem {a : Nat} {f : State → State} (hf : ∀ t, (f t).mem = t.mem) : (s.broadcast a f).mem = s.mem := by
  simp [broadcast, hf]

theorem sendUnsent_mem : ∀ t ∈ s.sendUnsent, t.mem = s.mem := by
  unfold sendUnsent
  split
  · simp
  · intro t ht
    obtain ⟨p, -, rfl⟩ := Option.map_eq_some_iff.1 ht
    simp

/-! The directory. -/

@[simp] theorem moveDir_mem (hub line : Nat) (y : DirSt) : (s.moveDir hub line y).mem = s.mem := by simp [moveDir]
@[simp] theorem recallLine_mem (line : Nat) : (s.recallLine line).mem = s.mem := by simp [recallLine]
@[simp] theorem recallWhere_mem (p : Nat → Bool) : (s.recallWhere p).mem = s.mem := by simp [recallWhere]
@[simp] theorem retag_mem (frame : Nat) (asn : BitVec 16) (glob : Bool) (granule : Nat) :
    (s.retag frame asn glob granule).mem = s.mem := by
  unfold retag
  split
  · rfl
  · simp [apply_ite State.mem]
@[simp] theorem notice_mem (reg b : Nat) : (s.notice reg b).mem = s.mem := by
  unfold notice
  split
  · rfl
  · dsimp only
    split <;> simp [apply_ite State.mem]
@[simp] theorem sendNotice_mem (line reg b : Nat) : (s.sendNotice line reg b).mem = s.mem := by
  simp [sendNotice, apply_ite State.mem]
@[simp] theorem plainCopy_mem (die line : Nat) : (s.plainCopy die line).mem = s.mem := rfl
@[simp] theorem newCopy_mem (die line : Nat) (fwd : Option Bool) : (s.newCopy die line fwd).mem = s.mem := by
  unfold newCopy
  cases fwd <;> simp [apply_ite State.mem]
@[simp] theorem fillCopy_mem (core cls : Nat) (miss : Bool) (fwd : Option Bool) (line : Nat) :
    (s.fillCopy core cls miss fwd line).mem = s.mem := by
  simp [fillCopy, apply_ite State.mem]
@[simp] theorem countMiss_mem (core cls line : Nat) (there : Bool) : (s.countMiss core cls line there).mem = s.mem := by
  simp [countMiss, apply_ite State.mem]
@[simp] theorem wroteCopy_mem (core pa n : Nat) : (s.wroteCopy core pa n).mem = s.mem := by
  simp [wroteCopy, apply_ite State.mem]
@[simp] theorem useGot_mem (line : Nat) : (s.useGot line).mem = s.mem := by simp [useGot, apply_ite State.mem]
@[simp] theorem request_mem (die hub line : Nat) (asn : BitVec 16) : (s.request die hub line asn).mem = s.mem := by
  simp [request, apply_ite State.mem]
@[simp] theorem reply_mem (die hub line : Nat) : (s.reply die hub line).mem = s.mem := by simp [reply, apply_ite State.mem]
@[simp] theorem travel_mem (die hub line : Nat) (asn : BitVec 16) : (s.travel die hub line asn).mem = s.mem := by simp [travel]

end State

/-- The state, where the access finds its line, satisfies p. -/
def Touch.All (p : State → Prop) : Touch → Prop
  | .ok s => p s
  | _ => True

namespace State
variable (s : State)

theorem touchLine_mem (die : Nat) (asn : BitVec 16) (glob : Bool) (granule line : Nat) (w : Want) (q : Ask)
    (grant : BitVec 4) (need : List Nat) :
    (s.touchLine die asn glob granule line w q grant need).All fun t => t.mem = s.mem := by
  unfold touchLine
  split
  · rfl
  · split
    · trivial
    · split
      · trivial
      · dsimp only
        split
        · trivial
        · split
          · trivial
          · simp [Touch.All, apply_ite State.mem]

end State
end Sys2Proof.Machine

namespace Sys2Proof.Machine

/-! Memory in the writes at homes, the queues and the translation. -/

theorem foldl_wf {α : Type} {f : State → α → State} (hf : ∀ t a, Memory.wf t.mem → Memory.wf (f t a).mem) (l : List α)
    {s : State} (h : Memory.wf s.mem) : Memory.wf (l.foldl f s).mem :=
  List.foldlRecOn l f (motive := fun t => Memory.wf t.mem) h fun _ ht _ _ => hf _ _ ht

/-- The state of a translation that succeeds satisfies p. -/
def Trans.All (p : State → Prop) : Trans → Prop
  | .ok s _ _ => p s
  | _ => True

namespace State

section Writes
variable (s : State)

@[simp] theorem poke_mem (pa : Nat) (bs : List Byte) : (s.poke pa bs).mem = memPut s.mem pa bs := rfl
@[simp] theorem write_mem (pa : Nat) (bs : List Byte) : (s.write pa bs).mem = memPut s.mem pa bs := rfl
@[simp] theorem laneWrite_mem (core off : Nat) (bs : List Byte) :
    (s.laneWrite core off bs).mem = memPut s.mem (laneBase core + off) bs := rfl
@[simp] theorem homeWrite_mem (pa : Nat) (bs : List Byte) : (s.homeWrite pa bs).mem = memPut s.mem pa bs := by
  simp [homeWrite, apply_ite State.mem]
@[simp] theorem dieWrite_mem (die pa : Nat) (bs : List Byte) : (s.dieWrite die pa bs).mem = memPut s.mem pa bs :=
  homeWrite_mem s pa bs

@[simp] theorem queueAs_mem (r agent key : Nat) : (s.queueAs r agent key).mem = s.mem := by
  unfold queueAs; split <;> simp
@[simp] theorem queueUp_mem (r key : Nat) : (s.queueUp r key).mem = s.mem := queueAs_mem ..
@[simp] theorem queueNew_mem (agent key : Nat) : (s.queueNew agent key).mem = s.mem := queueAs_mem s ..
theorem requeue_mem (r key : Nat) : ∀ t ∈ s.requeue r key, t.mem = s.mem := by
  simp [requeue]
@[simp] theorem endPlace_mem (r : Nat) : (s.endPlace r).mem = s.mem := unread_mem _ r
@[simp] theorem leavePage_mem (r : Nat) (asn : BitVec 16) (va : Nat) : (s.leavePage r asn va).mem = s.mem := by
  simp [leavePage, apply_ite State.mem]
@[simp] theorem noteEntry_mem (asn : BitVec 16) (va : Nat) : (s.noteEntry asn va).mem = s.mem := by
  simp [noteEntry, apply_ite State.mem]
@[simp] theorem takeHome_mem (pa n : Nat) : (s.takeHome pa n).mem = s.mem := by simp [takeHome]
@[simp] theorem leaveAll_mem (r : Nat) : (s.leaveAll r).mem = s.mem := by simp [leaveAll, apply_ite State.mem]
@[simp] theorem leavePa_mem (r pa : Nat) : (s.leavePa r pa).mem = s.mem := by simp [leavePa, apply_ite State.mem]

end Writes

variable {s : State} (h : Memory.wf s.mem)
include h

theorem homeWrite_wf (pa : Nat) (bs : List Byte) : Memory.wf (s.homeWrite pa bs).mem := by
  rw [homeWrite_mem]; exact memPut_wf _ _ h

theorem discardLine_wf (line : Nat) : Memory.wf (s.discardLine line).mem := by
  unfold discardLine
  split
  · exact h
  · simp [memPut_wf, h]

theorem noteLeaf_wf (asn : BitVec 16) (acc : Access) (va : Nat) (pte : Word) (n pa : Nat) :
    Memory.wf (s.noteLeaf asn acc va pte n pa).mem := by
  simp only [noteLeaf, setHub_mem]
  split
  · exact h
  · simp [memPut_wf, h]

theorem translate_wf (asn : BitVec 16) (sup : Bool) (acc : Access) (va : Nat) :
    (s.translate asn sup acc va).All fun t => Memory.wf t.mem := by
  unfold translate
  split
  · trivial
  · split
    · trivial
    · trivial
    · trivial
    · split
      · split <;> trivial
      · split
        · trivial
        · split
          · trivial
          · exact noteLeaf_wf (by simp [h]) ..

end State
end Sys2Proof.Machine

namespace Sys2Proof.Machine

/-! Memory in the register stores, the dispatcher and the loss of parts. -/

/-- The states of a publication, of a device access and of its end satisfy p. -/
def Publish.All (p : State → Prop) : Publish → Prop
  | .ok s _ => p s
  | _ => True
def DevAt.All (p : State → Prop) : DevAt → Prop
  | .ok s _ => p s
  | .drop s => p s
  | .held _ => True
def DevEnd.All (p : State → Prop) : DevEnd → Prop
  | .ok s _ => p s
  | .held _ => True

theorem forall_mem_some {p : State → Prop} {s : State} (h : p s) : ∀ t ∈ some s, p t := by
  rintro t ⟨⟩
  exact h

theorem getD_wf {o : Option State} {s : State} (h : Memory.wf s.mem) (ho : ∀ t ∈ o, Memory.wf t.mem) :
    Memory.wf (o.getD s).mem := by
  cases o with
  | none => exact h
  | some t => exact ho t rfl

theorem Trans.All.ok {p : State → Prop} {r : Trans} (h : r.All p) {s : State} {pa : Nat} {pte : Word} (e : r = .ok s pa pte) : p s := by
  subst e; exact h
theorem DevAt.All.ok {p : State → Prop} {r : DevAt} (h : r.All p) {s : State} {pa : Nat} (e : r = .ok s pa) : p s := by
  subst e; exact h
theorem DevAt.All.drop {p : State → Prop} {r : DevAt} (h : r.All p) {s : State} (e : r = .drop s) : p s := by
  subst e; exact h
theorem DevEnd.All.ok {p : State → Prop} {r : DevEnd} (h : r.All p) {s : State} {l : List DevOp} (e : r = .ok s l) : p s := by
  subst e; exact h

namespace State

@[simp] theorem noteLine_mem (s : State) (l : StoreLine) : (s.noteLine l).mem = s.mem := rfl
@[simp] theorem forgetLines_mem (s : State) (h : Nat) : (s.forgetLines h).mem = s.mem := rfl
@[simp] theorem dropped_mem (s : State) (hub : Nat) : (s.dropped hub).mem = s.mem := rfl
@[simp] theorem takeTcb_mem (s : State) (r pa : Nat) : (s.takeTcb r pa).mem = s.mem := by simp [takeTcb]
@[simp] theorem enterReady_mem (s : State) (pa : Nat) : (s.enterReady pa).mem = s.mem := by unfold enterReady; split <;> rfl
@[simp] theorem endHart_mem (s : State) (h : Nat) : (s.endHart h).mem = s.mem := rfl
@[simp] theorem releaseLines_mem (s : State) (agent eng : Nat) (l : List Nat) : (s.releaseLines agent eng l).mem = s.mem := by
  simp [releaseLines, apply_ite State.mem]
@[simp] theorem engineDone_mem (s : State) (agent eng : Nat) (fault : Option (BitVec 8 × Word × Word)) :
    (s.engineDone agent eng fault).mem = s.mem := by
  simp [engineDone]
@[simp] theorem abandonedDone_mem (s : State) (agent eng : Nat) : (s.abandonedDone agent eng).mem = s.mem := by
  simp [abandonedDone]
@[simp] theorem sendReport_mem (s : State) : s.sendReport.mem = s.mem := rfl
@[simp] theorem goFatal_mem (s : State) : s.goFatal.mem = s.mem := by
  have hstop (t : State) (h : Nat) : (t.stopHart h false).mem = t.mem := unread_mem ..
  have hhub (t : State) : (((List.range 8).foldl (fun t h => t.modHub h fun u => { u with fatal := true }) t)).mem = t.mem :=
    foldl_mem (by intros; rfl) _ t
  simp only [goFatal, sendReport_mem, hhub, foldl_mem hstop]
@[simp] theorem trimBias_mem (s : State) (hub : Nat) : (s.trimBias hub).mem = s.mem := rfl

section Wf
variable {s : State} (h : Memory.wf s.mem)
include h

theorem imgSend_wf (w : ImgWrite) : Memory.wf (s.imgSend w).mem := by
  simp [imgSend, apply_ite State.mem, memPut_wf, h]

theorem imgWrite_wf (n die pa : Nat) (data : Option (List Byte)) (poison : Bool) :
    Memory.wf (s.imgWrite n die pa data poison).mem := by
  unfold imgWrite
  dsimp only
  generalize ImgWrite.mk _ _ _ _ _ _ = w
  split
  · simp [h]
  · exact imgSend_wf h _

theorem imgMove_wf : ∀ t ∈ s.imgMove, Memory.wf t.mem := by
  unfold imgMove
  split
  · rintro t ⟨⟩
    rw [leaveAll_mem]
    exact imgSend_wf (by exact h) _
  · intro t ht
    obtain ⟨w, -, ht⟩ := List.exists_of_findSome?_eq_some ht
    obtain ⟨k, -, ht⟩ := Option.bind_eq_some_iff.1 ht
    rwa [requeue_mem _ _ _ t ht]

theorem writeLine_wf (n k v : Nat) : Memory.wf (s.writeLine n k v).mem := by
  unfold writeLine
  exact imgWrite_wf h ..

theorem saveImage_wf (n : Nat) (word : Instr → Nat) : Memory.wf (s.saveImage n word).mem := by
  refine foldl_wf (fun t k ht => ?_) _ h
  dsimp only
  split
  · exact writeLine_wf ht ..
  · exact ht

theorem evictOne_wf (core : Nat) : Memory.wf (s.evictOne core).mem := by
  unfold evictOne
  split
  · exact h
  · simp only [noteLine_mem, modHart_mem]
    split
    · exact writeLine_wf h ..
    · exact h

theorem makeRoom_wf (core n : Nat) : Memory.wf (s.makeRoom core n).mem := foldl_wf (fun _ _ ht => evictOne_wf ht _) _ h

theorem fillLine_wf (n k : Nat) : Memory.wf (s.fillLine n k).mem := by
  unfold fillLine
  split
  · exact h
  · split
    · simp [h]
    · rw [noteLine_mem, setHart_mem]
      exact makeRoom_wf (by simp [h]) ..

theorem dropLines_wf (n : Nat) : Memory.wf (s.dropLines n).mem := by
  rw [dropLines, forgetLines_mem]
  exact saveImage_wf h ..

theorem leaveStore_wf (n there : Nat) : Memory.wf (s.leaveStore n there).mem := by
  rw [leaveStore, modCore_mem]
  exact dropLines_wf h _

theorem stopHart_wf (n : Nat) (save : Bool) : Memory.wf (s.stopHart n save).mem := by
  unfold stopHart
  have h0 : Memory.wf ((s.modHart n Hart.halt).unread n).mem := by simp [h]
  cases save
  · exact h0
  · exact dropLines_wf h0 _

theorem haltHart_wf (n : Nat) : Memory.wf (s.haltHart n).mem := by
  unfold haltHart
  split
  · exact h
  · exact stopHart_wf h ..

theorem tcbSet_wf (pa st status : Nat) : Memory.wf (s.tcbSet pa st status).mem := homeWrite_wf h ..

theorem publish_wf (asn : BitVec 16) (va : Word) (pa : Nat) (sup : Bool) :
    (s.publish asn va pa sup).All fun t => Memory.wf t.mem := by
  unfold publish
  split
  · trivial
  · split
    · trivial
    · exact homeWrite_wf (by exact h) ..

theorem deviceStore_wf (me : Nat) (asn : BitVec 16) (va : Word) (n hub : Nat) (atomic : Bool) :
    (s.deviceStore me asn va n hub atomic).All fun t => Memory.wf t.mem := by
  have hnote : Memory.wf (s.noteWalk asn va.toNat).mem := by rwa [noteWalk_mem]
  unfold deviceStore
  split
  · exact h
  · split
    · next s1 pa pte e =>
      have h1 := (translate_wf h ..).ok e
      split
      · exact hnote
      · split
        · exact hnote
        · split
          · trivial
          · split
            · trivial
            · split
              · exact hnote
              · simp [DevAt.All, h1]
    · trivial
    · exact hnote

theorem endTcb_wf (asn : BitVec 16) (tcb : Word) (pa st status : Nat) (ending : PredEnd) :
    Memory.wf (s.endTcb asn tcb pa st status ending).1.mem := by
  unfold endTcb
  dsimp only
  split <;> exact tcbSet_wf h ..

theorem decPreds_wf (hub pa st : Nat) : Memory.wf (s.decPreds hub pa st).mem := by
  unfold decPreds
  dsimp only
  split
  · exact h
  · exact homeWrite_wf h ..

theorem predAt_wf (asn : BitVec 16) (succ : Word) (ending : PredEnd) (pa : Nat) :
    Memory.wf (s.predAt asn succ ending pa).1.mem := by
  unfold predAt
  dsimp only
  split
  · exact decPreds_wf h ..
  · split
    · split
      · rw [enterReady_mem]
        exact decPreds_wf h ..
      · exact decPreds_wf h ..
    · exact endTcb_wf h ..

theorem devStep_wf (me : Nat) (p : DevOp) : (s.devStep me p).All fun t => Memory.wf t.mem := by
  unfold devStep
  split
  · split
    · next e => exact homeWrite_wf ((deviceStore_wf h ..).ok e) ..
    · next e => rw [DevEnd.All, dropped_mem]; exact (deviceStore_wf h ..).drop e
    · trivial
  · split
    · next e => exact predAt_wf ((deviceStore_wf h ..).ok e) ..
    · next e => rw [DevEnd.All, dropped_mem]; exact (deviceStore_wf h ..).drop e
    · trivial
  · split
    · exact h
    · split
      · trivial
      · exact endTcb_wf (by simp [h]) ..

theorem devAll_wf (fuel me : Nat) (l : List DevOp) : Memory.wf (State.devAll fuel me l s).mem := by
  induction fuel generalizing l s with
  | zero => exact h
  | succ fuel ih =>
    cases l with
    | nil => exact h
    | cons p ps =>
      rw [State.devAll]
      split
      · next e =>
        have ht := (devStep_wf h ..).ok e
        exact ih (by simp [ht]) _
      · simp [h]

theorem endTask_wf (asn : BitVec 16) (tcb : Word) (pa st status : Nat) (ending : PredEnd) :
    Memory.wf (s.endTask asn tcb pa st status ending).mem := devAll_wf (endTcb_wf h ..) ..

theorem finishTask_wf (k st status : Nat) (ending : PredEnd) : Memory.wf (s.finishTask k st status ending).mem :=
  devAll_wf (s := s.modTask k _) h ..

theorem devRetry_wf : ∀ t ∈ s.devRetry, Memory.wf t.mem := by
  unfold devRetry
  split
  · intro t ht
    obtain ⟨l, -, rfl⟩ := Option.map_eq_some_iff.1 ht
    exact devAll_wf (by exact h) ..
  · intro t ht
    obtain ⟨l, -, ht⟩ := List.exists_of_findSome?_eq_some ht
    obtain ⟨p, -, ht⟩ := Option.bind_eq_some_iff.1 ht
    split at ht
    · rwa [requeue_mem _ _ _ t ht]
    · cases ht

theorem dropImages_wf (k : Nat) : Memory.wf (s.dropImages k).mem := foldl_wf (fun _ _ ht => dropLines_wf ht _) _ h

theorem failDone_wf (k : Nat) : Memory.wf (s.failDone k).mem := by
  unfold failDone
  split
  · exact h
  · split
    · split
      · exact h
      · dsimp only
        split
        · exact dropImages_wf h _
        · exact finishTask_wf (dropImages_wf h _) ..
    · exact h

theorem failTask_wf (k status : Nat) : Memory.wf (s.failTask k status).mem := by
  unfold failTask
  split
  · exact h
  · split
    · exact h
    · exact failDone_wf (s := State.modTask _ k _) (foldl_wf (fun _ _ ht => haltHart_wf ht _) _ h) _

theorem failTaskNow_wf (k status : Nat) : Memory.wf (s.failTaskNow k status).mem := by
  unfold failTaskNow
  split
  · exact h
  · exact failDone_wf (s := State.modTask _ k _) (foldl_wf (fun _ _ ht => stopHart_wf (s := State.modHart _ _ _) ht ..) _ h) _

theorem addHart_wf (x : Hart) : Memory.wf (s.addHart x).mem := makeRoom_wf (by exact h) ..

theorem bindOne_wf (k : Nat) : ∀ t ∈ s.bindOne k, Memory.wf t.mem := by
  unfold bindOne
  split
  · nofun
  · split
    · nofun
    · split
      · nofun
      · split
        · nofun
        · split
          · split
            · nofun
            · exact forall_mem_some (by rw [modTask_mem]; exact addHart_wf h _)
          · split
            · nofun
            · exact forall_mem_some (by rw [modTask_mem]; exact addHart_wf h _)

theorem claim_wf (k : Nat) : ∀ t ∈ s.claim k, Memory.wf t.mem := by
  unfold claim
  split
  · nofun
  · next task _ =>
    split
    · rintro t ⟨⟩
      exact finishTask_wf h ..
    · split
      · split
        · nofun
        · rintro t ⟨⟩
          rwa [queueUp_mem]
      · have hrun (f : Task → Task) (bs : List Byte) :
            Memory.wf (((s.takeTcb dispPlace task.pa).homeWrite task.pa bs).modTask k f).mem := by
          simp [memPut_wf, h]
        rintro t ⟨⟩
        exact getD_wf (hrun ..) (bindOne_wf (hrun ..) k)

theorem rebind_wf (n : Nat) : ∀ t ∈ s.rebind n, Memory.wf t.mem := by
  unfold rebind
  dsimp only
  split
  · nofun
  · intro t ht
    obtain ⟨p, -, rfl⟩ := Option.map_eq_some_iff.1 ht
    have hmoved (there : Nat) (f : Hart → Hart) :
        Memory.wf ((if there = (s.hart n).coreNo then s else s.leaveStore n there).modHart n f).mem := by
      rw [modHart_mem]
      split
      · exact h
      · exact leaveStore_wf h ..
    exact hmoved ..

theorem dispatch_wf : ∀ t ∈ s.dispatch, Memory.wf t.mem := by
  intro t ht
  obtain ⟨k, -, ht⟩ := Option.bind_eq_some_iff.1 ht
  split at ht
  · next e => cases ht; exact bindOne_wf h k _ e
  · exact claim_wf h k t ht

theorem retire_wf (k : Nat) : Memory.wf (s.retire k).mem := by
  unfold retire
  split
  · exact h
  · split
    · dsimp only
      split
      · exact dropImages_wf h _
      · exact finishTask_wf (dropImages_wf h _) ..
    · exact h

theorem fenceTask_wf (x k : Nat) (held lost : Bool) : Memory.wf (s.fenceTask x k held lost).mem := by
  unfold fenceTask
  split
  · exact h
  · split
    · exact h
    · simp only [apply_ite State.mem, modTask_mem]
      split_ifs
      · exact failTask_wf h ..
      · exact h
      · exact failTask_wf h ..
      · exact h

theorem fenceDie_wf (x : Nat) : Memory.wf (s.fenceDie x).mem := by
  unfold fenceDie
  extract_lets hs facts s0 s1 s2 bad s3 dir gone k s4 s5
  have h0 : Memory.wf s0.mem := foldl_wf (fun _ _ ht => stopHart_wf ht ..) _ h
  have h1 : Memory.wf s1.mem := foldl_wf (fun t n ht => by rwa [forgetLines_mem, modHart_mem]) _ h0
  have h3 : Memory.wf s3.mem := foldl_wf (fun t l ht => by rwa [countHub_mem, setPoison_mem]) _ h1
  have h5 : Memory.wf s5.mem := foldl_wf (fun t n ht => by rwa [hubError_mem, modHub_mem]) _ (show Memory.wf s4.mem from h3)
  exact foldl_wf (fun t p ht => fenceTask_wf ht ..) _ h5

theorem fenceRequest_wf (x : Nat) : Memory.wf (s.fenceRequest x).mem := by
  unfold fenceRequest
  split_ifs
  · exact h
  · exact h
  · exact fenceDie_wf h _

theorem asnFault_wf (hub : Nat) (asn : BitVec 16) : Memory.wf (s.asnFault hub asn).mem := by
  unfold asnFault
  exact foldl_wf (fun t k ht => failTaskNow_wf ht ..) _ (by exact h)

theorem cfgWrite_wf (hub off n value : Nat) : Memory.wf (s.cfgWrite hub off n value).mem := by
  unfold cfgWrite
  dsimp only
  split
  case h_11 => 
    split
    · exact h
    · split
      · exact h
      · exact fenceRequest_wf h _
  all_goals repeat' split
  all_goals exact h

end Wf
end State
end Sys2Proof.Machine

namespace Sys2Proof.Machine

/-! Steps of an access that keep both the harts and memory (SameStore). -/

namespace State

section Harts
variable (s : State)

theorem SameHarts.moveDir (hub line : Nat) (y : DirSt) : s.SameHarts (s.moveDir hub line y) :=
  ((SameHarts.ofStore (.hbmUse s _)).trans (SameHarts.probeDies ..)).trans (SameHarts.setDir ..)

theorem SameHarts.retag (frame : Nat) (asn : BitVec 16) (glob : Bool) (granule : Nat) : s.SameHarts (s.retag frame asn glob granule) := by
  unfold State.retag
  split
  · rfl
  · dsimp only
    have hrecall : s.SameHarts (s.recallWhere fun l => decide (l / 32 = frame)) :=
      SameHarts.foldl (fun t _ => SameHarts.moveDir t ..) _ _
    exact SameHarts.ite (.refl s) (SameHarts.ite (congrArg id hrecall) rfl)

theorem SameHarts.request (die hub line : Nat) (asn : BitVec 16) : s.SameHarts (s.request die hub line asn) :=
  SameHarts.ite ((SameHarts.transmit s ..).trans (SameHarts.transmit ..)) (SameHarts.transmit ..)

theorem SameHarts.reply (die hub line : Nat) : s.SameHarts (s.reply die hub line) :=
  (SameHarts.ite (SameHarts.transmit ..) (SameHarts.refl s)).trans (SameHarts.transmit ..)

theorem SameHarts.newCopy (die line : Nat) (fwd : Option Bool) : s.SameHarts (s.newCopy die line fwd) := by
  cases fwd with
  | none => rfl
  | some bad => exact SameHarts.ite rfl (SameHarts.ite rfl rfl)

theorem SameHarts.fillCopy (core cls : Nat) (miss : Bool) (fwd : Option Bool) (line : Nat) :
    s.SameHarts (s.fillCopy core cls miss fwd line) := by
  unfold State.fillCopy
  dsimp only
  refine SameHarts.ite (.refl s) ?_
  generalize hu : (if miss = true then _ else s : State) = u
  have h : s.SameHarts u := by
    rw [← hu]
    exact SameHarts.ite (SameHarts.newCopy ..) (.refl s)
  exact SameHarts.ite h h

theorem SameHarts.countMiss (core cls line : Nat) (there : Bool) : s.SameHarts (s.countMiss core cls line there) :=
  SameHarts.ite rfl (SameHarts.ite rfl rfl)

theorem SameHarts.wroteCopy (core pa n : Nat) : s.SameHarts (s.wroteCopy core pa n) := by
  refine SameHarts.foldl (fun t l => ?_) _ s
  split
  · rfl
  · exact SameHarts.trans (t := { t.plainCopy (core / 32) l with cores := _ }) rfl (SameHarts.setPoison ..)

theorem SameHarts.leavePage (r : Nat) (asn : BitVec 16) (va : Nat) : s.SameHarts (s.leavePage r asn va) :=
  SameHarts.ite (.refl s) (SameHarts.ofStore (.leaveHolds ..))

/-! The fabric brings packets and answers. -/

theorem SameHarts.askHorizons (dst : Nat) (w : Waiter) : s.SameHarts (s.askHorizons dst w) :=
  SameHarts.foldl (fun t _ => SameHarts.trans (t := t.setClock dst _) rfl (SameHarts.countAgent ..)) _ s

theorem SameHarts.receive (dst : Nat) (p : Packet) : s.SameHarts (s.receive dst p) := by
  unfold State.receive
  dsimp only
  split_ifs
  · rfl
  · exact SameHarts.trans (t := { s with flight := _ }) rfl (SameHarts.countAgent ..)
  · rfl
  · rfl
  · split
    · exact SameHarts.countAgent ..
    · exact (SameHarts.trans (t := State.setClock { s with flight := _ } _ _) rfl (SameHarts.countAgent ..)).trans
        (SameHarts.askHorizons ..)

theorem SameHarts.answerBeat (j d : Nat) : s.SameHarts (s.answerBeat j d) :=
  (SameHarts.countAgent s ..).trans (SameHarts.ite rfl rfl)

theorem SameHarts.bring (d : Nat) : s.SameHarts (s.bring d) :=
  ((SameHarts.foldl (fun t (q : Nat × Packet) => SameHarts.receive t d q.2) _ s).trans
    (SameHarts.foldl (fun t j => SameHarts.answerBeat t j d) _ _)).trans (SameHarts.ofStore (.deliverOut ..))

theorem SameHarts.askHorizon (d j : Nat) : s.SameHarts (s.askHorizon d j) :=
  SameHarts.ite rfl (SameHarts.trans (t := s.setClock d _) rfl (SameHarts.countAgent ..))

end Harts

variable (s : State)

/-- A line found in the directory. -/
theorem touchLine_store (die : Nat) (asn : BitVec 16) (glob : Bool) (granule line : Nat) (w : Want) (q : Ask)
    (grant : BitVec 4) (need : List Nat) : (s.touchLine die asn glob granule line w q grant need).All s.SameStore := by
  have hmem := s.touchLine_mem die asn glob granule line w q grant need
  have hharts : (s.touchLine die asn glob granule line w q grant need).All s.SameHarts := by
    unfold touchLine
    split
    · exact .refl s
    · split
      · trivial
      · split
        · trivial
        · dsimp only
          split
          · trivial
          · have h1 : s.SameHarts ((if w.isMiss then s.countAgent die 0x20 0xFF else s).request die (hubOf (granule * 4096)) line asn) :=
              (SameHarts.ite (SameHarts.countAgent ..) (.refl s)).trans (SameHarts.request ..)
            split
            · trivial
            · refine SameHarts.trans ?_ (SameHarts.freeTag ..)
              refine SameHarts.trans (t := State.reply _ die (hubOf (granule * 4096)) line) ?_ (SameHarts.ite rfl rfl)
              refine (SameHarts.trans ?_ (SameHarts.useGot ..)).trans (SameHarts.reply ..)
              exact (h1.trans (SameHarts.ite (SameHarts.retag ..) (.refl _))).trans (SameHarts.moveDir ..)
  generalize s.touchLine die asn glob granule line w q grant need = r at hmem hharts
  cases r with
  | ok t => exact ⟨hharts, hmem⟩
  | held l => trivial
  | lost d => trivial

theorem touchLines_store (die : Nat) (asn : BitVec 16) (glob : Bool) (va pa n : Nat) (w : Want) (q : Ask) (grant : BitVec 4) :
    (s.touchLines die asn glob va pa n w q grant).All s.SameStore := by
  refine List.foldlRecOn _ _ (motive := Touch.All s.SameStore) (SameStore.refl s) fun r hr l _ => ?_
  cases r with
  | ok t =>
    have ht := t.touchLine_store die asn glob (granuleAt va pa l) l w q grant (if w.keeps then lineHalves l else halvesOf l pa n)
    dsimp only
    generalize t.touchLine die asn glob (granuleAt va pa l) l w q grant (if w.keeps then lineHalves l else halvesOf l pa n) = r at ht
    cases r with
    | ok u => exact SameStore.trans hr ht
    | held l => trivial
    | lost d => trivial
  | held l => trivial
  | lost d => trivial

end State
end Sys2Proof.Machine

namespace Sys2Proof.Machine

/-! Memory in one access (R257): what a load, a store or an atomic does to it. -/

/-- The state of an access that passes satisfies p; so for a read of a view block and a record found. -/
def Eff.All (p : State → Prop) : Eff → Prop
  | .ok s _ _ => p s
  | _ => True
def ViewEnd.All (p : State → Prop) : ViewEnd → Prop
  | .serve s _ => p s
  | _ => True
def Confirm.All (p : State → Prop) : Confirm → Prop
  | .ok s => p s
  | .wait _ => True
def Record.All (p : State → Prop) : Record → Prop
  | .ok s _ => p s
  | _ => True

section
variable {p q : State → Prop}

theorem Touch.All.ok {r : Touch} (h : r.All p) {s : State} (e : r = .ok s) : p s := by subst e; exact h
theorem Eff.All.ok {r : Eff} (h : r.All p) {s : State} {v : Nat} {f : BitVec 8} (e : r = .ok s v f) : p s := by subst e; exact h
theorem ViewEnd.All.serve {r : ViewEnd} (h : r.All p) {s : State} {vs : Bool} (e : r = .serve s vs) : p s := by subst e; exact h
theorem Confirm.All.ok {r : Confirm} (h : r.All p) {s : State} (e : r = .ok s) : p s := by subst e; exact h
theorem Record.All.ok {r : Record} (h : r.All p) {s : State} {x : Nat} (e : r = .ok s x) : p s := by subst e; exact h

theorem Touch.All.imp {r : Touch} (h : r.All p) (hpq : ∀ s, p s → q s) : r.All q := by
  cases r with
  | ok s => exact hpq s h
  | held l => trivial
  | lost d => trivial

theorem Eff.All.imp {r : Eff} (h : r.All p) (hpq : ∀ s, p s → q s) : r.All q := by
  cases r with
  | ok s v f => exact hpq s h
  | _ => trivial

theorem Touch.All.bind {t : Touch} (h : t.All p) {w : Who} {a : Word} {store : Bool} {go : State → Eff}
    (hgo : ∀ u, p u → (go u).All q) : (t.bind w a store go).All q := by
  cases t with
  | ok u => exact hgo u h
  | held l => trivial
  | lost d => trivial

end

namespace State

section Same
variable (s : State)

@[simp] theorem setFlagVS_mem (h : Nat) : (s.setFlagVS h).mem = s.mem := rfl
@[simp] theorem holdRead_mem (h : Nat) (r : Hold) : (s.holdRead h r).mem = s.mem := by
  cases r with
  | view r => rfl
  | queue k => exact queueUp_mem ..
  | other => rfl
@[simp] theorem sendHomes_mem (hub : Nat) (asn : BitVec 16) (lines : List Nat) : (s.sendHomes hub asn lines).mem = s.mem := by
  simp [sendHomes]

theorem viewArrive_store (h reg b : Nat) : (s.viewArrive h reg b).All s.SameStore := by
  unfold viewArrive
  extract_lets x mine policy done
  have hdone (vs : Bool) : (done vs).All s.SameStore := by
    simp only [done]
    split
    · trivial
    · exact .refl s
  clear_value policy
  split
  · next e he =>
    obtain ⟨r, -, he⟩ := Option.bind_eq_some_iff.1 he
    obtain ⟨g, -, rfl⟩ := Option.map_eq_some_iff.1 he
    split <;> trivial
  · split
    · exact hdone false
    · split
      · trivial
      · exact hdone true
      · trivial

theorem SameStore.fillCopy (core cls : Nat) (miss : Bool) (fwd : Option Bool) (line : Nat) :
    s.SameStore (s.fillCopy core cls miss fwd line) := ⟨SameHarts.fillCopy .., fillCopy_mem ..⟩
theorem SameStore.countMiss (core cls line : Nat) (there : Bool) : s.SameStore (s.countMiss core cls line there) :=
  ⟨SameHarts.countMiss .., countMiss_mem ..⟩

theorem accessLines_store (w : Who) (acc : Access) (pte : Word) (a pa n : Nat) (want : Want) :
    (s.accessLines w acc pte a pa n want).All s.SameStore := by
  unfold accessLines
  extract_lets lines hit s0
  have hmiss : s.SameStore s0 := by
    simp only [s0]
    split
    · exact SameStore.foldl (fun t l => SameStore.countMiss t ..) _ s
    · exact .refl s
  split
  · trivial
  · generalize hr : s0.touchLines _ _ _ _ _ _ _ _ _ = r
    have hall : r.All s0.SameStore := hr ▸ s0.touchLines_store ..
    cases r with
    | ok t =>
      exact ((hmiss.trans hall).trans (.leaveHolds ..)).trans (SameStore.foldl (fun t l => SameStore.fillCopy t ..) _ _)
    | held l => trivial
    | lost d => trivial

theorem accessLines_mem (w : Who) (acc : Access) (pte : Word) (a pa n : Nat) (want : Want) :
    (s.accessLines w acc pte a pa n want).All fun t => t.mem = s.mem :=
  (s.accessLines_store ..).imp fun _ ht => ht.mem

theorem leaveDie_store (w : Who) (a : Nat) : (s.leaveDie w a).All s.SameStore := by
  unfold leaveDie
  split
  · trivial
  · split
    · trivial
    · exact .exchange ..

theorem leaveDie_mem (w : Who) (a : Nat) : (s.leaveDie w a).All fun t => t.mem = s.mem :=
  (s.leaveDie_store ..).imp fun _ ht => ht.mem

theorem SameStore.askHorizon (d j : Nat) : s.SameStore (s.askHorizon d j) := ⟨SameHarts.askHorizon .., askHorizon_mem ..⟩
theorem SameStore.bring (d : Nat) : s.SameStore (s.bring d) := ⟨SameHarts.bring .., bring_mem ..⟩

theorem watch_store (v m : Nat) (front : Table (BitVec 32)) : ∀ t ∈ s.watch v m front, s.SameStore t := by
  unfold watch
  extract_lets known below late s1 last k
  have h1 : s.SameStore s1 :=
    ((SameStore.foldl (fun t j => SameStore.askHorizon t ..) _ s).trans (.bring ..)).trans (.bring ..)
  split
  · exact forall_mem_some (.refl s)
  · split
    · nofun
    · split
      · nofun
      · exact forall_mem_some (h1.trans ⟨modHub_harts .., modHub_mem ..⟩)

theorem watch_mem (v m : Nat) (front : Table (BitVec 32)) : ∀ t ∈ s.watch v m front, t.mem = s.mem :=
  fun t ht => (s.watch_store v m front t ht).mem

theorem confirmRead_store (agent reg b : Nat) : (s.confirmRead agent reg b).All s.SameStore := by
  unfold confirmRead
  split
  · exact .refl s
  · next r _ =>
    split
    · next t e =>
      have hall : ∀ u ∈ (r.masterHomes b).foldl (fun (o : Option State) m =>
          o.bind fun t => t.watch (r.home b) m (t.readFrontier (r.home b) agent)) (some s), s.SameStore u := by
        refine List.foldlRecOn _ _ (motive := fun o : Option State => ∀ u ∈ o, s.SameStore u) (by rintro u ⟨⟩; exact .refl s) ?_
        intro o ho m _ u hu
        obtain ⟨t, ht, hu⟩ := Option.bind_eq_some_iff.1 hu
        exact (ho t ht).trans (watch_store _ _ _ _ u hu)
      exact hall t e
    · trivial

theorem confirmRead_mem (agent reg b : Nat) : (s.confirmRead agent reg b).All fun t => t.mem = s.mem := by
  have h := s.confirmRead_store agent reg b
  cases hr : s.confirmRead agent reg b with
  | ok t => exact (h.ok hr).mem
  | wait k => trivial

theorem confirmAll_mem (agent : Nat) (l : List (Nat × Nat)) : ∀ t, s.confirmAll agent l = .ok t → t.mem = s.mem := by
  induction l generalizing s with
  | nil => rintro t ⟨⟩; rfl
  | cons p l ih =>
    intro t ht
    rw [confirmAll] at ht
    split at ht
    · next u e => rw [ih u t ht, (s.confirmRead_mem ..).ok e]
    · cases ht

theorem confirmLine_mem (agent : Nat) (pte : Word) (line : Nat) : ∀ t, s.confirmLine agent pte line = .ok t → t.mem = s.mem := by
  unfold confirmLine
  split
  · exact confirmAll_mem s agent _
  · rintro t ⟨⟩; rfl

theorem deliverRead_mem : ∀ t ∈ s.deliverRead, t.mem = s.mem := by
  unfold deliverRead
  intro t ht
  obtain ⟨p, -, ht⟩ := List.exists_of_findSome?_eq_some ht
  obtain ⟨w, -, ht⟩ := List.exists_of_findSome?_eq_some ht
  obtain ⟨r, -, ht⟩ := Option.bind_eq_some_iff.1 ht
  split at ht
  · cases ht
  · next u e =>
    have hu := (s.confirmRead_mem ..).ok e
    obtain rfl := Option.some.inj ht
    simp [apply_ite State.mem, hu]

@[simp] theorem derivStart_mem (hub : Nat) : (s.derivStart hub).mem = s.mem := by
  unfold derivStart
  dsimp only
  split
  · split
    · rfl
    · split
      · rfl
      · split
        · simp
        · simp [leaveCurator]
  · rfl

theorem pickSnap_mem (old : Option (List Byte)) (new : List Byte) : (s.pickSnap old new).2.mem = s.mem := by
  unfold pickSnap
  cases old with
  | none => rfl
  | some o =>
    dsimp only
    split <;> rfl

@[simp] theorem drawPick_mem : s.drawPick.2.mem = s.mem := by
  unfold drawPick
  split <;> rfl

theorem readRecord_mem (h : Nat) (asn : BitVec 16) (va n : Nat) (old : Bool) :
    (s.readRecord h asn va n old).All fun t => t.mem = s.mem := by
  unfold readRecord
  split
  · trivial
  · trivial
  · dsimp only
    split
    · trivial
    · split
      · trivial
      · split
        · trivial
        · trivial
        · simp [Record.All]

theorem consume_store (w : Who) (a : Word) (pa n : Nat) (rows : List (Nat × List Byte)) : (s.consume w a pa n rows).All s.SameStore := by
  unfold consume
  dsimp only
  split
  · split
    · trivial
    · exact .refl s
  · split
    · trivial
    · exact .refl s

theorem laneLoad_store (w : Who) (core : Nat) (a : Word) (n : Nat) : (s.laneLoad w core a n).All s.SameStore := by
  unfold laneLoad
  split
  · trivial
  · split
    · trivial
    · exact .refl s

theorem laneLoad_mem (w : Who) (core : Nat) (a : Word) (n : Nat) : (s.laneLoad w core a n).All fun t => t.mem = s.mem :=
  (s.laneLoad_store ..).imp fun _ ht => ht.mem

end Same

section Load
variable {p : State → Prop} (hp : ∀ t u : State, t.SameStore u → p t → p u)
include hp

/-- A load from a VC page keeps what its service, and the flag VS, keep. -/
theorem viewLoad_all {go : State → Bool → List (Nat × List Byte) → Eff} (hgo : ∀ t c r, p t → (go t c r).All p) (w : Who)
    (hvs : ∀ t : State, p t → p (t.setFlagVS w.h)) (a : Word) (l : List (Nat × Nat)) (s : State) (hs : p s) (cached : Bool)
    (rows : List (Nat × List Byte)) : (s.viewLoad w a go l cached rows).All p := by
  induction l generalizing s cached rows with
  | nil => exact hgo _ _ _ hs
  | cons b l ih =>
    obtain ⟨reg, b⟩ := b
    rw [viewLoad]
    split
    · trivial
    · next s0 e =>
      have h0 : s.SameStore s0 := by
        split at e
        · cases e; exact .refl s
        · exact (s.confirmRead_store ..).ok e
      have h1 : p (s0.unread w.h) := hp s _ (h0.trans (.unread ..)) hs
      dsimp only
      split
      · next t vs e =>
        have ht : p t := hp _ t ((State.viewArrive_store _ ..).serve e) h1
        refine ih _ ?_ ..
        split
        · exact hvs t ht
        · exact ht
      · exact ih _ h1 ..
      · trivial
      · trivial
      · trivial

/-- A load keeps what its translation, and the flag VS, keep. -/
theorem loadEl_all {s : State} (hs : p s) (w : Who) (hvs : ∀ t : State, p t → p (t.setFlagVS w.h))
    (formatted : Bool) (a : Word) (n : Nat) (hpage : w.lm = false → (s.hitOrPage w .load a.toNat).All p) :
    (s.loadEl w formatted a n).All p := by
  have same {t : State} (ht : p t) {r : Eff} (h : r.All t.SameStore) : r.All p := h.imp fun u hu => hp t u hu ht
  unfold loadEl
  split
  · exact same hs (laneLoad_store ..)
  · next hlm =>
    split
    · trivial
    · split
      · trivial
      · trivial
      · trivial
      · next s1 pa pte e =>
        have h1 : p s1 := (hpage (by simpa using hlm)).ok e
        split
        · split
          · split
            · trivial
            · exact same h1 ((leaveDie_store ..).bind fun u hu => hu)
          · trivial
        · dsimp only
          split
          · exact same h1 ((accessLines_store ..).bind fun u hu => (consume_store ..).imp fun t ht => hu.trans ht)
          · exact same h1 ((leaveDie_store ..).bind (q := s1.SameStore) fun u hu => trivial)
        · extract_lets body there
          have hbody (t : State) (c : Bool) (rows : List (Nat × List Byte)) (ht : p t) : (body t c rows).All p :=
            same ht ((accessLines_store ..).bind fun u hu => (consume_store ..).imp fun t ht => hu.trans ht)
          split
          · exact viewLoad_all hp (fun t c r ht => hbody _ _ _ ht) _ hvs _ _ _ h1 ..
          · exact hbody _ _ _ h1

end Load

section Wf
variable {s : State} (h : Memory.wf s.mem)
include h

theorem accessPage_wf (w : Who) (acc : Access) (a : Nat) : (s.accessPage w acc a).All fun t => Memory.wf t.mem := by
  unfold accessPage
  split
  · exact translate_wf h ..
  · split
    · trivial
    · split
      · next e =>
        have ht := (translate_wf h ..).ok e
        simp [Trans.All, ht]
      · next r hr =>
        cases hx : s.translate w.asn w.sup acc a with
        | ok t pa pte => exact absurd hx (hr t pa pte)
        | _ => trivial

theorem hitOrPage_wf (w : Who) (acc : Access) (a : Nat) : (s.hitOrPage w acc a).All fun t => Memory.wf t.mem := by
  unfold hitOrPage
  split
  · split
    · exact h
    · exact accessPage_wf h ..
  · exact accessPage_wf h ..

theorem laneStore_wf (w : Who) (core : Nat) (a : Word) (n v : Nat) : (s.laneStore w core a n v).All fun t => Memory.wf t.mem := by
  unfold laneStore
  split
  · trivial
  · exact memPut_wf _ _ h

theorem loadEl_wf (w : Who) (formatted : Bool) (a : Word) (n : Nat) : (s.loadEl w formatted a n).All fun t => Memory.wf t.mem :=
  loadEl_all (fun t u e ht => by rwa [e.mem]) h w (fun t ht => ht) formatted a n fun _ => hitOrPage_wf h ..

theorem postStore_wf (w : Who) (a : Word) (pa n : Nat) {eff : State → Eff}
    (heff : ∀ t : State, Memory.wf t.mem → (eff t).All fun u => Memory.wf u.mem) :
    (s.postStore w a pa n eff).All fun t => Memory.wf t.mem := by
  unfold postStore
  split
  · trivial
  · refine (leaveDie_mem ..).bind fun t ht => ?_
    rw [← ht] at h
    extract_lets sent
    have hsent (u : State) (f : BitVec 8) (hu : Memory.wf u.mem) : (sent u f).All fun t => Memory.wf t.mem := hu
    split
    · exact hsent _ _ h
    · split
      · trivial
      · split
        · next e =>
          have hu := (heff _ (by rwa [leaveHolds_mem])).ok e
          exact hsent _ _ (by simp [memPut_wf, hu])
        · next r hr =>
          cases hx : eff (t.leaveHolds w.h (spanLines pa n)) with
          | ok u v f => exact absurd hx (hr u v f)
          | _ => trivial

theorem storeEl_wf (w : Who) (a : Word) (n v : Nat) : (s.storeEl w a n v).All fun t => Memory.wf t.mem := by
  unfold storeEl
  split
  · exact laneStore_wf h ..
  · split
    · trivial
    · split
      · trivial
      · trivial
      · trivial
      · next s1 pa pte e =>
        have h1 := (hitOrPage_wf h ..).ok e
        split
        · split
          · split
            · trivial
            · refine (leaveDie_mem ..).bind fun u hu => ?_
              rw [← hu] at h1
              exact cfgWrite_wf h1 ..
          · trivial
        · exact postStore_wf h1 w a pa n fun t ht => ht
        · split
          · refine (accessLines_mem ..).bind fun u hu => ?_
            rw [← hu] at h1
            simp [Eff.All, memPut_wf, h1]
          · trivial

theorem laneAtomic_wf (w : Who) (core : Nat) (a : Word) (n : Nat) (f : Nat → Option Nat × BitVec 8) :
    (s.laneAtomic w core a n f).All fun t => Memory.wf t.mem := by
  unfold laneAtomic
  split
  · trivial
  · split
    · trivial
    · dsimp only [Eff.All]
      split
      · exact memPut_wf _ _ h
      · exact h

theorem atomicEl_wf (w : Who) (a : Word) (n : Nat) (post : Bool) (f : Nat → Option Nat × BitVec 8) :
    (s.atomicEl w a n post f).All fun t => Memory.wf t.mem := by
  unfold atomicEl
  split
  · exact laneAtomic_wf h ..
  · split
    · trivial
    · split
      · trivial
      · trivial
      · trivial
      · next s1 pa pte e =>
        have h1 := (accessPage_wf h ..).ok e
        extract_lets sp poison put act
        split
        · trivial
        · have hact (want : State → Bool) : (act want).All fun t => Memory.wf t.mem := by
            refine (accessLines_mem ..).bind fun u hu => ?_
            rw [← hu] at h1
            split
            · dsimp only [Eff.All, put]
              split
              · exact homeWrite_wf h1 ..
              · exact h1
            · trivial
          split
          · split
            · refine postStore_wf h1 w a pa n fun t ht => ?_
              split
              · trivial
              · exact ht
            · split
              · exact (leaveDie_mem ..).bind (q := fun u => Memory.wf u.mem) fun u hu => trivial
              · exact hact _
          · split
            · trivial
            · exact hact _

theorem readBlock_wf (w : Who) (a : Word) : (s.readBlock w a).All fun t => Memory.wf t.mem := by
  unfold readBlock
  split
  · next t v f e =>
    have ht := (loadEl_wf h ..).ok e
    dsimp only [Eff.All]
    rwa [pickSnap_mem]
  · next hr =>
    cases hx : s.loadEl w false a 128 with
    | ok t v f => exact absurd hx (hr t v f)
    | _ => trivial

end Wf
end State
end Sys2Proof.Machine

namespace Sys2Proof.Machine

/-! Memory in the elements of vector accesses (R237 to R258). -/

/-- The states of a performance, of the elements of a group, of groups and of a block's page and record satisfy p. -/
def PRes.All (p : State → Prop) : PRes → Prop
  | .done s _ _ => p s
  | .fault s _ _ _ _ => p s
  | .part s _ _ => p s
  | .held s _ => p s
  | .wait s => p s
  | .stop _ => True
def GroupEnd.All (p : State → Prop) : GroupEnd → Prop
  | .ok s _ _ => p s
  | _ => True
def BatchEnd.All (p : State → Prop) : BatchEnd → Prop
  | .ok b => p b.s
  | _ => True
def BlockInfo.All (p : State → Prop) : BlockInfo → Prop
  | .ok s _ _ _ => p s
  | _ => True

section
variable {p : State → Prop}

theorem BlockInfo.All.ok {r : BlockInfo} (h : r.All p) {s : State} {x : FRec} {m n : Nat} (e : r = .ok s x m n) : p s := by
  subst e; exact h
theorem GroupEnd.All.ok {r : GroupEnd} (h : r.All p) {s : State} {v : Table Nat} {f : BitVec 8} (e : r = .ok s v f) : p s := by
  subst e; exact h
theorem BatchEnd.All.ok {r : BatchEnd} (h : r.All p) {b : Batch} (e : r = .ok b) : p b.s := by subst e; exact h
theorem PRes.All.done {r : PRes} (h : r.All p) {s : State} {f : BitVec 8} {v : Option Word} (e : r = .done s f v) : p s := by
  subst e; exact h
theorem PRes.All.fault {r : PRes} (h : r.All p) {s : State} {f : BitVec 8} {t : Trap} {part : Bool} {l : List FaultPage}
    (e : r = .fault s f t part l) : p s := by
  subst e; exact h

/-- An access that another one follows passes what its own states satisfy on to it. -/
theorem Eff.All.of_not_ok {r : Eff} (h : ∀ s v f, r ≠ .ok s v f) : r.All p := by
  cases r with
  | ok s v f => exact absurd rfl (h s v f)
  | _ => trivial

theorem runElems_all {f : State → Nat → Eff} (hf : ∀ s i, p s → (f s i).All p) (l : List Nat) {s : State} (hs : p s)
    (vals : Table Nat) (fl : BitVec 8) : (runElems f l s vals fl).All p := by
  induction l generalizing s vals fl with
  | nil => exact hs
  | cons i l ih =>
    rw [runElems]
    split
    · next e => exact ih ((hf s i hs).ok e) ..
    all_goals trivial

theorem runGroups_all {f : State → Nat → Eff} (hf : ∀ s i, p s → (f s i).All p) (gs : List (Nat × List Nat)) {b : Batch}
    (hb : p b.s) : (runGroups f gs b).All p := by
  induction gs generalizing b with
  | nil => exact hb
  | cons g gs ih =>
    rw [runGroups]
    split
    · next e => exact ih ((runElems_all hf _ hb ..).ok e)
    · exact ih hb
    all_goals trivial

theorem BatchEnd.All.stored {r : BatchEnd} (h : r.All p) {f : Batch → Eff} (hf : ∀ b, p b.s → (f b).All p) : (r.stored f).All p := by
  unfold BatchEnd.stored
  split
  · next b =>
    split
    · next e => exact (hf b h).ok e
    · exact h
    all_goals trivial
  · exact h

end

/-- The end of groups keeps of memory what the groups keep. -/
theorem finishBatch_all {p : State → Prop} (hp : ∀ t u : State, u.mem = t.mem → p t → p u) {s : State} (hs : p s) {r : BatchEnd}
    (hr : r.All p) (h : Nat) (f : State → Nat → Eff) (due : List Nat) (put : Hart → Table Nat → Hart) (store : Bool) :
    (finishBatch s h f due r put store).All p := by
  unfold finishBatch
  split
  · exact hp s _ (State.holdRead_mem ..) hs
  · trivial
  · next b =>
    dsimp only
    split
    · exact hp b.s _ rfl hr
    · exact hp b.s _ rfl hr

namespace State
variable (s : State)

@[simp] theorem cleanPoison_mem (core : Nat) (spans : List (Nat × Nat)) : (s.cleanPoison core spans).mem = s.mem := by
  simp [cleanPoison, apply_ite State.mem]
@[simp] theorem storesDone_mem (w : Who) (n : Nat) (l : List Word) : (s.storesDone w n l).mem = s.mem := by
  simp [storesDone, apply_ite State.mem]
@[simp] theorem curatorsBetween_mem : s.curatorsBetween.mem = s.mem := by
  have hfold (t : State) (w : Word) :
      ((List.range 8).foldl (fun t hub => if w.getLsbD hub then t.derivStart hub else t) t).mem = t.mem := by
    simp [apply_ite State.mem]
  simp only [curatorsBetween, apply_ite State.mem, hfold, takeFree_mem, ite_self]
theorem takeRecord_mem (w : Who) (x0 : Word) (n : Nat) : (s.takeRecord w x0 n).All fun t => t.mem = s.mem := by
  unfold takeRecord
  split
  · rfl
  · exact readRecord_mem ..

end State

section Wf
variable {s : State} (hs : Memory.wf s.mem)
include hs

theorem HRes.lift_wf (r : HRes) (h : Nat) : (r.lift s h).All fun t => Memory.wf t.mem := by
  cases r <;> exact hs

theorem State.heldAt_wf (h : Nat) (r : Hold) : (s.heldAt h r).All fun t => Memory.wf t.mem := by
  simp [heldAt, PRes.All, hs]

theorem finishBatch_wf {r : BatchEnd} (hr : r.All fun t => Memory.wf t.mem) (h : Nat) (f : State → Nat → Eff) (due : List Nat)
    (put : Hart → Table Nat → Hart) (store : Bool) : (finishBatch s h f due r put store).All fun t => Memory.wf t.mem :=
  finishBatch_all (fun t u e ht => by rwa [e]) hs hr h f due put store

theorem denseMem_wf (h : Nat) (e : QEntry) (o : Fields) (store bad : Bool) (addr : Nat → Word) :
    (denseMem s h e o store bad addr).All fun t => Memory.wf t.mem := by
  unfold denseMem
  extract_lets x n w active el due g r
  split
  · exact hs
  · split
    · exact hs
    · refine finishBatch_wf hs ((runGroups_all (fun t i ht => ?_) _ hs).stored fun b hb => ?_) ..
      · simp only [el]
        split
        · exact State.storeEl_wf ht ..
        · exact State.loadEl_wf ht ..
      · dsimp only [Eff.All]
        split
        · rwa [State.storesDone_mem]
        · exact hb

theorem storeRuns_wf (w : Who) (n : Nat) (addr : Nat → Word) (val : Nat → Nat) (l : List (List Nat)) :
    (storeRuns w n addr val l s).All fun t => Memory.wf t.mem := by
  induction l generalizing s with
  | nil => exact hs
  | cons q l ih =>
    rw [storeRuns]
    split
    · next t v f e =>
      have ht := (State.storeEl_wf hs ..).ok e
      refine ih ?_
      split
      · exact ht
      · rwa [State.curatorsBetween_mem]
    · next hne => exact .of_not_ok hne

theorem memVst_wf (e : QEntry) (o : Fields) (h : Nat) : (memVst e o h s).All fun t => Memory.wf t.mem := by
  unfold memVst
  extract_lets bad x n w addr val el due g r
  split
  · exact denseMem_wf hs ..
  · refine finishBatch_wf hs ((runGroups_all (fun t i ht => State.storeEl_wf ht ..) _ (by exact hs)).stored fun b hb => ?_) ..
    split
    · next he =>
      have ht := (storeRuns_wf hs ..).ok he
      simp [Eff.All, ht]
    · trivial
    · next hne _ => exact .of_not_ok hne

theorem peerMem_wf (e : QEntry) (o : Fields) (h : Nat) (store : Bool) : (peerMem e o h s store).All fun t => Memory.wf t.mem := by
  unfold peerMem
  extract_lets x n w0 w el due g r
  refine finishBatch_wf hs ((runGroups_all (fun t i ht => ?_) _ hs).stored fun b hb => ?_) ..
  · simp only [el]
    split
    · exact State.laneStore_wf ht ..
    · exact (State.laneLoad_mem ..).imp fun u hu => by rwa [hu]
  · dsimp only [Eff.All]
    split
    · rwa [State.cleanPoison_mem]
    · exact hb

theorem vamoEl_wf (e : QEntry) (o : Fields) (x : Hart) (w : Who) (i : Nat) : (vamoEl e o x w s i).All fun t => Memory.wf t.mem := by
  unfold vamoEl
  dsimp only
  split
  · exact State.laneAtomic_wf hs ..
  · exact State.atomicEl_wf hs ..

theorem memVamo_wf (e : QEntry) (o : Fields) (h : Nat) : (memVamo e o h s).All fun t => Memory.wf t.mem := by
  unfold memVamo
  dsimp only
  split
  · exact hs
  · split
    · exact hs
    · exact finishBatch_wf hs (runGroups_all (fun t i ht => vamoEl_wf ht ..) _ hs) ..

theorem blockInfo_wf (w : Who) (store : Bool) (wc : Nat) (x0 : Word) : (blockInfo s w store wc x0).All fun t => Memory.wf t.mem := by
  unfold blockInfo
  dsimp only
  split
  · trivial
  · split
    · trivial
    · trivial
    · trivial
    · next s1 _ pte e =>
      have h1 := (State.translate_wf hs ..).ok e
      split
      · trivial
      · split
        · trivial
        · trivial
        · trivial
        · next e2 =>
          have h2 := (State.takeRecord_mem ..).ok e2
          rw [← h2] at h1
          split
          · exact h1
          · trivial

theorem snapRecords_wf (w : Who) (store : Bool) (l : List Word) : Memory.wf (snapRecords w store l s).1.mem := by
  induction l with
  | nil => exact hs
  | cons x0 l ih =>
    rw [snapRecords]
    dsimp only
    split
    · exact ih
    · split
      · split
        · next e => rwa [(State.takeRecord_mem ..).ok e]
        · exact ih
      · exact ih

theorem vldfCode_wf (w : Who) (wc b i : Nat) : (vldfCode w wc b s i).All fun t => Memory.wf t.mem := by
  unfold vldfCode
  dsimp only
  split
  · trivial
  · trivial
  · next e =>
    have h1 := (blockInfo_wf hs ..).ok e
    split
    · trivial
    · split
      · next e2 =>
        have h2 := (State.loadEl_wf h1 ..).ok e2
        split
        · trivial
        · exact State.loadEl_wf h2 ..
      · next hne => exact .of_not_ok hne

theorem memVldf_wf (e : QEntry) (o : Fields) (h : Nat) : (memVldf e o h s).All fun t => Memory.wf t.mem := by
  unfold memVldf
  extract_lets x wc b due w0 p s1 w el sb
  have h1 : Memory.wf s1.mem := snapRecords_wf (by rwa [State.drawPick_mem]) ..
  split
  · exact h1
  · have hall := runGroups_all (p := fun t => Memory.wf t.mem) (b := { s := s1 }) (f := el) (fun t i ht => vldfCode_wf ht ..)
      (groupsOf (groupSize e.vt) due) h1
    split
    · exact State.heldAt_wf h1 ..
    · trivial
    · next bt hbt =>
      have hb : Memory.wf bt.s.mem := hall.ok hbt
      extract_lets blocks
      split
      · exact hb
      · exact finishBatch_wf h1 (r := .ok bt) hb ..

theorem vstfScale_wf (e : QEntry) (o : Fields) (x : Hart) (w : Who) (j : Nat) : (vstfScale e o x w s j).All fun t => Memory.wf t.mem := by
  unfold vstfScale
  dsimp only
  split
  · next he => exact State.storeEl_wf ((blockInfo_wf hs ..).ok he) ..
  · trivial
  · trivial

theorem vstfCode_wf (e : QEntry) (o : Fields) (x : Hart) (w : Who) (i : Nat) : (vstfCode e o x w s i).All fun t => Memory.wf t.mem := by
  unfold vstfCode
  dsimp only
  split
  · trivial
  · trivial
  · next he =>
    have h1 := (blockInfo_wf hs ..).ok he
    split
    · trivial
    · split
      · split
        · trivial
        · split
          · next e3 => exact (State.storeEl_wf h1 ..).ok e3
          · next hne => exact .of_not_ok hne
      · next hne => exact .of_not_ok hne

theorem vstfScales_wf (e : QEntry) (o : Fields) (x : Hart) (w : Who) (l : List Nat) :
    (vstfScales e o x w l s).All fun t => Memory.wf t.mem := by
  induction l generalizing s with
  | nil => exact hs
  | cons j l ih =>
    rw [vstfScales]
    split
    · next he => exact ih ((vstfScale_wf hs ..).ok he)
    · next hne => exact .of_not_ok hne

theorem memVstf_wf (e : QEntry) (o : Fields) (h : Nat) : (memVstf e o h s).All fun t => Memory.wf t.mem := by
  unfold memVstf
  extract_lets x b due w0 p s1 w el g r
  have h1 : Memory.wf s1.mem := snapRecords_wf (by rwa [State.drawPick_mem]) ..
  split
  · exact h1
  · refine finishBatch_wf h1 ((runGroups_all (fun t i ht => vstfCode_wf ht ..) _ h1).stored fun bt hb => ?_) ..
    dsimp only
    split
    · next he =>
      have ht := (vstfScales_wf hb ..).ok he
      simp [Eff.All, ht]
    · next hne => exact .of_not_ok hne

theorem memFld_wf (e : QEntry) (o : Fields) (h : Nat) : (memFld e o h s).All fun t => Memory.wf t.mem := by
  unfold memFld
  extract_lets x w n el due put
  have hall : (finishBatch s h el due (runGroups el (groupsOf 1 due) { s := s }) put).All fun t => Memory.wf t.mem :=
    finishBatch_wf hs (runGroups_all (fun t i ht => State.loadEl_wf ht ..) _ hs) ..
  split
  · exact hs
  · split
    · next he =>
      have h1 := hall.done he
      dsimp only
      split <;> exact h1
    · next he =>
      have h1 := hall.fault he
      exact h1
    · exact hall

theorem memFst_wf (e : QEntry) (o : Fields) (h : Nat) : (memFst e o h s).All fun t => Memory.wf t.mem := by
  unfold memFst
  extract_lets x w fb el due r
  split
  · exact hs
  · refine finishBatch_wf hs ((runGroups_all (fun t i ht => State.storeEl_wf ht ..) _ hs).stored fun b hb => ?_) ..
    simp [Eff.All, hb]

theorem State.loadSplit_wf (w : Who) (a : Word) (n : Nat) : (s.loadSplit w a n).All fun t => Memory.wf t.mem := by
  unfold State.loadSplit
  dsimp only
  split
  · exact State.loadEl_wf hs ..
  · split
    · next e =>
      have h1 := (State.loadEl_wf hs ..).ok e
      split
      · next e2 => exact (State.loadEl_wf h1 ..).ok e2
      · next hne => exact .of_not_ok hne
    · next hne => exact .of_not_ok hne

theorem State.storeSplit_wf (w : Who) (a : Word) (n v : Nat) : (s.storeSplit w a n v).All fun t => Memory.wf t.mem := by
  unfold State.storeSplit
  dsimp only
  split
  · exact State.storeEl_wf hs ..
  · split
    · next e =>
      have h1 := (State.storeEl_wf hs ..).ok e
      split
      · next e2 => exact (State.storeEl_wf h1 ..).ok e2
      · next hne => exact .of_not_ok hne
    · next hne => exact .of_not_ok hne

theorem walkLoad_wf (h : Nat) (o : Fields) (prv : Bool) (base : Word) (k n : Nat) :
    (walkLoad s h o prv base k n).All fun t => Memory.wf t.mem := State.loadSplit_wf hs ..

theorem fwalkHeld_wf (h d t : Nat) (r : Hold) : (fwalkHeld s h d t r).All fun t => Memory.wf t.mem := by
  simp [fwalkHeld, PRes.All, hs]

theorem fwalkSteps_wf (e : QEntry) (o : Fields) (h lo n fuel t : Nat) (limit : Option Nat) :
    (fwalkSteps e o h lo n fuel t limit s).All fun t => Memory.wf t.mem := by
  induction fuel generalizing s t limit with
  | zero => exact hs
  | succ fuel ih =>
    rw [fwalkSteps]
    dsimp only
    split
    · exact hs
    · split
      · exact hs
      · split
        · exact hs
        · exact fwalkHeld_wf hs ..
        · trivial
        · next e1 =>
          have h1 := (walkLoad_wf hs ..).ok e1
          split
          · exact hs
          · exact fwalkHeld_wf hs ..
          · trivial
          · next e2 =>
            have h2 := (walkLoad_wf h1 ..).ok e2
            split
            · exact ih (by exact h2) ..
            · exact hs
            · exact hs

omit hs in
theorem PRes.All.keepSeg {r : PRes} (hr : r.All fun t => Memory.wf t.mem) (h : Nat) (seg : Nat × Nat) :
    (r.keepSeg h seg).All fun t => Memory.wf t.mem := by
  cases r <;> exact hr

theorem memFwalk_wf (limit : Option Nat) (e : QEntry) (o : Fields) (h : Nat) :
    (memFwalk limit e o h s).All fun t => Memory.wf t.mem := by
  unfold memFwalk
  extract_lets x d resumed x0 x1 s0 t fail
  have h0 : Memory.wf s0.mem := hs
  clear_value s0
  split
  · exact (fwalkSteps_wf h0 ..).keepSeg ..
  · split
    · exact h0
    · exact State.heldAt_wf hs ..
    · trivial
    · next e1 =>
      have h1 := (walkLoad_wf h0 ..).ok e1
      split
      · exact h0
      · exact State.heldAt_wf hs ..
      · trivial
      · next e2 => exact (fwalkSteps_wf ((walkLoad_wf h1 ..).ok e2) ..).keepSeg ..

end Wf
end Sys2Proof.Machine

namespace Sys2Proof.Machine

/-! Memory in coordinate volumes (R364 to R371). -/

/-- The states of a lookup, of a pop, of an element's address and of those of a group satisfy p. -/
def Look.All (p : State → Prop) : Look → Prop
  | .present s _ => p s
  | .absent s _ _ => p s
  | _ => True
def Pop.All (p : State → Prop) : Pop → Prop
  | .ok s _ => p s
  | .empty s => p s
  | _ => True
def Resolve.All (p : State → Prop) : Resolve → Prop
  | .at_ s _ _ => p s
  | .fail s _ _ => p s
  | _ => True
def GroupAddr.All (p : State → Prop) : GroupAddr → Prop
  | .ok s _ _ => p s
  | .fail s _ _ _ _ => p s
  | _ => True

section
variable {p : State → Prop}

theorem Look.All.present {r : Look} (h : r.All p) {s : State} {a : Word} (e : r = .present s a) : p s := by subst e; exact h
theorem Look.All.absent {r : Look} (h : r.All p) {s : State} {n : Nat} {a : Word} (e : r = .absent s n a) : p s := by subst e; exact h
theorem Pop.All.ok {r : Pop} (h : r.All p) {s : State} {a : Word} (e : r = .ok s a) : p s := by subst e; exact h
theorem Pop.All.empty {r : Pop} (h : r.All p) {s : State} (e : r = .empty s) : p s := by subst e; exact h
theorem Resolve.All.at_ {r : Resolve} (h : r.All p) {s : State} {q : Pools} {a : Option Word} (e : r = .at_ s q a) : p s := by
  subst e; exact h
theorem Resolve.All.fail {r : Resolve} (h : r.All p) {s : State} {q : Pools} {t : Trap} (e : r = .fail s q t) : p s := by
  subst e; exact h
theorem GroupAddr.All.ok {r : GroupAddr} (h : r.All p) {s : State} {q : Pools} {l : List (Nat × Option Word)} (e : r = .ok s q l) :
    p s := by
  subst e; exact h
theorem GroupAddr.All.fail {r : GroupAddr} (h : r.All p) {s : State} {q : Pools} {i : Nat} {t : Trap} {l : List (Nat × Option Word)}
    (e : r = .fail s q i t l) : p s := by
  subst e; exact h

theorem resolveGroup_all {f : Nat → State → Pools → Resolve} (hf : ∀ i s q, p s → (f i s q).All p) (l : List Nat) {s : State}
    (hs : p s) (q : Pools) (addrs : List (Nat × Option Word)) : (resolveGroup f l s q addrs).All p := by
  induction l generalizing s q addrs with
  | nil => exact hs
  | cons i l ih =>
    rw [resolveGroup]
    split
    · next e => exact ih ((hf i s q hs).at_ e) ..
    · next e => exact (hf i s q hs).fail e
    all_goals trivial

theorem coordGroups_all {find : Nat → State → Pools → Resolve} (hfind : ∀ i s q, p s → (find i s q).All p)
    {acc : Option Word → State → Nat → Eff} (hacc : ∀ a s i, p s → (acc a s i).All p) (gs : List (Nat × List Nat)) (q : Pools)
    {b : Batch} (hb : p b.s) : (coordGroups find acc gs q b).All p := by
  induction gs generalizing q b with
  | nil => exact hb
  | cons g gs ih =>
    rw [coordGroups]
    have hrun (addrs : List (Nat × Option Word)) (s : State) (hs : p s) :
        (runElems (fun s i => acc ((tfind addrs i).getD none) s i) (addrs.map Prod.fst) s [] 0).All p :=
      runElems_all (fun s i => hacc _ s i) _ hs ..
    have haddr := resolveGroup_all hfind g.2 hb q []
    split
    · next e =>
      have h1 := haddr.fail e
      split
      · exact ih _ h1
      · exact ih _ h1
      all_goals trivial
    · trivial
    · trivial
    · next e =>
      have h1 := haddr.ok e
      split
      · next e2 => exact ih _ ((hrun _ _ h1).ok e2)
      · exact ih _ h1
      all_goals trivial

end

theorem State.poolLine_mem (s : State) (w : Who) (pool pte : Word) (off pa n : Nat) :
    ∀ t, s.poolLine w pool pte off pa n = .inr t → t.mem = s.mem := by
  unfold State.poolLine
  split
  · nofun
  · split
    · nofun
    · nofun
    · next e =>
      split
      · nofun
      · rintro t ⟨⟩
        exact (s.accessLines_mem ..).ok e

theorem State.poolLine_pop {p : State → Prop} {s : State} {w : Who} {pool pte : Word} {off pa n : Nat} {r : Pop}
    (e : s.poolLine w pool pte off pa n = .inl r) : r.All p := by
  unfold State.poolLine at e
  split at e
  · cases e; trivial
  · split at e
    · cases e; trivial
    · cases e; trivial
    · split at e <;> cases e
      trivial

theorem State.poolPa_pop {p : State → Prop} {s : State} {w : Who} {pool : Word} {r : Pop} (e : s.poolPa w pool = .inl r) : r.All p := by
  unfold State.poolPa at e
  split at e
  · cases e; trivial
  · split at e
    · cases e; trivial
    · cases e; trivial
    · cases e; trivial
    · split at e
      · cases e; trivial
      · split at e
        · next e2 => cases e; exact poolLine_pop e2
        · cases e

section Wf
variable {s : State} (hs : Memory.wf s.mem)
include hs

theorem walkTree_wf (w : Who) (v : Volume) (t rest k : Nat) (node : Word) : (walkTree w v t rest k node s).All fun t => Memory.wf t.mem := by
  induction rest generalizing s k node with
  | zero => exact hs
  | succ rest ih =>
    rw [walkTree]
    split
    · trivial
    · trivial
    · trivial
    · next e =>
      have h1 := (State.loadEl_wf hs ..).ok e
      split
      · exact h1
      · exact ih h1 ..

theorem lookTile_wf (w : Who) (v : Volume) (t : Nat) : (lookTile w v t s).All fun t => Memory.wf t.mem := by
  unfold lookTile
  split
  · exact hs
  · exact walkTree_wf (by rwa [State.countCore_mem]) ..

theorem State.poolPa_wf (w : Who) (pool : Word) : ∀ q, s.poolPa w pool = .inr q → Memory.wf q.1.mem := by
  unfold State.poolPa
  split
  · nofun
  · split
    · nofun
    · nofun
    · nofun
    · next e =>
      have h1 := (accessPage_wf hs ..).ok e
      split
      · nofun
      · split
        · nofun
        · next e2 =>
          rintro q ⟨⟩
          rwa [poolLine_mem _ _ _ _ _ _ _ _ e2]

theorem State.pushNow_wf (pa : Nat) (block : Word) : Memory.wf (s.pushNow pa block).mem := by
  unfold State.pushNow
  dsimp only
  split
  · exact hs
  · simp [memPut_wf, hs]

theorem State.pop_wf (w : Who) (pool : Word) : (s.pop w pool).All fun t => Memory.wf t.mem := by
  unfold State.pop
  split
  · next e => exact poolPa_pop e
  · next e =>
    have h1 := poolPa_wf hs _ _ _ e
    dsimp only
    split
    · exact h1
    · split
      · next e2 => exact poolLine_pop e2
      · next e2 => exact homeWrite_wf (by rwa [poolLine_mem _ _ _ _ _ _ _ _ e2]) ..

theorem State.pushPool_wf (pa : Nat) (block : Word) : ∀ t ∈ s.pushPool pa block, Memory.wf t.mem := by
  unfold State.pushPool
  extract_lets h0 slot take
  have htake (t : State) (a : Nat) : (take t a).mem = t.mem := by simp [take]
  split
  · nofun
  · refine forall_mem_some (pushNow_wf ?_ ..)
    split
    · rwa [htake]
    · rwa [htake, htake]

theorem State.giveBack_wf (w : Who) (pool block : Word) : (s.giveBack w pool block).All fun t => Memory.wf t.mem := by
  unfold State.giveBack
  split
  · next e => exact poolPa_pop e
  · next e =>
    have h1 := poolPa_wf hs _ _ _ e
    dsimp only
    split
    · trivial
    · split
      · exact pushNow_wf h1 ..
      · split
        · next e2 => exact poolLine_pop e2
        · next e2 =>
          split
          · exact pushNow_wf (by rwa [poolLine_mem _ _ _ _ _ _ _ _ e2]) ..
          · trivial

theorem fillBlock_wf (w : Who) (fuel : Nat) (a : Word) (n v : Nat) :
    Memory.wf (fillBlock w fuel a n v s).1.mem ∧ (fillBlock w fuel a n v s).2.All fun t => Memory.wf t.mem := by
  induction fuel generalizing s a n v with
  | zero => exact ⟨hs, hs⟩
  | succ fuel ih =>
    rw [fillBlock]
    dsimp only
    split
    · exact ⟨hs, hs⟩
    · split
      · next e => exact ih ((State.storeEl_wf hs ..).ok e) ..
      · next hne => exact ⟨hs, .of_not_ok hne⟩

theorem failBack_wf (w : Who) (pool block : Word) (q : Pools) (t : Trap) :
    (failBack w pool block s q t).All fun t => Memory.wf t.mem := by
  unfold failBack
  split
  · next e => exact (State.giveBack_wf hs ..).ok e
  · exact hs
  · trivial
  · next e => exact (State.giveBack_wf hs ..).empty e

theorem allocTile_wf (w : Who) (v : Volume) (t rest k : Nat) (entry : Word) (q : Pools) :
    (allocTile w v t rest k entry q s).All fun t => Memory.wf t.mem := by
  induction rest generalizing s k entry q with
  | zero => exact hs
  | succ rest ih =>
    rw [allocTile]
    split
    · next e => exact (State.pop_wf hs ..).empty e
    · exact hs
    · trivial
    · next s1 block e =>
      have h1 := (State.pop_wf hs ..).ok e
      have hfill := fillBlock_wf h1 w 16 block
      dsimp only
      split
      · exact failBack_wf (hfill ..).1 ..
      · trivial
      · trivial
      · next e2 =>
        have h2 := (hfill ..).2.ok e2
        split
        · exact failBack_wf h2 ..
        · trivial
        · trivial
        · next e3 =>
          have h3 := (State.atomicEl_wf h2 ..).ok e3
          split
          · split
            · exact h3
            · trivial
            · next e4 => exact (State.giveBack_wf h3 ..).empty e4
            · next e4 =>
              have h4 := (State.giveBack_wf h3 ..).ok e4
              split
              · next e5 => exact (walkTree_wf h4 ..).present e5
              · next e5 => exact ih ((walkTree_wf h4 ..).absent e5) ..
              · exact h4
              · trivial
              · trivial
          · split
            · exact h3
            · exact ih h3 ..

theorem allocFrom_wf (w : Who) (v : Volume) (t k : Nat) (entry : Word) (q : Pools) :
    (allocFrom w v t k entry q s).All fun t => Memory.wf t.mem := by
  unfold allocFrom
  split
  · exact hs
  · split
    · exact hs
    · exact allocTile_wf hs ..

theorem resolveVol_wf (w : Who) (v : Volume) (bad write : Bool) (x : Nat → Nat) (q : Pools) :
    (resolveVol w v bad write x s q).All fun t => Memory.wf t.mem := by
  unfold resolveVol
  split
  · exact hs
  · split
    · exact hs
    · split
      · exact hs
      · dsimp only
        split
        · exact hs
        · trivial
        · trivial
        · next e => exact (lookTile_wf hs ..).present e
        · next e =>
          have h1 := (lookTile_wf hs ..).absent e
          split
          · exact h1
          · split
            · exact h1
            · have hall := allocFrom_wf h1 w v (v.tile x)
              split
              · next e2 => exact (hall ..).at_ e2
              · exact hall ..

theorem coordFind_wf (e : QEntry) (o : Fields) (x : Hart) (w : Who) (d : Nat) (write : Bool) (i : Nat) (q : Pools) :
    (coordFind e o x w d write i s q).All fun t => Memory.wf t.mem := resolveVol_wf hs ..

theorem coordStored_wf (o : Fields) (w : Who) (find : Nat → State → Pools → Resolve) (write : Bool) (done : List Nat) :
    Memory.wf (coordStored o w find write done s).mem := by
  unfold coordStored
  dsimp only
  split
  · exact hs
  · rwa [State.cleanPoison_mem]

theorem coordMem_wf {acc : Volume → Who → Option Word → State → Nat → Eff}
    (hacc : ∀ v w a t i, Memory.wf t.mem → (acc v w a t i).All fun t => Memory.wf t.mem) (e : QEntry) (o : Fields) (h : Nat)
    (write : Bool) : (coordMem e o h s write acc).All fun t => Memory.wf t.mem := by
  rw [coordMem]
  cases dueElems e o (s.hart h) with
  | nil => exact hs
  | cons i0 l =>
    dsimp only
    have hall (t : Trap) (b : Batch) (hb : b.s = s) : (finishBatch s h (fun _ _ => .fault t) (i0 :: l) (.ok b) fun y _ => y).All
        fun t => Memory.wf t.mem := finishBatch_wf hs (by simpa [BatchEnd.All, hb] using hs) ..
    split
    · exact hall _ _ rfl
    · split
      · exact State.heldAt_wf hs ..
      · trivial
      · exact hall _ _ rfl
      · next e1 =>
        have h1 := (State.readBlock_wf hs ..).ok e1
        refine finishBatch_wf hs ((coordGroups_all (fun i t q ht => coordFind_wf ht ..) (fun a t i ht => hacc _ _ a t i ht) _ _
          h1).stored fun b hb => ?_) ..
        exact coordStored_wf hb ..

theorem vldcEl_wf (o : Fields) (v : Volume) (w : Who) (a : Option Word) (i : Nat) : (vldcEl o v w a s i).All fun t => Memory.wf t.mem := by
  unfold vldcEl
  dsimp only
  split
  · exact hs
  · split
    · next e => exact (State.loadSplit_wf hs ..).ok e
    · next hne => exact .of_not_ok hne

theorem vstcEl_wf (e : QEntry) (o : Fields) (x : Hart) (v : Volume) (w : Who) (a : Option Word) (i : Nat) :
    (vstcEl e o x v w a s i).All fun t => Memory.wf t.mem := by
  unfold vstcEl
  dsimp only
  split
  · next e1 => exact (State.storeSplit_wf hs ..).ok e1
  · next hne => exact .of_not_ok hne

theorem vamocEl_wf (e : QEntry) (o : Fields) (x : Hart) (v : Volume) (w : Who) (a : Option Word) (i : Nat) :
    (vamocEl e o x v w a s i).All fun t => Memory.wf t.mem := by
  unfold vamocEl
  dsimp only
  split
  · trivial
  · exact State.atomicEl_wf hs ..

theorem memVldc_wf (e : QEntry) (o : Fields) (h : Nat) : (memVldc e o h s).All fun t => Memory.wf t.mem :=
  coordMem_wf hs (fun _ _ _ _ _ ht => vldcEl_wf ht ..) ..

theorem memVstc_wf (e : QEntry) (o : Fields) (h : Nat) : (memVstc e o h s).All fun t => Memory.wf t.mem :=
  coordMem_wf hs (fun _ _ _ _ _ ht => vstcEl_wf ht ..) ..

theorem memVamoc_wf (e : QEntry) (o : Fields) (h : Nat) : (memVamoc e o h s).All fun t => Memory.wf t.mem := by
  unfold memVamoc
  dsimp only
  split
  · exact hs
  · exact coordMem_wf hs (fun _ _ _ _ _ ht => vamocEl_wf ht ..) ..

end Wf
end Sys2Proof.Machine

namespace Sys2Proof.Machine

/-! Memory in stream registers (R332 to R338). -/

section Wf
variable {s : State} (hs : Memory.wf s.mem)
include hs

theorem memQbind_wf (e : QEntry) (o : Fields) (h : Nat) : (memQbind e o h s).All fun t => Memory.wf t.mem := by
  unfold memQbind
  dsimp only
  split
  · exact hs
  · split
    · exact State.heldAt_wf hs ..
    · trivial
    · exact hs
    · next e1 =>
      have h1 := (State.readBlock_wf hs ..).ok e1
      split
      · exact h1
      · split
        · exact h1
        · exact h1

theorem State.streamLoad_wf (h n key : Nat) (prv : Bool) {load : State → Eff} (hload : (load s).All fun t => Memory.wf t.mem) :
    (s.streamLoad h n key prv load).All fun t => Memory.wf t.mem := by
  unfold State.streamLoad
  split
  · split
    · exact hload
    · dsimp only [Eff.All]
      split
      · exact hs
      · exact hs
  · exact hload

theorem streamElem_wf (h : Nat) (prv : Bool) (n j : Nat) : (streamElem h prv n s j).All fun t => Memory.wf t.mem := by
  unfold streamElem
  dsimp only
  split
  · exact hs
  · refine State.streamLoad_wf hs _ _ _ _ ?_
    split
    · split
      · exact hs
      · split
        · next e => exact State.loadEl_wf ((State.streamLoad_wf hs _ _ _ _ (State.loadEl_wf hs ..)).ok e) ..
        · next hne => exact .of_not_ok hne
    · exact State.loadEl_wf hs ..

theorem levelElem_wf (h : Nat) (prv : Bool) (n which k : Nat) : (levelElem h prv n which k s).All fun t => Memory.wf t.mem := by
  unfold levelElem
  dsimp only
  refine State.streamLoad_wf hs _ _ _ _ ?_
  split <;> exact State.loadEl_wf hs ..

theorem memQrd_wf (e : QEntry) (o : Fields) (h : Nat) : (memQrd e o h s).All fun t => Memory.wf t.mem := by
  unfold memQrd
  extract_lets x n q el due
  have hall : (finishBatch s h el due (runGroups el (groupsOf (groupSize e.vt) due) { s := s }) (putGroup e e.vd e.vt.bits)).All
      fun t => Memory.wf t.mem :=
    finishBatch_wf hs (runGroups_all (fun t i ht => streamElem_wf ht ..) _ hs) ..
  split
  · exact hs
  · split
    · next e1 =>
      have h1 := hall.done e1
      exact h1
    · exact hall

theorem fldqLoads_wf (h : Nat) (prv : Bool) (n m k : Nat) (l : List (Nat × Nat)) :
    (fldqLoads h prv n m k l s).1.All fun t => Memory.wf t.mem := by
  induction m generalizing s k l with
  | zero => exact hs
  | succ m ih =>
    rw [fldqLoads]
    split
    · next e1 =>
      have h1 := (levelElem_wf hs ..).ok e1
      split
      · next e2 => exact ih ((levelElem_wf h1 ..).ok e2) ..
      · next hne => exact .of_not_ok hne
    · next hne => exact .of_not_ok hne

theorem memFldq_wf (e : QEntry) (o : Fields) (h : Nat) : (memFldq e o h s).All fun t => Memory.wf t.mem := by
  unfold memFldq
  extract_lets n d q fail
  have hfail (l : List (Nat × Nat)) (t : Trap) : (fail l t).All fun t => Memory.wf t.mem := hs
  split
  · exact hs
  · split
    · exact hs
    · split
      · exact hfail ..
      · exact State.heldAt_wf hs ..
      · trivial
      · next e1 =>
        have h1 := (levelElem_wf hs ..).ok e1
        split
        · exact hfail ..
        · exact State.heldAt_wf hs ..
        · trivial
        · next s2 hi _ e2 =>
          have h2 := (levelElem_wf h1 ..).ok e2
          dsimp only
          split
          · exact hfail ..
          · exact State.heldAt_wf hs ..
          · trivial
          · next e3 =>
            have h3 := (fldqLoads_wf h2 h e.prv n ..).ok (congrArg Prod.fst e3)
            split
            · rw [PRes.All, State.setHart_mem]
              exact h3
            · rw [PRes.All, State.setHart_mem]
              exact h3

theorem memQrel_wf (e : QEntry) (o : Fields) (h : Nat) : (memQrel e o h s).All fun t => Memory.wf t.mem := by
  unfold memQrel
  dsimp only
  split <;> exact hs

theorem State.fetchElem_wf (h n key : Nat) {load : State → Eff}
    (hload : ∀ t : State, Memory.wf t.mem → (load t).All fun u => Memory.wf u.mem) :
    ∀ q ∈ s.fetchElem h n key load, Memory.wf q.1.mem := by
  unfold State.fetchElem
  dsimp only
  split
  · next e =>
    have ht := (hload _ (by exact hs)).ok e
    rintro q hq
    obtain rfl := Option.some.inj hq
    exact ht
  · nofun

theorem prefetchLevel_wf (h n fuel k t : Nat) : Memory.wf (prefetchLevel h n fuel k t s).mem := by
  induction fuel generalizing s k t with
  | zero => exact hs
  | succ fuel ih =>
    rw [prefetchLevel]
    have hget {u : State} (hu : Memory.wf u.mem) (key : Nat) (prv : Bool) (which k : Nat) :=
      State.fetchElem_wf hu h n key (load := levelElem h prv n which k) fun t ht => levelElem_wf ht ..
    dsimp only
    split
    · exact hs
    · split
      · exact hs
      · next e1 =>
        have h1 := hget hs _ _ _ _ _ e1
        split
        · exact h1
        · next e2 =>
          have h2 := hget h1 _ _ _ _ _ e2
          split
          · exact ih h2 ..
          · split
            · exact h2
            · next e3 =>
              have h3 := hget h2 _ _ _ _ _ e3
              split
              · exact h3
              · next e4 => exact ih (hget h3 _ _ _ _ _ e4) ..

theorem State.prefetchStream_wf (h n k : Nat) : Memory.wf (s.prefetchStream h n k).mem := by
  unfold State.prefetchStream
  dsimp only
  split
  · exact hs
  · split
    · exact prefetchLevel_wf hs ..
    · refine foldl_wf (fun t i ht => ?_) _ hs
      split
      · exact ht
      · refine getD_wf ht fun u hu => ?_
        obtain ⟨q, hq, rfl⟩ := Option.map_eq_some_iff.1 hu
        exact fetchElem_wf ht h n _ (fun t ht => streamElem_wf ht ..) q hq

end Wf
end Sys2Proof.Machine

namespace Sys2Proof.Machine

/-! Memory in the rest of the queue's instructions: the matrix engine, TASKPUB, ARRIVE, WAKE and TOKSEND. -/

/-- The state of a destination of TOKSEND satisfies p. -/
def RowPlace.All (p : State → Prop) : RowPlace → Prop
  | .ok s _ => p s
  | _ => True
theorem RowPlace.All.ok {p : State → Prop} {r : RowPlace} (h : r.All p) {s : State} {d : RowDest} (e : r = .ok s d) : p s := by
  subst e; exact h

namespace State
variable (s : State)

@[simp] theorem engineRun_mem (h : Nat) : (s.engineRun h).mem = s.mem := by
  unfold engineRun
  split <;> simp
@[simp] theorem setBarrier_mem (x : Hart) (quad : Bool) (n : Nat) (b : Barrier) : (s.setBarrier x quad n b).mem = s.mem := by
  simp [setBarrier, apply_ite State.mem]
@[simp] theorem addRow_mem (r : TokRow) : (s.addRow r).mem = s.mem := rfl
@[simp] theorem ueSend_mem (fep : BitVec 32) (addr : Word) (data : Option (List Byte)) : (s.ueSend fep addr data).mem = s.mem := rfl
@[simp] theorem countPipes_mem (e : QEntry) (x y : Hart) (fin : Bool) : (s.countPipes e x y fin).mem = s.mem := by
  unfold countPipes
  split
  case h_5 => split <;> simp
  all_goals simp

end State

section Wf
variable {s : State} (hs : Memory.wf s.mem)
include hs

theorem State.chargeMma_wf (h : Nat) (a : VReg) (b : BitVec 32768) (group : Option Nat) (lastb : Bool) {go : State → PRes}
    (hgo : ∀ t : State, Memory.wf t.mem → (go t).All fun u => Memory.wf u.mem) :
    (s.chargeMma h a b group lastb go).All fun t => Memory.wf t.mem := by
  unfold State.chargeMma
  extract_lets c k bu k1 s1
  split
  · exact hs
  · exact hgo _ (by simpa [s1] using hs)

theorem memMma_wf (e : QEntry) (o : Fields) (h : Nat) : (memMma e o h s).All fun t => Memory.wf t.mem := by
  unfold memMma
  exact State.chargeMma_wf hs _ _ _ _ _ fun _ ht => HRes.lift_wf ht ..

theorem memMmas_wf (e : QEntry) (o : Fields) (h : Nat) : (memMmas e o h s).All fun t => Memory.wf t.mem := by
  unfold memMmas
  exact State.chargeMma_wf hs _ _ _ _ _ fun _ ht => HRes.lift_wf ht ..

theorem memMmag_wf (e : QEntry) (o : Fields) (h : Nat) : (memMmag e o h s).All fun t => Memory.wf t.mem := by
  unfold memMmag
  dsimp only
  split
  · exact hs
  · exact State.chargeMma_wf hs _ _ _ _ _ fun _ ht => HRes.lift_wf ht ..

theorem memMprom_wf (e : QEntry) (o : Fields) (h : Nat) : (memMprom e o h s).All fun t => Memory.wf t.mem := by
  unfold memMprom
  extract_lets c k s1
  split
  · exact hs
  · exact HRes.lift_wf (by simpa [s1] using hs) ..

theorem memMzero_wf (e : QEntry) (o : Fields) (h : Nat) : (memMzero e o h s).All fun t => Memory.wf t.mem :=
  HRes.lift_wf (by simpa using hs) ..

theorem memMzeroC_wf (e : QEntry) (o : Fields) (h : Nat) : (memMzeroC e o h s).All fun t => Memory.wf t.mem :=
  HRes.lift_wf (by simpa using hs) ..

theorem memMdrain_wf (e : QEntry) (o : Fields) (h : Nat) : (memMdrain e o h s).All fun t => Memory.wf t.mem :=
  HRes.lift_wf (by simpa using hs) ..

theorem memMfill_wf (e : QEntry) (o : Fields) (h : Nat) : (memMfill e o h s).All fun t => Memory.wf t.mem := by
  unfold memMfill
  dsimp only
  refine HRes.lift_wf ?_ ..
  split <;> simpa using hs

theorem memMstat_wf (e : QEntry) (o : Fields) (h : Nat) : (memMstat e o h s).All fun t => Memory.wf t.mem := by
  simpa [memMstat, PRes.All] using hs

theorem memSetvl_wf (e : QEntry) (o : Fields) (h : Nat) : (memSetvl e o h s).All fun t => Memory.wf t.mem := by
  simpa [memSetvl, PRes.All] using hs

theorem memTaskpub_wf (e : QEntry) (o : Fields) (h : Nat) : (memTaskpub e o h s).All fun t => Memory.wf t.mem := by
  unfold memTaskpub
  extract_lets a w fault
  have hfault {t : State} (ht : Memory.wf t.mem) (tr : Trap) : (fault t tr).All fun u => Memory.wf u.mem := ht
  clear_value fault
  split
  · exact hfault hs _
  · split
    · exact hfault hs _
    · split
      · exact hfault hs _
      · exact hfault hs _
      · exact State.heldAt_wf hs ..
      · next s1 pa pte e1 =>
        have h1 := (State.accessPage_wf hs ..).ok e1
        split
        · exact hfault hs _
        · split
          · exact State.heldAt_wf hs ..
          · split
            · exact State.heldAt_wf hs ..
            · exact hfault hs _
            · next s2 e2 =>
              have h2 : Memory.wf s2.mem := by rwa [(State.accessLines_mem ..).ok e2]
              split
              · exact hfault hs _
              · have hpub := State.publish_wf h2 w.asn a pa e.prv
                split
                · next e3 => rwa [e3] at hpub
                · exact hfault h2 _
                · exact hfault h2 _

theorem memArrive_wf (e : QEntry) (o : Fields) (h : Nat) : (memArrive e o h s).All fun t => Memory.wf t.mem := by
  simpa [memArrive, PRes.All] using hs

theorem State.setWake_wf (h die : Nat) : Memory.wf (s.setWake h die).mem := by
  unfold State.setWake
  dsimp only
  split
  · exact State.imgWrite_wf (by simpa using hs) ..
  · simpa using hs

theorem memWake_wf (e : QEntry) (o : Fields) (h : Nat) : (memWake e o h s).All fun t => Memory.wf t.mem := by
  unfold memWake
  dsimp only
  split
  · exact State.setWake_wf hs ..
  · simpa [PRes.All] using hs

theorem State.rowPlace_wf (w : Who) (a : Word) (count : Bool) : (s.rowPlace w a count).All fun t => Memory.wf t.mem := by
  unfold State.rowPlace
  split
  · dsimp only
    split
    · trivial
    · split
      · trivial
      · trivial
      · split
        · simpa [RowPlace.All] using hs
        · trivial
  · split
    · trivial
    · split
      · trivial
      · trivial
      · trivial
      · next e1 =>
        have h1 := (State.accessPage_wf hs ..).ok e1
        split
        · split <;> trivial
        · split
          · trivial
          · exact h1

theorem State.countHere_wf (w : Who) (a : Word) : (s.countHere w a).All fun t => Memory.wf t.mem := by
  unfold State.countHere
  have hat := State.atomicEl_wf hs w a 8 false (atomicStep 1 7 1)
  split
  · split
    · exact hs
    · trivial
  · exact hat

theorem State.storeRow_wf (w : Who) (rb first : Nat) (data : List Byte) (a word : Word) (dw : RowDest) :
    (s.storeRow w rb first data a word dw).All fun t => Memory.wf t.mem := by
  unfold State.storeRow
  extract_lets v count
  have hcount {t : State} (ht : Memory.wf t.mem) : (count t).All fun u => Memory.wf u.mem := by
    simp only [count]
    split
    · exact ht
    · exact State.countHere_wf ht ..
  clear_value count
  split
  · next e1 =>
    have h1 := (State.storeEl_wf hs ..).ok e1
    split
    · exact hcount h1
    · split
      · next e2 => exact hcount ((State.storeEl_wf h1 ..).ok e2)
      · next hne => exact .of_not_ok hne
  · next hne => exact .of_not_ok hne

theorem sendRow_wf (w : Who) (rb : Nat) (data : Nat → List Byte) (slot word : Nat → Word) (i : Nat) :
    (sendRow w rb data slot word s i).All fun t => Memory.wf t.mem := by
  unfold sendRow
  extract_lets a first die
  split
  · trivial
  · trivial
  · next s1 d0 e1 =>
    have h1 := (State.rowPlace_wf hs ..).ok e1
    extract_lets rest
    have hrest : rest.All fun t => Memory.wf t.mem := by
      simp only [rest]
      split
      · exact h1
      · exact State.rowPlace_wf h1 ..
    clear_value rest
    split
    · trivial
    · trivial
    · next s2 d1 =>
      have h2 : Memory.wf s2.mem := hrest
      split
      · trivial
      · trivial
      · next s3 dw e3 =>
        have h3 := (State.rowPlace_wf h2 ..).ok e3
        extract_lets rowOut out lost s4 pieces
        have h4 : Memory.wf s4.mem := by
          simp only [s4]
          split
          · exact h3
          · simpa using h3
        clear_value lost s4
        split
        · trivial
        · split
          · trivial
          · split
            · exact h4
            · exact State.storeRow_wf h4 ..

theorem memToksend_wf (e : QEntry) (o : Fields) (h : Nat) : (memToksend e o h s).All fun t => Memory.wf t.mem := by
  unfold memToksend
  dsimp only
  split
  · exact hs
  · exact finishBatch_wf hs (runGroups_all (fun t i ht => sendRow_wf ht ..) _ hs) ..

theorem State.placeBytes_wf (me agent pa : Nat) (bs : List Byte) : ∀ t ∈ s.placeBytes me agent pa bs, Memory.wf t.mem := by
  unfold State.placeBytes
  split
  · nofun
  · extract_lets s1
    have h1 : Memory.wf s1.mem := by simpa [s1] using hs
    clear_value s1
    split
    · refine forall_mem_some ?_
      split
      · rw [State.write_mem]
        exact memPut_wf _ _ h1
      · exact hs
    · refine forall_mem_some ?_
      exact State.homeWrite_wf h1 ..

theorem State.placeAt_wf (me die : Nat) (d : RowDest) (bs : List Byte) : ∀ t ∈ s.placeAt me die d bs, Memory.wf t.mem := by
  unfold State.placeAt
  split
  · refine forall_mem_some ?_
    exact hs
  · exact State.placeBytes_wf hs _ _ _ _

theorem State.countRow_wf (me die : Nat) (d : RowDest) : ∀ t ∈ s.countRow me die d, Memory.wf t.mem := by
  unfold State.countRow
  split
  · refine forall_mem_some ?_
    exact hs
  · split
    · refine forall_mem_some ?_
      exact hs
    · exact State.placeBytes_wf hs _ _ _ _

theorem State.placePieces_wf (r : TokRow) (l : List (Nat × Nat × RowDest)) : ∀ t ∈ l.foldl (fun (t : Option State) p =>
    t.bind fun u => u.placeAt r.place r.die p.2.2 ((r.data.drop p.1).take p.2.1)) (some s), Memory.wf t.mem :=
  List.foldlRecOn l _ (motive := fun o : Option State => ∀ t ∈ o, Memory.wf t.mem) (by simpa using hs) fun o ho p _ t ht => by
    obtain ⟨u, hu, ht⟩ := Option.bind_eq_some_iff.mp ht
    exact State.placeAt_wf (ho u hu) _ _ _ _ t ht

theorem State.placeRow_wf (k : Nat) : ∀ t ∈ s.placeRow k, Memory.wf t.mem := by
  unfold State.placeRow
  split
  · nofun
  · next r _ =>
    extract_lets dead placed
    have hplaced : ∀ t ∈ placed, Memory.wf t.mem := by
      simp only [placed]
      split
      · simpa using hs
      · intro t ht
        obtain ⟨u, hu, ht⟩ := Option.bind_eq_some_iff.mp ht
        exact State.countRow_wf (State.placePieces_wf hs r r.slot u hu) _ _ _ t ht
    clear_value placed
    intro t ht
    obtain ⟨u, hu, rfl⟩ := Option.map_eq_some_iff.mp ht
    simpa using hplaced u hu

theorem State.rowMove_wf (k : Nat) : ∀ t ∈ s.rowMove k, Memory.wf t.mem := by
  unfold State.rowMove
  split
  · next e => exact forall_mem_some <| State.placeRow_wf hs k _ e
  · intro t ht
    obtain ⟨r, _, ht⟩ := Option.bind_eq_some_iff.mp ht
    obtain ⟨key, _, ht⟩ := Option.bind_eq_some_iff.mp ht
    dsimp only at ht
    split at ht
    · cases ht
    · cases ht
      simpa using hs

end Wf
end Sys2Proof.Machine

namespace Sys2Proof.Machine

/-! Memory in the performance of queue entries and in the queue. -/

/-- The state that the vector unit's work ends in satisfies p. -/
def Drive.All (p : State → Prop) : Drive → Prop
  | .ok s => p s
  | .stop _ => True

section Wf
variable {s : State} (hs : Memory.wf s.mem)
include hs

theorem performRaw_wf (limit : Option Nat) (e : QEntry) (h : Nat) : (performRaw limit e h s).All fun t => Memory.wf t.mem := by
  unfold performRaw
  split
  all_goals try with_reducible exact HRes.lift_wf hs ..
  · exact memMma_wf hs ..
  · exact memMmas_wf hs ..
  · exact memMmag_wf hs ..
  · exact memMprom_wf hs ..
  · exact memMzero_wf hs ..
  · exact memMzeroC_wf hs ..
  · exact memMdrain_wf hs ..
  · exact memMfill_wf hs ..
  · exact memMstat_wf hs ..
  · exact denseMem_wf hs ..
  · exact memVst_wf hs ..
  · exact denseMem_wf hs ..
  · exact denseMem_wf hs ..
  · exact denseMem_wf hs ..
  · exact denseMem_wf hs ..
  · exact memVldf_wf hs ..
  · exact memVstf_wf hs ..
  · exact peerMem_wf hs ..
  · exact peerMem_wf hs ..
  · exact memVamo_wf hs ..
  · exact memVldc_wf hs ..
  · exact memVstc_wf hs ..
  · exact memVamoc_wf hs ..
  · exact memFld_wf hs ..
  · exact memFst_wf hs ..
  · exact memQbind_wf hs ..
  · exact memQrd_wf hs ..
  · exact memFldq_wf hs ..
  · exact memQrel_wf hs ..
  · exact memToksend_wf hs ..
  · exact memSetvl_wf hs ..
  · exact memTaskpub_wf hs ..
  · exact memArrive_wf hs ..
  · exact memWake_wf hs ..
  · exact memFwalk_wf hs ..
  · exact hs

theorem performInstr_wf (limit : Option Nat) (e : QEntry) (h : Nat) : (performInstr limit e h s).All fun t => Memory.wf t.mem := by
  have hraw := performRaw_wf hs limit e h
  unfold performInstr
  extract_lets x clean part
  have hclean (t : State) (l : List (Nat × Nat)) : (clean t l).mem = t.mem := by
    simp only [clean]
    split
    · rfl
    · exact State.modHart_mem ..
  have hpart (t : State) : (part t).mem = t.mem := hclean ..
  clear_value clean part
  generalize performRaw limit e h s = r at hraw
  split
  · exact hs
  · split
    · exact hs
    · cases r with
      | done t f v => simpa [PRes.All, hclean] using hraw
      | part t f acc => simpa [PRes.All, hpart] using hraw
      | fault t f tr p pages => simpa [PRes.All, hpart] using hraw
      | held t p =>
        simp only [PRes.All]
        split
        · rwa [hpart]
        · exact hraw
      | wait t => exact hraw
      | stop f => trivial

end Wf

section
variable {p : State → Prop}

theorem Drive.All.ok {r : Drive} (h : r.All p) {s : State} (e : r = .ok s) : p s := by
  subst e; exact h
theorem Drive.All.bind {q : State → Prop} {r : Drive} (h : r.All p) {f : State → Drive} (hf : ∀ s, p s → (f s).All q) :
    (r.bind f).All q := by
  cases r with
  | ok s => exact hf s h
  | stop => trivial

end

theorem PRes.All.headStage {r : PRes} (hr : r.All fun t => Memory.wf t.mem) (e : QEntry) (h : Nat) :
    (r.headStage e h).All fun t => Memory.wf t.mem := by
  unfold PRes.headStage
  extract_lets tidy
  have htidy (t : State) : (tidy t).mem = t.mem := by
    simp only [tidy]
    split
    · rfl
    · exact State.endHolds_mem ..
  clear_value tidy
  cases r with
  | done t f v => rwa [Drive.All, State.modHart_mem, htidy]
  | part t f acc => rwa [Drive.All, State.modHart_mem]
  | fault t f tr p pages =>
    rwa [Drive.All, State.modHart_mem, State.noteFault_mem, htidy]
  | held t p => rwa [Drive.All, State.modHart_mem]
  | wait t => exact hr
  | stop f => trivial

namespace State
variable (s : State)

@[simp] theorem stripDone_mem (h : Nat) : (s.stripDone h).mem = s.mem := by
  unfold stripDone
  dsimp only
  split
  · rw [modTask_mem, modHart_mem]
  · rfl
@[simp] theorem endDone_mem (h : Nat) : (s.endDone h).mem = s.mem := by
  simp [endDone, apply_ite State.mem]
@[simp] theorem completeHead_mem (h : Nat) : (s.completeHead h).mem = s.mem := by
  unfold completeHead
  dsimp only
  split
  · rfl
  · split
    · split
      · rw [endDone_mem, setHart_mem]
      · rw [setHart_mem]
    · rfl
@[simp] theorem noteTaken_mem (core h : Nat) (me : Option Nat) (stuck : List Nat) : (s.noteTaken core h me stuck).mem = s.mem := by
  simp [noteTaken, apply_ite State.mem]
@[simp] theorem takeHeld_mem (h : Nat) : (s.takeHeld h).mem = s.mem := by
  unfold takeHeld
  dsimp only
  split
  · rfl
  · rw [countCore_mem, setHart_mem]
@[simp] theorem finishStarted_mem (h : Nat) : (s.finishStarted h).mem = s.mem := completeHead_mem ..
@[simp] theorem freeze_mem (h : Nat) (t : Trap) : (s.freeze h t).mem = s.mem := by
  unfold freeze
  dsimp only
  rw [countCore_mem, setHart_mem, finishStarted_mem]
@[simp] theorem pushEntry_mem (h : Nat) (e : QEntry) : (s.pushEntry h e).mem = s.mem := by
  unfold pushEntry
  dsimp only
  rw [countCore_mem, modHart_mem]

end State

namespace State
variable {s : State} (hs : Memory.wf s.mem)
include hs

theorem performHead_wf (h : Nat) (limit : Option Nat) : (s.performHead h limit).All fun t => Memory.wf t.mem := by
  unfold performHead
  dsimp only
  split
  · exact hs
  · split
    · exact hs
    · split
      · exact (performInstr_wf hs ..).headStage ..
      · exact (performInstr_wf hs ..).headStage ..
      · exact (performInstr_wf (by rwa [modHart_mem]) ..).headStage ..
      · exact (performInstr_wf (by rwa [modHart_mem]) ..).headStage ..
      · exact hs

theorem drainFrom_wf (h n fuel : Nat) (stuck : List Nat) : (drainFrom h n fuel stuck s).All fun t => Memory.wf t.mem := by
  induction fuel generalizing stuck s with
  | zero => exact hs
  | succ fuel ih =>
    rw [drainFrom]
    dsimp only
    split
    · exact hs
    · split
      · exact hs
      · refine (performHead_wf (by rwa [noteTaken_mem]) ..).bind fun t ht => ?_
        rw [← completeHead_mem] at ht
        split
        · exact ih ht _
        · split
          · exact ht
          · exact ih ht _

theorem drainQ_wf (h n fuel : Nat) : (drainQ h n fuel s).All fun t => Memory.wf t.mem := drainFrom_wf hs ..

theorem drainAll_wf (h : Nat) : (s.drainAll h).All fun t => Memory.wf t.mem := drainFrom_wf hs ..

theorem queueFaultNow_wf (h : Nat) : Memory.wf (s.queueFaultNow h).mem := by
  unfold queueFaultNow
  extract_lets x s1
  have h1 : Memory.wf s1.mem := by simpa [s1] using hs
  clear_value s1
  split
  · exact failTask_wf (stopHart_wf h1 ..) ..
  · exact stopHart_wf h1 ..

theorem takeVectorFault_wf (h : Nat) : Memory.wf (s.takeVectorFault h).mem := by
  unfold takeVectorFault
  dsimp only
  split
  · exact hs
  · split
    · split
      · exact queueFaultNow_wf hs _
      · split
        · rwa [setHart_mem]
        · rwa [countCore_mem, setHart_mem]
    · exact hs

theorem finishHalted_wf (h : Nat) : (s.finishHalted h).All fun t => Memory.wf t.mem := by
  unfold finishHalted
  split
  · exact hs
  · refine (performHead_wf hs ..).bind fun t ht => ?_
    rw [← completeHead_mem] at ht
    dsimp only [Drive.All]
    split
    · exact stopHart_wf (by rwa [modHart_mem]) ..
    · exact ht

theorem failStep_wf (k : Nat) : (s.failStep k).All fun t => Memory.wf t.mem := by
  refine Drive.All.bind (p := fun t => Memory.wf t.mem) ?_ fun t ht => failDone_wf ht k
  exact List.foldlRecOn _ _ (motive := fun d : Drive => d.All fun t => Memory.wf t.mem) hs fun d hd h _ =>
    hd.bind fun t ht => finishHalted_wf ht h

end State
end Sys2Proof.Machine

namespace Sys2Proof.Machine

/-! Memory in an issue turn. -/

/-- The state of the result of an effect, and of a step, satisfies p. -/
def Res.All (p : State → Prop) : Res → Prop
  | .ok s => p s
  | .trap s _ => p s
  | .trapNext s _ => p s
  | .hold s => p s
  | .stop _ => True
def OutAll (p : State → Prop) : Out → Prop
  | .next s => p s
  | _ => True

theorem OutAll.next {p : State → Prop} {r : Out} (h : OutAll p r) {s : State} (e : r = .next s) : p s := by
  subst e; exact h

namespace State
variable (s : State)

@[simp] theorem countIssue_mem (core : Nat) (i : Instr) : (s.countIssue core i).mem = s.mem := countCore_mem ..
@[simp] theorem passed_mem (h : Nat) (i : Instr) (o : Fields) : (s.passed h i o).mem = s.mem := by
  rw [passed, countIssue_mem, modHart_mem]
@[simp] theorem issued_mem (h : Nat) (i : Instr) (o : Fields) : (s.issued h i o).mem = s.mem := by
  unfold issued
  dsimp only
  rw [countIssue_mem, modHart_mem]
@[simp] theorem waitHere_mem (h : Nat) : (s.waitHere h).mem = s.mem := modHart_mem ..
@[simp] theorem waitOver_mem (h : Nat) : (s.waitOver h).mem = s.mem := modHart_mem ..

end State

section Wf
variable {s : State} (hs : Memory.wf s.mem)
include hs

theorem State.settle_wf (h : Nat) : Memory.wf (s.settle h).mem := by
  unfold State.settle
  split
  · split
    · exact State.takeVectorFault_wf hs _
    · exact hs
  · exact hs

theorem State.backTo_wf (h : Nat) (pc : BitVec 48) (held : Bool) : Memory.wf (s.backTo h pc held).mem :=
  State.settle_wf (by rwa [State.modHart_mem]) _

theorem State.raise_wf (h : Nat) (pc : BitVec 48) {enter : State → State}
    (henter : ∀ t : State, Memory.wf t.mem → Memory.wf (enter t).mem) : OutAll (fun t => Memory.wf t.mem) (s.raise h pc enter) := by
  unfold State.raise
  extract_lets go
  have hgo {t : State} (ht : Memory.wf t.mem) : OutAll (fun t => Memory.wf t.mem) (go t) := by
    dsimp only [go, OutAll]
    split
    · exact State.backTo_wf ht ..
    · exact henter t ht
  clear_value go
  split
  · split
    · trivial
    · next e =>
      have ht := (State.drainAll_wf hs h).ok e
      split
      · exact State.backTo_wf ht ..
      · exact hgo ht
  · exact hgo hs

theorem sources_wf (h : Nat) (i : Instr) (o : Fields) {body : State → Res}
    (hbody : ∀ t : State, Memory.wf t.mem → (body t).All fun u => Memory.wf u.mem) :
    (sources h i o body s).All fun t => Memory.wf t.mem := by
  unfold sources
  extract_lets x wait
  have hwait : wait.All fun t => Memory.wf t.mem := by
    simp only [wait]
    split
    · exact State.drainAll_wf hs _
    · exact hs
  clear_value wait
  split
  · exact hs
  · split
    · trivial
    · next t =>
      have ht : Memory.wf t.mem := hwait
      dsimp only
      split
      · exact ht
      · split
        · exact ht
        · split
          · exact ht
          · exact hbody t ht

omit hs in
theorem finish_wf (h : Nat) (i : Instr) (o : Fields) (pc : BitVec 48) {r : Res} (hr : r.All fun t => Memory.wf t.mem) :
    OutAll (fun t => Memory.wf t.mem) (finish h i o pc r) := by
  cases r with
  | ok t => exact State.settle_wf (by rwa [State.issued_mem]) _
  | trap t tr => exact State.raise_wf hr _ _ fun u hu => by rwa [State.takeTrap_mem]
  | trapNext t tr => exact State.raise_wf hr _ _ fun u hu => by rwa [State.takeTrap_mem, State.issued_mem]
  | hold t => exact State.backTo_wf hr ..
  | stop f => trivial

theorem issue_wf (i : Instr) (o : Fields) {body : State → Res}
    (hbody : ∀ t : State, Memory.wf t.mem → (body t).All fun u => Memory.wf u.mem) :
    OutAll (fun t => Memory.wf t.mem) (issue i o body s) := by
  unfold issue
  extract_lets h x s1 due
  have h1 : Memory.wf s1.mem := by rwa [State.setHart_mem]
  have hheld : Memory.wf (s.takeHeld h).mem := by rwa [State.takeHeld_mem]
  clear_value s1
  split
  · exact finish_wf _ _ _ _ h1
  · split
    · split
      · exact hheld
      · exact finish_wf _ _ _ _ h1
    · exact State.settle_wf (by rwa [State.passed_mem]) _
    · split
      · exact hheld
      · exact finish_wf _ _ _ _ (sources_wf h1 _ _ _ hbody)

theorem scalarIssue_wf (i : Instr) (o : Fields) (f : Hart → Hart) : OutAll (fun t => Memory.wf t.mem) (scalarIssue i o f s) :=
  issue_wf hs i o fun t ht => by rwa [Res.All, State.modHart_mem]

theorem State.waitUntil_wf (h : Nat) (blocks : State → QEntry → List QEntry → Bool) {go : State → Res}
    (hgo : ∀ t : State, Memory.wf t.mem → (go t).All fun u => Memory.wf u.mem) :
    (s.waitUntil h blocks go).All fun t => Memory.wf t.mem := by
  unfold State.waitUntil
  split
  · exact hgo s hs
  · split
    · trivial
    · next e =>
      have ht := (State.drainQ_wf hs ..).ok e
      split
      · exact ht
      · exact hgo _ ht

theorem State.waitQueue_wf (h : Nat) {go : State → Res} (hgo : ∀ t : State, Memory.wf t.mem → (go t).All fun u => Memory.wf u.mem) :
    (s.waitQueue h go).All fun t => Memory.wf t.mem := State.waitUntil_wf hs _ _ hgo

theorem State.waitMemory_wf (h : Nat) (k : StripSide) (l : List Span) {go : State → Res}
    (hgo : ∀ t : State, Memory.wf t.mem → (go t).All fun u => Memory.wf u.mem) :
    (s.waitMemory h k l go).All fun t => Memory.wf t.mem := State.waitUntil_wf hs _ _ hgo

theorem State.waitAccesses_wf (h : Nat) {go : State → Res}
    (hgo : ∀ t : State, Memory.wf t.mem → (go t).All fun u => Memory.wf u.mem) :
    (s.waitAccesses h go).All fun t => Memory.wf t.mem := State.waitUntil_wf hs _ _ hgo

theorem State.askHub_wf (h hub : Nat) {go : State → Res} (hgo : ∀ t : State, Memory.wf t.mem → (go t).All fun u => Memory.wf u.mem) :
    (s.askHub h hub go).All fun t => Memory.wf t.mem := by
  unfold State.askHub
  split
  · exact hs
  · exact hgo _ (by rwa [State.exchange_mem])

theorem State.ill13_wf (q : PushIll) : (s.ill13 q).All fun t => Memory.wf t.mem := by
  unfold State.ill13
  dsimp only [Res.All]
  rwa [State.illegal_mem]

theorem pushBody_wf (i : Instr) (o : Fields) (check : Fields → Hart → Option PushIll) (caps : Hart → List Word)
    {atIssue : State → State} (hat : ∀ t : State, Memory.wf t.mem → Memory.wf (atIssue t).mem) :
    (pushBody i o check caps atIssue s).All fun t => Memory.wf t.mem := by
  unfold pushBody
  extract_lets h x n other room
  have hroom : room.All fun t => Memory.wf t.mem := by
    simp only [room]
    split
    · exact State.drainQ_wf hs ..
    · exact hs
  clear_value room
  split
  · trivial
  · next t =>
    have ht : Memory.wf t.mem := hroom
    dsimp only
    split
    · rwa [Res.All, State.modHart_mem]
    · split
      · exact State.ill13_wf ht _
      · split
        · trivial
        · next e => exact (State.drainQ_wf (hat _ (by rwa [State.pushEntry_mem])) ..).ok e

theorem vecIssue_wf (i : Instr) (o : Fields) (check : Fields → Hart → Option PushIll) :
    OutAll (fun t => Memory.wf t.mem) (vecIssue i o check s) :=
  issue_wf hs i o fun _ ht => pushBody_wf ht _ _ _ _ fun _ hu => hu

end Wf
end Sys2Proof.Machine

namespace Sys2Proof.Machine

/-! Memory in the copy and collective engines. -/

/-- The state of an engine's page, byte and line satisfies p. -/
def EngPage.All (p : State → Prop) : EngPage → Prop
  | .ok s _ _ => p s
  | _ => True
def EngRead.All (p : State → Prop) : EngRead → Prop
  | .ok s _ _ => p s
  | _ => True
def EngStep.All (p : State → Prop) : EngStep → Prop
  | .ok s => p s
  | _ => True

section
variable {p : State → Prop}

theorem EngPage.All.ok {r : EngPage} (h : r.All p) {s : State} {pa : Nat} {pte : Word} (e : r = .ok s pa pte) : p s := by
  subst e; exact h
theorem EngRead.All.ok {r : EngRead} (h : r.All p) {s : State} {b : Byte} {bad : Bool} (e : r = .ok s b bad) : p s := by
  subst e; exact h
theorem EngStep.All.ok {r : EngStep} (h : r.All p) {s : State} (e : r = .ok s) : p s := by
  subst e; exact h
theorem EngStep.All.of_not_ok {r : EngStep} (h : ∀ s, r ≠ .ok s) : r.All p := by
  cases r with
  | ok s => exact absurd rfl (h s)
  | _ => trivial
theorem EngRead.All.of_not_ok {r : EngRead} (h : ∀ s b bad, r ≠ .ok s b bad) : r.All p := by
  cases r with
  | ok s b bad => exact absurd rfl (h s b bad)
  | _ => trivial

/-- Bytes gathered one by one keep what each of them keeps. -/
theorem engGather_all {src : State → Nat → EngRead} (hsrc : ∀ s k, p s → (src s k).All p) (n k : Nat) {s : State} (hs : p s)
    (l : List (Byte × Bool)) : (engGather src n k s l).1.All p := by
  induction n generalizing s k l with
  | zero => exact hs
  | succ n ih =>
    rw [engGather]
    split
    · next e => exact ih _ ((hsrc s k hs).ok e) _
    · exact hsrc s k hs

theorem engGather_result {src : State → Nat → EngRead} {n k : Nat} {s : State} {l m : List (Byte × Bool)} {r : EngRead}
    (e : engGather src n k s l = (r, m)) (hs : p s) (hsrc : ∀ s k, p s → (src s k).All p) : r.All p := by
  have h := engGather_all hsrc n k hs l
  rwa [e] at h

end

namespace State
variable (s : State)

theorem engReach_mem (w : EngWho) (agent eng : Nat) (a : Word) (pa : Nat) (pte : Word) :
    ∀ t, s.engReach w agent eng a pa pte = .ok t → t.mem = s.mem := by
  intro t ht
  unfold engReach at ht
  dsimp only at ht
  cases he : s.confirmLine agent pte (lineOf pa) with
  | error k => rw [he] at ht; cases ht
  | ok u =>
    rw [he] at ht
    obtain rfl := Except.ok.inj ht
    rw [reply_mem, moveDir_mem, request_mem, unread_mem, confirmLine_mem s agent pte _ u he]

@[simp] theorem engServed_mem (agent eng : Nat) : (s.engServed agent eng).mem = s.mem := by
  simp [engServed, apply_ite State.mem]
@[simp] theorem engFinish_mem (agent eng : Nat) (f : Option EngFault) : (s.engFinish agent eng f).mem = s.mem := by
  unfold engFinish
  dsimp only
  rw [engineDone_mem, engServed_mem]
  split
  · rw [noteFault_mem]
  · rfl
@[simp] theorem engQueue_mem (agent eng : Nat) (key : Option Nat) : (s.engQueue agent eng key).mem = s.mem := by
  unfold engQueue
  split
  · rw [queueUp_mem]
  · rfl
@[simp] theorem takeOver_mem (agent eng : Nat) (asn : BitVec 16) (d : DestLine) : (s.takeOver agent eng asn d).mem = s.mem := by
  unfold takeOver
  split
  · simp
  · rfl
theorem accept_mem (agent eng room cost : Nat) (op : EngOp) : ∀ q ∈ s.accept agent eng room cost op, q.1.mem = s.mem := by
  unfold accept
  dsimp only
  split
  · nofun
  · intro q hq
    obtain rfl := Option.some.inj hq
    rw [foldl_mem (fun t d => takeOver_mem ..), setEngine_mem]
@[simp] theorem collFail_mem (agent : Nat) (c : BitVec 8) (tinfo : Word) : (s.collFail agent c tinfo).mem = s.mem := by
  rw [collFail, engFinish_mem, takeFree_mem]

end State

section Wf
variable {s : State} (hs : Memory.wf s.mem)
include hs

theorem State.engPage_wf (w : EngWho) (me : Nat) (dst : Bool) (a : Word) : (s.engPage w me dst a).All fun t => Memory.wf t.mem := by
  unfold State.engPage
  split
  · trivial
  · split
    · trivial
    · split
      · trivial
      · trivial
      · trivial
      · next e =>
        have ht := (State.translate_wf hs ..).ok e
        split
        · trivial
        · split
          · trivial
          · rwa [EngPage.All, State.leavePage_mem]

theorem State.engRead_wf (w : EngWho) (agent eng : Nat) (first : Bool) (a : Word) :
    (s.engRead w agent eng first a).All fun t => Memory.wf t.mem := by
  unfold State.engRead
  split
  · exact hs
  · split
    · trivial
    · trivial
    · next s1 pa pte e =>
      have h1 := (State.engPage_wf hs ..).ok e
      split
      · split
        · split
          · trivial
          · rwa [EngRead.All, State.exchange_mem]
        · trivial
      · dsimp only
        split
        · trivial
        · split
          · trivial
          · split
            · trivial
            · next t e2 =>
              refine show Memory.wf t.mem from ?_
              split at e2
              · rwa [s1.engReach_mem _ _ _ _ _ _ t e2]
              · rwa [← Except.ok.inj e2]

theorem State.engLane_wf (w : EngWho) (o : Nat) (bs : List (Byte × Bool)) : Memory.wf (s.engLane w o bs).mem := by
  unfold State.engLane
  dsimp only
  rw [State.laneWrite_mem]
  exact memPut_wf _ _ hs

theorem State.cfgWrites_wf (h off : Nat) (data : List Byte) (l : List Nat) :
    Memory.wf (l.foldl (fun t k => t.cfgWrite h (off + k) 1 ((data[k]?.getD 0).toNat)) s).mem :=
  foldl_wf (fun _ _ ht => State.cfgWrite_wf ht ..) _ hs

theorem State.engWrite_wf (w : EngWho) (agent eng : Nat) (a : Word) (bs : List (Byte × Bool)) :
    (s.engWrite w agent eng a bs).All fun t => Memory.wf t.mem := by
  unfold State.engWrite
  split
  · exact State.engLane_wf hs ..
  · split
    · trivial
    · trivial
    · next s1 pa _ e =>
      have h1 := (State.engPage_wf hs ..).ok e
      extract_lets hub line data s2
      have h2 : Memory.wf s2.mem := State.homeWrite_wf (by simpa using h1) ..
      clear_value s2
      split
      · split
        · split
          · trivial
          · exact State.cfgWrites_wf (by rwa [State.exchange_mem]) ..
        · trivial
      · split
        · trivial
        · split
          · trivial
          · split
            · trivial
            · rw [EngStep.All, State.reply_mem]
              split
              · rwa [State.countHub_mem, State.setPoison_mem]
              · exact h2

theorem State.engLine_wf (w : EngWho) (agent eng dst lo n : Nat) {src : State → Nat → EngRead}
    (hsrc : ∀ t k, Memory.wf t.mem → (src t k).All fun u => Memory.wf u.mem) :
    (s.engLine w agent eng dst lo n src).All fun t => Memory.wf t.mem := by
  unfold State.engLine
  split
  · next e =>
    have ht := (engGather_all hsrc n lo hs []).ok (congrArg Prod.fst e)
    split
    · next e2 =>
      rw [EngStep.All, State.engServed_mem]
      exact (State.engWrite_wf ht ..).ok e2
    · next hne => exact .of_not_ok hne
  all_goals trivial

theorem engSource_wf (agent eng : Nat) (op : EngOp) (lo j : Nat) : (engSource agent eng op lo s j).All fun t => Memory.wf t.mem := by
  unfold engSource
  dsimp only
  split
  · exact State.engRead_wf hs ..
  · split
    · next e =>
      have ht := engGather_result (p := fun t => Memory.wf t.mem) e hs fun t k ht => State.engRead_wf ht ..
      split
      · next e2 => exact (State.engRead_wf (by exact ht) ..).ok e2
      · next hne => exact .of_not_ok hne
    · next e => exact engGather_result (p := fun t => Memory.wf t.mem) e hs fun t k ht => State.engRead_wf ht ..
  · exact hs

theorem State.engNext_wf (agent eng : Nat) : ∀ r ∈ s.engNext agent eng, r.All fun t => Memory.wf t.mem := by
  unfold State.engNext
  dsimp only
  split
  · nofun
  · split
    · nofun
    · intro r hr
      split at hr
      · next e =>
        obtain rfl := Option.some.inj hr
        rw [EngStep.All, State.setEngine_mem]
        exact (State.engLine_wf hs _ _ _ _ _ _ fun t k ht => engSource_wf ht ..).ok e
      · next hne =>
        obtain rfl := Option.some.inj hr
        exact .of_not_ok hne

theorem State.engRun_wf (agent eng n : Nat) : (State.engRun agent eng n s).All fun t => Memory.wf t.mem := by
  induction n generalizing s with
  | zero => rwa [State.engRun, EngStep.All, State.engFinish_mem]
  | succ n ih =>
    rw [State.engRun]
    split
    · rwa [EngStep.All, State.engFinish_mem]
    · next e => exact ih (State.engNext_wf hs _ _ _ e)
    · rwa [EngStep.All, State.engFinish_mem]
    · rwa [EngStep.All, State.engQueue_mem]
    · trivial

theorem State.copyComplete_wf (agent eng : Nat) : (s.copyComplete agent eng).All fun t => Memory.wf t.mem := by
  unfold State.copyComplete
  split
  · trivial
  · rwa [EngStep.All, State.abandonedDone_mem]
  · exact State.engRun_wf hs ..
  · exact State.engRun_wf hs ..
  · trivial

theorem collLines_wf (agent : Nat) (w : EngWho) (dst : Nat) (bytes : List Byte) (bad : Nat → Bool) (n k : Nat) :
    (collLines agent w dst bytes bad n k s).All fun t => Memory.wf t.mem := by
  induction n generalizing s k with
  | zero => rwa [collLines, EngStep.All, State.engFinish_mem]
  | succ n ih =>
    rw [collLines]
    split
    · next e => exact ih ((State.engWrite_wf hs ..).ok e) _
    · rwa [EngStep.All, State.engFinish_mem]
    · next hne _ => exact .of_not_ok hne

theorem State.collComplete_wf (agent : Nat) (peers : List CollShare) : (s.collComplete agent peers).All fun t => Memory.wf t.mem := by
  unfold State.collComplete
  split
  · rwa [EngStep.All, State.abandonedDone_mem]
  · extract_lets others share who es own
    split
    · rwa [EngStep.All, State.collFail_mem]
    · split
      · trivial
      · split
        · rwa [EngStep.All, State.collFail_mem]
        · split
          · next e =>
            have ht := engGather_result (p := fun t => Memory.wf t.mem) e hs fun t k ht => State.engRead_wf ht ..
            dsimp only
            split
            · rwa [EngStep.All, State.engQueue_mem]
            · exact collLines_wf (by exact ht) ..
          · rwa [EngStep.All, State.engFinish_mem]
          · rwa [EngStep.All, State.engQueue_mem]
          · trivial
  · trivial

theorem acceptRes_wf (o : Fields) (agent eng room cost : Nat) (op : EngOp) :
    (acceptRes s o agent eng room cost op).All fun t => Memory.wf t.mem := by
  unfold acceptRes
  dsimp only
  split
  · exact hs
  · split
    · split
      · rwa [Res.All, State.queueUp_mem]
      · exact hs
    · next e =>
      have ht := State.accept_mem _ _ _ _ _ _ _ e
      rw [State.exchange_mem] at ht
      rwa [Res.All, State.modHart_mem, State.endHolds_mem, ht]

theorem acopyBody_wf (o : Fields) : (acopyBody o s).All fun t => Memory.wf t.mem := by
  unfold acopyBody
  refine State.waitMemory_wf hs _ _ _ fun t ht => ?_
  dsimp only
  split
  · exact ht
  · exact acceptRes_wf ht ..

theorem acopy2Body_wf (o : Fields) : (acopy2Body o s).All fun t => Memory.wf t.mem := by
  unfold acopy2Body
  refine State.waitMemory_wf hs _ _ _ fun t ht => ?_
  dsimp only
  split
  · exact ht
  · exact acceptRes_wf ht ..

theorem collBody_wf (o : Fields) : (collBody o s).All fun t => Memory.wf t.mem := by
  unfold collBody
  refine State.waitMemory_wf hs _ _ _ fun t ht => ?_
  extract_lets h x r w q n
  split
  · exact ht
  · split
    · rwa [Res.All, State.holdRead_mem]
    · trivial
    · exact ht
    · next e =>
      have h1 := (State.readBlock_wf ht ..).ok e
      dsimp only
      split
      · exact h1
      · split
        · exact h1
        · exact acceptRes_wf (by rwa [State.modHart_mem]) ..

theorem waittBody_wf (o : Fields) : (waittBody o s).All fun t => Memory.wf t.mem := by
  unfold waittBody waittLook
  dsimp only
  split
  · exact hs
  · split
    · split
      · rwa [Res.All, State.waitOver_mem, State.setEngine_mem]
      · rwa [Res.All, State.waitOver_mem]
    · split
      · rwa [Res.All, State.waitOver_mem]
      · split
        · rwa [Res.All, State.waitOver_mem]
        · rwa [Res.All, State.waitHere_mem]

end Wf
end Sys2Proof.Machine

namespace Sys2Proof.Machine

/-! Memory in control transfers, waits, counters, the causal fabric's events, special registers and fetch. -/

/-- The state of a byte and of a word fetched satisfies p. -/
def FetchByte.All (p : State → Prop) : FetchByte → Prop
  | .ok s _ => p s
  | _ => True
def Fetch.All (p : State → Prop) : Fetch → Prop
  | .ok s _ => p s
  | _ => True

theorem FetchByte.All.ok {p : State → Prop} {r : FetchByte} (h : r.All p) {s : State} {b : Byte} (e : r = .ok s b) : p s := by
  subst e; exact h
theorem Fetch.All.ok {p : State → Prop} {r : Fetch} (h : r.All p) {s : State} {w : BitVec 96} (e : r = .ok s w) : p s := by
  subst e; exact h

namespace State
variable (s : State)

@[simp] theorem unbind_mem (h : Nat) : (s.unbind h).mem = s.mem := by
  unfold unbind
  dsimp only
  split
  · rw [modHart_mem]
  · rw [setCore_mem, modHart_mem]
@[simp] theorem countNow_mem (e : EvCounter) : (s.countNow e).2.mem = s.mem := by
  unfold countNow
  split
  · rw [takeFree_mem]
  · rfl
@[simp] theorem setCounter_mem (x : Hart) (hub : Bool) (u n : Nat) (e : EvCounter) : (s.setCounter x hub u n e).mem = s.mem := by
  unfold setCounter
  split
  · rw [modHub_mem]
  · rw [modCore_mem]
@[simp] theorem keepLine_mem (core : Nat) (asn : BitVec 16) (pte : Word) (a pa : Nat) : (s.keepLine core asn pte a pa).mem = s.mem := by
  unfold keepLine
  split
  · rfl
  · rw [modCore_mem]
@[simp] theorem takeIrq_mem (h : Nat) : (s.takeIrq h).mem = s.mem := by
  unfold takeIrq
  split
  · split
    · rw [freeze_mem]
    · rfl
  · rfl
@[simp] theorem takePreempt_mem (h : Nat) : (s.takePreempt h).mem = s.mem := by
  unfold takePreempt
  split
  · split
    · rw [freeze_mem, modHart_mem, drainP, modHart_mem]
    · rfl
  · rfl
theorem boundary_mem (h : Nat) : ∀ t ∈ s.boundary h, t.mem = s.mem := by
  unfold boundary
  split
  · nofun
  · split
    · exact forall_mem_some (s.takeIrq_mem h)
    · split
      · exact forall_mem_some (s.takePreempt_mem h)
      · nofun

end State

theorem endIssue_mem (s : State) : (endIssue s).mem = s.mem := by
  unfold endIssue
  extract_lets h last
  have hlast : last.mem = s.mem := s.modHart_mem ..
  clear_value last
  split
  · exact hlast
  · split
    · exact hlast
    · split
      · exact hlast
      · split
        · exact hlast
        · rw [State.modTask_mem, State.modHart_mem]

section Wf
variable {s : State} (hs : Memory.wf s.mem)
include hs

theorem jumpTo_wf (a : BitVec 48) (f : Hart → Hart) : (jumpTo a f s).All fun t => Memory.wf t.mem := by
  unfold jumpTo
  split
  · exact hs
  · rwa [Res.All, State.modHart_mem]

theorem eretWait_wf (h : Nat) {go : State → Res} (hgo : ∀ t : State, Memory.wf t.mem → (go t).All fun u => Memory.wf u.mem) :
    (eretWait s h go).All fun t => Memory.wf t.mem := by
  unfold eretWait
  split
  · exact hgo s hs
  · split
    · trivial
    · next e =>
      have ht := (State.drainAll_wf hs h).ok e
      split
      · exact ht
      · exact hgo _ ht

theorem eretBody_wf : (eretBody s).All fun t => Memory.wf t.mem := by
  unfold eretBody
  dsimp only
  split
  · exact hs
  · refine eretWait_wf hs _ fun t ht => ?_
    split
    · next e => exact (State.drainQ_wf (by rwa [State.modHart_mem]) ..).ok e
    · trivial

theorem setvlBody_wf (o : Fields) : (setvlBody o s).All fun t => Memory.wf t.mem := by
  unfold setvlBody
  exact pushBody_wf hs _ _ _ _ fun t ht => by rwa [State.modHart_mem]

theorem endBody_wf (o : Fields) : (pushBody (.endI o) o (fun _ _ => none) (fun _ => []) endIssue s).All fun t => Memory.wf t.mem :=
  pushBody_wf hs _ _ _ _ fun t ht => by rwa [endIssue_mem]

theorem State.cancelTcb_wf (va : Word) (pa : Nat) : Memory.wf (s.cancelTcb va pa).1.mem := by
  unfold State.cancelTcb
  split
  · exact hs
  · exact hs
  · exact hs
  · exact hs
  · exact hs
  · rwa [State.takeFree_mem]
  · dsimp only
    exact State.endTask_wf hs ..

theorem taskcanBody_wf (o : Fields) : (taskcanBody o s).All fun t => Memory.wf t.mem := by
  unfold taskcanBody
  extract_lets h x a w
  split
  · exact hs
  · split
    · exact hs
    · split
      · exact hs
      · exact hs
      · rwa [Res.All, State.holdRead_mem]
      · next s1 pa pte e1 =>
        have h1 := (State.accessPage_wf hs ..).ok e1
        split
        · exact hs
        · split
          · exact hs
          · split
            · rwa [Res.All, State.holdRead_mem]
            · exact hs
            · next s2 e2 =>
              have h2 : Memory.wf s2.mem := by rwa [(State.accessLines_mem ..).ok e2]
              split
              · exact hs
              · rw [Res.All, State.modHart_mem]
                exact State.cancelTcb_wf (by rwa [State.endHolds_mem]) ..

theorem waitStep_wf (fin : Bool) (f : Hart → Hart) : (waitStep fin f s).All fun t => Memory.wf t.mem := by
  unfold waitStep
  split
  · rwa [Res.All, State.modHart_mem, State.waitOver_mem]
  · rwa [Res.All, State.waitHere_mem]

theorem waitbBody_wf (o : Fields) : (waitbBody o s).All fun t => Memory.wf t.mem := by
  unfold waitbBody
  dsimp only
  split
  · rwa [Res.All, State.waitOver_mem]
  · rwa [Res.All, State.modHart_mem, State.waitHere_mem]

theorem giveWord_wf (o : Fields) (v : State → Word) : (giveWord o v s).All fun t => Memory.wf t.mem := by
  rwa [giveWord, Res.All, State.modHart_mem]

theorem rdseqBody_wf (o : Fields) : (rdseqBody o s).All fun t => Memory.wf t.mem := by
  unfold rdseqBody
  dsimp only
  split
  · exact hs
  · split
    · exact hs
    · exact giveWord_wf hs ..

theorem waitseqBody_wf (o : Fields) : (waitseqBody o s).All fun t => Memory.wf t.mem := by
  unfold waitseqBody
  dsimp only
  split
  · exact hs
  · split
    · exact hs
    · exact waitStep_wf hs ..

theorem rdclkBody_wf (o : Fields) : (rdclkBody o s).All fun t => Memory.wf t.mem := by
  unfold rdclkBody
  dsimp only
  split
  · exact hs
  · exact giveWord_wf hs ..

theorem cresyncBody_wf (o : Fields) : (cresyncBody o s).All fun t => Memory.wf t.mem := by
  unfold cresyncBody
  refine State.waitAccesses_wf hs _ fun t ht => ?_
  dsimp only
  split
  · exact giveWord_wf (by rwa [State.waitOver_mem]) ..
  · split
    · exact giveWord_wf (by rwa [State.waitOver_mem, State.resyncDone_mem]) ..
    · rwa [Res.All, State.modHart_mem]

theorem evselBody_wf (o : Fields) : (evselBody o s).All fun t => Memory.wf t.mem := by
  unfold evselBody
  dsimp only
  split
  · exact hs
  · rwa [Res.All, State.setCounter_mem, State.countNow_mem]

theorem evrdBody_wf (o : Fields) : (evrdBody o s).All fun t => Memory.wf t.mem := by
  unfold evrdBody
  dsimp only
  split
  · exact hs
  · split
    · exact hs
    · exact giveWord_wf (by rwa [State.countNow_mem]) ..

theorem specialWait_wf (o : Fields) {go : State → Res} (hgo : ∀ t : State, Memory.wf t.mem → (go t).All fun u => Memory.wf u.mem) :
    (specialWait o s go).All fun t => Memory.wf t.mem := by
  unfold specialWait
  split
  · exact State.waitQueue_wf hs _ fun t ht => hgo _ (by rwa [State.modHart_mem])
  · exact hgo s hs

theorem tfenceBody_wf : (tfenceBody s).All fun t => Memory.wf t.mem := by
  unfold tfenceBody
  refine State.waitQueue_wf hs _ fun t ht => ?_
  dsimp only
  split
  · rwa [Res.All, State.modHart_mem]
  · rwa [Res.All, State.modHart_mem]

theorem vqreplayBody_wf (o : Fields) : (vqreplayBody o s).All fun t => Memory.wf t.mem := by
  unfold vqreplayBody
  refine State.waitQueue_wf hs _ fun t ht => ?_
  extract_lets u x a n q
  have hu : Memory.wf u.mem := by rwa [State.modHart_mem]
  clear_value u
  split
  · exact hu
  · split
    · exact State.asnFault_wf hu ..
    · rwa [Res.All, State.modHart_mem]

theorem State.fetchByte_wf (h a : Nat) : (s.fetchByte h a).All fun t => Memory.wf t.mem := by
  unfold State.fetchByte
  extract_lets x w
  split
  · trivial
  · split
    · split
      · trivial
      · exact hs
    · split
      · trivial
      · trivial
      · trivial
      · next s1 pa pte e1 =>
        have h1 := (State.hitOrPage_wf hs ..).ok e1
        split
        · trivial
        · split
          · split
            · trivial
            · split
              · trivial
              · split
                · next e2 => exact show Memory.wf _ by rwa [(State.leaveDie_mem ..).ok e2]
                · trivial
                · trivial
          · split
            · trivial
            · split
              · trivial
              · next s2 e2 =>
                have h2 : Memory.wf s2.mem := by
                  split at e2
                  · rwa [← Except.ok.inj e2]
                  · rwa [State.confirmLine_mem _ _ _ _ _ e2]
                dsimp only
                split
                · trivial
                · trivial
                · next s3 e3 =>
                  have h3 : Memory.wf s3.mem := by
                    rw [(State.accessLines_mem ..).ok e3]
                    split
                    · rwa [State.unread_mem]
                    · exact h2
                  split
                  · trivial
                  · refine show Memory.wf _ from ?_
                    split
                    · rwa [State.keepLine_mem]
                    · exact h3

theorem fetchBytes_wf (h n a : Nat) (l : List Byte) : (fetchBytes h n a s l).1.All fun t => Memory.wf t.mem := by
  induction n generalizing s a l with
  | zero => exact hs
  | succ n ih =>
    rw [fetchBytes]
    split
    · next e => exact ih ((State.fetchByte_wf hs ..).ok e) ..
    · exact State.fetchByte_wf hs ..

theorem State.fetch_wf (h : Nat) : (s.fetch h).All fun t => Memory.wf t.mem := by
  have hb := fetchBytes_wf hs h 12 (s.hart h).pc.toNat []
  rw [State.fetch]
  generalize fetchBytes h 12 (s.hart h).pc.toNat s [] = r at hb
  generalize s.failingByte h (s.hart h).pc.toNat = failing
  obtain ⟨r, l⟩ := r
  cases r with
  | ok t b => exact hb
  | stop => trivial
  | page => cases failing <;> trivial
  | poison => cases failing <;> trivial
  | held key => cases failing <;> trivial
  | lost c i => cases failing <;> trivial
  | priv => cases failing <;> trivial

end Wf
end Sys2Proof.Machine

namespace Sys2Proof.Machine

/-! Memory in the view catalogue. -/

/-- The state of pages found for a registration satisfies p. -/
def RegMap.All (p : State → Prop) : RegMap → Prop
  | .ok s _ => p s
  | _ => True

namespace State
variable (s : State)

@[simp] theorem addReg_mem (r : ViewReg) : (s.addReg r).mem = s.mem := by
  unfold addReg
  dsimp only
  rw [foldl_mem (fun t b => modHub_mem ..), recallWhere_mem]
@[simp] theorem serveReads_mem (r : ViewReg) (who : HeldRead → Bool) (flag : BitVec 8) : (s.serveReads r who flag).mem = s.mem := rfl
@[simp] theorem dropReg_mem (n : Nat) (r : ViewReg) : (s.dropReg n r).mem = s.mem := rfl
@[simp] theorem leaveCurator_mem (hub : Nat) : (s.leaveCurator hub).mem = s.mem := by
  simp [leaveCurator]

end State

section Wf
variable {s : State} (hs : Memory.wf s.mem)
include hs

theorem mapGranules_wf (w : Who) (store : Bool) (gs : List Nat) (l : Table (Nat × Word)) :
    (mapGranules w store gs s l).All fun t => Memory.wf t.mem := by
  induction gs generalizing s l with
  | nil => exact hs
  | cons g gs ih =>
    rw [mapGranules]
    split
    · trivial
    · split
      · trivial
      · trivial
      · trivial
      · next e => exact ih ((State.accessPage_wf hs ..).ok e) _

theorem RegMap.bind_wf {m : RegMap} (hm : m.All fun t => Memory.wf t.mem) {go : State → Table (Nat × Word) → Res}
    (hgo : ∀ (t : State) l, Memory.wf t.mem → (go t l).All fun u => Memory.wf u.mem) :
    (m.bind s go).All fun t => Memory.wf t.mem := by
  cases m with
  | ok t l => exact hgo t l hm
  | trap t => exact hs
  | hold k => rwa [RegMap.bind, Res.All, State.holdRead_mem]

theorem viewregFinish_wf (r : ViewReg) (a : Word) (kinds : Bool) : (viewregFinish r a kinds s).All fun t => Memory.wf t.mem := by
  unfold viewregFinish
  split
  · exact hs
  · split
    · exact hs
    · exact State.askHub_wf hs _ _ fun t ht => by rwa [Res.All, State.addReg_mem, State.endHolds_mem]

theorem viewregFormat_wf (w : Who) (r : ViewReg) (a : Word) (lm lv : Table (Nat × Word)) :
    (viewregFormat w r a lm lv s).All fun t => Memory.wf t.mem := by
  unfold viewregFormat
  extract_lets frec same frames
  split
  · exact hs
  · exact hs
  · rwa [Res.All, State.holdRead_mem]
  · next s1 x e =>
    have h1 : Memory.wf s1.mem := by rwa [(State.readRecord_mem ..).ok e, State.drawPick_mem]
    dsimp only
    split
    · exact hs
    · exact RegMap.bind_wf hs (mapGranules_wf h1 ..) fun t l ht => viewregFinish_wf ht ..

theorem viewregBody_wf (o : Fields) : (viewregBody o s).All fun t => Memory.wf t.mem := by
  unfold viewregBody
  refine State.waitAccesses_wf hs _ fun t ht => ?_
  extract_lets h x a w
  split
  · exact ht
  · split
    · rwa [Res.All, State.holdRead_mem]
    · trivial
    · exact ht
    · next s0 d _ e =>
      have h0 := (State.readBlock_wf ht ..).ok e
      dsimp only
      split
      · exact h0
      · refine RegMap.bind_wf h0 (mapGranules_wf h0 ..) fun s1 lm h1 => ?_
        refine RegMap.bind_wf h0 (mapGranules_wf h1 ..) fun s2 lv h2 => ?_
        split
        · exact viewregFormat_wf h2 ..
        · split
          · exact RegMap.bind_wf h0 (mapGranules_wf h2 ..) fun s3 lt h3 => viewregFinish_wf h3 ..
          · exact viewregFinish_wf h2 ..

theorem State.curatorPut_wf (pa : Nat) (bs : List Byte) : Memory.wf (s.curatorPut pa bs).mem := by
  unfold State.curatorPut
  split
  · rw [State.write_mem, State.recallLine_mem]
    exact memPut_wf _ _ hs
  · exact State.homeWrite_wf (by rwa [State.useGot_mem, State.moveDir_mem]) ..

theorem State.tagWord_wf (hub : Nat) (r : ViewReg) (b : Nat) (tag : BitVec 16) (bad : Bool) :
    Memory.wf (s.tagWord hub r b tag bad).mem := by
  unfold State.tagWord
  split
  · rw [State.write_mem, State.recallLine_mem]
    exact memPut_wf _ _ hs
  · exact hs

theorem State.derivPublish_wf (hub : Nat) : Memory.wf (s.derivPublish hub).mem := by
  unfold State.derivPublish
  split
  · exact hs
  · split
    · rwa [State.modHub_mem]
    · next d _ r _ =>
      extract_lets out places tag waits lines stores vas s0 cause ok put s1 s2 x y s3
      have h0 : Memory.wf s0.mem := by
        rwa [show s0.mem = s.mem from (foldl_mem (fun t va => noteWalk_mem ..) vas _).trans (s.leaveCurator_mem hub)]
      have hput (t : State) (q : CuratorAt × List Byte) (ht : Memory.wf t.mem) : Memory.wf (put t q).mem := by
        simp only [put]
        split
        · exact State.curatorPut_wf ht ..
        · exact ht
      clear_value put s0
      have h1 : Memory.wf s1.mem := by
        simp only [s1]
        split
        · exact foldl_wf (fun t q ht => hput t q ht) _ (by rwa [State.sendHomes_mem])
        · exact h0
      clear_value s1
      have h2 : Memory.wf s2.mem := by
        simp only [s2]
        split
        · exact State.tagWord_wf h1 ..
        · exact h1
      clear_value s2 waits
      split
      · exact hs
      · split
        · rwa [State.queueUp_mem]
        · rwa [State.countHub_mem, State.serveReads_mem, State.modHub_mem]

theorem State.endDerivs_wf (n : Nat) : Memory.wf (s.endDerivs n).mem := by
  unfold State.endDerivs
  refine foldl_wf (fun t hub ht => ?_) _ hs
  split
  · split
    · exact State.derivPublish_wf ht _
    · exact ht
  · exact ht

theorem viewdelBody_wf (o : Fields) : (viewdelBody o s).All fun t => Memory.wf t.mem := by
  unfold viewdelBody
  refine State.waitAccesses_wf hs _ fun t ht => ?_
  dsimp only
  split
  · exact ht
  · next n r _ =>
    have hend := State.endDerivs_wf ht n
    generalize t.endDerivs n = u at hend ⊢
    split
    · exact hend
    · exact State.askHub_wf hend _ _ fun u hu => by rwa [Res.All, State.dropReg_mem]

theorem syncStep_wf (o : Fields) (a : Word) (tag : BitVec 16) (bad ready : Bool) :
    (syncStep o a tag bad ready s).All fun t => Memory.wf t.mem := by
  unfold syncStep
  dsimp only
  split
  · exact hs
  · split
    · rwa [Res.All, State.waitOver_mem, State.endHolds_mem]
    · split
      · exact hs
      · rwa [Res.All, State.modHart_mem]

theorem viewAsk_wf (o : Fields) {go : State → Nat → (State → State) → Res}
    (hgo : ∀ (t : State) (pa : Nat) (ask : State → State), Memory.wf t.mem → (∀ u, (ask u).mem = u.mem) →
      (go t pa ask).All fun u => Memory.wf u.mem) : (viewAsk o s go).All fun t => Memory.wf t.mem := by
  unfold viewAsk
  dsimp only
  split
  · exact hs
  · split
    · exact hs
    · exact hs
    · rwa [Res.All, State.holdRead_mem]
    · next e =>
      have h1 := (State.accessPage_wf hs ..).ok e
      split
      · exact hs
      · split
        · exact h1
        · exact hgo _ _ _ h1 fun u => by rw [State.travel_mem, State.endHolds_mem]

theorem viewsyncBody_wf (o : Fields) : (viewsyncBody o s).All fun t => Memory.wf t.mem := by
  unfold viewsyncBody
  dsimp only
  split
  · exact hs
  · refine viewAsk_wf hs _ fun t pa ask ht hask => ?_
    split
    · exact ht
    · next reg b _ =>
      have hsync := syncStep_wf ht o ((s.hart s.cur).reg o.a.toNat) (t.block reg b).tag (t.block reg b).p
        ((t.block reg b).st == .fresh)
      generalize syncStep o _ _ _ _ t = r at hsync
      cases r with
      | ok u => rwa [Res.All, hask]
      | hold u => rwa [Res.All, State.modHart_mem]
      | trap u t => exact hsync
      | trapNext u t => exact hsync
      | stop f => trivial

theorem viewsyncTwBody_wf (o : Fields) : (viewsyncTwBody o s).All fun t => Memory.wf t.mem := by
  unfold viewsyncTwBody
  dsimp only
  split
  · exact hs
  · split
    · exact hs
    · rwa [Res.All, State.holdRead_mem]
    · trivial
    · next e => exact syncStep_wf ((State.atomicEl_wf hs ..).ok e) ..

theorem viewstatBody_wf (o : Fields) : (viewstatBody o s).All fun t => Memory.wf t.mem := by
  unfold viewstatBody
  refine State.waitMemory_wf hs _ _ _ fun t ht => ?_
  exact viewAsk_wf ht _ fun u pa ask hu hask => by rwa [Res.All, State.modHart_mem, hask]

theorem viewstatDBody_wf (o : Fields) : (viewstatDBody o s).All fun t => Memory.wf t.mem := by
  unfold viewstatDBody
  refine State.waitMemory_wf hs _ _ _ fun t ht => ?_
  extract_lets h x a b q hub
  split
  · exact ht
  · split
    · exact ht
    · rwa [Res.All, State.modHart_mem, State.exchange_mem]

end Wf
end Sys2Proof.Machine

namespace Sys2Proof.Machine

/-! Memory in the events of harts and cores, and in invalidations, bias flips and migrations. -/

namespace State
variable (s : State)

@[simp] theorem countCycles_mem (n : Nat) : (s.countCycles n).mem = s.mem := rfl
@[simp] theorem tick_mem (n : Nat) : (s.tick n).mem = s.mem := by
  simp [tick, refill, apply_ite State.mem]
@[simp] theorem release_mem (h : Nat) : (s.release h).mem = s.mem := modHart_mem ..
@[simp] theorem dropBlockSnaps_mem (f : BlockSnap → Bool) : (s.dropBlockSnaps f).mem = s.mem := rfl
@[simp] theorem purgeAll_mem (c : InvScope) : (s.purgeAll c).mem = s.mem := by
  unfold purgeAll
  dsimp only
  rw [dropBlockSnaps_mem]
  exact recallWhere_mem ..
@[simp] theorem invalidate_mem (c : InvScope) : (s.invalidate c).mem = s.mem := by
  unfold invalidate
  dsimp only
  split
  · rw [purgeAll_mem]
  · rfl
@[simp] theorem flipStep_mem (g : Nat) : (s.flipStep g).mem = s.mem := by
  unfold flipStep
  split
  · rfl
  · extract_lets ended s1
    split
    · split
      · rfl
      · exact recallWhere_mem ..
    · split <;> rfl
@[simp] theorem dropPage_mem (asn : BitVec 16) (va n : Nat) : (s.dropPage asn va n).mem = s.mem := rfl
@[simp] theorem setMig_mem (hub : Nat) (op : EngOp) : (s.setMig hub op).mem = s.mem := setEngine_mem ..
@[simp] theorem moveFrame_mem (frame bits newPa : Nat) : (s.moveFrame frame bits newPa).mem = s.mem := rfl

theorem copyFrame_mem (hub src dst n : Nat) : (s.copyFrame hub src dst n).mem = copyCells s.mem src dst n := by
  unfold copyFrame
  dsimp only
  rw [recallWhere_mem, foldl_mem hbmUse_mem, askHomes_mem]

end State

section Wf
variable {s : State} (hs : Memory.wf s.mem)
include hs

omit hs in
theorem Drive.All.out {d : Drive} (h : d.All fun t => Memory.wf t.mem) : OutAll (fun t => Memory.wf t.mem) d.out := by
  cases d with
  | ok t => exact h
  | stop f => trivial

theorem drainRelease_wf (h : Nat) :
    OutAll (fun t => Memory.wf t.mem) ((s.drainAll h).bind fun t => .ok ((t.settle h).release h)).out :=
  Drive.All.out <| (State.drainAll_wf hs h).bind fun t ht => by
    rw [Drive.All, State.release_mem]
    exact State.settle_wf ht _

theorem execQueueEntryStart_wf (core steps : Nat) : OutAll (fun t => Memory.wf t.mem) (execQueueEntryStart core steps s) := by
  unfold execQueueEntryStart
  split
  · exact hs
  · exact Drive.All.out (State.performHead_wf (by rwa [State.noteTaken_mem]) ..)

theorem execQueueFault_wf (h : Nat) : OutAll (fun t => Memory.wf t.mem) (execQueueFault h s) := by
  unfold execQueueFault
  split
  · rw [OutAll]
    split
    · exact State.settle_wf hs _
    · exact hs
  · exact hs

theorem execPreempt_wf (h requester : Nat) : OutAll (fun t => Memory.wf t.mem) (execPreempt h requester s) := by
  unfold execPreempt
  extract_lets x t
  have ht : Memory.wf t.mem := by
    simp only [t]
    split
    · exact hs
    · rwa [State.modHart_mem]
  clear_value t
  split
  · exact hs
  · exact getD_wf ht fun u hu => by rwa [t.boundary_mem h u hu]

theorem State.bringLine_wf (h k : Nat) : Memory.wf (s.bringLine h k).mem := by
  unfold State.bringLine
  split
  · exact hs
  · have ht := State.fillLine_wf hs h k
    generalize s.fillLine h k = t at ht
    dsimp only
    split
    · exact State.asnFault_wf ht ..
    · exact ht

theorem State.bringLines_wf (h : Nat) : Memory.wf (s.bringLines h).mem := foldl_wf (fun _ _ ht => State.bringLine_wf ht ..) _ hs

theorem execRegstoreFill_wf (h line : Nat) : OutAll (fun t => Memory.wf t.mem) (execRegstoreFill h line s) := by
  unfold execRegstoreFill
  rw [OutAll]
  split
  · exact hs
  · exact State.bringLine_wf hs ..

theorem execBudgetCharge_wf (h : Nat) : OutAll (fun t => Memory.wf t.mem) (execBudgetCharge h s) := by
  unfold execBudgetCharge
  dsimp only
  split
  · split
    · exact hs
    · exact Drive.All.out <| (State.performHead_wf (by rwa [State.noteTaken_mem]) ..).bind fun t ht => by
        rwa [Drive.All, State.completeHead_mem]
  · exact hs

theorem execGovernorUpdate_wf (die : Nat) (rate : BitVec 12) : OutAll (fun t => Memory.wf t.mem) (execGovernorUpdate die rate s) := by
  unfold execGovernorUpdate
  split <;> exact hs

theorem State.lookAgain_wf (h : Nat) {pick : Instr → Option (State → Out)}
    (hpick : ∀ i, ∀ f ∈ pick i, ∀ t : State, Memory.wf t.mem → OutAll (fun u => Memory.wf u.mem) (f t)) :
    OutAll (fun t => Memory.wf t.mem) (s.lookAgain h pick) := by
  unfold State.lookAgain
  split
  · exact hs
  · split
    · next f e =>
      obtain ⟨i, -, hi⟩ := Option.bind_eq_some_iff.mp e
      exact hpick i f hi _ hs
    · exact hs

theorem execPromiseMissed_wf (h : Nat) : OutAll (fun t => Memory.wf t.mem) (execPromiseMissed h s) := by
  refine State.lookAgain_wf hs _ fun i f hf t ht => ?_
  split at hf
  · split at hf
    · obtain rfl := Option.some.inj hf
      exact issue_wf ht _ _ fun _ hu => waittBody_wf hu _
    · cases hf
  · cases hf

theorem execViewsyncTimeout_wf (h : Nat) : OutAll (fun t => Memory.wf t.mem) (execViewsyncTimeout h s) := by
  refine State.lookAgain_wf hs _ fun i f hf t ht => ?_
  split at hf
  · cases hf
  · split at hf
    · obtain rfl := Option.some.inj hf
      exact issue_wf ht _ _ fun _ hu => viewsyncBody_wf hu _
    · obtain rfl := Option.some.inj hf
      exact issue_wf ht _ _ fun _ hu => viewsyncTwBody_wf hu _
    · cases hf

theorem execSleepTimeout_wf (h : Nat) : OutAll (fun t => Memory.wf t.mem) (execSleepTimeout h s) := by
  refine State.lookAgain_wf hs _ fun i f hf t ht => ?_
  split at hf
  · split at hf
    · obtain rfl := Option.some.inj hf
      exact issue_wf ht _ _ fun _ hu => waitStep_wf hu ..
    · cases hf
  · cases hf

theorem execViewRead_wf (h : Nat) : OutAll (fun t => Memory.wf t.mem) (execViewRead h s) := by
  unfold execViewRead
  split
  · exact hs
  · exact drainRelease_wf hs _

theorem execWaitUnbind_wf (h : Nat) : OutAll (fun t => Memory.wf t.mem) (execWaitUnbind h s) := by
  unfold execWaitUnbind
  dsimp only
  split
  · rwa [OutAll, State.countCore_mem, State.unbind_mem]
  · exact hs

theorem execWaitRebind_wf (h : Nat) : OutAll (fun t => Memory.wf t.mem) (execWaitRebind h s) := by
  unfold execWaitRebind
  split
  · exact getD_wf hs (State.rebind_wf hs h)
  · exact hs

theorem State.announce_wf (h : Nat) {f : State → State} (hf : ∀ t, (f t).mem = t.mem) :
    (s.announce h f).All fun t => Memory.wf t.mem := by
  unfold State.announce
  split
  · exact hs
  · rwa [Res.All, State.broadcast_mem _ hf]

theorem clbinvBody_wf (o : Fields) (root : Hart → Option Word) : (clbinvBody o root s).All fun t => Memory.wf t.mem := by
  unfold clbinvBody
  refine State.waitAccesses_wf hs _ fun t ht => ?_
  dsimp only
  split
  · exact State.announce_wf ht _ fun _ => rfl
  · exact ht

theorem mtlbinvBody_wf (f : Hart → InvScope) : (mtlbinvBody f s).All fun t => Memory.wf t.mem := by
  unfold mtlbinvBody
  refine State.waitAccesses_wf hs _ fun t ht => ?_
  dsimp only
  split
  · exact ht
  · exact State.announce_wf ht _ fun u => u.invalidate_mem _

theorem frecinvBody_wf (o : Fields) (all : Bool) : (frecinvBody o all s).All fun t => Memory.wf t.mem := by
  unfold frecinvBody
  refine State.waitAccesses_wf hs _ fun t ht => ?_
  refine State.announce_wf ht _ fun u => ?_
  dsimp only
  split <;> rfl

theorem biassetFlip_wf (o : Fields) (toHost : Bool) (g : Nat) : (biassetFlip o toHost g s).All fun t => Memory.wf t.mem := by
  unfold biassetFlip
  extract_lets h mine give
  have hgive {t : State} (ht : Memory.wf t.mem) (b : Bool) : (give t b).All fun u => Memory.wf u.mem := by
    simp only [give]
    rwa [Res.All, State.modHart_mem]
  clear_value give
  split
  · exact hgive (by exact hs) _
  · split
    · exact hs
    · split
      · exact hgive hs _
      · exact State.askHub_wf hs _ _ fun t ht => ht

theorem biassetBody_wf (o : Fields) (toHost : Bool) : (biassetBody o toHost s).All fun t => Memory.wf t.mem := by
  unfold biassetBody
  dsimp only
  split
  · exact hs
  · split
    · exact hs
    · split
      · exact hs
      · exact State.waitAccesses_wf hs _ fun t ht => biassetFlip_wf ht ..

theorem pmigBody_wf (o : Fields) : (pmigBody o s).All fun t => Memory.wf t.mem := by
  unfold pmigBody
  extract_lets h r asn va note
  have hnote (t : State) : (note t).mem = t.mem := by
    simp only [note]
    split
    · rw [State.noteWalk_mem]
    · rfl
  clear_value note
  split
  · exact hs
  · split
    · rwa [Res.All, hnote]
    · refine State.waitAccesses_wf hs _ fun t ht => ?_
      extract_lets hub e
      split
      · split
        · exact ht
        · exact State.askHub_wf ht _ _ fun u hu => by rwa [Res.All, State.modHart_mem, State.setEngine_mem, hnote]
      · exact ht

theorem State.hubStore_wf (hub pa : Nat) (bs : List Byte) : Memory.wf (s.hubStore hub pa bs).mem :=
  State.homeWrite_wf (by rwa [State.takeHome_mem, State.askHomes_mem]) ..

theorem State.copyFrame_wf (hub src dst n : Nat) : Memory.wf (s.copyFrame hub src dst n).mem := by
  rw [State.copyFrame_mem]
  exact copyCells_wf _ _ _ hs

theorem State.migStart_wf (hub : Nat) : Memory.wf (s.migStart hub).mem := by
  unfold State.migStart
  have hq (me key : Nat) : Memory.wf (s.queueUp me key).mem := by rwa [State.queueUp_mem]
  split
  · split
    · exact hs
    · split
      · exact hq ..
      · exact hq ..
      · next m _ _ _ _ pte n pa _ =>
        extract_lets frame inside s0 s1 s2 s3
        have h1 : Memory.wf s1.mem := State.hubStore_wf (by rwa [State.leaveAll_mem, State.noteWalk_mem]) ..
        clear_value s1
        have h2 : Memory.wf s2.mem := by rwa [State.recallWhere_mem]
        clear_value s2
        split
        · exact hq ..
        · exact hq ..
        · split
          · exact hs
          · rwa [State.setMig_mem]
      · rwa [State.setMig_mem, State.noteWalk_mem]
  · exact hs

theorem State.migEnd_wf (hub : Nat) : Memory.wf (s.migEnd hub).mem := by
  unfold State.migEnd
  split
  · next m _ _ =>
    split
    · exact hs
    · split
      · rwa [State.queueUp_mem]
      · extract_lets pte rest s0 s1 s2 s3
        have h0 : Memory.wf s0.mem := by rwa [State.leaveAll_mem]
        clear_value s0
        have h1 : Memory.wf s1.mem := by
          simp only [s1]
          split
          · exact h0
          · exact State.copyFrame_wf h0 ..
        clear_value s1
        have h2 : Memory.wf s2.mem := by
          simp only [s2]
          split
          · exact State.hubStore_wf (by rwa [State.moveFrame_mem]) ..
          · exact State.hubStore_wf h1 ..
        clear_value s2
        dsimp only
        split
        · rwa [State.abandonedDone_mem]
        · rwa [State.setMig_mem]
  · exact hs

theorem State.migRecord_wf (hub : Nat) : Memory.wf (s.migRecord hub).mem := by
  unfold State.migRecord
  split
  · next status hasn w0 w1 _ _ =>
    extract_lets finish
    have hfin {t : State} (ht : Memory.wf t.mem) : Memory.wf (finish t).mem := by
      simp only [finish]
      rwa [State.engineDone_mem, State.leaveAll_mem]
    clear_value finish
    have htr := State.translate_wf hs hasn true .store status
    generalize s.translate hasn true .store status = r at htr
    split
    · exact hfin hs
    · split
      · rwa [State.queueUp_mem]
      · next t pa _ _ =>
        have ht : Memory.wf t.mem := htr
        split
        · exact hfin ht
        · split
          · rwa [State.queueUp_mem]
          · exact hfin (State.hubStore_wf ht ..)
      · rwa [State.queueUp_mem]
      · exact hfin (by rwa [State.noteWalk_mem])
  · exact hs

theorem State.migFail_wf (hub outcome : Nat) (cause : BitVec 8) (line : Nat) : Memory.wf (s.migFail hub outcome cause line).mem := by
  unfold State.migFail
  split
  · split
    · exact State.migEnd_wf (by rwa [State.setMig_mem]) _
    · exact hs
  · exact hs

theorem State.migComplete_wf (hub : Nat) : Memory.wf (s.migComplete hub).mem := by
  unfold State.migComplete
  split
  · split
    · exact State.migRecord_wf (State.migFail_wf hs ..) _
    · exact State.migRecord_wf (State.migEnd_wf hs _) _
  · rwa [State.abandonedDone_mem]
  · exact State.migRecord_wf hs _

theorem State.migError_wf (line : Nat) : Memory.wf (s.migError line).mem := by
  unfold State.migError
  split
  · exact State.migFail_wf hs ..
  · exact hs

end Wf
end Sys2Proof.Machine

namespace Sys2Proof.Machine

/-! Memory in the events of the directory, engines, the host's port and errors. -/

/-- The state of a directory request and of a host's access satisfies p. -/
def LineEnd.All (p : State → Prop) : LineEnd → Prop
  | .ok s => p s
  | _ => True
def HostEnd.All (p : State → Prop) : HostEnd → Prop
  | .ok s => p s
  | _ => True

theorem LineEnd.All.ok {p : State → Prop} {r : LineEnd} (h : r.All p) {s : State} (e : r = .ok s) : p s := by
  subst e; exact h
theorem HostEnd.All.ok {p : State → Prop} {r : HostEnd} (h : r.All p) {s : State} (e : r = .ok s) : p s := by
  subst e; exact h

theorem HostEnd.All.imp {p q : State → Prop} {r : HostEnd} (h : r.All p) (hi : ∀ s, p s → q s) : r.All q := by
  cases r with
  | ok s => exact hi s h
  | wait k => trivial

/-- A state taken where there is one, else another that may be, keeps memory canonical where both do. -/
theorem orElse_wf {o : Option State} {q : Unit → Option State} (ho : ∀ t ∈ o, Memory.wf t.mem) (hq : ∀ t ∈ q (), Memory.wf t.mem) :
    ∀ t ∈ o.orElse q, Memory.wf t.mem := by
  cases o with
  | none => exact hq
  | some u => exact ho

namespace State
variable (s : State)

@[simp] theorem addFill_mem (die line : Nat) : (s.addFill die line).mem = s.mem := by
  unfold addFill
  split <;> rfl
@[simp] theorem victimServe_mem (line die : Nat) : (s.victimServe line die).mem = s.mem := by
  unfold victimServe
  extract_lets owner s1 bad s2
  split
  · rfl
  · rw [setDir_mem, plainCopy_mem]
    split
    · rw [countHub_mem, setPoison_mem]
    · rw [setPoison_mem]
theorem victimMove_mem : ∀ t ∈ s.victimMove, t.mem = s.mem := by
  unfold victimMove
  intro t ht
  obtain ⟨v, -, hv⟩ := List.exists_of_findSome?_eq_some ht
  obtain ⟨k, -, hk⟩ := Option.bind_eq_some_iff.1 hv
  split at hk
  · cases hk
  · obtain rfl := Option.some.inj hk
    rw [victimServe_mem, endPlace_mem]
@[simp] theorem dropPosted_mem (h : Nat) {f : State → State} (hf : ∀ t, (f t).mem = t.mem) : (s.dropPosted h f).mem = s.mem := by
  unfold dropPosted
  split
  · rfl
  · rw [hf, modHart_mem]
@[simp] theorem hostMoves_mem (line : Nat) (d : DirSt) : (s.hostMoves line d).mem = s.mem := by
  rw [hostMoves, freeTag_mem, moveDir_mem]
theorem hostRead_mem (me : Nat) (a : HostAddr) (own : Bool) (pa : Nat) : (s.hostRead me a own pa).All fun t => t.mem = s.mem := by
  unfold hostRead
  extract_lets bad give
  split
  · trivial
  · trivial
  · next t _ e =>
    have ht := confirmAll_mem s _ _ t e
    split
    · exact ht
    · split
      · trivial
      · exact (t.hostMoves_mem ..).trans ht
@[simp] theorem hostAsks_mem (a : HostAddr) (line : Nat) : (s.hostAsks a line).mem = s.mem := by
  unfold hostAsks
  split
  · rw [askHomes_mem]
  · rfl
@[simp] theorem fromPort_mem (line : Nat) : (s.fromPort line).mem = s.mem := by
  unfold fromPort
  dsimp only
  rw [transmit_mem]
@[simp] theorem poisonLine_mem (l : Nat) : (s.poisonLine l).mem = s.mem := by
  rw [poisonLine, countHub_mem, setPoison_mem]
@[simp] theorem poisonHome_mem (l : Nat) : (s.poisonHome l).mem = s.mem := by
  unfold poisonHome
  dsimp only
  split
  · rw [countHub_mem]
  · rw [poisonLine_mem]
@[simp] theorem sweepDie_mem (die : Nat) (c : InvScope) : (s.sweepDie die c).mem = s.mem := by
  unfold sweepDie
  dsimp only
  rw [foldl_mem fun t f => ?tags, foldl_mem fun t q => ?dir]
  case tags =>
    split
    · rw [freeTag_mem]
    · rfl
  case dir =>
    split
    · rfl
    · rw [setDir_mem]

end State

section Wf
variable {s : State} (hs : Memory.wf s.mem)
include hs

theorem EngStep.out_wf {r : EngStep} (hr : r.All fun t => Memory.wf t.mem) (agent eng : Nat) :
    OutAll (fun t => Memory.wf t.mem) (r.out s agent eng) := by
  cases r with
  | ok t => exact hr
  | fault f => exact hs
  | wait k => rwa [EngStep.out, OutAll, State.engQueue_mem]
  | stop => trivial

theorem State.lineServe_wf (q : LineReq) : (s.lineServe q).All fun t => Memory.wf t.mem := by
  unfold State.lineServe
  extract_lets line die w
  split
  · trivial
  · next t _ =>
    extract_lets hub va
    split
    · trivial
    · split
      · trivial
      · split
        · trivial
        · have htr := State.translate_wf hs t.asn true .load va
          generalize s.translate t.asn true .load va = r at htr
          split
          · trivial
          · next u pa pte =>
            have hu : Memory.wf u.mem := htr
            split
            · trivial
            · split
              · trivial
              · split
                · trivial
                · trivial
                · next v _ e =>
                  rw [← State.confirmLine_mem u _ _ _ v e] at hu
                  rw [LineEnd.All, State.addFill_mem, State.fillCopy_mem]
                  dsimp only
                  rwa [State.reply_mem, State.useGot_mem, State.moveDir_mem, State.request_mem]
          · trivial

theorem State.lineRequest_wf (line die : Nat) (own : Bool) : Memory.wf (s.lineRequest line die own).mem := by
  unfold State.lineRequest
  extract_lets q hold
  have hhold (k : Nat) : Memory.wf (hold k).mem := by
    simp only [hold]
    rwa [State.queueNew_mem]
  clear_value hold
  split
  · exact hhold _
  · split
    · next e => exact (State.lineServe_wf hs _).ok e
    · exact hs
    · exact hhold _

theorem State.requeue_wf (r key : Nat) : ∀ t ∈ s.requeue r key, Memory.wf t.mem := fun t ht => by
  rwa [State.requeue_mem s r key t ht]

theorem State.lineRetry_wf (tried l : List LineReq) : ∀ t ∈ s.lineRetry tried l, Memory.wf t.mem := by
  induction l generalizing tried with
  | nil => nofun
  | cons q l ih =>
    rw [State.lineRetry]
    dsimp only
    split
    · exact ih _
    · split
      · exact orElse_wf (State.requeue_wf hs _ _) (ih _)
      · next e => exact forall_mem_some (by rw [State.endPlace_mem]; exact (State.lineServe_wf hs _).ok e)
      · exact forall_mem_some (by rwa [State.endPlace_mem])

theorem execWritebackRequest_wf (line die : Nat) : OutAll (fun t => Memory.wf t.mem) (execWritebackRequest line die s) := by
  unfold execWritebackRequest
  extract_lets mine there s1
  have h1 : Memory.wf s1.mem := by rwa [State.transmit_mem]
  clear_value s1
  split
  · exact hs
  · split
    · rwa [OutAll, State.queueNew_mem]
    · rwa [OutAll, State.victimServe_mem]

theorem execWritebackGrant_wf (line die : Nat) : OutAll (fun t => Memory.wf t.mem) (execWritebackGrant line die s) := by
  unfold execWritebackGrant
  dsimp only
  split
  · exact hs
  · split
    · exact hs
    · rw [OutAll]
      split
      · rwa [State.transmit_mem]
      · rwa [State.transmit_mem, State.transmit_mem]

theorem execSynonymSwitch_wf (frame : Nat) (asn : BitVec 16) (granule : Nat) :
    OutAll (fun t => Memory.wf t.mem) (execSynonymSwitch frame asn granule s) := by
  rw [execSynonymSwitch, OutAll]
  split
  · rwa [State.freeTag_mem, State.retag_mem]
  · exact hs

theorem execEngineLineFinish_wf (agent eng : Nat) : OutAll (fun t => Memory.wf t.mem) (execEngineLineFinish agent eng s) := by
  unfold execEngineLineFinish
  split
  · exact hs
  · split
    · exact hs
    · rwa [OutAll, State.engFinish_mem]
    · next r _ e => exact EngStep.out_wf hs (State.engNext_wf hs _ _ _ e) ..

theorem execDomainTimeout_wf (h : Nat) : OutAll (fun t => Memory.wf t.mem) (execDomainTimeout h s) := by
  rw [execDomainTimeout, OutAll, State.dropPosted_mem]
  · exact hs
  · intro t
    dsimp only
    split
    · rw [State.modTask_mem, State.modHart_mem]
    · rw [State.modHart_mem]

theorem State.hostWrite_wf (me pa : Nat) (bs : List Byte) : (s.hostWrite me pa bs).All fun t => Memory.wf t.mem := by
  unfold State.hostWrite
  split
  · trivial
  · split
    · trivial
    · split
      · exact State.homeWrite_wf (by exact hs) ..
      · split
        · trivial
        · exact State.homeWrite_wf (by rwa [State.hostMoves_mem]) ..

theorem State.barWrite_wf (hub off : Nat) (bs : List Byte) : Memory.wf (s.barWrite hub off bs).mem := by
  unfold State.barWrite
  dsimp only
  split
  · exact hs
  · split
    · rwa [State.modHub_mem]
    · exact State.cfgWrite_wf hs ..

theorem State.hostServe_wf (me : Nat) (q : HostReq) : (s.hostServe me q).All fun t => Memory.wf t.mem := by
  unfold State.hostServe
  split
  · exact hs
  · exact hs
  · rw [HostEnd.All]
    split
    · exact hs
    · exact State.barWrite_wf hs ..
  · split
    · refine HostEnd.All.imp (State.hostRead_mem ..) fun t ht => ?_
      rwa [ht, State.hostAsks_mem]
    · exact State.hostWrite_wf (by rwa [State.hostAsks_mem]) ..

theorem State.hostArrives_wf (q : HostReq) : Memory.wf (s.hostArrives q).mem := by
  unfold State.hostArrives
  extract_lets hold
  have hhold (k : Nat) : Memory.wf (hold k).mem := by
    simp only [hold]
    rwa [State.queueNew_mem]
  clear_value hold
  split
  · split
    · exact hhold _
    · split
      · next e => exact (State.hostServe_wf hs ..).ok e
      · exact hhold _
  · split
    · next e => exact (State.hostServe_wf hs ..).ok e
    · exact hhold _

theorem State.hostRetry_wf (tried l : List (Nat × HostReq)) : ∀ t ∈ s.hostRetry tried l, Memory.wf t.mem := by
  induction l generalizing tried with
  | nil => nofun
  | cons q l ih =>
    rw [State.hostRetry]
    dsimp only
    split
    · exact ih _
    · split
      · exact orElse_wf (State.requeue_wf hs _ _) (ih _)
      · next e => exact forall_mem_some (by rw [State.endPlace_mem]; exact (State.hostServe_wf hs ..).ok e)

theorem execHostCxlResponse_wf (half : Nat) (data : List Byte) : OutAll (fun t => Memory.wf t.mem) (execHostCxlResponse half data s) := by
  unfold execHostCxlResponse
  extract_lets pa line bs b given
  split
  · exact hs
  · split
    · exact State.homeWrite_wf (by rwa [State.fromPort_mem]) ..
    · split
      · exact State.homeWrite_wf (by rwa [State.setDir_mem, State.fromPort_mem]) ..
      · split
        · exact hs
        · exact State.homeWrite_wf (by rwa [State.fromPort_mem]) ..

theorem execUncorrectableError_wf (e : ErrorSite) : OutAll (fun t => Memory.wf t.mem) (execUncorrectableError e s) := by
  cases e with
  | line l => exact State.migError_wf (by rwa [State.poisonHome_mem]) _
  | block b =>
    rw [execUncorrectableError]
    split
    · exact hs
    · exact State.migError_wf (by rwa [foldl_mem fun t k => t.poisonHome_mem _]) _
  | icLine core k => rwa [execUncorrectableError, OutAll, State.modCore_mem]
  | l1Line core l => rwa [execUncorrectableError, OutAll, State.modCore_mem]
  | coordLine core l => rwa [execUncorrectableError, OutAll, State.modCore_mem]
  | l2Line die l =>
    rw [execUncorrectableError]
    split
    · exact hs
    · split
      · rwa [OutAll, State.poisonLine_mem]
      · exact hs
  | laneWord core w =>
    rw [execUncorrectableError]
    split <;> exact hs
  | regStore h line =>
    rw [execUncorrectableError]
    split
    · exact hs
    · rwa [OutAll, State.modHart_mem]
  | correctedCore core => rwa [execUncorrectableError, OutAll, State.countCore_mem]
  | correctedL2 die =>
    rw [execUncorrectableError, OutAll]
    split
    · rwa [State.countAgent_mem]
    · exact hs
  | correctedHbm hub => rwa [execUncorrectableError, OutAll, State.countHub_mem]
  | correctedHub hub => rwa [execUncorrectableError, OutAll, State.countHub_mem]

theorem State.ingress_wf (pa : Nat) (data : List Byte) : Memory.wf (s.ingress pa data).mem := by
  unfold State.ingress
  dsimp only
  split
  · exact hs
  · split
    · next e => exact State.placeBytes_wf hs _ _ _ _ _ e
    · rwa [State.queueNew_mem]

theorem State.arrivalMove_wf (tried l : List Arrival) : ∀ t ∈ s.arrivalMove tried l, Memory.wf t.mem := by
  induction l generalizing tried with
  | nil => nofun
  | cons q l ih =>
    rw [State.arrivalMove]
    dsimp only
    split
    · exact ih _
    · split
      · next e => exact forall_mem_some (by rw [State.endPlace_mem]; exact State.placeBytes_wf hs _ _ _ _ _ e)
      · refine orElse_wf (fun t ht => ?_) (ih _)
        obtain ⟨key, -, hk⟩ := Option.bind_eq_some_iff.1 ht
        exact State.requeue_wf hs _ _ t hk

theorem execPoolPush_wf (asn : BitVec 16) (pool block : Word) : OutAll (fun t => Memory.wf t.mem) (execPoolPush asn pool block s) := by
  unfold execPoolPush
  split
  · exact hs
  · split
    · next e =>
      have h1 := (State.translate_wf hs ..).ok e
      rw [OutAll]
      split
      · exact h1
      · exact getD_wf hs (State.pushPool_wf (by rwa [State.askHomes_mem]) _ _)
    · exact hs

theorem execMtlbinvAcknowledge_wf (agent : Nat) (scope : InvScope) :
    OutAll (fun t => Memory.wf t.mem) (execMtlbinvAcknowledge agent scope s) := by
  unfold execMtlbinvAcknowledge
  split
  · rwa [OutAll, State.modHub_mem]
  · rw [OutAll]
    split
    · rwa [State.sweepDie_mem]
    · exact hs

end Wf
end Sys2Proof.Machine

namespace Sys2Proof.Machine

/-! Memory in reset, in the events of configuration blocks and tasks, and in scalar memory instructions. -/

namespace State
variable (s : State)

@[simp] theorem stopBudget_mem (die : Nat) : (s.stopBudget die).mem = s.mem := rfl
@[simp] theorem throttle_mem (die : Nat) : (s.throttle die).mem = s.mem := rfl

end State

section Wf
variable {s : State} (hs : Memory.wf s.mem)
include hs

theorem State.afterReset_wf (failed : BitVec 24) : Memory.wf (s.afterReset failed).mem := by
  unfold State.afterReset
  dsimp only
  split <;> exact filter_wf _ hs

theorem execPackageReset_wf (selfTestFail : BitVec 24) (linkFail : Bool) (images : BootImages) :
    OutAll (fun t => Memory.wf t.mem) (execPackageReset selfTestFail linkFail images s) := by
  have hr := State.afterReset_wf hs selfTestFail
  unfold execPackageReset
  generalize s.afterReset selfTestFail = r at hr
  dsimp only
  split
  · rw [OutAll]
    dsimp only
    rwa [State.sendReport_mem]
  · exact hr

theorem State.blockWrite_wf (hub off n : Nat) (value : Word) : Memory.wf (s.blockWrite hub off n value).mem := by
  unfold State.blockWrite
  split
  · exact State.cfgWrite_wf hs ..
  · exact hs

theorem execManagementMessage_wf (m : MgmtMessage) : OutAll (fun t => Memory.wf t.mem) (execManagementMessage m s) := by
  cases m with
  | forSupervisor => rwa [execManagementMessage, OutAll, State.modHub_mem]
  | control => exact hs
  | spdmMeasurements => exact hs
  | vendorReport => rwa [execManagementMessage, OutAll, State.sendReport_mem]

theorem execLossOfFlow_wf (on_ : Bool) : OutAll (fun t => Memory.wf t.mem) (execLossOfFlow on_ s) := by
  rw [execLossOfFlow, OutAll]
  split
  · rwa [foldl_mem State.stopBudget_mem]
  · exact hs

theorem execJunctionTemperature_wf (die celsius : Nat) :
    OutAll (fun t => Memory.wf t.mem) (execJunctionTemperature die celsius s) := by
  unfold execJunctionTemperature
  split
  · exact hs
  · dsimp only [OutAll]
    split
    · rwa [State.goFatal_mem]
    · split
      · exact hs
      · split <;> exact hs

theorem State.hostPublish_wf (value : Word) : Memory.wf (s.hostPublish value).1.mem := by
  unfold State.hostPublish
  extract_lets tcb asn s0
  have h0 : Memory.wf s0.mem := by rwa [State.noteEntry_mem, State.askHomes_mem]
  clear_value s0
  split
  · exact h0
  · exact hs
  · split
    · exact h0
    · split
      · exact h0
      · split
        · next u pa pte e =>
          have h1 := (State.translate_wf h0 ..).ok e
          split
          · exact h1
          · split
            · exact h1
            · extract_lets s2
              have h2 : Memory.wf s2.mem := by rwa [State.dropBlockSnaps_mem, State.leavePa_mem]
              clear_value s2
              have hpub := State.publish_wf (s := s2.takeHome pa 128) (by rwa [State.takeHome_mem]) asn
                (BitVec.ofNat 64 tcb) pa false
              split
              · next e2 => rwa [e2] at hpub
              · exact h2
              · exact h2
        · rwa [State.noteWalk_mem]

theorem execHostPublication_wf : OutAll (fun t => Memory.wf t.mem) (execHostPublication s) := by
  unfold execHostPublication
  split
  · exact hs
  · split
    · rwa [OutAll, State.queueUp_mem]
    · rw [OutAll, State.modHub_mem]
      exact State.hostPublish_wf (by rwa [State.leaveAll_mem]) _

theorem State.claimNext_wf : ∀ t ∈ s.claimNext, Memory.wf t.mem := by
  have hbind : ∀ p ∈ s.nextBind, Memory.wf p.2.mem := by
    unfold State.nextBind
    split
    · nofun
    · intro p hp
      obtain ⟨k, -, hk⟩ := Option.bind_eq_some_iff.1 hp
      obtain ⟨t, ht, rfl⟩ := Option.map_eq_some_iff.1 hk
      exact State.dispatch_wf hs t ht
  intro t ht
  obtain ⟨p, hp, ht⟩ := Option.bind_eq_some_iff.1 ht
  split at ht
  · split at ht
    · exact Option.some.inj ht ▸ hbind p hp
    · cases ht
  · exact Option.some.inj ht ▸ hbind p hp

theorem execReadyListAging_wf (k : Nat) : OutAll (fun t => Memory.wf t.mem) (execReadyListAging k s) := by
  rw [execReadyListAging, OutAll]
  split
  · rwa [State.modTask_mem]
  · exact hs

theorem execLevel0Preempt_wf : OutAll (fun t => Memory.wf t.mem) (execLevel0Preempt s) := by
  unfold execLevel0Preempt
  split
  · rwa [OutAll, State.modHart_mem]
  · exact hs

theorem execTaskFailure_wf (k status : Nat) : OutAll (fun t => Memory.wf t.mem) (execTaskFailure k status s) :=
  Drive.All.out (State.failStep_wf (State.failTask_wf hs ..) _)

theorem Eff.All.toRes_wf {r : Eff} (hr : r.All fun t => Memory.wf t.mem) (h : Nat) {k : State → Nat → State}
    (hk : ∀ t v, (k t v).mem = t.mem) : (r.toRes s h k).All fun t => Memory.wf t.mem := by
  cases r with
  | ok t v f => rwa [Eff.toRes, Res.All, State.modHart_mem, hk, State.endHolds_mem]
  | fault t => exact hs
  | held q => rwa [Eff.toRes, Res.All, State.holdRead_mem]
  | stop f => trivial

theorem ldBody_wf (o : Fields) : (ldBody o s).All fun t => Memory.wf t.mem := by
  unfold ldBody
  refine State.waitMemory_wf hs _ _ _ fun t ht => ?_
  dsimp only
  split
  · exact ht
  · exact Eff.All.toRes_wf ht (State.loadEl_wf ht ..) _ fun u v => u.modHart_mem ..

theorem stBody_wf (o : Fields) : (stBody o s).All fun t => Memory.wf t.mem := by
  unfold stBody
  refine State.waitMemory_wf hs _ _ _ fun t ht => ?_
  dsimp only
  split
  · exact ht
  · exact Eff.All.toRes_wf ht (State.storeEl_wf ht ..) _ fun _ _ => rfl

theorem prefLine_wf (o : Fields) : Memory.wf (prefLine o s).mem := by
  unfold prefLine
  dsimp only
  split
  · exact hs
  · split
    · next e =>
      have h1 := (State.translate_wf hs ..).ok e
      split
      · exact hs
      · split
        · exact hs
        · next u e2 =>
          rw [← State.confirmLine_mem _ _ _ _ u e2] at h1
          split
          · next e3 =>
            rwa [State.fillCopy_mem, (State.touchLine_mem ..).ok e3, State.countMiss_mem]
          · exact hs
    · exact hs

theorem State.cleanLine_wf (op : CacheOp) (die : Nat) (pkg : Bool) (line : Nat) : Memory.wf (s.cleanLine op die pkg line).mem := by
  unfold State.cleanLine
  extract_lets mine s1 d s2
  have h1 : Memory.wf s1.mem := by
    simp only [s1]
    split
    · exact hs
    · split
      · exact State.discardLine_wf hs _
      · exact hs
  clear_value s1
  have h2 : Memory.wf s2.mem := by
    simp only [s2]
    split
    · rwa [State.moveDir_mem]
    · rwa [State.setDir_mem]
  clear_value s2
  split
  · exact h1
  · exact h2

theorem State.cleanHome_wf (op : CacheOp) (w : Who) (a : Word) (line : Nat) :
    (s.cleanHome op w a line).All fun t => Memory.wf t.mem := by
  unfold State.cleanHome
  split
  · trivial
  · split
    · trivial
    · dsimp only [Touch.All]
      rw [State.dropBlockSnaps_mem, State.reply_mem]
      exact State.cleanLine_wf (by rwa [State.request_mem]) ..

theorem State.cleanHere_wf (op : CacheOp) (die line : Nat) : (s.cleanHere op die line).All fun t => Memory.wf t.mem := by
  unfold State.cleanHere
  dsimp only
  split
  · exact State.cleanLine_wf hs ..
  · split
    · trivial
    · exact State.cleanLine_wf (by rwa [State.transmit_mem, State.transmit_mem]) ..

theorem cbinvBody_wf (o : Fields) (op : CacheOp) : (cbinvBody o op s).All fun t => Memory.wf t.mem := by
  unfold cbinvBody
  refine State.waitMemory_wf hs _ _ _ fun t ht => ?_
  extract_lets w store acc
  refine Eff.All.toRes_wf ht ?_ _ fun _ _ => rfl
  split
  · trivial
  · split
    · trivial
    · trivial
    · trivial
    · next e =>
      have h1 := (State.accessPage_wf ht ..).ok e
      split
      · exact h1
      · split
        · exact (State.cleanHome_wf h1 ..).bind fun u hu => hu
        · exact (State.cleanHere_wf h1 ..).bind fun u hu => hu

theorem fenceBody_wf (o : Fields) : (fenceBody o s).All fun t => Memory.wf t.mem := by
  unfold fenceBody
  split
  · exact hs
  · refine State.waitQueue_wf hs _ fun t ht => ?_
    split <;> exact ht

theorem fenceIBody_wf : (fenceIBody s).All fun t => Memory.wf t.mem := by
  unfold fenceIBody
  refine State.waitQueue_wf hs _ fun t ht => ?_
  dsimp only [Res.All]
  split
  · rwa [State.setCore_mem]
  · exact ht

theorem atomicBody_wf (o : Fields) (f : Hart → Nat → Option Nat × BitVec 8) : (atomicBody o f s).All fun t => Memory.wf t.mem := by
  have hgo (t : State) (ht : Memory.wf t.mem) : Res.All (fun u => Memory.wf u.mem)
      (if !aligned ((t.hart t.cur).reg o.a.toNat) (typeBytes o.w.toNat) then
        .trap t (misalign ((t.hart t.cur).reg o.a.toNat) ((t.hart t.cur).reg o.a.toNat) (lmBit o) true)
      else (t.atomicEl (scalarWho o t ((t.hart t.cur).reg o.a.toNat)) ((t.hart t.cur).reg o.a.toNat) (typeBytes o.w.toNat) false
          (f (t.hart t.cur))).toRes t t.cur fun u old =>
        u.modHart t.cur fun y => y.varResult o.d.toNat (extCode o.w.toNat old)) := by
    split
    · exact ht
    · exact Eff.All.toRes_wf ht (State.atomicEl_wf ht ..) _ fun u v => u.modHart_mem ..
  unfold atomicBody atomicWait
  split
  · refine State.waitUntil_wf hs _ _ fun t ht => ?_
    split
    · exact ht
    · exact hgo t ht
  · exact State.waitMemory_wf hs _ _ _ hgo

end Wf
end Sys2Proof.Machine

namespace Sys2Proof.Machine

/-! Memory in every instruction and event. -/

section Wf
variable {s : State} (hs : Memory.wf s.mem)
include hs

theorem yieldRelBody_wf : Res.All (fun t => Memory.wf t.mem)
    (if (s.hart s.cur).occupancy ≠ 0 then .trap s (trapIllegal 7 false) else .ok (s.unbind s.cur)) := by
  split
  · exact hs
  · rwa [Res.All, State.unbind_mem]

omit hs in
theorem ite_wf {c : Prop} [Decidable c] {t u : State} (ht : Memory.wf t.mem) (hu : Memory.wf u.mem) :
    Memory.wf (if c then t else u).mem := by
  split
  · exact ht
  · exact hu

theorem execQuarantineDelivery_wf (dst : Nat) : OutAll (fun t => Memory.wf t.mem) (execQuarantineDelivery dst s) := by
  unfold execQuarantineDelivery
  dsimp only
  split
  · exact hs
  · rwa [OutAll, State.setClock_mem]

theorem exec_wf (i : Instr) : OutAll (fun t => Memory.wf t.mem) (exec i s) := by
  cases i
  all_goals dsimp only [exec]
  case vadd | vsub | vmul | vmulh | vmadd | vdiv | vrem | vand | vor | vxor | vshl | vshr | vsra | vmin | vmax | vabsd
    | vsadd | vssub | vcmp | vsel | vwadd | vwmul | vnshr | vid | viota | vfadd | vfsub | vfmul | vfma | vfnma | vfdiv
    | vfsqrt | vfexp | vfmin | vfmax | vfcmp | vfclass | vfcvt | vfscale | vfsgn | vfqnt | vfdqnt | vfamax | vslideup
    | vslidedn | vslideinUp | vslideinDn | vperm | vxch | vcompress | vexpand | vbcast | vmvsx | vmvxs | vred | vredX
    | vfredo | vfredt | vfredmx | mlog | mpopc | mfirst | mset | vsortk | vmergek | vsegred | vsegnorm | vsegscan |
    vsetseg | vgetseg | fbuild | fsplit | fisect | funion | fmerge | fcompact | fexpand | fgather | fmulFibre | fdot |
    fscale | focc | fshift | fsort | fred | fclear | fclearPair | mma | mmas | mmag | mprom | mzero | mzeroC | mdrain
    | mfill | mstat | vld | vst | vlds | vsts | vldx | vstx | vldf | vstf | vldp | vstp | vamo | vldc | vstc | vamoc |
    fld | fst | fwalk | qbind | qrd | fldq | qrel | toksend | taskpub | arrive | wake =>
    all_goals apply vecIssue_wf hs
  case add | sub | mul | mulh | div | rem | and | or | xor | andn | shl | shr | sra | rotr | min | max | clz | ctz |
    popc | brev | ext | bfx | bfi | mov | lih | sel | cmp | fadd | fsub | fmul | ffma | fdiv | fsqrt | fmin | fmax |
    fcmp | fcvt | plog | pmov | pmovScalar | pmovAll | bra | call | loop | nop =>
    all_goals apply scalarIssue_wf hs
  case jmp | callReg | ret => all_goals exact issue_wf hs _ _ fun _ ht => jumpTo_wf ht ..
  case setvl => exact issue_wf hs _ _ fun _ ht => setvlBody_wf ht ..
  case trap => exact issue_wf hs _ _ fun _ ht => ht
  case eret => exact issue_wf hs _ _ fun _ ht => eretBody_wf ht
  case mfs | mts =>
    all_goals exact issue_wf hs _ _ fun _ ht => specialWait_wf ht _ fun u hu => by rwa [Res.All, State.modHart_mem]
  case endI => exact issue_wf hs _ _ fun _ ht => endBody_wf ht ..
  case yield => exact issue_wf hs _ _ fun _ ht => by rwa [Res.All, State.modHart_mem]
  case yieldRel => exact issue_wf hs _ _ fun _ ht => yieldRelBody_wf ht ..
  case tfence => exact issue_wf hs _ _ fun _ ht => tfenceBody_wf ht
  case ld => exact issue_wf hs _ _ fun _ ht => ldBody_wf ht ..
  case st => exact issue_wf hs _ _ fun _ ht => stBody_wf ht ..
  case pref => exact issue_wf hs _ _ fun _ ht => State.waitMemory_wf ht _ _ _ fun u hu => prefLine_wf hu _
  case cbinvWb | cbinvWbi | cbinvDisc => all_goals exact issue_wf hs _ _ fun _ ht => cbinvBody_wf ht ..
  case fence => exact issue_wf hs _ _ fun _ ht => fenceBody_wf ht ..
  case fenceI => exact issue_wf hs _ _ fun _ ht => fenceIBody_wf ht
  case amo | cas => all_goals exact issue_wf hs _ _ fun _ ht => atomicBody_wf ht ..
  case vqsync => exact issue_wf hs _ _ fun _ ht => State.waitQueue_wf ht _ fun _ hu => hu
  case vqreplay => exact issue_wf hs _ _ fun _ ht => vqreplayBody_wf ht ..
  case acopy => exact issue_wf hs _ _ fun _ ht => acopyBody_wf ht ..
  case acopy2 => exact issue_wf hs _ _ fun _ ht => acopy2Body_wf ht ..
  case waitt => exact issue_wf hs _ _ fun _ ht => waittBody_wf ht ..
  case collArsum | collArmax | collAg | collRssum | collRsmax =>
    all_goals exact issue_wf hs _ _ fun _ ht => collBody_wf ht ..
  case taskcan => exact issue_wf hs _ _ fun _ ht => taskcanBody_wf ht ..
  case waitb => exact issue_wf hs _ _ fun _ ht => waitbBody_wf ht ..
  case sleep => exact issue_wf hs _ _ fun _ ht => waitStep_wf ht ..
  case clbinv | clbinvAll => all_goals exact issue_wf hs _ _ fun _ ht => clbinvBody_wf ht ..
  case viewreg => exact issue_wf hs _ _ fun _ ht => viewregBody_wf ht ..
  case viewdel => exact issue_wf hs _ _ fun _ ht => viewdelBody_wf ht ..
  case viewsync => exact issue_wf hs _ _ fun _ ht => viewsyncBody_wf ht ..
  case viewsyncTw => exact issue_wf hs _ _ fun _ ht => viewsyncTwBody_wf ht ..
  case viewstat => exact issue_wf hs _ _ fun _ ht => viewstatBody_wf ht ..
  case viewstatD => exact issue_wf hs _ _ fun _ ht => viewstatDBody_wf ht ..
  case mtlbinvPage | mtlbinvAsn | mtlbinvAll => all_goals exact issue_wf hs _ _ fun _ ht => mtlbinvBody_wf ht ..
  case pmig => exact issue_wf hs _ _ fun _ ht => pmigBody_wf ht ..
  case biassetHost | biassetDev => all_goals exact issue_wf hs _ _ fun _ ht => biassetBody_wf ht ..
  case frecinv | frecinvAll => all_goals exact issue_wf hs _ _ fun _ ht => frecinvBody_wf ht ..
  case rdcyc | outcnt | budrd => all_goals exact issue_wf hs _ _ fun _ ht => giveWord_wf ht ..
  case rdseq => exact issue_wf hs _ _ fun _ ht => rdseqBody_wf ht ..
  case waitseq => exact issue_wf hs _ _ fun _ ht => waitseqBody_wf ht ..
  case rdclk => exact issue_wf hs _ _ fun _ ht => rdclkBody_wf ht ..
  case cresync => exact issue_wf hs _ _ fun _ ht => cresyncBody_wf ht ..
  case evsel => exact issue_wf hs _ _ fun _ ht => evselBody_wf ht ..
  case evrd => exact issue_wf hs _ _ fun _ ht => evrdBody_wf ht ..
  case packageReset => exact execPackageReset_wf hs ..
  case cycleTick => rwa [execCycleTick, OutAll, State.tick_mem]
  case scalarWriteLand => rwa [execScalarWriteLand, OutAll, State.modHart_mem]
  case joinRelease | queuePushResume => all_goals exact drainRelease_wf hs _
  case queueEntryStart => exact execQueueEntryStart_wf hs ..
  case queueEntryComplete => rwa [execQueueEntryComplete, OutAll, State.completeHead_mem]
  case vectorFault => exact State.settle_wf hs _
  case queueFault => exact execQueueFault_wf hs ..
  case interrupt => rwa [execInterrupt, OutAll, State.takeIrq_mem]
  case preempt => exact execPreempt_wf hs ..
  case regstoreFill => exact execRegstoreFill_wf hs ..
  case budgetCharge => exact execBudgetCharge_wf hs ..
  case budgetRefill => rwa [execBudgetRefill, OutAll, State.tick_mem]
  case governorUpdate => exact execGovernorUpdate_wf hs ..
  case streamPrefetch => exact State.prefetchStream_wf hs ..
  case requestHeaderRefused => exact ite_wf (by rwa [State.countCore_mem]) hs
  case l2Fill | clbDropAck => all_goals exact hs
  case dirRead | dirOwnership => all_goals exact State.lineRequest_wf hs ..
  case writebackRequest => exact execWritebackRequest_wf hs ..
  case writebackGrant => exact execWritebackGrant_wf hs ..
  case synonymSwitch => exact execSynonymSwitch_wf hs ..
  case engineLineFinish => exact execEngineLineFinish_wf hs ..
  case copyOpComplete => exact EngStep.out_wf hs (State.copyComplete_wf hs ..) ..
  case collComplete => exact EngStep.out_wf hs (State.collComplete_wf hs ..) ..
  case toksendRowPlace => exact getD_wf hs (State.placeRow_wf hs _)
  case postedStoreAck => rwa [execPostedStoreAck, OutAll, State.dropPosted_mem (f := id) _ _ fun _ => rfl]
  case domainTimeout => exact execDomainTimeout_wf hs ..
  case promiseMissed => exact execPromiseMissed_wf hs ..
  case viewsyncTimeout => exact execViewsyncTimeout_wf hs ..
  case sleepTimeout => exact execSleepTimeout_wf hs ..
  case migration => exact State.migStart_wf hs _
  case migrationComplete => exact State.migComplete_wf hs _
  case holdQueueRetry => rwa [execHoldQueueRetry, OutAll, State.hubError_mem, State.countHub_mem]
  case biasFlipStep => rwa [execBiasFlipStep, OutAll, State.flipStep_mem]
  case hostCxlMemRead | hostCxlMemWrite => all_goals exact State.hostArrives_wf hs _
  case doorbellWrite | memEnableControlWrite => all_goals exact ite_wf (by rwa [State.modHub_mem]) hs
  case publishWrite | fencereqWrite => all_goals exact State.cfgWrite_wf hs ..
  case hostPublication => exact execHostPublication_wf hs ..
  case dieLevelError => exact ite_wf (State.fenceDie_wf hs _) hs
  case hubLoss => rwa [execHubLoss, OutAll, State.goFatal_mem]
  case uncontainedAsnFault => exact ite_wf (State.asnFault_wf hs ..) hs
  case uncorrectableError => exact execUncorrectableError_wf hs ..
  case packetArrival => exact ite_wf hs (by rwa [State.receive_mem])
  case quarantineDelivery => exact execQuarantineDelivery_wf hs _
  case horizonBeat => exact ite_wf hs (by rwa [State.setClock_mem])
  case idleBeat => exact ite_wf hs (by rwa [State.answerBeat_mem])
  case windowStall => exact ite_wf hs (by rwa [State.stallCycle_mem])
  case resyncDrainTimeout => exact ite_wf (by rwa [State.goFatal_mem]) hs
  case watchBeat => exact ite_wf hs (getD_wf hs fun t ht => by rwa [State.watch_mem _ _ _ _ t ht])
  case staleNotice => exact ite_wf (by rwa [State.notice_mem]) hs
  case derivationStart => rwa [execDerivationStart, OutAll, State.derivStart_mem]
  case derivationPublish => exact State.derivPublish_wf hs _
  case viewRead => exact execViewRead_wf hs ..
  case poolPush => exact execPoolPush_wf hs ..
  case predecessorEvent => exact State.devAll_wf hs ..
  case dispatchClaim => exact getD_wf hs (State.claimNext_wf hs)
  case readyListAging => exact execReadyListAging_wf hs ..
  case level0Preempt => exact execLevel0Preempt_wf hs ..
  case taskRetirement => exact State.retire_wf hs _
  case taskFailure => exact execTaskFailure_wf hs ..
  case waitUnbind => exact execWaitUnbind_wf hs ..
  case waitRebind => exact execWaitRebind_wf hs ..
  case irqsetWrite | memrdyWrite | configRegWrite => all_goals exact State.blockWrite_wf hs ..
  case managementMessage => exact execManagementMessage_wf hs ..
  case debugUnlock => exact ite_wf (by exact hs) hs
  case rilrovPortFailure => exact ite_wf hs (by exact hs)
  case lossOfFlow => exact execLossOfFlow_wf hs ..
  case junctionTemperature => exact execJunctionTemperature_wf hs ..
  case rilrovIngress => exact State.ingress_wf hs ..
  case ethernetIngress => exact ite_wf hs (State.ingress_wf hs ..)
  case hostCxlResponse => exact execHostCxlResponse_wf hs ..
  case mtlbinvAcknowledge => exact execMtlbinvAcknowledge_wf hs ..

end Wf
end Sys2Proof.Machine

namespace Sys2Proof.Machine

/-! Memory in the moves of the package and in one step (R231). -/

/-- Of several moves tried in order, the one found keeps memory canonical where each of them does. -/
theorem findSome_wf {α : Type} {f : α → Option State} (hf : ∀ a, ∀ t ∈ f a, Memory.wf t.mem) (l : List α) :
    ∀ t ∈ l.findSome? f, Memory.wf t.mem := by
  intro t ht
  obtain ⟨a, -, ha⟩ := List.exists_of_findSome?_eq_some ht
  exact hf a t ha

theorem findSome_outAll {α : Type} {p : State → Prop} {f : α → Option Out} (hf : ∀ a, ∀ r ∈ f a, OutAll p r) (l : List α) :
    ∀ r ∈ l.findSome? f, OutAll p r := by
  intro r hr
  obtain ⟨a, -, ha⟩ := List.exists_of_findSome?_eq_some hr
  exact hf a r ha

/-- A move that is made only where it changes something is the move or none. -/
theorem forall_mem_ite_some {α : Type} {p : α → Prop} {c : Prop} [Decidable c] {a : α} (ha : p a) :
    ∀ r ∈ (if c then some a else none), p r := by
  intro r hr
  split at hr
  · exact Option.some.inj hr ▸ ha
  · cases hr

/-- A move made only under a condition, and where what it leads to is worth it. -/
theorem moveIf_outAll {p : State → Prop} {x : Out} (hx : OutAll p x) (c : Prop) [Decidable c] (k : State → Prop) [DecidablePred k] :
    ∀ r ∈ (if c then none else match x with
      | .next t => if k t then some (.next t) else none
      | r => some r : Option Out), OutAll p r := by
  intro r hr
  split at hr
  · cases hr
  · cases x with
    | next t => exact forall_mem_ite_some (p := OutAll p) hx r hr
    | fault f => exact Option.some.inj hr ▸ hx
    | refused f => exact Option.some.inj hr ▸ hx

namespace State

@[simp] theorem giveUp_mem (s : State) (h n : Nat) (i : Instr) : (s.giveUp h n i).mem = s.mem := by
  unfold giveUp
  extract_lets s1 done
  have h1 : s1.mem = s.mem := rfl
  clear_value s1
  split
  · rfl
  · split
    · rw [modHart_mem, h1]
    · exact h1
@[simp] theorem beginTurn_mem (s : State) (h : Nat) : (s.beginTurn h).mem = s.mem := by
  unfold beginTurn
  dsimp only
  rw [modCore_mem]

section Wf
variable {s : State} (hs : Memory.wf s.mem)
include hs

theorem runInstr_wf (h : Nat) : OutAll (fun t => Memory.wf t.mem) (s.runInstr h).1 := by
  have hf := fetch_wf hs h
  unfold runInstr
  generalize s.fetch h = r at hf
  cases r with
  | trap t => exact raise_wf hs _ _ fun u hu => by rwa [takeTrap_mem]
  | held k => exact show Memory.wf _ by rwa [modHart_mem, holdRead_mem]
  | stop => trivial
  | ok t w =>
    have ht : Memory.wf t.mem := hf
    dsimp only
    split
    · next i _ =>
      have hx := exec_wf ht i
      generalize exec i t = x at hx
      cases x with
      | next u => exact show Memory.wf _ by rwa [giveUp_mem]
      | fault f => trivial
      | refused f => trivial
    · next e _ =>
      exact raise_wf (s := (t.illegal e.field e.value false).2) (by rwa [illegal_mem]) _ _ fun u hu => by rwa [takeTrap_mem]

theorem runBoundary_wf (h : Nat) : OutAll (fun t => Memory.wf t.mem) (s.runBoundary h) := by
  have hr := runInstr_wf hs h
  have hb := s.boundary_mem h
  unfold runBoundary
  generalize s.runInstr h = r at hr
  generalize s.boundary h = o at hb
  obtain ⟨r, m⟩ := r
  cases o with
  | none => cases r with
    | next t => exact show Memory.wf _ by rwa [tick_mem]
    | fault f => trivial
    | refused f => trivial
  | some b =>
    have hb : Memory.wf b.mem := by rwa [hb b rfl]
    cases r with
    | next t => exact ite_wf (by rwa [tick_mem]) (by rwa [tick_mem])
    | fault f => exact show Memory.wf _ by rwa [tick_mem]
    | refused f => exact show Memory.wf _ by rwa [tick_mem]

theorem issueTurn_wf (h : Nat) : OutAll (fun t => Memory.wf t.mem) (s.issueTurn h) := by
  unfold issueTurn
  extract_lets x s0
  have h0 : Memory.wf s0.mem := bringLines_wf (by rwa [beginTurn_mem]) h
  clear_value s0
  split
  · rwa [OutAll, tick_mem]
  · split
    · rwa [OutAll, tick_mem]
    · split
      · trivial
      · next t e =>
        have h1 := settle_wf ((drainQ_wf h0 ..).ok e) h
        generalize t.settle h = s1 at h1
        dsimp only
        split
        · rwa [OutAll, tick_mem]
        · exact runBoundary_wf h1 h

theorem bindMove_wf : ∀ t ∈ s.bindMove, Memory.wf t.mem := by
  unfold bindMove
  split
  · next e => exact forall_mem_some (claimNext_wf hs _ e)
  · intro t ht
    obtain ⟨h, -, ht⟩ := Option.bind_eq_some_iff.1 ht
    exact rebind_wf hs h t ht

theorem taskMove_wf : ∀ t ∈ s.taskMove, Memory.wf t.mem := by
  unfold taskMove
  dsimp only
  split
  · exact forall_mem_some (retire_wf hs _)
  · split
    · exact forall_mem_some (by rwa [modTask_mem])
    · intro t ht
      obtain ⟨h, -, rfl⟩ := Option.map_eq_some_iff.1 ht
      rwa [modHart_mem]

theorem curatorMove_wf (hub : Nat) : ∀ t ∈ s.curatorMove hub, Memory.wf t.mem := by
  unfold curatorMove
  dsimp only
  split
  · exact forall_mem_ite_some (derivPublish_wf hs hub)
  · split
    · nofun
    · exact forall_mem_ite_some (by rwa [derivStart_mem])

theorem migrationMove_wf (hub : Nat) : ∀ t ∈ s.migrationMove hub, Memory.wf t.mem := by
  unfold migrationMove
  split
  · nofun
  · extract_lets t
    have ht : Memory.wf t.mem := by
      simp only [t]
      split
      · exact ite_wf (migStart_wf hs hub) (migComplete_wf hs hub)
      · exact migComplete_wf hs hub
    intro u hu
    split at hu
    · cases hu
    · exact Option.some.inj hu ▸ ht

theorem engineMove_wf (key : Nat) : ∀ r ∈ s.engineMove key, OutAll (fun t => Memory.wf t.mem) r := by
  have hr : (if key % 8 < 4 then s.copyComplete (key / 8) (key % 8) else if key % 8 = 4 then s.collComplete (key / 8) []
      else .wait none).All fun t => Memory.wf t.mem := by
    split
    · exact copyComplete_wf hs ..
    · split
      · exact collComplete_wf hs ..
      · trivial
  unfold engineMove
  dsimp only
  generalize (if key % 8 < 4 then s.copyComplete (key / 8) (key % 8) else if key % 8 = 4 then s.collComplete (key / 8) []
      else .wait none) = r at hr
  intro q hq
  split at hq
  · split at hq
    · cases hq
    · obtain rfl := Option.some.inj hq
      exact hr
  · obtain rfl := Option.some.inj hq
    exact EngStep.out_wf hs hr ..
  · cases hq

theorem unitMove_wf : ∀ r ∈ s.unitMove, OutAll (fun t => Memory.wf t.mem) r := by
  unfold unitMove
  intro r hr
  split at hr
  · next e =>
    obtain rfl := Option.some.inj hr
    exact findSome_wf (curatorMove_wf hs) _ _ e
  · split at hr
    · next e =>
      obtain rfl := Option.some.inj hr
      exact findSome_wf (migrationMove_wf hs) _ _ e
    · refine findSome_outAll (fun q r hq => ?_) _ r hr
      split at hq
      · cases hq
      · exact engineMove_wf hs _ r hq

theorem hostMove_wf : ∀ t ∈ s.hostMove, Memory.wf t.mem := by
  unfold hostMove
  split
  · next e => exact forall_mem_some (hostRetry_wf hs _ _ _ e)
  · split
    · exact forall_mem_some (by exact hs)
    · intro t ht
      obtain ⟨l, -, rfl⟩ := Option.map_eq_some_iff.1 ht
      exact hs

theorem waitMove_wf : ∀ t ∈ s.waitMove, Memory.wf t.mem := by
  intro t ht
  obtain ⟨f, hf, ht⟩ := List.exists_of_findSome?_eq_some ht
  simp only [List.mem_cons, List.not_mem_nil, or_false] at hf
  rcases hf with rfl | rfl | rfl | rfl | rfl | rfl | rfl
  · exact findSome_wf (rowMove_wf hs) _ t ht
  · rwa [victimMove_mem s t ht]
  · exact imgMove_wf hs t ht
  · exact arrivalMove_wf hs _ _ t ht
  · exact devRetry_wf hs t ht
  · exact lineRetry_wf hs _ _ t ht
  · dsimp only at ht
    split at ht
    · rwa [deliverRead_mem s t ht]
    · cases ht

theorem fabricMove_wf : ∀ t ∈ s.fabricMove, Memory.wf t.mem := by
  unfold fabricMove
  split
  · exact forall_mem_some (by rwa [resyncDone_mem])
  · split
    · next t e => exact forall_mem_some (by rwa [sendUnsent_mem s t e])
    · split
      · next e => exact forall_mem_some (waitMove_wf hs _ e)
      · split
        · next e => exact forall_mem_some (findSome_wf (fun f => forall_mem_ite_some (by rwa [flipStep_mem])) _ _ e)
        · split
          · next e => exact forall_mem_some (hostMove_wf hs _ e)
          · split
            · next e =>
              refine forall_mem_some (findSome_wf (fun q t ht => ?_) _ _ e)
              obtain ⟨w, -, rfl⟩ := Option.map_eq_some_iff.1 ht
              rwa [setClock_mem]
            · split
              · exact forall_mem_ite_some (by rwa [dropPosted_mem (f := id) _ _ fun _ => rfl])
              · nofun

theorem hartMove_wf : ∀ r ∈ s.hartMove, OutAll (fun t => Memory.wf t.mem) r := by
  unfold hartMove
  intro r hr
  split at hr
  · obtain rfl := Option.some.inj hr
    rwa [OutAll, countCore_mem, unbind_mem]
  · refine findSome_outAll (fun h r hr => ?_) _ r hr
    dsimp only at hr
    split at hr
    · cases hr
    · split at hr
      · obtain rfl := Option.some.inj hr
        trivial
      · next t e =>
        have ht : OutAll (fun t => Memory.wf t.mem) (.next (t.settle h)) := settle_wf ((drainAll_wf hs _).ok e) h
        exact forall_mem_ite_some ht r hr

theorem failMove_wf : ∀ r ∈ s.failMove, OutAll (fun t => Memory.wf t.mem) r := by
  refine findSome_outAll (fun k r hr => ?_) _
  dsimp only at hr
  split at hr
  · cases hr
  · split at hr
    · obtain rfl := Option.some.inj hr
      trivial
    · next t e =>
      have ht : OutAll (fun t => Memory.wf t.mem) (.next t) := (failStep_wf hs k).ok e
      exact forall_mem_ite_some ht r hr

theorem autoMove_wf : ∀ r ∈ s.autoMove, OutAll (fun t => Memory.wf t.mem) r := by
  have hx := execHostPublication_wf hs
  unfold autoMove
  generalize execHostPublication s = x at hx
  extract_lets pub
  have hpub : ∀ r ∈ pub, OutAll (fun t => Memory.wf t.mem) r := moveIf_outAll hx _ _
  clear_value pub
  intro r hr
  split at hr
  · exact hpub r hr
  · split at hr
    · next e =>
      obtain rfl := Option.some.inj hr
      exact bindMove_wf hs _ e
    · split at hr
      · next e =>
        obtain rfl := Option.some.inj hr
        exact taskMove_wf hs _ e
      · split at hr
        · next e =>
          obtain rfl := Option.some.inj hr
          exact unitMove_wf hs _ e
        · split at hr
          · next e =>
            obtain rfl := Option.some.inj hr
            exact fabricMove_wf hs _ e
          · split at hr
            · next e =>
              obtain rfl := Option.some.inj hr
              exact failMove_wf hs _ e
            · exact hartMove_wf hs r hr

theorem defaultMove_wf : OutAll (fun t => Memory.wf t.mem) s.defaultMove := by
  unfold defaultMove
  split
  · next e => exact autoMove_wf hs _ e
  · split
    · exact issueTurn_wf hs _
    · rwa [OutAll, tick_mem]

theorem turn_wf (t : Turn) : OutAll (fun t => Memory.wf t.mem) (s.turn t) := by
  cases t with
  | event e =>
    rw [turn]
    split
    · exact hs
    · exact exec_wf hs e
  | issue h => exact issueTurn_wf hs h

end Wf
end State

theorem step_wf {s : State} (hs : Memory.wf s.mem) : OutAll (fun t => Memory.wf t.mem) (step s) := by
  unfold step
  split
  · exact State.turn_wf (by exact hs) _
  · exact State.defaultMove_wf hs

/-- Settles O59: memory changes only where cells are put into it, copied in it or dropped from it, each of which keeps its list
canonical. -/
theorem stepKeepsMemoryCanonical : Obligations.StepKeepsMemoryCanonical := by
  unfold Obligations.StepKeepsMemoryCanonical
  intro s t hs ht
  exact (step_wf hs).next ht

end Sys2Proof.Machine

namespace Sys2Proof.Machine

/-! Bytes of lane memory that an access reads and stores (R215, R231). -/

@[simp] theorem leBytes_length (n v : Nat) : (leBytes n v).length = n := by
  induction n generalizing v with
  | zero => rfl
  | succ n ih => rw [leBytes, List.length_cons, ih]

theorem leBytes_getElem (n v k : Nat) (hk : k < (leBytes n v).length) : (leBytes n v)[k] = BitVec.ofNat 8 (v / 2 ^ (8 * k)) := by
  induction n generalizing v k with
  | zero => simp [leBytes] at hk
  | succ n ih =>
    cases k with
    | zero => simp [leBytes]
    | succ k =>
      have hpow : v / 256 / 2 ^ (8 * k) = v / 2 ^ (8 * (k + 1)) := by
        rw [Nat.div_div_eq_div_mul, show 256 = 2 ^ 8 from rfl, ← pow_add, show 8 + 8 * k = 8 * (k + 1) by omega]
      simpa [leBytes, hpow] using ih (v / 256) k (by simpa [leBytes] using hk)

/-- Each byte of a number read from memory. -/
theorem memGet_eq_memNat_div (m : List Host.Cell) (a n k : Nat) (hk : k < n) :
    memGet m (a + k) = BitVec.ofNat 8 (memNat m a n / 2 ^ (8 * k)) := by
  induction n generalizing a k with
  | zero => omega
  | succ n ih =>
    have hcons : memNat m a (n + 1) = (memGet m a).toNat + 256 * memNat m (a + 1) n := rfl
    have hlt := (memGet m a).isLt
    cases k with
    | zero =>
      apply BitVec.eq_of_toNat_eq
      rw [hcons, BitVec.toNat_ofNat]
      simp only [Nat.add_zero, Nat.mul_zero, pow_zero, Nat.div_one]
      omega
    | succ k =>
      have hdiv : memNat m a (n + 1) / 2 ^ (8 * (k + 1)) = memNat m (a + 1) n / 2 ^ (8 * k) := by
        rw [show 8 * (k + 1) = 8 + 8 * k by omega, pow_add, ← Nat.div_div_eq_div_mul, hcons]
        congr 1
        omega
      rw [hdiv, ← ih (a + 1) k (by omega), show a + 1 + k = a + (k + 1) by omega]

theorem State.OnlyBytes.of_memPut {s t : State} {a n v : Nat} (hs : s.Inv) (ht : t.mem = memPut s.mem a (leBytes n v)) :
    s.OnlyBytes t a n v := by
  intro b
  rw [ht]
  split
  · next h =>
    obtain ⟨k, rfl⟩ := Nat.exists_eq_add_of_le h.1
    have hk : k < (leBytes n v).length := by rw [leBytes_length]; omega
    rw [memGet_memPut_in _ _ _ _ hs hk, leBytes_getElem, Nat.add_sub_cancel_left]
  · next h => exact memGet_memPut_out _ _ _ _ (by rw [leBytes_length]; omega)

/-- Where nothing is stored, the bytes are those read. -/
theorem State.OnlyBytes.of_same {s t : State} (a n : Nat) (ht : t.mem = s.mem) : s.OnlyBytes t a n (memNat s.mem a n) := by
  intro b
  rw [ht]
  split
  · next h =>
    obtain ⟨k, rfl⟩ := Nat.exists_eq_add_of_le h.1
    rw [memGet_eq_memNat_div _ _ n _ (by omega), Nat.add_sub_cancel_left]
  · rfl

/-! A scalar access of a hart at rest, to lane memory. -/

@[simp] theorem State.deliverOut_cur (s : State) (dst n : Nat) : (s.deliverOut dst n).cur = s.cur := by
  induction n generalizing s with
  | zero => rfl
  | succ n ih =>
    rw [State.deliverOut]
    split
    · rfl
    · exact ih _

theorem State.unread_cur (s : State) (r : Nat) : (s.unread r).cur = s.cur :=
  List.foldlRecOn _ _ (motive := fun t : State => t.cur = s.cur) rfl fun t ht a _ => by rwa [State.deliverOut_cur]

theorem State.endHolds_cur (s : State) (h : Nat) : (s.endHolds h).cur = s.cur := by
  unfold State.endHolds
  split <;> rw [State.unread_cur]
  rfl

/-- A hart with nothing outstanding, no poisoned line and an empty queue. -/
def Hart.Settled (x : Hart) : Prop := x.pend = [] ∧ x.rsPoison = [] ∧ x.queue = []

theorem Hart.Settled.advanced {s : State} (h : s.AtRest) : s.me.advanced.dropReads.Settled := ⟨h.settled, h.clean, h.empty⟩

theorem Hart.Settled.setReg {x : Hart} (h : x.Settled) (n : Nat) (v : Word) : (x.setReg n v).Settled := by
  unfold Hart.setReg
  split <;> exact h

/-- What an access that succeeds leaves of an instruction that runs: its hart, y, waits at no home any more, and the flags are
in it. -/
theorem access_completes {s u : State} {i : Instr} {o : Fields} {v : Nat} {f : BitVec 8} {k : State → Nat → State} {y : Hart}
    (body : State → Res) (h : s.CanRun i o) (hx : exec i s = issue i o body s)
    (hb : body s.begun = (Eff.ok u v f).toRes s.begun s.cur k) (hu : u.harts = s.begun.harts) (hcur : u.cur = s.cur)
    (hk : k (u.endHolds s.cur) v = (u.endHolds s.cur).modHart s.cur fun _ => y) (hy : y.Settled) :
    ∃ t, exec i s = .next t ∧ t.me = y.orFlags f ∧ t.cur = s.cur ∧ (∀ j, j ≠ s.cur → t.hart j = s.hart j) ∧ t.mem = u.mem := by
  obtain ⟨hpend, hclean, hqueue⟩ := hy
  have hlen : s.cur < (u.endHolds s.cur).harts.length := by
    rw [State.endHolds_length, hu]
    simpa [State.begun] using h.here
  generalize hw : ((u.endHolds s.cur).modHart s.cur fun _ => y).modHart s.cur (fun x => x.orFlags f) = w at hb
  have hme : w.hart s.cur = y.orFlags f := by
    rw [← hw, State.hart_modHart _ _ _ (by rwa [State.modHart_length]), State.hart_modHart _ _ _ hlen]
  have hwcur : w.cur = s.cur := by
    rw [← hw]
    exact (u.endHolds_cur s.cur).trans hcur
  have hend : w.issued s.cur i o = w.countIssue (w.hart s.cur).coreNo i :=
    State.issued_settled w s.cur (by rw [hme]; exact hpend) (by rw [hme]; exact hclean)
  refine ⟨w.issued s.cur i o, ?_, ?_, ?_, fun j hj => ?_, ?_⟩
  · rw [hx, issue_run h, hb, Eff.toRes, hk, hw]
    exact congrArg _ (State.settle_unfaulted (by rw [hend, State.countIssue_hart, hme]; exact Hart.headFaulted_empty hqueue))
  · rw [hend]
    exact (State.countIssue_hart ..).trans (hwcur ▸ hme)
  · rw [hend]
    exact hwcur
  · rw [hend, State.countIssue_hart, ← hw, State.hart_modHart_ne _ _ _ _ hj, State.hart_modHart_ne _ _ _ _ hj,
      State.endHolds_hart_ne _ _ _ hj, State.hart, hu]
    exact State.setHart_hart_ne _ _ _ _ hj
  · rw [hend, ← hw, State.countIssue_mem, State.modHart_mem, State.modHart_mem, State.endHolds_mem]

theorem State.begun_waitMemory {s : State} (h : s.AtRest) (k : StripSide) (l : List Span) (go : State → Res) :
    s.begun.waitMemory s.cur k l go = go s.begun :=
  State.waitUntil_empty _ _ (by rw [State.begun_me h]; exact h.empty)

theorem State.begun_scalarAddr {s : State} (h : s.AtRest) (o : Fields) : scalarAddr o (s.begun.hart s.cur) = scalarAddr o s.me := by
  rw [State.begun_me h]
  rfl

theorem State.begun_scalarWho_core {s : State} (h : s.AtRest) (o : Fields) (a : Word) : (scalarWho o s.begun a).core = s.me.coreNo := by
  show (s.begun.hart s.cur).coreNo = _
  rw [State.begun_me h]
  rfl

theorem State.laneStore_ok {s : State} (w : Who) (core : Nat) (a : Word) (n v : Nat) (ha : a.toNat < laneSize) :
    s.laneStore w core a n v = .ok (s.laneWrite core a.toNat (leBytes n v)) 0 0 := by
  rw [State.laneStore, if_neg (Nat.not_le.2 ha)]

/-- Lane memory with the value that an atomic stores, if it stores one. -/
def State.laneAtomicDone (s : State) (core : Nat) (a : Word) (n : Nat) (v : Option Nat) : State :=
  match v with
  | some v => s.laneWrite core a.toNat (leBytes n v)
  | none => s

theorem State.laneAtomic_ok {s : State} (w : Who) (core : Nat) (a : Word) (n : Nat) (f : Nat → Option Nat × BitVec 8)
    (ha : a.toNat < laneSize) (hp : s.lanePoisoned core a.toNat n = false) : s.laneAtomic w core a n f =
      .ok (s.laneAtomicDone core a n (f (memNat s.mem (laneAt (core, a)) n)).1) (memNat s.mem (laneAt (core, a)) n)
        (f (memNat s.mem (laneAt (core, a)) n)).2 := by
  rw [State.laneAtomic, if_neg (Nat.not_le.2 ha), hp]
  rfl

theorem State.laneAtomicDone_rest (s : State) (core : Nat) (a : Word) (n : Nat) (v : Option Nat) :
    (s.laneAtomicDone core a n v).harts = s.harts ∧ (s.laneAtomicDone core a n v).cur = s.cur := by
  cases v <;> exact ⟨rfl, rfl⟩

theorem State.OnlyBytes.of_laneAtomicDone {s t : State} (hs : s.Inv) (core : Nat) (a : Word) (n : Nat) (v : Option Nat)
    (ht : t.mem = (s.begun.laneAtomicDone core a n v).mem) :
    s.OnlyBytes t (laneAt (core, a)) n (v.getD (memNat s.mem (laneAt (core, a)) n)) := by
  cases v with
  | none => exact .of_same _ _ ht
  | some v => exact .of_memPut hs (ht.trans (State.laneWrite_mem ..))

/-- LD of a clean range. -/
theorem ld_lane {s : State} {o : Fields} (h : s.CanRun (.ld o) o) (hlm : lmBit o = true)
    (hal : aligned (scalarAddr o s.me) (typeBytes o.w.toNat) = true) (hin : (scalarAddr o s.me).toNat < laneSize)
    (hclean : s.lanePoisoned s.me.coreNo (scalarAddr o s.me).toNat (typeBytes o.w.toNat) = false) :
    ldBody o s.begun = (Eff.ok s.begun (memNat s.mem (laneAt (s.me.coreNo, scalarAddr o s.me)) (typeBytes o.w.toNat)) 0).toRes
      s.begun s.cur fun t v => t.modHart s.cur fun y => y.varResult o.d.toNat (extCode o.w.toNat v) := by
  have hcore := State.begun_scalarWho_core h.toAtRest o (scalarAddr o s.me)
  have hload := State.loadEl_lane (s := s.begun) (w := scalarWho o s.begun (scalarAddr o s.me)) hlm false (scalarAddr o s.me)
    (typeBytes o.w.toNat) hin (by rw [hcore]; exact hclean)
  unfold ldBody
  simp only [State.begun_cur, State.begun_scalarAddr h.toAtRest, State.begun_waitMemory h.toAtRest, hal, Bool.not_true,
    Bool.false_eq_true, if_false, hload, hcore]
  rfl

/-- ST of an address inside. -/
theorem st_lane {s : State} {o : Fields} (h : s.CanRun (.st o) o) (hlm : lmBit o = true)
    (hal : aligned (scalarAddr o s.me) (typeBytes o.w.toNat) = true) (hin : (scalarAddr o s.me).toNat < laneSize) :
    stBody o s.begun = (Eff.ok (s.begun.laneWrite s.me.coreNo (scalarAddr o s.me).toNat
      (leBytes (typeBytes o.w.toNat) (s.me.reg o.d.toNat).toNat)) 0 0).toRes s.begun s.cur fun t _ => t := by
  have hstore : s.begun.storeEl (scalarWho o s.begun (scalarAddr o s.me)) (scalarAddr o s.me) (typeBytes o.w.toNat)
      ((s.begun.hart s.cur).reg o.d.toNat).toNat = .ok (s.begun.laneWrite s.me.coreNo (scalarAddr o s.me).toNat
        (leBytes (typeBytes o.w.toNat) (s.me.reg o.d.toNat).toNat)) 0 0 := by
    rw [State.storeEl, if_pos (show (scalarWho o s.begun (scalarAddr o s.me)).lm = true from hlm), State.laneStore_ok _ _ _ _ _ hin,
      State.begun_scalarWho_core h.toAtRest, State.begun_me h.toAtRest]
    rfl
  unfold stBody
  simp only [State.begun_cur, State.begun_scalarAddr h.toAtRest, State.begun_waitMemory h.toAtRest, hal, Bool.not_true,
    Bool.false_eq_true, if_false, hstore]

theorem State.begun_endHolds_hart {s u : State} (h : s.AtRest) (hu : u.harts = s.begun.harts) :
    (u.endHolds s.cur).hart s.cur = s.me.advanced.dropReads := by
  rw [State.endHolds_hart _ _ (by rw [hu]; simpa [State.begun] using h.here), State.hart, hu]
  exact congrArg Hart.dropReads (State.begun_me h)

/-- A scalar atomic on a clean range, with no posted store outstanding. -/
theorem atomic_lane {s : State} {i : Instr} {o : Fields} (h : s.CanRun i o) (f : Hart → Nat → Option Nat × BitVec 8)
    (hlm : lmBit o = true) (hal : aligned (s.me.reg o.a.toNat) (typeBytes o.w.toNat) = true)
    (hin : (s.me.reg o.a.toNat).toNat < laneSize)
    (hclean : s.lanePoisoned s.me.coreNo (s.me.reg o.a.toNat).toNat (typeBytes o.w.toNat) = false) (hout : s.me.outcnt = 0) :
    let old := memNat s.mem (laneAt (s.me.coreNo, s.me.reg o.a.toNat)) (typeBytes o.w.toNat)
    atomicBody o f s.begun = (Eff.ok (s.begun.laneAtomicDone s.me.coreNo (s.me.reg o.a.toNat) (typeBytes o.w.toNat)
        (f s.me.advanced old).1) old (f s.me.advanced old).2).toRes s.begun s.cur fun t v =>
      t.modHart s.cur fun y => y.varResult o.d.toNat (extCode o.w.toNat v) := by
  intro old
  have hat : s.begun.atomicEl (scalarWho o s.begun (s.me.reg o.a.toNat)) (s.me.reg o.a.toNat) (typeBytes o.w.toNat) false
      (f s.me.advanced) = .ok (s.begun.laneAtomicDone s.me.coreNo (s.me.reg o.a.toNat) (typeBytes o.w.toNat)
        (f s.me.advanced old).1) old (f s.me.advanced old).2 := by
    have hcore := State.begun_scalarWho_core h.toAtRest o (s.me.reg o.a.toNat)
    rw [State.atomicEl, if_pos (show (scalarWho o s.begun (s.me.reg o.a.toNat)).lm = true from hlm), hcore,
      State.laneAtomic_ok (s := s.begun) _ _ _ _ _ hin hclean]
    rfl
  have hreg : s.me.advanced.reg o.a.toNat = s.me.reg o.a.toNat := rfl
  have hquiet : (s.begun.hart s.cur).outcnt = 0 := by rw [State.begun_me h.toAtRest]; exact hout
  have hwait (go : State → Res) : atomicWait o s.begun go = go s.begun := by
    unfold atomicWait
    split
    · refine (State.waitUntil_empty _ _ (by rw [State.begun_cur, State.begun_me h.toAtRest]; exact h.empty)).trans ?_
      rw [State.begun_cur, hquiet]
      exact if_neg fun hc => hc.2 rfl
    · exact State.begun_waitMemory h.toAtRest ..
  rw [atomicBody, hwait]
  simp only [State.begun_cur, State.begun_me h.toAtRest, hreg, hal, Bool.not_true, Bool.false_eq_true, if_false, hat]

/-- The state that AMO or CAS leaves in lane memory. -/
theorem atomic_completes {s : State} {i : Instr} {o : Fields} (f : Hart → Nat → Option Nat × BitVec 8)
    (hx : exec i s = issue i o (atomicBody o f) s) (hs : s.Inv) (h : s.CanRun i o)
    (hlm : lmBit o = true) (hal : aligned (s.me.reg o.a.toNat) (typeBytes o.w.toNat) = true)
    (hin : (s.me.reg o.a.toNat).toNat < laneSize)
    (hclean : s.lanePoisoned s.me.coreNo (s.me.reg o.a.toNat).toNat (typeBytes o.w.toNat) = false) (hout : s.me.outcnt = 0) :
    let old := memNat s.mem (laneAt (s.me.coreNo, s.me.reg o.a.toNat)) (typeBytes o.w.toNat)
    ∃ t, exec i s = .next t ∧
      t.me = (({ s.me.advanced with heldReads := [] } : Hart).setReg o.d.toNat (extCode o.w.toNat old)).orFlags (f s.me.advanced old).2 ∧
      s.OnlyBytes t (laneAt (s.me.coreNo, s.me.reg o.a.toNat)) (typeBytes o.w.toNat) ((f s.me.advanced old).1.getD old) ∧
      ∀ j, j ≠ s.cur → t.hart j = s.hart j := by
  intro old
  obtain ⟨hharts, hcur⟩ := s.begun.laneAtomicDone_rest s.me.coreNo (s.me.reg o.a.toNat) (typeBytes o.w.toNat) (f s.me.advanced old).1
  obtain ⟨t, hnext, hme, -, hother, hmem⟩ := access_completes _ h hx (atomic_lane h f hlm hal hin hclean hout) hharts hcur
    (y := s.me.advanced.dropReads.setReg o.d.toNat (extCode o.w.toNat old))
    (by
        rw [State.modHart, State.begun_endHolds_hart h.toAtRest hharts, Hart.varResult_lands _ (Hart.Settled.advanced h.toAtRest).1]
        rfl)
    ((Hart.Settled.advanced h.toAtRest).setReg ..)
  exact ⟨t, hnext, hme, .of_laneAtomicDone hs _ _ _ _ hmem, hother⟩

/-- Settles O36: the access passes its checks, and the instruction ends with what it read in sd. -/
theorem scalarLaneMemory : Obligations.ScalarLaneMemory := by
  unfold Obligations.ScalarLaneMemory
  intro s o x w n a b old inside clean free atomic
  refine ⟨fun h ⟨hlm, hal, hin⟩ hclean => ?ld, fun hs h ⟨hlm, hal, hin⟩ => ?st, ?amo, ?cas⟩
  case ld =>
    obtain ⟨t, hnext, hme, hcur, hother, hmem⟩ := access_completes _ h rfl (ld_lane h hlm hal hin hclean) rfl rfl
      (y := s.me.advanced.dropReads.setReg o.d.toNat (extCode o.w.toNat (old a)))
      (by rw [State.modHart, State.begun_endHolds_hart h.toAtRest rfl, Hart.varResult_lands _ (Hart.Settled.advanced h.toAtRest).1]; rfl)
      ((Hart.Settled.advanced h.toAtRest).setReg ..)
    exact ⟨t, hnext, hme.trans (Hart.orFlags_zero _), hcur, hother, fun k => by rw [hmem]; rfl⟩
  case st =>
    obtain ⟨t, hnext, hme, -, hother, hmem⟩ := access_completes _ h rfl (st_lane h hlm hal hin) rfl rfl
      (y := s.me.advanced.dropReads)
      (State.modHart_self _ _ _ (State.begun_endHolds_hart (u := s.begun.laneWrite ..) h.toAtRest rfl).symm).symm
      (Hart.Settled.advanced h.toAtRest)
    exact ⟨t, hnext, hme.trans (Hart.orFlags_zero _), .of_memPut hs (hmem.trans (State.laneWrite_mem ..)), hother⟩
  case amo => exact fun hs h ⟨hlm, hal, hin⟩ hclean hout => atomic_completes _ rfl hs h hlm hal hin hclean hout
  case cas => exact fun hs h ⟨hlm, hal, hin⟩ hclean hout => atomic_completes _ rfl hs h hlm hal hin hclean hout

end Sys2Proof.Machine

namespace Sys2Proof.Machine

/-! The frame of LD and ST in global memory (R219, R239, R353). What the end of an instruction does to memory is settled by the
queue of its hart, which its own access leaves empty. -/

/-- Memory satisfies P, and the queue of hart h is empty. -/
def State.Quiet (h : Nat) (P : List Host.Cell → Prop) (t : State) : Prop := P t.mem ∧ (t.hart h).queue = []

theorem State.modHart_queue (s : State) (k h : Nat) {f : Hart → Hart} (hf : ∀ x : Hart, (f x).queue = x.queue) :
    ((s.modHart k f).hart h).queue = (s.hart h).queue := by
  by_cases hk : h = k
  · subst hk
    by_cases hh : h < s.harts.length
    · rw [State.hart_modHart _ _ _ hh, hf]
    · simp [State.modHart, State.setHart, State.hart, hh]
  · rw [State.hart_modHart_ne _ _ _ _ hk]

theorem State.endHolds_queue (s : State) (k h : Nat) : ((s.endHolds k).hart h).queue = (s.hart h).queue := by
  unfold State.endHolds
  split
  · rw [State.unread_hart]
  · rw [State.unread_hart]
    exact s.modHart_queue k h (f := Hart.dropReads) fun _ => rfl

theorem State.holdRead_queue (s : State) (k h : Nat) (r : Hold) : ((s.holdRead k r).hart h).queue = (s.hart h).queue := by
  cases r with
  | view r => exact s.modHart_queue k h fun x => by split <;> rfl
  | queue key => exact congrArg Hart.queue ((SameHarts.queueAs s k (s.agentOf k) key).hart h)
  | other => rfl

section Quiet
variable {h : Nat} {P : List Host.Cell → Prop} {s t : State}

theorem State.Quiet.store (hs : s.Quiet h P) (e : s.SameStore t) : t.Quiet h P := by
  rwa [State.Quiet, e.mem, e.hart]

theorem State.Quiet.modHart (hs : s.Quiet h P) (k : Nat) {f : Hart → Hart} (hf : ∀ x : Hart, (f x).queue = x.queue) :
    (s.modHart k f).Quiet h P := ⟨hs.1, (s.modHart_queue k h hf).trans hs.2⟩

theorem State.Quiet.endHolds (hs : s.Quiet h P) (k : Nat) : (s.endHolds k).Quiet h P := by
  rwa [State.Quiet, State.endHolds_mem, State.endHolds_queue]

theorem State.Quiet.holdRead (hs : s.Quiet h P) (k : Nat) (r : Hold) : (s.holdRead k r).Quiet h P := by
  rwa [State.Quiet, State.holdRead_mem, State.holdRead_queue]

/-- An access leaves memory and the queue as its effect, or the state before it, has them. -/
theorem Eff.toRes_quiet {r : Eff} {k : State → Nat → State} (hr : r.All (State.Quiet h P)) (hs : s.Quiet h P)
    (hk : ∀ t v, t.Quiet h P → (k t v).Quiet h P) (j : Nat) : (r.toRes s j k).All (State.Quiet h P) := by
  cases r with
  | ok t v f => exact (hk _ _ (State.Quiet.endHolds hr j)).modHart j fun _ => rfl
  | fault t => exact hs
  | held q => exact hs.holdRead ..
  | stop f => trivial

/-- With an empty queue, the end of an instruction changes no byte of memory. -/
theorem finish_quiet {r : Res} (i : Instr) (o : Fields) (pc : BitVec 48) (hr : r.All (State.Quiet h P)) :
    OutAll (fun t => P t.mem) (finish h i o pc r) := by
  cases r with
  | ok t =>
    obtain ⟨hp, hq⟩ := hr
    rw [finish, OutAll, State.settle_empty (by rwa [issued_queue]), State.issued_mem]
    exact hp
  | trap t tr =>
    obtain ⟨hp, hq⟩ := hr
    rw [finish_trap _ _ _ _ hq, OutAll, State.takeTrap_mem]
    exact hp
  | trapNext t tr =>
    obtain ⟨hp, hq⟩ := hr
    rw [finish_trapNext _ _ _ _ hq, OutAll, State.takeTrap_mem, State.issued_mem]
    exact hp
  | hold t =>
    obtain ⟨hp, hq⟩ := hr
    rw [finish, OutAll, State.backTo, State.settle_empty, State.modHart_mem]
    · exact hp
    · refine (t.modHart_queue h h ?_).trans hq
      exact fun _ => rfl
  | stop f => trivial

end Quiet

theorem State.begun_quiet {s : State} {P : List Host.Cell → Prop} (h : s.AtRest) (hp : P s.mem) : s.begun.Quiet s.cur P :=
  ⟨hp, by rw [State.begun_me h]; exact h.empty⟩

theorem State.SameHarts.accessPage (s : State) (w : Who) (acc : Access) (a : Nat) : (s.accessPage w acc a).All s.SameHarts := by
  have htr : (s.translate w.asn w.sup acc a).All s.SameHarts := by
    cases e : s.translate w.asn w.sup acc a with
    | ok t pa pte => exact .translate e
    | _ => trivial
  unfold State.accessPage
  generalize s.translate w.asn w.sup acc a = r at htr
  split
  · exact htr
  · split
    · trivial
    · cases r with
      | ok t pa pte => exact SameHarts.trans htr (.leavePage ..)
      | _ => trivial

theorem State.SameHarts.hitOrPage (s : State) (w : Who) (acc : Access) (a : Nat) : (s.hitOrPage w acc a).All s.SameHarts := by
  unfold State.hitOrPage
  split
  · split
    · exact .refl s
    · exact SameHarts.accessPage ..
  · exact SameHarts.accessPage ..

/-- A posted store leaves memory as it is, or stores its bytes at its PA. -/
theorem State.postStore_quiet {h : Nat} {P : List Host.Cell → Prop} {s : State} (hs : s.Quiet h P) (w : Who) (a : Word) (pa n v : Nat)
    (hput : ∀ m, P m → P (memPut m pa (leBytes n v))) : (s.postStore w a pa n fun t => .ok t v 0).All (State.Quiet h P) := by
  unfold State.postStore
  split
  · trivial
  · refine (State.leaveDie_store ..).bind fun t ht => ?_
    extract_lets sent
    have hsent {u : State} (hu : u.Quiet h P) (f : BitVec 8) : (sent u f).All (State.Quiet h P) := by
      have hcnt : (u.modHart w.h fun x => { x with outcnt := x.outcnt + 1 }).Quiet h P := hu.modHart w.h fun _ => rfl
      exact ⟨hcnt.1, hcnt.2⟩
    clear_value sent
    have htq := hs.store ht
    split
    · exact hsent htq 0
    · split
      · trivial
      · have hrec : ((spanLines pa n).foldl State.recallLine (t.leaveHolds w.h (spanLines pa n))).Quiet h P :=
          htq.store (.trans (.leaveHolds ..) (.foldl (fun u l => ⟨SameHarts.recallLine u l, recallLine_mem u l⟩) _ _))
        exact hsent (u := State.write _ pa (leBytes n v)) ⟨hput _ hrec.1, hrec.2⟩ 0

/-- A store whose PA is known leaves memory as it is, or stores its bytes at that PA. -/
theorem State.storeEl_quiet {h : Nat} {P : List Host.Cell → Prop} {s u : State} {w : Who} {a : Word} {pa : Nat} {pte : Word} (n v : Nat)
    (hlm : w.lm = false) (ha : a.toNat < 2 ^ 48) (hpage : s.hitOrPage w .store a.toNat = .ok u pa pte) (hspace : spaceOf pa ≠ 3)
    (hu : u.Quiet h P) (hput : ∀ m, P m → P (memPut m pa (leBytes n v))) : (s.storeEl w a n v).All (State.Quiet h P) := by
  unfold State.storeEl
  rw [hlm, hpage, if_neg (by decide), if_neg (Nat.not_le.2 ha)]
  dsimp only
  split
  · next e => exact absurd e hspace
  · exact State.postStore_quiet hu w a pa n v hput
  · split
    · refine (State.accessLines_store ..).bind fun t ht => ?_
      have hs : (t.dieWrite (w.core / 32) pa (leBytes n v)).SameHarts
          ((t.dieWrite (w.core / 32) pa (leBytes n v)).wroteCopy w.core pa n) := .wroteCopy ..
      obtain ⟨hm, hq⟩ := hu.store ht
      refine ⟨?_, ?_⟩
      · rw [State.wroteCopy_mem, State.dieWrite_mem]
        exact hput _ hm
      · rw [hs.hart]
        exact (congrArg Hart.queue ((SameHarts.homeWrite t pa (leBytes n v)).hart h)).trans hq
    · trivial

/-- The end of an instruction whose body leaves its hart's queue empty. -/
theorem exec_quiet {s t : State} {i : Instr} {o : Fields} {body : State → Res} {P : List Host.Cell → Prop} (h : s.CanRun i o)
    (hx : exec i s = issue i o body s) (hb : (body s.begun).All (State.Quiet s.cur P)) (ht : exec i s = .next t) : P t.mem := by
  rw [hx, issue_run h] at ht
  exact (finish_quiet i o s.me.pc hb).next ht

/-- Settles O39: what the access and the end of the instruction do to memory, with the queue of the hart empty. -/
theorem scalarMemoryFrame : Obligations.ScalarMemoryFrame := by
  unfold Obligations.ScalarMemoryFrame
  intro s t u o pa pte a finds hlm ha
  have found {P : List Host.Cell → Prop} {acc : Access} (h : s.AtRest) (hp : P s.mem) (hf : finds acc) : u.Quiet s.cur P := by
    obtain ⟨hpage, hmem, -⟩ := hf
    have hharts : s.begun.SameHarts u := (State.SameHarts.hitOrPage ..).ok hpage
    exact ⟨hmem ▸ hp, by rw [hharts.hart]; exact (State.begun_quiet h hp).2⟩
  refine ⟨fun h hf ht => ?ld, fun h hf ht => ?st⟩
  case ld =>
    have hs : s.begun.Quiet s.cur (· = s.mem) := State.begun_quiet h.toAtRest rfl
    have hload := State.loadEl_all (fun t u e (ht : t.Quiet s.cur (· = s.mem)) => ht.store e) hs (scalarWho o s.begun a)
      (fun t ht => ht.modHart _ fun _ => rfl) false a (typeBytes o.w.toNat) fun _ => by
        rw [hf.1]
        exact found (P := (· = s.mem)) h.toAtRest rfl hf
    have hmem : t.mem = s.mem := by
      refine exec_quiet (P := (· = s.mem)) h rfl ?_ ht
      rw [ldBody, State.begun_cur, State.begun_scalarAddr h.toAtRest, State.begun_waitMemory h.toAtRest]
      dsimp only
      split
      · exact hs
      · exact Eff.toRes_quiet hload hs (fun u v hu => hu.modHart _ fun x => Hart.varResult_queue ..) _
    intro b
    rw [hmem]
  case st =>
    have hs : s.begun.Quiet s.cur fun m => ∀ b, b < pa ∨ pa + typeBytes o.w.toNat ≤ b → memGet m b = memGet s.mem b :=
      State.begun_quiet h.toAtRest fun _ _ => rfl
    refine exec_quiet (P := fun m => ∀ b, b < pa ∨ pa + typeBytes o.w.toNat ≤ b → memGet m b = memGet s.mem b) h rfl ?_ ht
    rw [stBody, State.begun_cur, State.begun_scalarAddr h.toAtRest, State.begun_waitMemory h.toAtRest]
    dsimp only
    split
    · exact hs
    · refine Eff.toRes_quiet (State.storeEl_quiet _ _ hlm ha hf.1 hf.2.2 (found h.toAtRest (fun _ _ => rfl) hf) ?_) hs
        (fun u _ hu => hu) _
      intro m hm b hb
      rw [memGet_memPut_out _ _ _ _ (by rwa [leBytes_length]), hm b hb]

end Sys2Proof.Machine

namespace Sys2Proof.Machine

/-! Stores of queued instructions to lane memory (R215, R240, R244, R255), element by element. -/

/-- The state with the elements of a list stored in its order, n bytes of `val k` at `place k`. -/
def State.laneStores (s : State) (n : Nat) (place : Nat → Nat × Word) (val : Nat → Nat) (l : List Nat) : State :=
  l.foldl (fun t k => t.laneWrite (place k).1 (place k).2.toNat (leBytes n (val k))) s

/-- u has the harts of s, and the memory of s with the elements stored. -/
structure State.Stored (s u : State) (n : Nat) (place : Nat → Nat × Word) (val : Nat → Nat) (l : List Nat) : Prop where
  harts : u.harts = s.harts
  cur : u.cur = s.cur
  mem : u.mem = (s.laneStores n place val l).mem

theorem State.laneStores_stored (s : State) (n : Nat) (place : Nat → Nat × Word) (val : Nat → Nat) (l : List Nat) :
    s.Stored (s.laneStores n place val l) n place val l := by
  have h : (s.laneStores n place val l).harts = s.harts ∧ (s.laneStores n place val l).cur = s.cur :=
    List.foldlRecOn (motive := fun t : State => t.harts = s.harts ∧ t.cur = s.cur) _ _ ⟨rfl, rfl⟩ fun _ ht _ _ => ht
  exact ⟨h.1, h.2, rfl⟩

/-- A byte that no element addresses. -/
theorem memGet_laneStores_out (s : State) {n : Nat} {place : Nat → Nat × Word} {val : Nat → Nat} {l : List Nat} {a : Nat}
    (h : ∀ k ∈ l, ¬ (laneAt (place k) ≤ a ∧ a < laneAt (place k) + n)) :
    memGet (s.laneStores n place val l).mem a = memGet s.mem a := by
  induction l generalizing s with
  | nil => rfl
  | cons k l ih =>
    have hk := h k (by simp)
    refine (ih _ fun j hj => h j (by simp [hj])).trans ?_
    rw [State.laneWrite_mem]
    refine memGet_memPut_out _ _ _ _ ?_
    rw [leBytes_length]
    unfold laneAt at hk
    omega

/-- A byte takes its value from the last element that addresses it. -/
theorem memGet_laneStores_last {s : State} (hs : s.Inv) {n : Nat} {place : Nat → Nat × Word} {val : Nat → Nat} {l : List Nat}
    (hl : l.Pairwise (· < ·)) {k a : Nat} (hk : k ∈ l) (ha : laneAt (place k) ≤ a ∧ a < laneAt (place k) + n)
    (hlast : ∀ j ∈ l, k < j → ¬ (laneAt (place j) ≤ a ∧ a < laneAt (place j) + n)) :
    memGet (s.laneStores n place val l).mem a = BitVec.ofNat 8 (val k / 2 ^ (8 * (a - laneAt (place k)))) := by
  induction l generalizing s with
  | nil => cases hk
  | cons i l ih =>
    obtain ⟨hi, hl⟩ := List.pairwise_cons.1 hl
    have hstep : (s.laneStores n place val (i :: l)) =
        (s.laneWrite (place i).1 (place i).2.toNat (leBytes n (val i))).laneStores n place val l := rfl
    rw [hstep]
    rcases List.mem_cons.1 hk with rfl | hk
    · have hone : s.OnlyBytes (s.laneWrite (place k).1 (place k).2.toNat (leBytes n (val k))) (laneAt (place k)) n (val k) :=
        .of_memPut hs (State.laneWrite_mem ..)
      rw [memGet_laneStores_out _ fun j hj => hlast j (by simp [hj]) (hi j hj), hone a, if_pos ha]
    · exact ih (s := s.laneWrite ..) (memPut_wf _ _ hs) hl hk fun j hj => hlast j (by simp [hj])

/-- Elements that are all stored. -/
theorem runElems_laneStores {f : State → Nat → Eff} {n : Nat} {place : Nat → Nat × Word} {val : Nat → Nat} (l : List Nat)
    (hf : ∀ t, ∀ k ∈ l, f t k = .ok (t.laneWrite (place k).1 (place k).2.toNat (leBytes n (val k))) 0 0) (s : State)
    (v : Table Nat) (g : BitVec 8) : runElems f l s v g = .ok (s.laneStores n place val l) (v ++ l.map fun k => (k, 0)) g := by
  induction l generalizing s v with
  | nil => simp [runElems, State.laneStores]
  | cons k l ih =>
    rw [runElems, hf s k (by simp)]
    dsimp only
    rw [show g ||| 0 = g from BitVec.or_zero, ih (fun t j hj => hf t j (by simp [hj]))]
    simp [State.laneStores]

theorem State.cleanPoison_sameStore (s : State) (core : Nat) (spans : List (Nat × Nat)) :
    s.SameStore (s.cleanPoison core spans) ∧ (s.cleanPoison core spans).cur = s.cur := by
  unfold State.cleanPoison
  split
  · exact ⟨.refl s, rfl⟩
  · exact ⟨⟨rfl, rfl⟩, rfl⟩

theorem State.storesDone_sameStore (s : State) (w : Who) (n : Nat) (l : List Word) :
    s.SameStore (s.storesDone w n l) ∧ (s.storesDone w n l).cur = s.cur := by
  unfold State.storesDone
  split
  · exact ⟨.refl s, rfl⟩
  · exact s.cleanPoison_sameStore ..

/-- A memory instruction whose elements are all stored; `done` is what it does once they are through. -/
theorem finish_stores {f : State → Nat → Eff} {n : Nat} {place : Nat → Nat × Word} {val : Nat → Nat} {s : State} {h g : Nat}
    {l : List Nat} {put : Hart → Table Nat → Hart} {done : Batch → State} (hl : l.Pairwise (· < ·)) (hput : ∀ x vals, put x vals = x)
    (hdone : ∀ b : Batch, b.s.SameStore (done b) ∧ (done b).cur = b.s.cur)
    (hf : ∀ t, ∀ k ∈ l, f t k = .ok (t.laneWrite (place k).1 (place k).2.toNat (leBytes n (val k))) 0 0) :
    ∃ u, finishBatch s h f l ((runGroups f (groupsOf g l) { s := s }).stored fun b => .ok (done b) 0 0) put true = .done u 0 none ∧
      s.Stored u n place val l := by
  obtain ⟨hharts, hcur, -⟩ := s.laneStores_stored n place val l
  rw [runGroups_ok f g l s hl (runElems_laneStores l hf s [] 0)]
  generalize hb : ({ s := s.laneStores n place val l, vals := _, f := 0 } : Batch) = b
  have hbs : b.s = s.laneStores n place val l := by rw [← hb]
  obtain ⟨hsame, hdcur⟩ := hdone b
  refine ⟨(done b).modHart h fun x => put x b.vals, ?_, ?_, ?_, ?_⟩
  · subst hb
    rfl
  · rw [State.modHart_self _ _ _ (hput ..), hsame.harts, hbs, hharts]
  · rw [State.modHart_cur, hdcur, hbs, hcur]
  · rw [State.modHart_mem, hsame.mem, hbs]

/-- A store to lane memory that is performed with the elements that it stores. -/
def StoresWith (i : Instr) (o : Fields) (s : State) (n : Nat) (place : Nat → Nat × Word) (val : Nat → Nat) (l : List Nat) : Prop :=
  ∃ u, performRaw none (s.entry i o) s.cur (s.pushedNow i o) = .done u 0 none ∧ (s.pushedNow i o).Stored u n place val l

/-- What a queued store leaves: its hart with the entry done with, and memory with the elements stored. -/
theorem stores_complete {s : State} {i : Instr} {o : Fields} {check : Fields → Hart → Option PushIll} {n : Nat}
    {place : Nat → Nat × Word} {val : Nat → Nat} {l : List Nat} (h : s.CanPush i o check) (hx : exec i s = vecIssue i o check s)
    (hi : ∀ o, i ≠ .endI o) (hv : retiresEmpty i = false ∨ (s.entry i o).vl ≠ 0)
    (hcount : ∀ (t : State) x z, t.countPipes (s.entry i o) x z true = t) (hd : StoresWith i o s n place val l) :
    ∃ t, exec i s = .next t ∧ t.mem = ((s.pushedNow i o).laneStores n place val l).mem ∧
      t.me = { s.me.advanced with
        vqtail := s.me.vqtail + BitVec.ofNat 16 (s.entry i o).size, vcp := s.me.vcp + BitVec.ofNat 16 (s.entry i o).size
        vstart := 0 } ∧ ∀ k, k ≠ s.cur → t.hart k = s.hart k := by
  obtain ⟨u, hd, hharts, hcur, hmem⟩ := hd
  have hn := State.pushedNow_hart h.toAtRest i o
  have hperf : performInstr none (s.entry i o) s.cur (s.pushedNow i o) = .done u 0 none := by
    rw [performInstr_clean none (by rw [hn]; exact h.clean) hv, hd]
    exact congrArg (fun t => PRes.done t 0 none) (hcount _ _ _)
  have hall (k : Nat) : u.hart k = (s.pushedNow i o).hart k := by rw [State.hart, hharts]; rfl
  have hu : u.hart s.cur = s.pushedMe i o := (hall s.cur).trans hn
  have hlen : s.cur < u.harts.length := by
    rw [hharts]
    exact pushedNow_here h.toAtRest i o
  have hz : (u.modHart s.cur fun y => y.retired (s.entry i o) 0 none).hart s.cur =
      { s.me.advanced with
        vqtail := s.me.vqtail + BitVec.ofNat 16 (s.entry i o).size, vcp := s.me.vcp + BitVec.ofNat 16 (s.entry i o).size
        vstart := 0 } := by
    rw [State.hart_modHart _ _ _ hlen, hu]
    exact retired_pushed h.toAtRest i o s.me.v s.me.fib
  have hend := State.issued_settled (i := i) (o := o) (u.modHart s.cur fun y => y.retired (s.entry i o) 0 none) s.cur
    (by rw [hz]; exact h.settled) (by rw [hz]; exact h.clean)
  refine ⟨_, retires_of h hx hi hperf (by rw [hu]; rfl) hlen, ?_, ?_, fun k hk => ?_⟩
  · rw [State.issued_mem, State.modHart_mem, hmem]
  · rw [hend, State.me, State.countIssue_hart, State.countIssue, State.countCore_cur, State.modHart_cur, hcur]
    exact hz
  · rw [hend, State.countIssue_hart, State.hart_modHart_ne _ _ _ _ hk, hall]
    exact ((State.SameOutside.start s).pushEntry _).others k hk

/-- A dense store whose active elements are aligned and inside lane memory. -/
theorem denseMem_stores {t : State} {h : Nat} {e : QEntry} {o : Fields} {bad : Bool} {addr : Nat → Word} (hp : e.part = false)
    (hlm : lmBit o = true) (hbad : bad = false)
    (hok : ∀ k < e.vl, activeAt e o (t.hart h) k = true → aligned (addr k) (e.vt.bits / 8) = true ∧ (addr k).toNat < laneSize) :
    ∃ u, denseMem t h e o true bad addr = .done u 0 none ∧ t.Stored u (e.vt.bits / 8) (fun k => ((t.hart h).coreNo, addr k))
      (fun k => (t.hart h).velem e.vd e.vt.bits k) (dueElems e o (t.hart h)) := by
  have hfind : (((List.range e.vl).filter fun i => activeAt e o (t.hart h) i).find? fun i => !aligned (addr i) (e.vt.bits / 8)) =
      none := by
    rw [List.find?_eq_none]
    intro i hi
    obtain ⟨hlt, ha⟩ := List.mem_filter.1 hi
    simp [(hok i (List.mem_range.1 hlt) ha).1]
  unfold denseMem
  simp only [hfind, hbad, Bool.false_eq_true, if_false, if_true]
  refine finish_stores (dueElems_sorted e o _) (fun _ _ => rfl) (fun b => b.s.storesDone_sameStore ..) fun u k hk => ?_
  obtain ⟨hlt, ha⟩ := (mem_dueElems hp o _ k).1 hk
  obtain ⟨-, hin⟩ := hok k hlt ha
  rw [State.storeEl, if_pos (show (entryWho t h e o).lm = true from hlm)]
  exact State.laneStore_ok _ _ _ _ _ hin

/-- A peer store whose active elements are inside a lane memory. -/
theorem peerMem_stores {t : State} {h : Nat} {e : QEntry} {o : Fields} (hp : e.part = false)
    (hok : ∀ k < e.vl, activeAt e o (t.hart h) k = true →
      (peerPlace (t.who h e.prv true 0) ((t.hart h).velem e.va e.vt.bits k % 2 ^ 32) (e.vt.bits / 8)).2.toNat < laneSize) :
    ∃ u, peerMem e o h t true = .done u 0 none ∧ t.Stored u (e.vt.bits / 8)
      (fun k => peerPlace (t.who h e.prv true 0) ((t.hart h).velem e.va e.vt.bits k % 2 ^ 32) (e.vt.bits / 8))
      (fun k => (t.hart h).velem e.vd e.vt.bits k) (dueElems e o (t.hart h)) := by
  unfold peerMem
  simp only [if_true]
  refine finish_stores (dueElems_sorted e o _) (fun _ _ => rfl) (fun b => b.s.cleanPoison_sameStore ..) fun u k hk => ?_
  obtain ⟨hlt, ha⟩ := (mem_dueElems hp o _ k).1 hk
  exact State.laneStore_ok _ _ _ _ _ (hok k hlt ha)

/-- What a vector store to lane memory stores and leaves (R215, R240, R244). -/
def LaneStore (i : Instr) (o : Fields) (s : State) (check : Fields → Hart → Option PushIll) (straight : QEntry → Prop)
    (place : QEntry → Nat → Nat × Word) : Prop :=
  let e := s.entry i o
  let n := e.vt.bits / 8
  let covers (k a : Nat) : Prop := laneAt (place e k) ≤ a ∧ a < laneAt (place e k) + n
  s.Inv → s.CanPush i o check → 0 < e.vl → straight e →
  (∀ k < e.vl, activeAt e o s.me k = true → aligned (place e k).2 n = true ∧ (place e k).2.toNat < laneSize) →
  ∃ t, exec i s = .next t ∧
    (∀ a, (∀ k < e.vl, activeAt e o s.me k = true → ¬ covers k a) → memGet t.mem a = memGet s.mem a) ∧
    (∀ k < e.vl, activeAt e o s.me k = true → ∀ a, covers k a →
      (∀ j, k < j → j < e.vl → activeAt e o s.me j = true → ¬ covers j a) →
      memGet t.mem a = BitVec.ofNat 8 (s.me.velem e.vd e.vt.bits k / 2 ^ (8 * (a - laneAt (place e k))))) ∧
    t.me = { s.me.advanced with
      vqtail := s.me.vqtail + BitVec.ofNat 16 e.size, vcp := s.me.vcp + BitVec.ofNat 16 e.size, vstart := 0 } ∧
    ∀ h, h ≠ s.cur → t.hart h = s.hart h

/-- A vector store whose elements all pass their checks. -/
theorem laneStore_of {s : State} {i : Instr} {o : Fields} {check : Fields → Hart → Option PushIll} {straight : QEntry → Prop}
    {place : QEntry → Nat → Nat × Word} (hx : exec i s = vecIssue i o check s) (hi : ∀ o, i ≠ .endI o)
    (hcount : ∀ (t : State) x z, t.countPipes (s.entry i o) x z true = t)
    (hd : straight (s.entry i o) → (∀ k < (s.entry i o).vl, activeAt (s.entry i o) o s.me k = true →
        aligned (place (s.entry i o) k).2 ((s.entry i o).vt.bits / 8) = true ∧ (place (s.entry i o) k).2.toNat < laneSize) →
      ((s.pushedNow i o).hart s.cur = s.pushedMe i o) →
      StoresWith i o s ((s.entry i o).vt.bits / 8) (place (s.entry i o))
        (fun k => s.me.velem (s.entry i o).vd (s.entry i o).vt.bits k) (dueElems (s.entry i o) o s.me)) :
    LaneStore i o s check straight place := by
  intro hs h hv hst hok
  obtain ⟨t, ht, hmem, hme, hother⟩ := stores_complete h hx hi (.inr (Nat.ne_of_gt hv)) hcount
    (hd hst hok (State.pushedNow_hart h.toAtRest i o))
  refine ⟨t, ht, fun a ha => ?_, fun k hk hak a ha hlast => ?_, hme, hother⟩
  · rw [hmem]
    refine memGet_laneStores_out _ fun k hk => ?_
    obtain ⟨hlt, hact⟩ := (mem_dueElems rfl o _ k).1 hk
    exact ha k hlt hact
  · rw [hmem]
    refine memGet_laneStores_last (s := s.pushedNow i o) hs (dueElems_sorted _ o _) ((mem_dueElems rfl o _ k).2 ⟨hk, hak⟩) ha
      fun j hj hkj => ?_
    obtain ⟨hlt, hact⟩ := (mem_dueElems rfl o _ j).1 hj
    exact hlast j hkj hlt hact

/-- The three dense stores to lane memory. -/
theorem vst_laneStore (s : State) (o : Fields) (hlm : lmBit o = true) :
    LaneStore (.vst o) o s checkDense (fun e => aligned (baseOf e o) (e.vt.bits / 8) = true)
      fun e k => (s.me.coreNo, unitAddr e o k) := by
  refine laneStore_of rfl nofun (fun _ _ _ => rfl) fun hst hok hm => ?_
  obtain ⟨u, hu, hstored⟩ := denseMem_stores (t := s.pushedNow (.vst o) o) (h := s.cur) (e := s.entry (.vst o) o) (o := o)
    (bad := !aligned (baseOf (s.entry (.vst o) o) o) ((s.entry (.vst o) o).vt.bits / 8)) rfl hlm (by rw [hst]; rfl)
    (by rw [hm]; exact hok)
  refine ⟨u, ?_, by rwa [hm] at hstored⟩
  show memVst _ o _ _ = _
  rw [memVst]
  simp only [hlm, Bool.or_true, Bool.true_or, if_true]
  exact hu

theorem vsts_laneStore (s : State) (o : Fields) (hlm : lmBit o = true) :
    LaneStore (.vsts o) o s checkDense (fun e => strideBad e o = false) fun e k => (s.me.coreNo, strideAddr e o k) := by
  refine laneStore_of rfl nofun (fun _ _ _ => rfl) fun hst hok hm => ?_
  obtain ⟨u, hu, hstored⟩ := denseMem_stores (t := s.pushedNow (.vsts o) o) (h := s.cur) rfl hlm hst (by rw [hm]; exact hok)
  exact ⟨u, hu, by rwa [hm] at hstored⟩

theorem vstx_laneStore (s : State) (o : Fields) (hlm : lmBit o = true) :
    LaneStore (.vstx o) o s checkVstx (fun _ => True) fun e k => (s.me.coreNo, indexAddr e o s.me k) := by
  refine laneStore_of rfl nofun (fun _ _ _ => rfl) fun _ hok hm => ?_
  obtain ⟨u, hu, hstored⟩ := denseMem_stores (t := s.pushedNow (.vstx o) o) (h := s.cur) (e := s.entry (.vstx o) o)
    (addr := indexAddr (s.entry (.vstx o) o) o ((s.pushedNow (.vstx o) o).hart s.cur)) rfl hlm rfl (by rw [hm]; exact hok)
  exact ⟨u, hu, by rwa [hm] at hstored⟩

/-- The store to the lane memories of peers. -/
theorem vstp_laneStore (s : State) (o : Fields) :
    LaneStore (.vstp o) o s checkVstp (fun _ => True) fun e k =>
      peerPlace (s.who s.cur s.me.sup true 0) (s.me.velem e.va e.vt.bits k % 2 ^ 32) (e.vt.bits / 8) := by
  refine laneStore_of rfl nofun (fun _ _ _ => rfl) fun _ hok hm => ?_
  have hw : (s.pushedNow (.vstp o) o).who s.cur (s.entry (.vstp o) o).prv true 0 = s.who s.cur s.me.sup true 0 := by
    rw [State.who, hm]
    rfl
  obtain ⟨u, hu, hstored⟩ := peerMem_stores (t := s.pushedNow (.vstp o) o) (h := s.cur) (e := s.entry (.vstp o) o) (o := o) rfl
    (by rw [hm, hw]; exact fun k hk ha => (hok k hk ha).2)
  exact ⟨u, hu, by rwa [hm, hw] at hstored⟩

/-! FST to lane memory (R255). -/

/-- Where FST puts pair k. -/
def fstPlace (core : Nat) (base : Word) (k : Nat) : Nat × Word := (core, base + BitVec.ofNat 64 (8 * k))

theorem fstPlace_toNat {base : Word} {n k : Nat} (hin : base.toNat + 8 * n ≤ laneSize) (hk : k < n) (core : Nat) :
    (fstPlace core base k).2.toNat = base.toNat + 8 * k := by
  have hs : laneSize = 1048576 := rfl
  rw [fstPlace, BitVec.toNat_add, BitVec.toNat_ofNat]
  omega

theorem laneAt_fstPlace {base : Word} {n k : Nat} (hin : base.toNat + 8 * n ≤ laneSize) (hk : k < n) (core : Nat) :
    laneAt (fstPlace core base k) = laneAt (core, base) + 8 * k := by
  rw [laneAt, fstPlace_toNat hin hk, laneAt, Nat.add_assoc]
  rfl

/-- FST whose pairs are aligned and inside lane memory. -/
theorem memFst_stores {t : State} {h : Nat} {e : QEntry} {o : Fields} (hp : e.part = false) (hlm : lmBit o = true)
    (hal : (baseOf e o).toNat % 8 = 0) (hin : (baseOf e o).toNat + 8 * ((t.hart h).fibreReg o.d.toNat).occ ≤ laneSize) :
    ∃ u, memFst e o h t = .done u 0 none ∧ t.Stored u 8 (fstPlace (t.hart h).coreNo (baseOf e o))
      (fun k => ((t.hart h).fibreReg o.d.toNat).coord k + 2 ^ 32 * ((t.hart h).fibreReg o.d.toNat).val k)
      (List.range ((t.hart h).fibreReg o.d.toNat).occ) := by
  have hal' : aligned (entryWho t h e o).base 8 = true := decide_eq_true hal
  have hdue : ((List.range ((t.hart h).fibreReg o.d.toNat).occ).filter fun k =>
      !e.part || (t.hart h).fmask == 0 || (t.hart h).fmask.getLsbD k) = List.range ((t.hart h).fibreReg o.d.toNat).occ := by
    rw [List.filter_eq_self]
    intro k _
    simp [hp]
  unfold memFst
  simp only [hal', hdue, Bool.not_true, Bool.false_eq_true, if_false]
  refine finish_stores List.pairwise_lt_range (fun _ _ => rfl) (fun b => b.s.storesDone_sameStore ..) fun u k hk => ?_
  rw [State.storeEl, if_pos (show (entryWho t h e o).lm = true from hlm)]
  refine State.laneStore_ok _ _ _ _ _ ?_
  have hk := List.mem_range.1 hk
  have ha := fstPlace_toNat hin hk (t.hart h).coreNo
  exact (ha ▸ (by omega : (baseOf e o).toNat + 8 * k < laneSize) : (fstPlace (t.hart h).coreNo (baseOf e o) k).2.toNat < laneSize)

/-- Settles O33: each store is performed with its elements stored one by one. -/
theorem laneMemoryStores : Obligations.LaneMemoryStores := by
  unfold Obligations.LaneMemoryStores
  intro s o x stores own
  refine ⟨fun hlm => ⟨vst_laneStore s o hlm, vsts_laneStore s o hlm, vstx_laneStore s o hlm⟩, vstp_laneStore s o, ?_⟩
  intro e fb lo hlm hs h hal hin
  have hm := State.pushedNow_hart h.toAtRest (.fst o) o
  obtain ⟨u, hu, hstored⟩ := memFst_stores (t := s.pushedNow (.fst o) o) (h := s.cur) (e := e) (o := o) rfl hlm hal
    (by rw [hm]; exact hin)
  rw [hm] at hstored
  obtain ⟨t, ht, hmem, hme, hother⟩ := stores_complete h rfl nofun (.inl rfl) (fun _ _ _ => rfl) ⟨u, hu, hstored⟩
  have hat {k : Nat} (hk : k < fb.occ) : laneAt (fstPlace x.coreNo (baseOf e o) k) = lo + 8 * k := laneAt_fstPlace hin hk _
  refine ⟨t, ht, fun a ha => ?_, fun k hk b hb => ?_, hme, hother⟩
  · rw [hmem]
    refine memGet_laneStores_out _ fun k hk => ?_
    have hk : k < fb.occ := List.mem_range.1 hk
    have := hat hk
    show ¬ (laneAt (fstPlace x.coreNo (baseOf e o) k) ≤ a ∧ a < laneAt (fstPlace x.coreNo (baseOf e o) k) + 8)
    omega
  · rw [hmem]
    have hlast := memGet_laneStores_last (s := s.pushedNow (.fst o) o) (n := 8) (place := fstPlace x.coreNo (baseOf e o))
      (val := fun k => fb.coord k + 2 ^ 32 * fb.val k) hs (l := List.range fb.occ) List.pairwise_lt_range (k := k)
      (a := lo + 8 * k + b) (List.mem_range.2 hk) (by rw [hat hk]; omega) fun j hj hkj => by
        rw [hat (List.mem_range.1 hj)]
        omega
    refine hlast.trans ?_
    rw [hat hk, Nat.add_sub_cancel_left]

end Sys2Proof.Machine

namespace Sys2Proof.Machine

/-! The directory's events (R353, R355 to R357). -/

theorem tget_tset {α : Type} (t : Table α) (k j : Nat) (x d : α) : tget (tset t k x) j d = if j = k then x else tget t j d := by
  rw [tget_tfind, tget_tfind, tfind_tset]
  split <;> rfl

theorem tget_tdel {α : Type} (t : Table α) (k j : Nat) (d : α) : tget (tdel t k) j d = if j = k then d else tget t j d := by
  unfold tdel
  induction t with
  | nil => simp [tget]
  | cons p t ih =>
    obtain ⟨i, x⟩ := p
    by_cases hi : i = k
    · subst hi
      simp only [List.filter_cons, ne_eq, not_true, decide_false, Bool.false_eq_true, if_false, ih, tget]
      by_cases hj : j = i
      · simp [hj]
      · simp [hj, Ne.symm hj]
    · simp only [List.filter_cons, ne_eq, hi, not_false_iff, decide_true, if_true, ih, tget]
      by_cases hij : i = j
      · subst hij
        simp [hi]
      · simp [hij]

namespace State
section Dir
variable (s : State)

theorem setDir_dirOf (line l : Nat) (x : DirSt) : (s.setDir line x).dirOf l = if l = line then x else s.dirOf l := by
  have hdir : (s.setDir line x).dir = match x with
      | .i => tdel s.dir line
      | y => tset s.dir line y := by
    unfold State.setDir
    dsimp only
    split
    · exact freeTag_dir ..
    · rfl
  rw [dirOf, hdir]
  cases x with
  | i => exact tget_tdel ..
  | s v => exact tget_tset ..
  | em e => exact tget_tset ..
  | h hs hm v => exact tget_tset ..
  | g a e => exact tget_tset ..

@[simp] theorem hbmUse_dir (hub : Nat) : (s.hbmUse hub).dir = s.dir := by unfold hbmUse; split <;> rfl
@[simp] theorem probeDies_dir (hub : Nat) (v : BitVec 24) : (s.probeDies hub v).dir = s.dir := by
  unfold probeDies
  split
  · rfl
  · refine List.foldlRecOn _ _ (motive := fun t : State => t.dir = s.dir) rfl fun t ht d _ => ?_
    split
    · simpa using ht
    · exact ht
@[simp] theorem request_dir (die hub line : Nat) (asn : BitVec 16) : (s.request die hub line asn).dir = s.dir := by
  simp [request, apply_ite State.dir]
@[simp] theorem reply_dir (die hub line : Nat) : (s.reply die hub line).dir = s.dir := by simp [reply, apply_ite State.dir]
@[simp] theorem useGot_dir (line : Nat) : (s.useGot line).dir = s.dir := by simp [useGot, apply_ite State.dir]
@[simp] theorem newCopy_dir (die line : Nat) (fwd : Option Bool) : (s.newCopy die line fwd).dir = s.dir := by
  cases fwd <;> simp [newCopy, plainCopy, apply_ite State.dir]
@[simp] theorem fillCopy_dir (core cls : Nat) (miss : Bool) (fwd : Option Bool) (line : Nat) :
    (s.fillCopy core cls miss fwd line).dir = s.dir := by simp [fillCopy, apply_ite State.dir]
@[simp] theorem addFill_dir (die line : Nat) : (s.addFill die line).dir = s.dir := by unfold addFill; split <;> rfl

theorem moveDir_dirOf (hub line l : Nat) (y : DirSt) : (s.moveDir hub line y).dirOf l = if l = line then y else s.dirOf l := by
  have h : ((s.hbmUse hub).probeDies hub (probedDies (s.dirOf line) y)).dirOf l = s.dirOf l := by simp [dirOf]
  rw [moveDir, setDir_dirOf, h]

@[simp] theorem newCopy_grants (die line : Nat) (fwd : Option Bool) : (s.newCopy die line fwd).grants = s.grants := by
  cases fwd <;> simp [newCopy, plainCopy, apply_ite State.grants]
@[simp] theorem fillCopy_grants (core cls : Nat) (miss : Bool) (fwd : Option Bool) (line : Nat) :
    (s.fillCopy core cls miss fwd line).grants = s.grants := by simp [fillCopy, apply_ite State.grants]
@[simp] theorem addFill_grants (die line : Nat) : (s.addFill die line).grants = s.grants := by unfold addFill; split <;> rfl

theorem SameStore.addFill (die line : Nat) : s.SameStore (s.addFill die line) := by unfold State.addFill; split <;> exact ⟨rfl, rfl⟩

end Dir

theorem mem_modAt {α : Type} {l : List α} {k : Nat} {f : α → α} (h : k < l.length) : f l[k] ∈ modAt l k f := by
  induction l generalizing k with
  | nil => exact absurd h (Nat.not_lt_zero k)
  | cons x l ih =>
    cases k with
    | zero => simp [modAt]
    | succ k =>
      rw [modAt, List.getElem_cons_succ]
      exact List.mem_cons_of_mem _ (ih (by simpa using h))

theorem addFill_fill (s : State) (die line : Nat) : ∃ f ∈ (s.addFill die line).fills, f.die = die ∧ f.line = line := by
  unfold addFill
  split
  · next k hk =>
    obtain ⟨hlt, hf, -⟩ := List.findIdx?_eq_some_iff_getElem.1 hk
    simp only [Bool.and_eq_true, decide_eq_true_eq] at hf
    exact ⟨_, mem_modAt hlt, hf⟩
  · exact ⟨⟨die, line, 1⟩, by simp, rfl, rfl⟩

/-- What a request for a line that its home serves does: the line moves to d, its leave is granted, and the fill is sent. -/
def lineMove (v : State) (die hub line : Nat) (asn : BitVec 16) (d : DirSt) (grant : BitVec 4) (miss : Bool) (fwd : Option Bool) : State :=
  let s1 := (((v.request die hub line asn).moveDir (homeHub hub line) line d).useGot line).reply die hub line
  (({ s1 with grants := tset s1.grants (grantKey die line) grant } : State).fillCopy (32 * die) 1 miss fwd line).addFill die line

section Move
variable (v : State) (die hub line : Nat) (asn : BitVec 16) (d : DirSt) (grant : BitVec 4) (miss : Bool) (fwd : Option Bool)

theorem lineMove_dirOf (l : Nat) : (v.lineMove die hub line asn d grant miss fwd).dirOf l = if l = line then d else v.dirOf l := by
  have hmove : (v.lineMove die hub line asn d grant miss fwd).dirOf l =
      ((v.request die hub line asn).moveDir (homeHub hub line) line d).dirOf l := by simp [lineMove, dirOf]
  have hreq : (v.request die hub line asn).dirOf l = v.dirOf l := by simp [dirOf]
  rw [hmove, moveDir_dirOf, hreq]

theorem lineMove_grant : tfind (v.lineMove die hub line asn d grant miss fwd).grants (grantKey die line) = some grant := by
  simp [lineMove, tfind_tset]

theorem lineMove_store : v.SameStore (v.lineMove die hub line asn d grant miss fwd) := by
  have hmove : v.SameHarts ((((v.request die hub line asn).moveDir (homeHub hub line) line d).useGot line).reply die hub line) :=
    (((SameHarts.request v ..).trans (SameHarts.moveDir ..)).trans (SameHarts.useGot ..)).trans (SameHarts.reply ..)
  have hharts : v.SameHarts (v.lineMove die hub line asn d grant miss fwd) := by
    refine SameHarts.trans (SameHarts.trans ?_ (SameHarts.fillCopy ..)) (SameHarts.ofStore (.addFill ..))
    exact hmove
  exact ⟨hharts, by simp [lineMove]⟩

end Move

/-- A request for a line under the tag record of its frame that passes every check is served. -/
theorem lineServe_ok {s u v : State} {q : LineReq} {tag : TagRec} {pa : Nat} {pte : Word} {d : DirSt}
    (hdie : s.inService q.die = true) (hcached : 128 * q.line < 2 ^ 55) (hfill : s.fillRefused q.die q.line = false)
    (hres : s.resync = false) (htag : tfind s.tags (q.line / 32) = some tag) (htaint : lowestDie (s.taint tag.asn) = none)
    (hturn : s.pageTurn q.place tag.asn (4096 * tag.granule + 128 * (q.line % 32)) = none)
    (htr : s.translate tag.asn true .load (4096 * tag.granule + 128 * (q.line % 32)) = .ok u pa pte) (hline : lineOf pa = q.line)
    (hnc : pteNC pte = false) (hvc : pteVC pte = true → u.lineFresh q.line = true) (hflip : u.flipHolds (128 * q.line) = false)
    (hhome : u.atHost q.line (lineHalves q.line) = false) (hwait : u.waitsTurn q.place q.line = false)
    (hnext : (if q.own then Want.own else Want.read).next q.die (u.watched q.line) (u.dirOf q.line) = some d)
    (hconf : u.confirmLine q.die pte q.line = .ok v) :
    s.lineServe q = .ok (v.lineMove q.die (hubOf (4096 * tag.granule)) q.line tag.asn d (lineGrant pte)
      (!hitState q.die false (s.dirOf q.line)) (s.forwards q.die q.line)) := by
  have hdrop : ¬ (lineOf pa ≠ q.line ∨ pteNC pte = true ∨ (pteVC pte && !u.lineFresh q.line) = true) := by
    rintro (h | h | h)
    · exact h hline
    · simp [hnc] at h
    · rw [Bool.and_eq_true] at h
      simp [hvc h.1] at h
  unfold lineServe
  simp only [htag, hdie, cachedLine, hcached, hfill, htaint, hres, hturn, htr, if_neg hdrop, hflip, hhome, hwait, hnext, hconf,
    decide_true, Bool.not_true, Bool.or_false, Option.isSome_none, Bool.false_eq_true, if_false]
  rfl

section Request
variable {s : State} {line die : Nat} (h : ∀ q ∈ s.lineReqs, q.line = line → q.die ≠ die)
include h

theorem lineReqs_any : (s.lineReqs.any fun r => r.line == line && r.die == die) = false := by
  rw [List.any_eq_false]
  intro q hq
  have := h q hq
  simpa using this

theorem lineRequest_ok {own : Bool} {t : State} (ht : s.lineServe ⟨line, die, own, s.newPlace⟩ = .ok t) :
    s.lineRequest line die own = t := by
  unfold lineRequest
  simp only [lineReqs_any h, Bool.false_eq_true, if_false, ht]

theorem lineRequest_wait {own : Bool} {k : Nat} (hk : s.lineServe ⟨line, die, own, s.newPlace⟩ = .wait k) :
    s.lineRequest line die own = { s.queueNew die k with lineReqs := s.lineReqs ++ [⟨line, die, own, s.newPlace⟩] } := by
  unfold lineRequest
  simp only [lineReqs_any h, Bool.false_eq_true, if_false, hk]

end Request

/-! Victims. -/

theorem setPoison_line (s : State) (line : Nat) (p : Bool) : line ∈ (s.setPoison line p).poison ↔ p = true := by
  cases p with
  | false => simp [setPoison]
  | true =>
    rw [setPoison, if_pos rfl]
    split
    · next h => simpa using h
    · simp

theorem setDir_poison (s : State) (line : Nat) (x : DirSt) : (s.setDir line x).poison = s.poison := by rw [setDir_rest]
theorem setDir_victims (s : State) (line : Nat) (x : DirSt) : (s.setDir line x).victims = s.victims := by rw [setDir_rest]
theorem setPoison_victims (s : State) (line : Nat) (p : Bool) : (s.setPoison line p).victims = s.victims := by
  simp [setPoison, apply_ite State.victims]

/-- A write-back request of the owner frees the line, and waits for its grant. -/
theorem victimServe_owner {s : State} {line die : Nat} (howner : s.dirOf line = .em die)
    (hnone : ∀ v ∈ s.victims, v.die = die → v.line ≠ line) :
    (s.victimServe line die).dirOf line = .i ∧ (s.victimServe line die).victims = s.victims ++ [⟨die, line, false, none⟩] ∧
      (s.victimServe line die).mem = s.mem ∧ (line ∈ (s.victimServe line die).poison ↔ s.l2Bad die line = true) := by
  have hfilter : s.victims.filter (fun v => !(v.die == die && v.line == line)) = s.victims := by
    rw [List.filter_eq_self]
    intro v hv
    have := hnone v hv
    simpa [or_iff_not_imp_left] using this
  unfold victimServe
  simp only [howner, beq_self_eq_true, Bool.not_true, Bool.false_eq_true, if_false, hfilter]
  refine ⟨by rw [setDir_dirOf, if_pos rfl], ?_, ?_, ?_⟩
  · rw [setDir_victims]
    split
    · exact setPoison_victims ..
    · exact setPoison_victims ..
  · rw [setDir_mem]
    split
    · exact setPoison_mem ..
    · exact setPoison_mem ..
  · rw [setDir_poison]
    split
    · exact setPoison_line ..
    · exact setPoison_line ..

end State

/-- A die's request for a line that its home serves, or that takes its place there. -/
def DirAsks (s : State) (line die : Nat) (i : Instr) (own : Bool) (w : Want) : Prop :=
  (∀ q ∈ s.lineReqs, q.line = line → q.die ≠ die) →
    (s.inService die = true → 128 * line < 2 ^ 55 → s.fillRefused die line = false → s.resync = false →
      ∀ tag, tfind s.tags (line / 32) = some tag → lowestDie (s.taint tag.asn) = none →
      let va := 4096 * tag.granule + 128 * (line % 32)
      s.pageTurn s.newPlace tag.asn va = none → ∀ u pa pte, s.translate tag.asn true .load va = .ok u pa pte →
      lineOf pa = line → pteNC pte = false → (pteVC pte = true → u.lineFresh line = true) →
      u.flipHolds (128 * line) = false → u.atHost line (lineHalves line) = false → u.waitsTurn s.newPlace line = false →
      ∀ d, w.next die (u.watched line) (u.dirOf line) = some d → ∀ v, u.confirmLine die pte line = .ok v →
      ∃ t, exec i s = .next t ∧ t.dirOf line = d ∧ (∀ l, l ≠ line → t.dirOf l = v.dirOf l) ∧
        t.harts = v.harts ∧ t.mem = v.mem ∧ tfind t.grants (grantKey die line) = some (lineGrant pte) ∧
        ∃ f ∈ t.fills, f.die = die ∧ f.line = line) ∧
    ∀ k, s.lineServe ⟨line, die, own, s.newPlace⟩ = .wait k →
      exec i s = .next { s.queueNew die k with lineReqs := s.lineReqs ++ [⟨line, die, own, s.newPlace⟩] }

theorem dirAsks_of {s : State} {line die : Nat} {i : Instr} {own : Bool} {w : Want} (hw : (if own then Want.own else .read) = w)
    (hx : exec i s = .next (s.lineRequest line die own)) : DirAsks s line die i own w := by
  subst hw
  intro hreqs
  rw [hx]
  refine ⟨?_, fun k hk => congrArg _ (State.lineRequest_wait hreqs hk)⟩
  intro hdie hcached hfill hres tag htag htaint va hturn u pa pte htr hline hnc hvc hflip hhome hwait d hnext v hconf
  have hserve := State.lineServe_ok (q := ⟨line, die, own, s.newPlace⟩) hdie hcached hfill hres htag htaint hturn htr hline hnc hvc
    hflip hhome hwait hnext hconf
  rw [State.lineRequest_ok hreqs hserve]
  obtain ⟨hharts, hmem⟩ := v.lineMove_store die (hubOf (4096 * tag.granule)) line tag.asn d (lineGrant pte)
    (!hitState die false (s.dirOf line)) (s.forwards die line)
  exact ⟨_, rfl, by rw [State.lineMove_dirOf, if_pos rfl], fun l hl => by rw [State.lineMove_dirOf, if_neg hl], hharts, hmem,
    State.lineMove_grant .., State.addFill_fill ..⟩

/-- A write-back request of a line's owner. -/
theorem writebackRequest_owner {s : State} {line die : Nat} (hdie : s.inService die = true)
    (hroom : (s.victims.filter fun v => v.die = die).length < 16) (hnone : ∀ v ∈ s.victims, v.die = die → v.line ≠ line)
    (hres : s.resync = false) (howner : s.dirOf line = .em die)
    (hwait : (s.transmit die (24 + s.lineHub line) 0 none).victimWaits (s.transmit die (24 + s.lineHub line) 0 none).newPlace line = false) :
    ∃ t, exec (.writebackRequest line die) s = .next t ∧ t.dirOf line = .i ∧ t.victims = s.victims ++ [⟨die, line, false, none⟩] ∧
      t.mem = s.mem ∧ (line ∈ t.poison ↔ s.l2Bad die line = true) := by
  have hthere : ((s.victims.filter fun v => v.die = die).any fun v => v.line = line) = false := by
    rw [List.any_eq_false]
    intro v hv
    obtain ⟨hv, hd⟩ := List.mem_filter.1 hv
    simpa using hnone v hv (by simpa using hd)
  have hex : exec (.writebackRequest line die) s = .next ((s.transmit die (24 + s.lineHub line) 0 none).victimServe line die) := by
    dsimp only [exec]
    unfold execWritebackRequest
    simp only [hdie, hthere, hres, Nat.not_le.2 hroom, hwait, Bool.not_true, decide_false, Bool.or_false, Bool.false_eq_true, if_false]
  obtain ⟨hdir, hvict, hmem, hpoison⟩ := State.victimServe_owner (s := s.transmit die (24 + s.lineHub line) 0 none) (line := line)
    (die := die) (by rwa [State.dirOf, State.transmit_dir]) (by rwa [State.transmit_victims])
  refine ⟨_, hex, hdir, by rw [hvict, State.transmit_victims], by rw [hmem, State.transmit_mem], hpoison.trans ?_⟩
  simp [State.l2Bad, State.poisoned]

/-- The grant of a write-back request that has been served. -/
theorem writebackGrant_served {s : State} {line die : Nat} {v : Victim} (hres : s.resync = false) (hv : v ∈ s.victims) (hdie : v.die = die)
    (hline : v.line = line) (hplace : v.place = none) : ∃ t, exec (.writebackGrant line die) s = .next t ∧ t.mem = s.mem ∧
      t.harts = s.harts ∧ t.dir = s.dir ∧ t.victims = s.victims.filter fun v => !(decide (v.die = die) && decide (v.line = line)) := by
  have hsome : (s.victims.find? fun v => decide (v.die = die) && decide (v.line = line) && v.place.isNone).isSome = true := by
    rw [List.find?_isSome]
    exact ⟨v, hv, by simp [hdie, hline, hplace]⟩
  obtain ⟨w, hw⟩ := Option.isSome_iff_exists.1 hsome
  dsimp only [exec]
  unfold execWritebackGrant
  simp only [hw, hres, Bool.false_eq_true, if_false]
  refine ⟨_, rfl, ?_, ?_, ?_, ?_⟩
  · simp [apply_ite State.mem]
  · simp [apply_ite State.harts]
  · simp [apply_ite State.dir]
  · simp [apply_ite State.victims]

/-- Settles O53: each event is the model's function, with the requests served or put in the queue. -/
theorem directoryEvents : Obligations.DirectoryEvents := by
  unfold Obligations.DirectoryEvents
  intro s line die asks
  refine ⟨dirAsks_of rfl rfl, dirAsks_of rfl rfl, rfl, fun hdie hroom hnone hres howner hwait => ?_, fun hres v hv hd hl hp => ?_,
    fun frame asn granule hq hres => ?_⟩
  · exact writebackRequest_owner hdie hroom hnone hres howner hwait
  · exact writebackGrant_served hres hv hd hl hp
  · show execSynonymSwitch frame asn granule s = _
    rw [execSynonymSwitch, hq, hres]
    rfl

end Sys2Proof.Machine

namespace Sys2Proof.Machine

/-! Accesses of the host (R358, R359, R424 to R426). -/

namespace State

section Host
variable {s : State} {q : HostReq}

theorem hostArrives_at {pa : Nat} {t : State} (ha : s.hostAccess q.addr = .at_ pa)
    (hheld : ∀ r ∈ s.hostHeld, hostHalf r.2.addr ≠ hostHalf q.addr) (ht : s.hostServe s.newPlace q = .ok t) : s.hostArrives q = t := by
  have hany : (s.hostHeld.any fun r => hostHalf r.2.addr == hostHalf q.addr) = false := by
    rw [List.any_eq_false]
    intro r hr
    simpa using hheld r hr
  unfold hostArrives
  simp only [ha, hany, Bool.false_eq_true, if_false, ht]

/-- An access to no half of a line waits behind no other. -/
theorem hostArrives_elsewhere {t : State} (ha : ∀ pa, s.hostAccess q.addr ≠ .at_ pa) (ht : s.hostServe s.newPlace q = .ok t) :
    s.hostArrives q = t := by
  unfold hostArrives
  split
  · next pa e => exact absurd e (ha pa)
  · rw [ht]

end Host

section HostRead
variable {v u : State} {me pa : Nat} (a : HostAddr) (own : Bool) (hwait : v.hostWaits me pa = none) (hbad : v.poisoned pa 64 = false)
  (hconf : v.confirmAll (v.agentOf me) (v.viewBlocksAt pa 64) = .ok u)
include hwait hbad hconf

/-- The host reads a half that is not tracked, or takes it. -/
theorem hostRead_untracked (hun : u.untracked pa = true) : v.hostRead me a own pa =
    .ok { u with hostGot := u.hostGot.filter fun k => k ≠ pa / 64, hostOut := u.hostOut ++ [⟨a, memBytes v.mem pa 64, false, false⟩] } := by
  unfold hostRead
  simp only [hwait, hconf, hun, hbad, if_true, Bool.false_eq_true, if_false]

theorem hostRead_tracked (hun : u.untracked pa = false) {d : DirSt} (hd : hostTake (halfBit pa) own (u.dirOf (lineOf pa)) = some d) :
    v.hostRead me a own pa = .ok { u.hostMoves (lineOf pa) d with
      hostOut := (u.hostMoves (lineOf pa) d).hostOut ++ [⟨a, memBytes v.mem pa 64, false, false⟩] } := by
  unfold hostRead
  simp only [hwait, hconf, hun, hbad, hd, Bool.false_eq_true, if_false]

end HostRead

section HostWrite
variable {u : State} {me pa : Nat} {bs : List Byte} (hwait : u.hostWaits me pa = none) (hcan : u.canWriteMaster pa bs.length = true)
include hwait hcan

/-- The host writes bytes of a half that is not tracked, or gives it up. -/
theorem hostWrite_untracked (hun : u.untracked pa = true) : u.hostWrite me pa bs =
    .ok (({ u with hostGot := u.hostGot.filter fun k => k ≠ pa / 64 } : State).homeWrite pa bs) := by
  unfold hostWrite
  simp only [hwait, hcan, hun, Bool.not_true, Bool.false_eq_true, if_false, if_true]

theorem hostWrite_tracked (hun : u.untracked pa = false) {d : DirSt} (hd : hostGive (halfBit pa) (u.dirOf (lineOf pa)) = some d) :
    u.hostWrite me pa bs = .ok ((u.hostMoves (lineOf pa) d).homeWrite pa bs) := by
  unfold hostWrite
  simp only [hwait, hcan, hun, hd, Bool.not_true, Bool.false_eq_true, if_false]

end HostWrite

end State

/-- A read of a half of a line. -/
theorem hostMemRead_at {s t : State} {a : HostAddr} {own : Bool} {pa : Nat} (ha : s.hostAccess (hostHalf a) = .at_ pa)
    (hheld : ∀ q ∈ s.hostHeld, hostHalf q.2.addr ≠ hostHalf (hostHalf a))
    (ht : (s.hostAsks (hostHalf a) (lineOf pa)).hostRead s.newPlace (hostHalf a) own pa = .ok t) :
    exec (.hostCxlMemRead a own) s = .next t := by
  refine congrArg Host.Outcome.next (State.hostArrives_at (q := .read a own) ha hheld ?_)
  unfold State.hostServe
  simp only [HostReq.addr, ha]
  exact ht

/-- A write of a half of a line. -/
theorem hostMemWrite_at {s t : State} {a : HostAddr} {data : List Byte} {pa : Nat} (ha : s.hostAccess a = .at_ pa)
    (hheld : ∀ q ∈ s.hostHeld, hostHalf q.2.addr ≠ hostHalf a)
    (ht : (s.hostAsks a (lineOf pa)).hostWrite s.newPlace pa (data.take (64 - pa % 64)) = .ok t) :
    exec (.hostCxlMemWrite a data) s = .next t := by
  refine congrArg Host.Outcome.next (State.hostArrives_at (q := .write a data) ha hheld ?_)
  unfold State.hostServe
  simp only [HostReq.addr, ha]
  exact ht

section Elsewhere
variable {s : State} {a : HostAddr}

theorem hostMemRead_register (own : Bool) {hub off : Nat} (ha : s.hostAccess (hostHalf a) = .register hub off) :
    exec (.hostCxlMemRead a own) s =
      .next { s with hostOut := s.hostOut ++ [⟨hostHalf a, leBytes 8 (s.cfgRead hub off 8), false, false⟩] } := by
  refine congrArg Host.Outcome.next (State.hostArrives_elsewhere (q := .read a own) (by simp [HostReq.addr, ha]) ?_)
  unfold State.hostServe
  simp only [HostReq.addr, ha]

theorem hostMemWrite_register (data : List Byte) {hub off : Nat} (ha : s.hostAccess a = .register hub off) :
    exec (.hostCxlMemWrite a data) s = .next (s.barWrite hub off (data.take (8 - off % 8))) := by
  refine congrArg Host.Outcome.next (State.hostArrives_elsewhere (q := .write a data) (by simp [HostReq.addr, ha]) ?_)
  unfold State.hostServe
  simp only [HostReq.addr, ha]

theorem hostMemRead_answer (own : Bool) {p u : Bool} (ha : s.hostAccess (hostHalf a) = .answer p u) :
    exec (.hostCxlMemRead a own) s = .next { s with hostOut := s.hostOut ++ [⟨hostHalf a, [], p, u⟩] } := by
  refine congrArg Host.Outcome.next (State.hostArrives_elsewhere (q := .read a own) (by simp [HostReq.addr, ha]) ?_)
  unfold State.hostServe
  simp only [HostReq.addr, ha]

theorem hostMemWrite_silent (data : List Byte) (ha : s.hostAccess a = .silent) : exec (.hostCxlMemWrite a data) s = .next s := by
  refine congrArg Host.Outcome.next (State.hostArrives_elsewhere (q := .write a data) (by simp [HostReq.addr, ha]) ?_)
  unfold State.hostServe
  simp only [HostReq.addr, ha]

end Elsewhere

/-- The host's response for a half of a line that it has (R358, R360). -/
theorem hostResponse_held {s : State} {half : Nat} {data : List Byte} {hs hm : BitVec 2} {v : BitVec 24}
    (hdir : s.dirOf (half / 2) = .h hs hm v) (hlt : half / 2 < 2 ^ 48) (hflip : ∀ f ∈ s.flips, half ∉ f.left) (hres : s.resync = false)
    (hcan : s.canWriteMaster (64 * half) (data.take 64).length = true) :
    exec (.hostCxlResponse half data) s = .next (((s.fromPort (half / 2)).setDir (half / 2)
      (hostState (hs &&& ~~~halfBit (64 * half)) (hm &&& ~~~halfBit (64 * half)) v)).homeWrite (64 * half)
        (if hm &&& halfBit (64 * half) ≠ 0 then data.take 64 else [])) := by
  have hline : lineOf (64 * half) = half / 2 := by unfold lineOf; omega
  have hcached : cachedLine (half / 2) = true := decide_eq_true (by omega)
  have hany : (s.flips.any fun f => f.left.contains half) = false := by
    rw [List.any_eq_false]
    intro f hf
    simpa using hflip f hf
  dsimp only [exec]
  unfold execHostCxlResponse
  simp only [hline, hcached, hres, hcan, hany, hdir, Bool.not_true, Bool.or_false, Bool.false_eq_true, if_false]

/-! Bytes from outside, pool pushes and acknowledgements (R245, R355, R368, R372). -/

theorem ingress_placed {s t : State} {pa : Nat} {data : List Byte} (hne : data ≠ []) (hlt : pa + data.length ≤ 2 ^ 56)
    (hsame : spaceOf pa = spaceOf (pa + data.length - 1)) (hspace : spaceOf pa ≠ 3)
    (ht : s.placeBytes s.newPlace (24 + placeHub pa) pa data = some t) : s.ingress pa data = t := by
  have hpos : 0 < data.length := List.length_pos_iff.2 hne
  have hempty : data.isEmpty = false := by simpa using hne
  have hlast : ¬ 2 ^ 56 ≤ pa + data.length - 1 := by omega
  unfold State.ingress
  simp only [hempty, hlast, hspace, ← hsame, ht, ne_eq, not_true, decide_false, Bool.or_false, Bool.false_eq_true, if_false]

theorem poolPush_pushed {s t u : State} {asn : BitVec 16} {pool block : Word} {pa : Nat} {pte : Word} (hlt : pool.toNat < 2 ^ 48)
    (htr : s.translate asn true .store pool.toNat = .ok t pa pte) (hbad : t.poisoned pa 16 = false)
    (hu : (t.askHomes (hubOf pool.toNat) [homeHub (hubOf pool.toNat) (lineOf pa)]).pushPool pa block = some u) :
    exec (.poolPush asn pool block) s = .next u := by
  dsimp only [exec]
  unfold execPoolPush
  simp only [Nat.not_le.2 hlt, htr, hbad, hu, Bool.false_eq_true, if_false, Option.getD_some]

theorem clbDropAck_core (s : State) (core : Nat) (asn : BitVec 16) (root : Option Word) :
    ∃ t, exec (.clbDropAck core asn root) s = .next t ∧ t = { s with cores := t.cores } ∧
      (t.core core).clb = (s.core core).clb.filter fun e => !(e.asn == asn && (root.isNone || root.map clbRoot == some e.root)) := by
  refine ⟨_, rfl, rfl, ?_⟩
  have hmap : (s.cores.map fun p => if p.1 = core then (p.1, p.2.dropTiles asn (root.map clbRoot)) else p) =
      s.cores.map fun p => (p.1, if p.1 = core then p.2.dropTiles asn (root.map clbRoot) else p.2) :=
    List.map_congr_left fun p _ => by split <;> rfl
  rw [State.core, State.core, hmap, tget_tfind, tget_tfind,
    tfind_map s.cores (fun k c => if k = core then c.dropTiles asn (root.map clbRoot) else c) core]
  cases tfind s.cores core with
  | none => rfl
  | some c => cases root <;> simp [Core.dropTiles]

theorem mtlbinvAcknowledge_hub (s : State) {hub : Nat} (scope : InvScope) (hhub : hub < 8) :
    ∃ t, exec (.mtlbinvAcknowledge (24 + hub) scope) s = .next t ∧ t = { s with hubs := t.hubs } ∧
      ∀ e ∈ (t.hub hub).tlb, scopeHits scope e.asn e.glob e.vbase (2 ^ e.sizeBits) = false := by
  have hex : exec (.mtlbinvAcknowledge (24 + hub) scope) s = .next (s.modHub hub fun u => u.dropEntries scope) := by
    show execMtlbinvAcknowledge _ _ _ = _
    rw [execMtlbinvAcknowledge, if_pos (Nat.le_add_right ..), Nat.add_sub_cancel_left]
  refine ⟨_, hex, rfl, fun e he => ?_⟩
  rw [State.modHub, State.hub_setHub _ _ _ hhub] at he
  simpa using (List.mem_filter.1 he).2

theorem mtlbinvAcknowledge_die (s : State) {die : Nat} {scope : InvScope} (hdie : die < 24) (hpurge : scopePurge scope = true) :
    exec (.mtlbinvAcknowledge die scope) s = .next (s.sweepDie die scope) := by
  show execMtlbinvAcknowledge _ _ _ = _
  rw [execMtlbinvAcknowledge, if_neg (Nat.not_le.2 hdie), if_pos hpurge]

/-! Errors (R230, R231). -/

/-- What the home holds of a dirty line, poisoned. -/
def DirtyLine.poisoned (d : DirtyLine) : DirtyLine := { d with poison := true }

theorem poisonHome_dirty (s : State) (x l : Nat) : tfind (s.poisonHome x).dirty l =
    if l = x then (tfind s.dirty l).map DirtyLine.poisoned else tfind s.dirty l := by
  unfold State.poisonHome
  split
  · next d hd =>
    refine (tfind_tset s.dirty x l d.poisoned).trans ?_
    split
    · next e => rw [e, hd]; rfl
    · rfl
  · next hd =>
    have hdirty : ∀ t : State, (t.poisonLine x).dirty = t.dirty := fun t => by
      simp [State.poisonLine, State.setPoison, apply_ite State.dirty]
    rw [hdirty]
    split
    · next e => rw [e, hd]; rfl
    · rfl

theorem poisonHome_poison (s : State) (x l : Nat) :
    l ∈ (s.poisonHome x).poison ↔ l ∈ s.poison ∨ l = x ∧ tfind s.dirty x = none := by
  unfold State.poisonHome
  split
  · next d hd => simp [hd]
  · next hd =>
    rw [State.poisonLine, State.countHub_poison, State.setPoison, if_pos rfl]
    split
    · next hc =>
      have : x ∈ s.poison := by simpa using hc
      simp only [hd, and_true]
      exact ⟨.inl, fun h => h.elim id fun e => e ▸ this⟩
    · simp [hd, or_comm]

theorem State.SameStore.poisonHome (s : State) (x : Nat) : s.SameStore (s.poisonHome x) := by
  unfold State.poisonHome
  split
  · exact ⟨rfl, rfl⟩
  · refine ⟨?_, ?_⟩
    · rw [State.poisonLine, State.countHub_harts]
      exact SameHarts.setPoison { s with goodCopies := _ } x true
    · rw [State.poisonLine, State.countHub_mem, State.setPoison_mem]

theorem poisonHome_engines (s : State) (x : Nat) : (s.poisonHome x).engines = s.engines := by
  unfold State.poisonHome
  split
  · rfl
  · simp [State.poisonLine, State.setPoison, apply_ite State.engines]

/-- Lines poisoned one after another. -/
def State.poisonHomes (s : State) (l : List Nat) : State := l.foldl State.poisonHome s

theorem poisonHomes_dirty (s : State) (xs : List Nat) (l : Nat) : tfind (s.poisonHomes xs).dirty l =
    if l ∈ xs then (tfind s.dirty l).map DirtyLine.poisoned else tfind s.dirty l := by
  induction xs generalizing s with
  | nil => rfl
  | cons x xs ih =>
    refine (ih (s.poisonHome x)).trans ?_
    rw [poisonHome_dirty]
    by_cases hx : l = x
    · subst hx
      cases tfind s.dirty l <;> simp [DirtyLine.poisoned]
    · simp [hx]

theorem poisonHomes_poison (s : State) (xs : List Nat) (l : Nat) :
    l ∈ (s.poisonHomes xs).poison ↔ l ∈ s.poison ∨ l ∈ xs ∧ tfind s.dirty l = none := by
  induction xs generalizing s with
  | nil => simp [State.poisonHomes]
  | cons x xs ih =>
    refine (ih (s.poisonHome x)).trans ?_
    rw [poisonHome_poison, poisonHome_dirty]
    by_cases hx : l = x
    · subst hx
      simp
      tauto
    · simp [hx]

/-- An error in HBM that touches no migration: its lines are poisoned where their homes hold them. -/
theorem poisonHomes_migError {s : State} {l : Nat} (hmig : s.migOf l = none) (xs : List Nat) :
    (s.poisonHomes xs).migError l = s.poisonHomes xs := by
  have heng : (s.poisonHomes xs).engines = s.engines :=
    List.foldlRecOn (motive := fun t : State => t.engines = s.engines) _ _ rfl fun t ht x _ => (poisonHome_engines t x).trans ht
  have hnone : (s.poisonHomes xs).migOf l = none := by
    rw [← hmig]
    unfold State.migOf State.engine
    rw [heng]
  rw [State.migError, hnone]

/-- A line that is poisoned where its home holds it. -/
theorem atHome_poisonHomes {s : State} {xs : List Nat} {l : Nat} (hl : l ∈ xs) : match tfind s.dirty l with
    | some d => tfind (s.poisonHomes xs).dirty l = some { d with poison := true }
    | none => l ∈ (s.poisonHomes xs).poison := by
  split
  · next d hd => rw [poisonHomes_dirty, if_pos hl, hd]; rfl
  · next hd => exact (poisonHomes_poison s xs l).2 (.inr ⟨hl, hd⟩)

theorem State.SameStore.poisonHomes (s : State) (xs : List Nat) : s.SameStore (s.poisonHomes xs) := .foldl SameStore.poisonHome xs s

theorem error_line {s : State} {l : Nat} (hmig : s.migOf l = none) :
    exec (.uncorrectableError (.line l)) s = .next (s.poisonHomes [l]) :=
  congrArg Host.Outcome.next (poisonHomes_migError hmig [l])

theorem error_block {s : State} {b : Nat} (hlt : 1024 * b < 2 ^ 41) (hmig : s.migOf (8 * b) = none) :
    exec (.uncorrectableError (.block b)) s = .next (s.poisonHomes ((List.range 8).map fun k => 8 * b + k)) := by
  rw [← poisonHomes_migError hmig, State.poisonHomes, List.foldl_map]
  exact if_neg (Nat.not_le.2 hlt)

theorem tfind_poisonCopy {m : Table Bool} {l : Nat} (h : (tfind m l).isSome) : tfind (poisonCopy m l) l = some true := by
  have hmap : poisonCopy m l = m.map fun p => (p.1, if p.1 = l then true else p.2) :=
    List.map_congr_left fun p _ => by split <;> rfl
  obtain ⟨b, hb⟩ := Option.isSome_iff_exists.1 h
  rw [hmap, tfind_map m (fun k b => if k = l then true else b) l, hb]
  simp

theorem modAt_getElem? {α : Type} {l : List α} {k : Nat} {f : α → α} {x : α} (h : l[k]? = some x) : (modAt l k f)[k]? = some (f x) := by
  induction l generalizing k with
  | nil => cases h
  | cons y l ih =>
    cases k with
    | zero => cases h; rfl
    | succ k => exact ih h

theorem State.modCore_core (s : State) (c : Nat) (f : Core → Core) : (s.modCore c f).core c = f (s.core c) := s.setCore_core ..

/-- An error in a clean copy of an L2. -/
theorem error_l2Line {s : State} {die l : Nat} (hhit : hitState die false (s.dirOf l) = true)
    (hclean : s.dirOf l ≠ .em die ∨ tfind s.dirty l = none) : ∃ t, exec (.uncorrectableError (.l2Line die l)) s = .next t ∧
      grantKey die l ∈ t.badCopies ∧ t.poison = s.poison ∧ t.mem = s.mem ∧ t.harts = s.harts := by
  have hdirty : ¬ (s.dirOf l = .em die ∧ (tfind s.dirty l).isSome = true) := by
    rintro ⟨he, hd⟩
    rcases hclean with h | h
    · exact h he
    · simp [h] at hd
  dsimp only [exec]
  unfold execUncorrectableError
  simp only [hhit, Bool.not_true, Bool.false_eq_true, if_false, if_neg hdirty]
  exact ⟨_, rfl, by simp, rfl, rfl, rfl⟩

/-- An error in a word of lane memory. -/
theorem error_laneWord {s : State} {core w : Nat} (hw : w < laneSize / 8) (hcore : core < 768) :
    ∃ t, exec (.uncorrectableError (.laneWord core w)) s = .next t ∧
      laneBase core / 8 + w ∈ t.lanePoison ∧ t.mem = s.mem ∧ t.harts = s.harts := by
  dsimp only [exec]
  unfold execUncorrectableError
  dsimp only
  split
  · next h =>
    refine ⟨s, rfl, ?_, rfl, rfl⟩
    rcases h with h | h | h
    · omega
    · omega
    · simpa using h
  · exact ⟨_, rfl, by simp, rfl, rfl⟩

/-- Settles O55: each event is the model's function for it, with the conditions taken. -/
theorem outsideAccesses : Obligations.OutsideAccesses := by
  unfold Obligations.OutsideAccesses
  intro s atHome
  refine ⟨?hostRead, ?hostWrite, fun a own hub off ha => hostMemRead_register own ha, fun a data hub off ha => hostMemWrite_register data ha,
    fun a own p u ha => hostMemRead_answer own ha, fun a data ha => hostMemWrite_silent data ha,
    fun half data hs hm v hdir hlt hflip hres hcan => hostResponse_held hdir hlt hflip hres hcan, ?ingress,
    fun asn pool block t pa pte u hlt htr hbad hu => poolPush_pushed hlt htr hbad hu, clbDropAck_core s,
    fun hub scope hhub => mtlbinvAcknowledge_hub s scope hhub, fun die scope hdie hp => mtlbinvAcknowledge_die s hdie hp, ?line, ?block,
    ?l1, ?coord, fun die l hhit hclean => error_l2Line hhit hclean, ?icLine, fun core w hw hcore => error_laneWord hw hcore⟩
  case hostRead =>
    intro a own pa ha hheld v hwait hbad u hconf answered
    exact ⟨fun hun => hostMemRead_at ha hheld (State.hostRead_untracked _ own hwait hbad hconf hun),
      fun hun d hd => hostMemRead_at ha hheld (State.hostRead_tracked _ own hwait hbad hconf hun hd)⟩
  case hostWrite =>
    intro a data pa ha hheld u bs hwait hcan
    exact ⟨fun hun => hostMemWrite_at ha hheld (State.hostWrite_untracked hwait hcan hun),
      fun hun d hd => hostMemWrite_at ha hheld (State.hostWrite_tracked hwait hcan hun hd)⟩
  case ingress =>
    intro pa data t hne hlt hsame hspace ht
    have hin := ingress_placed hne hlt hsame hspace ht
    refine ⟨congrArg _ hin, fun h2 => ?_⟩
    show execEthernetIngress _ _ _ = _
    rw [execEthernetIngress, if_neg h2, hin]
  case line =>
    intro l hmig
    have hs := State.SameStore.poisonHomes s [l]
    exact ⟨_, error_line hmig, atHome_poisonHomes (by simp), hs.mem, hs.harts⟩
  case block =>
    intro b hlt hmig
    have hs := State.SameStore.poisonHomes s ((List.range 8).map fun k => 8 * b + k)
    exact ⟨_, error_block hlt hmig, fun k hk => atHome_poisonHomes (List.mem_map.2 ⟨k, List.mem_range.2 hk, rfl⟩), hs.mem, hs.harts⟩
  case l1 =>
    intro core l h
    refine ⟨_, rfl, ?_, rfl, rfl, rfl⟩
    rw [State.modCore_core]
    exact tfind_poisonCopy h
  case coord =>
    intro core l h
    refine ⟨_, rfl, ?_, rfl, rfl, rfl⟩
    rw [State.modCore_core]
    exact tfind_poisonCopy h
  case icLine =>
    intro core k l h
    refine ⟨_, rfl, ?_, rfl, rfl⟩
    rw [State.modCore_core]
    exact modAt_getElem? h

end Sys2Proof.Machine

namespace Sys2Proof.Machine

/-! The scalar accesses of a hart at rest: they wait for nothing, and their alignment is checked first (R239, R246, R259). -/

/-- TINFO of a misaligned access (R259). -/
theorem misalign_eq (a : Word) (lm store : Bool) :
    misalign a a lm store = ⟨causeMISALIGN, (if lm then 1 else 0) + (if store then 2 else 0), a, a⟩ := by
  cases lm <;> cases store <;> rfl

section Rest
variable {s : State} (h : s.AtRest) (o : Fields)
include h

theorem ldBody_rest : ldBody o s.begun =
    if !aligned (scalarAddr o s.me) (typeBytes o.w.toNat) then
      .trap s.begun (misalign (scalarAddr o s.me) (scalarAddr o s.me) (lmBit o) false)
    else (s.begun.loadEl (scalarWho o s.begun (scalarAddr o s.me)) false (scalarAddr o s.me) (typeBytes o.w.toNat)).toRes s.begun s.cur
      fun t v => t.modHart s.cur fun y => y.varResult o.d.toNat (extCode o.w.toNat v) := by
  rw [ldBody, State.begun_cur, State.begun_scalarAddr h, State.begun_waitMemory h]
  rfl

theorem stBody_rest : stBody o s.begun =
    if !aligned (scalarAddr o s.me) (typeBytes o.w.toNat) then
      .trap s.begun (misalign (scalarAddr o s.me) (scalarAddr o s.me) (lmBit o) true)
    else (s.begun.storeEl (scalarWho o s.begun (scalarAddr o s.me)) (scalarAddr o s.me) (typeBytes o.w.toNat)
      (s.me.reg o.d.toNat).toNat).toRes s.begun s.cur fun t _ => t := by
  have hreg : ((s.begun.hart s.cur).reg o.d.toNat).toNat = (s.me.reg o.d.toNat).toNat := by
    rw [State.begun_me h]
    rfl
  rw [stBody, State.begun_cur, State.begun_scalarAddr h, State.begun_waitMemory h, ← hreg]
  rfl

/-- An atomic waits for nothing where no posted store is outstanding either. -/
theorem State.begun_atomicWait (hout : s.me.outcnt = 0) (go : State → Res) : atomicWait o s.begun go = go s.begun := by
  unfold atomicWait
  split
  · refine (State.waitUntil_empty _ _ (by rw [State.begun_cur, State.begun_me h]; exact h.empty)).trans ?_
    rw [State.begun_cur, State.begun_me h]
    exact if_neg fun hc => hc.2 hout
  · exact State.begun_waitMemory h ..

theorem atomicBody_rest (hout : s.me.outcnt = 0) (g : Hart → Nat → Option Nat × BitVec 8) : atomicBody o g s.begun =
    if !aligned (s.me.reg o.a.toNat) (typeBytes o.w.toNat) then
      .trap s.begun (misalign (s.me.reg o.a.toNat) (s.me.reg o.a.toNat) (lmBit o) true)
    else (s.begun.atomicEl (scalarWho o s.begun (s.me.reg o.a.toNat)) (s.me.reg o.a.toNat) (typeBytes o.w.toNat) false
      (g s.me.advanced)).toRes s.begun s.cur fun t v => t.modHart s.cur fun y => y.varResult o.d.toNat (extCode o.w.toNat v) := by
  rw [atomicBody, State.begun_atomicWait h o hout]
  simp only [State.begun_cur, State.begun_me h]
  rfl

end Rest

/-- A scalar access to an address that is no multiple of its size. -/
theorem trapsWith_misaligned {s : State} {i : Instr} {o : Fields} {a : Word} {store : Bool} {n : Nat} {r : Res} (body : State → Res)
    (h : s.CanRun i o) (hx : exec i s = issue i o body s)
    (hb : body s.begun = if !aligned a n then .trap s.begun (misalign a a (lmBit o) store) else r) (hn : a.toNat % n ≠ 0) :
    TrapsWith i s ⟨causeMISALIGN, (if lmBit o then 1 else 0) + (if store then 2 else 0), a, a⟩ := by
  have hal : aligned a n = false := decide_eq_false hn
  rw [← misalign_eq]
  refine trapsWith_of body h hx (hb.trans ?_)
  rw [hal]
  rfl

/-- Settles O37: each body's first check is the alignment of its address. -/
theorem scalarMisaligned : Obligations.ScalarMisaligned := by
  unfold Obligations.ScalarMisaligned
  intro s o x n a b info
  exact ⟨fun h => trapsWith_misaligned _ h rfl (ldBody_rest h.toAtRest o),
    fun h => trapsWith_misaligned _ h rfl (stBody_rest h.toAtRest o),
    fun h hout => trapsWith_misaligned _ h rfl (atomicBody_rest h.toAtRest o hout _),
    fun h hout => trapsWith_misaligned _ h rfl (atomicBody_rest h.toAtRest o hout _)⟩

end Sys2Proof.Machine

namespace Sys2Proof.Machine

/-! A scalar access leaves the empty queue of its hart empty, whatever it stores to: a fence request, too, only stops harts and fails
tasks (R20, R309, R424). So no vector fault of the queue follows the instruction. -/

/-- If the queue of hart h is empty in s, so it is in t. -/
structure State.KeepsEmpty (h : Nat) (s t : State) : Prop where
  empty : (s.hart h).queue = [] → (t.hart h).queue = []

namespace State.KeepsEmpty
variable {h : Nat} {s t u : State}

theorem refl (s : State) : KeepsEmpty h s s := ⟨id⟩
theorem trans (hst : KeepsEmpty h s t) (htu : KeepsEmpty h t u) : KeepsEmpty h s u := ⟨htu.empty ∘ hst.empty⟩

theorem ofHarts (hs : s.SameHarts t) : KeepsEmpty h s t := ⟨fun hq => (hs.hart h).symm ▸ hq⟩
theorem ofStore (hs : s.SameStore t) : KeepsEmpty h s t := ofHarts hs.harts

theorem foldl {α : Type} {f : State → α → State} (hf : ∀ (t : State) a, KeepsEmpty h t (f t a)) (l : List α) (s : State) :
    KeepsEmpty h s (l.foldl f s) :=
  List.foldlRecOn l f (motive := KeepsEmpty h s) (refl s) fun _ ht _ _ => ht.trans (hf _ _)

theorem modHart (s : State) (k : Nat) {f : Hart → Hart} (hf : ∀ x : Hart, x.queue = [] → (f x).queue = []) :
    KeepsEmpty h s (s.modHart k f) := by
  refine ⟨fun hq => ?_⟩
  by_cases hk : h = k
  · subst hk
    by_cases hlt : h < s.harts.length
    · rw [State.hart_modHart _ _ _ hlt]
      exact hf _ hq
    · simp [State.modHart, State.setHart, State.hart, hlt]
  · rwa [State.hart_modHart_ne _ _ _ _ hk]

/-! Harts that stop, and tasks that fail (R309). -/

theorem forgetLines (s : State) (k : Nat) : KeepsEmpty h s (s.forgetLines k) :=
  (modHart (f := fun x => { x with leftAt := none }) s k fun _ hq => hq).trans (ofHarts rfl)

theorem dropLines (s : State) (k : Nat) : KeepsEmpty h s (s.dropLines k) :=
  (ofHarts (.saveImage s k _)).trans (forgetLines _ k)

theorem stopHart (s : State) (k : Nat) (save : Bool) : KeepsEmpty h s (s.stopHart k save) := by
  have hstart : KeepsEmpty h s ((s.modHart k Hart.halt).unread k) := (modHart s k fun _ _ => rfl).trans (ofStore (.unread ..))
  unfold State.stopHart
  cases save
  · exact hstart.trans (forgetLines ..)
  · exact hstart.trans (dropLines ..)

theorem haltHart (s : State) (k : Nat) : KeepsEmpty h s (s.haltHart k) := by
  unfold State.haltHart
  split
  · refine modHart s k fun x hq => ?_
    show x.queue.take 1 = []
    rw [hq, List.take_nil]
  · exact stopHart ..

theorem failDone (s : State) (k : Nat) : KeepsEmpty h s (s.failDone k) := by
  unfold State.failDone
  split
  · exact refl s
  · split
    · split
      · exact refl s
      · have himages : KeepsEmpty h s (s.dropImages k) := foldl dropLines _ s
        dsimp only
        split
        · exact himages
        · exact himages.trans (ofHarts (.finishTask ..))
    · exact refl s

theorem failTask (s : State) (k status : Nat) : KeepsEmpty h s (s.failTask k status) := by
  unfold State.failTask
  split
  · exact refl s
  · split
    · exact refl s
    · exact ((foldl haltHart (s.taskHarts k) s).trans (ofHarts (t := State.modTask _ k _) rfl)).trans (failDone _ k)

/-! Fences and the other writes of configuration registers (R20, R424). -/

theorem fenceTask (s : State) (x k : Nat) (held lost : Bool) : KeepsEmpty h s (s.fenceTask x k held lost) := by
  have hmod (f : Task → Task) : KeepsEmpty h s (s.modTask k f) := ofHarts rfl
  unfold State.fenceTask
  split
  · exact refl s
  · split
    · exact refl s
    · extract_lets live mine m t1
      split
      · exact failTask ..
      · split
        · exact hmod _
        · split
          · exact failTask ..
          · exact hmod _

theorem fenceDie (s : State) (x : Nat) : KeepsEmpty h s (s.fenceDie x) := by
  unfold State.fenceDie
  extract_lets hs facts s0 s1 s2 bad s3 dir gone k s4 s5
  have h0 : KeepsEmpty h s s0 := foldl (fun t n => stopHart t n false) _ s
  have h1 : KeepsEmpty h s0 s1 := foldl (fun t n => (modHart t n fun _ _ => rfl).trans (forgetLines ..)) _ s0
  have h2 : KeepsEmpty h s1 s2 := ofHarts rfl
  have h3 : KeepsEmpty h s2 s3 := by
    refine foldl (fun t l => ?_) bad s2
    exact (ofHarts (SameHarts.setPoison t l true)).trans (ofHarts rfl)
  have h4 : KeepsEmpty h s3 s4 := ofHarts rfl
  have h5 : KeepsEmpty h s4 s5 := by
    refine foldl (fun t n => ?_) _ s4
    exact ofHarts rfl
  exact ((((h0.trans h1).trans h2).trans h3).trans (h4.trans h5)).trans (foldl (fun t p => fenceTask t ..) facts s5)

theorem fenceRequest (s : State) (x : Nat) : KeepsEmpty h s (s.fenceRequest x) := by
  unfold State.fenceRequest
  split_ifs
  · exact refl s
  · exact ofHarts rfl
  · exact fenceDie ..

theorem cfgWrite (s : State) (hub off n value : Nat) : KeepsEmpty h s (s.cfgWrite hub off n value) := by
  unfold State.cfgWrite
  dsimp only
  split
  case h_11 =>
    split
    · exact refl s
    · split
      · exact ofHarts rfl
      · exact fenceRequest ..
  all_goals repeat' split
  all_goals exact ofHarts rfl

end State.KeepsEmpty

/-! The accesses of LD, ST, AMO and CAS (R239, R246). -/

/-- The queue of hart h is empty. -/
abbrev State.QueueEmpty (h : Nat) (s : State) : Prop := s.Quiet h fun _ => True

section Access
variable {s : State} {h : Nat} (hs : s.QueueEmpty h)
include hs

theorem State.Quiet.ofHarts {t : State} (e : s.SameHarts t) : t.QueueEmpty h :=
  ⟨trivial, by rw [e.hart]; exact hs.2⟩

theorem State.loadEl_empty (w : Who) (formatted : Bool) (a : Word) (n : Nat) :
    (s.loadEl w formatted a n).All (State.QueueEmpty h) := by
  refine State.loadEl_all (fun _ _ e ht => ht.store e) hs w (fun _ ht => ht.modHart _ fun _ => rfl) formatted a n fun _ => ?_
  cases e : s.hitOrPage w .load a.toNat with
  | ok t pa pte => exact hs.ofHarts ((State.SameHarts.hitOrPage s w .load a.toNat).ok e)
  | _ => trivial

theorem State.storeEl_empty (w : Who) (a : Word) (n v : Nat) : (s.storeEl w a n v).All (State.QueueEmpty h) := by
  by_cases hlm : w.lm = true
  · rw [State.storeEl, if_pos hlm, State.laneStore]
    split
    · trivial
    · exact hs
  · by_cases ha : 2 ^ 48 ≤ a.toNat
    · rw [State.storeEl, if_neg hlm, if_pos ha]
      trivial
    · cases e : s.hitOrPage w .store a.toNat with
      | ok u pa pte =>
        have hu := hs.ofHarts ((State.SameHarts.hitOrPage s w .store a.toNat).ok e)
        by_cases hspace : spaceOf pa = 3
        · rw [State.storeEl, if_neg hlm, if_neg ha, e]
          simp only [hspace]
          split
          · split
            · trivial
            · refine (State.leaveDie_store ..).bind fun t ht => ?_
              exact ⟨trivial, (State.KeepsEmpty.cfgWrite ..).empty (hu.store ht).2⟩
          · trivial
        · exact State.storeEl_quiet n v (by simpa using hlm) (Nat.lt_of_not_le ha) e hspace hu fun _ _ => trivial
      | _ =>
        rw [State.storeEl, if_neg hlm, if_neg ha, e]
        trivial

/-- A returning atomic. -/
theorem State.atomicEl_empty (w : Who) (a : Word) (n : Nat) (g : Nat → Option Nat × BitVec 8) :
    (s.atomicEl w a n false g).All (State.QueueEmpty h) := by
  unfold State.atomicEl
  split
  · rw [State.laneAtomic]
    split
    · trivial
    · split
      · trivial
      · exact hs.ofHarts (s.laneAtomicDone_rest ..).1
  · split
    · trivial
    · split
      · trivial
      · trivial
      · trivial
      · next s1 pa pte e =>
        have h1 := hs.ofHarts ((State.SameHarts.accessPage s w .store a.toNat).ok e)
        extract_lets sp poison put act
        have hact (want : State → Bool) : (act want).All (State.QueueEmpty h) := by
          refine (State.accessLines_store ..).bind fun u hu => ?_
          split
          · have hput : u.SameHarts (put u).1 := by
              dsimp only [put]
              split
              · exact .homeWrite ..
              · rfl
            exact (h1.store hu).ofHarts hput
          · trivial
        split
        · trivial
        · split
          · rw [if_neg Bool.false_ne_true]
            split
            · exact (State.leaveDie_store ..).bind (q := State.QueueEmpty h) fun _ _ => trivial
            · exact hact _
          · split
            · trivial
            · exact hact _

end Access

/-- An instruction whose access passes its checks and leaves the queue empty completes with what the access and its end k leave. -/
theorem completesAs_access {s t : State} {i : Instr} {o : Fields} {a : Word} {n : Nat} {p : Res} {r : Eff} {v : Nat} {f : BitVec 8}
    {k : State → Nat → State} (body : State → Res) (h : s.CanRun i o) (hx : exec i s = issue i o body s)
    (hb : body s.begun = if !aligned a n then p else r.toRes s.begun s.cur k) (hal : aligned a n = true)
    (hall : r.All (State.QueueEmpty s.cur)) (hk : ∀ u w, u.QueueEmpty s.cur → (k u w).QueueEmpty s.cur) (hr : r = .ok t v f) :
    CompletesAs i o s ((k (t.endHolds s.cur) v).modHart s.cur fun y => y.orFlags f) := by
  have hend : ((k (t.endHolds s.cur) v).modHart s.cur fun y => y.orFlags f).QueueEmpty s.cur :=
    (hk _ _ ((hall.ok hr).endHolds s.cur)).modHart s.cur fun _ => rfl
  rw [CompletesAs, hx, issue_run h, hb, hal, hr]
  show finish s.cur i o s.me.pc (.ok ((k (t.endHolds s.cur) v).modHart s.cur fun y => y.orFlags f)) = _
  rw [finish, State.settle_empty (by rw [issued_queue]; exact hend.2)]

theorem State.QueueEmpty.varResult {s : State} {h : Nat} (hs : s.QueueEmpty h) (d : Nat) (w : Word) :
    (s.modHart h fun y => y.varResult d w).QueueEmpty h := hs.modHart h fun y => y.varResult_queue d w

/-- AMO and CAS where their access passes its checks. -/
theorem atomic_completesAs {s t : State} {i : Instr} {o : Fields} {v : Nat} {f : BitVec 8} (g : Hart → Nat → Option Nat × BitVec 8)
    (hx : exec i s = issue i o (atomicBody o g) s) (h : s.CanRun i o)
    (hal : aligned (s.me.reg o.a.toNat) (typeBytes o.w.toNat) = true) (hout : s.me.outcnt = 0)
    (hr : s.begun.atomicEl (scalarWho o s.begun (s.me.reg o.a.toNat)) (s.me.reg o.a.toNat) (typeBytes o.w.toNat) false
      (g s.me.advanced) = .ok t v f) :
    CompletesAs i o s (((t.endHolds s.cur).modHart s.cur fun y => y.varResult o.d.toNat (extCode o.w.toNat v)).modHart s.cur
      fun y => y.orFlags f) :=
  completesAs_access _ h hx (atomicBody_rest h.toAtRest o hout g) hal (State.atomicEl_empty (State.begun_quiet h.toAtRest trivial) ..)
    (fun _ _ hu => hu.varResult ..) hr

/-- Settles O38: the access leaves the queue of its hart empty, so no vector fault follows it and the instruction completes. -/
theorem scalarGlobalMemory : Obligations.ScalarGlobalMemory := by
  unfold Obligations.ScalarGlobalMemory
  intro s o x w n a b who result atomic
  refine ⟨fun h hal t v f hr => ?ld, fun h hal t v f hr => ?st, fun h hal hout t v f hr => atomic_completesAs _ rfl h hal hout hr,
    fun h hal hout t v f hr => atomic_completesAs _ rfl h hal hout hr⟩
  case ld =>
    exact completesAs_access _ h rfl (ldBody_rest h.toAtRest o) hal (State.loadEl_empty (State.begun_quiet h.toAtRest trivial) ..)
      (fun _ _ hu => hu.varResult ..) hr
  case st =>
    exact completesAs_access _ h rfl (stBody_rest h.toAtRest o) hal (State.storeEl_empty (State.begun_quiet h.toAtRest trivial) ..)
      (fun _ _ hu => hu) hr

end Sys2Proof.Machine

namespace Sys2Proof.Machine

/-! Engines, posted stores, held accesses and bias flips (R343, R346, R360, R399, R427). -/

/-- Outside a collective, an engine's next line is what its event does. -/
theorem engineLineFinish_ok {s t : State} {agent eng : Nat}
    (hop : ∀ a b c d e f g h i j k, (s.engine agent eng).ops.head? ≠ some (.coll a b c d e f g h i j k))
    (ht : s.engNext agent eng = some (.ok t)) : exec (.engineLineFinish agent eng) s = .next t := by
  show execEngineLineFinish agent eng s = _
  unfold execEngineLineFinish
  split
  · next hops =>
    rw [hops] at hop
    exact (hop _ _ _ _ _ _ _ _ _ _ _ rfl).elim
  · rw [ht]
    rfl

/-- s with r for its posted stores, and one posted store of hart h less in OUTCNT. -/
def State.unposted (s : State) (h : Nat) (r : List Posted) : State :=
  ({ s with posted := r } : State).modHart h fun x => { x with outcnt := x.outcnt - 1 }

theorem State.unposted_hart {s : State} {h : Nat} (hlt : h < s.harts.length) (r : List Posted) :
    (s.unposted h r).hart h = { s.hart h with outcnt := (s.hart h).outcnt - 1 } :=
  State.hart_modHart { s with posted := r } h (fun x => { x with outcnt := x.outcnt - 1 }) hlt

theorem State.unposted_hart_ne (s : State) {h k : Nat} (hk : k ≠ h) (r : List Posted) : (s.unposted h r).hart k = s.hart k :=
  State.hart_modHart_ne { s with posted := r } h k (fun x => { x with outcnt := x.outcnt - 1 }) hk

section Posted
variable {s : State} {h : Nat} {p : Posted} {r : List Posted} (hp : s.posted = p :: r) (hh : p.hart = h)
include hp hh

theorem State.dropPosted_first (f : State → State) : s.dropPosted h f = f (s.unposted h r) := by
  have hfind : s.posted.findIdx? (fun p => decide (p.hart = h)) = some 0 := by
    rw [hp, List.findIdx?_cons, decide_eq_true hh]
    rfl
  unfold State.dropPosted
  rw [hfind, hp]
  rfl

variable (hlt : h < s.harts.length)
include hlt

/-- The acknowledgement of a hart's oldest posted store (R399). -/
theorem postedStoreAck_first : ∃ t, exec (.postedStoreAck h) s = .next t ∧ t.posted = r ∧
    t.hart h = { s.hart h with outcnt := (s.hart h).outcnt - 1 } ∧ (∀ k, k ≠ h → t.hart k = s.hart k) ∧ t.mem = s.mem :=
  ⟨s.unposted h r, congrArg Host.Outcome.next (State.dropPosted_first hp hh id), rfl, State.unposted_hart hlt r,
    fun _ hk => s.unposted_hart_ne hk r, rfl⟩

/-- The loss of a hart's oldest posted store (R245, R399). -/
theorem domainTimeout_first : ∃ t, exec (.domainTimeout h) s = .next t ∧ t.posted = r ∧
    t.hart h = { s.hart h with outcnt := (s.hart h).outcnt - 1, lost := true } ∧
    (∀ k, k ≠ h → t.hart k = s.hart k) ∧ t.mem = s.mem := by
  have hme := (s.unposted h r).hart_modHart h (fun x => { x with lost := true }) (by rwa [State.unposted, State.modHart_length])
  have hother (k : Nat) (hk : k ≠ h) := (s.unposted h r).hart_modHart_ne h k (fun x => { x with lost := true }) hk
  rw [State.unposted_hart hlt] at hme
  have hex : exec (.domainTimeout h) s = _ := congrArg Host.Outcome.next (State.dropPosted_first hp hh _)
  refine ⟨_, hex, ?_⟩
  dsimp only
  split
  · exact ⟨rfl, hme, fun k hk => (hother k hk).trans (s.unposted_hart_ne hk r), rfl⟩
  · exact ⟨rfl, hme, fun k hk => (hother k hk).trans (s.unposted_hart_ne hk r), rfl⟩

end Posted

/-- An access held at a migrating page is counted, and its hub reports it (R362, R427). -/
theorem holdQueueRetry_hub (s : State) {hub : Nat} (hhub : hub < 8) : ∃ t, exec (.holdQueueRetry hub) s = .next t ∧
    (t.hub hub).errstat = (s.hub hub).errstat ||| 4 ∧ t = { s with hubs := t.hubs } := by
  refine ⟨_, rfl, ?_, rfl⟩
  rw [State.hubError, State.modHub, State.hub_setHub _ _ _ hhub, State.countHub, State.modHub, State.hub_setHub _ _ _ hhub]
  rfl

/-! The end of a bias flip (R360). -/

namespace State

@[simp] theorem setDir_flips (s : State) (line : Nat) (x : DirSt) : (s.setDir line x).flips = s.flips := by rw [setDir_rest]

@[simp] theorem moveDir_flips (s : State) (hub line : Nat) (y : DirSt) : (s.moveDir hub line y).flips = s.flips := by
  have huse : (s.hbmUse hub).flips = s.flips := by unfold hbmUse; split <;> rfl
  have hprobe (t : State) (v : BitVec 24) : (t.probeDies hub v).flips = t.flips := by
    unfold probeDies
    split
    · rfl
    · refine List.foldlRecOn _ _ (motive := fun u : State => u.flips = t.flips) rfl fun u hu d _ => ?_
      split
      · simpa using hu
      · exact hu
  rw [moveDir, setDir_flips, hprobe, huse]

theorem recallWhere_flips (s : State) (p : Nat → Bool) : (s.recallWhere p).flips = s.flips :=
  List.foldlRecOn _ _ (motive := fun t : State => t.flips = s.flips) rfl fun t ht _ _ => by rwa [moveDir_flips]

theorem SameHarts.recallWhere (s : State) (p : Nat → Bool) : s.SameHarts (s.recallWhere p) :=
  SameHarts.foldl (fun t _ => SameHarts.moveDir t ..) _ s

end State

/-- s with the open flip of granule g done. -/
def State.endFlip (s : State) (g : Nat) : State := { s with
  hostGot := s.hostGot.filter fun k => k / 64 ≠ g
  flips := s.flips.map fun k => if k.granule = g ∧ !k.done then { k with done := true } else k }

/-- s with every copy of a granule recalled, and the granule biased to the host. -/
def State.giveGranule (s : State) (g : Nat) : State :=
  let s1 := s.recallWhere fun l => decide (l / 32 = g)
  { s1 with tags := tdel s1.tags g, hostBias := g :: s1.hostBias, victims := s1.victims.filter fun v => v.line / 32 ≠ g }

/-- s with a granule biased to the device. -/
def State.regainGranule (s : State) (g : Nat) : State := { s with hostBias := s.hostBias.filter (· ≠ g) }

section Flip
variable {s : State} {g : Nat} {f : Flip} (hflips : s.flips = [f]) (hg : f.granule = g) (hopen : f.done = false)
include hflips hg hopen

theorem State.endFlip_flips : (s.endFlip g).flips = [{ f with done := true }] := by
  simp [State.endFlip, hflips, hg, hopen]

theorem State.find_open_flip : s.flips.find? (fun f => decide (f.granule = g) && !f.done) = some f := by
  simp [hflips, hg, hopen]

/-- A flip toward the host where no line must be waited for. -/
theorem State.flipStep_toHost (hto : f.toHost = true) (hres : s.resync = false) (hquiet : s.quiet (32 * g) 32 = true) :
    s.flipStep g = (s.giveGranule g).endFlip g := by
  unfold State.flipStep
  simp only [State.find_open_flip hflips hg hopen, hto, hres, hquiet, if_true, Bool.not_true, Bool.or_false, Bool.false_eq_true, if_false]
  rfl

/-- A flip toward the device where every half has come back. -/
theorem State.flipStep_toDevice (hto : f.toHost = false) (hleft : f.left = []) :
    s.flipStep g = (s.regainGranule g).endFlip g := by
  unfold State.flipStep
  simp only [State.find_open_flip hflips hg hopen, hto, hleft, List.isEmpty_nil, Bool.false_eq_true, if_false, if_true]
  rfl

/-- The one open flip ends where it can. -/
theorem biasFlipStep_ends (hcan : if f.toHost then s.resync = false ∧ s.quiet (32 * g) 32 = true else f.left = []) :
    ∃ t, exec (.biasFlipStep g) s = .next t ∧ t.flips = [{ f with done := true }] ∧ t.hostBias.contains g = f.toHost ∧
      t.harts = s.harts ∧ t.mem = s.mem := by
  cases hto : f.toHost with
  | true =>
    obtain ⟨hres, hquiet⟩ : s.resync = false ∧ s.quiet (32 * g) 32 = true := by simpa [hto] using hcan
    have hex : exec (.biasFlipStep g) s = .next ((s.giveGranule g).endFlip g) :=
      congrArg Host.Outcome.next (State.flipStep_toHost hflips hg hopen hto hres hquiet)
    have hgiven : (s.giveGranule g).flips = [f] := (s.recallWhere_flips _).trans hflips
    exact ⟨_, hex, hto ▸ State.endFlip_flips hgiven hg hopen, by simp [State.endFlip, State.giveGranule],
      State.SameHarts.recallWhere s _, s.recallWhere_mem _⟩
  | false =>
    have hleft : f.left = [] := by simpa [hto] using hcan
    have hex : exec (.biasFlipStep g) s = .next ((s.regainGranule g).endFlip g) :=
      congrArg Host.Outcome.next (State.flipStep_toDevice hflips hg hopen hto hleft)
    have hregained : (s.regainGranule g).flips = [f] := hflips
    exact ⟨_, hex, hto ▸ State.endFlip_flips hregained hg hopen, by simp [State.endFlip, State.regainGranule], rfl, rfl⟩

end Flip

/-- Settles O54: a lemma for each event whose outcome turns on a condition; the others hold by what `exec` is. -/
theorem unitEvents : Obligations.UnitEvents := by
  unfold Obligations.UnitEvents
  refine ⟨fun s => ⟨fun agent eng t hop ht => engineLineFinish_ok hop ht, fun agent eng t ht => ?copy, fun agent peers t ht => ?coll,
      fun k t ht => ?row, fun h p r hlt hp hh => ⟨postedStoreAck_first hp hh hlt, domainTimeout_first hp hh hlt⟩⟩,
    fun s => ⟨fun _ => rfl, fun _ => rfl, fun hub hhub => holdQueueRetry_hub s hhub,
      fun g f hflips hg hopen hcan => biasFlipStep_ends hflips hg hopen hcan, fun reg b hcan hres => ?notice, fun _ => rfl,
      fun _ => rfl⟩⟩
  case copy =>
    show (s.copyComplete agent eng).out s agent eng = _
    rw [ht]
    rfl
  case coll =>
    show (s.collComplete agent peers).out s agent 4 = _
    rw [ht]
    rfl
  case row =>
    show Host.Outcome.next ((s.placeRow k).getD s) = _
    rw [ht]
    rfl
  case notice =>
    show execStaleNotice reg b s = _
    rw [execStaleNotice, hcan, hres]
    rfl

end Sys2Proof.Machine

namespace Sys2Proof.Machine

/-! PROOFS of the family 13_consistency: when an engine accepts an operation (R274, R339). -/

/-! What a walk and a packet leave of the directory and the engines (R271). -/

/-- t has the directory and the engines of s. -/
structure State.SameOwners (s t : State) : Prop where
  dir : t.dir = s.dir
  engines : t.engines = s.engines

namespace State.SameOwners
variable {s t u : State}

theorem refl (s : State) : s.SameOwners s := ⟨rfl, rfl⟩
theorem trans (h : s.SameOwners t) (k : t.SameOwners u) : s.SameOwners u := ⟨k.dir.trans h.dir, k.engines.trans h.engines⟩

theorem foldl {α : Type} {f : State → α → State} (hf : ∀ (t : State) a, t.SameOwners (f t a)) (l : List α) (s : State) :
    s.SameOwners (l.foldl f s) :=
  List.foldlRecOn l f (motive := s.SameOwners) (refl s) fun t ht a _ => ht.trans (hf t a)

theorem ite {c : Prop} [Decidable c] (ht : s.SameOwners t) (hu : s.SameOwners u) : s.SameOwners (if c then t else u) := by
  split
  · exact ht
  · exact hu

theorem dirOf (h : s.SameOwners t) (l : Nat) : t.dirOf l = s.dirOf l := by rw [State.dirOf, h.dir, State.dirOf]

theorem transmit (s : State) (a d c : Nat) (asn : Option (BitVec 16)) : s.SameOwners (s.transmit a d c asn) :=
  ⟨transmit_dir .., transmit_engines ..⟩

theorem askHomes (s : State) (hub : Nat) (homes : List Nat) : s.SameOwners (s.askHomes hub homes) :=
  foldl (fun t _ => (transmit t ..).trans (transmit ..)) _ s

theorem hbmUse (s : State) (hub : Nat) : s.SameOwners (s.hbmUse hub) := ite ⟨rfl, rfl⟩ (refl s)

theorem leaveHolds (s : State) (r : Nat) (keys : List Nat) : s.SameOwners (s.leaveHolds r keys) := ite (refl s) ⟨rfl, rfl⟩

theorem countHub (s : State) (hub code n : Nat) : s.SameOwners (s.countHub hub code n) := ⟨rfl, rfl⟩

theorem noteAsn (s : State) (asn : BitVec 16) (va : Nat) : s.SameOwners (s.noteAsn asn va) := by
  unfold State.noteAsn
  split
  · exact ite (refl s) ⟨rfl, rfl⟩
  · exact refl s

theorem noteWalk (s : State) (asn : BitVec 16) (va : Nat) : s.SameOwners (s.noteWalk asn va) := by
  unfold State.noteWalk
  dsimp only
  have reads (hub : Nat) (homes : List Nat) (r : Nat) (keys : List Nat) :
      s.SameOwners ((homes.foldl State.hbmUse (s.askHomes hub homes)).leaveHolds r keys) :=
    ((askHomes s hub homes).trans (foldl hbmUse homes _)).trans (leaveHolds ..)
  exact (ite (reads ..) ((reads ..).trans (countHub ..))).trans (noteAsn ..)

theorem request (s : State) (die hub line : Nat) (asn : BitVec 16) : s.SameOwners (s.request die hub line asn) :=
  ite ((transmit s ..).trans (transmit ..)) (transmit ..)

theorem reply (s : State) (die hub line : Nat) : s.SameOwners (s.reply die hub line) :=
  (ite (transmit s ..) (refl s)).trans (transmit ..)

theorem probeDies (s : State) (hub : Nat) (v : BitVec 24) : s.SameOwners (s.probeDies hub v) :=
  ite (refl s) (foldl (fun t _ => ite ((transmit t ..).trans (transmit ..)) (refl t)) _ s)

theorem useGot (s : State) (line : Nat) : s.SameOwners (s.useGot line) := ite (refl s) ⟨rfl, rfl⟩

end State.SameOwners

namespace State

theorem moveDir_engines (s : State) (hub line : Nat) (y : DirSt) : (s.moveDir hub line y).engines = s.engines := by
  rw [moveDir, setDir_rest]
  exact ((SameOwners.hbmUse s hub).trans (.probeDies ..)).engines

theorem engine_setEngine (s : State) (agent eng : Nat) (x : Engine) : (s.setEngine agent eng x).engine agent eng = x := tset_get ..

end State

/-! The takeover of destination lines (R271, R274). -/

/-- The line that the takeover of a destination line takes. -/
def takenLine : DestLine → Option Nat
  | .take _ line => some line
  | _ => none

theorem mem_takenLines {lines : List DestLine} {l : Nat} : l ∈ lines.filterMap takenLine ↔ ∃ va, .take va l ∈ lines := by
  rw [List.mem_filterMap]
  constructor
  · rintro ⟨d, hd, hl⟩
    cases d with
    | take va line => exact ⟨va, Option.some.inj hl ▸ hd⟩
    | wait k => cases hl
    | none => cases hl
  · rintro ⟨va, h⟩
    exact ⟨_, h, rfl⟩

theorem destWaits_isSome (lines : List DestLine) : (destWaits lines).isSome = true ↔ ∃ k, .wait k ∈ lines := by
  rw [destWaits, List.isSome_findSome?, List.any_eq_true]
  constructor
  · rintro ⟨d, hd, hk⟩
    cases d with
    | wait k => exact ⟨k, hd⟩
    | take va line => cases hk
    | none => cases hk
  · rintro ⟨k, h⟩
    exact ⟨_, h, rfl⟩

namespace State

/-- The takeover of all the lines of a destination. -/
def takeAll (s : State) (agent eng : Nat) (asn : BitVec 16) (lines : List DestLine) : State :=
  lines.foldl (fun t d => t.takeOver agent eng asn d) s

section TakeOver
variable (s : State) (agent eng : Nat) (asn : BitVec 16)

theorem takeOver_dirOf (d : DestLine) (l : Nat) :
    (s.takeOver agent eng asn d).dirOf l = if takenLine d = some l then .g agent eng else s.dirOf l := by
  cases d with
  | wait k => rfl
  | none => rfl
  | take va line =>
    have hsent := (SameOwners.noteWalk s asn va).trans (.request _ agent (hubOf va) line asn)
    calc (s.takeOver agent eng asn (.take va line)).dirOf l
        = (((s.noteWalk asn va).request agent (hubOf va) line asn).moveDir (homeHub (hubOf va) line) line (.g agent eng)).dirOf l :=
          ((SameOwners.useGot ..).trans (.reply ..)).dirOf l
      _ = if l = line then .g agent eng else s.dirOf l := by rw [moveDir_dirOf, hsent.dirOf]
      _ = _ := by simp only [takenLine, Option.some.injEq, eq_comm]

theorem takeOver_engines (d : DestLine) : (s.takeOver agent eng asn d).engines = s.engines := by
  cases d with
  | wait k => rfl
  | none => rfl
  | take va line =>
    have hsent := (SameOwners.noteWalk s asn va).trans (.request _ agent (hubOf va) line asn)
    exact ((SameOwners.useGot ..).trans (.reply ..)).engines.trans ((moveDir_engines ..).trans hsent.engines)

theorem SameHarts.takeOver (d : DestLine) : s.SameHarts (s.takeOver agent eng asn d) := by
  cases d with
  | wait k => rfl
  | none => rfl
  | take va line =>
    exact ((((SameHarts.ofStore (.noteWalk s asn va)).trans (.request ..)).trans (.moveDir ..)).trans (.useGot ..)).trans (.reply ..)

theorem takeAll_dirOf (lines : List DestLine) (l : Nat) : (s.takeAll agent eng asn lines).dirOf l =
    if l ∈ lines.filterMap takenLine then .g agent eng else s.dirOf l := by
  induction lines generalizing s with
  | nil => rfl
  | cons d lines ih =>
    show ((s.takeOver agent eng asn d).takeAll agent eng asn lines).dirOf l = _
    rw [ih, takeOver_dirOf, List.filterMap_cons]
    cases takenLine d with
    | none => simp
    | some k => by_cases hk : k = l <;> simp [hk, eq_comm (a := l)]

theorem takeAll_engines (lines : List DestLine) : (s.takeAll agent eng asn lines).engines = s.engines :=
  List.foldlRecOn lines _ (motive := fun t : State => t.engines = s.engines) rfl fun _ ht _ _ => (takeOver_engines ..).trans ht

theorem takeAll_engine (lines : List DestLine) (a e : Nat) : (s.takeAll agent eng asn lines).engine a e = s.engine a e :=
  congrArg (fun l => tget l (engKey a e) ({} : Engine)) (takeAll_engines ..)

theorem SameHarts.takeAll (lines : List DestLine) : s.SameHarts (s.takeAll agent eng asn lines) :=
  .foldl (fun t d => .takeOver t agent eng asn d) lines s

end TakeOver

end State

/-! The ticket of an accepted operation (R339). -/

/-- The ticket of an operation of an engine, by its sequence number. -/
def ticketWord (agent eng seq : Nat) : Word := BitVec.ofNat 64 (seq % 2 ^ 48 + 2 ^ 48 * eng + 2 ^ 56 * agent)

section Ticket
variable {agent eng : Nat} (ha : agent < 32) (he : eng < 8) (seq : Nat)
include ha he

theorem ticketWord_toNat : (ticketWord agent eng seq).toNat = seq % 2 ^ 48 + 2 ^ 48 * eng + 2 ^ 56 * agent := by
  rw [ticketWord, BitVec.toNat_ofNat, Nat.mod_eq_of_lt (by omega)]

theorem ticketAgent_ticketWord : ticketAgent (ticketWord agent eng seq) = agent := by
  rw [ticketAgent, bitsOf, ticketWord_toNat ha he]
  omega

theorem ticketEng_ticketWord : ticketEng (ticketWord agent eng seq) = eng := by
  rw [ticketEng, bitsOf, ticketWord_toNat ha he]
  omega

theorem ticketSeq_ticketWord : ticketSeq (ticketWord agent eng seq) = seq % 2 ^ 48 := by
  rw [ticketSeq, bitsOf, ticketWord_toNat ha he]
  omega

end Ticket

/-! Acceptance (R274, R339, R397). -/

section Accept
variable {s : State} {agent eng room cost : Nat} {op : EngOp}

/-- What keeps an operation from its engine: no place, a destination line to wait for, or a resync that holds the takeover. -/
theorem State.accept_eq_none_iff : s.accept agent eng room cost op = none ↔ room ≤ (s.engine agent eng).ops.length ∨
    (∃ k, .wait k ∈ s.destLines op.writer op.dest.1 op.dest.2) ∨
    (s.resync = true ∧ ∃ l ∈ s.destLines op.writer op.dest.1 op.dest.2, l ≠ .none) := by
  rw [← destWaits_isSome]
  unfold State.accept
  dsimp only
  split
  · next h => simpa using h
  · next h => simpa using h

/-- An accepted operation is queued with its promise, its ticket is handed out, and its lines are taken over. -/
theorem State.accept_eq_some {t : State} {promise ticket : Word} (h : s.accept agent eng room cost op = some (t, promise, ticket)) :
    let e := s.engine agent eng
    let lines := s.destLines op.writer op.dest.1 op.dest.2
    let seq := (e.seq + BitVec.ofNat 64 (e.ops.length + 1)).toNat
    promise = (if e.promise.toNat < s.cyc.toNat then s.cyc else e.promise) +
      BitVec.ofNat 64 (2048 + cost * lineCount op.dest.1 op.dest.2) ∧
    ticket = ticketWord agent eng seq ∧
    ∃ took, t = (s.setEngine agent eng { e with promise := promise, ops := e.ops ++ [op], took := took }).takeAll
      agent eng op.writer.asn lines := by
  unfold State.accept at h
  dsimp only at h
  split at h
  · cases h
  · obtain ⟨rfl, rfl, rfl⟩ := h
    exact ⟨rfl, rfl, _, rfl⟩

end Accept

/-- Settles O42: an operation that nothing keeps from its engine is accepted, and an accepted one is queued, its promise and
ticket are those of its engine, and its destination lines become the engine's. -/
theorem engineAcceptance : Obligations.EngineAcceptance := by
  unfold Obligations.EngineAcceptance
  intro s agent eng room cost op e lines waits ha he
  refine ⟨fun hroom hfree => ?_, State.accept_eq_none_iff.2⟩
  have hsome : s.accept agent eng room cost op ≠ none := fun hnone =>
    (State.accept_eq_none_iff.1 hnone).elim (Nat.not_le.2 hroom) hfree
  obtain ⟨⟨t, promise, ticket⟩, hacc⟩ := Option.ne_none_iff_exists'.1 hsome
  obtain ⟨hpromise, rfl, took, rfl⟩ := State.accept_eq_some hacc
  have hengine (x : Engine) : ((s.setEngine agent eng x).takeAll agent eng op.writer.asn lines).engine agent eng = x :=
    (State.takeAll_engine ..).trans (s.engine_setEngine ..)
  refine ⟨_, _, _, hacc, ?_, ?_, hpromise, ticketAgent_ticketWord ha he _, ticketEng_ticketWord ha he _,
    ticketSeq_ticketWord ha he _, fun va l hl => ?_, fun l hl => ?_, State.SameHarts.takeAll .., State.accept_mem _ _ _ _ _ _ _ hacc⟩
  · rw [hengine]
  · rw [hengine]
  · rw [State.takeAll_dirOf, if_pos (mem_takenLines.2 ⟨va, hl⟩)]
  · rw [State.takeAll_dirOf, if_neg fun h => (mem_takenLines.1 h).elim hl]
    rfl

end Sys2Proof.Machine

namespace Sys2Proof.Machine

/-! PROOFS of the families 15_tasks to 19_counters. How an instruction of a hart at rest ends: with the state its effect leaves, or
held at its address. -/

/-- An effect that leaves the queue of its hart empty: no vector fault follows it. -/
theorem completesAs_of {s u : State} {i : Instr} {o : Fields} (body : State → Res) (h : s.CanRun i o)
    (hx : exec i s = issue i o body s) (hb : body s.begun = .ok u) (hq : (u.hart s.cur).queue = []) : CompletesAs i o s u := by
  rw [CompletesAs, hx, issue_run h, hb]
  exact finish_ok _ _ _ (by rwa [issued_queue])

/-- An instruction that is held stands at its address again. -/
theorem exec_hold {s u : State} {i : Instr} {o : Fields} (body : State → Res) (h : s.CanRun i o)
    (hx : exec i s = issue i o body s) (hb : body s.begun = .hold u) (hq : (u.hart s.cur).queue = []) :
    exec i s = .next (u.modHart s.cur fun x => { x with pc := s.me.pc, held := true }) := by
  rw [hx, issue_run h, hb]
  refine congrArg _ (State.settle_empty ?_)
  exact (u.modHart_queue s.cur s.cur (f := fun x => { x with pc := s.me.pc, held := true || x.held }) fun _ => rfl).trans hq

theorem State.begun_queue {s : State} (h : s.AtRest) : (s.begun.hart s.cur).queue = [] := by
  rw [State.begun_me h]
  exact h.empty

theorem State.begun_reg {s : State} (h : s.AtRest) (n : Nat) : (s.begun.hart s.cur).reg n = s.me.reg n := by
  rw [State.begun_me h]
  rfl

/-- An effect on the hart that runs is that hart set. -/
theorem State.begun_modHart {s : State} (h : s.AtRest) (f : Hart → Hart) :
    s.begun.modHart s.cur f = s.begun.setHart s.cur (f s.me.advanced) := by
  rw [State.modHart, State.begun_me h]

/-! Waits (R328, R329, R344, R404). -/

/-- A hart whose wait is over (R328, R344). -/
def Hart.waitEnded (x : Hart) : Hart := { x with waitFrom := none, waitQuad := none }

/-- A hart that waits at its instruction since `from_`, a WAITB on a barrier of `quad` (R328, R344). -/
def Hart.waits (x : Hart) (from_ : Word) (quad : Option Nat) : Hart :=
  { x with held := true, heldPush := false, waiting := true, waitFrom := some from_, waitQuad := quad }

/-- A wait that is over, with an effect f on its hart that lets no result be outstanding. -/
theorem completes_waitOver {s : State} {i : Instr} {o : Fields} (body : State → Res) (f : Hart → Hart) (h : s.CanRun i o)
    (hx : exec i s = issue i o body s) (hb : body s.begun = .ok (s.begun.modHart s.cur f))
    (hq : (f s.me.advanced).queue = s.me.queue) (hc : (f s.me.advanced).rsPoison = s.me.rsPoison)
    (hp : (f s.me.advanced).pend = s.me.pend) : Completes i o s 0 f := by
  rw [State.begun_modHart h.toAtRest] at hb
  have hpend : (f s.me.advanced).pend = [] := hp.trans h.settled
  exact completes_of body _ h hx hb (hq.trans h.empty) (hc.trans h.clean) (by simp [hpend]) (Hart.landAll_nil _ hpend)

/-- A wait that goes on. -/
theorem exec_waits {s : State} {i : Instr} {o : Fields} (body : State → Res) (f : Hart → Hart) (quad : Option Nat)
    (h : s.CanRun i o) (hx : exec i s = issue i o body s) (hb : body s.begun = .hold (s.begun.modHart s.cur f))
    (hf : f s.me.advanced =
      { s.me.advanced with waiting := true, waitFrom := some (s.me.waitFrom.getD s.cyc), waitQuad := quad }) :
    exec i s = .next (s.setHart s.cur (s.me.waits (s.me.waitFrom.getD s.cyc) quad)) := by
  have hset := State.begun_modHart h.toAtRest f
  have hlen : s.cur < s.begun.harts.length := by simpa [State.begun] using h.here
  rw [exec_hold body h hx hb (by rw [hset, State.setHart_hart _ _ _ hlen, hf]; exact h.empty), hset, State.modHart,
    State.setHart_hart _ _ _ hlen, hf, State.begun, State.setHart_setHart, State.setHart_setHart]
  rfl

section Waits
variable {s : State} {o : Fields}

/-- A ticket that WAITT accepts names a copy engine of a C-die or the collective engine of a hub (R344). -/
def TicketNamed (t : Word) : Prop :=
  (ticketAgent t < 24 ∧ ticketEng t < 4) ∨ (24 ≤ ticketAgent t ∧ ticketAgent t < 32 ∧ ticketEng t = 4)

/-- A ticket that is accepted, complete, and of no fault: the wait is over. -/
theorem waittLook_done {p t : Word} (hn : TicketNamed t) (hdone : s.ticketDone t = true)
    (hrec : (s.engine (ticketAgent t) (ticketEng t)).unraised t = none) : waittLook p t s = .ok (s.waitOver s.cur) := by
  unfold TicketNamed at hn
  unfold waittLook
  rw [if_neg (by omega), if_pos hdone]
  simp only [hrec]

/-- A ticket that is accepted, incomplete, of a die in service and before its promise: the hart waits. -/
theorem waittLook_waits {p t : Word} (hn : TicketNamed t) (hdone : s.ticketDone t = false)
    (hdie : ticketAgent t < 24 → s.inService (ticketAgent t) = true) (hp : s.cyc.toNat < p.toNat) :
    waittLook p t s = .hold (s.waitHere s.cur) := by
  unfold TicketNamed at hn
  unfold waittLook
  rw [if_neg (by omega), if_neg (by simp [hdone]), if_neg fun hlost => by simp [hdie hlost.1] at hlost,
    if_neg (Nat.not_le.2 hp)]

theorem waittBody_rest (h : s.AtRest) :
    waittBody o s.begun = waittLook (s.me.reg o.a.toNat) (s.me.reg (o.a.toNat + 1)) s.begun := by
  rw [waittBody, State.begun_cur, State.begun_reg h, State.begun_reg h]

/-- WAITSEQ of an engine that exists and is not lost, or of a complete ticket (R404). -/
theorem waitseqBody_rest (h : s.AtRest) (hsel : selectorIll (s.me.reg o.a.toNat) = false)
    (hlost : s.ticketDone (s.me.reg o.a.toNat) = true ∨ s.engineLost (s.me.reg o.a.toNat) = false) :
    waitseqBody o s.begun = waitStep (s.ticketDone (s.me.reg o.a.toNat)) id s.begun := by
  have hcond : (!s.begun.ticketDone (s.me.reg o.a.toNat) && s.begun.engineLost (s.me.reg o.a.toNat)) = false := by
    rcases hlost with hd | hl
    · exact (congrArg (fun b => !b && _) hd).trans (Bool.false_and _)
    · exact (congrArg (_ && ·) hl).trans (Bool.and_false _)
  unfold waitseqBody
  simp only [State.begun_cur, State.begun_reg h, hsel, hcond, Bool.false_eq_true, if_false]
  rfl

/-- How many phases the barrier of a WAITB has passed since the one that it names (R328). -/
def State.phasesPast (s : State) (o : Fields) : Nat :=
  ((s.waitBarrier s.me (decide (o.f = 2)) (o.imm.toNat % 16)).phase - (s.me.reg o.a.toNat).setWidth 16).toNat

theorem waitbOver_iff (h : s.AtRest) : waitbOver o s.begun = true ↔ 1 ≤ s.phasesPast o ∧ s.phasesPast o ≤ 2 ^ 15 := by
  have hquad : decide (fN o = 2) = decide (o.f = 2) := by
    rw [decide_eq_decide, fN, ← BitVec.toNat_inj]
    rfl
  unfold waitbOver
  simp only [State.begun_cur, State.begun_me h, hquad, Bool.and_eq_true, decide_eq_true_eq]
  rfl

theorem sleepOver_iff (h : s.AtRest) : sleepOver o s.begun = true ↔
    s.me.wake = true ∨ (1 ≤ (s.me.reg o.a.toNat).toNat ∧ (s.me.reg o.a.toNat).toNat ≤ s.waited s.cur) := by
  have hwaited : s.begun.waited s.cur = s.waited s.cur := by
    rw [State.waited, State.begun_me h]
    rfl
  unfold sleepOver
  simp only [State.begun_cur, State.begun_reg h, hwaited, Bool.or_eq_true, Bool.and_eq_true, decide_eq_true_eq,
    Nat.one_le_iff_ne_zero]
  rw [State.begun_me h]
  rfl

/-- A look that ends a wait, or goes on with it, on a hart at rest. -/
theorem waitStep_begun (h : s.AtRest) (fin : Bool) (f : Hart → Hart) : waitStep fin f s.begun =
    if fin then .ok (s.begun.modHart s.cur fun x => f x.waitEnded) else .hold (s.begun.waitHere s.cur) := by
  have hlen : s.cur < s.begun.harts.length := by simpa [State.begun] using h.here
  unfold waitStep
  rw [State.begun_cur, State.waitOver, State.modHart_modHart _ _ _ hlen]
  rfl

end Waits

/-- Settles O44: each wait looks at its condition, which the begun state has as the state before it, and ends or goes on. -/
theorem waits : Obligations.Waits := by
  unfold Obligations.Waits
  intro s o x ended stays t q named n waited
  have ends {i : Instr} {body : State → Res} (h : s.CanRun i o) (hx : exec i s = issue i o body s)
      (hb : body s.begun = .ok (s.begun.waitOver s.cur)) : Completes i o s 0 ended :=
    completes_waitOver body Hart.waitEnded h hx hb rfl rfl rfl
  have goesOn {i : Instr} {body : State → Res} (h : s.CanRun i o) (hx : exec i s = issue i o body s)
      (hb : body s.begun = .hold (s.begun.waitHere s.cur)) : stays i x.waitQuad :=
    exec_waits body _ x.waitQuad h hx hb rfl
  refine ⟨fun h hn hdone hrec => ?_, fun h hn hdone hdie hp => ?_, fun h hsel hdone => ?_, fun h hsel hdone hlost => ?_,
    fun h h1 h2 => ?_, fun h hn => ?_, fun h hw => ?_, fun h hwake hw => ?_⟩
  · exact ends h rfl ((waittBody_rest h.toAtRest).trans (waittLook_done hn hdone hrec))
  · exact goesOn h rfl ((waittBody_rest h.toAtRest).trans (waittLook_waits hn hdone hdie hp))
  · refine ends h rfl ((waitseqBody_rest h.toAtRest hsel (.inl hdone)).trans ?_)
    rw [waitStep_begun h.toAtRest, hdone]
    rfl
  · refine goesOn h rfl ((waitseqBody_rest h.toAtRest hsel (.inr hlost)).trans ?_)
    rw [waitStep_begun h.toAtRest, hdone]
    rfl
  · exact ends (body := waitbBody o) h rfl (if_pos ((waitbOver_iff h.toAtRest).2 ⟨h1, h2⟩))
  · have hover : ¬ waitbOver o s.begun = true := fun hc => by
      obtain ⟨h1, h2⟩ : 1 ≤ n ∧ n ≤ 2 ^ 15 := (waitbOver_iff h.toAtRest).1 hc
      omega
    have hlen : s.cur < s.begun.harts.length := by simpa [State.begun] using h.here
    refine exec_waits (waitbBody o) (fun y => { y with
      waiting := true, waitFrom := some (y.waitFrom.getD s.cyc), waitQuad := some (y.waitQuad.getD y.quadNo) }) _ h rfl ?_ rfl
    exact (if_neg hover).trans (congrArg Res.hold (State.modHart_modHart _ _ _ hlen))
  · refine completes_waitOver (sleepBody o) (fun y => { y.waitEnded with wake := false }) h rfl ?_ rfl rfl rfl
    rw [sleepBody, (sleepOver_iff h.toAtRest).2 hw, waitStep_begun h.toAtRest]
    rfl
  · have hover : sleepOver o s.begun = false := Bool.eq_false_iff.2 fun hc => by
      rcases (sleepOver_iff h.toAtRest).1 hc with hset | ⟨h1, h2⟩
      · exact absurd (hset.symm.trans hwake) (by decide)
      · rcases hw with hq | hlt
        · rw [show s.me.reg o.a.toNat = 0 from hq] at h1
          exact absurd h1 (by decide)
        · exact absurd h2 (Nat.not_le.2 hlt)
    refine goesOn (body := sleepBody o) h rfl ?_
    rw [sleepBody, hover, waitStep_begun h.toAtRest]
    rfl

end Sys2Proof.Machine

namespace Sys2Proof.Machine

/-! PMIG that traps: what its hub has read of the tables (R350, R361). -/

/-- How many snapshots of ASN entries hub 0 holds after an instruction. -/
def snapsHeld (r : Out) : Option Nat :=
  match r with
  | .next t => some (t.hub 0).asnSnaps.length
  | _ => none

/-- At reset every operand of PMIG is 0: its VA has no leaf, which is PROTECT with reason 12. -/
theorem reset_pmigTrap : pmigTrap State.reset 0 0 0 0 = some (trapReason 12 0) := by decide +kernel

theorem reset_canRun_pmig : State.reset.CanRun (.pmig {}) {} where
  here := by decide
  empty := rfl
  level := rfl
  settled := rfl
  clean := rfl
  free := rfl
  live := rfl
  runs := by decide +kernel
  allowed := by decide +kernel

theorem reset_pmig_snaps : snapsHeld (exec (.pmig {}) State.reset) = some 1 := by decide +kernel

theorem reset_trap_snaps :
    snapsHeld (.next (State.reset.begun.takeTrap 0 (trapReason 12 0) 0)) = some 0 := by decide +kernel

/-- Refutes O48: a PMIG that traps leaves more than the trap entry: its hub has read the ASN entry to find that the page has no
leaf, and keeps it (R350). At reset hub 0 holds no snapshot, and after the PMIG it holds one. -/
theorem not_biasAndMigration : ¬ Obligations.BiasAndMigration := by
  unfold Obligations.BiasAndMigration
  intro hO
  obtain ⟨-, -, htraps, -⟩ := hO State.reset {}
  have htrap : exec (.pmig {}) State.reset = .next (State.reset.begun.takeTrap 0 (trapReason 12 0) 0) :=
    htraps reset_canRun_pmig rfl _ reset_pmigTrap
  have hsnaps := reset_pmig_snaps
  rw [htrap, reset_trap_snaps] at hsnaps
  exact absurd hsnaps (by decide)

end Sys2Proof.Machine

namespace Sys2Proof.Machine

/-! VIEWSYNC of a hart that waits since before its registration was removed (R383, R384). -/

/-- What O46 says of VIEWSYNC at address 0, as a computation: where the address translates to local HBM, no die taints the hart's
ASN, no resync runs, and the block there is fresh, unpoisoned and covers version 0, the state that the instruction leaves. -/
def State.syncedHere (s : State) (o : Fields) : Option State :=
  match s.begun.accessPage (s.begun.who s.cur s.me.sup false 0) .load 0 with
  | .ok u pa _ => match u.viewBlockOf pa with
    | some (reg, k) =>
      if lowestDie (u.taint s.me.asn) = none ∧ u.resync = false ∧ spaceOf pa = 0 ∧ (u.block reg k).st = .fresh ∧
          covers (u.block reg k).tag 0 = true ∧ (u.block reg k).p = false then
        some ((((((u.endHolds s.cur).waitOver s.cur).endHolds s.cur).travel s.me.die 0 (lineOf pa) s.me.asn)).issued s.cur (.viewsync o) o)
      else none
    | none => none
  | _ => none

theorem exec_of_syncedHere (hO : Obligations.ViewInstructions) {s v : State} {o : Fields} (h : s.CanRun (.viewsync o) o)
    (ha : s.me.reg o.a.toNat = 0) (hb : s.me.reg o.b.toNat = 0) (hv : s.syncedHere o = some v) :
    exec (.viewsync o) s = .next v := by
  obtain ⟨-, -, hview, -⟩ := hO s o
  simp only [ha, hb] at hview
  unfold State.syncedHere at hv
  split at hv
  · next u pa pte hp =>
    split at hv
    · next reg k hblock =>
      split_ifs at hv with hc
      obtain ⟨htaint, hresync, hspace, hst, hcov, hbad⟩ := hc
      cases hv
      obtain ⟨hsync, -⟩ := hview (by decide) u pa pte hp ⟨htaint, hresync⟩
      exact hsync h hspace reg k hblock hst hcov hbad
    · cases hv
  · cases hv

/-- A FORMAT view of one block whose elements stand at 0, of the master at 0x3000 (R374). -/
def viewAtZero : ViewReg where
  asn := 0
  desc := 0x4600
  rel := 0
  fmt := 1
  policy := 0
  l2es := 2
  rows := 1
  cols := 128
  mbase := 0x3000
  mstride := 512
  vbase := 0
  vstride := 128
  tbase := 0
  dbase := 0
  sbase := 0x800
  sstride := 4
  log2row := 0
  frames := [(3, 3), (0, 0)]

/-- Reset with page 0 mapped to the frame at 0 (R219, R352), where registration 0 has a fresh block. The hart's VIEWSYNC has been held
on a block of registration 1, which is removed. -/
def removedView : State :=
  { State.reset.setHub 0 { tlb := [⟨0, true, 0, 12, 0x8000000000000803, 0⟩], asnSnaps := [(0, 1)] } with
    harts := [{ Hart.stobry with waitFrom := some 0, syncOn := some 1 }]
    regs := [(0, viewAtZero)]
    nextReg := 2
    blocks := [(0, { st := .fresh, published := true })] }

theorem removedView_canRun : removedView.CanRun (.viewsync {}) {} where
  here := by decide
  empty := rfl
  level := rfl
  settled := rfl
  clean := rfl
  free := rfl
  live := rfl
  runs := by decide +kernel
  allowed := by decide +kernel

theorem removedView_syncedHere : (removedView.syncedHere {}).map (fun t => (t.hart 0).pc) = some 12 := by decide +kernel

theorem removedView_exec : pcAfter (exec (.viewsync {}) removedView) = some 0 := by decide +kernel

/-- Refutes O46: no premise says that the hart begins its VIEWSYNC. In `removedView` it has waited since before the registration it
waited on was removed, and finds it gone, whatever is registered there now (R383): it enters its handler, at 0. -/
theorem not_viewInstructions : ¬ Obligations.ViewInstructions := by
  intro hO
  obtain ⟨v, hv, hpc⟩ := Option.map_eq_some_iff.1 removedView_syncedHere
  have hexec := removedView_exec
  rw [exec_of_syncedHere hO removedView_canRun rfl rfl hv] at hexec
  have h0 : (v.hart 0).pc = 0 := Option.some.inj hexec
  rw [hpc] at h0
  exact absurd h0 (by decide)

end Sys2Proof.Machine

namespace Sys2Proof.Machine

/-! TASKCAN (R309, R327). -/

theorem State.SameHarts.endTask (s : State) (asn : BitVec 16) (tcb : Word) (pa st status : Nat) (ending : PredEnd) :
    s.SameHarts (s.endTask asn tcb pa st status ending) := (endTcb ..).trans (devAll ..)

section TaskCancel
variable {s : State} {o : Fields}

/-- The cancellation of a task that waits or is ready, of one that runs, and of a TCB with no task to cancel. -/
theorem State.cancelTcb_pending {pa : Nat} (va : Word) (h : s.tcbState pa = 1 ∨ s.tcbState pa = 2) : s.cancelTcb va pa =
    (s.endTask (BitVec.ofNat 16 (s.tcbField pa 0x28 24 16)) va pa 5 7 .cancelled, 0) := by
  unfold State.cancelTcb
  rcases h with h | h <;> simp only [h]

theorem State.cancelTcb_running {pa : Nat} (va : Word) (h : s.tcbState pa = 3) : s.cancelTcb va pa = (s, 1) := by
  unfold State.cancelTcb
  simp only [h]

theorem State.cancelTcb_over {pa : Nat} (va : Word)
    (h : s.tcbState pa = 0 ∨ s.tcbState pa = 4 ∨ s.tcbState pa = 5 ∨ s.tcbState pa = 6) : s.cancelTcb va pa = (s, 2) := by
  unfold State.cancelTcb
  rcases h with h | h | h | h <;> simp only [h]

/-- TASKCAN where its access to the TCB passes. -/
theorem taskcanBody_found {s1 s2 : State} {a : Word} {pa : Nat} {pte : Word} (h : s.AtRest) (ha : s.me.reg o.a.toNat = a)
    (hal : a.toNat % 128 = 0) (hlt : a.toNat < 2 ^ 48)
    (hpage : s.begun.accessPage (s.begun.who s.cur s.me.sup false a) .store a.toNat = .ok s1 pa pte) (hspace : spaceOf pa = 0)
    (hmaster : s1.canWriteMaster pa 128 = true)
    (hlines : s1.accessLines (s.begun.who s.cur s.me.sup false a) .store pte a.toNat pa 128 .home = .ok s2)
    (hclean : s2.poisoned pa 128 = false) : taskcanBody o s.begun =
      .ok (((s2.endHolds s.cur).cancelTcb a pa).1.modHart s.cur fun y =>
        y.varResult o.d.toNat ((s2.endHolds s.cur).cancelTcb a pa).2) := by
  have hsup : (s.begun.hart s.cur).sup = s.me.sup := by
    rw [State.begun_me h]
    rfl
  have haligned : aligned a 128 = true := decide_eq_true hal
  unfold taskcanBody
  simp only [State.begun_cur, State.begun_reg h, ha, hsup, haligned, Nat.not_le.2 hlt, hpage, hspace, hmaster, hlines, hclean,
    Bool.not_true, Bool.false_eq_true, if_false, ne_eq, not_true_eq_false]

/-- Settles O45: the access leaves the queue of the hart empty, and so does the end of the task, so no vector fault follows. -/
theorem taskCancel : Obligations.TaskCancel := by
  unfold Obligations.TaskCancel
  intro s o x a w h hal hlt s1 pa pte hpage hspace hmaster s2 hlines hclean s3 st gives
  have h1 : s1.QueueEmpty s.cur :=
    (State.begun_quiet h.toAtRest trivial).ofHarts ((State.SameHarts.accessPage ..).ok hpage)
  have h3 : s3.QueueEmpty s.cur := (h1.store ((State.accessLines_store ..).ok hlines)).endHolds s.cur
  have hbody := taskcanBody_found h.toAtRest rfl hal hlt hpage hspace hmaster hlines hclean
  have ends {u : State} {v : Word} (hu : u.QueueEmpty s.cur) (hc : s3.cancelTcb a pa = (u, v)) : gives u v :=
    completesAs_of (taskcanBody o) h rfl (hbody.trans (by rw [hc])) (hu.varResult ..).2
  exact ⟨fun hst => ends (h3.ofHarts (.endTask ..)) (State.cancelTcb_pending a hst),
    fun hst => ends h3 (State.cancelTcb_running a hst), fun hst => ends h3 (State.cancelTcb_over a hst)⟩

end TaskCancel

/-! The reads of group 0xC (R386, R399 to R407). -/

section Counters
variable {s : State} {o : Fields}

/-- A word of the begun state, given as a variable-latency result. -/
theorem completes_giveWord {i : Instr} {body : State → Res} {v : State → Word} (h : s.CanRun i o) (hx : exec i s = issue i o body s)
    (hb : body s.begun = giveWord o v s.begun) : Completes i o s 0 fun y => y.setReg o.d.toNat (v s.begun) := by
  have hme : s.me.advanced.Settled := ⟨h.settled, h.clean, h.empty⟩
  have hgive : body s.begun = .ok (s.begun.setHart s.cur (s.me.advanced.setReg o.d.toNat (v s.begun))) := by
    rw [hb, giveWord, State.begun_cur, State.begun_modHart h.toAtRest, Hart.varResult_lands _ hme.1]
  obtain ⟨hpend, hclean, hqueue⟩ := hme.setReg o.d.toNat (v s.begun)
  exact completes_of body _ h hx hgive hqueue hclean (by rw [hpend]; nofun) (Hart.landAll_nil _ hpend)

theorem State.begun_waitAccesses (h : s.AtRest) (go : State → Res) : s.begun.waitAccesses s.cur go = go s.begun :=
  State.waitUntil_empty _ _ (State.begun_queue h)

theorem rdseqBody_rest (h : s.AtRest) (hsel : selectorIll (s.me.reg o.a.toNat) = false)
    (hlost : s.engineLost (s.me.reg o.a.toNat) = false) : rdseqBody o s.begun =
      giveWord o (fun t => (t.engine (ticketAgent (s.me.reg o.a.toNat)) (ticketEng (s.me.reg o.a.toNat))).seq) s.begun := by
  have hbegun : s.begun.engineLost (s.me.reg o.a.toNat) = false := hlost
  unfold rdseqBody
  simp only [State.begun_cur, State.begun_reg h, hsel, hbegun, Bool.false_eq_true, if_false]

theorem rdclkBody_rest (h : s.AtRest) (hitem : o.imm.toNat ≠ 3 ∨ bitsOf (s.me.reg o.a.toNat).toNat 8 3 < 4) : rdclkBody o s.begun =
    giveWord o (fun t => t.clkWord o.imm.toNat (s.me.reg o.a.toNat)) s.begun := by
  unfold rdclkBody
  simp only [State.begun_cur, State.begun_reg h]
  exact if_neg fun hbad => hitem.elim (fun hne => hne hbad.1) fun hlt => Nat.not_le.2 hlt hbad.2

/-- What a counter holds, looked at by an instruction that has begun. -/
theorem State.begun_counter (h : s.AtRest) (hub : Bool) (u n : Nat) :
    s.begun.counter (s.begun.hart s.cur) hub u n = s.counter s.me hub u n := by
  rw [State.begun_me h]
  rfl

theorem evrdBody_rest (h : s.AtRest) {hub : Bool} {u n : Nat} (hat : counterAt (s.me.reg o.a.toNat) = some (hub, u, n))
    (hsup : hub = true → s.me.sup = true) : evrdBody o s.begun =
      giveWord o (fun _ => (s.countNow (s.counter s.me hub u n)).1) (s.begun.countNow (s.counter s.me hub u n)).2 := by
  have hpriv : (hub && !(s.begun.hart s.cur).sup) = false := by
    rw [State.begun_me h]
    cases hub with
    | false => rfl
    | true => simp [Hart.advanced, hsup rfl]
  have hword : (s.begun.countNow (s.counter s.me hub u n)).1 = (s.countNow (s.counter s.me hub u n)).1 := by
    unfold State.countNow
    split <;> rfl
  unfold evrdBody
  simp only [State.begun_cur, State.begun_reg h, hat, State.begun_counter h, hpriv, Bool.false_eq_true, if_false, hword]

/-- Looking at a counter takes at most a free value. -/
theorem State.countNow_rest (t : State) (e : EvCounter) : (t.countNow e).2.harts = t.harts ∧ (t.countNow e).2.cur = t.cur ∧
    (t.countNow e).2.mem = t.mem := by
  unfold State.countNow
  split <;> exact ⟨rfl, rfl, rfl⟩

theorem evrd_givesHart (h : s.CanRun (.evrd o) o) {hub : Bool} {u n : Nat}
    (hat : counterAt (s.me.reg o.a.toNat) = some (hub, u, n)) (hsup : hub = true → s.me.sup = true) :
    GivesHart (.evrd o) s fun y => y.setReg o.d.toNat (s.countNow (s.counter s.me hub u n)).1 := by
  have hme : s.me.advanced.Settled := ⟨h.settled, h.clean, h.empty⟩
  obtain ⟨hharts, hmove, hmem⟩ := s.begun.countNow_rest (s.counter s.me hub u n)
  have hcur : (s.begun.countNow (s.counter s.me hub u n)).2.cur = s.cur := hmove
  have hhart (k : Nat) : (s.begun.countNow (s.counter s.me hub u n)).2.hart k = s.begun.hart k := by rw [State.hart, hharts]; rfl
  have hlen : s.cur < (s.begun.countNow (s.counter s.me hub u n)).2.harts.length := by
    rw [hharts]
    simpa [State.begun] using h.here
  obtain ⟨hpend, hclean, hqueue⟩ := hme.setReg o.d.toNat (s.countNow (s.counter s.me hub u n)).1
  refine givesHart_of (evrdBody o) h rfl (evrdBody_rest h.toAtRest hat hsup) ?_ hpend hclean (Hart.headFaulted_empty hqueue) ?_
  · rw [hcur, State.hart_modHart _ _ _ hlen, hhart, State.begun_me h.toAtRest, Hart.varResult_lands _ hme.1]
  · rw [hcur]
    exact State.SameMemory.modHart ⟨hcur, fun k hk => (hhart k).trans (State.setHart_hart_ne _ _ _ _ hk), fun b => by rw [hmem]; rfl⟩ _

theorem evselBody_rest (h : s.AtRest) {hub : Bool} {u n : Nat} (hat : counterAt (s.me.reg o.a.toNat) = some (hub, u, n)) :
    evselBody o s.begun = .ok ((s.begun.countNow (s.counter s.me hub u n)).2.setCounter s.me hub u n
      ({ s.counter s.me hub u n with count := (s.begun.countNow (s.counter s.me hub u n)).1 }.select hub (s.me.reg o.b.toNat))) := by
  unfold evselBody
  simp only [State.begun_cur, State.begun_reg h, hat, State.begun_counter h]
  rw [State.begun_me h]
  rfl

theorem State.setCounter_harts (t : State) (x : Hart) (hub : Bool) (u n : Nat) (e : EvCounter) :
    (t.setCounter x hub u n e).harts = t.harts := by
  cases hub <;> rfl

theorem State.resyncDone_rest (t : State) :
    t.resyncDone.harts = t.harts ∧ t.resyncDone.cur = t.cur ∧ t.resyncDone.rsn = t.rsn + 1 := by
  unfold State.resyncDone
  extract_lets s1
  have hcount : s1.harts = t.harts ∧ s1.cur = t.cur ∧ s1.rsn = t.rsn + 1 := ⟨rfl, rfl, rfl⟩
  clear_value s1
  exact List.foldlRecOn _ _ (motive := fun u : State => u.harts = t.harts ∧ u.cur = t.cur ∧ u.rsn = t.rsn + 1) hcount
    fun u hu _ _ => hu

/-- CRESYNC of a hart that has not waited, where nothing is in flight or in quarantine (R397, R406). -/
theorem cresyncBody_drained (h : s.AtRest) (hdrained : s.drained = true) (hfirst : s.me.waitFrom = none) : cresyncBody o s.begun =
    .ok ((s.begun.resyncDone.waitOver s.cur).modHart s.cur fun y => y.varResult o.d.toNat ((s.rsn + 1).setWidth 64)) := by
  obtain ⟨-, hcur, hrsn⟩ := s.begun.resyncDone_rest
  have hwait : (s.begun.hart s.cur).waitFrom = none := by rw [State.begun_me h]; exact hfirst
  have hd : s.begun.drained = true := hdrained
  have hmove : s.begun.resyncDone.cur = s.cur := hcur
  have hword : s.begun.resyncDone.rsn = s.rsn + 1 := hrsn
  rw [cresyncBody, State.begun_cur, State.begun_waitAccesses h]
  simp only [State.begun_cur, hwait, hd, Option.isSome_none, Bool.false_and, Bool.false_eq_true, if_false, if_true, giveWord,
    State.waitOver, State.modHart_cur, State.modHart_rsn, hmove, hword]

/-- Settles O49: each instruction reads, or sets, what the begun state has as the state before it. -/
theorem counterInstructions : Obligations.CounterInstructions := by
  unfold Obligations.CounterInstructions
  intro s o x a reads
  refine ⟨fun h => completes_giveWord (v := fun t => t.cyc) h rfl rfl, fun h => ?outcnt, fun h => ?budrd,
    fun hsel hlost h => completes_giveWord h rfl (rdseqBody_rest h.toAtRest hsel hlost),
    fun hitem h => completes_giveWord h rfl (rdclkBody_rest h.toAtRest hitem),
    fun hub u n hat hsup h => evrd_givesHart h hat hsup, fun hub u n hat h => ?evsel, fun hdrained hfirst h => ?cresync⟩
  case outcnt =>
    refine (completes_giveWord (v := fun t => (t.hart t.cur).outWord) h rfl rfl).congr ?_
    rw [State.begun_cur, State.begun_me h.toAtRest]
    rfl
  case budrd =>
    refine (completes_giveWord (v := fun t => t.budWord (t.hart t.cur)) h rfl rfl).congr ?_
    rw [State.begun_cur, State.begun_me h.toAtRest]
    rfl
  case evsel =>
    have hharts : (s.begun.countNow (s.counter s.me hub u n)).2.harts = s.begun.harts := (State.countNow_rest ..).1
    refine completesAs_of (evselBody o) h rfl (evselBody_rest h.toAtRest hat) ?_
    rw [State.hart, State.setCounter_harts, hharts]
    exact State.begun_queue h.toAtRest
  case cresync =>
    have hdone : s.begun.resyncDone.QueueEmpty s.cur :=
      (State.begun_quiet h.toAtRest trivial).ofHarts (s.begun.resyncDone_rest).1
    have hwait : (s.begun.resyncDone.waitOver s.cur).QueueEmpty s.cur := hdone.modHart s.cur fun _ => rfl
    exact completesAs_of (cresyncBody o) h rfl (cresyncBody_drained h.toAtRest hdrained hfirst) (hwait.varResult ..).2

end Counters

end Sys2Proof.Machine

namespace Sys2Proof.Machine

section Fabric

/-! The events of the causal fabric (R391 to R394, R417). -/

theorem Clock.note_quar (k : Clock) (src : Nat) (asn : Option (BitVec 16)) : (k.note src asn).quar = k.quar := by
  unfold Clock.note
  split
  · rfl
  · split
    · rfl
    · split
      · rfl
      · split <;> rfl

/-- A delivery raises F and D; what else waits in the quarantine stays there (R391). -/
theorem Clock.deliver_quar (k : Clock) (w : Waiter) : (k.deliver w).quar = k.quar := Clock.note_quar _ _ _

theorem State.clock_setClock (s : State) (a : Nat) (k : Clock) : (s.setClock a k).clock a = k := tset_get _ _ _ _

theorem State.clock_setClock_ne (s : State) (a : Nat) (k : Clock) {b : Nat} (h : b ≠ a) : (s.setClock a k).clock b = s.clock b :=
  tset_get_ne _ _ _ _ _ h

theorem State.countAgent_clocks (s : State) (a c k : Nat) : (s.countAgent a c k).clocks = s.clocks := by
  unfold State.countAgent
  split <;> rfl

/-- A packet of an agent in service that carries another RSN is dropped (R397). -/
theorem State.receive_stale {s : State} {dst : Nat} {p : Packet} (hsrc : s.removed.getLsbD p.src = false) (hrsn : p.rsn ≠ s.rsn) :
    (s.receive dst p).clocks = s.clocks ∧ (s.receive dst p).harts = s.harts ∧ (s.receive dst p).mem = s.mem := by
  cases hdst : s.removed.getLsbD dst with
  | true => simp [State.receive, hdst]
  | false =>
    simp only [State.receive, hsrc, hdst, Bool.or_self, Bool.false_eq_true, if_false, if_pos hrsn, State.dropStale]
    refine ⟨State.countAgent_clocks .., ?_, State.countAgent_mem ..⟩
    rw [State.hubError, State.modHub_harts, State.countAgent]
    split <;> rfl

/-- An arriving packet whose agents, class and dependencies exist is received (R391). -/
theorem exec_packetArrival {s : State} {dst : Nat} {p : Packet} (hdst : dst < 32) (hsrc : p.src < 32) (hcls : p.cls < 4)
    (hlen : p.deps.length ≤ 31) (hdeps : ∀ e ∈ p.deps, e.agent < 32) : exec (.packetArrival dst p) s = .next (s.receive dst p) := by
  have hany : (p.deps.any fun e => decide (32 ≤ e.agent)) = false :=
    List.any_eq_false.mpr fun e he => by have := hdeps e he; simpa using this
  have hgood : ¬ (32 ≤ dst ∨ 32 ≤ p.src ∨ 4 ≤ p.cls ∨ 31 < p.deps.length ∨ (p.deps.any fun e => decide (32 ≤ e.agent)) = true) := by
    simp only [hany, Bool.false_eq_true, or_false]
    omega
  exact congrArg _ (if_neg hgood)

/-- The quarantine of an agent in service delivers its next packet, and no other clock changes (R391). -/
theorem exec_quarantineDelivery {s : State} {dst : Nat} {w : Waiter} (hin : s.removed.getLsbD dst = false)
    (hnext : (s.clock dst).nextOut s.removed = some w) : exec (.quarantineDelivery dst) s =
      .next (s.setClock dst (({ s.clock dst with quar := (s.clock dst).quar.erase w } : Clock).deliver w)) := by
  show execQuarantineDelivery dst s = _
  simp only [execQuarantineDelivery, hin, Bool.false_eq_true, if_false, hnext]

/-- Settles O57: where an event's agents exist and its condition holds, it is the step that its name stands for. -/
theorem fabricEvents : Obligations.FabricEvents := by
  unfold Obligations.FabricEvents
  intro s
  refine ⟨fun dst p hdst hsrc hcls hlen hdeps => ⟨exec_packetArrival hdst hsrc hcls hlen hdeps, State.receive_stale⟩,
    fun dst w hin hnext => ⟨_, exec_quarantineDelivery hin hnext, ?delivered, fun a ha => State.clock_setClock_ne _ _ _ ha, rfl⟩,
    fun dst b hdst hsrc hs hd horder => congrArg _ (if_neg ?inOrder),
    fun src dst hsrc hdst hne hs hd hidle => congrArg _ (if_neg ?idle),
    fun agent ha hclosed => congrArg _ (if_neg ?closed),
    fun hr hd hlate => congrArg _ (if_pos ?late),
    fun v m t hv hm hwatch => congrArg _ ((if_neg ?homes).trans ?confirmed)⟩
  case delivered => rw [State.clock_setClock, Clock.deliver_quar]
  case inOrder =>
    simp only [hs, hd, horder, Bool.not_true, Bool.false_eq_true, or_false]
    omega
  case idle =>
    simp only [hs, hd, Bool.false_eq_true, false_or]
    omega
  case closed =>
    simp only [hclosed, Bool.false_eq_true, or_false]
    omega
  case late => rw [hr, hd, decide_eq_true hlate]; rfl
  case homes => omega
  case confirmed => rw [hwatch, Option.getD_some]

end Fabric

end Sys2Proof.Machine

namespace Sys2Proof.Machine

/-! What the fabric and the homes leave as it is: the tasks and whose turn it is, and, below an access, the translators' entries and
the tile buffers (R350, R372). -/

/-- t has the tasks of s, and it is the same hart's turn. -/
structure State.SameCourse (s t : State) : Prop where
  cur : t.cur = s.cur
  tasks : t.tasks = s.tasks

/-- t has, beside, the translator entries and the core tile buffers of s. -/
structure State.SameBuffers (s t : State) : Prop extends State.SameCourse s t where
  clb (c : Nat) : (t.core c).clb = (s.core c).clb
  tlb (n : Nat) : (t.hub n).tlb = (s.hub n).tlb

theorem tget_map_field {α β : Type} (l : Table α) (c : Nat) (d : α) (f : α → β) (g : Nat → α → α)
    (hg : ∀ k x, f (g k x) = f x) : f (tget (l.map fun p => (p.1, g p.1 p.2)) c d) = f (tget l c d) := by
  rw [tget_tfind, tget_tfind, tfind_map l g c]
  cases tfind l c with
  | none => rfl
  | some x => exact hg c x

namespace State.SameBuffers
variable {s t u : State}

theorem of_fields (hcur : t.cur = s.cur) (htasks : t.tasks = s.tasks) (hcores : t.cores = s.cores) (hhubs : t.hubs = s.hubs) :
    s.SameBuffers t :=
  ⟨⟨hcur, htasks⟩, fun c => by rw [State.core, hcores, State.core], fun n => by rw [State.hub, hhubs, State.hub]⟩

theorem refl (s : State) : s.SameBuffers s := of_fields rfl rfl rfl rfl
theorem trans (h : s.SameBuffers t) (k : t.SameBuffers u) : s.SameBuffers u :=
  ⟨⟨k.cur.trans h.cur, k.tasks.trans h.tasks⟩, fun c => (k.clb c).trans (h.clb c), fun n => (k.tlb n).trans (h.tlb n)⟩

theorem ite {c : Prop} [Decidable c] (ht : s.SameBuffers t) (hu : s.SameBuffers u) : s.SameBuffers (if c then t else u) := by
  split
  · exact ht
  · exact hu

theorem foldl {α : Type} {f : State → α → State} (hf : ∀ (t : State) a, t.SameBuffers (f t a)) (l : List α) (s : State) :
    s.SameBuffers (l.foldl f s) :=
  List.foldlRecOn l f (motive := s.SameBuffers) (refl s) fun _ ht _ _ => ht.trans (hf _ _)

theorem modHub (s : State) (n : Nat) {f : Hub → Hub} (hf : ∀ v, (f v).tlb = v.tlb) : s.SameBuffers (s.modHub n f) := by
  refine ⟨⟨rfl, rfl⟩, fun _ => rfl, fun k => ?_⟩
  by_cases hk : k = n
  · subst hk
    by_cases hlt : k < 8
    · rw [State.modHub, State.hub_setHub _ _ _ hlt, hf]
    · have hlt : ¬ k < 8 := hlt
      simp [State.modHub, State.setHub, State.hub, hlt]
  · rw [State.modHub, State.hub_setHub_ne _ _ _ _ hk]

theorem countHub (s : State) (hub code n : Nat) : s.SameBuffers (s.countHub hub code n) := modHub s hub fun _ => rfl
theorem hubError (s : State) (hub bit : Nat) : s.SameBuffers (s.hubError hub bit) := modHub s hub fun _ => rfl
theorem setClock (s : State) (a : Nat) (k : Clock) : s.SameBuffers (s.setClock a k) := of_fields rfl rfl rfl rfl

theorem countAgent (s : State) (a c k : Nat) : s.SameBuffers (s.countAgent a c k) := by
  unfold State.countAgent
  split
  · exact countHub ..
  · refine ⟨⟨rfl, rfl⟩, fun n => ?_, fun _ => rfl⟩
    show (tget (α := Core) _ n {}).clb = _
    have hmap : (s.cores.map fun p => if p.1 / 32 = a then (p.1, { p.2 with counters := p.2.counters.map (EvCounter.bump c 1) }) else p) =
        s.cores.map fun p => (p.1, if p.1 / 32 = a then { p.2 with counters := p.2.counters.map (EvCounter.bump c 1) } else p.2) :=
      List.map_congr_left fun p _ => by split <;> rfl
    rw [hmap]
    exact tget_map_field s.cores n {} Core.clb
      (fun m x => if m / 32 = a then { x with counters := x.counters.map (EvCounter.bump c 1) } else x) fun m x => by split <;> rfl

/-! The packets and beats of the fabric (R391 to R393). -/

theorem askHorizons (s : State) (dst : Nat) (w : Waiter) : s.SameBuffers (s.askHorizons dst w) :=
  foldl (fun t _ => (setClock t dst _).trans (countAgent ..)) _ s

theorem receive (s : State) (dst : Nat) (p : Packet) : s.SameBuffers (s.receive dst p) := by
  have hflight : s.SameBuffers { s with flight := s.flight.erase (dst, p) } := of_fields rfl rfl rfl rfl
  unfold State.receive
  dsimp only
  split_ifs
  · exact hflight
  · exact (hflight.trans (countAgent ..)).trans (hubError ..)
  · exact refl s
  · exact hflight.trans (setClock ..)
  · split
    · exact countAgent ..
    · exact ((hflight.trans (setClock ..)).trans (countAgent ..)).trans (askHorizons ..)

theorem deliverOut (s : State) (dst n : Nat) : s.SameBuffers (s.deliverOut dst n) := by
  induction n generalizing s with
  | zero => exact refl _
  | succ n ih =>
    simp only [State.deliverOut]
    split
    · exact refl _
    · exact (setClock s _ _).trans (ih _)

theorem answerBeat (s : State) (j d : Nat) : s.SameBuffers (s.answerBeat j d) :=
  (countAgent s ..).trans (ite (refl _) (setClock ..))

theorem bring (s : State) (d : Nat) : s.SameBuffers (s.bring d) :=
  ((foldl (fun t (q : Nat × Packet) => receive t d q.2) _ s).trans (foldl (fun t j => answerBeat t j d) _ _)).trans (deliverOut ..)

theorem stallCycle (s : State) (a : Nat) : s.SameBuffers (s.stallCycle a) := by
  unfold State.stallCycle
  split
  · exact refl s
  · exact ((((countAgent s ..).trans (bring ..)).trans (answerBeat ..)).trans (countAgent ..)).trans (answerBeat ..)

theorem reopen (s : State) (a : Nat) : s.SameBuffers (s.reopen a) := foldl (fun t _ => ite (refl t) (stallCycle ..)) _ s

theorem sendPacket (s : State) (a d c : Nat) (asn : Option (BitVec 16)) : s.SameBuffers (s.sendPacket a d c asn) := by
  have hopen : s.SameBuffers (if s.windowOpen a then s else s.reopen a) := ite (refl s) (reopen ..)
  unfold State.sendPacket
  generalize (if s.windowOpen a then s else s.reopen a) = u at hopen
  exact ite (hopen.trans (of_fields rfl rfl rfl rfl)) (hopen.trans (of_fields rfl rfl rfl rfl))

theorem transmit (s : State) (a d c : Nat) (asn : Option (BitVec 16)) : s.SameBuffers (s.transmit a d c asn) := by
  have hcarry : s.SameBuffers (s.carry a d c asn) := (sendPacket ..).trans (bring ..)
  unfold State.transmit
  generalize s.carry a d c asn = t at hcarry
  exact ite (refl s) ⟨⟨rfl, rfl⟩, hcarry.clb, hcarry.tlb⟩

theorem exchange (s : State) (a d : Nat) (asn : Option (BitVec 16)) : s.SameBuffers (s.exchange a d asn) :=
  (transmit ..).trans (transmit ..)

theorem unread (s : State) (r : Nat) : s.SameBuffers (s.unread r) := foldl (fun t _ => (setClock t _ _).trans (deliverOut ..)) _ s

theorem askHorizon (s : State) (d j : Nat) : s.SameBuffers (s.askHorizon d j) :=
  ite (refl s) ((setClock ..).trans (countAgent ..))

/-! The directory (R353, R356). -/

theorem hbmUse (s : State) (hub : Nat) : s.SameBuffers (s.hbmUse hub) := ite (modHub s hub fun _ => rfl) (refl s)

theorem probeDies (s : State) (hub : Nat) (v : BitVec 24) : s.SameBuffers (s.probeDies hub v) :=
  ite (refl s) (foldl (fun t _ => ite ((transmit t ..).trans (transmit ..)) (refl t)) _ s)

theorem freeTag (s : State) (frame : Nat) : s.SameBuffers (s.freeTag frame) := ite (refl s) (of_fields rfl rfl rfl rfl)

theorem setDir (s : State) (line : Nat) (x : DirSt) : s.SameBuffers (s.setDir line x) := by
  unfold State.setDir
  extract_lets t
  have ht : s.SameBuffers t := of_fields rfl rfl rfl rfl
  exact ite (ht.trans (freeTag ..)) ht

theorem moveDir (s : State) (hub line : Nat) (y : DirSt) : s.SameBuffers (s.moveDir hub line y) :=
  ((hbmUse s _).trans (probeDies ..)).trans (setDir ..)

theorem recallLine (s : State) (line : Nat) : s.SameBuffers (s.recallLine line) := moveDir ..

theorem recallWhere (s : State) (p : Nat → Bool) : s.SameBuffers (s.recallWhere p) := foldl (fun t _ => moveDir t ..) _ s

end State.SameBuffers

end Sys2Proof.Machine

namespace Sys2Proof.Machine

/-! The broadcasts of an invalidation (R355, R363, R372). -/

/-- The packets of a broadcast leave harts, memory, translators, tile buffers and format records as they are in s. -/
structure State.OnlyPackets (s t : State) : Prop extends State.SameBuffers s t, State.SameStore s t where
  records : t.frecSnaps = s.frecSnaps

namespace State.OnlyPackets
variable {s t u : State}

theorem trans (h : s.OnlyPackets t) (k : t.OnlyPackets u) : s.OnlyPackets u :=
  { toSameBuffers := h.toSameBuffers.trans k.toSameBuffers
    toSameStore := h.toSameStore.trans k.toSameStore
    records := k.records.trans h.records }

theorem transmit (s : State) (a d c : Nat) (asn : Option (BitVec 16)) : s.OnlyPackets (s.transmit a d c asn) :=
  { toSameBuffers := .transmit ..
    toSameStore := ⟨State.transmit_harts .., State.transmit_mem ..⟩
    records := by unfold State.transmit; split <;> rfl }

theorem foldl {α : Type} {f : State → α → State} (hf : ∀ (t : State) a, t.OnlyPackets (f t a)) (l : List α) (s : State) :
    s.OnlyPackets (l.foldl f s) :=
  List.foldlRecOn l f (motive := s.OnlyPackets) ⟨.refl s, .refl s, rfl⟩ fun _ ht _ _ => ht.trans (hf _ _)

end State.OnlyPackets

/-- Of a broadcast, only what each agent then does touches more than the fabric. -/
theorem State.broadcast_between (s : State) (a : Nat) (f : State → State) :
    ∃ t, s.OnlyPackets t ∧ (f t).OnlyPackets (s.broadcast a f) :=
  ⟨_, .foldl (fun t d => .transmit t a d 2 none) _ s, .foldl (fun t d => .transmit t d a 1 none) _ _⟩

section Invalidations
variable {s u : State} {i : Instr} {o : Fields}

/-- An effect that changes no hart: the end of the instruction only counts it. -/
theorem completes_quietly (body : State → Res) (h : s.CanRun i o) (hx : exec i s = issue i o body s) (hb : body s.begun = .ok u)
    (hharts : u.harts = s.begun.harts) : ∃ c, exec i s = .next (u.countIssue c i) := by
  have hhart : u.hart s.cur = s.me.advanced := by
    rw [State.hart, hharts]
    exact State.begun_me h.toAtRest
  have hend : exec i s = .next (u.issued s.cur i o) := completesAs_of body h hx hb (by rw [hhart]; exact h.empty)
  exact ⟨_, by rw [hend, State.issued_settled _ _ (by rw [hhart]; exact h.settled) (by rw [hhart]; exact h.clean)]⟩

theorem State.announce_ok (t : State) (f : State → State) (h : t.resync = false) :
    t.announce t.cur f = .ok (t.broadcast (t.hart t.cur).die f) := by
  simp [State.announce, h]

theorem State.countIssue_clb (t : State) (c d : Nat) : ((t.countIssue c i).core d).clb = (t.core d).clb := by
  rw [State.countIssue, State.countCore_core]

/-- The tiles of an ASN, and of a ROOT if there is one, dropped on the cores of p (R372). -/
def State.dropTilesOn (t : State) (p : Nat → Bool) (asn : BitVec 16) (root : Option Word) : State :=
  { t with cores := t.cores.map fun q => if p q.1 = true then (q.1, q.2.dropTiles asn root) else q }

theorem State.dropTilesOn_clb (t : State) (p : Nat → Bool) (asn : BitVec 16) (root : Option Word) (c : Nat) :
    ((t.dropTilesOn p asn root).core c).clb = if p c = true then ((t.core c).dropTiles asn root).clb else (t.core c).clb := by
  have hmap : (t.cores.map fun q => if p q.1 = true then (q.1, q.2.dropTiles asn root) else q) =
      t.cores.map fun q => (q.1, if p q.1 = true then q.2.dropTiles asn root else q.2) :=
    List.map_congr_left fun q _ => by split <;> rfl
  rw [State.core, State.core, State.dropTilesOn, hmap, tget_tfind, tget_tfind,
    tfind_map t.cores (fun k x => if p k = true then x.dropTiles asn root else x) c]
  cases tfind t.cores c with
  | none => simp [Core.dropTiles]
  | some x => simp only [Option.map_some, Option.getD_some, apply_ite Core.clb]

/-- The cores that a CLBINV of a hart of die d reaches (R372). -/
def clbScope (o : Fields) (d c : Nat) : Bool := decide (fN o % 8 = 4) || decide (c / 32 = d)

theorem clbinvBody_rest (root : Hart → Option Word) (h : s.AtRest) : clbinvBody o root s.begun =
    if decide (fN o % 8 = 4) = true then
      s.begun.announce s.begun.cur fun t => t.dropTilesOn (clbScope o s.me.die) s.me.asn (root s.me.advanced)
    else .ok (s.begun.dropTilesOn (clbScope o s.me.die) s.me.asn (root s.me.advanced)) := by
  rw [clbinvBody, State.begun_cur, State.begun_waitAccesses h]
  dsimp only
  rw [State.begun_cur, State.begun_me h]
  rfl

/-- CLBINV and CLBINV.ALL drop the tiles of the hart's ASN, of one ROOT or all, on the cores in scope (R372). -/
theorem clbinv_drops {root : Hart → Option Word} (h : s.CanRun i o) (hx : exec i s = issue i o (clbinvBody o root) s)
    (hopen : fN o % 8 = 4 → s.resync = false) : ∃ t, exec i s = .next t ∧ t.harts = s.begun.harts ∧ t.mem = s.mem ∧
      ∀ c, (t.core c).clb = if clbScope o s.me.die c = true then ((s.core c).dropTiles s.me.asn (root s.me.advanced)).clb
        else (s.core c).clb := by
  have hcore (c : Nat) : s.begun.core c = s.core c := rfl
  have hbody := clbinvBody_rest root h.toAtRest (o := o)
  by_cases hpkg : fN o % 8 = 4
  · obtain ⟨t, hbefore, hafter⟩ := s.begun.broadcast_between (s.begun.hart s.begun.cur).die
      fun t => t.dropTilesOn (clbScope o s.me.die) s.me.asn (root s.me.advanced)
    rw [if_pos (decide_eq_true hpkg), State.announce_ok s.begun _ (hopen hpkg)] at hbody
    have hharts := hafter.harts.trans (hbefore.harts : t.harts = _)
    obtain ⟨n, hend⟩ := completes_quietly _ h hx hbody hharts
    refine ⟨_, hend, hharts, hafter.mem.trans hbefore.mem, fun c => ?_⟩
    rw [State.countIssue_clb, hafter.clb, State.dropTilesOn_clb]
    simp only [Core.dropTiles, hbefore.clb c, hcore]
  · rw [if_neg (by simpa using hpkg)] at hbody
    obtain ⟨n, hend⟩ := completes_quietly _ h hx hbody rfl
    refine ⟨_, hend, rfl, rfl, fun c => ?_⟩
    rw [State.countIssue_clb, State.dropTilesOn_clb, hcore]

/-! MTLBINV (R355). -/

theorem State.purgeAll_harts (t : State) (c : InvScope) : (t.purgeAll c).harts = t.harts :=
  State.SameHarts.recallWhere t (t.tagged c)

theorem State.purgeAll_tlb (t : State) (c : InvScope) (n : Nat) : ((t.purgeAll c).hub n).tlb = (t.hub n).tlb :=
  (State.SameBuffers.recallWhere t (t.tagged c)).tlb n

/-- Each hub's translator drops its entries in scope (R355). -/
def State.dropAllEntries (t : State) (c : InvScope) : State := { t with hubs := t.hubs.map fun (u : Hub) => u.dropEntries c }

theorem State.invalidate_eq (t : State) (c : InvScope) :
    t.invalidate c = if scopePurge c = true then (t.dropAllEntries c).purgeAll c else t.dropAllEntries c := rfl

theorem State.dropAllEntries_tlb (t : State) (c : InvScope) (n : Nat) : ((t.dropAllEntries c).hub n).tlb =
    (t.hub n).tlb.filter fun e => !scopeHits c e.asn e.glob e.vbase (2 ^ e.sizeBits) := by
  simp only [State.hub, State.dropAllEntries, Vector.getElem?_map]
  cases t.hubs[n]? <;> rfl

theorem State.invalidate_rest (t : State) (c : InvScope) : (t.invalidate c).harts = t.harts ∧ (t.invalidate c).mem = t.mem ∧
    ∀ n, ((t.invalidate c).hub n).tlb = (t.hub n).tlb.filter fun e => !scopeHits c e.asn e.glob e.vbase (2 ^ e.sizeBits) := by
  rw [State.invalidate_eq]
  split
  · exact ⟨State.purgeAll_harts .., State.purgeAll_mem .., fun n => (State.purgeAll_tlb ..).trans (t.dropAllEntries_tlb c n)⟩
  · exact ⟨rfl, rfl, t.dropAllEntries_tlb c⟩

/-- MTLBINV leaves no translator an entry in its range (R355). -/
theorem mtlbinv_clears {f : Hart → InvScope} (h : s.CanRun i o) (hx : exec i s = issue i o (mtlbinvBody f) s) (hopen : s.resync = false)
    (hfree : s.purgeWaits (f s.me.advanced) = false) : ∃ t, exec i s = .next t ∧ t.harts = s.begun.harts ∧ t.mem = s.mem ∧
      ∀ n < 8, ∀ e ∈ (t.hub n).tlb,
        e ∈ (s.hub n).tlb ∧ scopeHits (f s.me.advanced) e.asn e.glob e.vbase (2 ^ e.sizeBits) = false := by
  have hbody : mtlbinvBody f s.begun = s.begun.announce s.begun.cur fun t => t.invalidate (f s.me.advanced) := by
    have hnow : s.begun.purgeWaits (f s.me.advanced) = false := hfree
    rw [mtlbinvBody, State.begun_cur, State.begun_waitAccesses h.toAtRest]
    dsimp only
    rw [State.begun_cur, State.begun_me h.toAtRest, hnow]
    rfl
  obtain ⟨t, hbefore, hafter⟩ := s.begun.broadcast_between (s.begun.hart s.begun.cur).die fun t => t.invalidate (f s.me.advanced)
  obtain ⟨hharts, hmem, htlb⟩ := t.invalidate_rest (f s.me.advanced)
  rw [State.announce_ok s.begun _ hopen] at hbody
  have hsame := hafter.harts.trans (hharts.trans hbefore.harts)
  obtain ⟨n, hend⟩ := completes_quietly _ h hx hbody hsame
  refine ⟨_, hend, hsame, hafter.mem.trans (hmem.trans hbefore.mem), fun k _ e he => ?_⟩
  have hk : e ∈ ((s.begun.broadcast (s.begun.hart s.begun.cur).die fun t => t.invalidate (f s.me.advanced)).hub k).tlb := he
  rw [hafter.tlb, htlb, hbefore.tlb] at hk
  obtain ⟨hin, hout⟩ := List.mem_filter.1 hk
  exact ⟨hin, by simpa using hout⟩

/-! FRECINV (R363). -/

/-- The records kept for an ASN are dropped, one or all of them, and with all of them FRBASE (R363). -/
def State.forgetRecords (t : State) (o : Fields) (asn : BitVec 16) (all : Bool) : State :=
  let u : State := { t with frecSnaps := t.frecSnaps.filter fun f => !(f.asn == asn && (all || decide (f.n = o.imm.toNat))) }
  if all then { u with hubs := u.hubs.map fun (v : Hub) =>
    { v with asnSnaps := v.asnSnaps.filter fun p => p.1 ≠ asn.toNat } } else u

theorem State.forgetRecords_rest (t : State) (o : Fields) (asn : BitVec 16) (all : Bool) :
    (t.forgetRecords o asn all).harts = t.harts ∧ (t.forgetRecords o asn all).mem = t.mem ∧ (t.forgetRecords o asn all).frecSnaps =
      t.frecSnaps.filter fun f => !(f.asn == asn && (all || decide (f.n = o.imm.toNat))) := by
  cases all <;> exact ⟨rfl, rfl, rfl⟩

theorem frecinv_forgets {all : Bool} (h : s.CanRun i o) (hx : exec i s = issue i o (frecinvBody o all) s) (hopen : s.resync = false) :
    ∃ t, exec i s = .next t ∧ t.harts = s.begun.harts ∧ t.mem = s.mem ∧ t.frecSnaps =
      s.frecSnaps.filter fun f => !(f.asn == (s.me.reg o.a.toNat).setWidth 16 && (all || decide (f.n = o.imm.toNat))) := by
  have hbody : frecinvBody o all s.begun =
      s.begun.announce s.begun.cur fun t => t.forgetRecords o ((s.me.reg o.a.toNat).setWidth 16) all := by
    rw [frecinvBody, State.begun_cur, State.begun_waitAccesses h.toAtRest]
    dsimp only
    rw [State.begun_cur, State.begun_reg h.toAtRest]
    rfl
  obtain ⟨t, hbefore, hafter⟩ := s.begun.broadcast_between (s.begun.hart s.begun.cur).die
    fun t => t.forgetRecords o ((s.me.reg o.a.toNat).setWidth 16) all
  obtain ⟨hharts, hmem, hrecords⟩ := t.forgetRecords_rest o ((s.me.reg o.a.toNat).setWidth 16) all
  rw [State.announce_ok s.begun _ hopen] at hbody
  have hsame := hafter.harts.trans (hharts.trans hbefore.harts)
  obtain ⟨n, hend⟩ := completes_quietly _ h hx hbody hsame
  refine ⟨_, hend, hsame, hafter.mem.trans (hmem.trans hbefore.mem), ?_⟩
  refine (hafter.records.trans hrecords).trans ?_
  rw [hbefore.records]
  rfl

end Invalidations

/-- Settles O47: the broadcast's packets touch the fabric alone, so what is dropped is what each agent drops. -/
theorem invalidations : Obligations.Invalidations := by
  unfold Obligations.Invalidations
  intro s o x asn drops clears forgets
  have hdrops {i : Instr} {root : Hart → Option Word} (hx : exec i s = issue i o (clbinvBody o root) s) :
      drops i (root s.me.advanced) := by
    intro h hopen
    obtain ⟨t, hend, hharts, hmem, hclb⟩ := clbinv_drops h hx hopen
    refine ⟨t, hend, hharts, hmem, fun c => (hclb c).trans ?_⟩
    simp only [clbScope, Bool.or_eq_true, decide_eq_true_eq, Core.dropTiles]
    rfl
  have hclears {i : Instr} {f : Hart → InvScope} (hx : exec i s = issue i o (mtlbinvBody f) s) : clears i (f s.me.advanced) :=
    fun h hopen hfree => mtlbinv_clears h hx hopen hfree
  exact ⟨hdrops (root := fun x => some (clbRoot (x.reg o.a.toNat))) rfl, hdrops (root := fun _ => none) rfl,
    hclears (f := fun x => .page ((x.reg o.b.toNat).setWidth 16)
      (bitsOf (x.reg o.a.toNat).toNat 0 48 / 2 ^ pageBits o * 2 ^ pageBits o) (2 ^ pageBits o) (o.f.getLsbD 4)) rfl,
    hclears (f := fun x => .asn ((x.reg o.b.toNat).setWidth 16) (o.f.getLsbD 4)) rfl,
    hclears (f := fun _ => .all (o.f.getLsbD 4)) rfl,
    fun h hopen => frecinv_forgets h rfl hopen, fun h hopen => frecinv_forgets h rfl hopen⟩

end Sys2Proof.Machine

namespace Sys2Proof.Machine

/-! An access leaves whose turn it is, and the tasks, as they were. -/

/-- The state of a translation, an access or a read that passes has the tasks of s, in the same hart's turn. -/
def DevAt.sameCourse (s : State) : DevAt → Prop
  | .ok t _ | .drop t => s.SameCourse t
  | .held _ => True

namespace State.SameCourse
variable {s t u : State}

theorem refl (s : State) : s.SameCourse s := ⟨rfl, rfl⟩
theorem trans (h : s.SameCourse t) (k : t.SameCourse u) : s.SameCourse u := ⟨k.cur.trans h.cur, k.tasks.trans h.tasks⟩

theorem ite {c : Prop} [Decidable c] (ht : s.SameCourse t) (hu : s.SameCourse u) : s.SameCourse (if c then t else u) := by
  split
  · exact ht
  · exact hu

theorem foldl {α : Type} {f : State → α → State} (hf : ∀ (t : State) a, t.SameCourse (f t a)) (l : List α) (s : State) :
    s.SameCourse (l.foldl f s) :=
  List.foldlRecOn l f (motive := s.SameCourse) (refl s) fun _ ht _ _ => ht.trans (hf _ _)

theorem modHart (s : State) (k : Nat) (f : Hart → Hart) : s.SameCourse (s.modHart k f) := ⟨rfl, rfl⟩
theorem exchange (s : State) (a d : Nat) (asn : Option (BitVec 16)) : s.SameCourse (s.exchange a d asn) :=
  (SameBuffers.exchange s a d asn).toSameCourse
theorem recallLine (s : State) (line : Nat) : s.SameCourse (s.recallLine line) := (SameBuffers.recallLine s line).toSameCourse

/-! The homes (R353, R362). -/

theorem useGot (s : State) (line : Nat) : s.SameCourse (s.useGot line) := ite (refl s) ⟨rfl, rfl⟩
theorem takeHome (s : State) (pa n : Nat) : s.SameCourse (s.takeHome pa n) :=
  foldl (fun t l => (recallLine t l).trans (useGot ..)) _ s

theorem notice (s : State) (reg b : Nat) : s.SameCourse (s.notice reg b) := by
  unfold State.notice
  split
  · exact refl s
  · next r _ =>
    extract_lets x s0 s1 s2
    have h2 : s.SameCourse s2 := ⟨rfl, rfl⟩
    split
    · exact ite h2 (h2.trans (foldl recallLine _ _))
    · exact ⟨rfl, rfl⟩
    · exact ⟨rfl, rfl⟩

theorem sendNotice (s : State) (line reg b : Nat) : s.SameCourse (s.sendNotice line reg b) := by
  unfold State.sendNotice
  exact (ite (refl s) (SameBuffers.transmit ..).toSameCourse).trans (notice ..)

theorem homeWrite (s : State) (pa : Nat) (bs : List Byte) : s.SameCourse (s.homeWrite pa bs) := by
  unfold State.homeWrite
  extract_lets lines w t
  have ht : s.SameCourse t := by
    refine SameCourse.trans (SameBuffers.hbmUse s (hubOfPa pa)).toSameCourse ?_
    exact ⟨rfl, rfl⟩
  clear_value t
  exact ite ht (ht.trans (foldl (fun t l => foldl (fun t (p : Nat × Nat) => sendNotice t l p.1 p.2) (s.watchers l) t) _ _))

theorem setPoison (s : State) (line : Nat) (p : Bool) : s.SameCourse (s.setPoison line p) :=
  ite (ite (refl s) ⟨rfl, rfl⟩) ⟨rfl, rfl⟩

theorem leavePa (s : State) (r pa : Nat) : s.SameCourse (s.leavePa r pa) := ite (refl s) ⟨rfl, rfl⟩
theorem leaveAll (s : State) (r : Nat) : s.SameCourse (s.leaveAll r) := ite (refl s) ⟨rfl, rfl⟩
theorem leaveHolds (s : State) (r : Nat) (keys : List Nat) : s.SameCourse (s.leaveHolds r keys) := ite (refl s) ⟨rfl, rfl⟩
theorem leavePage (s : State) (r : Nat) (asn : BitVec 16) (va : Nat) : s.SameCourse (s.leavePage r asn va) :=
  ite (refl s) (leaveHolds ..)

theorem holdReader (s : State) (r v agent : Nat) (view : Nat × Nat) : s.SameCourse (s.holdReader r v agent view) := by
  unfold State.holdReader
  extract_lets k w
  refine ite (refl s) ?_
  split
  · exact (SameBuffers.countAgent ..).toSameCourse
  · exact ((SameBuffers.setClock ..).trans (SameBuffers.countAgent ..)).toSameCourse

theorem queueAs (s : State) (r agent key : Nat) : s.SameCourse (s.queueAs r agent key) := by
  unfold State.queueAs
  split
  · exact holdReader ..
  · exact ⟨rfl, rfl⟩

theorem askHomes (s : State) (hub : Nat) (homes : List Nat) : s.SameCourse (s.askHomes hub homes) :=
  foldl (fun t _ => exchange t _ _ _) _ s

theorem keepAsn (s : State) (hub : Nat) (asn : BitVec 16) (x : Nat) : s.SameCourse (s.keepAsn hub asn x) :=
  ite (refl s) ⟨rfl, rfl⟩

theorem noteAsn (s : State) (asn : BitVec 16) (va : Nat) : s.SameCourse (s.noteAsn asn va) := by
  unfold State.noteAsn
  split
  · exact keepAsn ..
  · exact refl _

theorem noteWalk (s : State) (asn : BitVec 16) (va : Nat) : s.SameCourse (s.noteWalk asn va) := by
  unfold State.noteWalk
  extract_lets hub homes t
  have ht : s.SameCourse t :=
    ((askHomes s hub homes).trans (foldl (fun t k => (SameBuffers.hbmUse t k).toSameCourse) homes _)).trans (leaveHolds ..)
  clear_value t
  exact (ite ht (ht.trans (SameBuffers.countHub ..).toSameCourse)).trans (noteAsn ..)

theorem noteLeaf (s : State) (asn : BitVec 16) (acc : Access) (va : Nat) (pte : Word) (n pa : Nat) :
    s.SameCourse (s.noteLeaf asn acc va pte n pa) := by
  unfold State.noteLeaf
  extract_lets want s1 v e rest
  have h1 : s.SameCourse s1 :=
    ite (refl s) (((((askHomes s _ _).trans (recallLine ..)).trans (useGot ..)).trans (leaveHolds ..)).trans (homeWrite ..))
  clear_value s1
  exact h1.trans ⟨rfl, rfl⟩

theorem translate {asn : BitVec 16} {sup : Bool} {acc : Access} {va pa : Nat} {pte : Word} (h : s.translate asn sup acc va = .ok t pa pte) :
    s.SameCourse t := by
  unfold State.translate at h
  repeat' split at h
  all_goals cases h
  exact (noteWalk ..).trans (noteLeaf ..)

theorem accessPage (s : State) (w : Who) (acc : Access) (a : Nat) : (s.accessPage w acc a).All s.SameCourse := by
  have htr : (s.translate w.asn w.sup acc a).All s.SameCourse := by
    cases e : s.translate w.asn w.sup acc a with
    | ok t pa pte => exact translate e
    | _ => trivial
  unfold State.accessPage
  generalize s.translate w.asn w.sup acc a = r at htr
  split
  · exact htr
  · split
    · trivial
    · cases r with
      | ok t pa pte => exact SameCourse.trans htr (leavePage ..)
      | _ => trivial

theorem hitOrPage (s : State) (w : Who) (acc : Access) (a : Nat) : (s.hitOrPage w acc a).All s.SameCourse := by
  unfold State.hitOrPage
  split
  · split
    · exact refl s
    · exact accessPage ..
  · exact accessPage ..

/-! The lines of an access (R353, R356). -/

theorem retag (s : State) (frame : Nat) (asn : BitVec 16) (glob : Bool) (granule : Nat) :
    s.SameCourse (s.retag frame asn glob granule) := by
  unfold State.retag
  extract_lets put
  have hput (t : State) : t.SameCourse (put t) := ⟨rfl, rfl⟩
  split
  · exact hput s
  · exact ite (refl s) (ite (((SameBuffers.recallWhere ..).toSameCourse.trans (hput _)).trans ⟨rfl, rfl⟩) (hput s))

theorem request (s : State) (die hub line : Nat) (asn : BitVec 16) : s.SameCourse (s.request die hub line asn) :=
  ite ((SameBuffers.transmit s ..).trans (.transmit ..)).toSameCourse (SameBuffers.transmit s ..).toSameCourse

theorem reply (s : State) (die hub line : Nat) : s.SameCourse (s.reply die hub line) :=
  (ite (SameBuffers.transmit s ..).toSameCourse (refl s)).trans (SameBuffers.transmit ..).toSameCourse

theorem newCopy (s : State) (die line : Nat) (fwd : Option Bool) : s.SameCourse (s.newCopy die line fwd) := by
  cases fwd with
  | none => exact ⟨rfl, rfl⟩
  | some bad => exact ite ⟨rfl, rfl⟩ (ite ⟨rfl, rfl⟩ ⟨rfl, rfl⟩)

theorem fillCopy (s : State) (core cls : Nat) (miss : Bool) (fwd : Option Bool) (line : Nat) :
    s.SameCourse (s.fillCopy core cls miss fwd line) := by
  unfold State.fillCopy
  dsimp only
  refine ite (refl s) ?_
  generalize hu : (if miss = true then _ else s : State) = u
  have h : s.SameCourse u := by
    rw [← hu]
    exact ite ((newCopy s (core / 32) line fwd).trans ⟨rfl, rfl⟩) (refl s)
  exact ite (h.trans ⟨rfl, rfl⟩) h

theorem countMiss (s : State) (core cls line : Nat) (there : Bool) : s.SameCourse (s.countMiss core cls line there) :=
  ite ⟨rfl, rfl⟩ (ite ⟨rfl, rfl⟩ (refl s))

theorem freeTag (s : State) (frame : Nat) : s.SameCourse (s.freeTag frame) := (SameBuffers.freeTag s frame).toSameCourse

theorem touchLine (s : State) (die : Nat) (asn : BitVec 16) (glob : Bool) (granule line : Nat) (w : Want) (q : Ask)
    (grant : BitVec 4) (need : List Nat) : (s.touchLine die asn glob granule line w q grant need).All s.SameCourse := by
  unfold State.touchLine
  split
  · exact refl s
  · split
    · trivial
    · split
      · trivial
      · extract_lets hub frame switch s1 s2
        split
        · trivial
        · have h1 : s.SameCourse s1 := (ite (SameBuffers.countAgent ..).toSameCourse (refl s)).trans (request ..)
          have h2 : s.SameCourse s2 := ite (h1.trans (retag ..)) h1
          clear_value s2
          split
          · trivial
          · extract_lets s3
            have h3 : s.SameCourse s3 := ((h2.trans (SameBuffers.moveDir ..).toSameCourse).trans (useGot ..)).trans (reply ..)
            clear_value s3
            refine SameCourse.trans ?_ (freeTag ..)
            exact ite (h3.trans ⟨rfl, rfl⟩) h3

theorem touchLines (s : State) (die : Nat) (asn : BitVec 16) (glob : Bool) (va pa n : Nat) (w : Want) (q : Ask) (grant : BitVec 4) :
    (s.touchLines die asn glob va pa n w q grant).All s.SameCourse := by
  refine List.foldlRecOn _ _ (motive := Touch.All s.SameCourse) (refl s) fun r hr l _ => ?_
  cases r with
  | ok t => exact (touchLine t ..).imp fun _ hu => SameCourse.trans hr hu
  | held l => trivial
  | lost d => trivial

theorem accessLines (s : State) (w : Who) (acc : Access) (pte : Word) (a pa n : Nat) (want : Want) :
    (s.accessLines w acc pte a pa n want).All s.SameCourse := by
  unfold State.accessLines
  extract_lets lines hit s0
  have hmiss : s.SameCourse s0 := ite (foldl (fun t l => countMiss t ..) _ s) (refl s)
  split
  · trivial
  · generalize hr : s0.touchLines _ _ _ _ _ _ _ _ _ = r
    have hall : r.All s0.SameCourse := hr ▸ touchLines s0 ..
    cases r with
    | ok t => exact ((hmiss.trans hall).trans (leaveHolds ..)).trans (foldl (fun t l => fillCopy t ..) _ _)
    | held l => trivial
    | lost d => trivial

theorem leaveDie (s : State) (w : Who) (a : Nat) : (s.leaveDie w a).All s.SameCourse := by
  unfold State.leaveDie
  split
  · trivial
  · split
    · trivial
    · exact exchange ..

/-! Reads of views, and a load (R377, R417). -/

theorem watch (s : State) (v m : Nat) (front : Table (BitVec 32)) : ∀ t ∈ s.watch v m front, s.SameCourse t := by
  unfold State.watch
  extract_lets known below late s1 last k
  have h1 : s.SameCourse s1 :=
    (((SameBuffers.foldl (fun t j => SameBuffers.askHorizon t ..) _ s).trans (.bring ..)).trans (.bring ..)).toSameCourse
  clear_value s1
  split
  · exact forall_mem_some (refl s)
  · split
    · nofun
    · split
      · nofun
      · exact forall_mem_some (h1.trans ⟨rfl, rfl⟩)

theorem confirmRead (s : State) (agent reg b : Nat) : (s.confirmRead agent reg b).All s.SameCourse := by
  unfold State.confirmRead
  split
  · exact refl s
  · next r _ =>
    split
    · next t e =>
      have hall : ∀ u ∈ (r.masterHomes b).foldl (fun (o : Option State) m =>
          o.bind fun t => t.watch (r.home b) m (t.readFrontier (r.home b) agent)) (some s), s.SameCourse u := by
        refine List.foldlRecOn _ _ (motive := fun o : Option State => ∀ u ∈ o, s.SameCourse u) (by rintro u ⟨⟩; exact refl s) ?_
        intro o ho m _ u hu
        obtain ⟨t, ht, hu⟩ := Option.bind_eq_some_iff.1 hu
        exact (ho t ht).trans (watch _ _ _ _ u hu)
      exact hall t e
    · trivial

end State.SameCourse

/-- A block that serves a read changes nothing. -/
theorem State.viewArrive_serve (s : State) (h reg b : Nat) : (s.viewArrive h reg b).All (· = s) := by
  unfold State.viewArrive
  extract_lets x mine policy done
  have hdone (vs : Bool) : (done vs).All (· = s) := by
    simp only [done]
    split
    · trivial
    · exact rfl
  clear_value policy
  split
  · next e he =>
    obtain ⟨r, -, he⟩ := Option.bind_eq_some_iff.1 he
    obtain ⟨g, -, rfl⟩ := Option.map_eq_some_iff.1 he
    split <;> trivial
  · split
    · exact hdone false
    · split
      · trivial
      · exact hdone true
      · trivial

/-- What a read consumes, or loads of lane memory, it takes from the state as it is. -/
theorem State.consume_state (s : State) (w : Who) (a : Word) (pa n : Nat) (rows : List (Nat × List Byte)) :
    (s.consume w a pa n rows).All (· = s) := by
  unfold State.consume
  dsimp only
  split
  · split
    · trivial
    · exact rfl
  · split
    · trivial
    · exact rfl

theorem State.laneLoad_state (s : State) (w : Who) (core : Nat) (a : Word) (n : Nat) : (s.laneLoad w core a n).All (· = s) := by
  unfold State.laneLoad
  split
  · trivial
  · split
    · trivial
    · exact rfl

namespace State.SameCourse
variable {s t : State}

theorem viewLoad {go : State → Bool → List (Nat × List Byte) → Eff} (hgo : ∀ t c r, s.SameCourse t → (go t c r).All s.SameCourse)
    (w : Who) (a : Word) (l : List (Nat × Nat)) (t : State) (ht : s.SameCourse t) (cached : Bool) (rows : List (Nat × List Byte)) :
    (t.viewLoad w a go l cached rows).All s.SameCourse := by
  induction l generalizing t cached rows with
  | nil => exact hgo _ _ _ ht
  | cons b l ih =>
    obtain ⟨reg, b⟩ := b
    rw [State.viewLoad]
    split
    · trivial
    · next s0 e =>
      have h0 : t.SameCourse s0 := by
        split at e
        · cases e; exact refl t
        · exact (confirmRead t ..).ok e
      have h1 : s.SameCourse (s0.unread w.h) := (ht.trans h0).trans (SameBuffers.unread ..).toSameCourse
      dsimp only
      split
      · next u vs e =>
        obtain rfl : u = _ := (State.viewArrive_serve _ ..).serve e
        exact ih _ (ite (h1.trans (modHart ..)) h1) ..
      · exact ih _ h1 ..
      · trivial
      · trivial
      · trivial

theorem loadEl (s : State) (w : Who) (formatted : Bool) (a : Word) (n : Nat) : (s.loadEl w formatted a n).All s.SameCourse := by
  unfold State.loadEl
  split
  · exact (State.laneLoad_state ..).imp fun u hu => hu ▸ refl s
  · split
    · trivial
    · split
      · trivial
      · trivial
      · trivial
      · next s1 pa pte e =>
        have h1 : s.SameCourse s1 := (hitOrPage s w .load a.toNat).ok e
        split
        · split
          · split
            · trivial
            · exact (leaveDie s1 ..).bind fun u hu => h1.trans hu
          · trivial
        · dsimp only
          split
          · exact (accessLines s1 ..).bind fun u hu => (State.consume_state ..).imp fun t ht => ht ▸ h1.trans hu
          · exact (leaveDie s1 ..).bind (q := s.SameCourse) fun u hu => trivial
        · extract_lets body there
          have hbody (t : State) (c : Bool) (rows : List (Nat × List Byte)) (ht : s.SameCourse t) : (body t c rows).All s.SameCourse :=
            (accessLines t ..).bind fun u hu => (State.consume_state ..).imp fun v hv => hv ▸ ht.trans hu
          split
          · exact viewLoad (fun t c r ht => hbody _ _ _ ht) _ _ _ _ h1 ..
          · exact hbody _ _ _ h1

theorem pickSnap (s : State) (old : Option (List Byte)) (new : List Byte) : s.SameCourse (s.pickSnap old new).2 := by
  unfold State.pickSnap
  cases old with
  | none => exact refl s
  | some o =>
    dsimp only
    split
    · exact refl s
    · exact ⟨rfl, rfl⟩

theorem readBlock (s : State) (w : Who) (a : Word) : (s.readBlock w a).All s.SameCourse := by
  have hload := loadEl s w false a 128
  unfold State.readBlock
  generalize s.loadEl w false a 128 = r at hload
  cases r with
  | ok t v f => exact (SameCourse.trans hload (pickSnap t ..)).trans ⟨rfl, rfl⟩
  | _ => trivial

end State.SameCourse

end Sys2Proof.Machine

namespace Sys2Proof.Machine

section Engines
variable {s v : State} {i : Instr} {o : Fields} {agent eng room cost : Nat} {op : EngOp}

/-! The acceptance of an engine operation (R339). -/

theorem State.Quiet.deliverTicket {h : Nat} {t : State} (ht : t.QueueEmpty h) (d : Nat) (p k : Word) :
    (t.modHart h fun y => y.deliverTicket d p k).QueueEmpty h :=
  ht.modHart h fun x => ((x.varResult d p).varResult_queue (d + 1) k).trans (x.varResult_queue d p)

/-- An operation that the engine accepts delivers promise and ticket. -/
theorem acceptRes_accepted {t : State} {p k : Word} (hcur : v.cur = s.cur) (hdie : (v.hart s.cur).die = s.me.die)
    (hasn : (v.hart s.cur).asn = s.me.asn) (hopen : agent = s.me.die ∨ v.resync = false)
    (hacc : (v.exchange s.me.die agent (some s.me.asn)).accept agent eng room cost op = some (t, p, k)) :
    acceptRes v o agent eng room cost op =
      .ok ((t.endHolds s.cur).modHart s.cur fun y => y.deliverTicket o.d.toNat p k) := by
  have hheld : ¬ ((v.resync && agent != s.me.die) = true) := by
    rcases hopen with h | h <;> simp [h]
  unfold acceptRes
  simp only [hcur, hdie, hasn, if_neg hheld, hacc]

/-- The instruction completes where its effect is the acceptance of an operation. -/
theorem completes_accepted {t : State} {p k : Word} (body : State → Res) (h : s.CanRun i o) (hx : exec i s = issue i o body s)
    (hb : body s.begun = acceptRes v o agent eng room cost op) (hcur : v.cur = s.cur) (hdie : (v.hart s.cur).die = s.me.die)
    (hasn : (v.hart s.cur).asn = s.me.asn) (hq : v.QueueEmpty s.cur) (hopen : agent = s.me.die ∨ v.resync = false)
    (hacc : (v.exchange s.me.die agent (some s.me.asn)).accept agent eng room cost op = some (t, p, k)) :
    CompletesAs i o s ((t.endHolds s.cur).modHart s.cur fun y => y.deliverTicket o.d.toNat p k) := by
  refine completesAs_of body h hx (hb.trans (acceptRes_accepted hcur hdie hasn hopen hacc)) ?_
  obtain ⟨-, -, took, ht⟩ := State.accept_eq_some hacc
  have hsent : (v.exchange s.me.die agent (some s.me.asn)).QueueEmpty s.cur := hq.store (.exchange ..)
  have htq : t.QueueEmpty s.cur := by
    rw [ht]
    exact State.Quiet.ofHarts (s := State.setEngine _ agent eng _) hsent (.takeAll ..)
  exact ((htq.endHolds s.cur).deliverTicket ..).2

/-- The copy engine's limits of an address, met (R341). -/
theorem engAddrTrap_reach {lm store : Bool} {a : Word} {n : Nat}
    (h : if lm then a.toNat < laneSize ∧ a.toNat + n ≤ laneSize else a.toNat < 2 ^ 48) : engAddrTrap lm store a n = none := by
  unfold engAddrTrap
  split at h
  · next hlm =>
    rw [if_pos hlm, if_neg]
    omega
  · next hlm => rw [if_neg hlm, if_neg (Nat.not_le.2 h)]

/-! ACOPY and ACOPY2 (R341, R342). -/

theorem acopyBody_legal (h : s.AtRest) (hn : (s.me.reg (o.a.toNat + 2)).toNat ≤ 2 ^ 30)
    (hmeet : ¬ (o.f.getLsbD 0 = o.f.getLsbD 1 ∧ 0 < (s.me.reg (o.a.toNat + 2)).toNat ∧
      (s.me.reg o.a.toNat).toNat < (s.me.reg (o.a.toNat + 1)).toNat + (s.me.reg (o.a.toNat + 2)).toNat ∧
      (s.me.reg (o.a.toNat + 1)).toNat < (s.me.reg o.a.toNat).toNat + (s.me.reg (o.a.toNat + 2)).toNat))
    (hsrc : engAddrTrap (o.f.getLsbD 1) false (s.me.reg (o.a.toNat + 1)) (s.me.reg (o.a.toNat + 2)).toNat = none)
    (hdst : engAddrTrap (o.f.getLsbD 0) true (s.me.reg o.a.toNat) (s.me.reg (o.a.toNat + 2)).toNat = none) :
    acopyBody o s.begun = acceptRes s.begun o s.me.die (s.begun.copyEngine o s.me.die) 64 4
      (.copy s.me.asn s.me.sup s.me.coreNo (o.f.getLsbD 0) (o.f.getLsbD 1) (s.me.reg o.a.toNat).toNat
        (s.me.reg (o.a.toNat + 1)).toNat (s.me.reg (o.a.toNat + 2)).toNat) := by
  have hfit : ¬ (2 ^ 30 < (s.me.reg (o.a.toNat + 2)).toNat ∨
      (o.f.getLsbD 0 == o.f.getLsbD 1 && decide (0 < (s.me.reg (o.a.toNat + 2)).toNat) &&
        decide ((s.me.reg o.a.toNat).toNat < (s.me.reg (o.a.toNat + 1)).toNat + (s.me.reg (o.a.toNat + 2)).toNat) &&
        decide ((s.me.reg (o.a.toNat + 1)).toNat < (s.me.reg o.a.toNat).toNat + (s.me.reg (o.a.toNat + 2)).toNat)) = true) := by
    rintro (hbig | hover)
    · exact Nat.not_lt.2 hn hbig
    · simp only [Bool.and_eq_true, beq_iff_eq, decide_eq_true_eq, and_assoc] at hover
      exact hmeet hover
  unfold acopyBody
  simp only [State.begun_cur, State.begun_reg h, State.begun_waitMemory h, hsrc, hdst, if_neg hfit, firstTrap]
  rw [State.begun_me h]
  rfl

theorem acopy2Body_legal (h : s.AtRest) {shape rb rows np : Nat} (hshape : (s.me.reg (o.a.toNat + 3)).toNat = shape)
    (hrb : bitsOf shape 0 24 = rb) (hrows : bitsOf shape 24 16 = rows) (hnp : bitsOf shape 40 16 = np)
    (hal : (s.me.reg (o.a.toNat + 1)).toNat % 8 = 0) (hsrc : engAddrTrap false false (s.me.reg (o.a.toNat + 1)) 0 = none)
    (hdst : engAddrTrap (o.f.getLsbD 0) true (s.me.reg (o.a.toNat + 0)) (rb * rows * np) = none)
    (hrow : 1 ≤ rb ∧ rb ≤ 2 ^ 20) (hcount : 1 ≤ rows ∧ rows ≤ 4096) (hpatch : 1 ≤ np ∧ shape < 2 ^ 56)
    (hsize : rb * rows * np ≤ 2 ^ 30) :
    acopy2Body o s.begun = acceptRes s.begun o s.me.die (s.begun.copyEngine o s.me.die) 64 4
      (.gather s.me.asn s.me.sup s.me.coreNo (o.f.getLsbD 0) (s.me.reg (o.a.toNat + 0)).toNat (s.me.reg (o.a.toNat + 1)).toNat
        (s.me.reg (o.a.toNat + 2)).toInt rb rows np) := by
  have haligned : aligned (s.me.reg (o.a.toNat + 1)) 8 = true := decide_eq_true hal
  have hgood : ¬ ((decide (rb = 0) || decide (2 ^ 20 < rb) || decide (rows = 0) || decide (4096 < rows) || decide (np = 0) ||
      decide (2 ^ 56 ≤ shape) || decide (2 ^ 30 < rb * rows * np)) = true) := by
    generalize rb * rows * np = size at hsize
    simp only [Bool.or_eq_true, decide_eq_true_eq]
    omega
  unfold acopy2Body
  simp only [State.begun_cur, State.begun_reg h, State.begun_waitMemory h, hshape, hrb, hrows, hnp, haligned, hsrc, hdst,
    if_neg hgood, if_true, firstTrap]
  rw [State.begun_me h]
  rfl

/-! COLL (R345): reading its descriptor changes, of the hart, no more than its flags. -/

/-- Hart k differs from that of s in its FCSR at most. -/
def State.SameButFcsr (s : State) (k : Nat) (t : State) : Prop := ∃ f, t.hart k = { s.hart k with fcsr := f }

theorem State.SameButFcsr.of_hart {k : Nat} {t u : State} (h : s.SameButFcsr k t) (e : u.hart k = t.hart k) : s.SameButFcsr k u := by
  obtain ⟨f, hf⟩ := h
  exact ⟨f, e.trans hf⟩

theorem State.SameButFcsr.orFlags {k : Nat} {t : State} (h : s.SameButFcsr k t) (j : Nat) (f : BitVec 8) :
    s.SameButFcsr k (t.modHart j fun y => y.orFlags f) := by
  obtain ⟨g, hg⟩ := h
  by_cases hj : k = j
  · subst hj
    by_cases hk : k < t.harts.length
    · exact ⟨_, by rw [State.hart_modHart _ _ _ hk, hg]; rfl⟩
    · exact ⟨g, by rw [← hg]; simp [State.modHart, State.setHart, State.hart, hk]⟩
  · exact ⟨g, by rw [State.hart_modHart_ne _ _ _ _ hj, hg]⟩

theorem State.loadEl_fcsr (k : Nat) (w : Who) (formatted : Bool) (a : Word) (n : Nat) :
    (s.loadEl w formatted a n).All (s.SameButFcsr k) := by
  refine State.loadEl_all (fun t u e ht => ht.of_hart (e.hart k)) ⟨_, rfl⟩ w (fun t ht => ht.orFlags ..) formatted a n fun _ => ?_
  cases e : s.hitOrPage w .load a.toNat with
  | ok t pa pte => exact ⟨_, ((State.SameHarts.hitOrPage s w .load a.toNat).ok e).hart k⟩
  | _ => trivial

theorem State.pickSnap_harts (t : State) (old : Option (List Byte)) (new : List Byte) : (t.pickSnap old new).2.harts = t.harts := by
  unfold State.pickSnap
  cases old with
  | none => rfl
  | some x =>
    dsimp only
    split <;> rfl

theorem State.readBlock_fcsr (k : Nat) (w : Who) (a : Word) : (s.readBlock w a).All (s.SameButFcsr k) := by
  have hload := State.loadEl_fcsr (s := s) k w false a 128
  unfold State.readBlock
  generalize s.loadEl w false a 128 = r at hload
  cases r with
  | ok t v f => exact State.SameButFcsr.of_hart hload (congrArg (fun l : List Hart => l[k]?.getD {}) (t.pickSnap_harts ..))
  | _ => trivial

/-- COLL where its descriptor, read, is well formed, and its count legal. -/
theorem collBody_legal {u : State} {d n : Nat} {f : BitVec 8} (h : s.AtRest) (hal : (s.me.reg (o.a.toNat + 3)).toNat % 128 = 0)
    (hread : s.begun.readBlock (s.begun.who s.cur s.me.sup false (s.me.reg (o.a.toNat + 3))) (s.me.reg (o.a.toNat + 3)) = .ok u d f)
    (hill : collIll d (u.hub (s.me.die / 3)).pkgid.toNat = false) (hn : (s.me.reg (o.a.toNat + 2)).toNat = n)
    (hcount : ¬ (n = 0 ∨ 2 ^ 32 ≤ n ∨ (o.f.getLsbD 3 = true ∧ n % 128 ≠ 0))) : collBody o s.begun =
      acceptRes (u.modHart s.cur fun y => y.orFlags f) o (24 + s.me.die / 3) 4 256 (16 * ceilLog2 (bitsOf d 16 11 + 1))
        (.coll s.me.asn s.me.sup (bitsOf d 0 16) (o.f.toNat % 8) o.w.toNat (o.f.getLsbD 3) (s.me.reg (o.a.toNat + 0)).toNat
          (s.me.reg (o.a.toNat + 1)).toNat n (bitsOf d 16 11)
          ((findBelow (bitsOf d 16 11) fun k => collMember d k == (u.hub (s.me.die / 3)).pkgid.toNat).getD 0)) := by
  have haligned : aligned (s.me.reg (o.a.toNat + 3)) 128 = true := decide_eq_true hal
  have hsup : (s.begun.hart s.cur).sup = s.me.sup := by
    rw [State.begun_me h]
    rfl
  have hdie : (s.begun.hart s.cur).die = s.me.die := by
    rw [State.begun_me h]
    rfl
  have hasn : (s.begun.hart s.cur).asn = s.me.asn := by
    rw [State.begun_me h]
    rfl
  unfold collBody
  simp only [State.begun_cur, State.begun_reg h, State.begun_waitMemory h, hsup, hdie, hasn, haligned, hread, hill, hn, if_neg hcount,
    Bool.not_true, Bool.false_eq_true, if_false]
  rfl

end Engines

/-- Settles O43: the operands pass their checks, so the effect is the acceptance of the operation. -/
theorem engineInstructions : Obligations.EngineInstructions := by
  unfold Obligations.EngineInstructions
  intro s o x r dlm slm reach accepted n meet shape rb rows np coll
  have hcoll {i : Instr} (hx : exec i s = issue i o (collBody o) s) : coll i := by
    intro h hal u d f hread pkg m q hill hpos hlt hmult hopen t p k hacc
    have hcourse : s.begun.SameCourse u := (State.SameCourse.readBlock ..).ok hread
    obtain ⟨g, hg⟩ : s.begun.SameButFcsr s.cur (u.modHart s.cur fun y => y.orFlags f) :=
      ((State.readBlock_fcsr ..).ok hread).orFlags ..
    rw [State.begun_me h.toAtRest] at hg
    have hcount : ¬ (n = 0 ∨ 2 ^ 32 ≤ n ∨ (q = true ∧ n % 128 ≠ 0)) := by
      rintro (h0 | hbig | ⟨hq, hmod⟩)
      · omega
      · omega
      · exact hmod (hmult hq)
    exact completes_accepted (collBody o) h hx (collBody_legal h.toAtRest hal hread hill rfl hcount) hcourse.cur (by rw [hg]; rfl)
      (by rw [hg]; rfl) ⟨trivial, by rw [hg]; exact h.empty⟩ hopen hacc
  refine ⟨fun h hn hmeet hsrc hdst hopen t p k hacc => ?_,
    fun h hal hsrc hdst h1 h2 h3 h4 h5 h6 h7 hopen t p k hacc => ?_, hcoll rfl, hcoll rfl, hcoll rfl, hcoll rfl, hcoll rfl⟩
  case refine_1 =>
    refine completes_accepted (acopyBody o) h rfl
      (acopyBody_legal h.toAtRest hn hmeet (engAddrTrap_reach hsrc) (engAddrTrap_reach hdst)) rfl ?_ ?_
      (State.begun_quiet h.toAtRest trivial) hopen hacc
    · rw [State.begun_me h.toAtRest]; rfl
    · rw [State.begun_me h.toAtRest]; rfl
  case refine_2 =>
    refine completes_accepted (acopy2Body o) h rfl
      (acopy2Body_legal h.toAtRest rfl rfl rfl rfl hal (engAddrTrap_reach hsrc) (engAddrTrap_reach hdst)
        ⟨h1, h2⟩ ⟨h3, h4⟩ ⟨h5, h6⟩ h7) rfl ?_ ?_
      (State.begun_quiet h.toAtRest trivial) hopen hacc
    · rw [State.begun_me h.toAtRest]; rfl
    · rw [State.begun_me h.toAtRest]; rfl

end Sys2Proof.Machine

namespace Sys2Proof.Machine

/-! The dispatcher and the device (R309, R321): what they do at a TCB and to an image leaves whose turn it is, and the tasks, as they
were, but for a task that ends or is ready. -/

namespace State.SameCourse
variable {s t u : State}

theorem imgSend (s : State) (w : ImgWrite) : s.SameCourse (s.imgSend w) := by
  unfold State.imgSend
  extract_lets hub bs t
  have ht : s.SameCourse t := ((((leavePa s w.place w.pa).trans (SameBuffers.transmit ..).toSameCourse).trans
    (SameBuffers.transmit ..).toSameCourse).trans (takeHome ..)).trans (homeWrite ..)
  clear_value t
  exact ite (ht.trans (setPoison ..)) ht

theorem queueNew (s : State) (agent key : Nat) : s.SameCourse (s.queueNew agent key) := by
  have hqueue := queueAs s s.newPlace agent key
  exact ⟨hqueue.cur, hqueue.tasks⟩

theorem imgWrite (s : State) (h die pa : Nat) (data : Option (List Byte)) (poison : Bool) :
    s.SameCourse (s.imgWrite h die pa data poison) := by
  unfold State.imgWrite
  extract_lets w
  split
  · next k _ =>
    have hqueue := queueNew s die k
    exact ⟨hqueue.cur, hqueue.tasks⟩
  · exact imgSend ..

theorem saveImage (s : State) (h : Nat) (word : Instr → Nat) : s.SameCourse (s.saveImage h word) :=
  foldl (fun t _ => ite (imgWrite ..) (refl t)) _ s

theorem forgetLines (s : State) (h : Nat) : s.SameCourse (s.forgetLines h) := ⟨rfl, rfl⟩

theorem dropLines (s : State) (h : Nat) : s.SameCourse (s.dropLines h) := (saveImage ..).trans (forgetLines ..)

theorem stopHart (s : State) (h : Nat) (save : Bool) : s.SameCourse (s.stopHart h save) :=
  ((modHart s h Hart.halt).trans (SameBuffers.unread ..).toSameCourse).trans (ite (dropLines ..) (forgetLines ..))

theorem dropImages (s : State) (k : Nat) : s.SameCourse (s.dropImages k) := foldl dropLines _ s

theorem takeTcb (s : State) (r pa : Nat) : s.SameCourse (s.takeTcb r pa) := ((leavePa ..).trans (askHomes ..)).trans (takeHome ..)

theorem deviceStore (s : State) (me : Nat) (asn : BitVec 16) (va : Word) (n hub : Nat) (atomic : Bool) :
    (s.deviceStore me asn va n hub atomic).sameCourse s := by
  have hnote : s.SameCourse (s.noteWalk asn va.toNat) := noteWalk ..
  unfold State.deviceStore
  split
  · exact refl s
  · split
    · next s1 pa pte htr =>
      split
      · exact hnote
      · split
        · exact hnote
        · split
          · trivial
          · split
            · trivial
            · split
              · exact hnote
              · exact (((translate htr).trans (exchange ..)).trans (recallLine ..)).trans (useGot ..)
    · trivial
    · exact hnote

theorem decPreds (s : State) (hub pa st : Nat) : s.SameCourse (s.decPreds hub pa st) :=
  ite (SameBuffers.countHub ..).toSameCourse (homeWrite ..)

end State.SameCourse

/-! A task that has ended stays ended. -/

def State.TaskEnded (s : State) (k : Nat) : Prop := ∃ t, s.tasks[k]? = some t ∧ t.ended = true

theorem modAt_getElem?_ne {α : Type} (l : List α) {j k : Nat} (f : α → α) (h : k ≠ j) : (modAt l j f)[k]? = l[k]? := by
  induction l generalizing j k with
  | nil => rfl
  | cons x l ih =>
    cases j with
    | zero => cases k with
      | zero => exact absurd rfl h
      | succ k => rfl
    | succ j => cases k with
      | zero => rfl
      | succ k => exact ih fun e => h (congrArg _ e)

section Ended
variable {s t : State} {k : Nat}

theorem State.TaskEnded.course (h : s.TaskEnded k) (e : s.SameCourse t) : t.TaskEnded k := by
  rwa [State.TaskEnded, e.tasks]

theorem State.TaskEnded.modTask (h : s.TaskEnded k) (j : Nat) {f : Task → Task} (hf : ∀ y, y.ended = true → (f y).ended = true) :
    (s.modTask j f).TaskEnded k := by
  obtain ⟨y, hy, hend⟩ := h
  by_cases hj : k = j
  · subst hj
    exact ⟨f y, modAt_getElem? hy, hf y hend⟩
  · exact ⟨y, (modAt_getElem?_ne _ f hj).trans hy, hend⟩

theorem State.TaskEnded.endTcb (h : s.TaskEnded k) (asn : BitVec 16) (tcb : Word) (pa st status : Nat) (ending : PredEnd) :
    (s.endTcb asn tcb pa st status ending).1.TaskEnded k := by
  have hset : (s.tcbSet pa st status).TaskEnded k := h.course (.homeWrite ..)
  unfold State.endTcb
  dsimp only
  split
  · exact hset.modTask _ fun _ _ => rfl
  · exact hset

theorem State.TaskEnded.enterReady (h : s.TaskEnded k) (pa : Nat) : (s.enterReady pa).TaskEnded k := by
  unfold State.enterReady
  split
  · exact h.modTask _ fun _ he => he
  · exact h

theorem State.TaskEnded.predAt (h : s.TaskEnded k) (asn : BitVec 16) (succ : Word) (ending : PredEnd) (pa : Nat) :
    (s.predAt asn succ ending pa).1.TaskEnded k := by
  have hdec (st : Nat) : (s.decPreds (hubOf succ.toNat) pa st).TaskEnded k := h.course (.decPreds ..)
  unfold State.predAt
  dsimp only
  split
  · exact hdec _
  · split
    · split
      · exact (hdec _).enterReady pa
      · exact hdec _
    · exact h.endTcb ..

theorem State.TaskEnded.devStep (h : s.TaskEnded k) {me : Nat} {p : DevOp} {l : List DevOp} (hstep : s.devStep me p = .ok t l) :
    t.TaskEnded k := by
  unfold State.devStep at hstep
  split at hstep
  · next asn va data hub =>
    have hdev := SameCourse.deviceStore s me asn va 8 hub false
    split at hstep <;> rename_i hat <;> rw [hat] at hdev <;> cases hstep
    · exact h.course (SameCourse.trans hdev (.homeWrite ..))
    · exact h.course (SameCourse.trans hdev ⟨rfl, rfl⟩)
  · next asn succ ending hub =>
    have hdev := SameCourse.deviceStore s me asn succ 128 hub true
    split at hstep <;> rename_i hat <;> rw [hat] at hdev <;> cases hstep
    · exact (h.course hdev).predAt ..
    · exact h.course (SameCourse.trans hdev ⟨rfl, rfl⟩)
  · split at hstep
    · cases hstep; exact h
    · split at hstep <;> cases hstep
      exact (h.course (.takeTcb ..)).endTcb ..

theorem State.TaskEnded.devAll (fuel me : Nat) (l : List DevOp) (h : s.TaskEnded k) : (State.devAll fuel me l s).TaskEnded k := by
  induction fuel generalizing l s with
  | zero => exact h
  | succ fuel ih =>
    cases l with
    | nil => exact h
    | cons p ps =>
      rw [State.devAll]
      split
      · next t l hstep => exact ih _ ((h.devStep hstep).course (.leaveAll ..))
      · exact h.course (.trans (t := s.queueAs me 24 _) (.queueAs ..) ⟨rfl, rfl⟩)

/-- The task that finishes has ended. -/
theorem State.finishTask_ended {y : Task} (h : s.tasks[k]? = some y) (st status : Nat) (ending : PredEnd) :
    (s.finishTask k st status ending).TaskEnded k :=
  State.TaskEnded.devAll _ _ _ ⟨_, modAt_getElem? h, rfl⟩

theorem State.TaskEnded.failDone (h : s.TaskEnded k) : s.failDone k = s := by
  obtain ⟨y, hy, hend⟩ := h
  unfold State.failDone
  simp only [hy, hend, Bool.true_or, if_true]
  split <;> rfl

end Ended

/-! Harts that stop with an empty queue (R309). -/

/-- Each hart is of the same task in s and t. -/
def State.SameTaskOf (s t : State) : Prop := ∀ j, (t.hart j).task = (s.hart j).task

/-- No hart of task k has an entry in its queue. -/
def State.TaskIdle (s : State) (k : Nat) : Prop := ∀ j, (s.hart j).task = some k → (s.hart j).queue = []

theorem Hart.varResult_task (x : Hart) (d : Nat) (v : Word) : (x.varResult d v).task = x.task := Hart.setReg_task ..

theorem Hart.landAll_task (x : Hart) : x.landAll.task = x.task := by
  have hone (y : Hart) (w : PendWrite) : (y.landOne w).task = y.task := by
    unfold Hart.landOne Hart.setPred Hart.setReg
    split_ifs <;> rfl
  exact List.foldlRecOn _ _ (motive := fun y : Hart => y.task = x.task) rfl fun y hy w _ => (hone y w).trans hy

theorem Hart.endStarted_task (x : Hart) : x.endStarted.task = x.task := by
  unfold Hart.endStarted
  split
  · rfl
  · split
    · dsimp only
      split
      · exact Hart.varResult_task ..
      · rfl
    · rfl

theorem Hart.halt_task (x : Hart) : x.halt.task = x.task := x.endStarted.landAll_task.trans x.endStarted_task

section Idle
variable {s t : State} {k : Nat}

theorem State.SameTaskOf.modHart (s : State) (h : Nat) {f : Hart → Hart} (hf : ∀ x, (f x).task = x.task) :
    s.SameTaskOf (s.modHart h f) := by
  intro j
  by_cases hj : j = h
  · subst hj
    by_cases hlt : j < s.harts.length
    · rw [State.hart_modHart _ _ _ hlt, hf]
    · simp [State.modHart, State.setHart, State.hart, hlt]
  · rw [State.hart_modHart_ne _ _ _ _ hj]

theorem State.SameTaskOf.forgetLines (s : State) (h : Nat) : s.SameTaskOf (s.forgetLines h) :=
  State.SameTaskOf.modHart s h (f := fun x => { x with leftAt := none }) fun _ => rfl

theorem State.SameTaskOf.dropLines (s : State) (h : Nat) : s.SameTaskOf (s.dropLines h) := fun j =>
  (State.SameTaskOf.forgetLines _ h j).trans (congrArg Hart.task ((SameHarts.saveImage s h instrWord).hart j))

theorem State.SameTaskOf.stopHart (s : State) (h : Nat) : s.SameTaskOf (s.stopHart h true) := fun j =>
  (State.SameTaskOf.dropLines _ h j).trans ((congrArg Hart.task (State.unread_hart ..)).trans
    (State.SameTaskOf.modHart s h Hart.halt_task j))

theorem State.TaskIdle.step (h : s.TaskIdle k) (htask : s.SameTaskOf t) (hempty : ∀ j, KeepsEmpty j s t) : t.TaskIdle k :=
  fun j hj => (hempty j).empty (h j ((htask j).symm.trans hj))

theorem State.TaskIdle.stopHart (h : s.TaskIdle k) (j : Nat) : (s.stopHart j true).TaskIdle k :=
  h.step (.stopHart s j) fun _ => .stopHart s j true

theorem State.TaskIdle.dropImages (h : s.TaskIdle k) (n : Nat) : (s.dropImages n).TaskIdle k :=
  List.foldlRecOn _ _ (motive := fun t : State => t.TaskIdle k) h fun t ht j _ =>
    ht.step (.dropLines t j) fun _ => .dropLines t j

theorem State.TaskIdle.ofHarts (h : s.TaskIdle k) (e : s.SameHarts t) : t.TaskIdle k :=
  fun j hj => by
    rw [e.hart] at hj ⊢
    exact h j hj

theorem State.TaskIdle.modTask (h : s.TaskIdle k) (n : Nat) (f : Task → Task) : (s.modTask n f).TaskIdle k := h

/-- A hart without a started entry stops at once. -/
theorem State.haltHart_empty {h : Nat} (hq : (s.hart h).queue = []) : s.haltHart h = s.stopHart h true := by
  simp [State.haltHart, Hart.headStarted, hq]

/-- Harts of an idle task stop one by one, each at once. -/
theorem State.TaskIdle.haltAll (l : List Nat) (hl : ∀ h ∈ l, (s.hart h).task = some k) (h : s.TaskIdle k) :
    l.foldl State.haltHart s = l.foldl (fun t n => t.stopHart n true) s ∧ (l.foldl (fun t n => t.stopHart n true) s).TaskIdle k := by
  induction l generalizing s with
  | nil => exact ⟨List.foldl_nil.trans List.foldl_nil.symm, h⟩
  | cons n l ih =>
    have hn : s.haltHart n = s.stopHart n true := State.haltHart_empty (h n (hl n List.mem_cons_self))
    simp only [List.foldl_cons, hn]
    exact ih (fun j hj => (State.SameTaskOf.stopHart s n j).trans (hl j (List.mem_cons_of_mem _ hj))) (h.stopHart n)

/-- Of harts that have no entries, none is left to finish. -/
theorem State.finishHalted_all (l : List Nat) (hl : ∀ h ∈ l, (s.hart h).queue = []) :
    l.foldl (fun (d : Drive) h => d.bind fun t => t.finishHalted h) (.ok s) = .ok s := by
  induction l with
  | nil => rfl
  | cons n l ih =>
    have hn : s.finishHalted n = .ok s := by simp [State.finishHalted, hl n List.mem_cons_self]
    rw [List.foldl_cons, Drive.bind, hn]
    exact ih fun h hh => hl h (List.mem_cons_of_mem _ hh)

/-- A failing task, idle and without images to write, is finished. -/
theorem State.TaskIdle.failDone {y : Task} {status : Nat} (h : s.TaskIdle k) (hy : s.tasks[k]? = some y) (hend : y.ended = false)
    (hst : y.st = .failing status) (himages : (s.dropImages k).imagesOut k = false) :
    s.failDone k = (s.dropImages k).finishTask k 6 status .failed := by
  have hidle : (s.harts.any fun x => x.task == some k && !x.queue.isEmpty) = false := by
    refine List.any_eq_false.mpr fun x hx => ?_
    obtain ⟨j, hj⟩ := List.getElem?_of_mem hx
    have hhart : s.hart j = x := by rw [State.hart, hj]; rfl
    have hqueue := h j
    rw [hhart] at hqueue
    by_cases htask : x.task = some k
    · simp [hqueue htask]
    · simp [htask]
  unfold State.failDone
  simp only [hy, hst, hend, hidle, himages, Bool.or_self, Bool.false_eq_true, if_false]

theorem State.taskIdle_of (h : ∀ x ∈ s.harts, x.task = some k → x.queue = []) : s.TaskIdle k := by
  intro j hj
  cases e : s.harts[j]? with
  | none =>
    rw [State.hart, e] at hj
    cases hj
  | some x =>
    have hhart : s.hart j = x := by rw [State.hart, e]; rfl
    rw [hhart] at hj ⊢
    exact h x (List.mem_of_getElem? e) hj

end Idle

/-! The events (R309 to R313, R319, R326). -/

/-- A RUNNING task fails; here no hart of it has an entry to complete (R309). -/
theorem exec_taskFailure {s : State} {k status : Nat} {y : Task} (hy : s.tasks[k]? = some y) (hend : y.ended = false)
    (hst : y.st = .running) (hidle : ∀ x ∈ s.harts, x.task = some k → x.queue = []) :
    let u := (((s.taskHarts k).foldl (fun s h => s.stopHart h true) s).modTask k fun t => { t with st := .failing status }).dropImages k
    u.imagesOut k = false → exec (.taskFailure k status) s = .next (u.finishTask k 6 status .failed) := by
  intro u himages
  have htask : ∀ h ∈ s.taskHarts k, (s.hart h).task = some k := by
    intro h hh
    have hb := (List.mem_filter.1 hh).2
    simp only [Bool.and_eq_true, beq_iff_eq] at hb
    exact hb.1
  obtain ⟨hhalt, hstopped⟩ := (State.taskIdle_of hidle).haltAll (s.taskHarts k) htask
  have hcourse : s.SameCourse ((s.taskHarts k).foldl (fun s h => s.stopHart h true) s) :=
    .foldl (fun t h => .stopHart t h true) _ s
  have hfailing : (((s.taskHarts k).foldl (fun s h => s.stopHart h true) s).modTask k fun t =>
      { t with st := .failing status }).tasks[k]? = some { y with st := .failing status } :=
    modAt_getElem? (by rw [hcourse.tasks]; exact hy)
  have hfail : s.failTask k status = u.finishTask k 6 status .failed := by
    unfold State.failTask
    simp only [hy, hhalt]
    rw [if_neg (by simp [hend, hst])]
    exact (hstopped.modTask k _).failDone hfailing hend rfl himages
  have hidleEnd : (u.finishTask k 6 status .failed).TaskIdle k :=
    ((hstopped.modTask k _).dropImages k).ofHarts (.finishTask ..)
  have hended : (u.finishTask k 6 status .failed).TaskEnded k :=
    State.finishTask_ended (by rw [(State.SameCourse.dropImages _ k).tasks]; exact hfailing) ..
  have hsteps := State.finishHalted_all (s := u.finishTask k 6 status .failed)
    ((List.range (u.finishTask k 6 status .failed).harts.length).filter fun h =>
      ((u.finishTask k 6 status .failed).hart h).task == some k) fun h hh => hidleEnd h (by simpa using (List.mem_filter.1 hh).2)
  show execTaskFailure k status s = _
  rw [execTaskFailure, hfail, State.failStep, hsteps, Drive.bind, hended.failDone]
  rfl

/-- A claimed or bound hart's state, where no hart of its level or above waits to be bound again (R313, R318). -/
theorem State.claimNext_dispatch {s t : State} {k : Nat} (hsome : s.tasks ≠ []) (hready : s.nextReady = some k)
    (hdispatch : s.dispatch = some t)
    (hlevel : ∀ h, s.nextRebind = some h → ((s.tasks[k]?).map Task.levelNow).getD 4 < s.rebindLevel h) : s.claimNext = some t := by
  have hbind : s.nextBind = some (((s.tasks[k]?).map Task.levelNow).getD 4, t) := by
    have hmany : s.tasks.isEmpty = false := by simpa using hsome
    simp [State.nextBind, hmany, hready, hdispatch]
  rw [State.claimNext, hbind, Option.bind_some]
  split
  · next h hrebind => exact if_pos (hlevel h hrebind)
  · rfl

/-- Settles O56: each event's guard is met, and a failed task, ended once, is not finished a second time. -/
theorem taskEvents : Obligations.TaskEvents := by
  unfold Obligations.TaskEvents
  intro s
  refine ⟨fun v hreq => ⟨fun hfree => ?published, fun k hwaits => ?queued⟩, fun asn tcb ending => rfl,
    fun k t hsome hready hdispatch hlevel => ?claimed,
    fun k t ht hdue => ⟨s.modTask k fun t => { t with aged := t.aged + 1 }, congrArg Host.Outcome.next (if_pos hdue),
      modAt_getElem? ht, rfl⟩,
    fun h hdue hlt => ⟨s.modHart h fun x => { x with preempt := some 1 }, ?preempts, State.hart_modHart _ _ _ hlt,
      fun k hk => State.hart_modHart_ne _ _ _ _ hk, rfl⟩,
    fun k => rfl, fun k status t ht hend hst hidle => exec_taskFailure ht hend hst hidle⟩
  case published =>
    show execHostPublication s = _
    simp only [execHostPublication, hreq, hfree]
  case queued =>
    show execHostPublication s = _
    simp only [execHostPublication, hreq, hwaits]
  case claimed =>
    show execDispatchClaim s = _
    rw [execDispatchClaim, State.claimNext_dispatch hsome hready hdispatch hlevel]
    rfl
  case preempts =>
    show execLevel0Preempt s = _
    simp only [execLevel0Preempt, hdue]

end Sys2Proof.Machine
